-- ==== Sys2Proof/Word.lean ====
section
/-! DEFINITION. The machine's word types and its one table type: a list of key and value pairs with a
default for the keys it does not list. -/

namespace Sys2Proof

/-- A 32-bit word: one lane's value (R1, R190). -/
abbrev Word := BitVec 32
/-- A byte of memory. -/
abbrev Byte := BitVec 8
/-- A 64-bit word: a generic address, a Skeah time, a mailbox word. -/
abbrev DWord := BitVec 64

/-- A table: pairs of a key and a value, the first pair of a key standing for it. -/
abbrev Tbl (α : Type) := List (Nat × α)

/-- The value of key `k`, or `d` where the table lists none. -/
def Tbl.get {α : Type} (t : Tbl α) (d : α) (k : Nat) : α :=
  match t with
  | [] => d
  | (k', a) :: r => if k' = k then a else Tbl.get r d k

/-- The table with `a` under key `k`. -/
def Tbl.set {α : Type} (t : Tbl α) (k : Nat) (a : α) : Tbl α :=
  match t with
  | [] => [(k, a)]
  | (k', a') :: r => if k' = k then (k, a) :: r else (k', a') :: Tbl.set r k a

/-- The table without key `k`. -/
def Tbl.del {α : Type} (t : Tbl α) (k : Nat) : Tbl α := t.filter fun e => e.1 != k

/-- Whether the table lists key `k`. -/
def Tbl.has {α : Type} (t : Tbl α) (k : Nat) : Bool := t.any fun e => e.1 == k

/-- The table with `f` applied to every value. -/
def Tbl.mapVal {α : Type} (t : Tbl α) (f : α → α) : Tbl α := t.map fun e => (e.1, f e.2)

/-- Thirty-two lane values, lane 0 first (R15). -/
structure Lanes where
  vals : List Word
  len : vals.length = 32
  deriving DecidableEq, Repr

/-- The lanes that `f` gives. -/
def Lanes.ofFn (f : Nat → Word) : Lanes := ⟨(List.range 32).map f, by simp⟩
/-- Lane `i`'s value. -/
def Lanes.get (v : Lanes) (i : Nat) : Word := v.vals.getD i 0
/-- The same value in every lane. -/
def Lanes.splat (x : Word) : Lanes := Lanes.ofFn fun _ => x
/-- Every lane zero. -/
def Lanes.zero : Lanes := Lanes.splat 0

/-- The lane numbers. -/
def laneNums : List Nat := List.range 32

/-- Bit `i` of a lane mask. -/
def laneIn (m : Word) (i : Nat) : Bool := m.getLsbD i
/-- The full mask. -/
def fullMask : Word := 0xFFFFFFFF
/-- The mask of the lanes for which `p` holds. -/
def maskOf (p : Nat → Bool) : Word :=
  BitVec.ofNat 32 ((List.range 32).foldl (fun a i => if p i then a + 2 ^ i else a) 0)
/-- The lowest lane of a mask (0 for an empty one). -/
def lowestLane (m : Word) : Nat := ((List.range 32).find? fun i => laneIn m i).getD 0
/-- The lanes of a mask, ascending. -/
def lanesOf (m : Word) : List Nat := (List.range 32).filter fun i => laneIn m i

end Sys2Proof
end

