-- ==== Sys2Proof/Syntax.lean ====
section
/-! DEFINITION. The syntax: operand forms, modifiers, and one constructor per row of
spec/opcode_table.json. The instructions of the 40-bit slots come from the opcode map R55 to R62, the
front-end ones from R414, the events from the rules the table names. -/

namespace Sys2Proof

/-! ### Operands (R45, R46, R50 to R52) -/

/-- The special read-only sources (R51). -/
inductive Special where
  | lane | group | team | steam | span | core | cluster | amask
  deriving DecidableEq, Repr

/-- What a source specifier names (R50). -/
inductive Spec where
  | v (n : Nat) | o (n : Nat) | l (n : Nat) | f (n : Nat) | k (n : Nat) | p (n : Nat)
  | special (s : Special) | const (n : Nat)
  deriving DecidableEq, Repr

/-- A source operand: its specifier and its last-use bit (R45). -/
structure Src where
  spec : Spec
  lu : Bool
  deriving DecidableEq, Repr

/-- A destination (R46): a v, an o or a k register. -/
inductive Dst where
  | v (n : Nat) | o (n : Nat) | k (n : Nat)
  deriving DecidableEq, Repr

/-- A C7 operand: a v register and its last-use bit (R45). -/
structure CSrc where
  n : Nat
  lu : Bool
  deriving DecidableEq, Repr

/-! ### Modifiers -/

/-- Signed or unsigned 32-bit reading (R215). -/
inductive Sgn where | s32 | u32
  deriving DecidableEq, Repr
/-- The three float blocks (R57, R222). -/
inductive FBlk where | f32 | h2bf16 | h2fp16
  deriving DecidableEq, Repr
/-- The rounding selector (R212). -/
inductive RSel where | dflt | rne | rtz | rup | rdn | rna | srh
  deriving DecidableEq, Repr
/-- Integer comparisons (R216). -/
inductive ICc where | eq | ne | lts | les | gts | ges | ltu | leu | gtu | geu
  deriving DecidableEq, Repr
/-- Float comparisons (R225). -/
inductive FCc where | eq | ne | lt | le | gt | ge | un
  deriving DecidableEq, Repr
/-- Dot-product element formats (R218). -/
inductive DotF where | s8s8 | u8u8 | s8u8 | s4s4
  deriving DecidableEq, Repr
/-- Conversion formats in R58's order. -/
inductive CvtF where | s8 | u8 | s16 | u16 | s32 | u32 | e4m3 | e5m2 | fp16 | bf16
  deriving DecidableEq, Repr
/-- Quantised formats (R231, R232). -/
inductive QntF where | s8 | s4 | e4m3 | e5m2
  deriving DecidableEq, Repr
/-- PACK widths (R233). -/
inductive PackW where | b4 | b8 | b16
  deriving DecidableEq, Repr
/-- UNPK element types (R234). -/
inductive UnpkT where | u4 | s4 | u8 | s8 | u16 | s16
  deriving DecidableEq, Repr
/-- PERM units (R237). -/
inductive PermW where | b8 | b4
  deriving DecidableEq, Repr
/-- SHFL modes (R238). -/
inductive ShflM where | idx | up | down | xor
  deriving DecidableEq, Repr
/-- VOTE modes (R240). -/
inductive VoteM where | any | all | ballot
  deriving DecidableEq, Repr
/-- Lane reduction operations (R241). -/
inductive LOp where | add | mins | minu | maxs | maxu | and | or | xor | fadd | fmin | fmax
  deriving DecidableEq, Repr
/-- Access widths W3 (R49). -/
inductive Width where | u8 | s8 | u16 | s16 | w32 | w64 | w128
  deriving DecidableEq, Repr
/-- The address forms of the memory instructions (R109, R118, R123). -/
inductive AForm where | gen | loc | clu
  deriving DecidableEq, Repr
/-- Scopes (R129). -/
inductive Scope where | grp | team | clus | dev | dom | sys
  deriving DecidableEq, Repr
/-- Atomic operations (R133). -/
inductive AOp where | add | and | or | xor | mins | minu | maxs | maxu | xchg | cas | fadd
  deriving DecidableEq, Repr
/-- FENCE kinds (R136). -/
inductive FenceK where | full | acq | rel
  deriving DecidableEq, Repr
/-- SPCAST sources (R131). -/
inductive CastFrom where | gen | loc | c32
  deriving DecidableEq, Repr
/-- SPCAST targets (R131). -/
inductive CastTo where | scr | clu | loc | c32
  deriving DecidableEq, Repr
/-- Weight tags (R247, R259). -/
inductive WTag where | s8 | s4 | bf16 | fp16 | e4m3 | e5m2
  deriving DecidableEq, Repr
/-- Format pairs of MMR and MMC, activation first (R61). -/
inductive MPair where | s8s8 | s8s4 | s4s4 | s4s8
  deriving DecidableEq, Repr
/-- MMF formats (R266). -/
inductive MFmt where | bf16 | fp16 | e4m3 | e5m2
  deriving DecidableEq, Repr
/-- QDRAIN formats (R270). -/
inductive DFmt where | f32 | bf16 | fp16 | e4m3 | e5m2 | pair
  deriving DecidableEq, Repr
/-- QSCALE targets (R268). -/
inductive ScaleT where | row | col | colG64
  deriving DecidableEq, Repr
/-- VLEFT selectors (R375). -/
inductive LeftK where | b | e | t
  deriving DecidableEq, Repr
/-- FLTRD fields (R407). -/
inductive FltK where | lo | hi | cause
  deriving DecidableEq, Repr

/-! ### Arguments of the events -/

/-- MEMMODE of a die (R72). -/
inductive MemMode where | interleaved | linear
  deriving DecidableEq, Repr
/-- Power states (R430). -/
inductive Power where | running | idle | refresh
  deriving DecidableEq, Repr
/-- A unit with a calendar (R339): a core's issue selector, a fabric port, a memory channel. -/
inductive CalUnit where | core (n : Nat) | port (n : Nat) | chan (n : Nat)
  deriving DecidableEq, Repr

/-- What the signed firmware image carries (R426). -/
structure Image where
  memmode : List MemMode          -- dies 0 to 3 (R72)
  replicaPool : List Nat          -- lines per die (R84)
  maps : List (Nat × List Word)   -- decode maps other than 0, 1,024 entries each (R65)
  hvec : DWord                    -- default handler entry (R402)
  src : BitVec 2                  -- time source (R324)
  coreCal : List Byte             -- calendars (R339)
  portCal : List Byte
  chanCal : List Byte
  conn : List Word                -- CONN[0..17] (R424)
  layout : List (Nat × Nat × Nat) -- cluster ports, memory ports, front-end cores of each partition, as bits (R413)
  buffers : List Nat              -- where each front-end core's ring loop keeps its private buffer (R418)
  modes : List (Nat × Nat)        -- permitted (partition, DTABLE.MODE) pairs other than service (R66)
  faultRecords : List (List Byte) -- the default fault-service record of each partition, 256 bytes (R431)
  digest : Nat                    -- SHA-384 digest of the image (R427)
  version : Nat
  configDigest : Nat
  deriving DecidableEq, Repr

/-- A CXL.mem or Brynrik access (R296, R425): a read, a write of bytes, or an atomic add-like operation. -/
inductive ExtAcc where
  | read (pa n : Nat)
  | write (pa : Nat) (bytes : List Byte)
  | atomic (pa : Nat) (op : AOp) (b c : Word)
  deriving DecidableEq, Repr

/-! ### The instructions and events, one constructor per row of spec/opcode_table.json -/

/-- The one syntax of steps. `fn` is a function (VDID) number, `g` a group identifier, `sp` a split
number, `l` a launch identifier, `t` a team identifier, `fe` a front-end core. -/
inductive Instr where
  -- boot and attestation (R426, R427)
  | powerOnBoot (img : Image) (signatureOk : Bool)
  | negotiateAlgorithms (ecdsaP384 sha384 : Bool)
  | getCertificate (slot : Nat)
  | challenge (nonce : Nat)
  -- mailbox commands (R421, R422); args are the words from offset 0x0008
  | setepoch (fn : Nat) (t : DWord)
  | timepost (fn : Nat) (t delay : DWord)
  | partcreate (fn : Nat) (args : List DWord)
  | partdestroy (fn part : Nat)
  | calwrite (fn : Nat) (u : CalUnit) (entries : List Byte)
  | connwrite (fn port : Nat) (stks : Word)
  | ctxkill (fn ctx : Nat)
  | ctxleave (fn ctx : Nat)
  | ctxresume (fn ctx : Nat)
  | ctxcreate (fn : Nat) (args : List DWord)
  | vdsetup (fn : Nat) (args : List DWord)
  | pagereq (fn : Nat) (args : List DWord) (answer : Option (List DWord))
  | powerStateChange (tgt : Power)
  -- invalidation port (R88, R89) and stage-2 responses (R100)
  | invStageWrite (fn off : Nat) (bytes : List Byte)
  | invAllVdid (fn vdid : Nat)
  | invStage1Range (fn vdid size : Nat) (addr : DWord)
  | invStage2Range (fn vdid size : Nat) (addr : DWord)
  | invEveryVdid (fn : Nat)
  | invalComplete (fn : Nat)
  | stage2Retry (tag : Word)
  | stage2Fatal (tag : Word)
  -- host, peers, time, links, monitors
  | ringDoorbell (fn ring : Nat) (tail : DWord)
  | hostAccess (a : ExtAcc)
  | peerAccess (a : ExtAcc)
  | timeSyncExchange (port : Nat) (sync delay : Nat × Nat)
  | brynrikLinkDown (port : Nat)
  | peerAccessAbort (g acc : Nat)
  | throttle (part mhz : Nat)
  | throttleEnd (part : Nat)
  | patrolScrubError (pa : Nat)
  | fabricParityError (pa g : Nat)
  -- scheduler
  | admissionDecision (prefCores : List Nat)
  | spanStart (l span : Nat)
  | teamEnd (t : Nat)
  | launchEnd (l : Nat)
  | calendarSwitch (u : CalUnit)
  | castlingSwap (core planes : Nat)
  | fumaroleLoad (core l : Nat)
  | leaveForcedHalt (ctx : Nat)
  | leaveKill (ctx : Nat)
  | deadlineReached (l : Nat)
  | cutTimeReached (l : Nat)
  | energyUpdate (l n : Nat)
  | cutRecordUpdate (l : Nat)
  | passCommit (l h : Nat)
  | vbeginRetry (g sp : Nat)
  | vwaitWake (g sp : Nat)
  -- faults and traps
  | faultHandlerLaunch (die ctx : Nat)
  | logReplay (g entry : Nat)
  | trapDelivery (g sp : Nat)
  | lateCauseDelivery (g sp : Nat)
  | illegalOpcode (op : Nat)
  -- memory in flight
  | heldArrival (g acc : Nat)
  | holdRelease (home : Nat)
  | loadReturn (g acc : Nat) (parts : List Nat)
  | replicaUpdate (die line : Nat)
  | regionWriteback (t region line : Nat)
  | copyComplete (g slot n : Nat)
  -- wakes
  | cwaitWake (g sp : Nat)
  | barwWake (g sp : Nat)
  | tsyncWake (g sp : Nat)
  | joinWake (g sp : Nat)
  | twaitExpiry (g sp : Nat)
  | exitComplete (g sp : Nat)
  | slowPathCommit (g i : Nat)
  | sliceStep (g : Nat)
  -- front end: packets (R416 to R418)
  | launchPacket (fe addr : Nat)
  | beginPacket (fe addr : Nat)
  | commitPacket (fe addr : Nat)
  | waitPacket (fe addr : Nat)
  | signalPacket (fe addr : Nat)
  | indirectPacket (fe addr : Nat)
  -- front end: the custom-0 extension (R414, R415)
  | rfet (d s : Nat)
  | xbfx (d s t : Nat)
  | swait (d s t : Nat)
  | xdisp (d s : Nat)
  -- control and system (R55)
  | bra (off : Int)
  | bnz (a : Src) (off : Int)
  | bz (a : Src) (off : Int)
  | bdv (off : Int)
  | jpt (a : Src) (n : Nat)
  | bix (a : Src)
  | call (off : Int)
  | trap (n : Nat)
  | tret (next : Bool)
  | srd (d : Dst) (reg : Nat)
  | swr (reg : Nat) (a : Src)
  | pfdoneReplay (lane : Nat)
  | pfdoneAbort (lane : Nat)
  | mapidWrite (w : Word)
  | dtdataWrite (w : Word)
  | bkpt (n : Nat)
  | fltrd (f : FltK) (d : Dst)
  -- integer and logic (R56)
  | iadd (d : Dst) (a b : Src)
  | isub (d : Dst) (a b : Src)
  | iadds (sg : Sgn) (d : Dst) (a b : Src)
  | isubs (sg : Sgn) (d : Dst) (a b : Src)
  | imul (d : Dst) (a b : Src)
  | imulh (sg : Sgn) (d : Dst) (a b : Src)
  | imad (d : Dst) (a b : Src) (c : CSrc)
  | imin (sg : Sgn) (d : Dst) (a b : Src)
  | imax (sg : Sgn) (d : Dst) (a b : Src)
  | iabs (d : Dst) (a : Src)
  | ineg (d : Dst) (a : Src)
  | idot4 (f : DotF) (d : Dst) (a b : Src) (c : CSrc)
  | and (d : Dst) (a b : Src)
  | or (d : Dst) (a b : Src)
  | xor (d : Dst) (a b : Src)
  | andn (d : Dst) (a b : Src)
  | shl (d : Dst) (a b : Src)
  | shr (d : Dst) (a b : Src)
  | sar (d : Dst) (a b : Src)
  | rotl (d : Dst) (a b : Src)
  | bfe (sgn : Bool) (d : Dst) (a : Src) (pos len : Nat)
  | bfi (d : Dst) (a b : Src) (c : CSrc)
  | popc (d : Dst) (a : Src)
  | clz (d : Dst) (a : Src)
  | brev (d : Dst) (a : Src)
  | icmp (cc : ICc) (d : Dst) (a b : Src)
  | sel (d : Dst) (a b : Src) (kn : Nat)
  | mov (d : Dst) (a : Src)
  | movi (d : Dst) (e : Int)
  | limm (d : Dst) (lit : Nat)
  -- float (R57)
  | fadd (f : FBlk) (r : RSel) (d : Dst) (a b : Src)
  | fsub (f : FBlk) (r : RSel) (d : Dst) (a b : Src)
  | fmul (f : FBlk) (r : RSel) (d : Dst) (a b : Src)
  | ffma (f : FBlk) (d : Dst) (a b : Src) (c : CSrc)
  | fmin (f : FBlk) (d : Dst) (a b : Src)
  | fmax (f : FBlk) (d : Dst) (a b : Src)
  | fcmp (f : FBlk) (cc : FCc) (d : Dst) (a b : Src)
  | fclass (f : FBlk) (d : Dst) (a : Src)
  | fround (f : FBlk) (r : RSel) (d : Dst) (a : Src)
  | fdiv (f : FBlk) (r : RSel) (d : Dst) (a b : Src)
  | fsqrt (f : FBlk) (r : RSel) (d : Dst) (a : Src)
  | frcp (f : FBlk) (r : RSel) (d : Dst) (a : Src)
  | frsq (f : FBlk) (r : RSel) (d : Dst) (a : Src)
  | fexp (f : FBlk) (r : RSel) (d : Dst) (a : Src)
  | fexp2 (f : FBlk) (r : RSel) (d : Dst) (a : Src)
  | flog (f : FBlk) (r : RSel) (d : Dst) (a : Src)
  | flog2 (f : FBlk) (r : RSel) (d : Dst) (a : Src)
  | fsin (f : FBlk) (r : RSel) (d : Dst) (a : Src)
  | fcos (f : FBlk) (r : RSel) (d : Dst) (a : Src)
  | ftanh (f : FBlk) (r : RSel) (d : Dst) (a : Src)
  | twosum (d : Nat) (a b : Src)
  | twoprod (d : Nat) (a b : Src)
  | padd (d : Nat) (a b : Src)
  | pnorm (d : Nat) (a : Src)
  -- conversion and lanes (R58)
  | cvtTo (tgt : CvtF) (r : RSel) (d : Dst) (a : Src)
  | cvtFrom (fr : CvtF) (r : RSel) (d : Dst) (a : Src)
  | qnt (f : QntF) (d : Dst) (a b : Src) (c : CSrc)
  | dqnt (f : QntF) (d : Dst) (a b : Src) (c : CSrc)
  | pack (w : PackW) (d : Dst) (a b : Src) (c : CSrc)
  | unpk (t : UnpkT) (d : Dst) (a b : Src)
  | rnse (d : Dst) (a : Src)
  | rnsd (d : Dst) (a : Src)
  | acvt (d : Dst) (a : Src) (anchor : Int)
  | perm (w : PermW) (d : Dst) (a b : Src) (c : CSrc)
  | shfl (m : ShflM) (d : Dst) (a b : Src) (c : CSrc)
  | bcast (d : Dst) (a b : Src)
  | vote (m : VoteM) (d : Dst) (a : Src)
  | lred (op : LOp) (pair : Bool) (d : Dst) (a : Src)
  | lscan (op : LOp) (ex : Bool) (d : Dst) (a : Src)
  -- registers as such (R184 to R188) and modes (R243)
  | shape (d : Dst) (a : Nat)
  | mkaff (d : Dst) (a b : Src)
  | mkuni (chk : Bool) (d : Dst) (a : Src)
  | free (a n : Nat)
  | regq (grp : Bool) (d : Dst) (a : Nat)
  | sfmt (imm : Option Nat) (a : Src)
  | gfmt (d : Dst)
  | srnd (imm : Option Nat) (a : Src)
  | grnd (d : Dst)
  | flags (d : Dst)
  | flagsClr (d : Dst) (a : Src)
  -- memory (R59)
  | ld (w : Width) (d : Dst) (a : Src) (off : Int)
  | st (w : Width) (s : Nat) (a : Src) (off : Int)
  | lds (w : Width) (d : Dst) (a : Src) (off : Int)
  | sts (w : Width) (s : Nat) (a : Src) (off : Int)
  | ldc (w : Width) (d : Dst) (a : Src) (off : Int)
  | stc (w : Width) (s : Nat) (a : Src) (off : Int)
  | ldUni (fm : AForm) (w : Width) (d : Dst) (a : Src) (off : Int)
  | ldNb (fm : AForm) (w : Width) (rel : Bool) (d : Dst) (a t : Src)
  | stVa (fm : AForm) (w : Width) (rel : Bool) (s : Nat) (a t : Src)
  | ldAcq (fm : AForm) (w : Width) (sc : Scope) (d : Dst) (a : Src)
  | stRel (fm : AForm) (w : Width) (sc : Scope) (a s : Src)
  | sptest (d : Dst) (a : Src)
  | spcast (fr : CastFrom) (tgt : CastTo) (d : Dst) (a : Src)
  | pfet (a : Src) (off : Int)
  | atom (op : AOp) (d : Dst) (a b : Src) (c : CSrc)
  | atoms (op : AOp) (d : Dst) (a b : Src) (c : CSrc)
  | asum (a x : Src) (anchor : Int)
  | fence (k : FenceK) (sc : Scope)
  | rmap (d : Nat) (a b : Src) (c : CSrc)
  | rflush (n : Src)
  | rdrop (n : Src)
  | tnow (d : Nat)
  | twait (rel : Bool) (a : Src)
  -- copies, barrier objects, access engine (R60)
  | cpy (a : Src)
  | cpyFeed (n : Nat) (a : Src)
  | cpyl (a : Src)
  | cbatch (d : Nat)
  | cwait (all : Bool) (a : Src)
  | bari (b : Src) (n : Nat)
  | barx (c32 : Bool) (b : Src) (c : Nat)
  | bara (c32 : Bool) (b : Src)
  | barw (d : Nat) (b : Src)
  | astart (a : Src) (x : Nat)
  | astop (discard : Bool)
  | fstat (d : Dst)
  -- matrix (R61)
  | wld (tag : WTag) (m : Nat) (a : Src) (c : Nat)
  | mmr (p : MPair) (lowh : Bool) (q m c : Nat) (a : Src) (lo : Nat)
  | mmrHold (p : MPair) (lowh : Bool) (q m c : Nat) (a : Src) (lo : Nat)
  | mmf (f : MFmt) (q m c : Nat) (a : Src)
  | mmc (p : MPair) (lowh : Bool) (q m c : Nat) (a : Src) (lo : Nat)
  | mmcHold (p : MPair) (lowh : Bool) (q m c : Nat) (a : Src) (lo : Nat)
  | qzero (q c : Nat)
  | qdrain (f : DFmt) (r : RSel) (z : Bool) (a : Src) (q c s : Nat)
  | qscale (bf16 : Bool) (t : ScaleT) (q : Nat) (a : Src)
  | qsave (a : Src) (q c : Nat)
  | qload (a : Src) (q c : Nat)
  | qstat (d : Dst) (q : Nat)
  -- versions and launches (R62)
  | vbegin (h : Nat) (a : Src)
  | vslot (prev : Bool) (d : Nat) (h : Nat)
  | vseal (h : Nat) (a : Src) (b : Nat)
  | vsealFinal (h : Nat) (a : Src) (b : Nat)
  | vpin (d : Nat) (h : Nat) (a : Src)
  | vunpin (h : Nat)
  | vwait (d : Nat) (h : Nat) (a : Src) (t : Option Src)
  | vstat (d : Dst) (h w : Nat)
  | vleft (k : LeftK) (d : Nat)
  | launch (d : Nat) (a : Src)
  | join (d : Nat) (a : Src)
  | bleft (d : Nat)
  | dline (rel : Bool) (d : Nat)
  -- the table's last rows
  | writePerformed (g acc : Nat) (parts : List Nat)
  | tempThrottleLimit (die mhz : Nat)
  | prologueReturn (fe n : Nat)
  -- the constructors without arguments: boot and attestation, links, and the events at the core, front
  -- end or die that the state's `site` names
  | getVersion
  | getCapabilities
  | getDigests
  | getMeasurements
  | cxlLinkFailure
  | hostRestart
  | lockLossTimeout
  | tempCritical
  | droop
  | castlingRequest
  | fumaroleSpill
  | zugzwangSpill
  | matrixStart
  | matrixResume
  | matrixComplete
  | waitPacketRelease
  | prologueTimeout
  | swaitWake
  -- and the instructions without operands
  | nop
  | ret
  | exit
  | yld
  | tsync
  | halt
  deriving DecidableEq, Repr

end Sys2Proof
end

