-- ==== Sys2Proof/Machine/Num.lean ====
section
/-! DEFINITION. Number formats and rounding (R189 to R206): exact values, RoundTo, the pair steps, the
residue triple. An exact value is a natural mantissa times a power of two, with a sticky mark for a real
that lies strictly between that value and the next mantissa. -/

namespace Sys2Proof.Machine

open Sys2Proof

/-! ### Exact values -/

/-- ±(mant + δ) × 2^exp, with δ = 0, or 0 < δ < 1 when `sticky`. -/
structure Exact where
  neg : Bool
  mant : Nat
  exp : Int
  sticky : Bool
  deriving DecidableEq, Repr

/-- A value: NaN, an infinity, or an exact real (a zero keeps its sign). -/
inductive Val where
  | nan
  | inf (neg : Bool)
  | fin (x : Exact)
  deriving DecidableEq, Repr

/-- The exact value ±m × 2^e. -/
def Val.of (neg : Bool) (m : Nat) (e : Int) : Val := .fin ⟨neg, m, e, false⟩

/-- An integer. -/
def Val.ofInt (n : Int) : Val := .of (decide (n < 0)) n.natAbs 0

/-- Zero of a sign. -/
def Val.zero (neg : Bool) : Val := .of neg 0 0

/-- Whether a value is a zero. -/
def Val.isZero : Val → Bool
  | .fin x => decide (x.mant = 0) && !x.sticky
  | _ => false

/-- The sign of a value (false for NaN). -/
def Val.neg : Val → Bool
  | .nan => false
  | .inf n => n
  | .fin x => x.neg

/-- The value with its sign inverted. -/
def Val.negate : Val → Val
  | .nan => .nan
  | .inf n => .inf (!n)
  | .fin x => .fin { x with neg := !x.neg }

/-! ### Formats (R189, R191) -/

/-- The floating formats. -/
inductive FFmt where | e4m3 | e5m2 | fp16 | bf16 | fp32
  deriving DecidableEq, Repr

/-- The integer formats. -/
inductive IFmt where | s4 | s8 | u8 | s16 | u16 | s32 | u32
  deriving DecidableEq, Repr

/-- Exponent bits. -/
def FFmt.e : FFmt → Nat
  | .e4m3 => 4
  | .e5m2 => 5
  | .fp16 => 5
  | .bf16 => 8
  | .fp32 => 8

/-- Mantissa bits. -/
def FFmt.m : FFmt → Nat
  | .e4m3 => 3
  | .e5m2 => 2
  | .fp16 => 10
  | .bf16 => 7
  | .fp32 => 23

/-- Bias. -/
def FFmt.bias : FFmt → Nat
  | .e4m3 => 7
  | .e5m2 => 15
  | .fp16 => 15
  | .bf16 => 127
  | .fp32 => 127

/-- Width in bits. -/
def FFmt.bits (f : FFmt) : Nat := 1 + f.e + f.m

/-- The canonical NaN (R193). -/
def FFmt.nan : FFmt → Nat
  | .e4m3 => 0x7F
  | .e5m2 => 0x7E
  | .fp16 => 0x7E00
  | .bf16 => 0x7FC0
  | .fp32 => 0x7FC00000

/-- The pattern of the largest finite value. -/
def FFmt.maxPat : FFmt → Nat
  | .e4m3 => 0x7E
  | .e5m2 => 0x7B
  | .fp16 => 0x7BFF
  | .bf16 => 0x7F7F
  | .fp32 => 0x7F7FFFFF

/-- The sign bit. -/
def FFmt.signBit (f : FFmt) (neg : Bool) : Nat := if neg then 2 ^ (f.e + f.m) else 0

/-- The pattern of an infinity (none in E4M3). -/
def FFmt.infPat (f : FFmt) : Nat := (2 ^ f.e - 1) * 2 ^ f.m

/-- Bits, signedness. -/
def IFmt.bits : IFmt → Nat
  | .s4 => 4
  | .s8 => 8
  | .u8 => 8
  | .s16 => 16
  | .u16 => 16
  | .s32 => 32
  | .u32 => 32

def IFmt.signed : IFmt → Bool
  | .s4 => true
  | .s8 => true
  | .s16 => true
  | .s32 => true
  | _ => false

def IFmt.min (f : IFmt) : Int := if f.signed then -(2 ^ (f.bits - 1) : Int) else 0
def IFmt.max (f : IFmt) : Int := if f.signed then 2 ^ (f.bits - 1) - 1 else 2 ^ f.bits - 1

/-- The value of a pattern (R192, R193). -/
def FFmt.value (f : FFmt) (p : Nat) : Val :=
  let neg := p / 2 ^ (f.e + f.m) % 2 == 1
  let ex := p / 2 ^ f.m % 2 ^ f.e
  let ma := p % 2 ^ f.m
  if ex = 2 ^ f.e - 1 ∧ f = .e4m3 ∧ ma = 7 then .nan
  else if ex = 2 ^ f.e - 1 ∧ f ≠ .e4m3 then (if ma = 0 then .inf neg else .nan)
  else if ex = 0 then .of neg ma (1 - (f.bias : Int) - f.m)
  else .of neg (2 ^ f.m + ma) ((ex : Int) - f.bias - f.m)

/-- The value of an integer pattern. -/
def IFmt.value (f : IFmt) (p : Nat) : Int :=
  let x := p % 2 ^ f.bits
  if f.signed && decide (2 ^ (f.bits - 1) ≤ x) then (x : Int) - 2 ^ f.bits else x

/-! ### Rounding (R197 to R201) -/

/-- Rounding modes (R197). -/
inductive RMode where | rne | rtz | rup | rdn | rna | srh
  deriving DecidableEq, Repr

/-- A rounding context (R199). -/
structure Ctx where
  mode : RMode
  seed : Nat
  satf : Bool
  e4nan : Bool
  index : Nat
  deriving DecidableEq, Repr

/-- "A call written RoundTo(x, F, RNE)" (R199). -/
def Ctx.rne : Ctx := ⟨.rne, 0, false, false, 0⟩

/-- RMODE.MODE (R197); 110 and 111 are never held. -/
def RMode.decode (n : Nat) : RMode :=
  match n with
  | 1 => .rtz
  | 2 => .rup
  | 3 => .rdn
  | 4 => .rna
  | 5 => .srh
  | _ => .rne

/-- The context that RMODE and FMT hold (R197, R198). -/
def Ctx.ofRegs (rmode fmt : Word) (index : Nat) : Ctx :=
  ⟨RMode.decode (rmode.toNat % 8), rmode.toNat / 65536, fmt.getLsbD 0, fmt.getLsbD 1, index⟩

/-- The selector's mode in place of RMODE's (R212). -/
def Ctx.select (c : Ctx) : RSel → Ctx
  | .dflt => c
  | .rne => { c with mode := .rne }
  | .rtz => { c with mode := .rtz }
  | .rup => { c with mode := .rup }
  | .rdn => { c with mode := .rdn }
  | .rna => { c with mode := .rna }
  | .srh => { c with mode := .srh }

/-- The counter hash (R200). -/
def srhThreshold (seed index : Nat) : Nat :=
  let w := 2 ^ 64
  let x0 := Nat.xor (seed % 65536 * 2 ^ 48) (index % 2 ^ 48)
  let x1 := Nat.xor x0 (x0 / 2 ^ 33)
  let x2 := x1 * 0xFF51AFD7ED558CCD % w
  let x3 := Nat.xor x2 (x2 / 2 ^ 33)
  let x4 := x3 * 0xC4CEB9FE1A85EC53 % w
  let x5 := Nat.xor x4 (x4 / 2 ^ 33)
  x5 / 2 ^ 40

/-- The flags (R204). -/
def flNX : Word := 1
def flUF : Word := 2
def flOF : Word := 4
def flDZ : Word := 8
def flNV : Word := 16

/-- The result of Choose on a magnitude: how many quanta, and whether the value was a multiple. -/
structure Chosen where
  n : Nat
  exact : Bool
  deriving DecidableEq, Repr

/-- Choose (R199) for the quantum 2^k, on magnitudes: floor and ceiling exchange for negative values. -/
def choose (x : Exact) (k : Int) (c : Ctx) : Chosen :=
  let sh := (k - x.exp).toNat
  let m := if k ≤ x.exp then x.mant * 2 ^ (x.exp - k).toNat else x.mant
  let n := m / 2 ^ sh
  let r := m % 2 ^ sh
  if r = 0 ∧ x.sticky = false then ⟨n, true⟩
  else
    let gt := decide (2 ^ sh < 2 * r) || (decide (2 * r = 2 ^ sh) && x.sticky)
    let eq := decide (2 * r = 2 ^ sh) && !x.sticky
    let lo24 := r * 2 ^ 24 / 2 ^ sh
    let hi24 := if r * 2 ^ 24 % 2 ^ sh = 0 ∧ x.sticky = false then lo24 else lo24 + 1
    let thr := srhThreshold c.seed c.index
    let up :=
      match c.mode with
      | .rne => gt || (eq && decide (n % 2 = 1))
      | .rna => gt || eq
      | .rtz => false
      | .rup => !x.neg
      | .rdn => x.neg
      | .srh => if x.neg then !decide (thr < 2 ^ 24 - hi24) else decide (thr < lo24)
    ⟨if up then n + 1 else n, false⟩

/-- RoundTo for an integer format: the integer and the flags. -/
def roundInt (f : IFmt) (c : Ctx) (x : Val) : Int × Word :=
  match x with
  | .nan => (0, flNV)
  | .inf neg => (if neg then f.min else f.max, flNV)
  | .fin x =>
    let ch := choose x 0 c
    let y : Int := if x.neg then -(ch.n : Int) else ch.n
    if y < f.min ∨ f.max < y then (if x.neg then f.min else f.max, flNV)
    else (y, if ch.exact then 0 else flNX)

/-- RoundTo for a floating format: the pattern and the flags. -/
def roundFlt (f : FFmt) (c : Ctx) (x : Val) : Nat × Word :=
  match x with
  | .nan => (f.nan, 0)
  | .inf neg =>
    if f = .e4m3 then (if c.e4nan then f.nan else f.signBit neg + f.maxPat, flNV)
    else (f.signBit neg + f.infPat, 0)
  | .fin x =>
    if x.mant = 0 ∧ x.sticky = false then (f.signBit x.neg, 0)
    else
      let emin : Int := 1 - (f.bias : Int)
      let lg : Int := x.exp + (Nat.log2 x.mant : Nat)
      let k : Int := max lg emin - f.m
      let ch := choose x k c
      let fl := if ch.exact then 0 else if lg < emin then flNX ||| flUF else flNX
      let p := ((k + f.m + f.bias - 1).toNat) * 2 ^ f.m + ch.n
      if f.maxPat < p then
        let fl := fl ||| flOF ||| flNX
        if f = .e4m3 then (if c.e4nan then f.nan else f.signBit x.neg + f.maxPat, fl)
        else if c.mode = .rtz ∨ (c.mode = .rup ∧ x.neg = true) ∨ (c.mode = .rdn ∧ x.neg = false) ∨
            c.satf = true then (f.signBit x.neg + f.maxPat, fl)
        else (f.signBit x.neg + f.infPat, fl)
      else (f.signBit x.neg + p, fl)

/-! ### Exact arithmetic -/

/-- Exact sum of two reals without sticky marks. The sign of a zero sum is R202's. -/
def addExact (a b : Exact) (rdn : Bool) : Exact :=
  let e := min a.exp b.exp
  let ia : Int := (a.mant * 2 ^ (a.exp - e).toNat : Nat)
  let ib : Int := (b.mant * 2 ^ (b.exp - e).toNat : Nat)
  let s := (if a.neg then -ia else ia) + (if b.neg then -ib else ib)
  if s = 0 then ⟨if a.neg = b.neg then a.neg else rdn, 0, 0, false⟩
  else ⟨decide (s < 0), s.natAbs, e, false⟩

/-- Sum of values, with the flags of an invalid case. -/
def addVal (rdn : Bool) (a b : Val) : Val × Word :=
  match a, b with
  | .nan, _ => (.nan, 0)
  | _, .nan => (.nan, 0)
  | .inf x, .inf y => if x = y then (.inf x, 0) else (.nan, flNV)
  | .inf x, _ => (.inf x, 0)
  | _, .inf y => (.inf y, 0)
  | .fin x, .fin y => (.fin (addExact x y rdn), 0)

/-- Product of values. -/
def mulVal (a b : Val) : Val × Word :=
  let sg := a.neg != b.neg
  match a, b with
  | .nan, _ => (.nan, 0)
  | _, .nan => (.nan, 0)
  | .inf _, y => if y.isZero then (.nan, flNV) else (.inf sg, 0)
  | x, .inf _ => if x.isZero then (.nan, flNV) else (.inf sg, 0)
  | .fin x, .fin y => (.of sg (x.mant * y.mant) (x.exp + y.exp), 0)

/-- a × b + c with one rounding to come (R223): 0 × ∞ is invalid whatever c holds. -/
def fmaVal (rdn : Bool) (a b c : Val) : Val × Word :=
  let p := mulVal a b
  if p.2 ≠ 0 then p
  else addVal rdn p.1 c

/-- The digits of a quotient below its integer part. -/
def quotBits : Nat := 256

/-- a ÷ b (R223). -/
def divVal (a b : Val) : Val × Word :=
  let sg := a.neg != b.neg
  match a, b with
  | .nan, _ => (.nan, 0)
  | _, .nan => (.nan, 0)
  | .inf _, .inf _ => (.nan, flNV)
  | .inf _, _ => (.inf sg, 0)
  | .fin _, .inf _ => (.zero sg, 0)
  | .fin x, .fin y =>
    if y.mant = 0 then (if x.mant = 0 then (.nan, flNV) else (.inf sg, flDZ))
    else if x.mant = 0 then (.zero sg, 0)
    else
      let n := x.mant * 2 ^ quotBits
      (.fin ⟨sg, n / y.mant, x.exp - y.exp - quotBits, n % y.mant != 0⟩, 0)

/-- The integer square root: the bits from `b - 1` down, onto `r`. -/
def isqrtGo (n : Nat) : Nat → Nat → Nat
  | 0, r => r
  | b + 1, r => if (r + 2 ^ b) * (r + 2 ^ b) ≤ n then isqrtGo n b (r + 2 ^ b) else isqrtGo n b r

/-- ⌊√n⌋ for n below 2^1024. -/
def isqrt (n : Nat) : Nat := isqrtGo n 512 0

/-- √a (R223). -/
def sqrtVal (a : Val) : Val × Word :=
  match a with
  | .nan => (.nan, 0)
  | .inf neg => if neg then (.nan, flNV) else (.inf false, 0)
  | .fin x =>
    if x.mant = 0 then (.zero x.neg, 0)
    else if x.neg then (.nan, flNV)
    else
      let m := if x.exp % 2 = 0 then x.mant else 2 * x.mant
      let e := if x.exp % 2 = 0 then x.exp else x.exp - 1
      let n := m * 2 ^ 400
      let r := isqrt n
      (.fin ⟨false, r, e / 2 - 200, r * r != n⟩, 0)

/-- 1 ÷ a (R223). -/
def rcpVal (a : Val) : Val × Word :=
  match a with
  | .nan => (.nan, 0)
  | .inf neg => (.zero neg, 0)
  | .fin x => if x.mant = 0 then (.inf x.neg, flDZ) else divVal (.of false 1 0) a

/-- 1 ÷ √a (R223). -/
def rsqVal (a : Val) : Val × Word :=
  match a with
  | .nan => (.nan, 0)
  | .inf neg => if neg then (.nan, flNV) else (.zero false, 0)
  | .fin x =>
    if x.mant = 0 then (.inf x.neg, flDZ)
    else if x.neg then (.nan, flNV)
    else
      let m := if x.exp % 2 = 0 then x.mant else 2 * x.mant
      let e := if x.exp % 2 = 0 then x.exp else x.exp - 1
      let r := isqrt (2 ^ 800 / m)
      (.fin ⟨false, r, -(e / 2) - 400, r * r * m != 2 ^ 800⟩, 0)

/-! ### Comparison -/

/-- The order of two exact reals without sticky marks, as integers over a common exponent. -/
def cmpExact (a b : Exact) : Ordering :=
  let e := min a.exp b.exp
  let ia : Int := (a.mant * 2 ^ (a.exp - e).toNat : Nat)
  let ib : Int := (b.mant * 2 ^ (b.exp - e).toNat : Nat)
  compare (if a.neg then -ia else ia) (if b.neg then -ib else ib)

/-- The order of two values; `none` with a NaN. -/
def cmpVal (a b : Val) : Option Ordering :=
  match a, b with
  | .nan, _ => none
  | _, .nan => none
  | .inf x, .inf y => some (if x = y then .eq else if x then .lt else .gt)
  | .inf x, _ => some (if x then .lt else .gt)
  | _, .inf y => some (if y then .gt else .lt)
  | .fin x, .fin y => some (cmpExact x y)

/-! ### Patterns of FP32 and operations on them -/

/-- F(x) (R210). -/
def f32 (w : Word) : Val := FFmt.fp32.value w.toNat

/-- RoundTo(x, FP32, RNE). -/
def rne32 (x : Val) : Word × Word :=
  let r := roundFlt .fp32 Ctx.rne x
  (BitVec.ofNat 32 r.1, r.2)

/-- The only flags that the error-free steps may set (R205, R206). -/
def nvOf (fl : Word) : Word := fl &&& (flNV ||| flOF)

/-- RoundTo(a + b, FP32, RNE) on patterns. -/
def fadd32 (a b : Word) : Word × Word :=
  let s := addVal false (f32 a) (f32 b)
  let r := rne32 s.1
  (r.1, r.2 ||| s.2)

/-- RoundTo(a × b, FP32, RNE) on patterns. -/
def fmul32 (a b : Word) : Word × Word :=
  let s := mulVal (f32 a) (f32 b)
  let r := rne32 s.1
  (r.1, r.2 ||| s.2)

/-- The pattern with its sign inverted (a − b is a + (−b)). -/
def fneg32 (a : Word) : Word := a ^^^ 0x80000000

/-- Whether a pattern is an infinity or a NaN. -/
def notFinite32 (a : Word) : Bool := (a >>> 23) &&& 0xFF == 0xFF

/-- A pair (R194): s and c. -/
structure Pair where
  s : Word
  c : Word
  deriving DecidableEq, Repr

/-- TwoSum (R205): Knuth's six operations; only the first can set NV or OF. -/
def twoSum (a b : Word) : Pair × Word :=
  let s := fadd32 a b
  let bb := (fadd32 s.1 (fneg32 a)).1
  let ab := (fadd32 s.1 (fneg32 bb)).1
  let db := (fadd32 b (fneg32 bb)).1
  let da := (fadd32 a (fneg32 ab)).1
  let c := (fadd32 da db).1
  (⟨s.1, if notFinite32 s.1 then 0 else c⟩, nvOf s.2)

/-- TwoProd (R205). -/
def twoProd (a b : Word) : Pair × Word :=
  let p := fmul32 a b
  let d := addVal false (mulVal (f32 a) (f32 b)).1 (f32 p.1).negate
  (⟨p.1, if notFinite32 p.1 then 0 else (rne32 d.1).1⟩, nvOf p.2)

/-- PairNorm (R206). -/
def pairNorm (x : Pair) : Pair × Word := twoSum x.s x.c

/-- PairAdd (R206). -/
def pairAdd (x y : Pair) : Pair × Word :=
  let t := twoSum x.s y.s
  let c1 := fadd32 x.c y.c
  let c2 := fadd32 c1.1 t.1.c
  let n := pairNorm ⟨t.1.s, c2.1⟩
  (n.1, t.2 ||| nvOf c1.2 ||| nvOf c2.2 ||| n.2)

/-- The exact value s + c of a pair. -/
def Pair.val (x : Pair) : Val := (addVal false (f32 x.s) (f32 x.c)).1
/-- The same sum under a rounding mode, which signs an exact zero (R202). -/
def Pair.valIn (x : Pair) (m : RMode) : Val := (addVal (decide (m = .rdn)) (f32 x.s) (f32 x.c)).1

/-! ### The residue triple (R195, R196) -/

/-- ResidueOf. -/
def residueOf (n : Int) : Word :=
  BitVec.ofNat 32 ((n % 255).toNat * 2 ^ 17 + (n % 256).toNat * 2 ^ 9 + (n % 257).toNat)

/-- CrtDecode. -/
def crtDecode (w : Word) : Int :=
  let a := w.toNat / 2 ^ 17 % 256 % 255
  let b := w.toNat / 2 ^ 9 % 256
  let c := w.toNat % 512 % 257
  let x := (a * 8421376 + b * 16711425 + c * 8421120) % 16776960
  if 8388480 ≤ x then (x : Int) - 16776960 else x

/-- Channel-wise addition of two triples (R195). -/
def residueAdd (u v : Word) : Word :=
  let a := (u.toNat / 2 ^ 17 % 256 + v.toNat / 2 ^ 17 % 256) % 255
  let b := (u.toNat / 2 ^ 9 % 256 + v.toNat / 2 ^ 9 % 256) % 256
  let c := (u.toNat % 512 + v.toNat % 512) % 257
  BitVec.ofNat 32 (a * 2 ^ 17 + b * 2 ^ 9 + c)

end Sys2Proof.Machine
end

