-- ==== Sys2Proof/Machine/Transc.lean ====
section
/-! DEFINITION. The transcendental functions (R223) as exact reals: fixed-point series of 768 fraction
bits with a sticky mark, and the exact results that the rules name. -/

namespace Sys2Proof.Machine

open Sys2Proof

/-- Fraction bits of the fixed-point numbers. -/
def fxP : Nat := 768
/-- One. -/
def fxOne : Nat := 2 ^ fxP
/-- Product of two fixed-point numbers. -/
def fxMul (a b : Nat) : Nat := a * b / fxOne

/-- Σ z^(2k+1) / (2k+1) over `n` terms, `p` the current power and `k` the current odd number. -/
def atanhGo (z2 : Nat) : Nat → Nat → Nat → Nat → Nat
  | 0, _, _, acc => acc
  | n + 1, p, k, acc => atanhGo z2 n (fxMul p z2) (k + 2) (acc + p / k)

/-- atanh z for z ≤ 1/3. -/
def fxAtanh (z : Nat) : Nat := atanhGo (fxMul z z) 260 z 1 0

/-- ln 2 = 2 atanh(1/3). -/
def fxLn2 : Nat := 2 * fxAtanh (fxOne / 3)

/-- Σ (−1)^k z^(2k+1) / (2k+1), positive and negative parts kept apart. -/
def atanGo (z2 : Nat) : Nat → Nat → Nat → Bool → Nat → Nat → Nat
  | 0, _, _, _, pos, ng => pos - ng
  | n + 1, p, k, sg, pos, ng =>
    atanGo z2 n (fxMul p z2) (k + 2) (!sg) (if sg then pos + p / k else pos) (if sg then ng else ng + p / k)

/-- π / 2 by Machin's formula: 8 atan(1/5) − 2 atan(1/239). -/
def fxHalfPi : Nat :=
  let z5 := fxOne / 5
  let z239 := fxOne / 239
  8 * atanGo (fxMul z5 z5) 180 z5 1 true 0 0 - 2 * atanGo (fxMul z239 z239) 60 z239 1 true 0 0

/-- Σ r^k / k! from the term `t` of number `k`. -/
def expGo (r : Nat) : Nat → Nat → Nat → Nat → Nat
  | 0, _, _, acc => acc
  | n + 1, t, k, acc => expGo r n (fxMul t r / k) (k + 1) (acc + t)

/-- e^r for 0 ≤ r < 1. -/
def fxExp (r : Nat) : Nat := expGo r 160 fxOne 1 0

/-- The alternating series of the sine (from t = r, k = 2) or the cosine (from t = 1, k = 1). -/
def sinGo (r2 : Nat) : Nat → Nat → Nat → Bool → Nat → Nat → Nat
  | 0, _, _, _, pos, ng => pos - ng
  | n + 1, t, k, sg, pos, ng =>
    sinGo r2 n (fxMul t r2 / (k * (k + 1))) (k + 2) (!sg) (if sg then pos + t else pos) (if sg then ng else ng + t)

/-- sin r and cos r for 0 ≤ r ≤ π / 2. -/
def fxSin (r : Nat) : Nat := sinGo (fxMul r r) 100 r 2 true 0 0
def fxCos (r : Nat) : Nat := sinGo (fxMul r r) 100 fxOne 1 true 0 0

/-- The magnitude of an exact real as a fixed-point number (exact for the formats' values). -/
def fxOf (x : Exact) : Nat :=
  if 0 ≤ x.exp + fxP then x.mant * 2 ^ (x.exp + fxP).toNat else x.mant / 2 ^ (-(x.exp + fxP)).toNat

/-- A fixed-point number as an inexact real. -/
def fxVal (neg : Bool) (n : Nat) : Val := .fin ⟨neg, n, -(fxP : Int), true⟩

/-- A number beyond every format's largest value, and one below every smallest. -/
def hugeVal : Val := .fin ⟨false, 1, 1000, true⟩
def tinyVal : Val := .fin ⟨false, 1, -1000, true⟩

/-- 2^k e^r for a fixed-point 0 ≤ r < 1. -/
def expScaled (k : Int) (r : Nat) : Val := .fin ⟨false, fxExp r, k - fxP, true⟩

/-- e^x of a nonzero exact real. -/
def expReal (x : Exact) : Val :=
  let a := fxOf x
  if 300 * fxOne ≤ a then (if x.neg then tinyVal else hugeVal)
  else
    let q := a / fxLn2
    let r := a % fxLn2
    if x.neg then (if r = 0 then expScaled (-(q : Int)) 0 else expScaled (-(q : Int) - 1) (fxLn2 - r))
    else expScaled q r

/-- 2^x of a nonzero exact real: exact for an integer. -/
def exp2Real (x : Exact) : Val :=
  let a := fxOf x
  if 1200 * fxOne ≤ a then (if x.neg then tinyVal else hugeVal)
  else
    let q := a / fxOne
    let r := a % fxOne
    if r = 0 then .of false 1 (if x.neg then -(q : Int) else q)
    else if x.neg then expScaled (-(q : Int) - 1) (fxMul (fxOne - r) fxLn2)
    else expScaled q (fxMul r fxLn2)

/-- ln of a positive exact real as a signed fixed-point number: e ln 2 + ln m with 1 ≤ m < 2. -/
def lnReal (x : Exact) : Int :=
  let lg := Nat.log2 x.mant
  let m := x.mant * 2 ^ (fxP - lg)
  let z := (m - fxOne) * fxOne / (m + fxOne)
  (x.exp + (lg : Nat)) * fxLn2 + 2 * (fxAtanh z : Nat)

/-- A signed fixed-point number as an inexact real. -/
def fxInt (n : Int) : Val := fxVal (decide (n < 0)) n.natAbs

/-- FEXP and FEXP2 (R223). -/
def expVal (two : Bool) (a : Val) : Val × Word :=
  match a with
  | .nan => (.nan, 0)
  | .inf neg => (if neg then .zero false else .inf false, 0)
  | .fin x =>
    if x.mant = 0 then (.of false 1 0, 0)
    else (if two then exp2Real x else expReal x, 0)

/-- FLOG and FLOG2 (R223): a power of two has an exact binary logarithm. -/
def logVal (two : Bool) (a : Val) : Val × Word :=
  match a with
  | .nan => (.nan, 0)
  | .inf neg => if neg then (.nan, flNV) else (.inf false, 0)
  | .fin x =>
    if x.mant = 0 then (.inf true, flDZ)
    else if x.neg then (.nan, flNV)
    else
      let lg := Nat.log2 x.mant
      let pow := decide (x.mant = 2 ^ lg)
      let e : Int := x.exp + (lg : Nat)
      if pow && decide (e = 0) then (.zero false, 0)
      else if two then
        if pow then (.ofInt e, 0)
        else
          let n := lnReal x
          (fxVal (decide (n < 0)) (n.natAbs * fxOne / fxLn2), 0)
      else (fxInt (lnReal x), 0)

/-- sin and cos of a nonzero exact real (R223), with exact argument reduction. -/
def trigReal (cos : Bool) (x : Exact) : Val :=
  let a := fxOf x
  let q := a / fxHalfPi
  let r := a % fxHalfPi
  let k := (if cos then q + 1 else q) % 4
  let v := if k % 2 = 0 then fxSin r else fxCos r
  let neg := decide (2 ≤ k)
  fxVal (if cos then neg else neg != x.neg) v

/-- FSIN and FCOS. -/
def trigVal (cos : Bool) (a : Val) : Val × Word :=
  match a with
  | .nan => (.nan, 0)
  | .inf _ => (.nan, flNV)
  | .fin x => if x.mant = 0 then (if cos then .of false 1 0 else .zero x.neg, 0) else (trigReal cos x, 0)

/-- FTANH: (e^2a − 1) ÷ (e^2a + 1). -/
def tanhVal (a : Val) : Val × Word :=
  match a with
  | .nan => (.nan, 0)
  | .inf neg => (.of neg 1 0, 0)
  | .fin x =>
    if x.mant = 0 then (.zero x.neg, 0)
    else
      let t := 2 * fxOf x
      if 400 * fxOne ≤ t then (fxVal x.neg (fxOne - 1), 0)
      else
        let q := t / fxLn2
        let r := t % fxLn2
        let e := fxExp r * 2 ^ q
        (fxVal x.neg ((e - fxOne) * fxOne / (e + fxOne)), 0)

end Sys2Proof.Machine
end

