-- ==== Sys2Proof/Config.lean ====
section
/-! DEFINITION. What an implementation fixes and the spec leaves open: free values. Each is an opaque
constant: nothing can compute with it, so a statement that mentions it holds for every value of it. -/

namespace Sys2Proof

/-- The fresh byte number `n` of the bytes whose contents the spec leaves unspecified: a dropped region
byte (R114), a byte a copy both reads and writes (R145), the bytes of a fresh working slot. -/
opaque Config.freeByte : Nat → Byte

/-- The count of a peer die's timekeeper, by its device, its number and the count of this device's die 0: no rule
relates the two beyond the domain's bound (R128, R325). -/
opaque Config.peerTime : Nat → Nat → BitVec 64 → BitVec 64

/-- The OPER number of an opcode in a map of the image or the standard map (R67: "internal operation
number, defined by the map"). -/
opaque Config.mapOper : Nat → Nat → BitVec 16

/-- The standard opcode whose operation the number `oper` of map `map` performs (R67). -/
opaque Config.operation : Nat → BitVec 16 → Nat

/-- The identity public key derived from the hardware secret at boot (R427). -/
opaque Config.identityKey : Nat

/-- The signature made with the identity key over a message (R427). -/
opaque Config.signature : List Nat → Nat

/-- The digest of the boot ROM (R427). -/
opaque Config.bootRomDigest : Nat

/-- The digest of the certificate chain that carries an identity key (R427). -/
opaque Config.certificateDigest : Nat → Nat

/-- SOURCE of an event record that a unit posts (R428: "die and unit"). -/
opaque Config.eventSource : Nat → BitVec 16

/-- DATA of the event record of a sequence number, where the spec states none (R428). -/
opaque Config.eventData : Nat → DWord

/-- Byte number `n` of a part of a save area whose contents the spec names and whose inner layout it does not state: the
part's number and its contents give it (R179, R397, R399). -/
opaque Config.packed : Nat → List Nat → Nat → Byte

/-- The clocks of the fabric and of the memory channels, in MHz: the spec gives neither (R339). -/
opaque Config.fabricMhz : Nat
opaque Config.channelMhz : Nat

/-- What mcycle of a front-end core reads at a number of ticks: the spec gives the core no clock (R413). -/
opaque Config.frontCycles : Nat → Nat → DWord

/-- The CODE of the event record that a change of the power state posts (R428 lists none, R430). -/
opaque Config.powerCode : Nat

end Sys2Proof
end

