-- ==== Sys2Proof/WellFormed.lean ====
section
/-! DEFINITION. Which instructions and events are well formed: the ranges and operand kinds of R45 to
R53 and of each instruction's own entry. The decoder answers only such instructions. -/

namespace Sys2Proof

/-- A specifier that R50 to R52 give a meaning. -/
def Spec.wf : Spec → Bool
  | .v n => decide (n < 64)
  | .o n => decide (n < 8)
  | .l n => decide (n < 2)
  | .f n => decide (n < 4)
  | .k n => decide (n < 8)
  | .p n => decide (n < 16)
  | .special _ => true
  | .const n => decide (n < 16)

/-- A v register. -/
def Spec.isV : Spec → Bool
  | .v _ => true
  | _ => false

/-- R45: a last-use bit stands only on a v register. -/
def Src.wf (s : Src) : Bool := s.spec.wf && (!s.lu || s.spec.isV)

/-- R118: v0 to v62 or p0 to p14 name a pair. -/
def Src.pairWf (s : Src) : Bool :=
  match s.spec with
  | .v n => decide (n ≤ 62)
  | .p n => decide (n ≤ 14) && !s.lu
  | _ => false

/-- R209: v0 to v62 name a pair. -/
def Src.vPairWf (s : Src) : Bool :=
  match s.spec with
  | .v n => decide (n ≤ 62)
  | _ => false

/-- R209: v0 to v60 name a quad. -/
def Src.vQuadWf (s : Src) : Bool :=
  match s.spec with
  | .v n => decide (n ≤ 60)
  | _ => false

/-- A v source register whose last-use bit may be set. -/
def Src.vWf (s : Src) : Bool :=
  match s.spec with
  | .v n => decide (n < 64)
  | _ => false

/-- A v source register with its last-use bit clear. -/
def Src.vBareWf (s : Src) : Bool := s.vWf && !s.lu

/-- R46. -/
def Dst.wf : Dst → Bool
  | .v n => decide (n < 64)
  | .o n => decide (n < 8)
  | .k n => decide (n < 8)

/-- A v or an o register. -/
def Dst.voWf : Dst → Bool
  | .v n => decide (n < 64)
  | .o n => decide (n < 8)
  | .k _ => false

/-- R45: a C7 operand. -/
def CSrc.wf (c : CSrc) : Bool := decide (c.n < 64)

/-- R137: a C7 operand that names a pair. -/
def CSrc.pairWf (c : CSrc) : Bool := decide (c.n ≤ 62)

/-- A C7 field that the form does not use is zero (R47). -/
def CSrc.unused (c : CSrc) : Bool := c == ⟨0, false⟩

/-- Registers that one access of a width moves (R120). -/
def Width.regs : Width → Nat
  | .w64 => 2
  | .w128 => 4
  | _ => 1

/-- Bytes of one access (R49). -/
def Width.bytes : Width → Nat
  | .u8 => 1
  | .s8 => 1
  | .u16 => 2
  | .s16 => 2
  | .w32 => 4
  | .w64 => 8
  | .w128 => 16

/-- R120: a wide access moves v registers up to v63. -/
def Width.dstWf (w : Width) (d : Dst) : Bool :=
  match d with
  | .v n => decide (n + w.regs ≤ 64)
  | _ => decide (w.regs = 1) && d.wf

/-- R120, R121: the data registers of a store. -/
def Width.dataWf (w : Width) (n : Nat) : Bool := decide (n + w.regs ≤ 64)

/-- The address operand of a memory instruction (R118, R123). -/
def AForm.addrWf (fm : AForm) (a : Src) : Bool :=
  match fm with
  | .gen => a.pairWf
  | _ => a.wf

/-- R125: the time operand. -/
def timeWf (rel : Bool) (t : Src) : Bool := if rel then t.wf else t.pairWf

/-- A signed field of `n` bits (R26). -/
def inSigned (n : Nat) (e : Int) : Bool := decide (-(2 ^ (n - 1) : Int) ≤ e) && decide (e < 2 ^ (n - 1))

/-- The activation's top plane T (R262). -/
def MPair.top : MPair → Nat
  | .s8s8 => 7
  | .s8s4 => 7
  | .s4s4 => 3
  | .s4s8 => 3

/-- Whether the weights of a pair are S4 (R260). -/
def MPair.w4 : MPair → Bool
  | .s8s8 => false
  | .s8s4 => true
  | .s4s4 => true
  | .s4s8 => false

/-- Tiles of a set: two a macro for S4 weights without LOWH (R261). -/
def MPair.tiles (p : MPair) (lowh : Bool) (c : Nat) : Nat := if p.w4 && !lowh then 2 * c else c

/-- R260, R261: the operand limits of MMR and MMC that the fields alone decide. -/
def ladderWf (p : MPair) (lowh hold : Bool) (q m c lo : Nat) (a : Src) : Bool :=
  a.wf && decide (q < 8) && decide (m < 32) && decide (1 ≤ c) && decide (c ≤ 8) && decide (m + c ≤ 32) &&
  decide (lo ≤ p.top) && (!hold || decide (1 ≤ lo)) && (!lowh || p.w4) && decide (q + p.tiles lowh c ≤ 8)

/-- R266: macros of an MMF set. -/
def MFmt.macros (f : MFmt) (c : Nat) : Nat :=
  match f with
  | .bf16 => 2 * c
  | .fp16 => 2 * c
  | _ => c

/-- Tiles N to N + c − 1 (R267, R270, R272). -/
def tilesWf (q c : Nat) : Bool := decide (1 ≤ c) && decide (c ≤ 8) && decide (q + c ≤ 8)

/-- R402: the numbers of the system registers. -/
def sysRegs : List Nat :=
  [0x000, 0x001, 0x002, 0x003, 0x004, 0x005, 0x006, 0x007, 0x008, 0x009, 0x010, 0x011, 0x012, 0x018, 0x019,
    0x020, 0x021, 0x022, 0x023, 0x024]

/-- R402: an assigned register number. -/
def sysRegWf (n : Nat) : Bool := sysRegs.contains n

/-- The operations that `.pair` may stand on (R241). -/
def LOp.isFadd : LOp → Bool
  | .fadd => true
  | _ => false

/-- The compare operand is read by cas alone (R133). -/
def AOp.isCas : AOp → Bool
  | .cas => true
  | _ => false

/-- R131: the destination of a cast: a pair of v registers for a generic target. -/
def castDstWf (tgt : CastTo) (d : Dst) : Bool :=
  match tgt, d with
  | .scr, .v n => decide (n ≤ 62)
  | .clu, .v n => decide (n ≤ 62)
  | .scr, _ => false
  | .clu, _ => false
  | _, d => d.wf

/-- R131: the source of a cast. -/
def castSrcWf (fr : CastFrom) (a : Src) : Bool :=
  match fr with
  | .gen => a.pairWf
  | _ => a.wf

/-- Ranges of an opcode map (R55 to R62): the assigned opcodes, as first and last of each run. -/
def assignedRuns : List (Nat × Nat) :=
  [(0x000, 0x00B), (0x010, 0x016), (0x080, 0x0AF), (0x100, 0x119), (0x120, 0x139), (0x140, 0x159),
    (0x160, 0x163), (0x180, 0x19E), (0x1A0, 0x1A8), (0x1B0, 0x1CF), (0x1D0, 0x1D4), (0x1D8, 0x1DC),
    (0x200, 0x208), (0x210, 0x215), (0x218, 0x21D), (0x220, 0x222), (0x230, 0x23A), (0x240, 0x24A),
    (0x250, 0x250), (0x258, 0x258), (0x260, 0x262), (0x268, 0x269), (0x280, 0x283), (0x288, 0x28B),
    (0x290, 0x292), (0x300, 0x305), (0x308, 0x313), (0x318, 0x31F), (0x320, 0x326), (0x328, 0x32C),
    (0x380, 0x388), (0x390, 0x393)]

/-- R54, R63: whether the standard map assigns the opcode. -/
def opAssigned (op : Nat) : Bool := assignedRuns.any fun r => decide (r.1 ≤ op) && decide (op ≤ r.2)

/-- A unit with a calendar that exists: 512 cores, 8 x 2 fabric ports of clusters, 16 x 4 channels are
named by number (R339). -/
def CalUnit.wf : CalUnit → Bool
  | .core n => decide (n < 512)
  | _ => true

/-- Whether an instruction or event is well formed: its operands are of the kinds and in the ranges its
entry gives. -/
def Instr.wf : Instr → Bool
  -- events
  | .powerOnBoot img _ => decide (img.memmode.length = 4) && decide (img.replicaPool.length = 4)
  | .getVersion => true
  | .getCapabilities => true
  | .negotiateAlgorithms _ _ => true
  | .getDigests => true
  | .getCertificate slot => decide (slot < 8)
  | .challenge nonce => decide (nonce < 2 ^ 256)
  | .getMeasurements => true
  | .setepoch fn _ => decide (fn ≤ 64)
  | .timepost fn _ _ => decide (fn ≤ 64)
  | .partcreate fn _ => decide (fn ≤ 64)
  | .partdestroy fn part => decide (fn ≤ 64) && decide (part < 8)
  | .calwrite fn u entries => decide (fn ≤ 64) && u.wf && decide (entries.length = 64)
  | .connwrite fn port _ => decide (fn ≤ 64) && decide (port < 18)
  | .ctxkill fn _ => decide (fn ≤ 64)
  | .ctxleave fn _ => decide (fn ≤ 64)
  | .ctxresume fn _ => decide (fn ≤ 64)
  | .ctxcreate fn _ => decide (fn ≤ 64)
  | .vdsetup fn _ => decide (fn ≤ 64)
  | .pagereq fn _ _ => decide (fn ≤ 64)
  | .powerStateChange _ => true
  | .invStageWrite fn off bytes => decide (fn ≤ 64) && decide (0x1000 ≤ off) && decide (off + bytes.length ≤ 0x1010)
  | .invAllVdid fn vdid => decide (fn ≤ 64) && decide (vdid < 65536)
  | .invStage1Range fn vdid size _ => decide (fn ≤ 64) && decide (vdid < 65536) && decide (size < 64)
  | .invStage2Range fn vdid size _ => decide (fn ≤ 64) && decide (vdid < 65536) && decide (size < 64)
  | .invEveryVdid fn => decide (fn ≤ 64)
  | .invalComplete fn => decide (fn ≤ 64)
  | .stage2Retry _ => true
  | .stage2Fatal _ => true
  | .ringDoorbell fn ring _ => decide (fn ≤ 64) && decide (ring < 8)
  | .hostAccess _ => true
  | .peerAccess _ => true
  | .timeSyncExchange port _ _ => decide (port < 18)
  | .lockLossTimeout => true
  | .brynrikLinkDown port => decide (port < 18)
  | .cxlLinkFailure => true
  | .peerAccessAbort _ _ => true
  | .throttle part _ => decide (part < 8)
  | .throttleEnd part => decide (part < 8)
  | .tempCritical => true
  | .droop => true
  | .patrolScrubError pa => decide (pa < 2 ^ 56)
  | .fabricParityError pa _ => decide (pa < 2 ^ 56)
  | .admissionDecision _ => true
  | .spanStart _ _ => true
  | .teamEnd _ => true
  | .launchEnd _ => true
  | .calendarSwitch u => u.wf
  | .castlingRequest => true
  | .castlingSwap core _ => decide (core < 512)
  | .fumaroleSpill => true
  | .fumaroleLoad core _ => decide (core < 512)
  | .zugzwangSpill => true
  | .leaveForcedHalt _ => true
  | .leaveKill _ => true
  | .deadlineReached _ => true
  | .cutTimeReached _ => true
  | .energyUpdate _ _ => true
  | .cutRecordUpdate _ => true
  | .passCommit _ h => decide (h < 8)
  | .vbeginRetry _ sp => decide (sp < 4)
  | .vwaitWake _ sp => decide (sp < 4)
  | .faultHandlerLaunch die _ => decide (die < 4)
  | .logReplay _ entry => decide (entry < 8)
  | .trapDelivery _ sp => decide (sp < 4)
  | .lateCauseDelivery _ sp => decide (sp < 4)
  | .illegalOpcode op => decide (op < 1024) && !opAssigned op
  | .heldArrival _ _ => true
  | .holdRelease _ => true
  | .loadReturn _ _ _ => true
  | .replicaUpdate die _ => decide (die < 4)
  | .regionWriteback _ region _ => decide (region < 8)
  | .copyComplete _ slot _ => decide (slot < 16)
  | .cwaitWake _ sp => decide (sp < 4)
  | .barwWake _ sp => decide (sp < 4)
  | .tsyncWake _ sp => decide (sp < 4)
  | .joinWake _ sp => decide (sp < 4)
  | .twaitExpiry _ sp => decide (sp < 4)
  | .exitComplete _ sp => decide (sp < 4)
  | .slowPathCommit _ _ => true
  | .sliceStep _ => true
  | .matrixStart => true
  | .matrixResume => true
  | .matrixComplete => true
  | .launchPacket fe _ => decide (fe < 8)
  | .beginPacket fe _ => decide (fe < 8)
  | .commitPacket fe _ => decide (fe < 8)
  | .waitPacket fe _ => decide (fe < 8)
  | .waitPacketRelease => true
  | .signalPacket fe _ => decide (fe < 8)
  | .indirectPacket fe _ => decide (fe < 8)
  | .prologueTimeout => true
  | .swaitWake => true
  | .writePerformed _ _ _ => true
  | .tempThrottleLimit die _ => decide (die < 4)
  | .hostRestart => true
  | .prologueReturn fe _ => decide (fe < 8)
  | .pfdoneReplay lane => decide (lane < 32)
  | .pfdoneAbort lane => decide (lane < 32)
  | .mapidWrite _ => true
  | .dtdataWrite _ => true
  -- front end
  | .rfet d s => decide (d < 32) && decide (s < 32)
  | .xbfx d s t => decide (d < 32) && decide (s < 32) && decide (t < 32)
  | .swait d s t => decide (d < 32) && decide (s < 32) && decide (t < 32)
  | .xdisp d s => decide (d < 32) && decide (s < 32)
  -- control and system
  | .nop => true
  | .bra off => inSigned 22 off
  | .bnz a off => a.wf && inSigned 22 off
  | .bz a off => a.wf && inSigned 22 off
  | .bdv off => inSigned 22 off
  | .jpt a n => a.wf && decide (1 ≤ n) && decide (n ≤ 128)
  | .bix a => a.wf
  | .call off => inSigned 22 off
  | .ret => true
  | .exit => true
  | .yld => true
  | .tsync => true
  | .trap n => decide (n < 16384)
  | .tret _ => true
  | .srd d reg => d.wf && sysRegWf reg
  | .swr reg a => a.wf && sysRegWf reg
  | .halt => true
  | .bkpt n => decide (n < 16384)
  | .fltrd _ d => d.voWf
  -- integer and logic
  | .iadd d a b => d.wf && a.wf && b.wf
  | .isub d a b => d.wf && a.wf && b.wf
  | .iadds _ d a b => d.wf && a.wf && b.wf
  | .isubs _ d a b => d.wf && a.wf && b.wf
  | .imul d a b => d.wf && a.wf && b.wf
  | .imulh _ d a b => d.wf && a.wf && b.wf
  | .imad d a b c => d.wf && a.wf && b.wf && c.wf
  | .imin _ d a b => d.wf && a.wf && b.wf
  | .imax _ d a b => d.wf && a.wf && b.wf
  | .iabs d a => d.wf && a.wf
  | .ineg d a => d.wf && a.wf
  | .idot4 _ d a b c => d.wf && a.wf && b.wf && c.wf
  | .and d a b => d.wf && a.wf && b.wf
  | .or d a b => d.wf && a.wf && b.wf
  | .xor d a b => d.wf && a.wf && b.wf
  | .andn d a b => d.wf && a.wf && b.wf
  | .shl d a b => d.wf && a.wf && b.wf
  | .shr d a b => d.wf && a.wf && b.wf
  | .sar d a b => d.wf && a.wf && b.wf
  | .rotl d a b => d.wf && a.wf && b.wf
  | .bfe _ d a pos len => d.wf && a.wf && decide (1 ≤ len) && decide (pos + len ≤ 32)
  | .bfi d a b c => d.wf && a.wf && b.wf && c.wf
  | .popc d a => d.wf && a.wf
  | .clz d a => d.wf && a.wf
  | .brev d a => d.wf && a.wf
  | .icmp _ d a b => d.wf && a.wf && b.wf
  | .sel d a b kn => d.wf && a.wf && b.wf && decide (kn < 8)
  | .mov d a => d.wf && a.wf
  | .movi d e => d.wf && inSigned 23 e
  | .limm d lit => d.wf && decide (lit < 2 ^ 40)
  -- float
  | .fadd _ _ d a b => d.wf && a.wf && b.wf
  | .fsub _ _ d a b => d.wf && a.wf && b.wf
  | .fmul _ _ d a b => d.wf && a.wf && b.wf
  | .ffma _ d a b c => d.wf && a.wf && b.wf && c.wf
  | .fmin _ d a b => d.wf && a.wf && b.wf
  | .fmax _ d a b => d.wf && a.wf && b.wf
  | .fcmp f _ d a b => a.wf && b.wf && (if f = .f32 then d.wf else d.voWf)
  | .fclass _ d a => d.wf && a.wf
  | .fround _ _ d a => d.wf && a.wf
  | .fdiv _ _ d a b => d.wf && a.wf && b.wf
  | .fsqrt _ _ d a => d.wf && a.wf
  | .frcp _ _ d a => d.wf && a.wf
  | .frsq _ _ d a => d.wf && a.wf
  | .fexp _ _ d a => d.wf && a.wf
  | .fexp2 _ _ d a => d.wf && a.wf
  | .flog _ _ d a => d.wf && a.wf
  | .flog2 _ _ d a => d.wf && a.wf
  | .fsin _ _ d a => d.wf && a.wf
  | .fcos _ _ d a => d.wf && a.wf
  | .ftanh _ _ d a => d.wf && a.wf
  | .twosum d a b => decide (d ≤ 62) && a.wf && b.wf
  | .twoprod d a b => decide (d ≤ 62) && a.wf && b.wf
  | .padd d a b => decide (d ≤ 62) && a.vPairWf && b.vPairWf
  | .pnorm d a => decide (d ≤ 62) && a.vPairWf
  -- conversion and lanes
  | .cvtTo _ _ d a => d.wf && a.wf
  | .cvtFrom _ _ d a => d.wf && a.wf
  | .qnt _ d a b c => d.wf && a.wf && b.wf && c.wf
  | .dqnt _ d a b c => d.wf && a.wf && b.wf && c.wf
  | .pack w d a b c => d.wf && a.wf && b.wf && (if w = .b16 then c.unused else c.wf)
  | .unpk _ d a b => d.wf && a.wf && b.wf
  | .rnse d a => d.wf && a.wf
  | .rnsd d a => d.wf && a.wf
  | .acvt d a anchor => d.wf && a.vQuadWf && inSigned 7 anchor
  | .perm _ d a b c => d.wf && a.wf && b.wf && c.wf
  | .shfl _ d a b c => d.wf && a.wf && b.wf && c.wf
  | .bcast d a b => d.wf && a.wf && b.wf
  | .vote _ d a => d.wf && a.wf
  | .lred op pair d a => a.wf && d.wf && (!pair || (op.isFadd && Width.dstWf .w64 d))
  | .lscan _ _ d a => d.wf && a.wf
  -- registers and modes
  | .shape d a => d.wf && decide (a < 64)
  | .mkaff d a b => d.voWf && a.wf && b.wf
  | .mkuni _ d a => d.wf && a.wf
  | .free a n => decide (1 ≤ n) && decide (a + n ≤ 64)
  | .regq grp d a => d.wf && (if grp then decide (a = 0) else decide (a < 64))
  | .sfmt imm a =>
    match imm with
    | none => a.wf
    | some n => decide (n < 4) && a == ⟨.v 0, false⟩
  | .gfmt d => d.wf
  | .srnd imm a =>
    match imm with
    | none => a.wf
    | some m => decide (m < 6) && a == ⟨.v 0, false⟩
  | .grnd d => d.wf
  | .flags d => d.wf
  | .flagsClr d a => d.wf && a.wf
  -- memory
  | .ld w d a off => w.dstWf d && a.pairWf && inSigned 12 off
  | .st w s a off => w.dataWf s && a.pairWf && inSigned 12 off
  | .lds w d a off => w.dstWf d && a.wf && inSigned 12 off
  | .sts w s a off => w.dataWf s && a.wf && inSigned 12 off
  | .ldc w d a off => w.dstWf d && a.wf && inSigned 12 off
  | .stc w s a off => w.dataWf s && a.wf && inSigned 12 off
  | .ldUni fm w d a off => w.dstWf d && fm.addrWf a && inSigned 12 off
  | .ldNb fm w rel d a t => w.dstWf d && fm.addrWf a && timeWf rel t
  | .stVa fm w rel s a t => w.dataWf s && fm.addrWf a && timeWf rel t
  | .ldAcq fm w _ d a => w.dstWf d && fm.addrWf a
  | .stRel fm w _ a s => fm.addrWf a && s.vWf && (match s.spec with | .v n => w.dataWf n | _ => false)
  | .sptest d a => d.wf && a.pairWf
  | .spcast fr tgt d a => castDstWf tgt d && castSrcWf fr a
  | .pfet a off => a.pairWf && inSigned 12 off
  | .atom op d a b c => d.wf && a.pairWf && b.wf && (if op.isCas then c.wf else c.unused)
  | .atoms op d a b c => d.wf && a.wf && b.wf && (if op.isCas then c.wf else c.unused)
  | .asum a x anchor => a.pairWf && x.wf && inSigned 7 anchor
  | .fence _ _ => true
  | .rmap d a b c => decide (d < 64) && a.wf && b.wf && c.pairWf
  | .rflush n => n.wf
  | .rdrop n => n.wf
  | .tnow d => decide (d ≤ 62)
  | .twait rel a => if rel then a.wf else a.pairWf
  -- copies, barriers, access engine
  | .cpy a => a.wf
  | .cpyFeed n a => a.wf && decide (n < 4)
  | .cpyl a => a.wf
  | .cbatch d => decide (d < 64)
  | .cwait all a => if all then a == ⟨.v 0, false⟩ else a.wf
  | .bari b n => b.wf && decide (1 ≤ n) && decide (n ≤ 1024)
  | .barx _ b c => b.wf && decide (c < 64)
  | .bara _ b => b.wf
  | .barw d b => decide (d < 64) && b.wf
  | .astart a x => a.pairWf && decide (x < 64)
  | .astop _ => true
  | .fstat d => d.wf
  -- matrix
  | .wld _ m a c => a.wf && decide (1 ≤ c) && decide (m + c ≤ 32)
  | .mmr p lowh q m c a lo => ladderWf p lowh false q m c lo a
  | .mmrHold p lowh q m c a lo => ladderWf p lowh true q m c lo a
  | .mmf f q m c a => a.wf && tilesWf q c && decide (m + f.macros c ≤ 32)
  | .mmc p lowh q m c a lo => ladderWf p lowh false q m c lo a
  | .mmcHold p lowh q m c a lo => ladderWf p lowh true q m c lo a
  | .qzero q c => tilesWf q c
  | .qdrain f r _ a q c s =>
    a.pairWf && tilesWf q c && decide (s < 64) && (if f = .pair then decide (r = .dflt) else true)
  | .qscale _ _ q a => decide (q < 8) && a.wf
  | .qsave a q c => a.wf && tilesWf q c
  | .qload a q c => a.wf && tilesWf q c
  | .qstat d q => d.wf && decide (q < 8)
  -- versions and launches
  | .vbegin h a => decide (h < 8) && a.wf
  | .vslot _ d h => decide (d ≤ 62) && decide (h < 8)
  | .vseal h a b => decide (h < 8) && a.wf && decide (b < 64)
  | .vsealFinal h a b => decide (h < 8) && a.wf && decide (b < 64)
  | .vpin d h a => decide (d ≤ 60) && decide (h < 8) && a.wf
  | .vunpin h => decide (h < 8)
  | .vwait d h a t =>
    decide (d < 64) && decide (h < 8) && a.wf &&
    (match t with
     | none => true
     | some t => t.pairWf)
  | .vstat d h w => d.wf && decide (h < 8) && decide (w < 32)
  | .vleft _ d => decide (d ≤ 62)
  | .launch d a => decide (d < 64) && a.wf
  | .join d a => decide (d ≤ 62) && a.vPairWf
  | .bleft d => decide (d ≤ 62)
  | .dline _ d => decide (d ≤ 62)

/-- The instructions that a 40-bit slot (two for LIMM) holds: the rows of R55 to R62. -/
def Instr.isSlot : Instr → Bool
  | .nop | .bra .. | .bnz .. | .bz .. | .bdv .. | .jpt .. | .bix .. | .call .. | .ret | .exit | .yld
  | .tsync | .trap .. | .tret .. | .srd .. | .swr .. | .halt | .bkpt .. | .fltrd ..
  | .iadd .. | .isub .. | .iadds .. | .isubs .. | .imul .. | .imulh .. | .imad .. | .imin .. | .imax ..
  | .iabs .. | .ineg .. | .idot4 .. | .and .. | .or .. | .xor .. | .andn .. | .shl .. | .shr .. | .sar ..
  | .rotl .. | .bfe .. | .bfi .. | .popc .. | .clz .. | .brev .. | .icmp .. | .sel .. | .mov .. | .movi ..
  | .limm .. | .fadd .. | .fsub .. | .fmul .. | .ffma .. | .fmin .. | .fmax .. | .fcmp .. | .fclass ..
  | .fround .. | .fdiv .. | .fsqrt .. | .frcp .. | .frsq .. | .fexp .. | .fexp2 .. | .flog .. | .flog2 ..
  | .fsin .. | .fcos .. | .ftanh .. | .twosum .. | .twoprod .. | .padd .. | .pnorm .. | .cvtTo ..
  | .cvtFrom .. | .qnt .. | .dqnt .. | .pack .. | .unpk .. | .rnse .. | .rnsd .. | .acvt .. | .perm ..
  | .shfl .. | .bcast .. | .vote .. | .lred .. | .lscan .. | .shape .. | .mkaff .. | .mkuni .. | .free ..
  | .regq .. | .sfmt .. | .gfmt .. | .srnd .. | .grnd .. | .flags .. | .flagsClr .. | .ld .. | .st ..
  | .lds .. | .sts .. | .ldc .. | .stc .. | .ldUni .. | .ldNb .. | .stVa .. | .ldAcq .. | .stRel ..
  | .sptest .. | .spcast .. | .pfet .. | .atom .. | .atoms .. | .asum .. | .fence .. | .rmap ..
  | .rflush .. | .rdrop .. | .tnow .. | .twait .. | .cpy .. | .cpyFeed .. | .cpyl .. | .cbatch ..
  | .cwait .. | .bari .. | .barx .. | .bara .. | .barw .. | .astart .. | .astop .. | .fstat ..
  | .wld .. | .mmr .. | .mmrHold .. | .mmf .. | .mmc .. | .mmcHold .. | .qzero .. | .qdrain ..
  | .qscale .. | .qsave .. | .qload .. | .qstat .. | .vbegin .. | .vslot .. | .vseal .. | .vsealFinal ..
  | .vpin .. | .vunpin .. | .vwait .. | .vstat .. | .vleft .. | .launch .. | .join .. | .bleft ..
  | .dline .. => true
  | _ => false

/-- The four instructions of the front-end cores' custom-0 extension (R414). -/
def Instr.isFront : Instr → Bool
  | .rfet .. | .xbfx .. | .swait .. | .xdisp .. => true
  | _ => false

end Sys2Proof
end

