-- ==== Sys2Proof/Decode.lean ====
section
/-! DEFINITION. The decoder of slots, chains and bundles (R38 to R68), the decoder of the front end's
custom-0 words (R414), and the encoder written from the same tables. Fields are taken with / and %. -/

namespace Sys2Proof

/-! ### Fields -/

/-- Bits [lo + n − 1 : lo] of a word. -/
def fld (w lo n : Nat) : Nat := w / 2 ^ lo % 2 ^ n

/-- A two's-complement field of `n` bits (R45). -/
def sext (n x : Nat) : Int := if x < 2 ^ (n - 1) then (x : Int) else (x : Int) - 2 ^ n

/-- The field of `n` bits that holds a signed value (R45). -/
def unsext (n : Nat) (e : Int) : Nat := (e % 2 ^ n).toNat

def fD (w : Nat) : Nat := fld w 23 7
def fA (w : Nat) : Nat := fld w 15 8
def fB (w : Nat) : Nat := fld w 7 8
def fC (w : Nat) : Nat := fld w 0 7
def fN (w : Nat) : Nat := fld w 10 5
def fM (w : Nat) : Nat := fld w 0 10
def fOp (w : Nat) : Nat := fld w 30 10

/-! ### Operands -/

/-- R51, in the order of the table. -/
def specials : List Special := [.lane, .group, .team, .steam, .span, .core, .cluster, .amask]

/-- The number of a special source above 102 (R51). -/
def Special.code : Special → Nat
  | .lane => 0
  | .group => 1
  | .team => 2
  | .steam => 3
  | .span => 4
  | .core => 5
  | .cluster => 6
  | .amask => 7

/-- R50. -/
def decSpec (n : Nat) : Option Spec :=
  if n < 64 then some (.v n)
  else if n < 72 then some (.o (n - 64))
  else if n < 74 then some (.l (n - 72))
  else if n < 78 then some (.f (n - 74))
  else if n < 86 then some (.k (n - 78))
  else if n < 102 then some (.p (n - 86))
  else if n < 110 then (specials[n - 102]?).map .special
  else if n < 112 then none
  else if n < 128 then some (.const (n - 112))
  else none

/-- R50. -/
def Spec.code : Spec → Nat
  | .v n => n
  | .o n => 64 + n
  | .l n => 72 + n
  | .f n => 74 + n
  | .k n => 78 + n
  | .p n => 86 + n
  | .special s => 102 + s.code
  | .const n => 112 + n

/-- R45: an A8 or B8 field. -/
def decSrc (a : Nat) : Option Src :=
  match decSpec (a / 2) with
  | none => none
  | some sp => if a % 2 = 1 ∧ 64 ≤ a / 2 then none else some ⟨sp, a % 2 == 1⟩

/-- R45. -/
def Src.code (s : Src) : Nat := 2 * s.spec.code + s.lu.toNat

/-- R46. -/
def decDst (d : Nat) : Option Dst :=
  if d < 64 then some (.v d)
  else if d < 72 then some (.o (d - 64))
  else if d < 78 then none
  else if d < 86 then some (.k (d - 78))
  else none

/-- R46. -/
def Dst.code : Dst → Nat
  | .v n => n
  | .o n => 64 + n
  | .k n => 78 + n

/-- R45: a C7 field. -/
def decC (c : Nat) : CSrc := ⟨c / 2, c % 2 == 1⟩

/-- R45. -/
def CSrc.code (c : CSrc) : Nat := 2 * c.n + c.lu.toNat

/-- R49. -/
def decW (w : Nat) : Option Width :=
  [.u8, .s8, .u16, .s16, .w32, .w64, .w128][w]?

/-- R49. -/
def Width.code : Width → Nat
  | .u8 => 0
  | .s8 => 1
  | .u16 => 2
  | .s16 => 3
  | .w32 => 4
  | .w64 => 5
  | .w128 => 6

/-- R212. -/
def decR (x : Nat) : Option RSel := [.dflt, .rne, .rtz, .rup, .rdn, .rna, .srh][x]?

/-- R212. -/
def RSel.code : RSel → Nat
  | .dflt => 0
  | .rne => 1
  | .rtz => 2
  | .rup => 3
  | .rdn => 4
  | .rna => 5
  | .srh => 6

/-- R129. -/
def decScope (x : Nat) : Option Scope := [.grp, .team, .clus, .dev, .dom, .sys][x]?

/-- R129. -/
def Scope.code : Scope → Nat
  | .grp => 0
  | .team => 1
  | .clus => 2
  | .dev => 3
  | .dom => 4
  | .sys => 5

/-- R57: the block of an opcode offset above 0x100. -/
def FBlk.code : FBlk → Nat
  | .f32 => 0
  | .h2bf16 => 1
  | .h2fp16 => 2

def Sgn.code : Sgn → Nat
  | .s32 => 0
  | .u32 => 1

def ICc.code : ICc → Nat
  | .eq => 0
  | .ne => 1
  | .lts => 2
  | .les => 3
  | .gts => 4
  | .ges => 5
  | .ltu => 6
  | .leu => 7
  | .gtu => 8
  | .geu => 9

def FCc.code : FCc → Nat
  | .eq => 0
  | .ne => 1
  | .lt => 2
  | .le => 3
  | .gt => 4
  | .ge => 5
  | .un => 6

def DotF.code : DotF → Nat
  | .s8s8 => 0
  | .u8u8 => 1
  | .s8u8 => 2
  | .s4s4 => 3

def CvtF.code : CvtF → Nat
  | .s8 => 0
  | .u8 => 1
  | .s16 => 2
  | .u16 => 3
  | .s32 => 4
  | .u32 => 5
  | .e4m3 => 6
  | .e5m2 => 7
  | .fp16 => 8
  | .bf16 => 9

def QntF.code : QntF → Nat
  | .s8 => 0
  | .s4 => 1
  | .e4m3 => 2
  | .e5m2 => 3

def PackW.code : PackW → Nat
  | .b4 => 0
  | .b8 => 1
  | .b16 => 2

def UnpkT.code : UnpkT → Nat
  | .u4 => 0
  | .s4 => 1
  | .u8 => 2
  | .s8 => 3
  | .u16 => 4
  | .s16 => 5

def PermW.code : PermW → Nat
  | .b8 => 0
  | .b4 => 1

def ShflM.code : ShflM → Nat
  | .idx => 0
  | .up => 1
  | .down => 2
  | .xor => 3

def VoteM.code : VoteM → Nat
  | .any => 0
  | .all => 1
  | .ballot => 2

def LOp.code : LOp → Nat
  | .add => 0
  | .mins => 1
  | .minu => 2
  | .maxs => 3
  | .maxu => 4
  | .and => 5
  | .or => 6
  | .xor => 7
  | .fadd => 8
  | .fmin => 9
  | .fmax => 10

def AOp.code : AOp → Nat
  | .add => 0
  | .and => 1
  | .or => 2
  | .xor => 3
  | .mins => 4
  | .minu => 5
  | .maxs => 6
  | .maxu => 7
  | .xchg => 8
  | .cas => 9
  | .fadd => 10

def AForm.code : AForm → Nat
  | .gen => 0
  | .loc => 1
  | .clu => 2

def WTag.code : WTag → Nat
  | .s8 => 0
  | .s4 => 1
  | .bf16 => 2
  | .fp16 => 3
  | .e4m3 => 4
  | .e5m2 => 5

def MPair.code : MPair → Nat
  | .s8s8 => 0
  | .s8s4 => 1
  | .s4s4 => 2
  | .s4s8 => 3

def MFmt.code : MFmt → Nat
  | .bf16 => 0
  | .fp16 => 1
  | .e4m3 => 2
  | .e5m2 => 3

def DFmt.code : DFmt → Nat
  | .f32 => 0
  | .bf16 => 1
  | .fp16 => 2
  | .e4m3 => 3
  | .e5m2 => 4
  | .pair => 5

def FenceK.code : FenceK → Nat
  | .full => 0
  | .acq => 1
  | .rel => 2

def CastFrom.code : CastFrom → Nat
  | .gen => 0
  | .loc => 1
  | .c32 => 2

def CastTo.code : CastTo → Nat
  | .scr => 0
  | .clu => 1
  | .loc => 2
  | .c32 => 3

def LeftK.code : LeftK → Nat
  | .b => 0
  | .e => 1
  | .t => 2

def FltK.code : FltK → Nat
  | .lo => 0
  | .hi => 1
  | .cause => 2

/-- The QSCALE bits M10[1:0] (R268). -/
def ScaleT.code : ScaleT → Nat
  | .row => 1
  | .col => 0
  | .colG64 => 2

/-! ### The shapes of decoding: one a format and operand pattern

Each answers `none` for ILLEGAL_OPERAND: a reserved value, an operand of an excluded kind, or a nonzero
field that the entry does not use (R45 to R47). -/

/-- What passes the entry's own checks. -/
def checked (i : Instr) : Option Instr := if i.wf then some i else none

/-- F2 with two sources; X7 must be `x`. -/
def f2 (w x : Nat) (k : Dst → Src → Src → Instr) : Option Instr :=
  match decDst (fD w), decSrc (fA w), decSrc (fB w) with
  | some d, some a, some b => if fC w = x then checked (k d a b) else none
  | _, _, _ => none

/-- F2 with one source: B8 zero; X7 must be `x`. -/
def f2u (w x : Nat) (k : Dst → Src → Instr) : Option Instr :=
  match decDst (fD w), decSrc (fA w) with
  | some d, some a => if fC w = x ∧ fB w = 0 then checked (k d a) else none
  | _, _ => none

/-- F2 with two sources and RSEL (R212). -/
def f2r (w : Nat) (k : RSel → Dst → Src → Src → Instr) : Option Instr :=
  match decR (fC w) with
  | some r => f2 w r.code (k r)
  | none => none

/-- F2 with one source and RSEL. -/
def f2ur (w : Nat) (k : RSel → Dst → Src → Instr) : Option Instr :=
  match decR (fC w) with
  | some r => f2u w r.code (k r)
  | none => none

/-- F2 with no source: A8 and B8 zero. -/
def f2z (w x : Nat) (k : Dst → Instr) : Option Instr :=
  match decDst (fD w) with
  | some d => if fA w = 0 ∧ fB w = 0 ∧ fC w = x then checked (k d) else none
  | none => none

/-- F2 with one source and no destination: D7 and B8 zero. -/
def f2s (w x : Nat) (k : Src → Instr) : Option Instr :=
  match decSrc (fA w) with
  | some a => if fD w = 0 ∧ fB w = 0 ∧ fC w = x then checked (k a) else none
  | none => none

/-- F3. -/
def f3 (w : Nat) (k : Dst → Src → Src → CSrc → Instr) : Option Instr :=
  match decDst (fD w), decSrc (fA w), decSrc (fB w) with
  | some d, some a, some b => checked (k d a b (decC (fC w)))
  | _, _, _ => none

/-- FB (R48). -/
def fb (w : Nat) (k : Src → Int → Instr) : Option Instr :=
  match decSrc (fld w 22 8) with
  | some a => checked (k a (sext 22 (fld w 0 22)))
  | none => none

/-- FB without a condition: A8 zero. -/
def fbz (w : Nat) (k : Int → Instr) : Option Instr :=
  if fld w 22 8 = 0 then checked (k (sext 22 (fld w 0 22))) else none

/-- FM with a destination. -/
def fmLd (w : Nat) (k : Width → Dst → Src → Int → Instr) : Option Instr :=
  match decDst (fD w), decSrc (fA w), decW (fld w 0 3) with
  | some d, some a, some sz => checked (k sz d a (sext 12 (fld w 3 12)))
  | _, _, _ => none

/-- FM with a data register in D7 (R121). -/
def fmSt (w : Nat) (k : Width → Nat → Src → Int → Instr) : Option Instr :=
  match decSrc (fA w), decW (fld w 0 3) with
  | some a, some sz => checked (k sz (fD w) a (sext 12 (fld w 3 12)))
  | _, _ => none

/-- FT: M7 is W3, REL and three zero bits (R125). -/
def ft (w : Nat) (k : Width → Bool → Nat → Src → Src → Option Instr) : Option Instr :=
  match decSrc (fA w), decSrc (fB w), decW (fC w % 8) with
  | some a, some t, some sz => if fC w / 16 = 0 then k sz (fC w / 8 % 2 == 1) (fD w) a t else none
  | _, _, _ => none

/-- FX whose fields are all zero but D7 and A8. -/
def fx (w : Nat) (k : Nat → Option Src → Option Instr) (n m : Nat) : Option Instr :=
  if fN w = n ∧ fM w = m then k (fD w) (decSrc (fA w)) else none

/-- FX with every field zero but M10 (and D7 when `k` takes it). -/
def fxz (w : Nat) (i : Instr) (m : Nat) : Option Instr :=
  if fD w = 0 ∧ fA w = 0 ∧ fN w = 0 ∧ fM w = m then some i else none

/-- FX with A8 alone, D7 zero. -/
def fxa (w n m : Nat) (k : Src → Instr) : Option Instr :=
  match decSrc (fA w) with
  | some a => if fD w = 0 ∧ fN w = n ∧ fM w = m then checked (k a) else none
  | none => none

/-- FX with D7 a register number and A8 a source. -/
def fxda (w n m : Nat) (k : Nat → Src → Instr) : Option Instr :=
  match decSrc (fA w) with
  | some a => if fN w = n ∧ fM w = m then checked (k (fD w) a) else none
  | none => none

/-- FX with D7 alone. -/
def fxd (w n m : Nat) (k : Nat → Instr) : Option Instr :=
  if fA w = 0 ∧ fN w = n ∧ fM w = m then checked (k (fD w)) else none

/-! ### Opcodes, class by class (R54 to R62) -/

/-- Control and system (R55). -/
def decCtl (o w : Nat) : Option Instr :=
  match o with
  | 0x00 => fxz w .nop 0
  | 0x01 => fbz w .bra
  | 0x02 => fb w .bnz
  | 0x03 => fb w .bz
  | 0x04 => fbz w .bdv
  | 0x05 => f2s w (fC w) fun a => .jpt a (fC w + 1)
  | 0x06 => f2s w 0 .bix
  | 0x07 => fbz w .call
  | 0x08 => fxz w .ret 0
  | 0x09 => fxz w .exit 0
  | 0x0A => fxz w .yld 0
  | 0x0B => fxz w .tsync 0
  | 0x10 => if fD w = 0 ∧ fA w = 0 then checked (.trap (fld w 0 15)) else none
  | 0x11 => fxz w (.tret (fM w == 1)) (if fM w = 1 then 1 else 0)
  | 0x12 =>
    match decDst (fD w) with
    | some d => if fA w = 0 then checked (.srd d (fld w 0 15)) else none
    | none => none
  | 0x13 =>
    match decSrc (fA w) with
    | some a => if fD w = 0 then checked (.swr (fld w 0 15) a) else none
    | none => none
  | 0x14 => fxz w .halt 0
  | 0x15 => if fD w = 0 ∧ fA w = 0 then checked (.bkpt (fld w 0 15)) else none
  | 0x16 =>
    match ([.lo, .hi, .cause] : List FltK)[fC w]? with
    | some f => f2z w f.code (.fltrd f)
    | none => none
  | _ => none

/-- Integer and logic (R56); `o` is the opcode less 0x080. LIMM is decoded with its literal slot. -/
def decInt (o w lit : Nat) : Option Instr :=
  match o with
  | 0x00 => f2 w 0 .iadd
  | 0x01 => f2 w 0 .isub
  | 0x02 => f2 w 0 (.iadds .s32)
  | 0x03 => f2 w 0 (.iadds .u32)
  | 0x04 => f2 w 0 (.isubs .s32)
  | 0x05 => f2 w 0 (.isubs .u32)
  | 0x06 => f2 w 0 .imul
  | 0x07 => f2 w 0 (.imulh .s32)
  | 0x08 => f2 w 0 (.imulh .u32)
  | 0x09 => f3 w .imad
  | 0x0A => f2 w 0 (.imin .s32)
  | 0x0B => f2 w 0 (.imin .u32)
  | 0x0C => f2 w 0 (.imax .s32)
  | 0x0D => f2 w 0 (.imax .u32)
  | 0x0E => f2u w 0 .iabs
  | 0x0F => f2u w 0 .ineg
  | 0x10 => f3 w (.idot4 .s8s8)
  | 0x11 => f3 w (.idot4 .u8u8)
  | 0x12 => f3 w (.idot4 .s8u8)
  | 0x13 => f3 w (.idot4 .s4s4)
  | 0x14 => f2 w 0 .and
  | 0x15 => f2 w 0 .or
  | 0x16 => f2 w 0 .xor
  | 0x17 => f2 w 0 .andn
  | 0x18 => f2 w 0 .shl
  | 0x19 => f2 w 0 .shr
  | 0x1A => f2 w 0 .sar
  | 0x1B => f2 w 0 .rotl
  | 0x1C => decBfe w false
  | 0x1D => decBfe w true
  | 0x1E => f3 w .bfi
  | 0x1F => f2u w 0 .popc
  | 0x20 => f2u w 0 .clz
  | 0x21 => f2u w 0 .brev
  | 0x2C => if fC w < 8 then f2 w (fC w) fun d a b => .sel d a b (fC w) else none
  | 0x2D => f2u w 0 .mov
  | 0x2E =>
    match decDst (fD w) with
    | some d => checked (.movi d (sext 23 (fld w 0 23)))
    | none => none
  | 0x2F =>
    match decDst (fD w) with
    | some d => if fld w 0 23 = 0 then checked (.limm d lit) else none
    | none => none
  | _ =>
    match ([.eq, .ne, .lts, .les, .gts, .ges, .ltu, .leu, .gtu, .geu] : List ICc)[o - 0x22]? with
    | some cc => f2 w 0 (.icmp cc)
    | none => none
where
  /-- BFE (R219). -/
  decBfe (w : Nat) (s : Bool) : Option Instr :=
    match decDst (fD w), decSrc (fA w) with
    | some d, some a => if fld w 10 5 = 0 then checked (.bfe s d a (fld w 0 5) (fld w 5 5 + 1)) else none
    | _, _ => none

/-- One float block (R57); `o` is the offset in the block. -/
def decFloat (f : FBlk) (o w : Nat) : Option Instr :=
  match o with
  | 0 => f2r w (.fadd f)
  | 1 => f2r w (.fsub f)
  | 2 => f2r w (.fmul f)
  | 3 => f3 w (.ffma f)
  | 4 => f2 w 0 (.fmin f)
  | 5 => f2 w 0 (.fmax f)
  | 13 => f2u w 0 (.fclass f)
  | 14 => f2ur w (.fround f)
  | 15 => f2r w (.fdiv f)
  | 16 => f2ur w (.fsqrt f)
  | 17 => f2ur w (.frcp f)
  | 18 => f2ur w (.frsq f)
  | 19 => f2ur w (.fexp f)
  | 20 => f2ur w (.fexp2 f)
  | 21 => f2ur w (.flog f)
  | 22 => f2ur w (.flog2 f)
  | 23 => f2ur w (.fsin f)
  | 24 => f2ur w (.fcos f)
  | 25 => f2ur w (.ftanh f)
  | _ =>
    match ([.eq, .ne, .lt, .le, .gt, .ge, .un] : List FCc)[o - 6]? with
    | some cc => f2 w 0 (.fcmp f cc)
    | none => none

/-- A pair operation (R228): D7 names a v pair. -/
def f2p (w : Nat) (k : Nat → Src → Src → Instr) : Option Instr :=
  match decSrc (fA w), decSrc (fB w) with
  | some a, some b => if fC w = 0 then checked (k (fD w) a b) else none
  | _, _ => none

/-- Float and pairs; `o` is the opcode less 0x100. -/
def decFlt (o w : Nat) : Option Instr :=
  match o with
  | 0x60 => f2p w .twosum
  | 0x61 => f2p w .twoprod
  | 0x62 => f2p w .padd
  | 0x63 =>
    match decSrc (fA w) with
    | some a => if fB w = 0 ∧ fC w = 0 then checked (.pnorm (fD w) a) else none
    | none => none
  | _ =>
    match ([.f32, .h2bf16, .h2fp16] : List FBlk)[o / 32]? with
    | some f => decFloat f (o % 32) w
    | none => none

/-- The conversion formats in the order of R58. -/
def cvtFs : List CvtF := [.s8, .u8, .s16, .u16, .s32, .u32, .e4m3, .e5m2, .fp16, .bf16]

/-- The lane operations in the order of R58. -/
def lops : List LOp := [.add, .mins, .minu, .maxs, .maxu, .and, .or, .xor, .fadd, .fmin, .fmax]

/-- Conversion, lane, shape and format (R58); `o` is the opcode less 0x180. -/
def decCnv (o w : Nat) : Option Instr :=
  if o < 10 then
    match cvtFs[o]? with
    | some f => f2ur w (.cvtTo f)
    | none => none
  else if o < 20 then
    match cvtFs[o - 10]? with
    | some f => f2ur w (.cvtFrom f)
    | none => none
  else if 0x3A ≤ o ∧ o < 0x45 then
    match lops[o - 0x3A]? with
    | some p => if fC w < 2 then f2u w (fC w) (.lred p (fC w == 1)) else none
    | none => none
  else if 0x45 ≤ o ∧ o < 0x50 then
    match lops[o - 0x45]? with
    | some p => if fC w < 2 then f2u w (fC w) (.lscan p (fC w == 1)) else none
    | none => none
  else
  match o with
  | 0x14 => f3 w (.qnt .s8)
  | 0x15 => f3 w (.qnt .s4)
  | 0x16 => f3 w (.qnt .e4m3)
  | 0x17 => f3 w (.qnt .e5m2)
  | 0x18 => f3 w (.dqnt .s8)
  | 0x19 => f3 w (.dqnt .s4)
  | 0x1A => f3 w (.dqnt .e4m3)
  | 0x1B => f3 w (.dqnt .e5m2)
  | 0x1C => f3 w (.pack .b4)
  | 0x1D => f3 w (.pack .b8)
  | 0x1E => f3 w (.pack .b16)
  | 0x20 => f2 w 0 (.unpk .u4)
  | 0x21 => f2 w 0 (.unpk .s4)
  | 0x22 => f2 w 0 (.unpk .u8)
  | 0x23 => f2 w 0 (.unpk .s8)
  | 0x24 => f2 w 0 (.unpk .u16)
  | 0x25 => f2 w 0 (.unpk .s16)
  | 0x26 => f2u w 0 .rnse
  | 0x27 => f2u w 0 .rnsd
  | 0x28 => f2u w (fC w) fun d a => .acvt d a (sext 7 (fC w))
  | 0x30 => f3 w (.perm .b8)
  | 0x31 => f3 w (.perm .b4)
  | 0x32 => f3 w (.shfl .idx)
  | 0x33 => f3 w (.shfl .up)
  | 0x34 => f3 w (.shfl .down)
  | 0x35 => f3 w (.shfl .xor)
  | 0x36 => f2 w 0 .bcast
  | 0x37 => f2u w 0 (.vote .any)
  | 0x38 => f2u w 0 (.vote .all)
  | 0x39 => f2u w 0 (.vote .ballot)
  | 0x50 =>
    match decDst (fD w) with
    | some d => if fA w % 2 = 0 ∧ fB w = 0 ∧ fC w = 0 then checked (.shape d (fA w / 2)) else none
    | none => none
  | 0x51 => f2 w 0 .mkaff
  | 0x52 => if fC w < 2 then f2u w (fC w) (.mkuni (fC w == 1)) else none
  | 0x53 => if fD w = 0 ∧ fA w % 2 = 0 ∧ fB w = 0 ∧ fC w < 64 then checked (.free (fA w / 2) (fC w + 1)) else none
  | 0x54 =>
    match decDst (fD w) with
    | some d =>
      if fB w = 0 ∧ fA w % 2 = 0 ∧ fC w < 2 then checked (.regq (fC w == 1) d (fA w / 2)) else none
    | none => none
  | 0x58 => decImm w .sfmt
  | 0x59 => f2z w 0 .gfmt
  | 0x5A => decImm w .srnd
  | 0x5B => f2z w 0 .grnd
  | 0x5C => if fC w = 0 then f2z w 0 .flags else f2u w 1 .flagsClr
  | _ => none
where
  /-- SFMT and SRND, register and immediate forms (R243). -/
  decImm (w : Nat) (k : Option Nat → Src → Instr) : Option Instr :=
    if fC w = 0 then f2s w 0 (k none)
    else if 64 ≤ fC w ∧ fA w = 0 then f2s w (fC w) (k (some (fC w - 64)))
    else none

/-- The three address forms in opcode order. -/
def aforms : List AForm := [.gen, .loc, .clu]

/-- The atomic operations in the order of R59. -/
def aops : List AOp := [.add, .and, .or, .xor, .mins, .minu, .maxs, .maxu, .xchg, .cas, .fadd]

/-- LD.acq (R129). -/
def decAcq (fm : AForm) (w : Nat) : Option Instr :=
  match decW (fC w % 8), decScope (fC w / 8) with
  | some sz, some sc => f2u w (fC w) (.ldAcq fm sz sc)
  | _, _ => none

/-- ST.rel (R129). -/
def decRel (fm : AForm) (w : Nat) : Option Instr :=
  match decW (fC w % 8), decScope (fC w / 8), decSrc (fA w), decSrc (fB w) with
  | some sz, some sc, some a, some s => if fD w = 0 then checked (.stRel fm sz sc a s) else none
  | _, _, _, _ => none

/-- SPCAST (R131). -/
def decCast (w : Nat) : Option Instr :=
  match ([.gen, .loc, .c32] : List CastFrom)[fC w / 8]?, ([.scr, .clu, .loc, .c32] : List CastTo)[fC w % 8]? with
  | some fr, some tgt => f2u w (fC w) (.spcast fr tgt)
  | _, _ => none

/-- Memory, atomics and time (R59); `o` is the opcode less 0x200. -/
def decMem (o w : Nat) : Option Instr :=
  if 0x30 ≤ o ∧ o ≤ 0x3A then
    match aops[o - 0x30]? with
    | some p => f3 w (.atom p)
    | none => none
  else if 0x40 ≤ o ∧ o ≤ 0x4A then
    match aops[o - 0x40]? with
    | some p => f3 w (.atoms p)
    | none => none
  else
  match o with
  | 0x00 => fmLd w .ld
  | 0x01 => fmSt w .st
  | 0x02 => fmLd w .lds
  | 0x03 => fmSt w .sts
  | 0x04 => fmLd w .ldc
  | 0x05 => fmSt w .stc
  | 0x06 => fmLd w (.ldUni .gen)
  | 0x07 => fmLd w (.ldUni .loc)
  | 0x08 => fmLd w (.ldUni .clu)
  | 0x10 => ft w (decNb .gen)
  | 0x11 => ft w (decNb .loc)
  | 0x12 => ft w (decNb .clu)
  | 0x13 => ft w fun sz rel d a t => checked (.stVa .gen sz rel d a t)
  | 0x14 => ft w fun sz rel d a t => checked (.stVa .loc sz rel d a t)
  | 0x15 => ft w fun sz rel d a t => checked (.stVa .clu sz rel d a t)
  | 0x18 => decAcq .gen w
  | 0x19 => decAcq .loc w
  | 0x1A => decAcq .clu w
  | 0x1B => decRel .gen w
  | 0x1C => decRel .loc w
  | 0x1D => decRel .clu w
  | 0x20 => f2u w 0 .sptest
  | 0x21 => decCast w
  | 0x22 => if fld w 0 3 = 4 then
      match decSrc (fA w) with
      | some a => if fD w = 0 then checked (.pfet a (sext 12 (fld w 3 12))) else none
      | none => none
    else none
  | 0x50 =>
    match decSrc (fA w), decSrc (fB w) with
    | some a, some x => if fD w = 0 then checked (.asum a x (sext 7 (fC w))) else none
    | _, _ => none
  | 0x58 =>
    match ([.full, .acq, .rel] : List FenceK)[fM w / 8]?, decScope (fM w % 8) with
    | some k, some sc => fxz w (.fence k sc) (fM w)
    | _, _ => none
  | 0x60 =>
    match decSrc (fA w), decSrc (fB w) with
    | some a, some b => checked (.rmap (fD w) a b (decC (fC w)))
    | _, _ => none
  | 0x61 => f2s w 0 .rflush
  | 0x62 => f2s w 0 .rdrop
  | 0x68 => if fA w = 0 ∧ fB w = 0 ∧ fC w = 0 then checked (.tnow (fD w)) else none
  | 0x69 => if fC w < 2 then f2s w (fC w) (.twait (fC w == 1)) else none
  | _ => none
where
  /-- LD.nb (R125). -/
  decNb (fm : AForm) (sz : Width) (rel : Bool) (d : Nat) (a t : Src) : Option Instr :=
    match decDst d with
    | some d => checked (.ldNb fm sz rel d a t)
    | none => none

/-- Copies, barrier objects and the access engine (R60); `o` is the opcode less 0x280. -/
def decCpy (o w : Nat) : Option Instr :=
  match o with
  | 0x00 => if fM w = 1 then fxa w (fN w) 1 (.cpyFeed (fN w)) else fxa w 0 0 .cpy
  | 0x01 => fxa w 0 0 .cpyl
  | 0x02 => fxd w 0 0 .cbatch
  | 0x03 => if fM w = 1 then (if fA w = 0 then fxa w 0 1 (.cwait true) else none) else fxa w 0 0 (.cwait false)
  | 0x08 => fxa w 0 (fM w) fun b => .bari b (fM w + 1)
  | 0x09 => if fM w < 2 then fxda w 0 (fM w) fun c b => .barx (fM w == 1) b c else none
  | 0x0A => if fM w < 2 then fxa w 0 (fM w) (.bara (fM w == 1)) else none
  | 0x0B => fxda w 0 0 .barw
  | 0x10 => fxda w 0 0 fun x a => .astart a x
  | 0x11 => if fM w < 2 then fxz w (.astop (fM w == 1)) (fM w) else none
  | 0x12 =>
    match decDst (fD w) with
    | some d => fxd w 0 0 fun _ => .fstat d
    | none => none
  | _ => none

/-- The format pairs in the order of R61. -/
def mpairs : List MPair := [.s8s8, .s8s4, .s4s4, .s4s8]

/-- One of the four ladder forms (R260): M10 is lo, N, c − 1, LOWH. -/
def decLad (w : Nat) (k : MPair → Bool → Nat → Nat → Nat → Src → Nat → Instr) (p : MPair) : Option Instr :=
  fxa w (fN w) (fM w) fun a => k p (fM w % 2 == 1) (fM w / 16 % 8) (fN w) (fM w / 2 % 8 + 1) a (fM w / 128)

/-- MMF (R266). -/
def decMmf (w : Nat) (f : MFmt) : Option Instr :=
  if fM w % 2 = 0 ∧ fM w / 128 = 0 then
    fxa w (fN w) (fM w) fun a => .mmf f (fM w / 16 % 8) (fN w) (fM w / 2 % 8 + 1) a
  else none

/-- QDRAIN (R270). -/
def decDrain (w : Nat) (f : DFmt) : Option Instr :=
  match decR (fM w / 16) with
  | some r =>
    if fN w < 8 then
      fxda w (fN w) (fM w) fun s a => .qdrain f r (fM w / 8 % 2 == 1) a (fN w) (fM w % 8 + 1) s
    else none
  | none => none

/-- QSCALE (R268). -/
def decScale (w : Nat) (bf : Bool) : Option Instr :=
  match ([.col, .row, .colG64] : List ScaleT)[fM w]? with
  | some t => if fN w < 8 then fxa w (fN w) (fM w) (.qscale bf t (fN w)) else none
  | none => none

/-- Matrix (R61); `o` is the opcode less 0x300. -/
def decMat (o w : Nat) : Option Instr :=
  if 0x08 ≤ o ∧ o < 0x0C then (mpairs[o - 0x08]?).bind (decLad w .mmr)
  else if 0x0C ≤ o ∧ o < 0x10 then (mpairs[o - 0x0C]?).bind (decLad w .mmrHold)
  else if 0x18 ≤ o ∧ o < 0x1C then (mpairs[o - 0x18]?).bind (decLad w .mmc)
  else if 0x1C ≤ o ∧ o < 0x20 then (mpairs[o - 0x1C]?).bind (decLad w .mmcHold)
  else
  match o with
  | 0x00 => decWld .s8
  | 0x01 => decWld .s4
  | 0x02 => decWld .bf16
  | 0x03 => decWld .fp16
  | 0x04 => decWld .e4m3
  | 0x05 => decWld .e5m2
  | 0x10 => decMmf w .bf16
  | 0x11 => decMmf w .fp16
  | 0x12 => decMmf w .e4m3
  | 0x13 => decMmf w .e5m2
  | 0x20 => if fD w = 0 ∧ fA w = 0 ∧ fM w < 8 then checked (.qzero (fN w) (fM w + 1)) else none
  | 0x21 => decDrain w .f32
  | 0x22 => decDrain w .bf16
  | 0x23 => decDrain w .fp16
  | 0x24 => decDrain w .e4m3
  | 0x25 => decDrain w .e5m2
  | 0x26 => decDrain w .pair
  | 0x28 => decScale w false
  | 0x29 => decScale w true
  | 0x2A => if fM w < 8 then fxa w (fN w) (fM w) fun a => .qsave a (fN w) (fM w + 1) else none
  | 0x2B => if fM w < 8 then fxa w (fN w) (fM w) fun a => .qload a (fN w) (fM w + 1) else none
  | 0x2C =>
    match decDst (fD w) with
    | some d => fxd w (fN w) 0 fun _ => .qstat d (fN w)
    | none => none
  | _ => none
where
  /-- WLD (R259). -/
  decWld (t : WTag) : Option Instr :=
    if fM w < 32 then fxa w (fN w) (fM w) fun a => .wld t (fN w) a (fM w + 1) else none

/-- Versions and launches (R62); `o` is the opcode less 0x380. -/
def decVer (o w : Nat) : Option Instr :=
  match o with
  | 0x00 => fxa w (fN w) 0 (.vbegin (fN w))
  | 0x01 => if fM w < 2 then fxd w (fN w) (fM w) fun d => .vslot (fM w == 1) d (fN w) else none
  | 0x02 => fxda w (fN w) 0 fun b a => .vseal (fN w) a b
  | 0x03 => fxda w (fN w) 0 fun b a => .vsealFinal (fN w) a b
  | 0x04 => fxda w (fN w) 0 fun d a => .vpin d (fN w) a
  | 0x05 => if fD w = 0 ∧ fA w = 0 ∧ fM w = 0 then checked (.vunpin (fN w)) else none
  | 0x06 =>
    if fM w = 0 then fxda w (fN w) 0 fun d a => .vwait d (fN w) a none
    else if fM w / 256 = 1 then
      match decSrc (fM w % 256) with
      | some t => fxda w (fN w) (fM w) fun d a => .vwait d (fN w) a (some t)
      | none => none
    else none
  | 0x07 =>
    match decDst (fD w) with
    | some d => if fM w < 32 then fxd w (fN w) (fM w) fun _ => .vstat d (fN w) (fM w) else none
    | none => none
  | 0x08 =>
    match ([.b, .e, .t] : List LeftK)[fM w]? with
    | some k => fxd w 0 (fM w) (.vleft k)
    | none => none
  | 0x10 => fxda w 0 0 .launch
  | 0x11 => fxda w 0 0 .join
  | 0x12 => fxd w 0 0 .bleft
  | 0x13 => if fM w < 2 then fxd w 0 (fM w) (.dline (fM w == 1)) else none
  | _ => none

/-- The operation of standard opcode `op` with the fields of `w` (bits [29:0]); `lit` is the literal slot
of a LIMM. -/
def decOper (op w lit : Nat) : Option Instr :=
  match op / 128 with
  | 0 => decCtl op w
  | 1 => decInt (op - 0x80) w lit
  | 2 => decFlt (op - 0x100) w
  | 3 => decCnv (op - 0x180) w
  | 4 => decMem (op - 0x200) w
  | 5 => decCpy (op - 0x280) w
  | 6 => decMat (op - 0x300) w
  | 7 => decVer (op - 0x380) w
  | _ => none

/-! ### Formats and pipes of the opcode map -/

/-- The pipes of R13 as the opcode map names them. -/
inductive Pipe where | none | vab | vb | mx | ls | ax | ct
  deriving DecidableEq, Repr

/-- The pipe of an assigned opcode (R55 to R62). -/
def stdPipe (op : Nat) : Pipe :=
  if op = 0 then .none
  else if op < 0x80 then .ct
  else if op < 0x100 then .vab
  else if op < 0x160 then (if op % 32 < 15 then .vab else .vb)
  else if op < 0x180 then .vab
  else if op < 0x1D0 then .vb
  else if op < 0x1D8 then .vab
  else if op < 0x200 then .ct
  else if op = 0x220 then .vab
  else if op = 0x221 then .vab
  else if op < 0x268 then .ls
  else if op < 0x300 then .ax
  else if op < 0x380 then .mx
  else .ax

/-- The format number of an assigned opcode in DTDATA's coding: 0 F3, 1 F2, 2 FI, 3 FL, 4 FM, 5 FT, 6 FB,
7 FX (R67). -/
def stdFormat (op : Nat) : Nat :=
  if [0x001, 0x002, 0x003, 0x004, 0x007].contains op then 6
  else if [0x005, 0x006, 0x016].contains op then 1
  else if [0x010, 0x012, 0x013, 0x015, 0x09C, 0x09D].contains op then 2
  else if op = 0x0AE ∨ op = 0x0AF then 3
  else if op < 0x80 then 7
  else if op = 0x089 ∨ op = 0x09E ∨ (0x090 ≤ op ∧ op ≤ 0x093) then 0
  else if op = 0x103 ∨ op = 0x123 ∨ op = 0x143 then 0
  else if 0x194 ≤ op ∧ op ≤ 0x19E then 0
  else if 0x1B0 ≤ op ∧ op ≤ 0x1B5 then 0
  else if op < 0x200 then 1
  else if op ≤ 0x208 ∨ op = 0x222 then 4
  else if op ≤ 0x215 then 5
  else if op < 0x230 then 1
  else if op < 0x250 ∨ op = 0x260 then 0
  else if op = 0x258 then 7
  else if op < 0x280 then 1
  else 7

/-- The number of a pipe in DTDATA's coding (R67). -/
def Pipe.code : Pipe → Nat
  | .none => 0
  | .vab => 1
  | .vb => 2
  | .mx => 3
  | .ls => 4
  | .ax => 5
  | .ct => 6

/-- R67. -/
def Pipe.ofCode (n : Nat) : Option Pipe := [.none, .vab, .vb, .mx, .ls, .ax, .ct][n]?

/-! ### Issue units -/

/-- The decode causes (R64), in order of precedence, with the slot they are reported at. -/
inductive DecodeErr where
  | illegalBundle
  | illegalChain
  | illegalOpcode (op : Nat)
  | illegalOperand
  deriving DecidableEq, Repr

/-- How a decode table reads an opcode: unassigned, or the standard opcode whose operation it performs, the pipe it
issues to, and the format that bits [29:0] follow (R65, R67). -/
abbrev OpView := Nat → Option (Nat × Pipe × Nat)

/-- The standard map (R55 to R62). -/
def stdView : OpView := fun op => if opAssigned op then some (op, stdPipe op, stdFormat op) else none

/-- A slot whose bits [29:0] follow format `f`, as its operation's own format `g` lays the fields out (R44, R67): D7,
A8, B8 and the low seven bits go over by name, and a field that `f` does not have is zero (DESIGN CHOICE, log entry 20).
None where a field that the operation's format does not have, and so does not use, is not zero (R47). -/
def reformat (f g w : Nat) : Option Nat :=
  if f = g then some w
  else
    let three := fun (x : Nat) => decide (x = 0) || decide (x = 1) || decide (x = 5)
    let d := if f = 6 then 0 else fld w 23 7
    let a := if f = 6 then fld w 22 8 else if f = 3 then 0 else fld w 15 8
    let rest := if f = 6 then w % 2 ^ 22 else if f = 3 then w % 2 ^ 23 else w % 2 ^ 15
    let low := if three f && three g then rest else 0
    if rest ≠ low ∨ (g = 6 ∧ d ≠ 0) ∨ (g = 3 ∧ a ≠ 0) then none
    else
      some (fOp w * 2 ^ 30 +
        (if g = 6 then a * 2 ^ 22 else if g = 3 then d * 2 ^ 23 else d * 2 ^ 23 + a * 2 ^ 15 + low))

/-- One slot on its own (with the literal of a LIMM). -/
def decodeSlot (view : OpView) (w lit : Nat) : Except DecodeErr Instr :=
  match view (fOp w) with
  | none => .error (.illegalOpcode (fOp w))
  | some (op, _, f) =>
    match (reformat f (stdFormat op) w).bind fun x => decOper op x lit with
    | some i => .ok i
    | none => .error .illegalOperand

/-- Whether the slot's operation is LIMM under the table. -/
def isLimm (view : OpView) (w : Nat) : Bool :=
  match view (fOp w) with
  | some (0x0AF, _) => true
  | _ => false

/-- A bundle (R38): its header and three slots. -/
structure Bundle where
  header : Nat
  slots : List Nat
  deriving DecidableEq, Repr

/-- The little-endian number of a list of bytes. -/
def natOfBytes : List Byte → Nat
  | [] => 0
  | b :: r => b.toNat + 256 * natOfBytes r

/-- R38: header in bits [7:0], slots 0 to 2 above it. -/
def bundleOfBytes (bs : List Byte) : Bundle :=
  let n := natOfBytes bs
  ⟨n % 256, [fld n 8 40, fld n 48 40, fld n 88 40]⟩

/-- Slot `p` of the bundle. -/
def Bundle.slot (b : Bundle) (p : Nat) : Nat := b.slots.getD p 0
/-- V (R39). -/
def Bundle.v (b : Bundle) : Nat := b.header / 64 % 4
/-- SC (R39). -/
def Bundle.sc (b : Bundle) : Nat := b.header % 16
/-- Whether slots `p` and `p + 1` are chained (CH01, CH12). -/
def Bundle.ch (b : Bundle) (p : Nat) : Bool :=
  if p = 0 then b.header / 32 % 2 == 1 else if p = 1 then b.header / 16 % 2 == 1 else false

/-- The destinations that an instruction names (R42: two members must not write the same one). -/
def Instr.dests : Instr → List Dst
  | .srd d _ | .fltrd _ d | .iabs d _ | .ineg d _ | .bfe _ d _ _ _ | .popc d _ | .clz d _ | .brev d _
  | .mov d _ | .movi d _ | .limm d _ | .fclass _ d _ | .fround _ _ d _ | .fsqrt _ _ d _ | .frcp _ _ d _
  | .frsq _ _ d _ | .fexp _ _ d _ | .fexp2 _ _ d _ | .flog _ _ d _ | .flog2 _ _ d _ | .fsin _ _ d _
  | .fcos _ _ d _ | .ftanh _ _ d _ | .cvtTo _ _ d _ | .cvtFrom _ _ d _ | .rnse d _ | .rnsd d _
  | .acvt d _ _ | .vote _ d _ | .lscan _ _ d _ | .shape d _ | .mkuni _ d _ | .regq _ d _ | .gfmt d
  | .grnd d | .flags d | .flagsClr d _ | .sptest d _ | .fstat d | .qstat d _ | .vstat d _ _ => [d]
  | .iadd d _ _ | .isub d _ _ | .iadds _ d _ _ | .isubs _ d _ _ | .imul d _ _ | .imulh _ d _ _
  | .imin _ d _ _ | .imax _ d _ _ | .and d _ _ | .or d _ _ | .xor d _ _ | .andn d _ _ | .shl d _ _
  | .shr d _ _ | .sar d _ _ | .rotl d _ _ | .icmp _ d _ _ | .sel d _ _ _ | .fadd _ _ d _ _
  | .fsub _ _ d _ _ | .fmul _ _ d _ _ | .fmin _ d _ _ | .fmax _ d _ _ | .fcmp _ _ d _ _
  | .fdiv _ _ d _ _ | .unpk _ d _ _ | .bcast d _ _ | .mkaff d _ _ => [d]
  | .imad d _ _ _ | .idot4 _ d _ _ _ | .bfi d _ _ _ | .ffma _ d _ _ _ | .qnt _ d _ _ _
  | .dqnt _ d _ _ _ | .pack _ d _ _ _ | .perm _ d _ _ _ | .shfl _ d _ _ _ | .atom _ d _ _ _
  | .atoms _ d _ _ _ => [d]
  | .lred _ pair d _ => if pair then wide d 2 else [d]
  | .spcast _ tgt d _ => if tgt = .scr ∨ tgt = .clu then wide d 2 else [d]
  | .ld w d _ _ | .lds w d _ _ | .ldc w d _ _ | .ldUni _ w d _ _ | .ldNb _ w _ d _ _
  | .ldAcq _ w _ d _ => wide d w.regs
  | .twosum d _ _ | .twoprod d _ _ | .padd d _ _ | .pnorm d _ | .tnow d | .vslot _ d _ | .vleft _ d
  | .join d _ | .bleft d | .dline _ d => wide (.v d) 2
  | .vpin d _ _ => wide (.v d) 4
  | .rmap d _ _ _ | .cbatch d | .barw d _ | .vwait d _ _ _ | .launch d _ => [.v d]
  | _ => []
where
  /-- A destination and the registers above it. -/
  wide (d : Dst) (n : Nat) : List Dst :=
    match d with
    | .v k => (List.range n).map fun j => .v (k + j)
    | d => [d]

/-- The v registers from a source on. -/
def Src.regs (s : Src) (n : Nat) : List Nat :=
  match s.spec with
  | .v k => (List.range n).map (k + ·)
  | _ => []

/-- The v registers that an operand releases: all it names when its last-use bit is set (R118, R209). -/
def Src.releases (s : Src) (n : Nat) : List Nat := if s.lu then s.regs n else []

/-- The v registers that a C7 operand releases. -/
def CSrc.releases (c : CSrc) (n : Nat) : List Nat := if c.lu then (List.range n).map (c.n + ·) else []

/-- How many registers the address operand of a memory instruction names (R118). -/
def AForm.regs : AForm → Nat
  | .gen => 2
  | _ => 1

/-- The v registers that an instruction's last-use bits release (R118, R173, R209). -/
def Instr.releases : Instr → List Nat
  | .bnz a _ | .bz a _ | .jpt a _ | .bix a | .swr _ a | .iabs _ a | .ineg _ a | .bfe _ _ a _ _
  | .popc _ a | .clz _ a | .brev _ a | .mov _ a | .fclass _ _ a | .fround _ _ _ a | .fsqrt _ _ _ a
  | .frcp _ _ _ a | .frsq _ _ _ a | .fexp _ _ _ a | .fexp2 _ _ _ a | .flog _ _ _ a | .flog2 _ _ _ a
  | .fsin _ _ _ a | .fcos _ _ _ a | .ftanh _ _ _ a | .cvtTo _ _ _ a | .cvtFrom _ _ _ a | .rnse _ a
  | .rnsd _ a | .vote _ _ a | .lred _ _ _ a | .lscan _ _ _ a | .mkuni _ _ a | .flagsClr _ a
  | .sfmt _ a | .srnd _ a | .rflush a | .rdrop a | .cpy a | .cpyl a | .cpyFeed _ a | .cwait _ a
  | .bari a _ | .barx _ a _ | .bara _ a | .barw _ a | .wld _ _ a _ | .mmr _ _ _ _ _ a _
  | .mmrHold _ _ _ _ _ a _ | .mmc _ _ _ _ _ a _ | .mmcHold _ _ _ _ _ a _ | .mmf _ _ _ _ a
  | .qscale _ _ _ a | .qsave a _ _ | .qload a _ _ | .vbegin _ a | .vseal _ a _ | .vsealFinal _ a _
  | .vpin _ _ a | .launch _ a => a.releases 1
  | .iadd _ a b | .isub _ a b | .iadds _ _ a b | .isubs _ _ a b | .imul _ a b | .imulh _ _ a b
  | .imin _ _ a b | .imax _ _ a b | .and _ a b | .or _ a b | .xor _ a b | .andn _ a b | .shl _ a b
  | .shr _ a b | .sar _ a b | .rotl _ a b | .icmp _ _ a b | .sel _ a b _ | .fadd _ _ _ a b
  | .fsub _ _ _ a b | .fmul _ _ _ a b | .fmin _ _ a b | .fmax _ _ a b | .fcmp _ _ _ a b
  | .fdiv _ _ _ a b | .unpk _ _ a b | .bcast _ a b | .mkaff _ a b | .twosum _ a b
  | .twoprod _ a b => a.releases 1 ++ b.releases 1
  | .imad _ a b c | .idot4 _ _ a b c | .bfi _ a b c | .ffma _ _ a b c | .qnt _ _ a b c
  | .dqnt _ _ a b c | .pack _ _ a b c | .perm _ _ a b c | .shfl _ _ a b c
  | .atoms _ _ a b c => a.releases 1 ++ b.releases 1 ++ c.releases 1
  | .atom _ _ a b c => a.releases 2 ++ b.releases 1 ++ c.releases 1
  | .padd _ a b => a.releases 2 ++ b.releases 2
  | .pnorm _ a | .sptest _ a | .pfet a _ | .ld _ _ a _ | .st _ _ a _ | .astart a _ | .join _ a
  | .qdrain _ _ _ a _ _ _ => a.releases 2
  | .lds _ _ a _ | .sts _ _ a _ | .ldc _ _ a _ | .stc _ _ a _ => a.releases 1
  | .acvt _ a _ => a.releases 4
  | .ldUni fm _ _ a _ | .ldAcq fm _ _ _ a => a.releases fm.regs
  | .ldNb fm _ rel _ a t | .stVa fm _ rel _ a t => a.releases fm.regs ++ t.releases (if rel then 1 else 2)
  | .stRel fm w _ a s => a.releases fm.regs ++ s.releases w.regs
  | .spcast fr _ _ a => a.releases (if fr = .gen then 2 else 1)
  | .asum a x _ => a.releases 2 ++ x.releases 1
  | .rmap _ a b c => a.releases 1 ++ b.releases 1 ++ c.releases 2
  | .twait rel a => a.releases (if rel then 1 else 2)
  | .vwait _ _ a t =>
    a.releases 1 ++
    (match t with
     | none => []
     | some t => t.releases 2)
  | _ => []

/-- BIX and TRAP take no chain bit (R404; R251's neighbour for BIX). -/
def Instr.unchainable : Instr → Bool
  | .bix _ => true
  | .trap _ => true
  | _ => false

/-- Whether distinct pipes can be given to the members (R41): the choices of VA or VB for each. -/
def pipesFit (ps : List Pipe) : Bool :=
  let n := fun p => (ps.filter (· == p)).length
  decide (n .mx ≤ 1) && decide (n .ls ≤ 1) && decide (n .ax ≤ 1) && decide (n .ct ≤ 1) &&
  decide (n .vb ≤ 1) && decide (n .vab + n .vb ≤ 2)

/-- An issue unit: the entry slot's position, its members, and how many slots it takes. -/
structure IssueUnit where
  members : List (Nat × Instr)      -- position in the bundle, instruction
  len : Nat
  deriving DecidableEq, Repr

/-- Pairs of different members, the earlier one first. -/
def pairsOf {α : Type} : List α → List (α × α)
  | [] => []
  | a :: r => r.map (fun b => (a, b)) ++ pairsOf r

/-- R42's register conditions on two members: one destination written twice, or a register that one
releases and the other writes. -/
def clash (i j : Instr) : Bool :=
  (i.dests.any fun d => j.dests.contains d) ||
  (i.releases.any fun r => j.dests.contains (.v r)) ||
  (j.releases.any fun r => i.dests.contains (.v r))

/-- The members of a chain over the slots `p` to `q` of a bundle: a LIMM takes its literal slot.
`none` where the chain is illegal: a LIMM in slot 2, a LIMM whose literal is not chained to it, or a
literal slot chained to a further slot. -/
def chainMembers (view : OpView) (b : Bundle) (p q : Nat) : Option (List (Nat × Nat × Nat)) :=
  go (q + 1 - p) p
where
  /-- `fuel` slots from `p` on. -/
  go : Nat → Nat → Option (List (Nat × Nat × Nat))
    | 0, _ => some []
    | fuel + 1, p =>
      if isLimm view (b.slot p) then
        if p = 2 ∨ b.ch p = false then none
        else if b.ch (p + 1) then none
        else some [(p, b.slot p, b.slot (p + 1))]
      else
        match go fuel (p + 1) with
        | none => none
        | some r => some ((p, b.slot p, 0) :: r)

/-- The last slot of the chain that starts at `p`. -/
def chainEnd (b : Bundle) (p : Nat) : Nat :=
  if b.ch p then (if b.ch (p + 1) then p + 2 else p + 1) else p

/-- The first slot of the chain that holds the slot `p` (R42). -/
def chainFirst (b : Bundle) (p : Nat) : Nat :=
  if 0 < p ∧ b.ch (p - 1) = true then (if 1 < p ∧ b.ch (p - 2) = true then p - 2 else p - 1) else p

/-- The winning decode cause of the members, that of its lowest member (R64). -/
def memberErr (rs : List (Nat × Except DecodeErr Instr)) : Option DecodeErr :=
  let opc := rs.findSome? fun r =>
    match r.2 with
    | .error (.illegalOpcode o) => some (DecodeErr.illegalOpcode o)
    | _ => none
  let opd := rs.findSome? fun r =>
    match r.2 with
    | .error e => some e
    | _ => none
  match opc with
  | some e => some e
  | none => opd

/-- Decodes the issue unit that a group enters at position `p` of a bundle (R40 to R42, R64). The answer
is the unit, or the winning decode cause and the position it is reported at: the entry slot, or the chain's
first slot (R42, R43). -/
def decodeUnit (view : OpView) (b : Bundle) (p : Nat) : Except (DecodeErr × Nat) IssueUnit :=
  if 2 ≤ b.v then .error (.illegalBundle, p)
  else if 0 < p ∧ b.ch (p - 1) = true then .error (.illegalChain, chainFirst b p)
  else
    let q := chainEnd b p
    match chainMembers view b p q with
    | none => .error (.illegalChain, p)
    | some ms =>
      let rs := ms.map fun m => (m.1, decodeSlot view m.2.1 m.2.2)
      let good := rs.filterMap fun r =>
        match r.2 with
        | .ok i => some i
        | .error _ => none
      let pipes := ms.filterMap fun m => (view (fOp m.2.1)).map (·.2.1)
      if q = p then
        match rs with
        | [(_, .ok i)] => .ok ⟨[(p, i)], 1⟩
        | [(_, .error e)] => .error (e, p)
        | _ => .error (.illegalChain, p)
      else if !pipesFit pipes || (pairsOf good).any (fun x => clash x.1 x.2) then .error (.illegalChain, p)
      else
        match memberErr (rs.map fun r =>
            match r.2 with
            | .ok i => if i.unchainable then (r.1, .error .illegalOperand) else r
            | .error _ => r) with
        | some e => .error (e, p)
        | none => .ok ⟨rs.filterMap fun r =>
            match r.2 with
            | .ok i => some (r.1, i)
            | .error _ => none, q + 1 - p⟩

/-! ### Access slices (R159, R160) -/

/-- What a slice slot may hold: one of the listed instructions, a load into a feed, or a walk. -/
inductive SliceOp where
  | instr (i : Instr)
  | feedLoad (fm : AForm) (w : Width) (f : Nat) (a : Src) (off : Int)
  deriving DecidableEq, Repr

/-- R159: v0 to v15, the parameters, the special sources and the constants. -/
def Spec.sliceOk : Spec → Bool
  | .v n => decide (n < 16)
  | .p _ => true
  | .special _ => true
  | .const _ => true
  | _ => false

/-- A destination that a slice may name. -/
def Dst.sliceOk : Dst → Bool
  | .v n => decide (n < 16)
  | _ => false

/-- A pair that a slice may name. -/
def Src.slicePair (s : Src) : Bool :=
  match s.spec with
  | .v n => decide (n < 15)
  | .p _ => true
  | _ => false

/-- Whether a slice may hold the instruction: `none` for a mnemonic it may not (ILLEGAL_OPCODE), `some`
whether its operands are the ones R159 lists. A CPY without `.f` has the opcode of the list and raises ILLEGAL_OPERAND:
DEDUCED (log entry 100). -/
def sliceOperands : Instr → Option Bool
  | .iadd d a b | .isub d a b | .imul d a b | .and d a b | .or d a b | .xor d a b | .shl d a b
  | .shr d a b | .sar d a b => some (d.sliceOk && a.spec.sliceOk && b.spec.sliceOk)
  | .mov d a => some (d.sliceOk && a.spec.sliceOk)
  | .movi d _ => some d.sliceOk
  | .limm d _ => some d.sliceOk
  | .bra _ => some true
  | .bnz a _ | .bz a _ => some a.spec.sliceOk
  | .nop => some true
  | .exit => some true
  | .ld w d a _ => some (d.sliceOk && a.slicePair && decide (w.regs = 1))
  | .lds w d a _ => some (d.sliceOk && a.spec.sliceOk && decide (w.regs = 1))
  | .ldc w d a _ => some (d.sliceOk && a.spec.sliceOk && decide (w.regs = 1))
  | .cpyFeed _ a => some a.spec.sliceOk
  | .cpy _ => some false
  | _ => none

/-- The standard opcodes of R159's list. -/
def sliceOpcodes : List Nat :=
  [0x000, 0x001, 0x002, 0x003, 0x009, 0x080, 0x081, 0x086, 0x094, 0x095, 0x096, 0x098, 0x099, 0x09A, 0x0AD,
    0x0AE, 0x0AF, 0x200, 0x202, 0x204, 0x280]

/-- A load into a feed (R160): D7 of 74 to 77 and a width of 32 bits or narrower. -/
def decFeedLoad (fm : AForm) (w : Nat) : Option SliceOp :=
  match decSrc (fA w), decW (fld w 0 3) with
  | some a, some sz =>
    if sz.regs = 1 ∧ fm.addrWf a ∧ (if fm = .gen then a.slicePair else a.spec.sliceOk) = true then some (.feedLoad fm sz (fD w - 74) a (sext 12 (fld w 3 12)))
    else none
  | _, _ => none

/-- Decodes one slot of a slice under a decode table. -/
def decodeSliceSlot (view : OpView) (w lit : Nat) : Except DecodeErr SliceOp :=
  match view (fOp w) with
  | none => .error (.illegalOpcode (fOp w))
  | some (op, _, f) =>
    if !sliceOpcodes.contains op then .error (.illegalOpcode (fOp w))
    else
      match reformat f (stdFormat op) w with
      | none => .error .illegalOperand
      | some w =>
        if [0x200, 0x202, 0x204].contains op && decide (74 ≤ fD w) && decide (fD w ≤ 77) then
          match decFeedLoad (if op = 0x200 then .gen else if op = 0x202 then .loc else .clu) w with
          | some o => .ok o
          | none => .error .illegalOperand
        else
          match decOper op w lit with
          | none => .error .illegalOperand
          | some i =>
            match sliceOperands i with
            | none => .error (.illegalOpcode (fOp w))
            | some true => .ok (.instr i)
            | some false => .error .illegalOperand

/-! ### The front end's extension (R414) -/

/-- A custom-0 word of the extension; `none` for every other word. -/
def decodeFront (w : Nat) : Option Instr :=
  if fld w 0 7 = 0x0B ∧ fld w 25 7 = 0 then
    match fld w 12 3 with
    | 0 => if fld w 20 5 = 0 then some (.rfet (fld w 7 5) (fld w 15 5)) else none
    | 1 => some (.xbfx (fld w 7 5) (fld w 15 5) (fld w 20 5))
    | 2 => some (.swait (fld w 7 5) (fld w 15 5) (fld w 20 5))
    | 3 => if fld w 20 5 = 0 then some (.xdisp (fld w 7 5) (fld w 15 5)) else none
    | _ => none
  else none

/-- The R-type word (R414). -/
def rtype (f3 d s t : Nat) : Nat := 0x0B + 2 ^ 7 * d + 2 ^ 12 * f3 + 2 ^ 15 * s + 2 ^ 20 * t

/-! ### The encoder -/

/-- An F2 or F3 word (R44). -/
def enc (op d a b x : Nat) : Nat := 2 ^ 30 * op + 2 ^ 23 * d + 2 ^ 15 * a + 2 ^ 7 * b + x
/-- An FI word. -/
def encI (op d a imm : Nat) : Nat := 2 ^ 30 * op + 2 ^ 23 * d + 2 ^ 15 * a + imm
/-- An FL word. -/
def encL (op d imm : Nat) : Nat := 2 ^ 30 * op + 2 ^ 23 * d + imm
/-- An FM word. -/
def encM (op d a off w : Nat) : Nat := 2 ^ 30 * op + 2 ^ 23 * d + 2 ^ 15 * a + 2 ^ 3 * off + w
/-- An FB word. -/
def encB (op a off : Nat) : Nat := 2 ^ 30 * op + 2 ^ 22 * a + off
/-- An FX word. -/
def encX (op d a n m : Nat) : Nat := 2 ^ 30 * op + 2 ^ 23 * d + 2 ^ 15 * a + 2 ^ 10 * n + m

/-- The M10 of a ladder form (R260). -/
def ladM (lowh : Bool) (q c lo : Nat) : Nat := 2 ^ 7 * lo + 2 ^ 4 * q + 2 * (c - 1) + lowh.toNat

/-- The word of a well-formed instruction: of a slot (LIMM's literal aside), or the front end's. Events
have no word. -/
def encode : Instr → Nat
  | .nop => encX 0x000 0 0 0 0
  | .bra off => encB 0x001 0 (unsext 22 off)
  | .bnz a off => encB 0x002 a.code (unsext 22 off)
  | .bz a off => encB 0x003 a.code (unsext 22 off)
  | .bdv off => encB 0x004 0 (unsext 22 off)
  | .jpt a n => enc 0x005 0 a.code 0 (n - 1)
  | .bix a => enc 0x006 0 a.code 0 0
  | .call off => encB 0x007 0 (unsext 22 off)
  | .ret => encX 0x008 0 0 0 0
  | .exit => encX 0x009 0 0 0 0
  | .yld => encX 0x00A 0 0 0 0
  | .tsync => encX 0x00B 0 0 0 0
  | .trap n => encI 0x010 0 0 n
  | .tret nx => encX 0x011 0 0 0 nx.toNat
  | .srd d reg => encI 0x012 d.code 0 reg
  | .swr reg a => encI 0x013 0 a.code reg
  | .halt => encX 0x014 0 0 0 0
  | .bkpt n => encI 0x015 0 0 n
  | .fltrd f d => enc 0x016 d.code 0 0 f.code
  | .iadd d a b => enc 0x080 d.code a.code b.code 0
  | .isub d a b => enc 0x081 d.code a.code b.code 0
  | .iadds sg d a b => enc (0x082 + sg.code) d.code a.code b.code 0
  | .isubs sg d a b => enc (0x084 + sg.code) d.code a.code b.code 0
  | .imul d a b => enc 0x086 d.code a.code b.code 0
  | .imulh sg d a b => enc (0x087 + sg.code) d.code a.code b.code 0
  | .imad d a b c => enc 0x089 d.code a.code b.code c.code
  | .imin sg d a b => enc (0x08A + sg.code) d.code a.code b.code 0
  | .imax sg d a b => enc (0x08C + sg.code) d.code a.code b.code 0
  | .iabs d a => enc 0x08E d.code a.code 0 0
  | .ineg d a => enc 0x08F d.code a.code 0 0
  | .idot4 f d a b c => enc (0x090 + f.code) d.code a.code b.code c.code
  | .and d a b => enc 0x094 d.code a.code b.code 0
  | .or d a b => enc 0x095 d.code a.code b.code 0
  | .xor d a b => enc 0x096 d.code a.code b.code 0
  | .andn d a b => enc 0x097 d.code a.code b.code 0
  | .shl d a b => enc 0x098 d.code a.code b.code 0
  | .shr d a b => enc 0x099 d.code a.code b.code 0
  | .sar d a b => enc 0x09A d.code a.code b.code 0
  | .rotl d a b => enc 0x09B d.code a.code b.code 0
  | .bfe s d a pos len => encI (0x09C + s.toNat) d.code a.code (pos + 32 * (len - 1))
  | .bfi d a b c => enc 0x09E d.code a.code b.code c.code
  | .popc d a => enc 0x09F d.code a.code 0 0
  | .clz d a => enc 0x0A0 d.code a.code 0 0
  | .brev d a => enc 0x0A1 d.code a.code 0 0
  | .icmp cc d a b => enc (0x0A2 + cc.code) d.code a.code b.code 0
  | .sel d a b kn => enc 0x0AC d.code a.code b.code kn
  | .mov d a => enc 0x0AD d.code a.code 0 0
  | .movi d e => encL 0x0AE d.code (unsext 23 e)
  | .limm d _ => encL 0x0AF d.code 0
  | .fadd f r d a b => enc (0x100 + 32 * f.code) d.code a.code b.code r.code
  | .fsub f r d a b => enc (0x101 + 32 * f.code) d.code a.code b.code r.code
  | .fmul f r d a b => enc (0x102 + 32 * f.code) d.code a.code b.code r.code
  | .ffma f d a b c => enc (0x103 + 32 * f.code) d.code a.code b.code c.code
  | .fmin f d a b => enc (0x104 + 32 * f.code) d.code a.code b.code 0
  | .fmax f d a b => enc (0x105 + 32 * f.code) d.code a.code b.code 0
  | .fcmp f cc d a b => enc (0x106 + 32 * f.code + cc.code) d.code a.code b.code 0
  | .fclass f d a => enc (0x10D + 32 * f.code) d.code a.code 0 0
  | .fround f r d a => enc (0x10E + 32 * f.code) d.code a.code 0 r.code
  | .fdiv f r d a b => enc (0x10F + 32 * f.code) d.code a.code b.code r.code
  | .fsqrt f r d a => enc (0x110 + 32 * f.code) d.code a.code 0 r.code
  | .frcp f r d a => enc (0x111 + 32 * f.code) d.code a.code 0 r.code
  | .frsq f r d a => enc (0x112 + 32 * f.code) d.code a.code 0 r.code
  | .fexp f r d a => enc (0x113 + 32 * f.code) d.code a.code 0 r.code
  | .fexp2 f r d a => enc (0x114 + 32 * f.code) d.code a.code 0 r.code
  | .flog f r d a => enc (0x115 + 32 * f.code) d.code a.code 0 r.code
  | .flog2 f r d a => enc (0x116 + 32 * f.code) d.code a.code 0 r.code
  | .fsin f r d a => enc (0x117 + 32 * f.code) d.code a.code 0 r.code
  | .fcos f r d a => enc (0x118 + 32 * f.code) d.code a.code 0 r.code
  | .ftanh f r d a => enc (0x119 + 32 * f.code) d.code a.code 0 r.code
  | .twosum d a b => enc 0x160 d a.code b.code 0
  | .twoprod d a b => enc 0x161 d a.code b.code 0
  | .padd d a b => enc 0x162 d a.code b.code 0
  | .pnorm d a => enc 0x163 d a.code 0 0
  | .cvtTo tgt r d a => enc (0x180 + tgt.code) d.code a.code 0 r.code
  | .cvtFrom fr r d a => enc (0x18A + fr.code) d.code a.code 0 r.code
  | .qnt f d a b c => enc (0x194 + f.code) d.code a.code b.code c.code
  | .dqnt f d a b c => enc (0x198 + f.code) d.code a.code b.code c.code
  | .pack w d a b c => enc (0x19C + w.code) d.code a.code b.code c.code
  | .unpk t d a b => enc (0x1A0 + t.code) d.code a.code b.code 0
  | .rnse d a => enc 0x1A6 d.code a.code 0 0
  | .rnsd d a => enc 0x1A7 d.code a.code 0 0
  | .acvt d a anchor => enc 0x1A8 d.code a.code 0 (unsext 7 anchor)
  | .perm w d a b c => enc (0x1B0 + w.code) d.code a.code b.code c.code
  | .shfl m d a b c => enc (0x1B2 + m.code) d.code a.code b.code c.code
  | .bcast d a b => enc 0x1B6 d.code a.code b.code 0
  | .vote m d a => enc (0x1B7 + m.code) d.code a.code 0 0
  | .lred op pair d a => enc (0x1BA + op.code) d.code a.code 0 pair.toNat
  | .lscan op ex d a => enc (0x1C5 + op.code) d.code a.code 0 ex.toNat
  | .shape d a => enc 0x1D0 d.code (2 * a) 0 0
  | .mkaff d a b => enc 0x1D1 d.code a.code b.code 0
  | .mkuni chk d a => enc 0x1D2 d.code a.code 0 chk.toNat
  | .free a n => enc 0x1D3 0 (2 * a) 0 (n - 1)
  | .regq grp d a => enc 0x1D4 d.code (2 * a) 0 grp.toNat
  | .sfmt imm a =>
    match imm with
    | none => enc 0x1D8 0 a.code 0 0
    | some n => enc 0x1D8 0 0 0 (64 + n)
  | .gfmt d => enc 0x1D9 d.code 0 0 0
  | .srnd imm a =>
    match imm with
    | none => enc 0x1DA 0 a.code 0 0
    | some m => enc 0x1DA 0 0 0 (64 + m)
  | .grnd d => enc 0x1DB d.code 0 0 0
  | .flags d => enc 0x1DC d.code 0 0 0
  | .flagsClr d a => enc 0x1DC d.code a.code 0 1
  | .ld w d a off => encM 0x200 d.code a.code (unsext 12 off) w.code
  | .st w s a off => encM 0x201 s a.code (unsext 12 off) w.code
  | .lds w d a off => encM 0x202 d.code a.code (unsext 12 off) w.code
  | .sts w s a off => encM 0x203 s a.code (unsext 12 off) w.code
  | .ldc w d a off => encM 0x204 d.code a.code (unsext 12 off) w.code
  | .stc w s a off => encM 0x205 s a.code (unsext 12 off) w.code
  | .ldUni fm w d a off => encM (0x206 + fm.code) d.code a.code (unsext 12 off) w.code
  | .ldNb fm w rel d a t => enc (0x210 + fm.code) d.code a.code t.code (8 * rel.toNat + w.code)
  | .stVa fm w rel s a t => enc (0x213 + fm.code) s a.code t.code (8 * rel.toNat + w.code)
  | .ldAcq fm w sc d a => enc (0x218 + fm.code) d.code a.code 0 (8 * sc.code + w.code)
  | .stRel fm w sc a s => enc (0x21B + fm.code) 0 a.code s.code (8 * sc.code + w.code)
  | .sptest d a => enc 0x220 d.code a.code 0 0
  | .spcast fr tgt d a => enc 0x221 d.code a.code 0 (8 * fr.code + tgt.code)
  | .pfet a off => encM 0x222 0 a.code (unsext 12 off) 4
  | .atom op d a b c => enc (0x230 + op.code) d.code a.code b.code c.code
  | .atoms op d a b c => enc (0x240 + op.code) d.code a.code b.code c.code
  | .asum a x anchor => enc 0x250 0 a.code x.code (unsext 7 anchor)
  | .fence k sc => encX 0x258 0 0 0 (8 * k.code + sc.code)
  | .rmap d a b c => enc 0x260 d a.code b.code c.code
  | .rflush n => enc 0x261 0 n.code 0 0
  | .rdrop n => enc 0x262 0 n.code 0 0
  | .tnow d => enc 0x268 d 0 0 0
  | .twait rel a => enc 0x269 0 a.code 0 rel.toNat
  | .cpy a => encX 0x280 0 a.code 0 0
  | .cpyFeed n a => encX 0x280 0 a.code n 1
  | .cpyl a => encX 0x281 0 a.code 0 0
  | .cbatch d => encX 0x282 d 0 0 0
  | .cwait all a => if all then encX 0x283 0 0 0 1 else encX 0x283 0 a.code 0 0
  | .bari b n => encX 0x288 0 b.code 0 (n - 1)
  | .barx c32 b c => encX 0x289 c b.code 0 c32.toNat
  | .bara c32 b => encX 0x28A 0 b.code 0 c32.toNat
  | .barw d b => encX 0x28B d b.code 0 0
  | .astart a x => encX 0x290 x a.code 0 0
  | .astop dis => encX 0x291 0 0 0 dis.toNat
  | .fstat d => encX 0x292 d.code 0 0 0
  | .wld tag m a c => encX (0x300 + tag.code) 0 a.code m (c - 1)
  | .mmr p lowh q m c a lo => encX (0x308 + p.code) 0 a.code m (ladM lowh q c lo)
  | .mmrHold p lowh q m c a lo => encX (0x30C + p.code) 0 a.code m (ladM lowh q c lo)
  | .mmf f q m c a => encX (0x310 + f.code) 0 a.code m (16 * q + 2 * (c - 1))
  | .mmc p lowh q m c a lo => encX (0x318 + p.code) 0 a.code m (ladM lowh q c lo)
  | .mmcHold p lowh q m c a lo => encX (0x31C + p.code) 0 a.code m (ladM lowh q c lo)
  | .qzero q c => encX 0x320 0 0 q (c - 1)
  | .qdrain f r z a q c s => encX (0x321 + f.code) s a.code q (16 * r.code + 8 * z.toNat + (c - 1))
  | .qscale bf t q a => encX (0x328 + bf.toNat) 0 a.code q t.code
  | .qsave a q c => encX 0x32A 0 a.code q (c - 1)
  | .qload a q c => encX 0x32B 0 a.code q (c - 1)
  | .qstat d q => encX 0x32C d.code 0 q 0
  | .vbegin h a => encX 0x380 0 a.code h 0
  | .vslot prev d h => encX 0x381 d 0 h prev.toNat
  | .vseal h a b => encX 0x382 b a.code h 0
  | .vsealFinal h a b => encX 0x383 b a.code h 0
  | .vpin d h a => encX 0x384 d a.code h 0
  | .vunpin h => encX 0x385 0 0 h 0
  | .vwait d h a t =>
    match t with
    | none => encX 0x386 d a.code h 0
    | some t => encX 0x386 d a.code h (256 + t.code)
  | .vstat d h w => encX 0x387 d.code 0 h w
  | .vleft k d => encX 0x388 d 0 0 k.code
  | .launch d a => encX 0x390 d a.code 0 0
  | .join d a => encX 0x391 d a.code 0 0
  | .bleft d => encX 0x392 d 0 0 0
  | .dline rel d => encX 0x393 d 0 0 rel.toNat
  | .rfet d s => rtype 0 d s 0
  | .xbfx d s t => rtype 1 d s t
  | .swait d s t => rtype 2 d s t
  | .xdisp d s => rtype 3 d s 0
  | _ => 0

/-- The literal slot that an instruction needs after its own (R53). -/
def literalOf : Instr → Nat
  | .limm _ lit => lit
  | _ => 0

/-! ### The opcode table's words -/

/-- The instruction that a word of spec/opcode_table.json is: a 32-bit row is the front end's, a wider
one a slot of a compute core. -/
def decodeTableWord (nbits w : Nat) : Option Instr :=
  if nbits ≤ 32 then decodeFront (w % 2 ^ 32)
  else
    match decodeSlot stdView (w % 2 ^ 40) (w / 2 ^ 40 % 2 ^ 40) with
    | .ok i => some i
    | .error _ => none

end Sys2Proof
end

