-- ==== Sys2Proof/Machine/State.lean ====
section
/-! DEFINITION. The machine's state as plain data: everything the spec gives the device, and the few
fields of the model's own (agenda, turn, site, cur, oracle, freeIx). Tables list what differs from the
default their reader names. -/

namespace Sys2Proof.Machine

open Sys2Proof

/-! ### Causes (R379) -/

/-- The cause codes. -/
inductive Cause where
  | illegalOpcode | illegalOperand | illegalChain | illegalBundle | shapeMismatch | releasedRead
  | spaceForeign | spaceInvalid | misaligned | permission | anytimeEscape | anytimePerm | sealOrder
  | detViolation | overrun | feedDrained | stackOvf | timeHorizon | lateVis | translationAbort | trap | bkpt
  | pageFault | cut | kill | machineCheck
  deriving DecidableEq, Repr

/-! ### Registers of a group (R166, R167) -/

/-- A map entry (R167). -/
inductive VReg where
  | never
  | released
  | uniform (u : Word)
  | affine (b s : Word)
  | general (vals : Lanes) (spilled : Bool)
  deriving DecidableEq, Repr

/-- What a waiting split waits for, with the operands it keeps (R396). -/
inductive Wait where
  | cwait (n : Word)                                    -- the last batch waited for (R151)
  | barw (addr : Word) (parity : Word)                  -- R158
  | tsync (n : Word)                                    -- R320
  | join (mask : DWord)                                 -- R351
  | twait (target : DWord)                              -- R349
  | exit                                                -- R318
  | vbegin (h : Nat) (k : Word)                         -- R358
  | vwait (h : Nat) (q : Word) (t : Option DWord)       -- R373
  | record (entry : Nat) (ops : List DWord)             -- its own read faulted (R138, R368); operands kept
  | fill (entry : Nat)                                  -- so did a matrix instruction's: it holds MX (R256)
  | rest                                                -- the members of its chain before it have issued (R41)
  | aborted                                             -- its fault was aborted: the unit has no effect (R368)
  deriving DecidableEq, Repr

/-- A cause on its way to delivery (R383, R385): the lanes' own addresses and codes go to the save slot. -/
structure Report where
  cause : Cause
  info : Nat
  src : Nat                       -- FLTCAUSE.SRC (R380)
  late : Bool
  lane : Nat
  addr : DWord
  mask : Word
  laneAddr : List DWord           -- R387; empty for none
  laneCode : List Byte
  walked : List Nat := []         -- the leaves of table pages that its accesses have walked through (R77)
  deriving DecidableEq, Repr

/-- A decoded entry position of a bundle (R40, R64). -/
inductive Decoded where
  | bad (e : DecodeErr) (pos : Nat)
  | unit (u : IssueUnit)
  deriving DecidableEq, Repr

/-- The bundle a split has entered, with the entries under which it was decoded (R68). -/
structure Entered where
  bundle : Nat
  yields : Bool                   -- V = 01 and SC[3] (R39)
  pos : List Decoded
  deriving DecidableEq, Repr

/-- The registers as a unit that waits found them when it issued, those of its split as well, and whether that was then
the group's only one (R41, R173, R396). -/
structure Held where
  vregs : Tbl VReg
  oregs : Tbl Lanes
  kregs : Tbl Word
  fmt : Word
  rmode : Word
  l0 : Lanes
  l1 : Lanes
  alone : Bool
  deriving DecidableEq, Repr

/-- A split (R301). -/
structure Split where
  num : Nat
  mask : Word
  pc : Nat                        -- slot index
  fmt : Word
  rmode : Word
  l0 : Lanes
  l1 : Lanes
  join : Option Nat               -- pending join point
  wait : Option Wait
  held : Option Held              -- what the unit that waits reads
  trap : Option (Report × Nat × Nat)  -- raised while log entries are pending (R95): report, slot, length
  entered : Option Entered
  charged : Bool                  -- this pass has been charged (R432)
  fetchFault : Bool               -- a fetch fault is being served (R95)
  deriving DecidableEq, Repr

/-- KIND of a stack entry (R307). -/
inductive EKind where | div | call | trap
  deriving DecidableEq, Repr

/-- A reconvergence-stack entry (R307), with the trap bytes of R385. -/
structure Entry where
  rpt : Nat
  dtgt : Nat
  fmt : Word
  rmode : Word
  mask : Word
  arr : Word
  dmask : Word
  djp : Bool
  done : Bool
  kind : EKind
  fltcause : Word
  fltlane : Word
  fltaddr : DWord
  fltmask : Word
  tctl : Word
  deriving DecidableEq, Repr

/-- A trap save slot (R387). -/
structure TrapSave where
  l0 : Lanes
  l1 : Lanes
  addrs : List DWord
  codes : List Byte
  deriving DecidableEq, Repr

/-! ### Memory accesses in flight -/

/-- Where a byte of an access lies. -/
inductive Loc where
  | phys (pa : Nat)               -- R71
  | scr (team off : Nat)          -- R107 to R109
  | priv (va : Nat)               -- through the private cache (R112)
  | window (fn off : Nat)         -- R420
  deriving DecidableEq, Repr

/-- What an access does. -/
inductive AccKind where
  | load
  | store
  | atomic (op : AOp)
  | asum
  | pfet
  deriving DecidableEq, Repr

/-- One lane's (and one 4- or 8-byte piece's) part of an access. -/
structure Part where
  lane : Nat
  sub : Nat                       -- byte offset of the piece in the lane's access
  addr : DWord                    -- the address the lane presented
  loc : Loc
  size : Nat
  data : Nat                      -- store data, operand b, or the rounded addend of an ASUM (two's complement)
  cmp : Word
  performed : Bool
  back : Bool                     -- the value has returned
  value : Nat                     -- the value read
  logged : Bool                   -- waits in the operand log (R91)
  dropped : Bool                  -- performs nothing (R390)
  rm : Bool                       -- RM and PROP = 01 of its translation (R90)
  prop01 : Bool
  deriving DecidableEq, Repr

/-- An issued load, store, atomic or ASUM. -/
structure Access where
  kind : AccKind
  slot : Nat
  mask : Word
  width : Width
  form : AForm                    -- the address form, for the re-translation of a logged lane
  uni : Bool
  dest : Option Dst
  zeroMask : Word                 -- R134: lanes whose destination receives zero
  held : Option DWord             -- not-before or visible-at time (R125)
  acq : Option Scope
  rel : Option Scope
  arrived : Bool                  -- a held access has reached its home (R126)
  late : Word                     -- late lanes of a held store
  ended : Word                    -- lanes that met an ended team (R321)
  priv : Bool                     -- issued by a privileged split
  family : Bool                   -- of the LD and ST families (R420)
  olds : List VReg                -- what a load for the whole split replaces (R124)
  past : List Nat                 -- what came before it on other paths, by lane (R279)
  entry : Option Nat              -- its operand-log entry
  issued : Nat                    -- ticks of its die at its issue (R425)
  parts : List Part
  deriving DecidableEq, Repr

/-- How a fault was completed (R98). -/
inductive Outcome98 where | replay | abort
  deriving DecidableEq, Repr

/-- What waits in a log entry. -/
inductive LogWhat where
  | access (acc : Nat)
  | matrix                        -- a matrix instruction's region fill (R256)
  | retry                         -- what an instruction needed to read or write as it issued (R138, R368)
  deriving DecidableEq, Repr

/-- An operand-log entry (R91): the faulting lanes, and the outcomes that have come. -/
structure LogEntry where
  what : LogWhat
  slot : Nat
  seq : Nat
  waiting : Word                  -- lanes whose fault is not completed
  aborted : Word
  perm : Word                     -- lanes whose re-translation gave PERMISSION (R390)
  addr : DWord                    -- the address that an instruction that waits as a whole presented (R409)
  covers : List (Nat × Nat × Nat) -- the bytes that such an instruction's access covers: window, place, number (R92)
  deriving DecidableEq, Repr

/-- A result that the slow path holds (R214): the destination and what it will hold. -/
structure SlowResult where
  slot : Nat
  mask : Word
  dest : Dst
  reg : VReg                      -- the register's contents after the commit
  flags : Word
  sp : Nat
  deriving DecidableEq, Repr

/-- A FENCE by its place in issue order: the accesses around it are held against it as they are performed (R280). -/
structure FenceRec where
  key : Nat
  kind : FenceK
  scope : Scope
  mask : Word
  past : List Nat
  deriving DecidableEq, Repr

/-- An access that an ordering of a scope let be performed before earlier events of its group: no agent within the scope
may tell, so those that would meet it wait until the earlier ones have been performed (R277, R287). -/
structure Early where
  group : Nat
  acc : Nat
  mask : Word
  waits : List Nat                -- the earlier accesses and matrix instructions
  scope : Scope
  places : List (Loc × Nat)       -- the bytes that it has accessed
  reads : Bool
  writes : Bool
  collects : Bool                 -- a slice's step at work, which adds its places
  deriving DecidableEq, Repr

/-! ### Copies, slices, matrix -/

/-- A copy in progress (R143 to R148). -/
structure Copy where
  linear : Bool
  sbase : DWord
  dbase : DWord
  srec : DWord
  drec : DWord
  len : Nat
  bar : Word
  rmode : Word
  fmt : Word
  batch : Word
  order : Nat                     -- issue order in the group
  mask : Word                     -- the lanes of its split, and what came before it on other paths (R279)
  past : List Nat
  next : Nat                      -- next element
  flags : Word
  priv : Bool                     -- issued by a privileged split
  faulted : Bool                  -- paused at a page fault (R145)
  faultAt : DWord                 -- its address
  aborted : Bool
  failed : Option (Cause × DWord × Nat)   -- cause, FLTADDR, INFO's tag bits
  deriving DecidableEq, Repr

/-- A failed copy that no CWAIT or EXIT has reported (R148). -/
structure CopyFail where
  batch : Word
  order : Nat
  cause : Cause
  addr : DWord
  deriving DecidableEq, Repr

/-- A walk of a slice (R160). -/
structure Walk where
  feed : Nat
  sbase : DWord
  srec : DWord
  next : Nat                      -- next entry
  deriving DecidableEq, Repr

/-- FSTAT.SLICE (R165). -/
inductive SliceSt where | unbound | running | ended | stopped
  deriving DecidableEq, Repr

/-- The access context (R159). -/
structure Slice where
  st : SliceSt
  pc : Nat
  vregs : Tbl VReg
  walk : Option Walk
  gen : Nat                       -- slices that the group has started
  order : Nat                     -- issue order of its start, the lanes of that split, what came before on other paths
  mask : Word
  past : List Nat
  priv : Bool
  faulted : Bool
  faultAt : DWord
  aborted : Bool
  cause : Option (Cause × DWord × Nat)
  deriving DecidableEq, Repr

/-- STATE of a tile (R250). -/
inductive TState where | empty | held | intr
  deriving DecidableEq, Repr

/-- A tile: pairs, shadows, scales and the control fields of QCTL (R245 to R251). Lists hold element
(i, n) at 64 i + n; an empty list stands for the value of R246 in every place. -/
structure Tile where
  pairs : List Pair
  shadows : List (Word × Word)
  rs : List Word
  cs0 : List Word
  cs1 : List Word
  g64 : Bool
  st : TState
  next : Nat
  op : Nat
  fmtp : Nat
  w : Nat
  cnt : Nat
  lowh : Bool
  knext : Nat
  pos : Nat
  addr : Word                     -- recorded address and mask
  mask : Word
  deriving DecidableEq, Repr

/-- A weight macro (R247, R255). -/
structure Macro where
  bytes : List Byte               -- empty for zero weights
  tag : WTag
  src : Option Nat
  deriving DecidableEq, Repr

/-- A matrix instruction given to MX (R253), with what it took at issue. -/
structure Job where
  group : Nat
  order : Nat                     -- issue order in the group
  past : List Nat                 -- what came before it on other paths, by lane (R279)
  instr : Instr
  slot : Nat
  mask : Word
  rmode : Word
  fmt : Word
  base : DWord                    -- the address operand
  stride : Word                   -- QDRAIN's row stride
  priv : Bool
  dest : Option Dst
  desc : List Byte                -- MMC's descriptor (R263), QLOAD's images (R273)
  rows : List (Nat × List Nat)    -- the row buffer: each active lane's activations, as patterns (R254)
  flags : Word                    -- flags gathered so far (R252, R266)
  started : Bool
  resume : Bool                   -- continues from INTR
  waiting : Bool                  -- waits for a region fill (R256)
  deriving DecidableEq, Repr

/-! ### Groups -/

/-- Where a group's state is (R393, R394). -/
inductive Bank where | live | shadow | saved
  deriving DecidableEq, Repr

/-- A line of the private cache (R112). -/
structure PLine where
  line : Nat                      -- virtual line number
  pa : Nat                        -- where the fill found it, and a write-back goes
  marks : List (Nat × Nat)        -- the A and D bits that a write-back sets (R77)
  bytes : List Byte
  dirty : Bool
  deriving DecidableEq, Repr

/-- A late cause or another asynchronous cause (R389). -/
structure Late where
  order : Nat                     -- issue order of its instruction
  report : Report
  deriving DecidableEq, Repr

/-- A pin that a group holds (R363). -/
structure Pin where
  pa : Nat                        -- the record's physical address
  slot : Nat
  deriving DecidableEq, Repr

/-- A group. -/
structure Group where
  vregs : Tbl VReg
  oregs : Tbl Lanes
  kregs : Tbl Word
  feeds : Tbl (List Lanes)        -- oldest entry first
  splits : List Split
  stack : List Entry              -- topmost first
  saves : Tbl TrapSave
  flags : Word
  gstat : Word
  log : Tbl LogEntry
  stallBuf : Option Nat           -- the split whose instruction waits for a log entry (R94)
  inflight : Tbl Access
  fences : List FenceRec          -- its FENCEs that accesses around them may still meet
  slow : Tbl SlowResult
  copies : Tbl Copy
  copyFails : List CopyFail
  batchOpen : Word                -- number of the open batch
  slice : Slice
  tiles : Tbl Tile
  suspended : Option Job          -- a matrix instruction that a castling took out of MX (R410)
  tsync : Word
  children : Tbl Nat              -- child slot to launch
  waitingLaunch : List Nat        -- destination registers of LAUNCHes not yet decided (R350)
  pins : Tbl Pin
  priv : List PLine               -- most recently used first
  overrun : Option Nat            -- a pending OVERRUN, with its INFO
  lates : List Late
  lateVis : List (DWord × Word)   -- the trapping LATE_VIS that are pending, oldest first (R329)
  sealed : Tbl Word               -- per handle, the pass this group has sealed (R359)
  handler : List (Option Nat)     -- the fault of each lane of a handler group (R97)
  hctx : Nat                      -- the context that a handler group runs in (R96)
  seq : Nat                       -- issue order of the group's instructions
  know : Tbl (List Nat)           -- per lane: for each lane, below which number its events come before (R279)
  yielded : Bool
  lastSplit : Nat
  halted : Bool
  gslot : Nat                     -- its group slot on the core (R97)
  bank : Bank
  live : Bool                     -- started and not ended
  deriving DecidableEq, Repr

/-! ### Teams and launches -/

/-- State of a region line (R113). -/
inductive LState where | invalid | clean | dirty
  deriving DecidableEq, Repr

/-- A region entry (R113). -/
structure Region where
  start : Nat                     -- team offset
  lines : Nat
  glob : Nat                      -- global virtual address
  ctx : Nat
  state : Tbl LState              -- per line; default invalid
  deriving DecidableEq, Repr

/-- A team. -/
structure Team where
  core : Nat                      -- physical core
  scratch : List Host.Cell
  regions : Tbl Region
  macros : Tbl Macro
  reload : Bool                   -- back from a castling: its macros are to be reloaded (R255)
  live : Bool
  deriving DecidableEq, Repr

/-- Scheduling class (R331). -/
inductive Class where | hard | soft | best
  deriving DecidableEq, Repr

/-- A handle of the kernel descriptor (R35). -/
inductive Handle where
  | undeclared
  | produced (slots slotb : Nat)
  | final
  | early (m : Nat)
  deriving DecidableEq, Repr

/-- Launch record (R330) and descriptor (R35), resolved. -/
structure Rec where
  entry : Nat                     -- entry slot index
  det : Bool
  anytime : Bool
  cls : Class
  regs : Nat
  accum : Nat
  nparams : Nat
  scratch : Nat
  budget : Nat                    -- tempi
  deadline : Nat
  start : Nat
  lvtrap : Bool
  macros : Nat
  gpt : Nat
  tps : Nat
  spans : Nat
  psize : Nat
  pbase : Nat
  scrbase : Nat
  scrlen : Nat
  energy : Nat
  cutt : Nat
  hrec : List DWord
  params : List Word
  handles : List Handle
  deriving DecidableEq, Repr

/-- A cut recognised (R364). -/
structure CutInfo where
  reason : Nat
  time : DWord
  deriving DecidableEq, Repr

/-- A group's seal of a handle's open pass (R359), with the place of the VSEAL in its group. -/
structure Seal where
  handle : Nat
  group : Nat
  quality : Nat
  final : Bool
  order : Nat
  mask : Word
  past : List Nat
  deriving DecidableEq, Repr

/-- A launch. -/
structure Launch where
  desc : Rec
  part : Nat
  seq : Nat                       -- admission sequence number
  vdid : Nat
  ctx : Nat
  release : Nat
  parent : Option (Nat × Nat)     -- parent group and child slot
  clusters : Nat                  -- C
  place : List (Nat × Nat)        -- per logical core, cluster-major: physical core and bank (0 or 1)
  hpa : List (Option Nat)         -- physical addresses of the handles' records, as admission found them
  nested : Option Nat             -- the parent's launch whose footprint it uses (R338)
  charged : Nat
  cyc : Tbl Nat                   -- per core
  dieCycles : Tbl Nat             -- cycles charged to it on each die (R364)
  rem : Tbl Nat                   -- per core × 4 + kind
  demoted : Bool
  overran : Bool
  trapsAs : Option Nat            -- the INFO of the OVERRUN that every group of it receives (R335)
  energy : Nat                    -- µJ so far (R364)
  updates : Nat                   -- updates of its energy so far
  seen : List (Nat × Nat × Nat)   -- per die: its energy count, its charged cycles and the launch's, at the last update
  cut : Option CutInfo
  spanSt : Tbl Nat                -- 0 waiting, 1 running, 2 ended
  seals : List Seal
  ended : Bool
  abnormal : Bool
  service : Bool                  -- a fault-service launch (R431)
  deriving DecidableEq, Repr

/-- Who submitted a record. -/
inductive Submitter where
  | group (g : Nat) (m : Word) (d : Nat)   -- LAUNCH: the group, its mask, the destination
  | packet (ring addr : Nat)      -- a LAUNCH packet
  | front (fe rd : Nat) (ring : Option Nat)   -- XDISP, of a ring's prologue or of none
  | left (ring : Option Nat)      -- an XDISP whose prologue has been abandoned (R418)
  deriving DecidableEq, Repr

/-- A record waiting for admission (R336). -/
structure Submission where
  bytes : List Byte
  part : Nat
  vdid : Nat
  ctx : Nat
  release : Nat
  by_ : Submitter
  deriving DecidableEq, Repr

/-! ### Contexts, functions, partitions -/

/-- The modes of DTABLE.MODE (R66). -/
inductive DMode where | service | startup | test | recovery
  deriving DecidableEq, Repr

/-- Steps of the escalation of R400. -/
inductive Leaving where
  | no
  | soft (since : Nat)
  | out (since : Nat)
  deriving DecidableEq, Repr

/-- A context. -/
structure Context where
  live : Bool
  vdid : Nat
  s2en : Bool
  xlroot1 : DWord
  xlroot2 : DWord
  hvec : DWord
  preq : Bool                     -- PREQ.SOFT
  lock : Bool
  mode : DMode
  err : Bool
  mapid : Nat
  index : Nat
  edits : Tbl Word                -- entries of the decode table that DTDATA has changed
  leaving : Leaving
  killed : Bool
  deriving DecidableEq, Repr

/-- Something that a group has issued: an access, a copy, a matrix instruction, by its place in issue order. -/
inductive Pending where
  | access (g acc : Nat)
  | copy (g order : Nat)
  | job (g order : Nat)
  deriving DecidableEq, Repr

/-- A posted invalidation descriptor (R88). -/
structure Posted where
  seq : DWord
  kind : Nat
  vdid : Nat
  size : Nat
  addr : DWord
  fences : List Pending           -- what the poster had issued before it
  deriving DecidableEq, Repr

/-- An event record (R428). -/
structure EventRec where
  seq : DWord
  time : DWord
  code : Nat
  source : Nat
  ctx : Word
  data : DWord
  deriving DecidableEq, Repr

/-- A stage-2 fault record (R99). -/
structure S2Rec where
  gpa : DWord
  va : DWord
  word : Word
  tag : Word
  time : DWord
  deriving DecidableEq, Repr

/-- A function: its VDSETUP values and its register window (R87, R420, R422). -/
structure Fn where
  part : Nat
  classMask : Word
  xlroot2 : DWord
  entryQuota : Nat
  walkerQuota : Nat
  win : List Host.Cell            -- mailbox words, ring descriptors, event queue registers
  mbStatus : DWord
  invBuf : List Host.Cell
  invSeq : DWord
  invDone : DWord
  invErr : Bool
  posted : List Posted
  events : List EventRec
  deriving DecidableEq, Repr

/-- A partition. -/
structure Partition where
  live : Bool
  clusters : Word                 -- cluster requester ports, bits 0 to 7
  stks : Word                   -- stack memory ports, bits 0 to 15
  fronts : Word                   -- front-end cores
  service : Nat                   -- its fault-service launch
  device : Nat                    -- Brynrik device number
  routing : DWord
  seq : Nat                       -- next admission sequence number
  throttled : Bool
  fastFrom : Option Nat           -- since when all its cores run at 1.8 GHz or above, while it is throttled (R341)
  f : Nat                         -- F of R337
  s2queue : List S2Rec
  deriving DecidableEq, Repr

/-! ### Faults under service (R96 to R100) -/

/-- Where a fault arose (R97). -/
inductive FaultSrc where
  | data (lane loge : Nat)
  | fetch (sp : Nat)
  | copy (slot : Nat)
  | slice (gen : Nat)             -- of the group's slices, in the order of their starts
  deriving DecidableEq, Repr

/-- Who serves it. -/
inductive FaultSt where
  | buffered                      -- in the die's compaction buffer, or waiting for room in it
  | served (g lane : Nat)         -- a handler lane
  | stage2                        -- the host (R99)
  deriving DecidableEq, Repr

/-- A pending fault. -/
structure FaultRec where
  group : Nat
  src : FaultSrc
  va : DWord
  word : Word                     -- v3 of R97
  tag : Word                      -- v0 of R97
  die : Nat
  ctx : Nat
  time : Nat
  arrived : Option Nat            -- its arrival in the buffer (R96)
  st : FaultSt
  deriving DecidableEq, Repr

/-! ### Hardware units -/

/-- A die's timekeeper and registers (R323 to R328). -/
structure Die where
  count : DWord
  base : DWord                    -- what the count would have been at power-on: loading the epoch moves both
  raw : Nat                       -- ticks since power-on without what has been slewed
  epoch : Bool
  locked : Bool
  thr : Bool
  src : BitVec 2
  offsets : List Nat              -- the last 16 measured offsets
  good : Nat                      -- consecutive exchanges within the bound
  lastExchange : Nat              -- in Skeah time since power-on
  slew : Int                      -- ticks still to be slewed
  memmode : MemMode
  pool : Nat                      -- replica pool lines (R84)
  energy : Nat                    -- µJ that its power monitors have counted (R364)
  deriving DecidableEq, Repr

/-- A core. -/
structure Core where
  mhz : Nat
  cycles : Nat                    -- clock cycles × 4000 (R339)
  last : Option Nat               -- the group that issued last
  mx : Option Job
  castling : Bool                 -- a castling is requested
  liveBank : Nat                  -- which of the banks 0 and 1 is live (R393)
  loaded : Option Nat             -- the launch that the fumarole has loaded into the shadow bank (R394)
  requester : Option (Nat × Nat)  -- a group that an allocation stalls, and the slots it needs (R180)
  deriving DecidableEq, Repr

/-- A calendar and the one that takes its place at the next slot 0 (R339). -/
structure Calendar where
  now : List Byte
  next : Option (List Byte)
  deriving DecidableEq, Repr

/-- What the front end has in hand of a ring (R416, R417). -/
structure Ring where
  fetched : List (Nat × Nat)      -- packets that RFET has handed out, in ring order: the fetching core, the address
  hold : Option (Nat × DWord)     -- a WAIT: signal address, threshold
  batch : Option (Nat × List Nat × Bool)   -- BEGIN packet, member packets, malformed
  earlier : List Nat              -- launches earlier in the ring
  signals : List (Nat × DWord × List Nat)  -- SIGNALs waiting for earlier launches
  deriving DecidableEq, Repr

/-- A prologue that a front-end core runs (R418). -/
structure Prologue where
  ring : Nat
  packet : Nat                    -- its INDIRECT packet
  calls : Nat                     -- calls made
  since : Nat                     -- ticks at the call
  back : DWord                    -- the pc to return to
  deriving DecidableEq, Repr

/-- The control and status registers of a front-end core, with machine and supervisor modes (R413). -/
structure Csrs where
  fcsr : Word
  mstatus : DWord
  medeleg : DWord
  mideleg : DWord
  mie : DWord
  mip : DWord
  mtvec : DWord
  mscratch : DWord
  mepc : DWord
  mcause : DWord
  mtval : DWord
  mcounteren : DWord
  stvec : DWord
  sscratch : DWord
  sepc : DWord
  scause : DWord
  stval : DWord
  satp : DWord
  scounteren : DWord
  instret : DWord
  deriving DecidableEq, Repr

/-- A front-end core (R413, R414). -/
structure Front where
  x : Tbl DWord
  f : Tbl DWord
  pc : DWord
  part : Nat
  supervisor : Bool
  csrs : Csrs
  reserved : Option Nat           -- the reservation of LR: a physical address
  wfi : Bool                      -- waits for an interrupt
  swait : Option (Nat × Nat × DWord)       -- rd, signal address, threshold
  xdisp : Bool                    -- an XDISP waits for admission
  prologue : Option Prologue
  buffer : Nat                    -- its ring loop's private buffer (R418)
  deriving DecidableEq, Repr

/-- A cached table entry (R79, R86). Micro-translation caches and cluster caches hold leaves, walk caches pointers. -/
structure Cached where
  unit : Nat                      -- micro caches of the cores 0 to 511, cluster caches from 512, dies' walk caches from 520
  vdid : Nat
  stage : Nat
  level : Nat
  page : Nat                      -- number of the range it covers, in units of 2^bits
  bits : Nat
  entry : DWord
  pa : Nat                        -- where the entry stands
  gpa : Nat                       -- its address as the walk formed it
  writable : Bool                 -- the page that holds it may be written (R78)
  via : Option Nat                -- the stage-2 leaf of that page
  deriving DecidableEq, Repr

/-- A write of a group: its place in issue order and the lanes of its split. `rmw` where it is a read-modify-write, or
its group has read the line since; `free` where it is a held store's or a copy's, which nothing orders. -/
structure Behind where
  group : Nat
  key : Nat
  mask : Word
  rmw : Bool
  free : Bool
  deriving DecidableEq, Repr

/-- A replica (R84). -/
structure Replica where
  die : Nat
  line : Nat
  bytes : List Byte
  prop01 : Bool
  stale : Bool                    -- a write at the home waits to be applied to it (R293)
  behind : List Behind            -- those of such writes that groups have made
  deriving DecidableEq, Repr

/-- A held access at its home (R126). -/
structure HeldRec where
  home : Nat                      -- stacks 0 to 15, cores 16 to 527, CXL port 528, peers' stacks from 1024
  group : Nat
  acc : Nat
  order : Nat
  deriving DecidableEq, Repr

/-- What has come of the boot (R426). -/
inductive Boot where | off | booted | failed
  deriving DecidableEq, Repr

/-- The last SPDM response (R427). -/
inductive Spdm where
  | none
  | version
  | capabilities
  | algorithms (ok : Bool)
  | digests (d : List Nat)
  | certificate (slot key : Nat)
  | challengeAuth (nonce sig : Nat)
  | measurements (m : List Nat) (sig : Nat)
  deriving DecidableEq, Repr

/-! ### The model's own fields -/

/-- Who acts when no event is due. -/
inductive Agent where
  | core (n : Nat)
  | front (n : Nat)
  deriving DecidableEq, Repr

/-- What comes from outside without a row of its own in the opcode table. -/
inductive Incident where
  | strike (line : Nat)           -- an uncorrectable error arises in a line (R102)
  | sram (g : Nat)                -- an access of a group meets an uncorrectable error in an SRAM (R429)
  | corrected (line : Nat)        -- ECC has corrected a single-bit error (R101)
  | energy (die microJoules : Nat)         -- a die's power monitors count (R364)
  | syncPort (port : Option Nat)  -- the port nearest the domain's root device (R324)
  | interrupts (fe : Nat) (lines : DWord)  -- the levels of a front-end core's interrupt lines (R414)
  | reclaim (cluster : Nat)       -- the scheduler reclaims a cluster (R299, R401)
  | signals (ring : Nat)          -- the front end looks at a ring's SIGNALs that wait (R416)
  deriving DecidableEq, Repr

/-- An entry of the agenda: what the outside and time do between the steps of the agents. -/
inductive Agenda where
  | elapse (ticks : Nat)
  | select (a : Agent)
  | outside (o : Incident)
  | event (i : Instr) (site : Nat)
  deriving DecidableEq, Repr

/-- The issue unit that a program instruction executes as. -/
structure Cur where
  group : Nat
  split : Nat
  slot : Nat                      -- first slot of the unit
  len : Nat                       -- slots of the unit
  deriving DecidableEq, Repr

/-! ### The state -/

/-- The state of the machine. -/
structure State where
  mem : List Host.Cell            -- physical bytes, R71's kinds included
  failedLines : List Nat          -- marked failed at their homes (R103)
  badLines : List Nat             -- with an uncorrectable error that nothing has found yet (R102)
  replicas : List Replica
  cache : List Cached
  boot : Boot
  img : Option Image
  identity : Option Nat
  spdm : Spdm
  eventSeq : DWord
  power : Power
  resetHold : Bool
  ports : List Bool               -- Brynrik ports live
  syncPort : Option Nat           -- the port nearest the domain's root device; none at that device (R324)
  cxl : Bool
  conn : Tbl Word                 -- CONN
  calendars : Tbl Calendar        -- cores 0 to 511, fabric ports from 1024, channels from 2048
  holds : List HeldRec
  heldSeq : Nat
  early : List Early
  submissions : List Submission
  dies : Tbl Die
  fns : Tbl Fn
  parts : Tbl Partition
  ctxs : Tbl Context
  ctxNext : Nat
  launches : Tbl Launch
  launchNext : Nat
  teams : Tbl Team
  groups : Tbl Group
  cores : Tbl Core
  fronts : Tbl Front
  rings : Tbl Ring                -- by the address of their descriptor
  faults : Tbl FaultRec
  faultNext : Nat
  hostWaits : List (Nat × Nat)    -- PAGEREQ commands in progress: function, argument
  -- the model's own
  agenda : List Agenda
  turn : Agent
  site : Nat
  cur : Cur
  oracle : List Bool
  freeIx : Nat
  deriving DecidableEq, Repr

/-- Why a step stops with a fault. -/
inductive Fault where
  /-- Raised by `step` where the turn names a core or a front-end core that the package does not have
  (R9, R413); no run from reset reaches it. Safe. -/
  | noSuchAgent
  deriving DecidableEq, Repr

/-- Why a step is refused. -/
inductive Refusal where
  /-- Raised by an arm of `exec` that has no meaning yet. Safe. -/
  | notModelled (mnemonic : String)
  deriving DecidableEq, Repr

/-! ### Defaults: what the tables do not list -/

/-- The slice of a group without one (R165). -/
def Slice.initial : Slice :=
  { st := .unbound, pc := 0, vregs := [], walk := none, gen := 0, order := 0, mask := 0, past := [], priv := false, faulted := false, faultAt := 0, aborted := false,
    cause := none }

/-- A tile at group start (R246). -/
def Tile.initial : Tile :=
  { pairs := [], shadows := [], rs := [], cs0 := [], cs1 := [], g64 := false, st := .empty, next := 0,
    op := 0, fmtp := 0, w := 0, cnt := 0, lowh := false, knext := 0, pos := 0, addr := 0, mask := 0 }

/-- A macro at team start (R246). -/
def Macro.initial : Macro := { bytes := [], tag := .s8, src := none }

/-- A split at group start (R300). -/
def Split.initial (pc : Nat) : Split :=
  { num := 0, mask := fullMask, pc := pc, fmt := 0, rmode := 0, l0 := Lanes.zero, l1 := Lanes.zero,
    join := none, wait := none, held := none, trap := none, entered := none, charged := false, fetchFault := false }

/-- A group at its start (R166, R300), with its first split at `pc`. -/
def Group.initial (pc : Nat) (bank : Bank) : Group :=
  { vregs := [], oregs := [], kregs := [], feeds := [], splits := [Split.initial pc], stack := [],
    saves := [], flags := 0, gstat := 0, log := [], stallBuf := none, inflight := [], fences := [], slow := [],
    copies := [], copyFails := [], batchOpen := 1, slice := Slice.initial, tiles := [], suspended := none, tsync := 0,
    children := [], waitingLaunch := [], pins := [], priv := [], overrun := none, lates := [],
    lateVis := [], sealed := [], handler := [], hctx := 0, seq := 0, know := [], yielded := false, lastSplit := 3,
    halted := false, gslot := 0, bank := bank, live := true }

/-- What stands for a group that has not started: no splits, not live. -/
def Group.absent : Group := { Group.initial 0 .live with splits := [], live := false }

/-- A team that has not started. -/
def Team.absent : Team := { core := 0, scratch := [], regions := [], macros := [], reload := false, live := false }

/-- An empty record. -/
def Rec.empty : Rec :=
  { entry := 0, det := false, anytime := false, cls := .best, regs := 0, accum := 0, nparams := 0,
    scratch := 0, budget := 0, deadline := 0, start := 0, lvtrap := false, macros := 0, gpt := 0, tps := 0,
    spans := 0, psize := 0, pbase := 0, scrbase := 0, scrlen := 0, energy := 0, cutt := 0, hrec := [],
    params := [], handles := [] }

/-- A launch that was never admitted. -/
def Launch.absent : Launch :=
  { desc := Rec.empty, part := 0, seq := 0, vdid := 0, ctx := 0, release := 0, parent := none, clusters := 0,
    place := [], hpa := [], nested := none, charged := 0, cyc := [], dieCycles := [], rem := [], demoted := false, overran := false,
    trapsAs := none, energy := 0, updates := 0, seen := [], cut := none, spanSt := [], seals := [], ended := true, abnormal := false, service := false }

/-- A context that was never created. -/
def Context.absent : Context :=
  { live := false, vdid := 0, s2en := false, xlroot1 := 0, xlroot2 := 0, hvec := 0, preq := false,
    lock := false, mode := .service, err := false, mapid := 0, index := 0, edits := [], leaving := .no,
    killed := false }

/-- A function before VDSETUP. -/
def Fn.initial : Fn :=
  { part := 0, classMask := 0, xlroot2 := 0, entryQuota := 8192, walkerQuota := 32, win := [], mbStatus := 0,
    invBuf := [], invSeq := 0, invDone := 0, invErr := false, posted := [], events := [] }

/-- A partition that was never created. -/
def Partition.absent : Partition :=
  { live := false, clusters := 0, stks := 0, fronts := 0, service := 0, device := 0, routing := 0, seq := 0,
    throttled := false, fastFrom := none, f := 18, s2queue := [] }

/-- A die at reset (R323, R327, R328). -/
def Die.initial : Die :=
  { count := 0, base := 0, raw := 0, epoch := false, locked := false, thr := false, src := 0, offsets := [], good := 0,
    lastExchange := 0, slew := 0, memmode := .interleaved, pool := 0, energy := 0 }

/-- A core at reset. -/
def Core.initial : Core :=
  { mhz := 2400, cycles := 0, last := none, mx := none, castling := false, liveBank := 0, loaded := none,
    requester := none }

/-- A calendar before the image is applied: every slot is free (R339). -/
def Calendar.initial : Calendar := { now := [], next := none }

/-- A ring of which the front end has nothing in hand. -/
def Ring.initial : Ring := { fetched := [], hold := none, batch := none, earlier := [], signals := [] }

/-- The control and status registers at reset (log entry 3). -/
def Csrs.initial : Csrs :=
  { fcsr := 0, mstatus := 0, medeleg := 0, mideleg := 0, mie := 0, mip := 0, mtvec := 0, mscratch := 0, mepc := 0,
    mcause := 0, mtval := 0, mcounteren := 0, stvec := 0, sscratch := 0, sepc := 0, scause := 0, stval := 0, satp := 0,
    scounteren := 0, instret := 0 }

/-- A front-end core at reset; the RV64 registers' values are the log's (entry 3). -/
def Front.initial : Front :=
  { x := [], f := [], pc := 0, part := 0, supervisor := false, csrs := Csrs.initial, reserved := none, wfi := false,
    swait := none, xdisp := false, prologue := none, buffer := 0 }

/-- The machine right after reset: no image applied, nothing created, memory with nothing listed. -/
def State.reset : State :=
  { mem := [], failedLines := [], badLines := [], replicas := [], cache := [], boot := .off, img := none, identity := none,
    spdm := .none, eventSeq := 0, power := .running, resetHold := false, ports := List.replicate 18 true, syncPort := none,
    cxl := true, conn := [], calendars := [], holds := [], heldSeq := 0, early := [], submissions := [], dies := [],
    fns := [], parts := [], ctxs := [], ctxNext := 0, launches := [], launchNext := 0, teams := [],
    groups := [], cores := [], fronts := [], rings := [], faults := [], faultNext := 0, hostWaits := [], agenda := [],
    turn := .core 0, site := 0, cur := ⟨0, 0, 0, 1⟩, oracle := [], freeIx := 0 }

/-! ### Reading the tables -/

def State.die (s : State) (n : Nat) : Die := s.dies.get Die.initial n
def State.fn (s : State) (n : Nat) : Fn := s.fns.get Fn.initial n
def State.part (s : State) (n : Nat) : Partition := s.parts.get Partition.absent n
def State.ctx (s : State) (n : Nat) : Context := s.ctxs.get Context.absent n
def State.launch (s : State) (n : Nat) : Launch := s.launches.get Launch.absent n
def State.team (s : State) (n : Nat) : Team := s.teams.get Team.absent n
def State.group (s : State) (n : Nat) : Group := s.groups.get Group.absent n
def State.core (s : State) (n : Nat) : Core := s.cores.get Core.initial n
def State.front (s : State) (n : Nat) : Front := s.fronts.get Front.initial n
def State.ring (s : State) (n : Nat) : Ring := s.rings.get Ring.initial n
def State.calendar (s : State) (n : Nat) : Calendar := s.calendars.get Calendar.initial n

def State.setDie (s : State) (n : Nat) (x : Die) : State := { s with dies := s.dies.set n x }
def State.setFn (s : State) (n : Nat) (x : Fn) : State := { s with fns := s.fns.set n x }
def State.setPart (s : State) (n : Nat) (x : Partition) : State := { s with parts := s.parts.set n x }
def State.setCtx (s : State) (n : Nat) (x : Context) : State := { s with ctxs := s.ctxs.set n x }
def State.setLaunch (s : State) (n : Nat) (x : Launch) : State := { s with launches := s.launches.set n x }
def State.setTeam (s : State) (n : Nat) (x : Team) : State := { s with teams := s.teams.set n x }
def State.setGroup (s : State) (n : Nat) (x : Group) : State := { s with groups := s.groups.set n x }
def State.setCore (s : State) (n : Nat) (x : Core) : State := { s with cores := s.cores.set n x }
def State.setFront (s : State) (n : Nat) (x : Front) : State := { s with fronts := s.fronts.set n x }
def State.setRing (s : State) (n : Nat) (x : Ring) : State := { s with rings := s.rings.set n x }
def State.setCalendar (s : State) (n : Nat) (x : Calendar) : State :=
  { s with calendars := s.calendars.set n x }

end Sys2Proof.Machine
end

