-- ==== Sys2Proof/Machine/Memory.lean ====
section
/-! DEFINITION. Byte memories in canonical form: addresses strictly rising, no entry equal to what an
unlisted address reads as. Physical memory and every team region are such lists; an unlisted byte reads
as zero (R322 for scratchpad; a choice of the model for RAM, log entry 1). -/

namespace Sys2Proof.Machine

open Sys2Proof

/-- What an unlisted address reads as. -/
def Memory.blank : Byte := 0

/-- The byte at an address. -/
def Memory.get : List Host.Cell → Nat → Byte
  | [], _ => Memory.blank
  | c :: r, a => if c.1 = a then c.2 else if a < c.1 then Memory.blank else Memory.get r a

/-- The memory with one byte changed, in canonical form. -/
def Memory.set : List Host.Cell → Nat → Byte → List Host.Cell
  | [], a, b => if b = Memory.blank then [] else [(a, b)]
  | c :: r, a, b =>
    if c.1 = a then (if b = Memory.blank then r else (a, b) :: r)
    else if a < c.1 then (if b = Memory.blank then c :: r else (a, b) :: c :: r)
    else c :: Memory.set r a b

/-- The canonical form above a lower bound. -/
def Memory.wfAbove : Option Nat → List Host.Cell → Bool
  | _, [] => true
  | lo, c :: r =>
    (match lo with
     | none => true
     | some l => decide (l < c.1)) && c.2 != Memory.blank && Memory.wfAbove (some c.1) r

/-- The canonical form: strictly rising addresses, no blank entry. -/
def Memory.wf (m : List Host.Cell) : Bool := Memory.wfAbove none m

/-- `n` bytes from `a`, the lowest address first. -/
def Memory.bytes (m : List Host.Cell) (a : Nat) : Nat → List Byte
  | 0 => []
  | n + 1 => Memory.get m a :: Memory.bytes m (a + 1) n

/-- Little-endian reading of `n` bytes (R1). -/
def Memory.read (m : List Host.Cell) (a n : Nat) : Nat := natOfBytes (Memory.bytes m a n)

/-- Bytes written from `a` on. -/
def Memory.put (m : List Host.Cell) (a : Nat) : List Byte → List Host.Cell
  | [] => m
  | b :: r => Memory.put (Memory.set m a b) (a + 1) r

/-- The little-endian bytes of a number (R1). -/
def bytesOf : Nat → Nat → List Byte
  | 0, _ => []
  | n + 1, v => BitVec.ofNat 8 v :: bytesOf n (v / 256)

/-- Little-endian writing of the low `n` bytes of `v` (R1). -/
def Memory.write (m : List Host.Cell) (a n v : Nat) : List Host.Cell := Memory.put m a (bytesOf n v)

/-- A field of a byte list: `n` bytes at offset `o`, little-endian. -/
def fieldAt (bs : List Byte) (o n : Nat) : Nat := natOfBytes ((bs.drop o).take n)

end Sys2Proof.Machine
end

