-- ==== Sys2Proof/Machine/Ops.lean ====
section
/-! DEFINITION. The named operations over the state: identities, time, event records, result records,
ends of launches, register files, the reconvergence stack, taking an exception (Deliver) and returning
from it, and the budget charge. -/

namespace Sys2Proof.Machine

open Sys2Proof

/-! ### Identities (R297, R298)

A group's key is (launch × 512 + team identifier) × 16 + group index; a team's is the same without the
last part. -/

/-- A group's launch. -/
def launchOf (g : Nat) : Nat := g / 8192
/-- A group's team key. -/
def teamOf (g : Nat) : Nat := g / 16
/-- A group's index in its team ($group). -/
def groupIx (g : Nat) : Nat := g % 16
/-- The team identifier of a team key: $span × 64 + $steam. -/
def teamId (t : Nat) : Nat := t % 512
/-- $span. -/
def spanOf (t : Nat) : Nat := teamId t / 64
/-- $steam. -/
def steamOf (t : Nat) : Nat := teamId t % 64
/-- The group key of a launch, a team identifier and an index. -/
def gidOf (l team g : Nat) : Nat := (l * 512 + team) * 16 + g

/-- The logical cluster of a team (R298). -/
def State.cluster (s : State) (g : Nat) : Nat :=
  spanOf (teamOf g) % max 1 (s.launch (launchOf g)).clusters
/-- $steam of a group; each handler group is the one team of its launch (R431). -/
def State.steam (s : State) (g : Nat) : Nat := if (s.launch (launchOf g)).service then 0 else steamOf (teamOf g)
/-- The logical core of a group. -/
def State.logicalCore (s : State) (g : Nat) : Nat := s.cluster g * 64 + s.steam g
/-- The physical core of a group. -/
def State.coreOf (s : State) (g : Nat) : Nat := (s.team (teamOf g)).core
/-- The physical cluster of a core (R10). -/
def clusterOfCore (c : Nat) : Nat := c / 64
/-- The compute die of a core (R10). -/
def dieOfCore (c : Nat) : Nat := c / 128
/-- The die of a group. -/
def State.dieOf (s : State) (g : Nat) : Nat := dieOfCore (s.coreOf g)
/-- The context that a group runs in: its launch's, or for a handler group the context of its faults. -/
def State.ctxOf (s : State) (g : Nat) : Nat :=
  if (s.group g).handler ≠ [] then (s.group g).hctx else (s.launch (launchOf g)).ctx
/-- The partition of a group's launch. -/
def State.partOf (s : State) (g : Nat) : Nat := (s.launch (launchOf g)).part
/-- The launch record and descriptor of a group. -/
def State.descOf (s : State) (g : Nat) : Rec := (s.launch (launchOf g)).desc

/-- The parts of a state's groups that hold a state (started, not ended). -/
def State.liveGroups (s : State) : List Nat :=
  (s.groups.map (·.1)).eraseDups.filter fun g => (s.group g).live

/-- The matrix instruction that a group has issued and that is not complete: in MX, or taken out by a
castling (R253, R410). -/
def State.jobOf (s : State) (g : Nat) : Option Job :=
  match (s.core (s.coreOf g)).mx with
  | some j => if j.group = g then some j else (s.group g).suspended
  | none => (s.group g).suspended

/-- The group, split and slot that the instruction executes as. -/
def State.g (s : State) : Group := s.group s.cur.group

/-- The split of a number, where the group holds it. -/
def Group.split? (g : Group) (n : Nat) : Option Split := g.splits.find? fun x => x.num == n
/-- The split of a number. -/
def Group.split (g : Group) (n : Nat) : Split := (g.split? n).getD { Split.initial 0 with mask := 0 }
/-- The executing split. -/
def State.sp (s : State) : Split := s.g.split s.cur.split
/-- The executing split's active mask. -/
def State.mask (s : State) : Word := s.sp.mask
/-- Whether a lane is active in the executing split. -/
def State.active (s : State) (i : Nat) : Bool := laneIn s.mask i

/-- Ordered insertion of a split by its number. -/
def insertSplit (x : Split) : List Split → List Split
  | [] => [x]
  | y :: r => if x.num < y.num then x :: y :: r else if x.num = y.num then x :: r else y :: insertSplit x r

/-- The group with a split replaced or added. -/
def Group.putSplit (g : Group) (x : Split) : Group := { g with splits := insertSplit x g.splits }
/-- The group without a split. -/
def Group.dropSplit (g : Group) (n : Nat) : Group := { g with splits := g.splits.filter fun x => x.num != n }
/-- The lowest split number in use by no split. -/
def Group.freeSplit (g : Group) : Nat := ((List.range 4).find? fun n => (g.split? n).isNone).getD 3

/-- The state with the executing group changed. -/
def State.modG (s : State) (f : Group → Group) : State := s.setGroup s.cur.group (f s.g)
/-- The state with the executing split changed. -/
def State.modSp (s : State) (f : Split → Split) : State := s.modG fun g => g.putSplit (f s.sp)

/-! ### Time (R323) -/

/-- The Skeah time of a die. -/
def State.time (s : State) (d : Nat) : DWord := (s.die d).count
/-- The Skeah time since power-on, which loading the epoch does not move: what bounds are measured in (R3). -/
def Die.ticks (x : Die) : Nat := (x.count - x.base).toNat
/-- The Skeah time of a die since power-on. -/
def State.ticks (s : State) (d : Nat) : Nat := (s.die d).ticks
/-- The Skeah time of a group's die. -/
def State.gtime (s : State) (g : Nat) : DWord := s.time (s.dieOf g)

/-- 320 GiB: a die's share of local HBM (R72). -/
def dieBytes : Nat := 320 * 2 ^ 30
/-- The end of local HBM (R71). -/
def hbmEnd : Nat := 0x14000000000
/-- The kind of a physical address (R71). -/
def paKind (pa : Nat) : Nat := pa / 2 ^ 52 % 16
/-- Whether an address is one of local HBM. -/
def isHbm (pa : Nat) : Bool := decide (pa < hbmEnd)
/-- The compute die that owns a local physical address (R72). -/
def dieOfPa (pa : Nat) : Nat := pa / dieBytes
/-- The stack of a local physical address under the die's MEMMODE (R72). -/
def State.stackOf (s : State) (pa : Nat) : Nat :=
  let q := dieOfPa pa
  let l := pa % dieBytes
  match (s.die q).memmode with
  | .interleaved => 4 * q + Nat.xor (l / 256 % 4) (l / 2 ^ 20 % 4)
  | .linear => pa / (80 * 2 ^ 30)
/-- The offset within the stack (R72). -/
def State.stackOffset (s : State) (pa : Nat) : Nat :=
  let l := pa % dieBytes
  match (s.die (dieOfPa pa)).memmode with
  | .interleaved => l / 1024 * 256 + l % 256
  | .linear => pa % (80 * 2 ^ 30)

/-! ### Event records (R428) -/

/-- The front-end cores once some lines are written: a reservation of LR on one is lost (RV64A, R413). -/
def breakRes (fs : Tbl Front) (lines : List Nat) : Tbl Front :=
  fs.map fun f =>
    if f.2.reserved.any fun pa => lines.contains (pa / 128) then (f.1, { f.2 with reserved := none }) else f

/-- A line changes at its home: replicas of it go first (R84, R355), and reservations on it are lost. -/
def State.sweep (s : State) (pas : List Nat) : State :=
  let lines := pas.map fun a => a / 128
  { s with replicas := s.replicas.filter fun r => !lines.contains r.line, fronts := breakRes s.fronts lines }

/-- Sets A and D bits by an OR at the entry's home (R78). -/
def markEntry (m : List Host.Cell) (ea bits : Nat) : List Host.Cell :=
  Memory.set m (ea + 7) (Memory.get m (ea + 7) ||| BitVec.ofNat 8 bits)

/-- Whether a mark changes its entry. -/
def State.marksNew (s : State) (x : Nat × Nat) : Bool :=
  let b := Memory.get s.mem (x.1 + 7)
  decide (b ||| BitVec.ofNat 8 x.2 ≠ b)

/-- Sets A and D bits of entries. An update writes the entry's line at its home, whose replicas go first (R84). -/
def State.mark (s : State) (ms : List (Nat × Nat)) : State :=
  let t := s.sweep ((ms.filter s.marksNew).map (·.1))
  { t with mem := ms.foldl (fun m x => markEntry m x.1 x.2) s.mem }

/-! ### Uncorrectable errors (R102, R103) -/

/-- Whether a line of local memory has an uncorrectable error, found or not (R102, R103). -/
def State.failed (s : State) (line : Nat) : Bool := s.failedLines.contains line || s.badLines.contains line

/-- An uncorrectable error is found: the line's home marks it failed (R103). -/
def State.markFailed (s : State) (line : Nat) : State :=
  { s with failedLines := line :: s.failedLines.filter (· ≠ line), badLines := s.badLines.filter (· ≠ line) }

/-- Puts a 32-byte record into a queue of a function, where BASE, LOG2N, HEAD and TAIL at an offset of its window set
one up (R415): at BASE + 32 × (TAIL mod N), an address that counts from `org`. -/
def State.enqueue (s : State) (fn off org : Nat) (bytes : List Byte) : State :=
  let f := s.fn fn
  let base := Memory.read f.win off 8
  let lg := Memory.read f.win (off + 8) 4
  let tail := Memory.read f.win (off + 0x18) 8
  let a := org + (base + 32 * (tail % 2 ^ lg))
  if 1 ≤ lg ∧ lg ≤ 16 ∧ base ≠ 0 then
    { s.sweep [a, a + 31] with mem := Memory.put s.mem a bytes }.setFn fn
      { f with win := Memory.write f.win (off + 0x18) 8 (tail + 1) }
  else s

/-- Posts a record to a function's event queue. `unit` names the reporting unit (a die × 256, a core, a port); the
numbering of SOURCE is open, and so is DATA where the spec states none. -/
def State.post (s : State) (fn code unit ctx : Nat) (data : Option DWord) : State :=
  let seq := s.eventSeq + 1
  let source := (Config.eventSource unit).toNat
  let data := data.getD (Config.eventData seq.toNat)
  let t := s.time 0
  let bytes := bytesOf 8 seq.toNat ++ bytesOf 8 t.toNat ++ bytesOf 2 code ++ bytesOf 2 source ++
    bytesOf 4 ctx ++ bytesOf 8 data.toNat
  let e : EventRec := ⟨seq, t, code, source, BitVec.ofNat 32 ctx, data⟩
  let s := { s with eventSeq := seq }.enqueue fn 0x3000 0 bytes
  s.setFn fn { s.fn fn with events := (s.fn fn).events ++ [e] }

/-- The function that events of a context go to: its VDID's. -/
def State.fnOfCtx (s : State) (c : Nat) : Nat := (s.ctx c).vdid

/-! ### Result records (R354, R355) -/

/-- STATUS fields of a record's first word. -/
structure Status where
  quality : Nat
  live : Bool
  opn : Bool
  wslot : Nat
  nslotm : Nat
  sslot : Nat
  st : Nat
  deriving DecidableEq, Repr

/-- Reads STATUS (R355). -/
def Status.ofNat (w : Nat) : Status :=
  ⟨w / 65536 % 65536, w / 2048 % 2 == 1, w / 1024 % 2 == 1, w / 256 % 4, w / 64 % 4, w / 16 % 4, w % 8⟩

/-- Writes STATUS (R355). -/
def Status.toNat (x : Status) : Nat :=
  x.quality * 65536 + x.live.toNat * 2048 + x.opn.toNat * 1024 + x.wslot * 256 + x.nslotm * 64 + x.sslot * 16 + x.st

/-- STATUS of the record at a physical address. -/
def State.status (s : State) (pa : Nat) : Status := Status.ofNat (Memory.read s.mem pa 4)

/-- The time of a record's home. -/
def State.homeTime (s : State) (pa : Nat) : DWord := s.time (dieOfPa pa)

/-- The one update that the end or the cut of a producer makes (R361, R365): STATE, LIVE, OPEN, WSLOT,
OPENPASS, CUTINFO and CUTTIME. A cut writes CUTINFO beside a FINAL version too; an end does not. -/
def endRecord (m : List Host.Cell) (pa reason : Nat) (t : DWord) (always : Bool) : List Host.Cell :=
  let x := Status.ofNat (Memory.read m pa 4)
  let st := if x.st = 2 then 2 else if always then (if Memory.read m (pa + 4) 4 = 0 then 4 else 3)
    else if x.st = 1 then 3 else if x.st = 0 then 4 else x.st
  let x' := { x with st := st, live := false, opn := false, wslot := 0 }
  let m := Memory.write m pa 4 x'.toNat
  let m := Memory.write m (pa + 0x28) 4 0
  let m := if x.st = 2 && !always then m else Memory.write m (pa + 0x1C) 4 reason
  Memory.write m (pa + 0x20) 8 t.toNat

/-- Lowers a pin count of a record (R363). -/
def unpin (m : List Host.Cell) (p : Pin) : List Host.Cell :=
  let a := p.pa + 0x30 + 4 * p.slot
  Memory.write m a 4 (Memory.read m a 4 - 1)

/-- The records in which a group holds pins. -/
def Group.pinPas (g : Group) : List Nat := g.pins.map fun (p : Nat × Pin) => p.2.pa

/-- Releases every pin of a group, but in failed lines. -/
def State.releasePins (s : State) (m : List Host.Cell) (g : Group) : List Host.Cell :=
  (g.pins.filter fun p => !s.failed (p.2.pa / 128)).foldl (fun m p => unpin m p.2) m

/-! ### Ends of launches (R321, R346, R361, R391) -/

/-- The groups of a launch. -/
def State.groupsOf (s : State) (l : Nat) : List Nat := s.liveGroups.filter fun g => launchOf g == l

/-- What is left of an access of a group that has ended: a write that its home has yet to perform, without
its logged lanes and its destination (R318, R365). -/
def Access.leftover (a : Access) : Option Access :=
  match a.kind with
  | .load | .pfet => none
  | _ => some { a with
      dest := none, entry := none
      parts := (a.parts.filter fun p => !p.logged && !p.performed && !p.dropped).map fun p => { p with back := true } }

/-- What is left of a group that has ended or is discarded: nothing but the writes already issued. -/
def Group.discard (g : Group) : Group :=
  { Group.absent with
    inflight := g.inflight.filterMap fun a => a.2.leftover.map fun b => (a.1, b)
    bank := g.bank
    handler := g.handler
    hctx := g.hctx
    gstat := g.gstat
    flags := g.flags }

/-- The records of a launch's produced handles. -/
def Launch.producedPas (l : Launch) : List Nat :=
  (l.desc.handles.zip l.hpa).filterMap fun x =>
    match x.1, x.2 with
    | .produced _ _, some pa => some pa
    | _, _ => none

/-- The compaction buffer of a die takes the faults that have room in it, in the order in which they came (R96). -/
def State.arriveFaults (s : State) (die : Nat) : State :=
  let ns := ((s.faults.filter fun f => decide (f.2.st = .buffered) && f.2.die == die).take 256).map (·.1)
  { s with faults := s.faults.map fun f =>
      if ns.contains f.1 && f.2.arrived.isNone then (f.1, { f.2 with arrived := some (s.time die).toNat }) else f }

/-- Every die's buffer does so. -/
def State.arriveDies (s : State) : State := (List.range 4).foldl State.arriveFaults s

/-- Discards the groups, teams and matrix work of a launch and releases its pins. -/
def State.discardLaunch (s : State) (l : Nat) : State :=
  let gs := s.groupsOf l
  let s := s.sweep (gs.flatMap fun g => (s.group g).pinPas)
  let s := { s with mem := gs.foldl (fun m g => s.releasePins m (s.group g)) s.mem }
  let s := gs.foldl (fun s g => s.setGroup g (s.group g).discard) s
  let s : State := { s with
    teams := s.teams.map fun t => if t.1 / 512 = l then (t.1, { t.2 with live := false }) else t
    cores := s.cores.map fun c => (c.1, { c.2 with
      mx := match c.2.mx with
        | some j => if launchOf j.group = l then none else some j
        | none => none })
    faults := s.faults.filter fun f => launchOf f.2.group != l }
  s.arriveDies

/-- The groups of a context. -/
def State.groupsOfCtx (s : State) (c : Nat) : List Nat := s.liveGroups.filter fun g => s.ctxOf g == c

/-- A context whose every group has been saved has left. -/
def State.leaveDone (s : State) (c : Nat) : State :=
  match (s.ctx c).leaving with
  | .out _ =>
    if (s.groupsOfCtx c).all fun g => decide ((s.group g).bank = .saved) then
      s.setCtx c { s.ctx c with leaving := .no, preq := false }
    else s
  | _ => s

/-- The failed lines that the end of a launch meets: of its records, and of those in which its groups hold pins. -/
def State.endMeets (s : State) (l : Nat) : List Nat :=
  ((s.launch l).producedPas ++ (s.groupsOf l).flatMap fun g => (s.group g).pinPas).filter fun pa => s.failed (pa / 128)

/-- Ends a launch with the record update of R361 (or R365 where `cut`). A record in a failed line takes none, and the line
is marked (R103). -/
def State.endLaunch (s : State) (l reason : Nat) (abnormal cut : Bool) (t : Option DWord) : State :=
  let x := s.launch l
  let s := (s.endMeets l).foldl (fun s pa => s.markFailed (pa / 128)) s
  let s := s.discardLaunch l
  let m := (x.producedPas.filter fun pa => !s.failed (pa / 128)).foldl (fun m pa => endRecord m pa reason (t.getD (s.homeTime pa)) cut) s.mem
  ({ s.sweep x.producedPas with mem := m }.setLaunch l { x with ended := true, abnormal := abnormal, seals := [] }).leaveDone
    x.ctx

/-- The launches of a context that have not ended (the fault-service launch belongs to none). -/
def State.launchesOf (s : State) (c : Nat) : List Nat :=
  (s.launches.map (·.1)).eraseDups.filter fun l =>
    let x := s.launch l
    x.ctx == c && !x.ended && !x.service

/-- KILL or MACHINE_CHECK of a context (R391): every group stops and is discarded, its records take
CUTINFO 6, its pins are released, its admission entries are freed, and the event is posted. -/
def State.killCtx (s : State) (c code : Nat) (data : Option DWord) : State :=
  let s := (s.launchesOf c).foldl (fun s l => s.endLaunch l 6 true false none) s
  let hs := s.liveGroups.filter fun g => decide ((s.group g).handler ≠ []) && decide ((s.group g).hctx = c)
  let s := hs.foldl (fun s g => s.setGroup g (s.group g).discard) s
  let s := { s with faults := s.faults.filter fun f => f.2.ctx != c
                    submissions := s.submissions.filter fun x => x.ctx != c }.arriveDies
  (s.setCtx c { s.ctx c with killed := true, leaving := .no }).post (s.fnOfCtx c) code 0 c data

/-! ### Leaving the device (R400) -/

/-- The device castles a context out: a castling is asked for on every core whose live bank it occupies. What the
fumarole has brought into a shadow bank goes back to its save area. -/
def State.castleOut (s : State) (c : Nat) : State :=
  let cores := (((s.groupsOfCtx c).filter fun g => decide ((s.group g).bank = .live)).map s.coreOf).eraseDups
  let s := cores.foldl (fun s n => s.setCore n { s.core n with castling := true }) s
  (s.setCtx c { s.ctx c with leaving := .out (s.ticks 0) }).leaveDone c

/-- A pass commit or a team end during a soft request (R400). -/
def State.softLeft (s : State) (c : Nat) : State :=
  match (s.ctx c).leaving with
  | .soft _ => s.castleOut c
  | _ => s

/-- Event codes (R428). -/
def evSkew : Nat := 1
def evThrottle : Nat := 2
def evHalted : Nat := 3
def evCut : Nat := 4
def evKill : Nat := 5
def evMachineCheck : Nat := 6
def evEccCorrected : Nat := 7
def evLink : Nat := 8
def evTemp : Nat := 9
def evDroop : Nat := 10

/-! ### Register files -/

/-- A v register's map entry. -/
def Group.v (g : Group) (n : Nat) : VReg := g.vregs.get .never n
/-- An o register. -/
def Group.o (g : Group) (n : Nat) : Lanes := g.oregs.get Lanes.zero n
/-- A k register. -/
def Group.k (g : Group) (n : Nat) : Word := g.kregs.get 0 n
/-- A feed's entries, oldest first. -/
def Group.feed (g : Group) (n : Nat) : List Lanes := g.feeds.get [] n

/-- The lane values that a map entry holds (R167); an unmapped one reads zero (R170). -/
def VReg.lanes : VReg → Lanes
  | .never => Lanes.zero
  | .released => Lanes.zero
  | .uniform u => Lanes.splat u
  | .affine b s => Lanes.ofFn fun i => b + BitVec.ofNat 32 i * s
  | .general vals _ => vals

/-- The state code (R167). -/
def VReg.code : VReg → Nat
  | .never => 0
  | .released => 1
  | .uniform _ => 2
  | .affine _ _ => 3
  | .general _ _ => 4

/-- Whether a value lies in the signed range of `n` bits. -/
def fitsSigned (n : Nat) (d : Word) : Bool :=
  decide (-(2 ^ (n - 1) : Int) ≤ d.toInt) && decide (d.toInt < 2 ^ (n - 1))

/-- The slots of a general register's class (R169). -/
def classSlots (v : Lanes) : Nat :=
  let b := v.get 0
  if v.vals.all fun x => fitsSigned 8 (x - b) then 1
  else if v.vals.all fun x => fitsSigned 16 (x - b) then 2
  else 4

/-- The pool slots that a map entry holds in the live bank (R167, R188). -/
def VReg.slots : VReg → Nat
  | .general vals false => classSlots vals
  | _ => 0

/-- The pool slots that a group holds. -/
def Group.slots (g : Group) : Nat := (g.vregs.map fun r => r.2.slots).sum

/-- A group's effective reservation (R178). -/
def State.reservation (s : State) (g : Nat) : Nat := max (s.descOf g).regs 72

/-- The groups of a core's live bank. -/
def State.bankGroups (s : State) (c : Nat) : List Nat :=
  s.liveGroups.filter fun g => s.coreOf g == c && decide ((s.group g).bank = .live)

/-- Slots in use in a core's live bank. -/
def State.slotsUsed (s : State) (c : Nat) : Nat := ((s.bankGroups c).map fun g => (s.group g).slots).sum

/-- Slots of a bank (R11). -/
def bankSlots : Nat := 8192

/-! ### Privilege (R384) -/

/-- Whether a split of a group is privileged. -/
def State.privileged (s : State) (g : Nat) (mask : Word) : Bool :=
  ((s.group g).stack.any fun e => !e.done && decide (e.kind = .trap) && decide (mask &&& e.mask = mask)) ||
  decide ((s.group g).handler ≠ []) || decide ((s.ctx (s.ctxOf g)).mode ≠ .service)

/-- Whether the executing split is privileged. -/
def State.priv (s : State) : Bool := s.privileged s.cur.group s.mask

/-! ### The reconvergence stack (R302 to R308) -/

/-- Whether an entry holds every lane of a mask. -/
def Entry.holds (e : Entry) (m : Word) : Bool := !e.done && decide (m &&& e.mask = m)

/-- Frees the entry at an index (0 the topmost): removed from the top, else marked DONE (R305). -/
def freeEntry (st : List Entry) (i : Nat) : List Entry :=
  if i = 0 then (st.drop 1).dropWhile (·.done)
  else st.modify i fun e => { e with done := true }

/-- LEN and NEXTF of TCTL (R385). -/
def tctlLen (w : Word) : Nat := w.toNat % 4
def tctlNext (w : Word) : Bool := w.getLsbD 2
def tctlSave (w : Word) : Nat := w.toNat / 16 % 4

/-- A split at the place that a settled entry names, beginning a new pass. -/
def resumeAt (num : Nat) (mask : Word) (pc : Nat) (fmt rmode : Word) (l0 l1 : Lanes) (join : Option Nat) : Split :=
  { num := num, mask := mask, pc := pc, fmt := fmt, rmode := rmode, l0 := l0, l1 := l1, join := join,
    wait := none, held := none, trap := none, entered := none, charged := false, fetchFault := false }

/-- What was known before any of some lanes' paths, and on these lanes everything up to now. -/
def Group.known (g : Group) (m : Word) : List Nat :=
  let ps := (lanesOf m).map fun i => g.know.get [] i
  (List.range 32).map fun j => if laneIn m j then 3 * g.seq + 3 else ps.foldl (fun n p => max n (p.getD j 0)) 0

/-- The paths of some lanes meet: every event of them comes before what follows (R279). -/
def Group.meet (g : Group) (m : Word) : Group :=
  let p := g.known m
  { g with know := (lanesOf m).foldl (fun t i => t.set i p) g.know }

/-- What comes before the next event of a split of some lanes, on the paths of other lanes. -/
def Group.past (g : Group) (m : Word) : List Nat := g.know.get [] (lowestLane m)

/-- Settle (R305) of the entry at distance `b` from the bottom; `x` is the split whose event triggered it,
already taken out of the group. The answer says whether `x` has been given work. -/
def Group.settle (g : Group) (x : Split) (used : Bool) (b : Nat) : Group × Bool :=
  let i := g.stack.length - 1 - b
  if g.stack.length ≤ b then (g, used)
  else
    match g.stack[i]? with
    | none => (g, used)
    | some e =>
      let num := if used then g.freeSplit else x.num
      if e.done then (g, used)
      else if e.mask = 0 then ({ g with stack := freeEntry g.stack i }, used)
      else if e.dmask ≠ 0 ∧ e.arr = e.mask &&& ~~~e.dmask then
        let y := resumeAt num e.dmask e.dtgt e.fmt e.rmode Lanes.zero Lanes.zero
          (if e.djp then some e.rpt else none)
        ({ g with stack := g.stack.modify i fun e => { e with dmask := 0, djp := false, dtgt := 0 } }.putSplit y,
          true)
      else if e.dmask = 0 ∧ e.arr = e.mask then
        match e.kind with
        | .trap =>
          let sv := g.saves.get ⟨Lanes.zero, Lanes.zero, [], []⟩ (tctlSave e.tctl)
          let pc := if tctlNext e.tctl then e.rpt + tctlLen e.tctl else e.rpt
          let y := resumeAt num e.mask pc e.fmt e.rmode sv.l0 sv.l1 none
          let g := if x.mask = e.mask then g else g.meet e.mask
          ({ g with stack := freeEntry g.stack i, saves := g.saves.del (tctlSave e.tctl) }.putSplit y, true)
        | _ =>
          let keep := decide (x.mask = e.mask)
          let y := resumeAt num e.mask e.rpt e.fmt e.rmode (if keep then x.l0 else Lanes.zero)
            (if keep then x.l1 else Lanes.zero) none
          let g := if keep && decide (e.kind = .call) then g else g.meet e.mask
          ({ g with stack := freeEntry g.stack i }.putSplit y, true)
      else (g, used)

/-- Settles the entries at the given distances from the bottom, in order. -/
def Group.settleAll (g : Group) (x : Split) : Bool → List Nat → Group
  | _, [] => g
  | used, b :: r =>
    let q := g.settle x used b
    Group.settleAll q.1 x q.2 r

/-- The distances from the bottom of all entries, topmost first. -/
def Group.depths (g : Group) : List Nat := (List.range g.stack.length).reverse

/-- The innermost entry of a split (R304): its index from the top. -/
def Group.innermost (g : Group) (x : Split) : Option Nat := g.stack.findIdx? fun e => e.holds x.mask

/-- Whether a split arrives (R304): its pc is RPT of its innermost entry, a divergence entry. -/
def Group.arrives (g : Group) (x : Split) : Bool :=
  match g.innermost x with
  | none => false
  | some i =>
    match g.stack[i]? with
    | some e => decide (e.kind = .div) && decide (e.rpt = x.pc)
    | none => false

/-- One arrival (R304, R305). -/
def Group.arrive (g : Group) (x : Split) : Group :=
  match g.innermost x with
  | none => g
  | some i =>
    let b := g.stack.length - 1 - i
    let g := (g.dropSplit x.num)
    let g := { g with stack := g.stack.modify i fun e => { e with arr := e.arr ||| x.mask } }
    (g.settle x false b).1

/-- Every arrival that is due, at most `fuel` of them. -/
def Group.arrivals : Nat → Group → Group
  | 0, g => g
  | fuel + 1, g =>
    match g.splits.find? fun x => x.wait.isNone && x.trap.isNone && g.arrives x with
    | none => g
    | some x => Group.arrivals fuel (g.arrive x)

/-- At most as many arrivals can follow one event as the stack has entries, twice (deferred lanes). -/
def Group.arriveAll (g : Group) : Group := Group.arrivals 200 g

/-- Removes lanes from MASK and ARR of the entries that `p` selects. -/
def leaveEntries (st : List Entry) (m : Word) (p : Nat → Bool) : List Entry :=
  st.mapIdx fun i e => if p i then { e with mask := e.mask &&& ~~~m, arr := e.arr &&& ~~~m } else e

/-- EXIT's removal (R306). -/
def Group.exitSplit (g : Group) (x : Split) : Group :=
  let ds := g.depths
  let g := g.dropSplit x.num
  let g := { g with stack := leaveEntries g.stack x.mask fun _ => true }
  (g.settleAll x false ds).arriveAll

/-- The nearest entry that contains the split and is not a divergence entry (R317, R405). -/
def Group.nearest (g : Group) (x : Split) : Option Nat :=
  g.stack.findIdx? fun e => e.holds x.mask && decide (e.kind ≠ .div)

/-- RET's and TRET's move (R306): the lanes leave every divergence entry above the entry at index `i`,
arrive there, and the entries are settled, that one first. -/
def Group.returnTo (g : Group) (x : Split) (i : Nat) : Group :=
  let n := g.stack.length
  let touched := (List.range i).filter fun j =>
    match g.stack[j]? with
    | some e => decide (e.kind = .div) && decide (e.mask &&& x.mask ≠ 0)
    | none => false
  let g := g.dropSplit x.num
  let g := { g with stack := leaveEntries g.stack x.mask fun j => touched.contains j }
  let g := { g with stack := g.stack.modify i fun e => { e with arr := e.arr ||| x.mask } }
  (g.settleAll x false ((n - 1 - i) :: touched.map fun j => n - 1 - j)).arriveAll

/-- Diverge (R303) of split `x`, whose taken lanes are `mt`. `none` where the push breaks R308. `en` is the
bundle entered where the fall-through slot lies in it: a split that falls through to there goes on in it as it
was decoded (R68). -/
def Group.diverge (g : Group) (x : Split) (mt mn : Word) (t f j : Nat) (bix : Bool) (en : Option Entered) : Option Group :=
  let go := fun pc => some ((g.putSplit { x with pc := pc, join := none, entered := none, charged := false }).arriveAll)
  if mt = 0 then some ((g.putSplit { x with pc := f, join := none }).arriveAll)
  else if mn = 0 ∨ t = f then go t
  else if 78 ≤ g.stack.length then none
  else
    let room := decide (g.splits.length < 4)
    let e : Entry :=
      { rpt := j, dtgt := if room then 0 else f, fmt := x.fmt, rmode := x.rmode, mask := x.mask, arr := 0,
        dmask := if room then 0 else mn, djp := bix && !room, done := false, kind := .div, fltcause := 0,
        fltlane := 0, fltaddr := 0, fltmask := 0, tctl := 0 }
    let y := { resumeAt g.freeSplit mn f x.fmt x.rmode x.l0 x.l1 (if bix then some j else none) with entered := en }
    let x' := { x with mask := mt, pc := t, join := none, entered := none, charged := false }
    let g := { g with stack := e :: g.stack }
    let g := if room then g.putSplit y else g
    some ((g.putSplit x').arriveAll)

/-- CALL's push (R316): `none` where it breaks R308. -/
def Group.call (g : Group) (x : Split) (ret t : Nat) : Option Group :=
  if 78 ≤ g.stack.length then none
  else
    let e : Entry :=
      { rpt := ret, dtgt := 0, fmt := x.fmt, rmode := x.rmode, mask := x.mask, arr := 0, dmask := 0,
        djp := false, done := false, kind := .call, fltcause := 0, fltlane := 0, fltaddr := 0, fltmask := 0,
        tctl := 0 }
    some (({ g with stack := e :: g.stack }.putSplit
      { x with pc := t, entered := none, charged := false }).arriveAll)

/-! ### Taking an exception (R379 to R388) -/

/-- The code of a cause (R379). -/
def Cause.code : Cause → Nat
  | .illegalOpcode => 0x01
  | .illegalOperand => 0x02
  | .illegalChain => 0x03
  | .illegalBundle => 0x04
  | .shapeMismatch => 0x05
  | .releasedRead => 0x06
  | .spaceForeign => 0x07
  | .spaceInvalid => 0x08
  | .misaligned => 0x09
  | .permission => 0x0A
  | .anytimeEscape => 0x0B
  | .anytimePerm => 0x0C
  | .sealOrder => 0x0D
  | .detViolation => 0x0E
  | .overrun => 0x0F
  | .feedDrained => 0x10
  | .stackOvf => 0x11
  | .timeHorizon => 0x12
  | .lateVis => 0x13
  | .translationAbort => 0x14
  | .trap => 0x15
  | .bkpt => 0x16
  | .pageFault => 0x20
  | .cut => 0x30
  | .kill => 0x31
  | .machineCheck => 0x32

/-- The place of a cause in the order of R382; the least wins. -/
def Cause.rank : Cause → Nat
  | .illegalBundle => 0
  | .illegalChain => 1
  | .illegalOpcode => 2
  | .illegalOperand => 3
  | .releasedRead => 4
  | .shapeMismatch => 5
  | .feedDrained => 6
  | .stackOvf => 7
  | .anytimePerm => 8
  | .sealOrder => 9
  | .timeHorizon => 10
  | .permission => 20
  | .spaceForeign => 21
  | .spaceInvalid => 22
  | .misaligned => 23
  | .anytimeEscape => 24
  | .detViolation => 25
  | .pageFault => 26
  | _ => 15

/-- The FLTCAUSE word (R380). -/
def Report.fltcause (r : Report) : Word :=
  BitVec.ofNat 32 (r.info % 2 ^ 18 * 2 ^ 14 + r.src % 4 * 2 ^ 12 + r.late.toNat * 2 ^ 8 + r.cause.code)

/-- A report of a unit cause (R383): FLTLANE 0, FLTADDR as given, FLTMASK the split's mask. -/
def unitReport (c : Cause) (info : Nat) (mask : Word) (addr : DWord) : Report :=
  { cause := c, info := info, src := 0, late := false, lane := 0, addr := addr, mask := mask, laneAddr := [],
    laneCode := [] }

/-- The lowest save slot that no trap entry uses (R385). -/
def Group.freeSave (g : Group) : Nat :=
  ((List.range 4).find? fun j =>
    !(g.stack.any fun e => !e.done && decide (e.kind = .trap) && decide (tctlSave e.tctl = j))).getD 0

/-- Trap entries of a group. -/
def Group.trapDepth (g : Group) : Nat := (g.stack.filter fun e => !e.done && decide (e.kind = .trap)).length

/-- The push of Deliver (R385) on the group: the entry, the save slot, and the split at the handler. -/
def Group.deliver (g : Group) (x : Split) (r : Report) (slot len hvec : Nat) : Group :=
  let sv := g.freeSave
  let nextf := decide (r.cause = .trap)
  let e : Entry :=
    { rpt := slot, dtgt := 0, fmt := x.fmt, rmode := x.rmode, mask := x.mask, arr := 0, dmask := 0,
      djp := false, done := false, kind := .trap, fltcause := r.fltcause, fltlane := BitVec.ofNat 32 r.lane,
      fltaddr := r.addr, fltmask := r.mask,
      tctl := BitVec.ofNat 32 (sv * 16 + nextf.toNat * 4 + len % 4) }
  let x' := { x with
    l0 := Lanes.zero, l1 := Lanes.zero, pc := hvec, join := none, wait := none, trap := none, entered := none,
    charged := false, fetchFault := false }
  ({ g with
    stack := e :: g.stack
    saves := g.saves.set sv ⟨x.l0, x.l1, r.laneAddr, r.laneCode⟩ }).putSplit x'

/-- Deliver (R385): saves the slot, the format registers and the report on the stack, sends the split to
HVEC; a fifth nested trap or a full stack raises KILL for the context. -/
def State.deliver (s : State) (g sp : Nat) (r : Report) (slot len : Nat) : State :=
  let gr := s.group g
  if 4 ≤ gr.trapDepth ∨ 80 ≤ gr.stack.length then s.killCtx (s.ctxOf g) evKill none
  else s.setGroup g (gr.deliver (gr.split sp) r slot len (s.ctx (s.ctxOf g)).hvec.toNat)

/-- A raised cause leaves what its accesses have walked through accessed (R77); it is delivered at once, or waits until the operand log is empty (R95, R385). -/
def State.raise (s : State) (r : Report) : State :=
  let s := s.mark (r.walked.map fun a => (a, 1))
  if s.g.log = [] then s.deliver s.cur.group s.cur.split r s.cur.slot s.cur.len
  else s.modSp fun x => { x with trap := some (r, s.cur.slot, s.cur.len), wait := none }

/-- Return from an exception (R306, R405): `next` sets NEXTF of the trap entry. `none` where the nearest
entry that is no divergence entry is no trap entry. -/
def Group.tret (g : Group) (x : Split) (next : Bool) : Option Group :=
  match g.nearest x with
  | none => none
  | some i =>
    match g.stack[i]? with
    | some e =>
      if e.kind = .trap then
        let g := if next then { g with stack := g.stack.modify i fun e => { e with tctl := e.tctl ||| 4 } } else g
        some (g.returnTo x i)
      else none
    | none => none

/-- RET (R306, R317): `none` where the nearest entry that is no divergence entry is no call entry. -/
def Group.ret (g : Group) (x : Split) : Option Group :=
  match g.nearest x with
  | none => none
  | some i =>
    match g.stack[i]? with
    | some e => if e.kind = .call then some (g.returnTo x i) else none
    | none => none

/-! ### Completing faults (R98, R100) -/

/-- A log entry with one lane's fault completed. -/
def LogEntry.complete (e : LogEntry) (lane : Nat) (abort : Bool) : LogEntry :=
  let b := (1 : Word) <<< lane
  { e with waiting := e.waiting &&& ~~~b, aborted := if abort then e.aborted ||| b else e.aborted }

/-- The origin group of a completed fault: its log entry, its split, its copy or its slice goes on. -/
def Group.faultDone (g : Group) (f : FaultRec) (abort : Bool) : Group :=
  match f.src with
  | .data lane e =>
    (match g.log.find? fun x => x.1 == e with
     | some x => { g with log := g.log.set e (x.2.complete lane abort) }
     | none => g)
  | .fetch n =>
    (match g.split? n with
     | some x =>
       let r := { unitReport .translationAbort (x.pc % 2 ^ 18) x.mask f.va with late := false }
       g.putSplit { x with fetchFault := false, trap := if abort then some (r, x.pc, 1) else x.trap }
     | none => g)
  | .copy n =>
    (match g.copies.find? fun x => x.1 == n with
     | some x => { g with copies := g.copies.set n { x.2 with faulted := false, aborted := abort } }
     | none => g)
  | .slice n =>
    if g.slice.gen = n then { g with slice := { g.slice with faulted := false, aborted := abort } } else g

/-- Completes a pending fault; a fault completed before is no longer there (R98). -/
def State.completeFault (s : State) (n : Nat) (abort : Bool) : State :=
  match s.faults.find? fun f => f.1 == n with
  | none => s
  | some (_, f) =>
    { s with faults := s.faults.del n }.setGroup f.group ((s.group f.group).faultDone f abort)

/-- The host's answer to a stage-2 fault (R100). -/
def State.stage2Answer (s : State) (tag : Word) (abort : Bool) : State :=
  match s.faults.find? fun f => decide (f.2.st = .stage2) && decide (f.2.tag = tag) with
  | none => s
  | some f => s.completeFault f.1 abort

/-! ### Charges (R333 to R335) -/

/-- What a charge is for (R334). -/
inductive ChargeKind where | bundle | macros | copy | matbytes | feed
  deriving DecidableEq, Repr

/-- The divisor of a kind. -/
def ChargeKind.per : ChargeKind → Nat
  | .bundle => 1
  | .macros => 32
  | .copy => 512
  | .matbytes => 512
  | .feed => 256

/-- The place of a kind's remainder: R334's pseudocode has one for each of four kinds, its prose speaks of three (DESIGN
CHOICE, log entry 141). -/
def ChargeKind.ix : ChargeKind → Nat
  | .macros => 0
  | .copy => 1
  | .matbytes => 2
  | .feed => 3
  | .bundle => 0

/-- Overrun (R335), taken once per launch; `d` is the die whose time recognises it. The groups that a hard launch starts
later receive it as well. -/
def State.overrun (s : State) (l why d : Nat) : State :=
  let x := s.launch l
  if x.overran ∨ x.service ∨ x.ended then s
  else if x.desc.anytime then
    s.setLaunch l { x with
      overran := true
      cut := if x.cut.isSome then x.cut else some ⟨if why = 0 then 4 else 1, s.time d⟩ }
  else
    match x.desc.cls with
    | .hard =>
      let s := (s.groupsOf l).foldl (fun s g => s.setGroup g { s.group g with overrun := some why }) s
      s.setLaunch l { x with overran := true, demoted := true, trapsAs := some why }
    | .soft => s.setLaunch l { x with overran := true, demoted := true }
    | .best => s.setLaunch l { x with overran := true }

/-- The report of a core's local count to the launch (R334). -/
def State.reportCharge (s : State) (l c : Nat) : State :=
  let x := s.launch l
  let x := { x with charged := x.charged + x.cyc.get 0 c, cyc := x.cyc.set c 0 }
  let s := s.setLaunch l x
  if x.desc.budget * 1024 ≤ x.charged ∧ x.service = false then s.overrun l 0 (dieOfCore c) else s

/-- Cycles on a core's local count of a launch (R334); the die's energy is shared out by them (R364). -/
def Launch.count (x : Launch) (c n : Nat) : Launch :=
  { x with
    cyc := x.cyc.set c (x.cyc.get 0 c + n)
    dieCycles := x.dieCycles.set (dieOfCore c) (x.dieCycles.get 0 (dieOfCore c) + n) }

/-- The cycles charged on a die (R364). -/
def State.cyclesOn (s : State) (d : Nat) : Nat := (s.launches.map fun l => l.2.dieCycles.get 0 d).sum

/-- Charge (R334) on a core. -/
def State.charge (s : State) (l c : Nat) (k : ChargeKind) (n : Nat) : State :=
  let x := s.launch l
  let x :=
    match k with
    | .bundle => x.count c n
    | _ =>
      let key := c * 4 + k.ix
      let r := x.rem.get 0 key + n
      { x.count c (r / k.per) with rem := x.rem.set key (r % k.per) }
  let s := s.setLaunch l x
  if 1024 ≤ x.cyc.get 0 c then s.reportCharge l c else s

/-- Charge for the group `g`. -/
def State.chargeG (s : State) (g : Nat) (k : ChargeKind) (n : Nat) : State :=
  s.charge (launchOf g) (s.coreOf g) k n

/-- Remaining(L) (R334). -/
def Launch.remaining (x : Launch) : Nat := x.desc.budget * 1024 - x.charged

/-- A launch's sort key (R342). -/
def Launch.key (x : Launch) : Nat × Nat :=
  if x.service then (0, 0)
  else if x.demoted ∨ x.desc.cls = .best then (1, x.desc.deadline)
  else (0, x.desc.deadline)

/-- The free value counter's next value (AN UNDEFINED VALUE): a fresh byte. -/
def State.fresh (s : State) : Byte × State := (Config.freeByte s.freeIx, { s with freeIx := s.freeIx + 1 })

/-- The next timing choice of the oracle: `false` where none is listed. -/
def State.choice (s : State) : Bool := s.oracle.headD false
/-- The oracle without its first choice. -/
def State.chosen (s : State) : State := { s with oracle := s.oracle.drop 1 }

end Sys2Proof.Machine
end

