-- ==== Sys2Proof/Machine/Operands.lean ====
section
/-! DEFINITION. Operand reads (R50 to R52, R170 to R172), the sources that an instruction reads and the
ones that are uniform-only, result shapes (R168), and destination writes (R174 to R177). -/

namespace Sys2Proof

/-! ### What an instruction reads -/

/-- The specifiers that an operand of `n` registers names (R118, R209). -/
def Src.specs (a : Src) (n : Nat) : List Spec :=
  if n ≤ 1 then [a.spec]
  else
    match a.spec with
    | .v k => (List.range n).map fun j => .v (k + j)
    | .p k => (List.range n).map fun j => .p (k + j)
    | sp => [sp]

/-- The v registers from `k` on. -/
def vSpecs (k n : Nat) : List Spec := (List.range n).map fun j => .v (k + j)

/-- The sources that an instruction reads, in field order (R41, R170). SHAPE, REGQ and FREE read none
(R172). -/
def Instr.srcs : Instr → List Spec
  | .bnz a _ | .bz a _ | .jpt a _ | .bix a | .swr _ a | .iabs _ a | .ineg _ a | .bfe _ _ a _ _
  | .popc _ a | .clz _ a | .brev _ a | .mov _ a | .fclass _ _ a | .fround _ _ _ a | .fsqrt _ _ _ a
  | .frcp _ _ _ a | .frsq _ _ _ a | .fexp _ _ _ a | .fexp2 _ _ _ a | .flog _ _ _ a | .flog2 _ _ _ a
  | .fsin _ _ _ a | .fcos _ _ _ a | .ftanh _ _ _ a | .cvtTo _ _ _ a | .cvtFrom _ _ _ a | .rnse _ a
  | .rnsd _ a | .vote _ _ a | .lred _ _ _ a | .lscan _ _ _ a | .mkuni _ _ a | .flagsClr _ a
  | .rflush a | .rdrop a | .cpy a | .cpyl a | .cpyFeed _ a
  | .bari a _ | .bara _ a | .wld _ _ a _ | .mmr _ _ _ _ _ a _
  | .mmrHold _ _ _ _ _ a _ | .mmc _ _ _ _ _ a _ | .mmcHold _ _ _ _ _ a _ | .mmf _ _ _ _ a
  | .qscale _ _ _ a | .qsave a _ _ | .qload a _ _ | .vbegin _ a | .vpin _ _ a | .launch _ a => [a.spec]
  | .cwait all a => if all then [] else [a.spec]
  | .sfmt imm a => if imm.isSome then [] else [a.spec]
  | .srnd imm a => if imm.isSome then [] else [a.spec]
  | .iadd _ a b | .isub _ a b | .iadds _ _ a b | .isubs _ _ a b | .imul _ a b | .imulh _ _ a b
  | .imin _ _ a b | .imax _ _ a b | .and _ a b | .or _ a b | .xor _ a b | .andn _ a b | .shl _ a b
  | .shr _ a b | .sar _ a b | .rotl _ a b | .icmp _ _ a b | .fadd _ _ _ a b
  | .fsub _ _ _ a b | .fmul _ _ _ a b | .fmin _ _ a b | .fmax _ _ a b | .fcmp _ _ _ a b
  | .fdiv _ _ _ a b | .unpk _ _ a b | .bcast _ a b | .mkaff _ a b | .twosum _ a b
  | .twoprod _ a b => [a.spec, b.spec]
  | .sel _ a b kn => [a.spec, b.spec, .k kn]
  | .imad _ a b c | .idot4 _ _ a b c | .bfi _ a b c | .ffma _ _ a b c | .qnt _ _ a b c
  | .dqnt _ _ a b c | .perm _ _ a b c | .shfl _ _ a b c => [a.spec, b.spec, .v c.n]
  | .pack w _ a b c => if w = .b16 then [a.spec, b.spec] else [a.spec, b.spec, .v c.n]
  | .atom op _ a b c => a.specs 2 ++ [b.spec] ++ (if op.isCas then [.v c.n] else [])
  | .atoms op _ a b c => [a.spec, b.spec] ++ (if op.isCas then [.v c.n] else [])
  | .padd _ a b => a.specs 2 ++ b.specs 2
  | .pnorm _ a | .sptest _ a | .pfet a _ | .ld _ _ a _ | .join _ a => a.specs 2
  | .astart a x => a.specs 2 ++ [.v x]
  | .qdrain _ _ _ a _ _ sv => a.specs 2 ++ [.v sv]
  | .st w d a _ => a.specs 2 ++ vSpecs d w.regs
  | .lds _ _ a _ | .ldc _ _ a _ => [a.spec]
  | .sts w d a _ | .stc w d a _ => a.spec :: vSpecs d w.regs
  | .acvt _ a _ => a.specs 4
  | .ldUni fm _ _ a _ | .ldAcq fm _ _ _ a => a.specs fm.regs
  | .ldNb fm _ rel _ a t => a.specs fm.regs ++ t.specs (if rel then 1 else 2)
  | .stVa fm w rel d a t => a.specs fm.regs ++ t.specs (if rel then 1 else 2) ++ vSpecs d w.regs
  | .stRel fm w _ a d => a.specs fm.regs ++ d.specs w.regs
  | .spcast fr _ _ a => a.specs (if fr = .gen then 2 else 1)
  | .asum a x _ => a.specs 2 ++ [x.spec]
  | .rmap _ a b c => [a.spec, b.spec] ++ vSpecs c.n 2
  | .twait rel a => a.specs (if rel then 1 else 2)
  | .barx _ b c => [b.spec, .v c]
  | .barw d b => [b.spec, .v d]
  | .vseal _ a b | .vsealFinal _ a b => [a.spec, .v b]
  | .vwait _ _ a t =>
    a.spec ::
    (match t with
     | none => []
     | some t => t.specs 2)
  | _ => []

/-- The sources that the entry calls uniform-only (R171). -/
def Instr.uniformOnly : Instr → List Spec
  | .jpt a _ | .flagsClr _ a | .rflush a | .rdrop a | .cpy a | .cpyl a | .bari a _ | .bara _ a | .wld _ _ a _
  | .mmr _ _ _ _ _ a _ | .mmrHold _ _ _ _ _ a _ | .mmc _ _ _ _ _ a _ | .mmcHold _ _ _ _ _ a _
  | .mmf _ _ _ _ a | .qscale _ _ _ a | .qsave a _ _ | .qload a _ _ | .vbegin _ a | .vpin _ _ a
  | .launch _ a => [a.spec]
  | .swr reg a => if reg = 0x008 then [] else [a.spec]
  | .cwait all a => if all then [] else [a.spec]
  | .sfmt imm a => if imm.isSome then [] else [a.spec]
  | .srnd imm a => if imm.isSome then [] else [a.spec]
  | .mkaff _ a b => [a.spec, b.spec]
  | .bcast _ _ b => [b.spec]
  | .ldUni fm _ _ a _ => a.specs fm.regs
  | .ldNb _ _ rel _ _ t | .stVa _ _ rel _ _ t => t.specs (if rel then 1 else 2)
  | .rmap _ a b c => [a.spec, b.spec] ++ vSpecs c.n 2
  | .twait rel a => a.specs (if rel then 1 else 2)
  | .barx _ b c => [b.spec, .v c]
  | .barw d b => [b.spec, .v d]
  | .astart a x => a.specs 2 ++ [.v x]
  | .qdrain _ _ _ a _ _ sv => a.specs 2 ++ [.v sv]
  | .vseal _ a b | .vsealFinal _ a b => [a.spec, .v b]
  | .vwait _ _ a t =>
    a.spec ::
    (match t with
     | none => []
     | some t => t.specs 2)
  | .join _ a => a.specs 2
  | _ => []

/-- The second register of a pair named by a v or p specifier (R118). -/
def Src.next (a : Src) (k : Nat) : Src :=
  match a.spec with
  | .v n => { a with spec := .v (n + k) }
  | .p n => { a with spec := .p (n + k) }
  | _ => a

/-- The destination registers above a first one. -/
def Dst.plus (d : Dst) (k : Nat) : Dst :=
  match d with
  | .v n => .v (n + k)
  | d => d

/-- The registers of a destination of `n` words. -/
def Dst.regs (d : Dst) (n : Nat) : List Dst := (List.range n).map fun j => d.plus j

/-- The register that a specifier reads, as a destination. -/
def Spec.asDst : Spec → Option Dst
  | .v n => some (.v n)
  | .o n => some (.o n)
  | .k n => some (.k n)
  | _ => none

end Sys2Proof

namespace Sys2Proof.Machine

open Sys2Proof

/-! ### Reading (R51, R52, R170) -/

/-- The shape of a value (R167). -/
inductive Sh where
  | uniform
  | affine (b s : Word)
  | general
  deriving DecidableEq, Repr

/-- An operand as read: its shape and its lane values. -/
structure Opnd where
  sh : Sh
  vals : Lanes
  deriving DecidableEq, Repr

/-- The constants (R52). -/
def constants : List Word :=
  [0x00000000, 0x00000001, 0xFFFFFFFF, 0x3F800000, 0xBF800000, 0x40000000, 0x3F000000, 0x7F800000,
    0xFF800000, 0x7FC00000, 0x80000000, 0x7FFFFFFF, 0x00000002, 0x000000FF, 0x3F803F80, 0x3C003C00]

/-- The value of a special source other than $lane (R51). -/
def State.special (s : State) : Special → Word
  | .lane => 0
  | .group => BitVec.ofNat 32 (groupIx s.cur.group)
  | .team =>
    BitVec.ofNat 32 (spanOf (teamOf s.cur.group) * (s.descOf s.cur.group).tps + s.steam s.cur.group)
  | .steam => BitVec.ofNat 32 (s.steam s.cur.group)
  | .span => BitVec.ofNat 32 (spanOf (teamOf s.cur.group))
  | .core => BitVec.ofNat 32 (s.logicalCore s.cur.group)
  | .cluster => BitVec.ofNat 32 (s.cluster s.cur.group)
  | .amask => s.mask

/-- A launch parameter: zero at or beyond the parameter count (R50). -/
def State.param (s : State) (g n : Nat) : Word :=
  let d := s.descOf g
  if n < d.nparams then d.params.getD n 0 else 0

/-- A map entry as an operand (R170). -/
def VReg.opnd : VReg → Opnd
  | .never => ⟨.uniform, Lanes.zero⟩
  | .released => ⟨.uniform, Lanes.zero⟩
  | .uniform u => ⟨.uniform, Lanes.splat u⟩
  | .affine b s => ⟨.affine b s, (VReg.affine b s).lanes⟩
  | .general vals _ => ⟨.general, vals⟩

/-- ReadOperand (R170), without the effects that the issue unit carries out (pops, releases, GSTAT).
`skip` counts the earlier pops of the same feed by the same instruction (R41). -/
def State.opnd (s : State) (sp : Spec) (skip : Nat) : Opnd :=
  match sp with
  | .v n => (s.g.v n).opnd
  | .o n => ⟨.general, s.g.o n⟩
  | .l n => ⟨.general, if n = 0 then s.sp.l0 else s.sp.l1⟩
  | .f n => ⟨.general, (s.g.feed n).getD skip Lanes.zero⟩
  | .k n => ⟨.uniform, Lanes.splat (s.g.k n)⟩
  | .p n => ⟨.uniform, Lanes.splat (s.param s.cur.group n)⟩
  | .special .lane => ⟨.affine 0 1, (VReg.affine 0 1).lanes⟩
  | .special x => ⟨.uniform, Lanes.splat (s.special x)⟩
  | .const n => ⟨.uniform, Lanes.splat (constants.getD n 0)⟩

/-- The first operand. -/
def State.rd (s : State) (a : Src) : Opnd := s.opnd a.spec 0
/-- The second operand of an instruction whose first is `a`. -/
def State.rd2 (s : State) (a b : Src) : Opnd := s.opnd b.spec (if a.spec = b.spec then 1 else 0)
/-- A C7 operand. -/
def State.rdc (s : State) (c : CSrc) : Opnd := s.opnd (.v c.n) 0
/-- A v register. -/
def State.rdv (s : State) (n : Nat) : Opnd := s.opnd (.v n) 0

/-- A uniform operand's value. -/
def Opnd.u (x : Opnd) : Word := x.vals.get 0

/-- A 64-bit value from two words, low first. -/
def pair64 (lo hi : Word) : DWord := hi ++ lo

/-- A lane's 64-bit value of a pair operand (R118). -/
def State.rdPair (s : State) (a : Src) (i : Nat) : DWord :=
  pair64 ((s.rd a).vals.get i) ((s.rd (a.next 1)).vals.get i)

/-- Whether a source is read as uniform (R171). -/
def State.isUniform (s : State) (sp : Spec) : Bool := decide ((s.opnd sp 0).sh = .uniform)

/-! ### Result shapes (R168) -/

/-- Rules 3 and 10: uniform when every source is, else general. -/
def shapeOf (xs : List Opnd) : Sh := if xs.all fun x => decide (x.sh = .uniform) then .uniform else .general

/-- Rules 3 to 5 for IADD. -/
def shapeAdd (a b : Opnd) : Sh :=
  match a.sh, b.sh with
  | .uniform, .uniform => .uniform
  | .affine x s, .uniform => .affine (x + b.u) s
  | .uniform, .affine x s => .affine (a.u + x) s
  | .affine x s, .affine y t => .affine (x + y) (s + t)
  | _, _ => .general

/-- Rules 3 to 5 for ISUB. -/
def shapeSub (a b : Opnd) : Sh :=
  match a.sh, b.sh with
  | .uniform, .uniform => .uniform
  | .affine x s, .uniform => .affine (x - b.u) s
  | .uniform, .affine x s => .affine (a.u - x) (-s)
  | .affine x s, .affine y t => .affine (x - y) (s - t)
  | _, _ => .general

/-- Rules 3 and 6 for IMUL. -/
def shapeMul (a b : Opnd) : Sh :=
  match a.sh, b.sh with
  | .uniform, .uniform => .uniform
  | .affine x s, .uniform => .affine (x * b.u) (s * b.u)
  | .uniform, .affine x s => .affine (a.u * x) (a.u * s)
  | _, _ => .general

/-- The value that SHL gives (R215). -/
def shlWord (a n : Word) : Word := if n.toNat < 32 then a <<< n.toNat else 0

/-- Rules 3 and 7 for SHL. -/
def shapeShl (a b : Opnd) : Sh :=
  match a.sh, b.sh with
  | .uniform, .uniform => .uniform
  | .affine x s, .uniform => .affine (shlWord x b.u) (shlWord (x + s) b.u - shlWord x b.u)
  | _, _ => .general

/-- Rules 3 and 8 for INEG. -/
def shapeNeg (a : Opnd) : Sh :=
  match a.sh with
  | .uniform => .uniform
  | .affine x s => .affine (-x) (-s)
  | .general => .general

/-! ### Writing (R174 to R177) -/

/-- The lanes after a write under a mask. -/
def mergeLanes (m : Word) (new old : Lanes) : Lanes :=
  Lanes.ofFn fun i => if laneIn m i then new.get i else old.get i

/-- The map entry that a commit gives (R168 rule 1, R174): the shape stands under a full mask alone. -/
def commitReg (m : Word) (sh : Sh) (new : Lanes) (old : VReg) : VReg :=
  if m = fullMask then
    match sh with
    | .uniform => .uniform (new.get 0)
    | .affine b st => .affine b st
    | .general => .general new false
  else .general (mergeLanes m new old.lanes) false

/-- A committed destination in a group, and the 32-lane contents that l0 takes (R177). A k destination
takes the value of the lowest active lane (R175). -/
def Group.commit (g : Group) (m : Word) (d : Dst) (sh : Sh) (new : Lanes) : Group × Lanes :=
  match d with
  | .v n =>
    let r := commitReg m sh new (g.v n)
    ({ g with vregs := g.vregs.set n r }, r.lanes)
  | .o n =>
    let r := mergeLanes m new (g.o n)
    ({ g with oregs := g.oregs.set n r }, r)
  | .k n =>
    let x := new.get (lowestLane m)
    ({ g with kregs := g.kregs.set n x }, Lanes.splat x)

/-- Writes a destination of the executing split. -/
def State.writeDst (s : State) (d : Dst) (sh : Sh) (new : Lanes) : State :=
  s.modG fun g => (g.commit s.mask d sh new).1

/-- Writes a destination and shifts the last-result pair, as every VA or VB result does (R177), one whose source is a
feed among them. DEDUCED (log entry 99). -/
def State.writeVec (s : State) (d : Dst) (sh : Sh) (new : Lanes) : State :=
  let r := s.g.commit s.mask d sh new
  let s := s.modG fun _ => r.1
  s.modSp fun x => { x with l1 := x.l0, l0 := r.2 }

/-- A uniform value as a destination's lanes. -/
def State.writeUni (s : State) (d : Dst) (x : Word) : State := s.writeDst d .uniform (Lanes.splat x)

/-- A uniform 64-bit value into the pair d, d + 1. -/
def State.writePair (s : State) (d : Nat) (x : DWord) : State :=
  (s.writeUni (.v d) (x.setWidth 32)).writeUni (.v (d + 1)) ((x >>> 32).setWidth 32)

/-! ### Pending destinations -/

/-- The registers that wait for a value: of accesses in flight (logged ones among them, R92, R126),
slow-path results (R214), QSTATs and LAUNCHes (R350). -/
def State.pending (s : State) (g : Nat) : List Dst :=
  let gr := s.group g
  (gr.inflight.flatMap fun a =>
    match a.2.dest with
    | some d => d.regs a.2.width.regs
    | none => []) ++
  (gr.slow.map fun r => r.2.dest) ++
  (gr.waitingLaunch.map fun n => Dst.v n) ++
  (match s.jobOf g with
   | some j => j.dest.toList
   | none => [])

end Sys2Proof.Machine
end

