-- ==== Sys2Proof/Machine/Flags.lean ====
section
/-! DEFINITION. FLAGS (R204, R244): a group's sticky floating flags, and what an instruction adds to
them: the OR over its active lanes. -/

namespace Sys2Proof.Machine

open Sys2Proof

/-- FLAGS with bits added (R204). -/
def State.orFlags (s : State) (f : Word) : State :=
  s.modG fun g => { g with flags := g.flags ||| f }

/-- The flags of the active lanes, OR-combined (R204). -/
def laneFlags (m : Word) (f : Nat → Word) : Word :=
  (lanesOf m).foldl (fun a i => a ||| f i) 0

/-- The lane values and the combined flags of a lane-wise operation that gives both. -/
def lanesFl (m : Word) (f : Nat → Word × Word) : Lanes × Word :=
  (Lanes.ofFn fun i => (f i).1, laneFlags m fun i => (f i).2)

end Sys2Proof.Machine
end

