-- ==== Sys2Proof/Machine/Issue.lean ====
section
/-! DEFINITION. Issuing an issue unit (R40 to R43, R170 to R177, R382 to R386, R432): what every
instruction shares. A plan checks an instruction on the state and answers the change that it makes, or why
it does not issue: a cause, a stall, a wait. -/

namespace Sys2Proof

/-- The instructions that stall while the group has a pending log entry, beside those that name its
destination or its bytes (R92). -/
def Instr.ordersLog : Instr → Bool
  | .fence _ _ | .ldAcq _ _ _ _ _ | .stRel _ _ _ _ _ | .cwait _ _ | .barw _ _ | .bara _ _ | .barx _ _ _
  | .cpy _ | .cpyFeed _ _ | .cpyl _ | .tsync | .vseal _ _ _ | .vsealFinal _ _ _ | .vpin _ _ _ | .vunpin _
  | .launch _ _ | .join _ _ | .exit | .wld _ _ _ _ | .mmr _ _ _ _ _ _ _ | .mmrHold _ _ _ _ _ _ _
  | .mmc _ _ _ _ _ _ _ | .mmcHold _ _ _ _ _ _ _ | .mmf _ _ _ _ _ | .qscale _ _ _ _ | .qload _ _ _ => true
  | _ => false

/-- The instructions that may send the split elsewhere, divide it or end it (R302 to R306). -/
def Instr.redirects : Instr → Bool
  | .bra _ | .bnz _ _ | .bz _ _ | .jpt _ _ | .bix _ | .call _ | .ret | .tret _ | .exit => true
  | _ => false

/-- The instructions whose work goes on after their issue: accesses, copies, matrix instructions, the slow path. -/
def Instr.leavesWork : Instr → Bool
  | .ld _ _ _ _ | .st _ _ _ _ | .lds _ _ _ _ | .sts _ _ _ _ | .ldc _ _ _ _ | .stc _ _ _ _ | .ldUni _ _ _ _ _
  | .ldNb _ _ _ _ _ _ | .stVa _ _ _ _ _ _ | .ldAcq _ _ _ _ _ | .stRel _ _ _ _ _ | .atom _ _ _ _ _ | .atoms _ _ _ _ _
  | .asum _ _ _ | .cpy _ | .cpyl _ | .bara _ _ | .barx _ _ _ | .fdiv _ _ _ _ _ | .fsqrt _ _ _ _ | .frcp _ _ _ _
  | .frsq _ _ _ _ | .fexp _ _ _ _ | .fexp2 _ _ _ _ | .flog _ _ _ _ | .flog2 _ _ _ _ | .fsin _ _ _ _ | .fcos _ _ _ _
  | .ftanh _ _ _ _ | .wld _ _ _ _ | .mmr _ _ _ _ _ _ _ | .mmrHold _ _ _ _ _ _ _ | .mmc _ _ _ _ _ _ _
  | .mmcHold _ _ _ _ _ _ _ | .mmf _ _ _ _ _ | .qzero _ _ | .qdrain _ _ _ _ _ _ _ | .qscale _ _ _ _ | .qsave _ _ _
  | .qload _ _ _ | .qstat _ _ => true
  | _ => false

/-- The instructions that wait for such work of the group, or access memory as they issue, after it. -/
def Instr.looksBack : Instr → Bool
  | .exit | .tsync | .bari _ _ | .bara _ _ | .barx _ _ _ | .barw _ _ | .cpy _ | .cpyl _ | .vbegin _ _ | .vslot _ _ _
  | .vseal _ _ _ | .vsealFinal _ _ _ | .vpin _ _ _ | .vunpin _ | .vwait _ _ _ _ | .vstat _ _ _ | .launch _ _ | .halt
  | .mmc _ _ _ _ _ _ _ | .mmcHold _ _ _ _ _ _ _ | .qload _ _ _ => true
  | _ => false

/-- How many entries of feed `n` an instruction pops (R41, R161). -/
def Instr.pops (i : Instr) (n : Nat) : Nat := (i.srcs.filter fun x => decide (x = Spec.f n)).length

end Sys2Proof

namespace Sys2Proof.Machine

open Sys2Proof

/-! ### Plans -/

/-- Why an issue unit does not complete now. -/
inductive Stop where
  | stall                         -- it does not issue
  | full                          -- it waits in the stall buffer (R94)
  | wait (w : Wait)               -- it has issued and waits
  | act (f : State → State)       -- it has sent a fault to its service and waits (R138, R368)
  | raise (r : Report)

/-- An instruction's checks and its change. -/
abbrev Plan := State → Except Stop (State → State)

/-- A unit cause of the executing split (R383). -/
def State.unit (s : State) (c : Cause) (info : Nat) : Report := unitReport c info s.mask 0

/-- A plan's answer: a unit cause without INFO. -/
def State.stop {α : Type} (s : State) (c : Cause) : Except Stop α := .error (.raise (s.unit c 0))

/-- A member of an issue unit: its slot, its instruction and its plan. -/
structure Member where
  slot : Nat
  instr : Instr
  plan : Plan

/-! ### Checks that every instruction shares -/

/-- Whether a specifier names a v register in the RELEASED state. -/
def State.isReleased (s : State) (sp : Spec) : Bool :=
  match sp with
  | .v n => decide (s.g.v n = .released)
  | _ => false

/-- Whether a read of the specifier must wait for a value (R92, R177, R214). -/
def State.mustWait (s : State) (pend : List Dst) (sp : Spec) : Bool :=
  (match sp.asDst with
   | some d => pend.contains d
   | none => false) ||
  (match sp with
   | .l _ => s.g.slow.any fun r => r.2.sp == s.cur.split
   | _ => false)

/-- The log entry of an instruction that waits for a fault of its own (R138, R256, R368). -/
def Wait.entry? : Wait → Option Nat
  | .record e _ => some e
  | .fill e => some e
  | _ => none

/-- Whether a split waits for a fault of its instruction's own. -/
def Group.ownFault (g : Group) (x : Split) : Bool :=
  (x.wait.bind Wait.entry?).any fun e => g.log.any fun l => l.1 == e

/-- Whether the instruction must wait for a register or for the operand log (R92). One that has waited has read its
sources when it issued. -/
def State.interlocked (s : State) (i : Instr) : Bool :=
  let pend := s.pending s.cur.group
  (i.dests.any fun d => pend.contains d) ||
  (if s.sp.wait.isSome then s.g.ownFault s.sp
   else (i.srcs.any fun sp => s.mustWait pend sp) || (i.ordersLog && decide (s.g.log ≠ [])))

/-- The feeds that an instruction reads beyond what they hold. -/
def State.shortFeeds (s : State) (i : Instr) : List Nat :=
  (List.range 4).filter fun n => decide ((s.g.feed n).length < i.pops n)

/-- Whether the feed pops of a unit ask for more than a running slice has pushed: it stalls (R161). -/
def State.feedsShort (s : State) (ms : List Member) : Bool :=
  decide (s.g.slice.st = .running) && (List.range 4).any fun n =>
    decide ((s.g.feed n).length < (ms.map fun m => m.instr.pops n).sum)

/-- RRTE of GSTAT (R381). -/
def State.rrte (s : State) : Bool := s.g.gstat.getLsbD 4

/-- The causes that operand reads raise: RELEASED_READ (R170), SHAPE_MISMATCH of a uniform-only source
(R171), FEED_DRAINED (R161). -/
def State.readCauses (s : State) (i : Instr) : List Report :=
  (if s.rrte && i.srcs.any s.isReleased then [s.unit .releasedRead 0] else []) ++
  (if i.uniformOnly.any fun sp => !s.isUniform sp then [s.unit .shapeMismatch 0] else []) ++
  (if s.shortFeeds i ≠ [] ∧ s.g.slice.st ≠ .running then [s.unit .feedDrained 0] else [])

/-- The winning cause (R382): the least rank, of equal ones the first. -/
def winner : List Report → Option Report
  | [] => none
  | r :: rest =>
    match winner rest with
    | none => some r
    | some q => if q.cause.rank < r.cause.rank then some q else some r

/-! ### Effects that every instruction shares -/

/-- GSTAT.RELEASED_READ after the reads of an instruction (R170). -/
def State.markReads (s : State) (i : Instr) : State :=
  if i.srcs.any s.isReleased then s.modG fun g => { g with gstat := g.gstat ||| 1 } else s

/-- A group after `k` pops of feed `n` (R161). -/
def Group.popFeed (g : Group) (n k : Nat) : Group :=
  if k = 0 then g else { g with feeds := g.feeds.set n ((g.feed n).drop k) }

/-- Feed pops (R161). -/
def State.popFeeds (s : State) (i : Instr) : State :=
  (List.range 4).foldl
    (fun s n => if i.pops n = 0 then s else s.modG fun g => g.popFeed n (i.pops n)) s

/-- Whether a map entry is mapped (R167). -/
def VReg.mapped : VReg → Bool
  | .never | .released => false
  | _ => true

/-- Releases a register (R173, R187). -/
def Group.release (g : Group) (n : Nat) : Group :=
  if (g.v n).mapped then { g with vregs := g.vregs.set n .released } else g

/-- The unit that waits in a split, as it issued. -/
def Split.heldNow (x : Split) : Option Held := if x.wait.isSome then x.held else none

/-- Whether the executing split was the group's only one when its unit issued (R173). -/
def State.alone (s : State) : Bool :=
  match s.sp.heldNow with
  | some h => h.alone
  | none => decide (s.g.splits.length = 1)

/-- The state with the registers that the executing unit reads: those of its issue, where it has waited. -/
def State.reading (s : State) : State :=
  match s.sp.heldNow with
  | some h => (s.modG fun g => { g with vregs := h.vregs, oregs := h.oregs, kregs := h.kregs }).modSp fun x =>
      { x with fmt := h.fmt, rmode := h.rmode, l0 := h.l0, l1 := h.l1 }
  | none => s

/-- Last-use releases of an instruction (R173): where its split was the group's only one at issue, not on its own
destinations. -/
def State.releases (s : State) (alone : Bool) (i : Instr) : State :=
  if alone then
    (i.releases.filter fun n => !i.dests.contains (.v n)).foldl (fun s n => s.modG fun g => g.release n) s
  else s

/-- The spilled registers among an instruction's sources (R181). -/
def State.spilledSrcs (s : State) (i : Instr) : List Nat :=
  i.srcs.filterMap fun sp =>
    match sp with
    | .v n =>
      (match s.g.v n with
       | .general _ true => some n
       | _ => none)
    | _ => none

/-- Refills the spilled sources (R181). -/
def State.refill (s : State) (i : Instr) : State :=
  (s.spilledSrcs i).foldl (fun s n => s.modG fun g =>
    match g.v n with
    | .general vals _ => { g with vregs := g.vregs.set n (.general vals false) }
    | _ => g) s

/-- The bundle charge of a pass (R333, R432). -/
def State.chargePass (s : State) : State :=
  if s.sp.charged then s
  else (s.chargeG s.cur.group .bundle 1).modSp fun x => { x with charged := true }

/-- The executing split past its issue unit: still in the bundle, or out of it (R40, R432). -/
def State.advance (s : State) : State :=
  let pc := s.cur.slot + s.cur.len
  if pc / 3 = s.cur.slot / 3 then s.modSp fun x => { x with pc := pc, wait := none }
  else s.modSp fun x => { x with pc := pc, wait := none, entered := none, charged := false }

/-- Whether the executing split is in a bundle that asks for a yield (R39). -/
def State.yieldsAfter (s : State) : Bool :=
  match s.sp.entered with
  | some e => e.yields
  | none => false

/-- SC[3]: the group yields once the split has left the bundle (R39). -/
def State.yieldOut (s : State) (asked : Bool) : State :=
  if asked && s.sp.entered.isNone && s.g.live then s.modG fun g => { g with yielded := true } else s

/-- Arrivals that are due, and the group's issue order. -/
def State.retire (s : State) : State :=
  s.modG fun g => { g.arriveAll with seq := g.seq + 1, stallBuf := none }

/-- The pool slots of some registers. -/
def Group.slotsOf (g : Group) (ds : List Dst) : List Nat :=
  ds.map fun d =>
    match d with
    | .v n => (g.v n).slots
    | _ => 0

/-- The destinations of a unit, in the order of its slots. -/
def destsOf (ms : List Member) : List Dst := ms.flatMap fun m => m.instr.dests

/-- Pool slots that the refills of a unit's sources take, in the order of the slots (R181). -/
def State.refillSlots (s : State) (ms : List Member) : List Nat :=
  ((ms.flatMap fun m => s.spilledSrcs m.instr).eraseDups).map fun n => classSlots (s.g.v n).lanes

/-- The first of some allocations for which a bank with `used` slots in use has no room: what is asked for up to it
(R180). -/
def firstShort (used : Nat) : Nat → List Nat → Option Nat
  | _, [] => none
  | sum, n :: r => if n = 0 ∨ used + sum + n ≤ bankSlots then firstShort used (sum + n) r else some (sum + n)

/-- The same for commits, each of which allocates its new slots and then frees those of the old mapping (R174); `base`
slots are in use before the unit. -/
def commitShort (base : Nat) : Nat → List (Nat × Nat) → Option Nat
  | _, [] => none
  | used, (o, n) :: r =>
    if n = 0 ∨ used + n ≤ bankSlots then commitShort base (used + n - o) r else some (used + n - base)

/-- Whether the live bank of a core has room for further slots (R180). -/
def State.hasRoom (s : State) (c need : Nat) : Bool := decide (s.slotsUsed c + need ≤ bankSlots)

/-- The state as a member of the unit sees it: at its own slot, after the pops of the earlier members. -/
def State.atMember (s : State) (slot : Nat) : State :=
  { s with cur := { s.cur with slot := slot, len := s.cur.slot + s.cur.len - slot } }

/-- The answer of a plan whose operands the feeds do not hold. -/
def heldAnswer (q : Except Stop (State → State)) : Except Stop (State → State) :=
  match q with
  | .error (.raise x) => .error (.raise x)
  | _ => .error .stall

/-- The outcomes of the members' plans, each on the state before the unit with the earlier pops (R41). -/
def State.plans (s : State) : List Member → List (Member × List Report × Except Stop (State → State))
  | [] => []
  | m :: r =>
    let v := s.atMember m.slot
    let q := if v.shortFeeds m.instr = [] then m.plan v else heldAnswer (m.plan v)
    let rs := (if s.sp.wait.isSome then [] else v.readCauses m.instr) ++
      (match q with
       | .error (.raise x) => [x]
       | _ => [])
    (m, rs, q) :: State.plans (s.popFeeds m.instr) r

/-- The first stop that is no cause. -/
def firstStop : List (Member × List Report × Except Stop (State → State)) → Option Stop
  | [] => none
  | (_, _, .error (.raise _)) :: r => firstStop r
  | (_, _, .error e) :: _ => some e
  | (_, _, .ok _) :: r => firstStop r

/-- The members' changes in slot order. -/
def State.commits (s : State) :
    List (Member × List Report × Except Stop (State → State)) → State
  | [] => s
  | (m, _, .ok f) :: r =>
    let cur := s.cur
    let s := f (s.atMember m.slot)
    State.commits { s with cur := cur } r
  | _ :: r => State.commits s r

/-- GSTAT.RELEASED_READ after a unit's reads, which are made as it issues (R170). -/
def State.markUnit (s : State) (ms : List Member) : State :=
  if s.sp.wait.isSome then s else ms.foldl (fun s m => s.markReads m.instr) s

/-- What a unit that issues now reads. -/
def State.heldHere (s : State) : Held :=
  ⟨s.g.vregs, s.g.oregs, s.g.kregs, s.sp.fmt, s.sp.rmode, s.sp.l0, s.sp.l1, decide (s.g.splits.length = 1)⟩

/-- A unit has issued and does not complete yet: its reads are made, and what it has read is kept (R396). -/
def State.beginWait (s : State) (ms : List Member) : State :=
  if s.sp.wait.isSome then s
  else
    let h := s.heldHere
    (s.markUnit ms).modSp fun x => { x with held := some h }

/-- What a unit does to its operands: marks, refills, releases, pops; and the pass charge. -/
def State.take (s : State) (ms : List Member) : State :=
  let alone := s.alone
  let s := s.markUnit ms
  let s := ms.foldl (fun s m => s.refill m.instr) s
  let s := ms.foldl (fun s m => s.releases alone m.instr) s
  let s := ms.foldl (fun s m => s.popFeeds m.instr) s
  s.chargePass

/-- What the unit does before its members' changes, and the move past the unit. -/
def State.prepare (s : State) (ms : List Member) : State := (s.take ms).advance

/-- The group of a core's live bank whose allocation comes next, with what it asks for: it stalls until that fits (R180). -/
def State.asker (s : State) (c : Nat) : Option (Nat × Nat) :=
  (s.core c).requester.filter fun r => (s.group r.1).live && decide ((s.group r.1).bank = .live)

/-- Whether an allocation of a group has another's before it: a core decides them in the order in which they arise. -/
def State.afterAsker (s : State) (g : Nat) (takes : Bool) : Bool :=
  takes && (s.asker (s.coreOf g)).any fun r => decide (r.1 ≠ g)

/-- An allocation of a group that does not fit: the core keeps what it asks for (R180). -/
def State.askFor (s : State) (g need : Nat) : State :=
  let c := s.coreOf g
  s.setCore c { s.core c with requester := some (g, need) }

/-- A group has made its allocation, from `s` to `t`: what it asked for is asked no more. -/
def State.served (t s : State) (g : Nat) : State :=
  let c := s.coreOf g
  match (s.core c).requester with
  | some (r, _) => if r = g then t.setCore c { t.core c with requester := none } else t
  | none => t

/-- A unit whose allocations do not fit: the group stalls (R180). -/
def State.askRoom (s : State) (need : Nat) : State := s.askFor s.cur.group need

/-- What the commit of some destinations of a group, which becomes `gr`, asks for where the live bank has no room for
it (R174, R180): none where it fits, or where the group is in no live bank. -/
def State.commitNeed (s : State) (g : Nat) (gr : Group) (ds : List Dst) : Option Nat :=
  if (s.group g).live && decide ((s.group g).bank = .live) then
    let u := s.slotsUsed (s.coreOf g)
    commitShort u u (((s.group g).slotsOf ds).zip (gr.slotsOf ds))
  else none

/-- Why a commit beyond the group's issue units does not happen now: its turn has not come (`some none`), or there is no
room for it (`some (some n)`, what it asks for); none where it may (R174, R180). -/
def State.commitStop (s : State) (g : Nat) (gr : Group) (ds : List Dst) : Option (Option Nat) :=
  if (s.group g).live && decide ((s.group g).bank = .live) && s.afterAsker g ((gr.slotsOf ds).any fun n => decide (0 < n)) then
    some none
  else (s.commitNeed g gr ds).map some

/-- A group whose commit does not happen now. -/
def State.awaitRoom (s : State) (g : Nat) (n : Option Nat) : State :=
  match n with
  | some n => s.askFor g n
  | none => s

/-- The members in the order of their changes: slot order, but FLAGS.clr first, since an OR of the same
cycle is applied after the clear (R244), and a member that redirects last, since the members of its chain execute
with it, under the mask of the split that issues (R40, R41). -/
def changeOrder (ps : List (Member × List Report × Except Stop (State → State))) :
    List (Member × List Report × Except Stop (State → State)) :=
  let clr := fun (p : Member × List Report × Except Stop (State → State)) =>
    match p.1.instr with
    | .flagsClr _ _ => true
    | _ => false
  let red := fun (p : Member × List Report × Except Stop (State → State)) => p.1.instr.redirects
  ps.filter clr ++ (ps.filter fun p => !clr p && !red p) ++ ps.filter red

/-- A unit's change: the state once its operands are taken, and the state after its members' changes. -/
def State.unitChange (s : State) (ms : List Member)
    (ps : List (Member × List Report × Except Stop (State → State))) : State × State :=
  let s1 := s.prepare ms
  (s1, s1.commits (changeOrder ps))

/-- What a unit asks for where an allocation of it does not fit (R180): the refills of its sources come first, then,
after the releases, its destinations. -/
def State.unitNeed (s : State) (ms : List Member) (q : State × State) : Option Nat :=
  let c := s.coreOf s.cur.group
  match firstShort (s.slotsUsed c) 0 (s.refillSlots ms) with
  | some n => some n
  | none =>
    if q.2.g.live then
      commitShort (s.slotsUsed c) (q.1.slotsUsed c) ((q.1.g.slotsOf (destsOf ms)).zip (q.2.g.slotsOf (destsOf ms)))
    else none

/-- Whether a unit's allocations fit (R180). -/
def State.unitFits (s : State) (ms : List Member) (q : State × State) : Bool := (s.unitNeed ms q).isNone

/-- Whether a unit whose change is known takes slots of the pool (R174, R181). -/
def State.unitTakes (s : State) (ms : List Member) (q : State × State) : Bool :=
  (s.refillSlots ms ++ q.2.g.slotsOf (destsOf ms)).any fun n => decide (0 < n)

/-- Whether a unit that takes slots has another group's allocation before it (R180). -/
def State.unitAfter (s : State) (ms : List Member) (q : State × State) : Bool :=
  s.afterAsker s.cur.group (s.unitTakes ms q)

/-- Completes a unit, where its allocations fit and no other comes before them (R180). -/
def State.complete (s : State) (ms : List Member)
    (ps : List (Member × List Report × Except Stop (State → State))) : State :=
  let q := s.unitChange ms ps
  if s.unitAfter ms q then s
  else
    match s.unitNeed ms q with
    | none => ((q.2.yieldOut s.yieldsAfter).retire).served s s.cur.group
    | some n => s.askRoom n

/-- Where a chain is cut in two: an instruction that waits for the group's earlier work comes after members of its own
chain that begin such work (R280, R318, R320, R377). How many members go first: up to the last of those. A chain whose first
part would redirect is not cut (DESIGN CHOICE, log entry 142). -/
def cutAt (ms : List Member) : Option Nat :=
  let is := ms.zipIdx
  let n := (is.filterMap fun o =>
    if o.1.instr.looksBack then
      ((is.filter fun m => decide (m.2 < o.2) && m.1.instr.leavesWork).getLast?).map fun m => m.2 + 1
    else none).head?
  n.filter fun n => !(ms.take n).any fun m => m.instr.redirects

/-- The first part of a chain that is cut: what it changes, before its members' changes and after them. -/
def State.partChange (s : State) (ms : List Member)
    (ps : List (Member × List Report × Except Stop (State → State))) : State × State :=
  let s1 := s.take ms
  (s1, s1.commits (changeOrder ps))

/-- The first part of a chain has issued: the split stands at the rest of it, which has read its operands with it. -/
def State.completePart (s : State) (ms : List Member)
    (ps : List (Member × List Report × Except Stop (State → State))) (next : Nat) : State :=
  let h := { s.reading.heldHere with alone := s.alone }
  let q := s.partChange ms ps
  if s.unitAfter ms q then s
  else
    match s.unitNeed ms q with
    | none => (q.2.modSp fun x => { x with pc := next, wait := some .rest, held := some h }).served s s.cur.group
    | some n => s.askRoom n

/-- A unit that issues, or its first part: the members, their plans, and the slot of the rest. -/
def cutUnit (ms : List Member) (ps : List (Member × List Report × Except Stop (State → State))) :
    List (Member × List Report × Except Stop (State → State)) × List Member × Option Nat :=
  match cutAt ms with
  | none => (ps, ms, none)
  | some n => (ps.take n, ms.take n, (ms[n]?).map (·.slot))

/-- Issues a unit in the executing split (R40 to R43, R386). -/
def State.issueUnit (s : State) (ms : List Member) : State :=
  if (ms.any fun m => s.interlocked m.instr) || s.feedsShort ms then s
  else
    let ps := s.reading.plans ms
    match winner (ps.flatMap fun p => p.2.1) with
    | some r => (s.markUnit ms).chargePass.raise r
    | none =>
      let u := cutUnit ms ps
      match firstStop u.1 with
      | some (.wait w) => (s.beginWait ms).chargePass.modSp fun x => { x with wait := some w }
      | some (.act f) => f (s.beginWait ms).chargePass
      | some .full => s.modG fun g => { g with stallBuf := some s.cur.split }
      | some _ => s
      | none =>
        match u.2.2 with
        | none => s.complete ms ps
        | some next => s.completePart u.2.1 u.1 next

/-- Issues one instruction as a unit of its own. -/
def issue (i : Instr) (p : Plan) (s : State) : Host.Outcome State Fault Refusal :=
  .next (s.issueUnit [⟨s.cur.slot, i, p⟩])

end Sys2Proof.Machine
end

