-- ==== Sys2Proof/Machine/Vector.lean ====
section
/-! DEFINITION. What the VA and VB instructions share: a result of the plan, with its shape, its flags and,
where the unit has a slow path, the oracle's choice of it (R211, R214, R244). -/

namespace Sys2Proof

/-- Whether a destination is a v register. -/
def Dst.isV : Dst → Bool
  | .v _ => true
  | _ => false

/-- Whether a destination is a k register. -/
def Dst.isK : Dst → Bool
  | .k _ => true
  | _ => false

end Sys2Proof

namespace Sys2Proof.Machine

open Sys2Proof

/-- A vector result: a k destination takes uniform results alone (R175). -/
def State.putVec (s : State) (d : Dst) (sh : Sh) (vals : Lanes) : Except Stop (State → State) :=
  if d.isK && decide (sh ≠ .uniform) then s.stop .shapeMismatch
  else .ok fun t => t.writeVec d sh vals

/-- A vector result with flags. -/
def State.putFl (s : State) (d : Dst) (sh : Sh) (vals : Lanes) (fl : Word) : Except Stop (State → State) :=
  if d.isK && decide (sh ≠ .uniform) then s.stop .shapeMismatch
  else .ok fun t => (t.writeVec d sh vals).orFlags fl

/-- What a destination holds after a commit under a mask. -/
def Group.after (g : Group) (m : Word) (d : Dst) (sh : Sh) (new : Lanes) : VReg :=
  match d with
  | .v n => commitReg m sh new (g.v n)
  | .o n => .general (mergeLanes m new (g.o n)) false
  | .k _ => .uniform (new.get (lowestLane m))

/-- The mapping that a v destination receives at the issue of an instruction whose values come later: its state is the
result's (R91, R184, R188), its values are the old ones. -/
def Group.awaiting (g : Group) (d : Dst) (m : Word) (sh : Sh) : Group :=
  match d with
  | .v n => { g with vregs := g.vregs.set n (commitReg m sh (g.v n).lanes (g.v n)) }
  | _ => g

/-- The result goes to the slow path (R214): the destination waits for it, its flags come with it, and the
last-result pair takes the value that a read of it waits for (R177). -/
def State.slowVec (s : State) (d : Dst) (sh : Sh) (vals : Lanes) (fl : Word) : State :=
  let r := s.g.after s.mask d sh vals
  let w : SlowResult :=
    { slot := s.cur.slot, mask := s.mask, dest := d, reg := r, flags := fl, sp := s.cur.split }
  let s := s.modSp fun x => { x with l1 := x.l0, l0 := r.lanes }
  s.modG fun g => { g.awaiting d s.mask sh with slow := g.slow.set (3 * g.seq + s.cur.slot % 3) w }

/-- A vector result of a unit with a slow path: the oracle says which path the input takes (R214). -/
def State.putSlow (s : State) (d : Dst) (sh : Sh) (vals : Lanes) (fl : Word) : Except Stop (State → State) :=
  if d.isK && decide (sh ≠ .uniform) then s.stop .shapeMismatch
  else .ok fun t =>
    if t.choice then t.chosen.slowVec d sh vals fl
    else (t.chosen.writeVec d sh vals).orFlags fl

/-- A lane-wise operation on one operand. -/
def map1 (f : Word → Word) (a : Opnd) : Lanes := Lanes.ofFn fun i => f (a.vals.get i)
/-- A lane-wise operation on two operands. -/
def map2 (f : Word → Word → Word) (a b : Opnd) : Lanes := Lanes.ofFn fun i => f (a.vals.get i) (b.vals.get i)
/-- A lane-wise operation on three operands. -/
def map3 (f : Word → Word → Word → Word) (a b c : Opnd) : Lanes :=
  Lanes.ofFn fun i => f (a.vals.get i) (b.vals.get i) (c.vals.get i)

/-- A plan of one lane-wise source. -/
def plan1 (d : Dst) (a : Src) (sh : Opnd → Sh) (f : Word → Word) : Plan := fun s =>
  let x := s.rd a
  s.putVec d (sh x) (map1 f x)

/-- A plan of two lane-wise sources. -/
def plan2 (d : Dst) (a b : Src) (sh : Opnd → Opnd → Sh) (f : Word → Word → Word) : Plan := fun s =>
  let x := s.rd a
  let y := s.rd2 a b
  s.putVec d (sh x y) (map2 f x y)

/-- A plan of three lane-wise sources. -/
def plan3 (d : Dst) (a b : Src) (c : CSrc) (f : Word → Word → Word → Word) : Plan := fun s =>
  let x := s.rd a
  let y := s.rd2 a b
  let z := s.rdc c
  s.putVec d (shapeOf [x, y, z]) (map3 f x y z)

/-- The shape of a one-source result under rules 3 and 10. -/
def shape1 (x : Opnd) : Sh := shapeOf [x]
/-- The shape of a two-source result under rules 3 and 10. -/
def shape2 (x y : Opnd) : Sh := shapeOf [x, y]

/-- The word of a comparison's lane: all ones or zero. -/
def truth (p : Bool) : Word := if p then 0xFFFFFFFF else 0

/-- A comparison's result (R216, R225): lane words, or for a k destination the ballot of the active lanes,
which is uniform whatever the mask. -/
def State.putCompare (s : State) (d : Dst) (sh : Sh) (p : Nat → Bool) : Except Stop (State → State) :=
  if d.isK then s.putVec d .uniform (Lanes.splat (maskOf fun i => s.active i && p i))
  else s.putVec d sh (Lanes.ofFn fun i => truth (p i))

end Sys2Proof.Machine
end

