-- ==== Sys2Proof/Machine/Float.lean ====
section
/-! DEFINITION. Float, transcendental and pair instructions (R222 to R228). -/

namespace Sys2Proof

/-- The element format of a float block (R222). -/
def FBlk.fmt : FBlk → Machine.FFmt
  | .f32 => .fp32
  | .h2bf16 => .bf16
  | .h2fp16 => .fp16

/-- Elements per word. -/
def FBlk.count : FBlk → Nat
  | .f32 => 1
  | _ => 2

/-- The pattern of element `j` of a word (R190). -/
def FBlk.elem (f : FBlk) (w : Word) (j : Nat) : Nat :=
  match f with
  | .f32 => w.toNat
  | _ => w.toNat / 2 ^ (16 * j) % 65536

/-- The value of element `j` of a word. -/
def FBlk.val (f : FBlk) (w : Word) (j : Nat) : Machine.Val := f.fmt.value (f.elem w j)

/-- The word whose elements `p` gives, and the OR of their flags. -/
def FBlk.build (f : FBlk) (p : Nat → Nat × Word) : Word × Word :=
  match f with
  | .f32 => (BitVec.ofNat 32 (p 0).1, (p 0).2)
  | _ => (BitVec.ofNat 32 ((p 0).1 + 65536 * (p 1).1), (p 0).2 ||| (p 1).2)

end Sys2Proof

namespace Sys2Proof.Machine

open Sys2Proof

/-- The rounding context of the executing instruction for element index `e` (R201, R208, R212). -/
def State.ctxAt (s : State) (r : RSel) (e : Nat) : Ctx :=
  (Ctx.ofRegs s.sp.rmode s.sp.fmt (s.cur.slot % 2 ^ 32 * 65536 + e)).select r

/-- An operation on values: what it gives, and the flags of its special cases. -/
abbrev ValOp := Ctx → Val → Val → Val → Val × Word

/-- One element: the operation's value rounded once to the element format (R222, R223). -/
def roundElem (f : FBlk) (c : Ctx) (x : Val × Word) : Nat × Word :=
  let y := roundFlt f.fmt c x.1
  (y.1, y.2 ||| x.2)

/-- One lane of a float operation on up to three operands. -/
def State.floatLane (s : State) (f : FBlk) (r : RSel) (op : ValOp) (x y z : Opnd) (i : Nat) : Word × Word :=
  f.build fun j =>
    let c := s.ctxAt r (i * f.count + j)
    roundElem f c (op c (f.val (x.vals.get i) j) (f.val (y.vals.get i) j) (f.val (z.vals.get i) j))

/-- What the plan of a float operation does with the lane values, their shape and flags. -/
abbrev Put := State → Dst → Sh → Lanes → Word → Except Stop (State → State)

/-- A plan of a float operation of one source. -/
def float1 (put : Put) (f : FBlk) (r : RSel) (op : Val → Val × Word) (d : Dst) (a : Src) : Plan := fun s =>
  let x := s.rd a
  let q := lanesFl s.mask (s.floatLane f r (fun _ v _ _ => op v) x x x)
  put s d (shapeOf [x]) q.1 q.2

/-- A plan of a float operation of two sources. -/
def float2 (put : Put) (f : FBlk) (r : RSel) (op : Ctx → Val → Val → Val × Word) (d : Dst) (a b : Src) :
    Plan := fun s =>
  let x := s.rd a
  let y := s.rd2 a b
  let q := lanesFl s.mask (s.floatLane f r (fun c v w _ => op c v w) x y y)
  put s d (shapeOf [x, y]) q.1 q.2

/-- Whether the mode rounds down: the sign of an exact zero sum (R202). -/
def Ctx.down (c : Ctx) : Bool := decide (c.mode = .rdn)

/-- FMIN and FMAX of two patterns (R224): −0 below +0, a single NaN gives the other operand. -/
def minMax (f : FFmt) (less : Bool) (p q : Nat) : Nat :=
  let a := f.value p
  let b := f.value q
  match cmpVal a b with
  | none => if a = .nan then (if b = .nan then f.nan else q) else p
  | some .lt => if less then p else q
  | some .gt => if less then q else p
  | some .eq => if a.neg = less then p else q

/-- Whether a comparison of R225 holds. -/
def fcmpHolds (cc : FCc) (a b : Val) : Bool :=
  match cmpVal a b with
  | none => decide (cc = .ne) || decide (cc = .un)
  | some o =>
    match cc with
    | .eq => decide (o = .eq)
    | .ne => decide (o ≠ .eq)
    | .lt => decide (o = .lt)
    | .le => decide (o ≠ .gt)
    | .gt => decide (o = .gt)
    | .ge => decide (o ≠ .lt)
    | .un => false

/-- The class bit of a pattern (R226). -/
def classBit (f : FFmt) (p : Nat) : Nat :=
  let neg := decide (2 ^ (f.e + f.m) ≤ p)
  let mag := p % 2 ^ (f.e + f.m)
  if f.value p = .nan then 8
  else if mag = f.infPat then (if neg then 0 else 7)
  else if mag = 0 then (if neg then 3 else 4)
  else if mag < 2 ^ f.m then (if neg then 2 else 5)
  else (if neg then 1 else 6)

/-- FROUND of a pattern (R227). -/
def roundIntegral (f : FFmt) (c : Ctx) (p : Nat) : Nat :=
  match f.value p with
  | .nan => f.nan
  | .inf _ => p
  | .fin x =>
    if cmpExact { x with neg := false } ⟨false, 1, f.m, false⟩ = .lt then
      (roundFlt f Ctx.rne (Val.of x.neg (choose x 0 c).n 0)).1
    else p

/-- A lane-wise operation on the elements of one source, without flags. -/
def pattern1 (f : FBlk) (op : Nat → Nat → Nat) (x : Opnd) : Lanes :=
  Lanes.ofFn fun i => (f.build fun j => (op (i * f.count + j) (f.elem (x.vals.get i) j), 0)).1

/-- A lane-wise operation on the elements of two sources, without flags. -/
def pattern2 (f : FBlk) (op : Nat → Nat → Nat) (x y : Opnd) : Lanes :=
  Lanes.ofFn fun i =>
    (f.build fun j => (op (f.elem (x.vals.get i) j) (f.elem (y.vals.get i) j), 0)).1

/-- A pair result in d, d + 1 (R228): each register under its own commit, l0 from the first. -/
def State.putPair (d : Nat) (sh : Sh) (f : Nat → Pair × Word) (m : Word) :
    Except Stop (State → State) :=
  .ok fun t =>
    let t := t.writeVec (.v d) sh (Lanes.ofFn fun i => (f i).1.s)
    let t := t.writeDst (.v (d + 1)) sh (Lanes.ofFn fun i => (f i).1.c)
    t.orFlags (laneFlags m fun i => (f i).2)

/-! ### Meanings -/

/-- FADD (R223). -/
def planFadd (f : FBlk) (r : RSel) (d : Dst) (a b : Src) : Plan := float2 State.putFl f r (fun c x y => addVal c.down x y) d a b
def execFadd (f : FBlk) (r : RSel) (d : Dst) (a b : Src) (s : State) : Host.Outcome State Fault Refusal :=
  issue (.fadd f r d a b) (planFadd f r d a b) s

/-- FSUB (R223). -/
def planFsub (f : FBlk) (r : RSel) (d : Dst) (a b : Src) : Plan := float2 State.putFl f r (fun c x y => addVal c.down x y.negate) d a b
def execFsub (f : FBlk) (r : RSel) (d : Dst) (a b : Src) (s : State) : Host.Outcome State Fault Refusal :=
  issue (.fsub f r d a b) (planFsub f r d a b) s

/-- FMUL (R223). -/
def planFmul (f : FBlk) (r : RSel) (d : Dst) (a b : Src) : Plan := float2 State.putFl f r (fun _ x y => mulVal x y) d a b
def execFmul (f : FBlk) (r : RSel) (d : Dst) (a b : Src) (s : State) : Host.Outcome State Fault Refusal :=
  issue (.fmul f r d a b) (planFmul f r d a b) s

/-- FFMA (R222, R223): one rounding, under RMODE. -/
def planFfma (f : FBlk) (d : Dst) (a b : Src) (c : CSrc) : Plan := fun s =>
  let x := s.rd a
  let y := s.rd2 a b
  let z := s.rdc c
  let q := lanesFl s.mask (s.floatLane f .dflt (fun k u v w => fmaVal k.down u v w) x y z)
  s.putFl d (shapeOf [x, y, z]) q.1 q.2
def execFfma (f : FBlk) (d : Dst) (a b : Src) (c : CSrc) (s : State) : Host.Outcome State Fault Refusal :=
  issue (.ffma f d a b c) (planFfma f d a b c) s

/-- FMIN (R224). -/
def planFmin (f : FBlk) (d : Dst) (a b : Src) : Plan := fun s =>
  let x := s.rd a
  let y := s.rd2 a b
  s.putVec d (shapeOf [x, y]) (pattern2 f (minMax f.fmt true) x y)
def execFmin (f : FBlk) (d : Dst) (a b : Src) (s : State) : Host.Outcome State Fault Refusal :=
  issue (.fmin f d a b) (planFmin f d a b) s

/-- FMAX (R224). -/
def planFmax (f : FBlk) (d : Dst) (a b : Src) : Plan := fun s =>
  let x := s.rd a
  let y := s.rd2 a b
  s.putVec d (shapeOf [x, y]) (pattern2 f (minMax f.fmt false) x y)
def execFmax (f : FBlk) (d : Dst) (a b : Src) (s : State) : Host.Outcome State Fault Refusal :=
  issue (.fmax f d a b) (planFmax f d a b) s

/-- FCMP (R225). -/
def planFcmp (f : FBlk) (cc : FCc) (d : Dst) (a b : Src) : Plan := fun s =>
  let x := s.rd a
  let y := s.rd2 a b
  if f = .f32 then
    s.putCompare d (shapeOf [x, y]) fun i => fcmpHolds cc (f.val (x.vals.get i) 0) (f.val (y.vals.get i) 0)
  else
    s.putVec d (shapeOf [x, y])
      (pattern2 f (fun p q => if fcmpHolds cc (f.fmt.value p) (f.fmt.value q) then 0xFFFF else 0) x y)
def execFcmp (f : FBlk) (cc : FCc) (d : Dst) (a b : Src) (s : State) : Host.Outcome State Fault Refusal :=
  issue (.fcmp f cc d a b) (planFcmp f cc d a b) s

/-- FCLASS (R226). -/
def planFclass (f : FBlk) (d : Dst) (a : Src) : Plan := fun s =>
  let x := s.rd a
  s.putVec d (shapeOf [x]) (pattern1 f (fun _ p => 2 ^ classBit f.fmt p) x)
def execFclass (f : FBlk) (d : Dst) (a : Src) (s : State) : Host.Outcome State Fault Refusal :=
  issue (.fclass f d a) (planFclass f d a) s

/-- FROUND (R227). -/
def planFround (f : FBlk) (r : RSel) (d : Dst) (a : Src) : Plan := fun s =>
  let x := s.rd a
  s.putVec d (shapeOf [x]) (pattern1 f (fun e p => roundIntegral f.fmt (s.ctxAt r e) p) x)
def execFround (f : FBlk) (r : RSel) (d : Dst) (a : Src) (s : State) : Host.Outcome State Fault Refusal :=
  issue (.fround f r d a) (planFround f r d a) s

/-- FDIV (R214, R223). -/
def planFdiv (f : FBlk) (r : RSel) (d : Dst) (a b : Src) : Plan := float2 State.putSlow f r (fun _ x y => divVal x y) d a b
def execFdiv (f : FBlk) (r : RSel) (d : Dst) (a b : Src) (s : State) : Host.Outcome State Fault Refusal :=
  issue (.fdiv f r d a b) (planFdiv f r d a b) s

/-- FSQRT (R214, R223). -/
def planFsqrt (f : FBlk) (r : RSel) (d : Dst) (a : Src) : Plan := float1 State.putSlow f r sqrtVal d a
def execFsqrt (f : FBlk) (r : RSel) (d : Dst) (a : Src) (s : State) : Host.Outcome State Fault Refusal :=
  issue (.fsqrt f r d a) (planFsqrt f r d a) s

/-- FRCP (R214, R223). -/
def planFrcp (f : FBlk) (r : RSel) (d : Dst) (a : Src) : Plan := float1 State.putSlow f r rcpVal d a
def execFrcp (f : FBlk) (r : RSel) (d : Dst) (a : Src) (s : State) : Host.Outcome State Fault Refusal :=
  issue (.frcp f r d a) (planFrcp f r d a) s

/-- FRSQ (R214, R223). -/
def planFrsq (f : FBlk) (r : RSel) (d : Dst) (a : Src) : Plan := float1 State.putSlow f r rsqVal d a
def execFrsq (f : FBlk) (r : RSel) (d : Dst) (a : Src) (s : State) : Host.Outcome State Fault Refusal :=
  issue (.frsq f r d a) (planFrsq f r d a) s

/-- FEXP (R214, R223). -/
def planFexp (f : FBlk) (r : RSel) (d : Dst) (a : Src) : Plan := float1 State.putSlow f r (expVal false) d a
def execFexp (f : FBlk) (r : RSel) (d : Dst) (a : Src) (s : State) : Host.Outcome State Fault Refusal :=
  issue (.fexp f r d a) (planFexp f r d a) s

/-- FEXP2 (R214, R223). -/
def planFexp2 (f : FBlk) (r : RSel) (d : Dst) (a : Src) : Plan := float1 State.putSlow f r (expVal true) d a
def execFexp2 (f : FBlk) (r : RSel) (d : Dst) (a : Src) (s : State) : Host.Outcome State Fault Refusal :=
  issue (.fexp2 f r d a) (planFexp2 f r d a) s

/-- FLOG (R214, R223). -/
def planFlog (f : FBlk) (r : RSel) (d : Dst) (a : Src) : Plan := float1 State.putSlow f r (logVal false) d a
def execFlog (f : FBlk) (r : RSel) (d : Dst) (a : Src) (s : State) : Host.Outcome State Fault Refusal :=
  issue (.flog f r d a) (planFlog f r d a) s

/-- FLOG2 (R214, R223). -/
def planFlog2 (f : FBlk) (r : RSel) (d : Dst) (a : Src) : Plan := float1 State.putSlow f r (logVal true) d a
def execFlog2 (f : FBlk) (r : RSel) (d : Dst) (a : Src) (s : State) : Host.Outcome State Fault Refusal :=
  issue (.flog2 f r d a) (planFlog2 f r d a) s

/-- FSIN (R214, R223). -/
def planFsin (f : FBlk) (r : RSel) (d : Dst) (a : Src) : Plan := float1 State.putSlow f r (trigVal false) d a
def execFsin (f : FBlk) (r : RSel) (d : Dst) (a : Src) (s : State) : Host.Outcome State Fault Refusal :=
  issue (.fsin f r d a) (planFsin f r d a) s

/-- FCOS (R214, R223). -/
def planFcos (f : FBlk) (r : RSel) (d : Dst) (a : Src) : Plan := float1 State.putSlow f r (trigVal true) d a
def execFcos (f : FBlk) (r : RSel) (d : Dst) (a : Src) (s : State) : Host.Outcome State Fault Refusal :=
  issue (.fcos f r d a) (planFcos f r d a) s

/-- FTANH (R214, R223). -/
def planFtanh (f : FBlk) (r : RSel) (d : Dst) (a : Src) : Plan := float1 State.putSlow f r tanhVal d a
def execFtanh (f : FBlk) (r : RSel) (d : Dst) (a : Src) (s : State) : Host.Outcome State Fault Refusal :=
  issue (.ftanh f r d a) (planFtanh f r d a) s

/-- TWOSUM (R205, R228). -/
def planTwosum (d : Nat) (a b : Src) : Plan := fun s =>
  let x := s.rd a
  let y := s.rd2 a b
  State.putPair d (shapeOf [x, y]) (fun i => twoSum (x.vals.get i) (y.vals.get i)) s.mask
def execTwosum (d : Nat) (a b : Src) (s : State) : Host.Outcome State Fault Refusal :=
  issue (.twosum d a b) (planTwosum d a b) s

/-- TWOPROD (R205, R228). -/
def planTwoprod (d : Nat) (a b : Src) : Plan := fun s =>
  let x := s.rd a
  let y := s.rd2 a b
  State.putPair d (shapeOf [x, y]) (fun i => twoProd (x.vals.get i) (y.vals.get i)) s.mask
def execTwoprod (d : Nat) (a b : Src) (s : State) : Host.Outcome State Fault Refusal :=
  issue (.twoprod d a b) (planTwoprod d a b) s

/-- PADD (R206, R228). -/
def planPadd (d : Nat) (a b : Src) : Plan := fun s =>
  let x0 := s.rd a
  let x1 := s.rd (a.next 1)
  let y0 := s.rd b
  let y1 := s.rd (b.next 1)
  State.putPair d (shapeOf [x0, x1, y0, y1])
    (fun i => pairAdd ⟨x0.vals.get i, x1.vals.get i⟩ ⟨y0.vals.get i, y1.vals.get i⟩) s.mask
def execPadd (d : Nat) (a b : Src) (s : State) : Host.Outcome State Fault Refusal :=
  issue (.padd d a b) (planPadd d a b) s

/-- PNORM (R206, R228). -/
def planPnorm (d : Nat) (a : Src) : Plan := fun s =>
  let x0 := s.rd a
  let x1 := s.rd (a.next 1)
  State.putPair d (shapeOf [x0, x1]) (fun i => pairNorm ⟨x0.vals.get i, x1.vals.get i⟩) s.mask
def execPnorm (d : Nat) (a : Src) (s : State) : Host.Outcome State Fault Refusal :=
  issue (.pnorm d a) (planPnorm d a) s

end Sys2Proof.Machine
end

