-- ==== Sys2Proof/Machine/Integer.lean ====
section
/-! DEFINITION. Integer and logic instructions (R183, R215 to R221). -/

namespace Sys2Proof

/-- A word read as `sg` says (R210). -/
def Sgn.read : Sgn → Word → Int
  | .s32, w => w.toInt
  | .u32, w => (w.toNat : Int)

/-- The least value of a reading. -/
def Sgn.lo : Sgn → Int
  | .s32 => -2 ^ 31
  | .u32 => 0

/-- The greatest value of a reading. -/
def Sgn.hi : Sgn → Int
  | .s32 => 2 ^ 31 - 1
  | .u32 => 2 ^ 32 - 1

end Sys2Proof

namespace Sys2Proof.Machine

open Sys2Proof

/-! ### Word operations (R215 to R220) -/

/-- An integer clamped to a reading's range and reduced to a word. -/
def clampWord (sg : Sgn) (x : Int) : Word := BitVec.ofInt 32 (max sg.lo (min sg.hi x))

/-- IADDS: the sum, clamped. -/
def addSat (sg : Sgn) (a b : Word) : Word := clampWord sg (sg.read a + sg.read b)
/-- ISUBS: the difference, clamped. -/
def subSat (sg : Sgn) (a b : Word) : Word := clampWord sg (sg.read a - sg.read b)
/-- IMULH: the product's high word. -/
def mulHigh (sg : Sgn) (a b : Word) : Word := BitVec.ofInt 32 (sg.read a * sg.read b / 2 ^ 32)
/-- IMIN. -/
def minWord (sg : Sgn) (a b : Word) : Word := if sg.read a ≤ sg.read b then a else b
/-- IMAX. -/
def maxWord (sg : Sgn) (a b : Word) : Word := if sg.read a ≤ sg.read b then b else a
/-- IABS. -/
def absWord (a : Word) : Word := if a.msb then -a else a
/-- SHR: zero for a count of 32 or more. -/
def shrWord (a n : Word) : Word := if n.toNat < 32 then a >>> n.toNat else 0
/-- SAR: the count is at most 31. -/
def sarWord (a n : Word) : Word := a.sshiftRight (min n.toNat 31)
/-- ROTL. -/
def rotlWord (a n : Word) : Word := a.rotateLeft (n.toNat % 32)
/-- POPC. -/
def popcWord (a : Word) : Word := BitVec.ofNat 32 ((List.range 32).filter fun i => a.getLsbD i).length
/-- CLZ: 32 for zero. -/
def clzWord (a : Word) : Word :=
  BitVec.ofNat 32 (((List.range 32).find? fun i => a.getLsbD (31 - i)).getD 32)
/-- BREV. -/
def brevWord (a : Word) : Word := maskOf fun i => a.getLsbD (31 - i)

/-- The elements of a packed word, element 0 lowest, as unsigned numbers (R190). -/
def elemU (w : Nat) (a : Word) (j : Nat) : Nat := a.toNat / 2 ^ (w * j) % 2 ^ w
/-- An element as a signed number (R190). -/
def elemS (w : Nat) (a : Word) (j : Nat) : Int := sext w (elemU w a j)

/-- The products that IDOT4 sums (R218). -/
def dotSum (f : DotF) (a b : Word) : Int :=
  match f with
  | .s8s8 => ((List.range 4).map fun j => elemS 8 a j * elemS 8 b j).sum
  | .u8u8 => ((List.range 4).map fun j => (elemU 8 a j * elemU 8 b j : Int)).sum
  | .s8u8 => ((List.range 4).map fun j => elemS 8 a j * (elemU 8 b j : Int)).sum
  | .s4s4 => ((List.range 8).map fun j => elemS 4 a j * elemS 4 b j).sum

/-- IDOT4. -/
def dotWord (f : DotF) (a b c : Word) : Word := c + BitVec.ofInt 32 (dotSum f a b)

/-- BFE (R219). -/
def bfeWord (sgn : Bool) (pos len : Nat) (a : Word) : Word :=
  let x := a.toNat / 2 ^ pos % 2 ^ len
  if sgn then BitVec.ofInt 32 (sext len x) else BitVec.ofNat 32 x

/-- BFI (R220). -/
def bfiWord (a b c : Word) : Word :=
  let p := c.toNat % 32
  let n := min (c.toNat / 256 % 64) 32
  maskOf fun i => if p ≤ i ∧ i < p + n then b.getLsbD (i - p) else a.getLsbD i

/-- Whether a comparison of R216 holds. -/
def icmpHolds (cc : ICc) (a b : Word) : Bool :=
  match cc with
  | .eq => a == b
  | .ne => a != b
  | .lts => decide (a.toInt < b.toInt)
  | .les => decide (a.toInt ≤ b.toInt)
  | .gts => decide (b.toInt < a.toInt)
  | .ges => decide (b.toInt ≤ a.toInt)
  | .ltu => decide (a.toNat < b.toNat)
  | .leu => decide (a.toNat ≤ b.toNat)
  | .gtu => decide (b.toNat < a.toNat)
  | .geu => decide (b.toNat ≤ a.toNat)

/-! ### Meanings -/

/-- IADD (R215): the sum modulo 2³², affine under rules 4 and 5. -/
def planIadd (d : Dst) (a b : Src) : Plan := plan2 d a b shapeAdd (· + ·)
def execIadd (d : Dst) (a b : Src) (s : State) : Host.Outcome State Fault Refusal :=
  issue (.iadd d a b) (planIadd d a b) s

/-- ISUB (R215): the difference modulo 2³², affine under rules 4 and 5. -/
def planIsub (d : Dst) (a b : Src) : Plan := plan2 d a b shapeSub (· - ·)
def execIsub (d : Dst) (a b : Src) (s : State) : Host.Outcome State Fault Refusal :=
  issue (.isub d a b) (planIsub d a b) s

/-- IADDS (R215). -/
def planIadds (sg : Sgn) (d : Dst) (a b : Src) : Plan := plan2 d a b shape2 (addSat sg)
def execIadds (sg : Sgn) (d : Dst) (a b : Src) (s : State) : Host.Outcome State Fault Refusal :=
  issue (.iadds sg d a b) (planIadds sg d a b) s

/-- ISUBS (R215). -/
def planIsubs (sg : Sgn) (d : Dst) (a b : Src) : Plan := plan2 d a b shape2 (subSat sg)
def execIsubs (sg : Sgn) (d : Dst) (a b : Src) (s : State) : Host.Outcome State Fault Refusal :=
  issue (.isubs sg d a b) (planIsubs sg d a b) s

/-- IMUL (R215): the product modulo 2³², affine under rule 6. -/
def planImul (d : Dst) (a b : Src) : Plan := plan2 d a b shapeMul (· * ·)
def execImul (d : Dst) (a b : Src) (s : State) : Host.Outcome State Fault Refusal :=
  issue (.imul d a b) (planImul d a b) s

/-- IMULH (R215). -/
def planImulh (sg : Sgn) (d : Dst) (a b : Src) : Plan := plan2 d a b shape2 (mulHigh sg)
def execImulh (sg : Sgn) (d : Dst) (a b : Src) (s : State) : Host.Outcome State Fault Refusal :=
  issue (.imulh sg d a b) (planImulh sg d a b) s

/-- IMAD (R218). -/
def planImad (d : Dst) (a b : Src) (c : CSrc) : Plan := plan3 d a b c fun x y z => x * y + z
def execImad (d : Dst) (a b : Src) (c : CSrc) (s : State) : Host.Outcome State Fault Refusal :=
  issue (.imad d a b c) (planImad d a b c) s

/-- IMIN (R215). -/
def planImin (sg : Sgn) (d : Dst) (a b : Src) : Plan := plan2 d a b shape2 (minWord sg)
def execImin (sg : Sgn) (d : Dst) (a b : Src) (s : State) : Host.Outcome State Fault Refusal :=
  issue (.imin sg d a b) (planImin sg d a b) s

/-- IMAX (R215). -/
def planImax (sg : Sgn) (d : Dst) (a b : Src) : Plan := plan2 d a b shape2 (maxWord sg)
def execImax (sg : Sgn) (d : Dst) (a b : Src) (s : State) : Host.Outcome State Fault Refusal :=
  issue (.imax sg d a b) (planImax sg d a b) s

/-- IABS (R215). -/
def planIabs (d : Dst) (a : Src) : Plan := plan1 d a shape1 absWord
def execIabs (d : Dst) (a : Src) (s : State) : Host.Outcome State Fault Refusal :=
  issue (.iabs d a) (planIabs d a) s

/-- INEG (R215), affine under rule 8. -/
def planIneg (d : Dst) (a : Src) : Plan := plan1 d a shapeNeg fun x => -x
def execIneg (d : Dst) (a : Src) (s : State) : Host.Outcome State Fault Refusal :=
  issue (.ineg d a) (planIneg d a) s

/-- IDOT4 (R218). -/
def planIdot4 (f : DotF) (d : Dst) (a b : Src) (c : CSrc) : Plan := plan3 d a b c (dotWord f)
def execIdot4 (f : DotF) (d : Dst) (a b : Src) (c : CSrc) (s : State) : Host.Outcome State Fault Refusal :=
  issue (.idot4 f d a b c) (planIdot4 f d a b c) s

/-- AND (R215). -/
def planAnd (d : Dst) (a b : Src) : Plan := plan2 d a b shape2 (· &&& ·)
def execAnd (d : Dst) (a b : Src) (s : State) : Host.Outcome State Fault Refusal :=
  issue (.and d a b) (planAnd d a b) s

/-- OR (R215). -/
def planOr (d : Dst) (a b : Src) : Plan := plan2 d a b shape2 (· ||| ·)
def execOr (d : Dst) (a b : Src) (s : State) : Host.Outcome State Fault Refusal :=
  issue (.or d a b) (planOr d a b) s

/-- XOR (R215). -/
def planXor (d : Dst) (a b : Src) : Plan := plan2 d a b shape2 (· ^^^ ·)
def execXor (d : Dst) (a b : Src) (s : State) : Host.Outcome State Fault Refusal :=
  issue (.xor d a b) (planXor d a b) s

/-- ANDN (R215): a AND NOT b. -/
def planAndn (d : Dst) (a b : Src) : Plan := plan2 d a b shape2 fun x y => x &&& ~~~y
def execAndn (d : Dst) (a b : Src) (s : State) : Host.Outcome State Fault Refusal :=
  issue (.andn d a b) (planAndn d a b) s

/-- SHL (R215), affine under rule 7. -/
def planShl (d : Dst) (a b : Src) : Plan := plan2 d a b shapeShl shlWord
def execShl (d : Dst) (a b : Src) (s : State) : Host.Outcome State Fault Refusal :=
  issue (.shl d a b) (planShl d a b) s

/-- SHR (R215). -/
def planShr (d : Dst) (a b : Src) : Plan := plan2 d a b shape2 shrWord
def execShr (d : Dst) (a b : Src) (s : State) : Host.Outcome State Fault Refusal :=
  issue (.shr d a b) (planShr d a b) s

/-- SAR (R215). -/
def planSar (d : Dst) (a b : Src) : Plan := plan2 d a b shape2 sarWord
def execSar (d : Dst) (a b : Src) (s : State) : Host.Outcome State Fault Refusal :=
  issue (.sar d a b) (planSar d a b) s

/-- ROTL (R215). -/
def planRotl (d : Dst) (a b : Src) : Plan := plan2 d a b shape2 rotlWord
def execRotl (d : Dst) (a b : Src) (s : State) : Host.Outcome State Fault Refusal :=
  issue (.rotl d a b) (planRotl d a b) s

/-- BFE (R219). -/
def planBfe (sgn : Bool) (d : Dst) (a : Src) (pos len : Nat) : Plan := plan1 d a shape1 (bfeWord sgn pos len)
def execBfe (sgn : Bool) (d : Dst) (a : Src) (pos len : Nat) (s : State) : Host.Outcome State Fault Refusal :=
  issue (.bfe sgn d a pos len) (planBfe sgn d a pos len) s

/-- BFI (R220). -/
def planBfi (d : Dst) (a b : Src) (c : CSrc) : Plan := plan3 d a b c bfiWord
def execBfi (d : Dst) (a b : Src) (c : CSrc) (s : State) : Host.Outcome State Fault Refusal :=
  issue (.bfi d a b c) (planBfi d a b c) s

/-- POPC (R215). -/
def planPopc (d : Dst) (a : Src) : Plan := plan1 d a shape1 popcWord
def execPopc (d : Dst) (a : Src) (s : State) : Host.Outcome State Fault Refusal :=
  issue (.popc d a) (planPopc d a) s

/-- CLZ (R215). -/
def planClz (d : Dst) (a : Src) : Plan := plan1 d a shape1 clzWord
def execClz (d : Dst) (a : Src) (s : State) : Host.Outcome State Fault Refusal :=
  issue (.clz d a) (planClz d a) s

/-- BREV (R215). -/
def planBrev (d : Dst) (a : Src) : Plan := plan1 d a shape1 brevWord
def execBrev (d : Dst) (a : Src) (s : State) : Host.Outcome State Fault Refusal :=
  issue (.brev d a) (planBrev d a) s

/-- ICMP (R216). -/
def planIcmp (cc : ICc) (d : Dst) (a b : Src) : Plan := fun s =>
  let x := s.rd a
  let y := s.rd2 a b
  s.putCompare d (shape2 x y) fun i => icmpHolds cc (x.vals.get i) (y.vals.get i)
def execIcmp (cc : ICc) (d : Dst) (a b : Src) (s : State) : Host.Outcome State Fault Refusal :=
  issue (.icmp cc d a b) (planIcmp cc d a b) s

/-- SEL (R217): general under every mask. -/
def planSel (d : Dst) (a b : Src) (kn : Nat) : Plan := fun s =>
  let x := s.rd a
  let y := s.rd2 a b
  s.putVec d .general (Lanes.ofFn fun i => if (s.g.k kn).getLsbD i then x.vals.get i else y.vals.get i)
def execSel (d : Dst) (a b : Src) (kn : Nat) (s : State) : Host.Outcome State Fault Refusal :=
  issue (.sel d a b kn) (planSel d a b kn) s

/-- MOV (R183): the source with its shape; a feed pop is general (R168). -/
def planMov (d : Dst) (a : Src) : Plan := plan1 d a Opnd.sh fun x => x
def execMov (d : Dst) (a : Src) (s : State) : Host.Outcome State Fault Refusal :=
  issue (.mov d a) (planMov d a) s

/-- MOVI (R221). -/
def planMovi (d : Dst) (e : Int) : Plan := fun s => s.putVec d .uniform (Lanes.splat (BitVec.ofInt 32 e))
def execMovi (d : Dst) (e : Int) (s : State) : Host.Outcome State Fault Refusal :=
  issue (.movi d e) (planMovi d e) s

/-- LIMM (R53): the 32-bit literal of the next slot. -/
def planLimm (d : Dst) (lit : Nat) : Plan := fun s => s.putVec d .uniform (Lanes.splat (BitVec.ofNat 32 lit))
def execLimm (d : Dst) (lit : Nat) (s : State) : Host.Outcome State Fault Refusal :=
  issue (.limm d lit) (planLimm d lit) s

end Sys2Proof.Machine
end

