-- ==== Sys2Proof/Machine/Convert.lean ====
section
/-! DEFINITION. Conversion and lane instructions (R229 to R242). -/

namespace Sys2Proof

/-- The integer format of a conversion, where it is one. -/
def CvtF.int? : CvtF → Option Machine.IFmt
  | .s8 => some .s8
  | .u8 => some .u8
  | .s16 => some .s16
  | .u16 => some .u16
  | .s32 => some .s32
  | .u32 => some .u32
  | _ => none

/-- The float format of a conversion that is none of the integer ones. -/
def CvtF.flt : CvtF → Machine.FFmt
  | .e4m3 => .e4m3
  | .e5m2 => .e5m2
  | .fp16 => .fp16
  | _ => .bf16

/-- Element width of a quantised format (R231). -/
def QntF.width : QntF → Nat
  | .s4 => 4
  | _ => 8

/-- Width and signedness of UNPK's elements (R234). -/
def UnpkT.width : UnpkT → Nat
  | .u4 | .s4 => 4
  | .u8 | .s8 => 8
  | .u16 | .s16 => 16
def UnpkT.signed : UnpkT → Bool
  | .s4 | .s8 | .s16 => true
  | _ => false

end Sys2Proof

namespace Sys2Proof.Machine

open Sys2Proof

/-! ### Conversion (R229 to R236) -/

/-- A word of FP32 rounded to a format: an integer extended to 32 bits, or a pattern (R229). -/
def cvtToWord (tgt : CvtF) (c : Ctx) (w : Word) : Word × Word :=
  match tgt.int? with
  | some f =>
    let r := roundInt f c (f32 w)
    (BitVec.ofInt 32 r.1, r.2)
  | none =>
    let r := roundFlt tgt.flt c (f32 w)
    (BitVec.ofNat 32 r.1, r.2)

/-- The low bits of a word, read in a format and rounded to FP32 (R230). -/
def cvtFromWord (fr : CvtF) (c : Ctx) (w : Word) : Word × Word :=
  let x := match fr.int? with
    | some f => Val.ofInt (f.value (w.toNat % 2 ^ f.bits))
    | none => fr.flt.value (w.toNat % 2 ^ fr.flt.bits)
  let r := roundFlt .fp32 c x
  (BitVec.ofNat 32 r.1, r.2)

/-- QNT of one lane (R231). -/
def qntWord (f : QntF) (k : Ctx) (a b c : Word) : Word × Word :=
  let x := mulVal (f32 a) (f32 b)
  let q : Nat × Word := match f with
    | .s8 =>
      let r := roundInt .s8 k x.1
      (unsext 8 r.1, r.2)
    | .s4 =>
      let r := roundInt .s4 k x.1
      (unsext 4 r.1, r.2)
    | .e4m3 => roundFlt .e4m3 k x.1
    | .e5m2 => roundFlt .e5m2 k x.1
  let w := f.width
  ((c >>> w) ||| BitVec.ofNat 32 (q.1 * 2 ^ (32 - w)), q.2 ||| x.2)

/-- DQNT of one lane (R232). -/
def dqntWord (f : QntF) (k : Ctx) (a b c : Word) : Word × Word :=
  let j := c.toNat % (32 / f.width)
  let v := match f with
    | .s8 => Val.ofInt (elemS 8 a j)
    | .s4 => Val.ofInt (elemS 4 a j)
    | .e4m3 => FFmt.e4m3.value (elemU 8 a j)
    | .e5m2 => FFmt.e5m2.value (elemU 8 a j)
  let x := mulVal v (f32 b)
  let r := roundFlt .fp32 k x.1
  (BitVec.ofNat 32 r.1, r.2 ||| x.2)

/-- PACK of one lane (R233). -/
def packWord (w : PackW) (a b c : Word) : Word :=
  match w with
  | .b4 => (c >>> 8) ||| BitVec.ofNat 32 (a.toNat % 16 * 2 ^ 24 + b.toNat % 16 * 2 ^ 28)
  | .b8 => (c >>> 16) ||| BitVec.ofNat 32 (a.toNat % 256 * 2 ^ 16 + b.toNat % 256 * 2 ^ 24)
  | .b16 => BitVec.ofNat 32 (a.toNat % 65536 + b.toNat % 65536 * 2 ^ 16)

/-- UNPK of one lane (R234). -/
def unpkWord (t : UnpkT) (a b : Word) : Word :=
  let w := t.width
  let j := b.toNat % (32 / w)
  if t.signed then BitVec.ofInt 32 (elemS w a j) else BitVec.ofNat 32 (elemU w a j)

/-- ACVT of one lane (R236): the cell's words, lowest first. -/
def acvtWord (k : Ctx) (anchor : Int) (w0 w1 w2 w3 : Word) : Word × Word :=
  let n := w0.toNat + 2 ^ 32 * w1.toNat + 2 ^ 64 * w2.toNat + 2 ^ 96 * w3.toNat
  let i := sext 128 n
  let r := roundFlt .fp32 k (.of (decide (i < 0)) i.natAbs anchor)
  (BitVec.ofNat 32 r.1, r.2)

/-- PERM of one lane (R237). -/
def permWord (w : PermW) (a b c : Word) : Word :=
  let ba := a.toNat + 2 ^ 32 * b.toNat
  match w with
  | .b8 => BitVec.ofNat 32 (((List.range 4).map fun j =>
      let x := c.toNat / 2 ^ (4 * j) % 16
      if 8 ≤ x then 0 else ba / 2 ^ (8 * x) % 256 * 2 ^ (8 * j)).sum)
  | .b4 => BitVec.ofNat 32 (((List.range 8).map fun j =>
      let x := c.toNat / 2 ^ (4 * j) % 16
      ba / 2 ^ (4 * x) % 16 * 2 ^ (4 * j)).sum)

/-! ### Lanes (R238 to R242) -/

/-- The source lane of SHFL, where it is one (R238). -/
def shflLane (m : ShflM) (i : Nat) (b : Word) : Option Nat :=
  let t : Int := match m with
    | .idx => b.toNat
    | .up => (i : Int) - b.toNat
    | .down => (i : Int) + b.toNat
    | .xor => Nat.xor i b.toNat
  if 0 ≤ t ∧ t ≤ 31 then some t.toNat else none

/-- A NaN made canonical (R193). -/
def canon32 (w : Word) : Word := if f32 w = .nan then BitVec.ofNat 32 FFmt.fp32.nan else w

/-- How the first active lane's value enters a fold (R241). -/
def foldFirst (op : LOp) (x : Word) : Pair :=
  match op with
  | .fadd | .fmin | .fmax => ⟨canon32 x, 0⟩
  | _ => ⟨x, 0⟩

/-- One step of a fold (R241), with the flags it raises. -/
def foldStep (op : LOp) (p : Pair) (x : Word) : Pair × Word :=
  let w := fun y => ((⟨y, 0⟩ : Pair), (0 : Word))
  match op with
  | .add => w (p.s + x)
  | .mins => w (minWord .s32 p.s x)
  | .minu => w (minWord .u32 p.s x)
  | .maxs => w (maxWord .s32 p.s x)
  | .maxu => w (maxWord .u32 p.s x)
  | .and => w (p.s &&& x)
  | .or => w (p.s ||| x)
  | .xor => w (p.s ^^^ x)
  | .fadd => pairAdd p ⟨x, 0⟩
  | .fmin => w (BitVec.ofNat 32 (minMax .fp32 true p.s.toNat x.toNat))
  | .fmax => w (BitVec.ofNat 32 (minMax .fp32 false p.s.toNat x.toNat))

/-- The identity that an exclusive scan gives its first lane (R242). -/
def foldIdentity : LOp → Word
  | .add | .or | .xor | .maxu | .fadd => 0
  | .mins => 0x7FFFFFFF
  | .minu | .and => 0xFFFFFFFF
  | .maxs => 0x80000000
  | .fmin => 0x7F800000
  | .fmax => 0xFF800000

/-- A fold over values in order: the state after each, with the flags so far. -/
def foldTrace (op : LOp) : Option (Pair × Word) → List Word → List (Pair × Word)
  | _, [] => []
  | none, x :: r =>
    let p := (foldFirst op x, (0 : Word))
    p :: foldTrace op (some p) r
  | some (p, fl), x :: r =>
    let q := foldStep op p x
    let p := (q.1, fl ||| q.2)
    p :: foldTrace op (some p) r

/-- The states after each active lane, ascending. -/
def laneTrace (op : LOp) (m : Word) (x : Opnd) : List (Pair × Word) :=
  foldTrace op none ((lanesOf m).map x.vals.get)

/-- The place of a lane among the active ones. -/
def laneRank (m : Word) (i : Nat) : Nat := ((lanesOf m).filter fun j => j < i).length

/-! ### Meanings -/

/-- CVT to a format (R229). -/
def planCvtTo (tgt : CvtF) (r : RSel) (d : Dst) (a : Src) : Plan := fun s =>
  let x := s.rd a
  let q := lanesFl s.mask fun i => cvtToWord tgt (s.ctxAt r i) (x.vals.get i)
  s.putFl d (shapeOf [x]) q.1 q.2
def execCvtTo (tgt : CvtF) (r : RSel) (d : Dst) (a : Src) (s : State) : Host.Outcome State Fault Refusal :=
  issue (.cvtTo tgt r d a) (planCvtTo tgt r d a) s

/-- CVT to FP32 (R230). -/
def planCvtFrom (fr : CvtF) (r : RSel) (d : Dst) (a : Src) : Plan := fun s =>
  let x := s.rd a
  let q := lanesFl s.mask fun i => cvtFromWord fr (s.ctxAt r i) (x.vals.get i)
  s.putFl d (shapeOf [x]) q.1 q.2
def execCvtFrom (fr : CvtF) (r : RSel) (d : Dst) (a : Src) (s : State) : Host.Outcome State Fault Refusal :=
  issue (.cvtFrom fr r d a) (planCvtFrom fr r d a) s

/-- QNT (R231). -/
def planQnt (f : QntF) (d : Dst) (a b : Src) (c : CSrc) : Plan := fun s =>
  let x := s.rd a
  let y := s.rd2 a b
  let z := s.rdc c
  let q := lanesFl s.mask fun i =>
    qntWord f (s.ctxAt .dflt i) (x.vals.get i) (y.vals.get i) (z.vals.get i)
  s.putFl d (shapeOf [x, y, z]) q.1 q.2
def execQnt (f : QntF) (d : Dst) (a b : Src) (c : CSrc) (s : State) : Host.Outcome State Fault Refusal :=
  issue (.qnt f d a b c) (planQnt f d a b c) s

/-- DQNT (R232). -/
def planDqnt (f : QntF) (d : Dst) (a b : Src) (c : CSrc) : Plan := fun s =>
  let x := s.rd a
  let y := s.rd2 a b
  let z := s.rdc c
  let q := lanesFl s.mask fun i =>
    dqntWord f (s.ctxAt .dflt i) (x.vals.get i) (y.vals.get i) (z.vals.get i)
  s.putFl d (shapeOf [x, y, z]) q.1 q.2
def execDqnt (f : QntF) (d : Dst) (a b : Src) (c : CSrc) (s : State) : Host.Outcome State Fault Refusal :=
  issue (.dqnt f d a b c) (planDqnt f d a b c) s

/-- PACK (R233); b16 does not read c. -/
def planPack (w : PackW) (d : Dst) (a b : Src) (c : CSrc) : Plan := fun s =>
  let x := s.rd a
  let y := s.rd2 a b
  let z := s.rdc c
  s.putVec d (if w = .b16 then shapeOf [x, y] else shapeOf [x, y, z]) (map3 (packWord w) x y z)
def execPack (w : PackW) (d : Dst) (a b : Src) (c : CSrc) (s : State) : Host.Outcome State Fault Refusal :=
  issue (.pack w d a b c) (planPack w d a b c) s

/-- UNPK (R234). -/
def planUnpk (t : UnpkT) (d : Dst) (a b : Src) : Plan := plan2 d a b shape2 (unpkWord t)
def execUnpk (t : UnpkT) (d : Dst) (a b : Src) (s : State) : Host.Outcome State Fault Refusal :=
  issue (.unpk t d a b) (planUnpk t d a b) s

/-- RNSE (R235). -/
def planRnse (d : Dst) (a : Src) : Plan := plan1 d a shape1 fun x => residueOf x.toInt
def execRnse (d : Dst) (a : Src) (s : State) : Host.Outcome State Fault Refusal :=
  issue (.rnse d a) (planRnse d a) s

/-- RNSD (R235). -/
def planRnsd (d : Dst) (a : Src) : Plan := plan1 d a shape1 fun x => BitVec.ofInt 32 (crtDecode x)
def execRnsd (d : Dst) (a : Src) (s : State) : Host.Outcome State Fault Refusal :=
  issue (.rnsd d a) (planRnsd d a) s

/-- ACVT (R236). -/
def planAcvt (d : Dst) (a : Src) (anchor : Int) : Plan := fun s =>
  let x0 := s.rd a
  let x1 := s.rd (a.next 1)
  let x2 := s.rd (a.next 2)
  let x3 := s.rd (a.next 3)
  let q := lanesFl s.mask fun i =>
    acvtWord (s.ctxAt .dflt i) anchor (x0.vals.get i) (x1.vals.get i) (x2.vals.get i) (x3.vals.get i)
  s.putFl d (shapeOf [x0, x1, x2, x3]) q.1 q.2
def execAcvt (d : Dst) (a : Src) (anchor : Int) (s : State) : Host.Outcome State Fault Refusal :=
  issue (.acvt d a anchor) (planAcvt d a anchor) s

/-- PERM (R237). -/
def planPerm (w : PermW) (d : Dst) (a b : Src) (c : CSrc) : Plan := plan3 d a b c (permWord w)
def execPerm (w : PermW) (d : Dst) (a b : Src) (c : CSrc) (s : State) : Host.Outcome State Fault Refusal :=
  issue (.perm w d a b c) (planPerm w d a b c) s

/-- SHFL (R238). -/
def planShfl (m : ShflM) (d : Dst) (a b : Src) (c : CSrc) : Plan := fun s =>
  let x := s.rd a
  let y := s.rd2 a b
  let z := s.rdc c
  s.putVec d (shapeOf [x, y, z]) (Lanes.ofFn fun i =>
    match shflLane m i (y.vals.get i) with
    | some t => x.vals.get t
    | none => z.vals.get i)
def execShfl (m : ShflM) (d : Dst) (a b : Src) (c : CSrc) (s : State) : Host.Outcome State Fault Refusal :=
  issue (.shfl m d a b c) (planShfl m d a b c) s

/-- BCAST (R239). -/
def planBcast (d : Dst) (a b : Src) : Plan := fun s =>
  let x := s.rd a
  let y := s.rd2 a b
  s.putVec d .uniform (Lanes.splat (x.vals.get (y.u.toNat % 32)))
def execBcast (d : Dst) (a b : Src) (s : State) : Host.Outcome State Fault Refusal :=
  issue (.bcast d a b) (planBcast d a b) s

/-- VOTE (R240). -/
def planVote (m : VoteM) (d : Dst) (a : Src) : Plan := fun s =>
  let x := s.rd a
  let p := fun i => x.vals.get i != 0
  let y : Word := match m with
    | .any => if (lanesOf s.mask).any p then 1 else 0
    | .all => if (lanesOf s.mask).all p then 1 else 0
    | .ballot => maskOf fun i => s.active i && p i
  s.putVec d .uniform (Lanes.splat y)
def execVote (m : VoteM) (d : Dst) (a : Src) (s : State) : Host.Outcome State Fault Refusal :=
  issue (.vote m d a) (planVote m d a) s

/-- LRED (R241). -/
def planLred (op : LOp) (pair : Bool) (d : Dst) (a : Src) : Plan := fun s =>
  let x := s.rd a
  let q := (laneTrace op s.mask x).getLastD (⟨0, 0⟩, 0)
  if pair then
    match d with
    | .v n => State.putPair n .uniform (fun _ => q) s.mask
    | _ => s.stop .illegalOperand
  else s.putFl d .uniform (Lanes.splat q.1.s) q.2
def execLred (op : LOp) (pair : Bool) (d : Dst) (a : Src) (s : State) : Host.Outcome State Fault Refusal :=
  issue (.lred op pair d a) (planLred op pair d a) s

/-- LSCAN (R242): general under every mask. The exclusive form makes no step over the last active lane's value, whose
result no lane receives, and so raises no flag of it (DESIGN CHOICE, log entry 137). -/
def planLscan (op : LOp) (ex : Bool) (d : Dst) (a : Src) : Plan := fun s =>
  let x := s.rd a
  let tr := laneTrace op s.mask x
  let seen := if ex then tr.dropLast else tr
  s.putFl d .general
    (Lanes.ofFn fun i =>
      let r := laneRank s.mask i
      if ex then (if r = 0 then foldIdentity op else (tr.getD (r - 1) (⟨0, 0⟩, 0)).1.s)
      else (tr.getD r (⟨0, 0⟩, 0)).1.s)
    (seen.getLastD (⟨0, 0⟩, 0)).2
def execLscan (op : LOp) (ex : Bool) (d : Dst) (a : Src) (s : State) : Host.Outcome State Fault Refusal :=
  issue (.lscan op ex d a) (planLscan op ex d a) s

end Sys2Proof.Machine
end

