-- ==== Sys2Proof/Machine/Translate.lean ====
section
/-! DEFINITION. Windows, page walks and Translate (R71 to R80, R90), with what a translation changes: A and
D bits (R78) and the entries that the translation caches may keep (R79, R86). -/

namespace Sys2Proof.Machine

open Sys2Proof

/-! ### Windows (R73) -/

/-- The window of a generic address. -/
inductive Window where
  | glob | scratch | cluster | priv | invalid
  deriving DecidableEq, Repr

/-- WindowOf (R73). -/
def windowOf (a : DWord) : Window :=
  let n := a.toNat
  let tag := n / 2 ^ 58
  let mid := n / 2 ^ 22 % 2 ^ 26
  if tag = 0 ∧ n / 2 ^ 57 % 2 = 0 then .glob
  else if tag = 0x3E ∧ n / 2 ^ 57 % 2 = 0 ∧ mid = 0 then .scratch
  else if tag = 0x3D ∧ n / 2 ^ 54 % 16 = 0 ∧ mid = 0 then .cluster
  else if tag = 0x3C ∧ n / 2 ^ 32 % 2 ^ 26 = 0 then .priv
  else .invalid

/-- The core tag of a SCRATCH address (R74). -/
def scratchTag (a : DWord) : Nat := a.toNat / 2 ^ 48 % 512
/-- The core field of a CLUSTER address (R74). -/
def clusterField (a : DWord) : Nat := a.toNat / 2 ^ 48 % 64
/-- The offset of a SCRATCH or CLUSTER address (R74). -/
def windowOffset (a : DWord) : Nat := a.toNat % 2 ^ 22
/-- The offset of a PRIVATE address (R111). -/
def privateOffset (a : DWord) : Nat := a.toNat % 2 ^ 32

/-! ### Page walks (R75 to R80) -/

/-- The kind of a translated access (R90). -/
inductive XKind where | read | write | atomic | fetch
  | fill                          -- the fill of a line by a store: a read that also needs W (R112, R113)
  deriving DecidableEq, Repr

/-- The kind's code (R97). -/
def XKind.code : XKind → Nat
  | .read => 0
  | .write => 1
  | .atomic => 2
  | .fetch => 3
  | .fill => 0

/-- A bit of an entry. -/
def bitOf (e n : Nat) : Bool := e / 2 ^ n % 2 == 1

/-- The shift of a level's index (R75). -/
def levelShift : Nat → Nat
  | 0 => 16
  | 1 => 21
  | 2 => 30
  | 3 => 39
  | _ => 48

/-- The entries of a level's table (R75). -/
def levelEntries : Nat → Nat
  | 0 => 32
  | _ => 512

/-- Whether a physical address that a leaf or pointer gives is reserved or out of range (R71, R80).
`leaf` holds the page bits of a leaf, `none` for a table address. -/
def badPa (vdid pa : Nat) (leaf : Option Nat) : Bool :=
  if 2 ^ 56 ≤ pa then true
  else
    match leaf with
    | none => !isHbm pa
    | some bits =>
      match paKind pa with
      | 0 => !isHbm pa
      | 1 => decide (pa / 2 ^ 48 % 16 ≠ 0)
      | 2 => decide (1151 < pa / 2 ^ 41 % 2 ^ 11) || decide (hbmEnd ≤ pa % 2 ^ 41)
      | 3 => decide (bits ≠ 16) || decide (pa / 2 ^ 23 % 2 ^ 29 ≠ 0) || decide (pa / 2 ^ 16 % 128 ≠ vdid)
      | _ => true

/-- Where a walk ends. -/
inductive WalkRes where
  | leaf (e bits ea eg : Nat) (level : Nat) (writable : Bool) (via : Option Nat)   -- the entry, its page bits, where it stands
  | miss (level : Nat) (bad : Bool)                             -- not present, or malformed
  | stage2 (gpa level : Nat)                                    -- a stage-2 fault on a table address (R99)
  | check (pa : Nat)                                            -- an uncorrectable error in an entry (R102)
  deriving DecidableEq, Repr

/-- What a walk leaves behind: the leaf entries that the access at its end uses, the stage-2 leaves of the table pages
that it has read through, however it ends (R77), and what the caches may keep. -/
structure Trail where
  marks : List (Nat × Nat)        -- entry address, bits of its top byte to set (R78)
  walked : List Nat               -- entry addresses
  seen : List Cached
  deriving DecidableEq, Repr

/-- One trail after another. -/
def Trail.append (a b : Trail) : Trail := ⟨a.marks ++ b.marks, a.walked ++ b.walked, a.seen ++ b.seen⟩

/-- A pointer entry that is malformed at its level (R76, R80); `phys` where NEXT is a physical address. -/
def badPointer (phys : Bool) (vdid level e : Nat) : Bool :=
  let next := e / 256 % 2 ^ 48 * 256
  decide (level = 0) || decide (e / 2 ^ 56 ≠ 0) || decide (e / 4 % 64 ≠ 0) ||
  (decide (level ≠ 1) && decide (e / 256 % 16 ≠ 0)) || (phys && badPa vdid next none)

/-- A leaf entry that is malformed at its level (R75, R77, R80, R81). -/
def badLeaf (phys : Bool) (vdid level e : Nat) : Bool :=
  let bits := levelShift level
  let frame := e / 65536 % 2 ^ 40 * 65536
  decide (2 < level) || decide (e / 2 ^ 58 ≠ 0) || decide (e / 2 ^ 12 % 16 ≠ 0) || bitOf e 7 ||
  decide (4 ≤ e / 2 ^ 9 % 8) || decide (frame % 2 ^ bits ≠ 0) || (phys && badPa vdid frame (some bits))

/-- The frame of a leaf. -/
def leafFrame (e : Nat) : Nat := e / 65536 % 2 ^ 40 * 65536

/-- The cluster cache that serves a core (R86). -/
def clusterCache (core : Nat) : Nat := 512 + core / 64
/-- The walk cache of a core's die (R86). -/
def walkCache (core : Nat) : Nat := 520 + core / 128

/-- The leaf that a core's micro cache or its cluster's keeps for an address: a walk may use it (R79, R86). `use` says
whether this one does; a number from 512 on names no core, and uses none. -/
def State.cachedLeaf (s : State) (core vdid stage va : Nat) (use : Bool) : Option Cached :=
  if use && decide (core < 512) then
    s.cache.find? fun c =>
      (c.unit == core || c.unit == clusterCache core) && c.vdid == vdid && c.stage == stage && c.page == va / 2 ^ c.bits
  else none

/-- What an entry at `ea` reads as for a walk: where `use` holds, the pointer that the die's walk cache keeps of it
(R79, R86), else the value in memory. -/
def State.entryAt (s : State) (core vdid stage va level ea : Nat) (use : Bool) : Nat :=
  let hit := s.cache.find? fun c =>
    c.unit == walkCache core && c.vdid == vdid && c.stage == stage && c.pa == ea && c.page == va / 2 ^ levelShift level
  match use && decide (core < 512), hit with
  | true, some c => c.entry.toNat
  | _, _ => Memory.read s.mem ea 8

/-- A walk of a core from the table at `table` down the given levels. `find` gives the physical address at which an
entry stands (identity, or a stage-2 translation), with the trail of finding it, whether the page that holds it may be
written, and that page's leaf (R78). -/
def State.walkFrom (s : State) (core : Nat) (phys : Bool) (vdid stage va : Nat) (use : Bool)
    (find : Nat → Except WalkRes (Nat × Bool × Option Nat × Trail)) : List Nat → Nat → Trail → WalkRes × Trail
  | [], _, tr => (.miss 0 true, tr)
  | level :: rest, table, tr =>
    let eg := table + 8 * (va / 2 ^ levelShift level % levelEntries level)
    match find eg with
    | .error (.stage2 gpa _) => (.stage2 gpa level, tr)
    | .error w => (w, tr)
    | .ok (ea, writable, via, t1) =>
      let tr := tr.append t1
      if !isHbm ea then (.miss level true, tr)
      else if s.failed (ea / 128) then (.check ea, tr)
      else
        let e := s.entryAt core vdid stage va level ea use
        let c : Cached :=
          { unit := core, vdid := vdid, stage := stage, level := level, page := va / 2 ^ levelShift level,
            bits := levelShift level, entry := BitVec.ofNat 64 e, pa := ea, gpa := eg, writable := writable, via := via }
        if !bitOf e 0 then (.miss level false, tr)
        else if bitOf e 1 then
          if badPointer phys vdid level e then (.miss level true, tr)
          else
            State.walkFrom s core phys vdid stage va use find rest (e / 256 % 2 ^ 48 * 256)
              { tr with seen := tr.seen ++ [c] }
        else if badLeaf phys vdid level e then (.miss level true, tr)
        else (.leaf e (levelShift level) ea eg level writable via, { tr with seen := tr.seen ++ [c] })

/-- The levels from the root down. -/
def walkLevels : List Nat := [4, 3, 2, 1, 0]

/-- A walk of one stage: the leaf that a cache keeps, or the way from the root. -/
def State.walk (s : State) (core : Nat) (phys : Bool) (vdid stage root va : Nat) (use : Bool)
    (find : Nat → Except WalkRes (Nat × Bool × Option Nat × Trail)) : WalkRes × Trail :=
  match s.cachedLeaf core vdid stage va use with
  | some c => (.leaf c.entry.toNat c.bits c.pa c.gpa c.level c.writable c.via, ⟨[], [], []⟩)
  | none => s.walkFrom core phys vdid stage va use find walkLevels root ⟨[], [], []⟩

/-- A walk of one stage over physical tables (R75): a single-stage walk, or stage 2. -/
def State.walkPhys (s : State) (core vdid stage root va : Nat) (use : Bool) : WalkRes × Trail :=
  if 2 ^ 57 ≤ va then (.miss 4 true, ⟨[], [], []⟩)
  else s.walk core true vdid stage root va use fun a => .ok (a, true, none, ⟨[], [], []⟩)

/-- Finds a stage-1 entry through stage 2 (R90): its address, whether the page may be written, and the page's leaf. -/
def State.findTable (s : State) (core : Nat) (cx : Context) (use : Bool) (gpa : Nat) :
    Except WalkRes (Nat × Bool × Option Nat × Trail) :=
  match s.walkPhys core cx.vdid 2 cx.xlroot2.toNat gpa use with
  | (.leaf e bits ea _ _ _ _, tr) =>
    .ok (leafFrame e + gpa % 2 ^ bits, bitOf e 3, some ea, { tr with walked := tr.walked ++ [ea] })
  | (.check pa, _) => .error (.check pa)
  | _ => .error (.stage2 gpa 0)

/-- Allows (R90). -/
def allows (e : Nat) (k : XKind) (priv : Bool) : Bool :=
  (priv || !bitOf e 5) &&
  match k with
  | .read => bitOf e 2
  | .write => bitOf e 3
  | .atomic | .fill => bitOf e 2 && bitOf e 3
  | .fetch => bitOf e 4

/-- What Translate gives. -/
inductive XRes where
  | ok (pa : Nat) (prop01 rm : Bool)
  | permission
  | fault (level : Nat) (bad : Bool)
  | stage2 (gpa level : Nat)
  | check (pa : Nat)
  deriving DecidableEq, Repr

/-- The bits of a leaf's top byte that an access sets: A, and D for a write or an atomic (R77). -/
def usedBits (k : XKind) : Nat :=
  match k with
  | .write | .atomic => 3
  | _ => 1

/-- Whether those bits still have to be set. -/
def needsBits (e : Nat) (k : XKind) : Bool :=
  !bitOf e 56 || (decide (usedBits k = 3) && !bitOf e 57)

/-- Marks on the page of a table entry that an A or D update writes: its stage-2 leaf is written through (R77, R78). -/
def viaMarks (e : Nat) (k : XKind) (via : Option Nat) : List (Nat × Nat) :=
  if needsBits e k then (via.map fun ea => (ea, 3)).toList else []

/-- An entry that a trail's updates reach in a failed line: the OR at its home meets the error (R78, R103). -/
def State.badMark (s : State) (tr : Trail) : Option Nat :=
  ((tr.marks.find? fun x => s.failed (x.1 / 128) && s.marksNew x)).map (·.1)

/-- Translate (R90), but for errors that its updates meet, by a core in a context, with the trail that an access through the result leaves. `use` says
whether cached entries are used (R79). -/
def State.resolve (s : State) (core : Nat) (cx : Context) (va : Nat) (k : XKind) (priv use : Bool) : XRes × Trail :=
  if !cx.s2en then
    match s.walkPhys core cx.vdid 1 cx.xlroot1.toNat va use with
    | (.leaf e bits ea _ _ _ _, tr) =>
      if allows e k priv then
        (.ok (leafFrame e + va % 2 ^ bits) (bitOf e 6) (bitOf e 8),
          { tr with marks := tr.marks ++ [(ea, usedBits k)] })
      else (.permission, tr)
    | (.miss level bad, tr) => (.fault level bad, tr)
    | (.stage2 gpa level, tr) => (.stage2 gpa level, tr)
    | (.check pa, tr) => (.check pa, tr)
  else
    match s.walk core false cx.vdid 1 cx.xlroot1.toNat va use (s.findTable core cx use) with
    | (.leaf e bits ea eg level writable via, tr) =>
      if !allows e k priv then (.permission, tr)
      else if needsBits e k && !writable then (.stage2 eg level, tr)
      else
        let a := leafFrame e + va % 2 ^ bits
        let tr := { tr with marks := tr.marks ++ viaMarks e k via ++ [(ea, usedBits k)] }
        match s.walkPhys core cx.vdid 2 cx.xlroot2.toNat a use with
        | (.leaf e2 bits2 ea2 _ _ _ _, t2) =>
          let tr := { tr.append t2 with marks := tr.marks ++ t2.marks ++ [(ea2, usedBits k)] }
          if allows e2 k true then
            (.ok (leafFrame e2 + a % 2 ^ bits2) (bitOf e 6 && bitOf e2 6) (bitOf e 8 && bitOf e2 8), tr)
          else (.stage2 a 7, tr)
        | (.check pa, _) => (.check pa, tr)
        | (_, t2) => (.stage2 a 7, tr.append t2)
    | (.miss level bad, tr) => (.fault level bad, tr)
    | (.stage2 gpa level, tr) => (.stage2 gpa level, tr)
    | (.check pa, tr) => (.check pa, tr)

/-- Translate (R90). -/
def State.translate (s : State) (core : Nat) (cx : Context) (va : Nat) (k : XKind) (priv use : Bool) : XRes × Trail :=
  let q := s.resolve core cx va k priv use
  match q.1, s.badMark q.2 with
  | .ok _ _ _, some pa => (.check pa, q.2)
  | _, _ => q

/-! ### What a translation changes -/

/-- The first `n` of the entries that `p` selects, and every other: the newest stand first. -/
def trimCached (p : Cached → Bool) : Nat → List Cached → List Cached
  | _, [] => []
  | n, c :: r =>
    if p c then
      match n with
      | 0 => trimCached p 0 r
      | n + 1 => c :: trimCached p n r
    else c :: trimCached p n r

/-- Puts an entry into one cache of `size` entries, in place of an older value of it, else of the oldest entry that
has to go; `quota` bounds the entries of its VDID (R86, R87). -/
def putCached (cs : List Cached) (c : Cached) (size quota : Nat) : List Cached :=
  let cs := c :: cs.filter fun d =>
    !(d.unit == c.unit && d.vdid == c.vdid && d.stage == c.stage && d.level == c.level && d.page == c.page)
  let cs := trimCached (fun d => d.unit == c.unit && d.vdid == c.vdid) quota cs
  trimCached (fun d => d.unit == c.unit) size cs

/-- A core's caches keep an entry of a walk: a pointer the die's walk cache, a leaf the micro cache and the cluster's.
A VDID with the quota 0 inserts nothing into the latter (R87). -/
def State.keepCached (s : State) (cs : List Cached) (c : Cached) : List Cached :=
  if 512 ≤ c.unit then cs
  else if bitOf c.entry.toNat 1 then putCached cs { c with unit := walkCache c.unit } 512 512
  else putCached (putCached cs c 64 64) { c with unit := clusterCache c.unit } 8192 (s.fn c.vdid).entryQuota

/-- Leaves the caches with what a walk saw. -/
def State.leaveCached (s : State) (tr : Trail) : State :=
  { s with cache := tr.seen.foldl s.keepCached s.cache }

/-- Leaves a translation's trail: A and D bits set, entries kept. -/
def State.leave (s : State) (tr : Trail) : State :=
  (s.leaveCached tr).mark (tr.walked.map (fun a => (a, 1)) ++ tr.marks)

/-- Leaves what a walk leaves whose access does not go on: what it has walked through is accessed all the same (R77). -/
def State.leaveWalk (s : State) (tr : Trail) : State := (s.leaveCached tr).mark (tr.walked.map fun a => (a, 1))

/-! ### Uncorrectable errors (R102) -/

/-- Writes that cover whole lines give them new data and new ECC (R103). -/
def State.repairLines (s : State) (p : Nat → Bool) : State :=
  { s with failedLines := s.failedLines.filter fun l => !p l, badLines := s.badLines.filter fun l => !p l }

/-- An access of a context meets an uncorrectable error, in a line or on the way to its home: the context is killed at
once. A line in which an error has been found is marked (R103). -/
def State.machineCheck (s : State) (c pa : Nat) : State :=
  (if s.failed (pa / 128) then s.markFailed (pa / 128) else s).killCtx c evMachineCheck (some (BitVec.ofNat 64 (pa / 128 * 128)))

end Sys2Proof.Machine
end

