-- ==== Sys2Proof/Machine/Place.lean ====
section
/-! DEFINITION. Footprints and placement (R105, R178, R245, R298, R338). -/

namespace Sys2Proof.Machine

open Sys2Proof

/-- What one team reserves in a register bank of its core (R338). -/
structure Footprint where
  slots : Nat                     -- R178
  tiles : Nat                     -- R245
  macros : Nat
  bytes : Nat                     -- scratchpad region and reserved areas (R105)
  groups : Nat                    -- R11: residence
  deriving DecidableEq, Repr

/-- A team's footprint. -/
def Rec.footprint (d : Rec) : Footprint :=
  ⟨d.gpt * max d.regs 72, d.gpt * d.accum, d.macros, d.scratch + 12288 * d.gpt, d.gpt⟩

/-- The sum of two footprints. -/
def Footprint.add (a b : Footprint) : Footprint :=
  ⟨a.slots + b.slots, a.tiles + b.tiles, a.macros + b.macros, a.bytes + b.bytes, a.groups + b.groups⟩

/-- Nothing reserved. -/
def Footprint.none : Footprint := ⟨0, 0, 0, 0, 0⟩

/-- Whether a bank can hold a sum of footprints (R178, R245, R338). -/
def Footprint.fitsBank (f : Footprint) : Bool :=
  decide (f.slots ≤ 8192) && decide (f.tiles ≤ 16) && decide (f.macros ≤ 32) &&
  decide (f.bytes ≤ 4194304)

/-- Whether a footprint lies within another (R338, nesting). -/
def Footprint.within (a b : Footprint) : Bool :=
  decide (a.slots ≤ b.slots) && decide (a.tiles ≤ b.tiles) && decide (a.macros ≤ b.macros) &&
  decide (a.bytes ≤ b.bytes) && decide (a.groups ≤ b.groups)

/-- The launch in whose footprint a nested launch stands: the nearest of its chain of parents that has not ended
(R338). `fuel` bounds the chain. -/
def State.nestHost (s : State) : Nat → Nat → Option Nat
  | 0, _ => none
  | fuel + 1, l =>
    match (s.launch l).nested with
    | none => none
    | some p => if (s.launch p).ended then State.nestHost s fuel p else some p

/-- The launches in whose footprints a nested launch stands, ended ones as well: its parent, that one's, and so on.
`fuel` bounds the chain. -/
def State.hosts (s : State) : Nat → Nat → List Nat
  | 0, _ => []
  | fuel + 1, l =>
    match (s.launch l).nested with
    | none => []
    | some p => p :: State.hosts s fuel p

/-- Whether launch `n` stands in launch `l`'s footprint, or in one that does. -/
def State.nestedUnder (s : State) (n l : Nat) : Bool := (s.hosts (n + 1) n).contains l

/-- What a launch's teams take in bank `b` of core `c`. -/
def Launch.takes (x : Launch) (c b : Nat) : Footprint :=
  (x.place.filter fun p => p.1 == c && p.2 == b).foldl (fun a _ => a.add x.desc.footprint) Footprint.none

/-- What some launches that have not ended take in bank `b` of core `c`. -/
def State.takenBy (s : State) (p : Nat → Bool) (c b : Nat) : Footprint :=
  (s.launches.map (·.1)).eraseDups.foldl (fun a l =>
    if !(s.launch l).ended && p l then a.add ((s.launch l).takes c b) else a) Footprint.none

/-- What is reserved in bank `b` of core `c`: a nested launch stands in its parent's footprint as long as that launch
has not ended, and has its own from then on. -/
def State.reserved (s : State) (c b : Nat) : Footprint := s.takenBy (fun l => (s.nestHost (l + 1) l).isNone) c b

/-- What the launches nested in a launch's footprint take of it in bank `b` of core `c`. -/
def State.nestedIn (s : State) (parent c b : Nat) : Footprint :=
  s.takenBy (fun l => s.nestHost (l + 1) l == some parent) c b

/-- The bank of a core that has room for a footprint: the live one first (R338). A core holds 64 groups and 32 macros
over both banks, one group to each group slot (R11, R97, R245). DEDUCED (log entry 98). -/
def State.bankFor (s : State) (c : Nat) (f : Footprint) : Option Nat :=
  let live := (s.core c).liveBank
  let all := ((s.reserved c 0).add (s.reserved c 1)).add f
  if 64 < all.groups ∨ 32 < all.macros then none
  else if ((s.reserved c live).add f).fitsBank then some live
  else if ((s.reserved c (1 - live)).add f).fitsBank then some (1 - live)
  else none

/-- Whether a partition owns a physical cluster (R424). -/
def State.owns (s : State) (part cluster : Nat) : Bool := (s.part part).clusters.getLsbD cluster

/-- The number of clusters of a partition. -/
def State.clusterCount (s : State) (part : Nat) : Nat :=
  ((List.range 8).filter fun k => s.owns part k).length

/-- The scheduler's order of the cores: its preference, then the rest (R338 leaves the choice open). -/
def coreOrder (pref : List Nat) : List Nat :=
  let p := (pref.filter fun c => decide (c < 512)).eraseDups
  p ++ (List.range 512).filter fun c => !p.contains c

/-- The first `n` cores of a cluster, in an order, that have room, each with its bank. -/
def State.coresIn (s : State) (ord : List Nat) (k n : Nat) (f : Footprint) : Option (List (Nat × Nat)) :=
  let fit := (ord.filter fun c => clusterOfCore c == k).filterMap fun c => (s.bankFor c f).map fun b => (c, b)
  if n ≤ fit.length then some (fit.take n) else none

/-- Logical clusters 2m and 2m + 1 lie on one die; a lone last one anywhere (R298, R338). -/
def chooseClusters (good : List Nat) (c : Nat) : Option (List Nat) :=
  let dies := (good.map fun k => k / 2).eraseDups
  let full := dies.filter fun d => good.contains (2 * d) && good.contains (2 * d + 1)
  let pairs := full.take (c / 2)
  let used := pairs.flatMap fun d => good.filter fun k => k / 2 == d
  if pairs.length < c / 2 then none
  else if c % 2 = 0 then some used
  else
    match good.find? fun k => !used.contains k with
    | some k => some (used ++ [k])
    | none => none

/-- A placement with `c` logical clusters, cluster-major (R338). -/
def State.placeAt (s : State) (part : Nat) (ord : List Nat) (d : Rec) (c : Nat) : Option (List (Nat × Nat)) :=
  let f := d.footprint
  let order := (ord.map clusterOfCore).eraseDups
  let good := order.filter fun k => s.owns part k && (s.coresIn ord k d.tps f).isSome
  match chooseClusters good c with
  | none => none
  | some ks => some (ks.flatMap fun k => (s.coresIn ord k d.tps f).getD [])

/-- The first count of logical clusters, from the largest, for which a placement fits (R338). A producer
needs one cluster per span (R356). -/
def State.findPlace (s : State) (part : Nat) (ord : List Nat) (d : Rec) (producer : Bool) :
    Option (Nat × List (Nat × Nat)) :=
  let top := min d.spans (s.clusterCount part)
  let cs := if producer then [d.spans] else (List.range top).reverse.map (· + 1)
  cs.findSome? fun c => (s.placeAt part ord d c).map fun p => (c, p)

/-- The first `n` of a parent's places in one logical cluster in which a child's footprint fits beside the launches
that are nested there already. -/
def State.nestCores (s : State) (parent n : Nat) (f : Footprint) (places : List (Nat × Nat)) : Option (List (Nat × Nat)) :=
  let fit := places.filter fun p => ((s.nestedIn parent p.1 p.2).add f).within ((s.launch parent).takes p.1 p.2)
  if n ≤ fit.length then some (fit.take n) else none

/-- The parent's clusters with room for a child, each with the places that the child takes there. -/
def State.nestSeats (s : State) (parent : Nat) (d : Rec) : List (Nat × List (Nat × Nat)) :=
  let x := s.launch parent
  (List.range x.clusters).filterMap fun k =>
    let ps := (x.place.drop (k * x.desc.tps)).take x.desc.tps
    (s.nestCores parent d.tps d.footprint ps).map fun q => (clusterOfCore (ps.headD (0, 0)).1, q)

/-- A child's placement in its parent's footprint on the same cores, with the first count of logical clusters, from the
largest, for which one fits (R338); clusters 2m and 2m + 1 lie on one die (R298). -/
def State.nestPlace (s : State) (parent : Nat) (d : Rec) (producer : Bool) : Option (Nat × List (Nat × Nat)) :=
  let x := s.launch parent
  let seats := s.nestSeats parent d
  let cs := if producer then [d.spans] else (List.range (min d.spans x.clusters)).reverse.map (· + 1)
  if x.ended then none
  else cs.findSome? fun c => (chooseClusters (seats.map (·.1)) c).map fun ks =>
    (c, ks.flatMap fun k => ((seats.find? fun y => y.1 == k).map (·.2)).getD [])

/-! ### Links to other homes (R419, R422, R425) -/

/-- The live ports that reach a peer device (R422, R425): the routing table stands in host memory. -/
def State.portsTo (s : State) (part dev : Nat) : List Nat :=
  let e := Memory.read s.mem (2 ^ 52 + ((s.part part).routing.toNat + 4 * dev) % 2 ^ 48) 4
  (List.range 18).filter fun p => bitOf e p && s.ports.getD p false

/-- The peer device of a physical address (R71). -/
def peerOf (pa : Nat) : Nat := pa / 2 ^ 41 % 2 ^ 11

/-- Whether a link of a partition to an address's home is up: the CXL link for host memory, a port that reaches a peer. -/
def State.linkUp (s : State) (part pa : Nat) : Bool :=
  if isHbm pa then true
  else if paKind pa = 1 then s.cxl
  else if paKind pa = 2 then s.portsTo part (peerOf pa) ≠ []
  else true

end Sys2Proof.Machine
end

