-- ==== Sys2Proof/Machine/Admission.lean ====
section
/-! DEFINITION. Launch records, kernel descriptors and admission (R35, R330 to R338, R345, R350, R356). -/

namespace Sys2Proof.Machine

open Sys2Proof

/-- The codes of LAUNCH's status word (R350). -/
inductive AdmitCode where
  | admitted | full | rejCapacity | rejDeadlinePast | rejTableFull | rejBudgetZero | rejResource | rejClass
  | rejMalformed
  deriving DecidableEq, Repr

/-- CODE (R350). -/
def AdmitCode.code : AdmitCode → Nat
  | .admitted => 0
  | .full => 1
  | .rejCapacity => 2
  | .rejDeadlinePast => 3
  | .rejTableFull => 4
  | .rejBudgetZero => 5
  | .rejResource => 6
  | .rejClass => 7
  | .rejMalformed => 8

/-- The status word (R350). -/
def statusWord (c : AdmitCode) (slot : Nat) : Word := BitVec.ofNat 32 (c.code * 2 ^ 24 + slot)

/-! ### Records and descriptors (R35, R330 to R332) -/

/-- A handle entry (R35). -/
def handleOf (n : Nat) : Handle :=
  match n / 2 ^ 62 with
  | 1 => .produced (2 + n / 2 ^ 60 % 4) (n % 2 ^ 32)
  | 2 => .final
  | 3 => .early (n / 2 ^ 32 % 65536)
  | _ => .undeclared

/-- A handle entry that breaks R35 (R332): a field that does not apply, or a produced entry's slot bytes. -/
def badHandle (n : Nat) : Bool :=
  match n / 2 ^ 62 with
  | 0 => decide (n ≠ 0)
  | 1 => decide (n / 2 ^ 48 % 2 ^ 12 ≠ 0) || decide (n / 2 ^ 32 % 65536 ≠ 0) || decide (n % 2 ^ 32 < 128) ||
      decide (2 ^ 32 - 128 < n % 2 ^ 32) || decide (n % 128 ≠ 0) || decide (3 ≤ n / 2 ^ 60 % 4)
  | 2 => decide (n % 2 ^ 62 ≠ 0)
  | _ => decide (n / 2 ^ 48 % 2 ^ 14 ≠ 0) || decide (n % 2 ^ 32 ≠ 0)

/-- The handle entries of a descriptor. -/
def handleWords (desc : List Byte) : List Nat := (List.range 8).map fun h => fieldAt desc (0x20 + 8 * h) 8

/-- The class that a record and its descriptor give (R331, R35); 3 where neither gives one. -/
def classCode (r desc : List Byte) : Nat :=
  let c := fieldAt r 0x1C 2 % 4
  if c = 3 then fieldAt desc 8 4 / 4 % 4 else c

/-- A class from its code. -/
def classOf (n : Nat) : Class := if n = 0 then .hard else if n = 1 then .soft else .best

/-- A record and its descriptor, resolved (R330). The entry is the first slot of the bundle that holds its address; R35
and R332 state no check of one that is no multiple of 16 (DESIGN CHOICE, log entry 102). -/
def recOf (r desc : List Byte) (release : Nat) : Rec :=
  let dl := fieldAt r 0x08 8
  let bud := fieldAt r 0x18 4
  let flags := fieldAt desc 8 4
  { entry := fieldAt desc 0 8 / 16 * 3
    det := bitOf flags 0
    anytime := bitOf flags 1
    cls := classOf (classCode r desc)
    regs := fieldAt desc 0x0C 2
    accum := fieldAt desc 0x0E 1
    nparams := fieldAt desc 0x0F 1
    scratch := fieldAt desc 0x10 4
    budget := if bud = 0 then fieldAt desc 0x14 4 else bud
    deadline := if dl = 0 then release + fieldAt desc 0x18 8 else dl
    start := fieldAt r 0x10 8
    lvtrap := bitOf (fieldAt r 0x1C 2) 2
    macros := fieldAt r 0x1E 1
    gpt := fieldAt r 0x20 1
    tps := fieldAt r 0x21 1
    spans := fieldAt r 0x22 1
    psize := fieldAt r 0x24 4
    pbase := fieldAt r 0x28 8
    scrbase := fieldAt r 0x30 8
    scrlen := fieldAt r 0x38 8
    energy := fieldAt r 0x40 8
    cutt := fieldAt r 0x48 8
    hrec := (List.range 8).map fun h => BitVec.ofNat 64 (fieldAt r (0x50 + 8 * h) 8)
    params := (List.range 16).map fun i => BitVec.ofNat 32 (fieldAt r (0x90 + 4 * i) 4)
    handles := (handleWords desc).map handleOf }

/-- Whether a 64-bit number is a GLOBAL address (R73). -/
def isGlobal (n : Nat) : Bool := decide (windowOf (BitVec.ofNat 64 n) = .glob) && decide (n < 2 ^ 64)

/-- A record whose own bytes are malformed (R330, R332). -/
def badRecord (r : List Byte) : Bool :=
  let kd := fieldAt r 0 8
  decide (r.length ≠ 256) || decide (fieldAt r 0x1F 1 ≠ 0) || decide (fieldAt r 0x23 1 ≠ 0) ||
  decide (fieldAt r 0xD0 48 ≠ 0) || decide (8 ≤ fieldAt r 0x1C 2) || !isGlobal kd || decide (kd % 32 ≠ 0) ||
  decide (32 < fieldAt r 0x1E 1) ||
  decide (fieldAt r 0x20 1 = 0) || decide (16 < fieldAt r 0x20 1) ||
  decide (fieldAt r 0x21 1 = 0) || decide (64 < fieldAt r 0x21 1) ||
  decide (fieldAt r 0x22 1 = 0) || decide (8 < fieldAt r 0x22 1) ||
  decide (65536 < fieldAt r 0x24 4) || decide (fieldAt r 0x24 4 % 16 ≠ 0) ||
  !isGlobal (fieldAt r 0x28 8) || decide (fieldAt r 0x28 8 % 128 ≠ 0) || !isGlobal (fieldAt r 0x30 8)

/-- A descriptor that breaks its limits (R30, R35, R332). One whose class and relative deadline do not go together, a class
with the deadline 0 or the class 11 with one, is none (DESIGN CHOICE, log entry 133). -/
def badDescriptor (desc : List Byte) : Bool :=
  decide (desc.length ≠ 96) || decide (16 ≤ fieldAt desc 8 4) || decide (fieldAt desc 0x0C 2 = 0) ||
  decide (256 < fieldAt desc 0x0C 2) || decide (8 < fieldAt desc 0x0E 1) || decide (16 < fieldAt desc 0x0F 1) ||
  decide (4194304 < fieldAt desc 0x10 4) || decide (fieldAt desc 0x10 4 % 1024 ≠ 0) ||
  decide (2 ^ 62 < fieldAt desc 0x18 8) || (handleWords desc).any badHandle

/-- The produced handles, with their record addresses. -/
def Rec.produced (d : Rec) : List (Nat × DWord) :=
  (List.range 8).filterMap fun h =>
    match d.handles.getD h .undeclared with
    | .produced _ _ => some (h, d.hrec.getD h 0)
    | _ => none

/-- A record that is malformed beside its descriptor (R332, R356), the produced records' translations
apart. -/
def badPair (r desc : List Byte) (d : Rec) : Bool :=
  let top := d.pbase + d.gpt * d.tps * d.spans * d.psize * 32
  decide (classCode r desc = 3) ||
  (decide (fieldAt r 0x08 8 = 0) && decide (fieldAt desc 0x18 8 = 0)) ||
  (decide (d.start ≠ 0) && decide (d.deadline ≤ d.start)) ||
  ((d.handles.zip d.hrec).any fun x => decide (x.1 = .undeclared) != decide (x.2 = 0)) ||
  (d.hrec.any fun a => decide (a.toNat % 128 ≠ 0)) ||
  (d.produced.any fun x => !isGlobal x.2.toNat) ||
  !decide (d.produced.map (·.2)).Nodup ||
  (!d.anytime && (decide (d.energy ≠ 0) || decide (d.cutt ≠ 0))) ||
  (d.anytime && decide (d.psize ≠ 0) && !(decide (d.scrbase ≤ d.pbase) && decide (top ≤ d.scrbase + d.scrlen)))

/-- Admission walks for no core: it uses no translation cache (R86). -/
def noCore : Nat := 512

/-- Whether a home's line can be read or written for admission: no error in it, its link up; function windows take no
such access (R332, R420). -/
def State.reachable (s : State) (c pa : Nat) : Bool :=
  decide (paKind pa ≠ 3) && !s.failed (pa / 128) && s.linkUp (s.fn (s.fnOfCtx c)).part pa

/-- Where a virtual address of a context is, for a read of admission. -/
def State.placeVirtual (s : State) (c va : Nat) (k : XKind) : XRes :=
  (s.translate noCore (s.ctx c) (va % 2 ^ 57) k false false).1

/-- Bytes at a virtual address of a context, for admission. -/
def State.readVirtual (s : State) (c va n : Nat) : Option (List Byte) :=
  match s.placeVirtual c va .read with
  | .ok pa _ _ => if s.reachable c pa then some (Memory.bytes s.mem pa n) else none
  | _ => none

/-- The 96 bytes of a kernel descriptor (R35), read in pieces of 32. -/
def State.readDescriptor (s : State) (c va : Nat) : Option (List Byte) :=
  match s.readVirtual c va 32, s.readVirtual c (va + 32) 32, s.readVirtual c (va + 64) 32 with
  | some a, some b, some d => some (a ++ b ++ d)
  | _, _, _ => none

/-- The physical address of a produced record: local HBM, readable and writable (R332). -/
def State.producedPa (s : State) (c : Nat) (a : DWord) : Option Nat :=
  match s.placeVirtual c a.toNat .atomic with
  | .ok pa _ _ => if isHbm pa && s.reachable c pa then some pa else none
  | _ => none

/-- The uncorrectable error that an access of admission meets, in a table entry or in the line (R102). -/
def State.errorAt (s : State) (c va : Nat) (k : XKind) : Option Nat :=
  match s.placeVirtual c va k with
  | .check pa => some pa
  | .ok pa _ _ => if s.failed (pa / 128) then some pa else none
  | _ => none

/-- A submission as admission reads it: the resolved record and the produced records' addresses. -/
structure Parsed where
  desc : Rec
  hpa : List (Option Nat)
  deriving DecidableEq, Repr

/-- Check 1 of R336. Two produced handles that name one record, under whichever addresses, are malformed (R356). -/
def State.parse (s : State) (x : Submission) : Option Parsed :=
  if badRecord x.bytes then none
  else
    match s.readDescriptor x.ctx (fieldAt x.bytes 0 8) with
    | none => none
    | some desc =>
      let d := recOf x.bytes desc x.release
      if badDescriptor desc || badPair x.bytes desc d then none
      else
        let hpa : List (Option Nat) := (List.range 8).map fun h =>
          match d.handles.getD h .undeclared with
          | .produced _ _ => s.producedPa x.ctx (d.hrec.getD h 0)
          | _ => none
        if (d.produced.any fun y => (hpa.getD y.1 none).isNone) || !decide (hpa.filterMap id).Nodup then none
        else some ⟨d, hpa⟩

/-- The first uncorrectable error that reading a submission's descriptor, or its produced records, meets (R102). -/
def State.parseError (s : State) (x : Submission) : Option Nat :=
  let va := fieldAt x.bytes 0 8
  if badRecord x.bytes then none
  else
    match [0, 32, 64].findSome? fun o => s.errorAt x.ctx (va + o) .read with
    | some pa => some pa
    | none =>
      match s.readDescriptor x.ctx va with
      | none => none
      | some desc =>
        let d := recOf x.bytes desc x.release
        if badDescriptor desc || badPair x.bytes desc d then none
        else d.produced.findSome? fun y => s.errorAt x.ctx y.2.toNat .atomic

/-! ### The checks of R336 -/

/-- Whether a class mask includes a class (R422). -/
def classAllowed (mask : Word) (c : Class) : Bool :=
  match c with
  | .hard => mask.getLsbD 0
  | .soft => mask.getLsbD 1
  | .best => mask.getLsbD 2

/-- The launches of a partition that hold a table entry (R336). -/
def State.entries (s : State) (part : Nat) : List Nat :=
  (s.launches.map (·.1)).eraseDups.filter fun l => decide ((s.launch l).part = part) && !(s.launch l).ended

/-- Slots of a calendar that a tenant owns (R337, R339). -/
def ownedSlots (cal : List Byte) (vdid : Nat) : Nat :=
  (cal.filter fun e => decide (e.toNat = 128 + vdid)).length

/-- The first core of a partition, whose calendar gives Wt. -/
def State.firstCore (s : State) (part : Nat) : Nat :=
  64 * ((List.range 8).find? fun k => s.owns part k).getD 0

/-- The demand test (R337) over the tenant's hard and soft entries, as (deadline, remaining cycles). -/
def demandTest (cores wt f now : Nat) (new : Nat × Nat) (old : List (Nat × Nat)) : Bool :=
  let points := new.1 :: (old.map (·.1)).filter fun d => decide (new.1 ≤ d)
  points.all fun d =>
    let demand := ((new :: old).filter fun e => decide (e.1 ≤ d)).foldl (fun a e => a + e.2) 0
    decide (demand ≤ cores * wt * (d - now) * f * 9 / 25600)

/-- Check 7 of R336. -/
def State.demandOk (s : State) (x : Submission) (d : Rec) : Bool :=
  let old := (s.entries x.part).filterMap fun l =>
    let y := s.launch l
    if y.vdid = x.vdid ∧ y.service = false ∧ y.demoted = false ∧ y.desc.cls ≠ .best then
      some (y.desc.deadline, y.remaining)
    else none
  demandTest (64 * s.clusterCount x.part) (ownedSlots (s.calendar (s.firstCore x.part)).now x.vdid)
    (s.part x.part).f x.release (d.deadline, d.budget * 1024) old

/-- A produced record that is in use (R336, R356). -/
def State.recordBusy (s : State) (pa : Nat) : Bool :=
  (s.status pa).live || (List.range 4).any fun j => decide (Memory.read s.mem (pa + 0x30 + 4 * j) 4 ≠ 0)

/-- Whether a parent is anytime (R336). -/
def Submission.parentOf (x : Submission) : Option Nat :=
  match x.by_ with
  | .group g _ _ => some (launchOf g)
  | _ => none

/-- Checks 1 to 4 of R336. -/
def State.earlyChecks (s : State) (x : Submission) : Except AdmitCode Parsed :=
  match s.parse x with
  | none => .error .rejMalformed
  | some p =>
    let d := p.desc
    if !classAllowed (s.fn x.vdid).classMask d.cls ||
        ((match x.parentOf with
          | some l => (s.launch l).desc.anytime
          | none => false) && !d.anytime) then .error .rejClass
    else if d.budget = 0 then .error .rejBudgetZero
    else if d.deadline ≤ x.release then .error .rejDeadlinePast
    else .ok p

/-- Where a launch is placed: its clusters, its cores and banks, and the parent whose footprint it uses. -/
structure Placement where
  clusters : Nat
  place : List (Nat × Nat)
  nested : Option Nat
  deriving DecidableEq, Repr

/-- A placement under R338: free resources, else the parent's footprint. -/
def State.placement (s : State) (pref : List Nat) (x : Submission) (d : Rec) : Option Placement :=
  let producer := decide (d.produced ≠ [])
  match s.findPlace x.part (coreOrder pref) d producer with
  | some (c, p) => some ⟨c, p, none⟩
  | none =>
    match x.parentOf with
    | none => none
    | some l => (s.nestPlace l d producer).map fun q => ⟨q.1, q.2, some l⟩

/-- Checks 5 to 7 of R336. -/
def State.lateChecks (s : State) (pref : List Nat) (x : Submission) (p : Parsed) : Except AdmitCode Placement :=
  match s.placement pref x p.desc with
  | none => .error .rejResource
  | some pl =>
    if p.hpa.any fun a =>
        match a with
        | some pa => s.recordBusy pa
        | none => false then .error .rejResource
    else if 1024 ≤ (s.entries x.part).length then .error .rejTableFull
    else if p.desc.cls ≠ .best ∧ s.demandOk x p.desc = false then .error .rejCapacity
    else .ok pl

/-! ### Admission's effect (R336, R356) -/

/-- A produced record as admission writes it (R354 to R356). -/
def freshRecord (m : List Host.Cell) (pa slots slotb owner : Nat) : List Host.Cell :=
  let st : Status := ⟨0, true, false, 0, slots - 2, 0, 0⟩
  Memory.put m pa (bytesOf 4 st.toNat ++ bytesOf 12 0 ++ bytesOf 8 owner ++ bytesOf 4 slotb ++ bytesOf 100 0)

/-- The launch identifier of OWNER (R354). -/
def ownerOf (part seq : Nat) : Nat := part * 2 ^ 56 + seq % 2 ^ 56

/-- A launch as admission creates it. -/
def newLaunch (x : Submission) (p : Parsed) (pl : Placement) (seq : Nat) : Launch :=
  { Launch.absent with
    desc := p.desc, part := x.part, seq := seq, vdid := x.vdid, ctx := x.ctx, release := x.release,
    clusters := pl.clusters, place := pl.place, hpa := p.hpa, nested := pl.nested, ended := false }

/-- Admits a launch: a table entry, the next sequence number, the produced records (R336, R356). The answer
is the new launch's identifier. -/
def State.admitLaunch (s : State) (x : Submission) (p : Parsed) (pl : Placement) : State × Nat :=
  let part := s.part x.part
  let l := s.launchNext
  let m := ((List.range 8).foldl (fun m h =>
    match p.desc.handles.getD h .undeclared, p.hpa.getD h none with
    | .produced slots slotb, some pa => freshRecord m pa slots slotb (ownerOf x.part part.seq)
    | _, _ => m) s.mem)
  let s := { s.sweep (p.hpa.filterMap id) with mem := m, launchNext := l + 1 }
  let s := s.setPart x.part { part with seq := part.seq + 1 }
  let seen := (List.range 4).map fun d => ((s.die d).energy, s.cyclesOn d, 0)
  (s.setLaunch l { newLaunch x p pl part.seq with seen := seen }, l)

/-- The A and D bits and cached entries that an access of admission leaves (R78). -/
def State.touch (s : State) (c va : Nat) (k : XKind) : State :=
  s.leave (s.translate noCore (s.ctx c) (va % 2 ^ 57) k false false).2

/-- What reading a descriptor leaves. -/
def State.touchDescriptor (s : State) (x : Submission) : State :=
  let va := fieldAt x.bytes 0 8
  if badRecord x.bytes then s
  else ((s.touch x.ctx va .read).touch x.ctx (va + 32) .read).touch x.ctx (va + 64) .read

/-- What reading (`.read`) or writing the produced records leaves. -/
def State.touchRecords (s : State) (x : Submission) (d : Rec) (k : XKind) : State :=
  d.produced.foldl (fun s y => s.touch x.ctx y.2.toNat k) s

/-- Every check in the order of R336, and the admission. An uncorrectable error kills the context (R102). -/
def State.tryAdmit (s : State) (pref : List Nat) (x : Submission) : State × Except AdmitCode Nat :=
  match s.parseError x with
  | some pa => (s.machineCheck x.ctx pa, .error .rejMalformed)
  | none =>
    match s.earlyChecks x with
    | .error c => (s.touchDescriptor x, .error c)
    | .ok p =>
      match s.lateChecks pref x p with
      | .error c => ((s.touchDescriptor x).touchRecords x p.desc .read, .error c)
      | .ok pl =>
        let q := ((s.touchDescriptor x).touchRecords x p.desc .atomic).admitLaunch x p pl
        (q.1, .ok q.2)

end Sys2Proof.Machine
end

