-- ==== Sys2Proof/Machine/Mailbox.lean ====
section
/-! DEFINITION. Time discipline (R323 to R328), the mailbox and its commands (R420 to R424, R430, R431), and
the invalidation port (R88). The commands' own meanings take their function and arguments; a write of the
command word in a function's window runs the same operations. -/

namespace Sys2Proof

/-- Where a unit's calendar stands in the table. -/
def CalUnit.key : CalUnit → Nat
  | .core n => n
  | .port n => 1024 + n
  | .chan n => 2048 + n

end Sys2Proof

namespace Sys2Proof.Machine

open Sys2Proof

/-! ### Time discipline (R324, R325)

The four timekeepers hold one common reference: an exchange disciplines all of them alike, so that their counts never
differ and the bounds within a die and across the package hold (DEDUCED, log entry 103). -/

/-- The bound, in ticks, that an exchange's offset is held against: the domain's (R325). -/
def domainBound : Nat := 256

/-- An exchange as one die's timekeeper takes it: the measured offset is kept, the slew applied from now on, and
LOCKED set after 16 good exchanges or cleared at the first bad one. -/
def Die.exchange (x : Die) (offset : Nat) (slew : Int) : Die :=
  let good := if offset ≤ domainBound then x.good + 1 else 0
  { x with
    offsets := (offset :: x.offsets).take 16, good := good
    locked := decide (offset ≤ domainBound) && (x.locked || decide (16 ≤ good))
    lastExchange := x.ticks, slew := slew }

/-- One exchange of the timekeepers, whose clock stands `ahead` of their counts. A die that loses LOCKED posts SKEW
(R324, R325). -/
def State.exchange (s : State) (ahead : Int) : State :=
  (List.range 4).foldl (fun s d =>
    let x := s.die d
    if x.src = 0 then s
    else
      let y := x.exchange ahead.natAbs ahead
      let s := s.setDie d y
      if x.locked && !y.locked then s.post 0 evSkew (d * 256) 0 none else s) s

/-! ### Completing a command (R421, R422) -/

/-- Error codes of a command. -/
inductive MbError where | malformed | notPermitted | noResources
  deriving DecidableEq, Repr

/-- The error field. -/
def MbError.code : MbError → Nat
  | .malformed => 1
  | .notPermitted => 2
  | .noResources => 3

/-- Whether the device is up: cores run after boot (R426). -/
def State.up (s : State) : Bool := decide (s.boot = .booted)

/-- Whether the mailbox is alive: after a boot, and after one whose check has failed (R426). -/
def State.mbAlive (s : State) : Bool := decide (s.boot ≠ .off)

/-- Whether a function has a command in progress (R421): one that waits for the host. -/
def State.mbBusy (s : State) (fn : Nat) : Bool := s.hostWaits.any fun w => w.1 == fn

/-- Sets a function's mailbox status; after a failed check bits [31:16] keep 0xBAD1 (R426). -/
def State.mbSet (s : State) (fn : Nat) (v : DWord) : State :=
  s.setFn fn { s.fn fn with
    mbStatus := if s.boot = .failed then v &&& 0xFFFFFFFF0000FFFF ||| 0xBAD10000 else v }

/-- Sets the result word. -/
def State.mbResult (s : State) (fn v : Nat) : State :=
  s.setFn fn { s.fn fn with win := Memory.write (s.fn fn).win 0x0008 8 v }

/-- A command as it runs: what it does where it succeeds, or its error. -/
abbrev Command := State → Except MbError State

/-- Takes a command (R421): refused while another is in progress; otherwise DONE and its error. After a failed check
nothing but the mailbox is there to carry it out: error 3 (DESIGN CHOICE, log entry 104). -/
def State.command (s : State) (fn : Nat) (f : Command) : State :=
  if !s.mbAlive || decide (64 < fn) then s
  else if s.mbBusy fn then s.mbSet fn ((s.fn fn).mbStatus ||| 2)
  else
    match if s.up then f s else .error .noResources with
    | .ok t => t.mbSet fn 1
    | .error e => s.mbSet fn (BitVec.ofNat 64 (e.code * 256 + 1))

/-- A command of the physical function (R421). -/
def pfOnly (fn : Nat) (f : Command) : Command := fun s =>
  if fn ≠ 0 then .error .notPermitted else f s

/-- An argument word. -/
def argAt (args : List DWord) (n : Nat) : Nat := (args.getD n 0).toNat

/-! ### Commands -/

/-- Loads a timekeeper. What is measured since power-on does not move. -/
def Die.load (x : Die) (t : DWord) : Die := { x with count := t, base := t - (x.count - x.base), epoch := true }

/-- SETEPOCH (R323). -/
def cmdSetEpoch (t : DWord) : Command := fun s =>
  if (List.range 4).any fun d => (s.die d).epoch then .error .notPermitted
  else .ok ((List.range 4).foldl (fun s d => s.setDie d ((s.die d).load t)) s)

/-- Whether the device follows the grandmaster's time, as the host posts it: by the image's source, or as the domain's
root device (R324). -/
def State.followsHost (s : State) : Bool :=
  decide ((s.die 0).src = 1) || (decide ((s.die 0).src = 2) && s.syncPort.isNone)

/-- TIMEPOST (R324): an exchange with the grandmaster's clock. -/
def cmdTimePost (t delay : DWord) : Command := fun s =>
  .ok (if s.followsHost then s.exchange ((t.toNat : Int) + delay.toNat - (s.time 0).toNat) else s)

/-! ### Throttling of a partition (R341) -/

/-- The cores of a partition. -/
def State.coresOf (s : State) (part : Nat) : List Nat := (List.range 512).filter fun c => s.owns part (clusterOfCore c)

/-- The dies that hold clusters of a partition. -/
def State.diesOf (s : State) (part : Nat) : List Nat :=
  (List.range 4).filter fun d => s.owns part (2 * d) || s.owns part (2 * d + 1)

/-- TSTAT.THR of some dies. -/
def State.setThr (s : State) (ds : List Nat) (on : Bool) : State :=
  ds.foldl (fun s d => s.setDie d { s.die d with thr := on }) s

/-- The lowest clock of a partition's cores. -/
def State.lowClock (s : State) (part : Nat) : Nat := (s.coresOf part).foldl (fun m c => min m (s.core c).mhz) 2400

/-- A partition after a change of its cores or of their clocks (R341): with one below 1.8 GHz it is throttled, and
THROTTLE is posted as that begins; at 1.8 GHz or above the 1 ms begins after which it ends. While it is throttled, F is
the lowest clock in units of 100 MHz. -/
def State.afterClocks (s : State) (part : Nat) : State :=
  let p := s.part part
  let low := s.lowClock part
  if !p.live then s
  else if low < 1800 then
    let s := (s.setThr (s.diesOf part) true).setPart part { p with throttled := true, f := low / 100, fastFrom := none }
    if p.throttled then s else s.post 0 evThrottle part 0 none
  else if p.throttled then s.setPart part { p with f := low / 100, fastFrom := some (p.fastFrom.getD (s.ticks 0)) }
  else s

/-- The throttle state of a partition ends; a die keeps THR for another throttled one (R341). -/
def State.unthrottle (s : State) (part : Nat) : State :=
  let s := s.setPart part { s.part part with throttled := false, f := 18, fastFrom := none }
  let still := fun d => (List.range 8).any fun q => (s.part q).throttled && (s.diesOf q).contains d
  s.setThr ((s.diesOf part).filter fun d => !still d) false

/-! ### Partitions -/

/-- The fault-service record and its descriptor (R431): the record's bytes; its KDESC is read as a physical address,
since no context translates it. -/
def State.serviceRec (s : State) (r : List Byte) : Option Rec :=
  let kd := fieldAt r 0 8
  if r.length ≠ 256 ∨ isHbm kd = false ∨ kd % 32 ≠ 0 ∨ 8 ≤ fieldAt r 0x1C 2 then none
  else
    let desc := Memory.bytes s.mem kd 96
    let regs := fieldAt desc 0x0C 2
    let scratch := fieldAt desc 0x10 4
    if regs = 0 ∨ 256 < regs ∨ 16 < fieldAt desc 0x0F 1 ∨ 4194304 < scratch ∨ scratch % 1024 ≠ 0 then none
    else some { Rec.empty with
      entry := fieldAt desc 0 8 / 16 * 3, cls := .hard, regs := regs, nparams := fieldAt desc 0x0F 1,
      scratch := scratch, lvtrap := bitOf (fieldAt r 0x1C 2) 2, gpt := 1, tps := 1, spans := 1,
      params := (List.range 16).map fun i => BitVec.ofNat 32 (fieldAt r (0x90 + 4 * i) 4) }

/-- The bytes of the record that PARTCREATE names: at a device physical address aligned to 64, or the default that the
image carries for the partition (R431). -/
def State.serviceBytes (s : State) (n pa : Nat) : List Byte :=
  if pa = 0 then
    (match s.img with
     | some i => i.faultRecords.getD n []
     | none => [])
  else if isHbm pa && decide (pa % 64 = 0) then Memory.bytes s.mem pa 256
  else []

/-- The core and bank of each die's handler footprint (R431): the first core with room on every die that
holds clusters of the partition. -/
def State.servicePlaces (s : State) (clusters : Word) (f : Footprint) : Option (List (Nat × Nat)) :=
  let ks := (List.range 8).filter fun k => clusters.getLsbD k
  let dies := (ks.map fun k => k / 2).eraseDups
  let one := fun d => ((List.range 512).filter fun c => dieOfCore c == d && ks.contains (clusterOfCore c)).findSome?
    fun c => (s.bankFor c f).map fun b => (c, b)
  if dies.all fun d => (one d).isSome then some (dies.filterMap one) else none

/-- PARTCREATE (R422, R424, R431). -/
def cmdPartCreate (args : List DWord) : Command := fun s =>
  let w := argAt args 0
  let n := w / 2 ^ 32 % 8
  let dev := argAt args 2
  let clusters := BitVec.ofNat 32 (w % 256)
  let stks := BitVec.ofNat 32 (w / 256 % 65536)
  let fronts := BitVec.ofNat 32 (w / 2 ^ 24 % 256)
  let taken := (List.range 8).any fun p =>
    let y := s.part p
    y.live && (decide (p = n) || decide (y.clusters &&& clusters ≠ 0) || decide (y.stks &&& stks ≠ 0) ||
      decide (y.fronts &&& fronts ≠ 0))
  if 2 ^ 35 ≤ w ∨ 1151 < dev then .error .malformed
  else if taken then .error .noResources
  else
    match s.serviceRec (s.serviceBytes n (argAt args 1)) with
    | none => .error .malformed
    | some d =>
      match s.servicePlaces clusters d.footprint with
      | none => .error .noResources
      | some ps =>
        let l := s.launchNext
        let x : Launch := { Launch.absent with
          desc := d, part := n, seq := 1, place := ps, clusters := ps.length, ended := false, service := true }
        let p : Partition := { Partition.absent with
          live := true, clusters := clusters, stks := stks, fronts := fronts, service := l, device := dev,
          routing := args.getD 3 0, seq := 2 }
        .ok ((({ s with launchNext := l + 1 }.setLaunch l x).setPart n p).afterClocks n)

/-- PARTDESTROY (R421, R431): the partition and its fault-service launch end, and its throttle state with them. -/
def cmdPartDestroy (part : Nat) : Command := fun s =>
  let p := s.part part
  if !p.live then .error .malformed
  else
    let s := s.endLaunch p.service 0 false false none
    let s := if p.throttled then s.unthrottle part else s
    .ok (s.setPart part { s.part part with live := false })

/-- Whether a calendar entry is one of R339. -/
def goodEntry (e : Byte) : Bool :=
  let n := e.toNat
  if 128 ≤ n then decide (n - 128 ≤ 64) else decide (n = 0)

/-- CALWRITE (R339). -/
def cmdCalWrite (u : Nat) (entries : List Byte) : Command := fun s =>
  if entries.length = 64 ∧ entries.all goodEntry = true then
    .ok (s.setCalendar u { s.calendar u with next := some entries })
  else .error .malformed

/-- CONNWRITE (R424). -/
def cmdConnWrite (port : Nat) (stks : Word) : Command := fun s =>
  if port ≤ 17 ∧ stks.toNat < 65536 then .ok { s with conn := s.conn.set port stks } else .error .malformed

/-- CTXKILL (R391, R421). -/
def cmdCtxKill (c : Nat) : Command := fun s =>
  if (s.ctx c).live then .ok (s.killCtx c evKill none) else .error .malformed

/-- CTXLEAVE (R400): the soft request. -/
def cmdCtxLeave (c : Nat) : Command := fun s =>
  if (s.ctx c).live then .ok (s.setCtx c { s.ctx c with preq := true, leaving := .soft (s.ticks 0) })
  else .error .malformed

/-- CTXRESUME (R406): the halted groups of the context go on at their next slot. -/
def cmdCtxResume (c : Nat) : Command := fun s =>
  if (s.ctx c).live then
    .ok ((s.liveGroups.filter fun g => decide (s.ctxOf g = c)).foldl
      (fun s g => s.setGroup g { s.group g with halted := false }) s)
  else .error .malformed

/-- DTABLE.MODE from its code (R66). -/
def DMode.ofCode (n : Nat) : DMode :=
  if n = 0 then .service else if n = 1 then .startup else if n = 2 then .test else .recovery
/-- DTABLE.MODE (R66). -/
def DMode.code : DMode → Nat
  | .service => 0
  | .startup => 1
  | .test => 2
  | .recovery => 3

/-- Whether the image permits a mode for a partition (R66, R422). -/
def State.modePermitted (s : State) (part mode : Nat) : Bool :=
  decide (mode = 0) ||
  match s.img with
  | some i => i.modes.contains (part, mode)
  | none => false

/-- CTXCREATE (R422). -/
def cmdCtxCreate (fn : Nat) (args : List DWord) : Command := fun s =>
  let w := argAt args 0
  let vdid := w % 128
  let mode := w / 256 % 4
  let root := argAt args 1
  if fn ≠ 0 ∧ vdid ≠ fn then .error .notPermitted
  else if 1024 ≤ w ∨ 64 < vdid ∨ 2 ^ 56 ≤ root ∨ root % 4096 ≠ 0 then .error .malformed
  else if !s.modePermitted (s.fn vdid).part mode then .error .notPermitted
  else
    let hvec := if argAt args 2 = 0 then
        (match s.img with
         | some i => i.hvec
         | none => 0)
      else args.getD 2 0
    let c : Context := { Context.absent with
      live := true, vdid := vdid, s2en := decide (fn ≠ 0) || bitOf w 7, xlroot1 := BitVec.ofNat 64 root,
      xlroot2 := (s.fn vdid).xlroot2, hvec := hvec, lock := decide (mode = 0), mode := DMode.ofCode mode }
    .ok (({ s with ctxNext := s.ctxNext + 1 }.setCtx s.ctxNext c).mbResult fn s.ctxNext)

/-- VDSETUP (R87, R422). -/
def cmdVdSetup (args : List DWord) : Command := fun s =>
  let w := argAt args 0
  let vdid := w % 128
  let part := w / 256 % 8
  let q := argAt args 2
  let x2 := argAt args 1
  if 2 ^ 14 ≤ w ∨ 64 < vdid ∨ 2 ^ 22 ≤ q ∨ 8192 < q % 2 ^ 14 ∨ q / 2 ^ 14 % 4 ≠ 0 ∨ q / 2 ^ 16 % 64 = 0 ∨
      32 < q / 2 ^ 16 % 64 ∨ 2 ^ 56 ≤ x2 ∨ x2 % 4096 ≠ 0 ∨ (s.part part).live = false then .error .malformed
  else .ok (s.setFn vdid { s.fn vdid with
    part := part, classMask := BitVec.ofNat 32 (w / 2 ^ 11 % 8), xlroot2 := BitVec.ofNat 64 x2,
    entryQuota := q % 2 ^ 14, walkerQuota := q / 2 ^ 16 % 64 })

/-- PAGEREQ (R421): the request waits for the host; the host's answer comes in the arguments and sets DONE. -/
def State.pageRequest (s : State) (fn arg : Nat) : State :=
  if !s.mbAlive || decide (64 < fn) then s
  else if s.mbBusy fn then s.mbSet fn ((s.fn fn).mbStatus ||| 2)
  else { s with hostWaits := s.hostWaits ++ [(fn, arg)] }.mbSet fn 0

/-- The arguments' words as the host leaves them. -/
def putArgs (m : List Host.Cell) (o : Nat) : List DWord → List Host.Cell
  | [] => m
  | w :: r => putArgs (Memory.write m o 8 w.toNat) (o + 8) r

/-- The host's answer to a PAGEREQ. -/
def State.pageAnswer (s : State) (fn : Nat) (ans : List DWord) : State :=
  if s.mbBusy fn then
    let s := { s with hostWaits := s.hostWaits.filter fun w => w.1 != fn }
    let s := s.setFn fn { s.fn fn with win := putArgs (s.fn fn).win 0x0008 (ans.take 511) }
    s.mbSet fn 1
  else s

/-- The argument words of a function's mailbox. -/
def State.mbArgs (s : State) (fn : Nat) : List DWord :=
  (List.range 5).map fun j => BitVec.ofNat 64 (Memory.read (s.fn fn).win (8 + 8 * j) 8)

/-- A unit of CALWRITE's first argument word: its kind in bits [17:16], its number below. -/
def unitOfArg (w : Nat) : Option Nat :=
  let n := w % 65536
  if w / 65536 = 0 then (if n < 512 then some n else none)
  else if w / 65536 = 1 then (if n < 18 then some (1024 + n) else none)
  else if w / 65536 = 2 then some (2048 + n)
  else none

/-- Runs the command whose code a write of the command word gives (R421), with the window's arguments. -/
def State.runCommand (s : State) (fn code : Nat) : State :=
  let a := s.mbArgs fn
  let w := argAt a 0
  match code with
  | 0x01 => s.command fn (pfOnly fn (cmdSetEpoch (a.getD 0 0)))
  | 0x02 => s.command fn (pfOnly fn (cmdTimePost (a.getD 0 0) (a.getD 1 0)))
  | 0x10 => s.command fn (pfOnly fn (cmdPartCreate a))
  | 0x11 => s.command fn (pfOnly fn (cmdPartDestroy w))
  | 0x12 => s.command fn (pfOnly fn fun t =>
      match unitOfArg w with
      | some u => cmdCalWrite u (Memory.bytes (s.fn fn).win 0x10 64) t
      | none => .error .malformed)
  | 0x13 => s.command fn (pfOnly fn (cmdConnWrite w (BitVec.ofNat 32 (argAt a 1))))
  | 0x14 => s.command fn (pfOnly fn (cmdCtxKill w))
  | 0x15 => s.command fn (pfOnly fn (cmdCtxLeave w))
  | 0x16 => s.command fn (pfOnly fn (cmdCtxResume w))
  | 0x17 => s.command fn (cmdCtxCreate fn a)
  | 0x19 => s.command fn (pfOnly fn (cmdVdSetup a))
  | 0x20 => s.pageRequest fn w
  | _ => s.command fn fun _ => .error .malformed

/-! ### The invalidation port (R88) -/

/-- A descriptor's fields. -/
structure InvDesc where
  kind : Nat
  vdid : Nat
  size : Nat
  addr : DWord
  deriving DecidableEq, Repr

/-- Whether a port accepts a descriptor (R88). -/
def InvDesc.accepted (d : InvDesc) (fn : Nat) : Bool :=
  let ranged := decide (d.kind = 1) || decide (d.kind = 2)
  decide (d.kind ≤ 3) &&
  (if fn = 0 then decide (d.vdid ≤ 64) else decide (d.kind = 1)) &&
  (if ranged then decide (16 ≤ d.size) && decide (d.size ≤ 57) && decide (d.addr.toNat % 2 ^ d.size = 0)
   else decide (d.addr = 0))

/-- What a group has issued that may still store and that must reach its home before a post of its is processed
(R89): its accesses, held ones too, its copies and its matrix instruction. -/
def State.fencesOf (s : State) (poster : Option Nat) : List Pending :=
  match poster with
  | none => []
  | some g =>
    (((s.group g).inflight.filter fun a => decide (a.2.kind ≠ .load) && decide (a.2.kind ≠ .pfet)).map fun a =>
      .access g a.1) ++ ((s.group g).copies.map fun c => .copy g c.2.order) ++
      (match s.jobOf g with
       | some j => [.job g j.order]
       | none => [])

/-- Posts a descriptor (R88): the next INVSEQ, or INVERR. -/
def State.postInv (s : State) (fn : Nat) (d : InvDesc) (poster : Option Nat) : State :=
  let f := s.fn fn
  if d.accepted fn then
    let seq := f.invSeq + 1
    let p : Posted :=
      { seq := seq, kind := d.kind, vdid := if fn = 0 then d.vdid else fn, size := d.size, addr := d.addr,
        fences := s.fencesOf poster }
    s.setFn fn { f with invSeq := seq, posted := f.posted ++ [p] }
  else s.setFn fn { f with invErr := true }

/-- The descriptor of 16 bytes; reserved bits set make it one that no port accepts. -/
def invDescOf (bs : List Byte) : InvDesc :=
  let w := fieldAt bs 0 8
  let bad := decide (w / 2 ^ 11 % 32 ≠ 0) || decide (w / 2 ^ 22 ≠ 0)
  ⟨if bad then 15 else w % 16, w / 16 % 128, w / 65536 % 64, BitVec.ofNat 64 (fieldAt bs 8 8)⟩

/-- A write into the staging buffer at a window offset from 0x1000; the one that includes 0x100F posts. -/
def State.stageInv (s : State) (fn off : Nat) (bytes : List Byte) (poster : Option Nat) : State :=
  let f := s.fn fn
  let o := off - 0x1000
  let buf := Memory.put f.invBuf o bytes
  if 16 ≤ o + bytes.length then
    let bs := Memory.bytes buf 0 16
    (s.setFn fn { f with invBuf := [] }).postInv fn (invDescOf bs) poster
  else s.setFn fn { f with invBuf := buf }

/-! ### The register window (R420) -/

/-- Reads `n` bytes at a window offset, little-endian. -/
def State.readWindow (s : State) (fn off n : Nat) : Nat :=
  let f := s.fn fn
  let at8 := fun (base : Nat) (v : DWord) => v.toNat / 2 ^ (8 * (off - base)) % 2 ^ (8 * n)
  if 0x0FF8 ≤ off ∧ off < 0x1000 then at8 0x0FF8 f.mbStatus
  else if 0x1000 ≤ off ∧ off < 0x1010 then 0
  else if 0x1010 ≤ off ∧ off < 0x1018 then at8 0x1010 f.invSeq
  else if 0x1018 ≤ off ∧ off < 0x1020 then at8 0x1018 f.invDone
  else if 0x1020 ≤ off ∧ off < 0x1028 then at8 0x1020 (if f.invErr then 1 else 0)
  else if 0x1028 ≤ off ∧ off < 0x2000 then 0
  else if 0x2200 ≤ off ∧ off < 0x3000 then 0
  else if 0x3040 ≤ off ∧ (fn ≠ 0 ∨ off < 0x4000 ∨ 0x4400 ≤ off) then 0
  else Memory.read f.win off n

/-- Where a partition's stage-2 fault queue has its registers, in the physical function's window (log entry 101). -/
def s2Queue (part : Nat) : Nat := 0x4000 + 0x80 * part

/-- Where its response word stands: the origin tag in bits [31:0], retry or fatal in bit [32] (log entry 101). -/
def s2Response (part : Nat) : Nat := s2Queue part + 0x40

/-- A write into the window of the physical function from 0x4000 on: the whole response word answers a stage-2 fault
(R100, R420). -/
def State.writeStage2 (s : State) (off : Nat) (bytes : List Byte) : State :=
  let s := s.setFn 0 { s.fn 0 with win := Memory.put (s.fn 0).win off bytes }
  if (List.range 8).any (fun p => decide (off = s2Response p)) && decide (bytes.length = 8) then
    s.stage2Answer (BitVec.ofNat 32 (fieldAt bytes 0 4)) (bitOf (fieldAt bytes 4 4) 0)
  else s

/-- Writes bytes at a window offset: a write of the command word runs its command, descriptor bytes are staged, INVERR
is write-one-to-clear, read-only registers ignore the write. -/
def State.writeWindow (s : State) (fn off : Nat) (bytes : List Byte) (poster : Option Nat) : State :=
  let f := s.fn fn
  let put := s.setFn fn { f with win := Memory.put f.win off bytes }
  if off < 0x0FF8 then
    if off = 0 then put.runCommand fn (Memory.read (put.fn fn).win 0 4) else put
  else if off < 0x1000 then s
  else if off < 0x1010 then s.stageInv fn off bytes poster
  else if off = 0x1020 then (if bitOf (natOfBytes bytes) 0 then s.setFn fn { f with invErr := false } else s)
  else if 0x2000 ≤ off ∧ off < 0x2200 then put
  else if 0x3000 ≤ off ∧ off < 0x3040 then put
  else if fn = 0 ∧ 0x4000 ≤ off ∧ off < 0x4400 then s.writeStage2 off bytes
  else s

end Sys2Proof.Machine
end

