-- ==== Sys2Proof/Machine/Access.lean ====
section
/-! DEFINITION. What one lane's access reaches, and the causes that it raises (R107 to R111, R113, R119,
R122, R134, R360, R420, R424); faults on their way to their service (R91, R96 to R100). -/

namespace Sys2Proof.Machine

open Sys2Proof

/-! ### Requests and answers -/

/-- One lane's access: the address it formed and what it wants there. -/
structure Want where
  lane : Nat
  addr : DWord
  size : Nat
  kind : XKind
  form : AForm
  family : Bool                   -- LD and ST families: they alone reach a function window (R420)
  orderDep : Bool                 -- ATOM.xchg, .cas or .fadd (R134)
  whole : Bool                    -- one indivisible piece (ASUM, R276)
  deriving DecidableEq, Repr

/-- A page fault of an access, as R97 and R99 report it. -/
structure FaultInfo where
  va : DWord
  addr : DWord                    -- the address that the access presented
  kind : Nat
  level : Nat
  malformed : Bool
  lg : Nat                        -- log2 of the size
  gpa : Option DWord              -- of a stage-2 fault
  deriving DecidableEq, Repr

/-- A region line to fill before an access (R113): the team, the entry, the line, where its bytes are. -/
structure Fill where
  team : Nat
  region : Nat
  line : Nat
  pa : Nat
  trail : Trail
  deriving DecidableEq, Repr

/-- What a lane's access reaches: its pieces, as (offset in the access, bytes, place). -/
structure Target where
  pieces : List (Nat × Nat × Loc)
  trail : Trail
  fills : List Fill
  rm : Bool
  prop01 : Bool
  deriving DecidableEq, Repr

/-- The outcome of a lane's checks. -/
inductive LaneRes where
  | bad (c : Cause) (info : Nat)
  | fault (f : FaultInfo) (tr : Trail)
  | check (pa : Nat)              -- a walker or a fill meets an uncorrectable error (R102)
  | away                          -- the target team is castled out (R108)
  | ok (t : Target)
  deriving DecidableEq, Repr

/-- No trail. -/
def Trail.none : Trail := ⟨[], [], []⟩

/-- log2 of a size in bytes. -/
def log2Size (n : Nat) : Nat := Nat.log2 n

/-- The pieces of an access (R276): a 128-bit one is two 64-bit events. -/
def piecesOf (size : Nat) (whole : Bool) (at_ : Nat → Loc) : List (Nat × Nat × Loc) :=
  if size = 16 ∧ whole = false then [(0, 8, at_ 0), (8, 8, at_ 8)] else [(0, size, at_ 0)]

/-- The worst of the causes that an access has, where it has one (R382). -/
def worstOf (cs : List (Bool × Cause)) : Option Cause :=
  (cs.filter (·.1)).foldl (fun a c =>
    match a with
    | none => some c.2
    | some b => if c.2.rank < b.rank then some c.2 else some b) none

/-! ### Team regions (R107 to R109, R113) -/

/-- A part that still has to be performed. -/
def Part.open_ (p : Part) : Bool := !p.performed && !p.dropped

/-- Whether an access still has a part to perform. -/
def Access.open_ (a : Access) : Bool := a.parts.any Part.open_

/-- The DIRTY lines of a region. -/
def Region.dirty (r : Region) : List Nat :=
  (List.range r.lines).filter fun i => decide (r.state.get .invalid i = .dirty)

/-- Whether a team has begun to end and may end: its groups have ended and its mapped regions are written back (R113,
R299). Its region is reached no more (R321). -/
def State.teamDone (s : State) (t : Nat) : Bool :=
  (List.range 16).all (fun i => !(s.group (t * 16 + i)).live) && (s.team t).regions.all fun r => r.2.dirty.isEmpty

/-- The live team of a group's launch at core position `k` of the group's cluster (R108, R321). -/
def State.teamAt (s : State) (g k : Nat) : Option Nat :=
  let l := launchOf g
  if (s.launch l).service then (if k = 0 then some (teamOf g) else none) else
  let c := max 1 (s.launch l).clusters
  ((List.range 8).map fun sp => l * 512 + sp * 64 + k).find? fun t =>
    (s.team t).live && !s.teamDone t && decide (spanOf t % c = s.cluster g)

/-- Whether a team is castled out: one of its groups stands in no live bank. -/
def State.teamAway (s : State) (t : Nat) : Bool :=
  s.liveGroups.any fun g => teamOf g == t && decide ((s.group g).bank ≠ .live)

/-- The bytes of a team's region. -/
def State.regionBytes (s : State) (t : Nat) : Nat := (s.launch (t / 512)).desc.scratch

/-- The mapped region that holds a team offset (R113). -/
def Team.regionAt (t : Team) (o : Nat) : Option (Nat × Region) :=
  ((List.range 8).filterMap fun n => (t.regions.find? fun e => e.1 == n)).find? fun e =>
    decide (e.2.start ≤ o) && decide (o < e.2.start + 128 * e.2.lines)

/-- The fault of a translation of a virtual address, in an access that presented `addr`. -/
def faultOf (va : Nat) (addr : DWord) (kind size : Nat) (x : XRes) : Option FaultInfo :=
  let v := BitVec.ofNat 64 va
  match x with
  | .fault level bad => some ⟨v, addr, kind, level, bad, log2Size size, none⟩
  | .stage2 gpa level => some ⟨v, addr, kind, level, false, log2Size size, some (BitVec.ofNat 64 gpa)⟩
  | _ => none

/-! ### Homes that may be reached (R420, R424, R425) -/

/-- The function window that a physical address names (R71): the function and the offset. -/
def windowAt (pa : Nat) : Nat × Nat := (pa / 65536 % 128, pa % 65536)

/-- Whether a translated address is denied: a window to all but the LD and ST families' 4- and 8-byte
accesses by a privileged lane (R420), a stack that the core's port may not reach (R424). -/
def State.denied (s : State) (g pa : Nat) (w : Want) (priv : Bool) : Bool :=
  if paKind pa = 3 then !(w.family && priv && (decide (w.size = 4) || decide (w.size = 8)))
  else if isHbm pa then !((s.conn.get 0 (clusterOfCore (s.coreOf g))).getLsbD (s.stackOf pa))
  else false

/-- Whether a link of a group's partition to an address's home is up. -/
def State.linked (s : State) (g pa : Nat) : Bool := s.linkUp (s.partOf g) pa

/-- The fill of the line at a virtual address for an access of a group (R112, R113): its home, or what stops it. It is
a read, which for a store also needs W. It meets a home that the core may not reach with PERMISSION, an error in the
line, or a home that no live link reaches, with MACHINE_CHECK (R102, R419, R425). -/
def State.lineFill (s : State) (g ctx va : Nat) (w : Want) (priv use : Bool) : Except LaneRes (Nat × Trail) :=
  let q := s.translate (s.coreOf g) (s.ctx ctx) va (if w.kind = .read then .read else .fill) priv use
  match q.1 with
  | .ok pa _ _ =>
    if s.denied g pa { w with size := 128, family := false } priv then .error (.bad .permission 0)
    else if s.failed (pa / 128) || !s.linked g pa then .error (.check pa)
    else .ok (pa, q.2)
  | .permission => .error (.bad .permission 0)
  | .check pa => .error (.check pa)
  | x =>
    match faultOf va w.addr 0 w.size x with
    | some f => .error (.fault f q.2)
    | none => .error (.bad .permission 0)

/-- Whether a fill answers PERMISSION, which the order of R382 puts first. -/
def fillDenied {α : Type} (r : Except LaneRes α) : Bool :=
  match r with
  | .error (.bad _ _) => true
  | _ => false

/-- The fill that a group's access at a team offset needs (R113): none, or the line's home, or what stops it. -/
def State.fillFor (s : State) (g t o : Nat) (w : Want) (priv use : Bool) : Except LaneRes (List Fill) :=
  match (s.team t).regionAt o with
  | none => .ok []
  | some (n, r) =>
    let line := (o - r.start) / 128
    if r.state.get .invalid line ≠ .invalid then .ok []
    else (s.lineFill g r.ctx (r.glob + 128 * line) w priv use).map fun q => [⟨t, n, line, q.1, q.2⟩]

/-- An access of a group at an offset of a team's region. `det` is DET_VIOLATION's condition. -/
def State.checkScr (s : State) (g t o : Nat) (w : Want) (det priv use : Bool) : LaneRes :=
  let out := decide (s.regionBytes t < o + w.size)
  let fs := if out then .ok [] else s.fillFor g t o w priv use
  match worstOf [(out || fillDenied fs, .permission), (decide (o % w.size ≠ 0), .misaligned), (det, .detViolation)] with
  | some c => .bad c 0
  | none =>
    match fs with
    | .error r => r
    | .ok fs => .ok ⟨piecesOf w.size w.whole fun k => .scr t (o + k), Trail.none, fs, false, false⟩

/-- An access at a core position and an offset (R108). -/
def State.checkCluster (s : State) (g k o : Nat) (w : Want) (det priv use : Bool) : LaneRes :=
  match s.teamAt g k with
  | none => .bad .permission 0
  | some t =>
    match s.checkScr g t o w det priv use with
    | .bad c i => .bad c i
    | r => if t ≠ teamOf g ∧ s.teamAway t = true then .away else r

/-! ### Private memory (R111, R112) -/

/-- The virtual address of a private word. -/
def State.privateVa (s : State) (g lane ow : Nat) : Nat :=
  let d := s.descOf g
  let gi := (spanOf (teamOf g) * d.tps + steamOf (teamOf g)) * d.gpt + groupIx g
  d.pbase + gi * d.psize * 32 + ow / 4 * 128 + lane * 4

/-- The pieces of a private access: one for each 4-byte word that it touches. -/
def State.privatePieces (s : State) (g lane o size : Nat) : List (Nat × Nat × Loc) :=
  if size ≤ 4 then [(0, size, .priv (s.privateVa g lane (o / 4 * 4) + o % 4))]
  else (List.range (size / 4)).map fun j => (4 * j, 4, .priv (s.privateVa g lane (o + 4 * j)))

/-- Whether the private cache holds a line. -/
def Group.hasLine (g : Group) (line : Nat) : Bool := g.priv.any fun p => p.line == line

/-- The fills of a private access's lines that the cache does not hold (R112). -/
def State.privateFills (s : State) (g : Nat) (w : Want) (priv use : Bool) (lines : List Nat) :
    List (Except LaneRes (Nat × Trail)) :=
  (lines.filter fun line => !(s.group g).hasLine line).map fun line =>
    s.lineFill g (s.ctxOf g) (line * 128 % 2 ^ 57) w priv use

/-- What stops an access with some fills: PERMISSION in any of them (R382), else the first obstacle; where nothing does,
the trail of all. -/
def joinFills (fs : List (Except LaneRes (Nat × Trail))) : Except LaneRes Trail :=
  if fs.any fillDenied then .error (.bad .permission 0)
  else fs.foldl (fun a f => a.bind fun tr => f.map fun q => tr.append q.2) (.ok Trail.none)

/-- A private access. -/
def State.checkPrivate (s : State) (g : Nat) (w : Want) (priv use : Bool) : LaneRes :=
  let o := privateOffset w.addr
  let out := decide ((s.descOf g).psize < o + w.size)
  let ps := s.privatePieces g w.lane o w.size
  let lines := (ps.map fun p =>
    match p.2.2 with
    | .priv va => va / 128
    | _ => 0).eraseDups
  let fs := if out then .ok Trail.none else joinFills (s.privateFills g w priv use lines)
  match worstOf [(out || fillDenied fs, .permission), (decide (o % w.size ≠ 0), .misaligned)] with
  | some c => .bad c 0
  | none =>
    match fs with
    | .error r => r
    | .ok tr => .ok ⟨ps, tr, [], false, false⟩

/-! ### Global memory -/

/-- Whether a global write of an anytime launch leaves its working slots and its declared private scratch
range (R360). -/
def State.escapes (s : State) (g va n : Nat) : Bool :=
  let x := s.launch (launchOf g)
  let d := x.desc
  let inScr := decide (0 < d.scrlen) && decide (d.scrbase ≤ va) && decide (va + n ≤ d.scrbase + d.scrlen)
  let inSlot := d.produced.any fun h =>
    match x.hpa.getD h.1 none with
    | none => false
    | some pa =>
      let st := s.status pa
      let pass := BitVec.ofNat 32 (Memory.read s.mem (pa + 0x28) 4)
      let slotb := Memory.read s.mem (pa + 0x18) 4
      let lo := h.2.toNat + 128 + st.wslot * slotb
      st.opn && decide ((s.group g).sealed.get 0 h.1 ≠ pass) && decide (lo ≤ va) && decide (va + n ≤ lo + slotb)
  d.anytime && !inScr && !inSlot

/-- A global access. -/
def State.checkGlobal (s : State) (g : Nat) (w : Want) (det priv use : Bool) : LaneRes :=
  let va := w.addr.toNat
  let q := s.translate (s.coreOf g) (s.ctx (s.ctxOf g)) va w.kind priv use
  let perm := match q.1 with
    | .permission => true
    | .ok pa _ _ => s.denied g pa w priv
    | _ => false
  let writes := decide (w.kind = .write) || decide (w.kind = .atomic)
  match q.1 with
  | .check pa => .check pa
  | _ =>
    match worstOf [(perm, .permission), (decide (va % w.size ≠ 0), .misaligned),
        (writes && s.escapes g va w.size, .anytimeEscape), (det, .detViolation)] with
    | some c => .bad c 0
    | none =>
      match q.1 with
      | .ok pa prop01 rm =>
        let at_ := fun k => if paKind pa = 3 then Loc.window (windowAt pa).1 ((windowAt pa).2 + k) else .phys (pa + k)
        .ok ⟨piecesOf w.size w.whole at_, q.2, [], rm && isHbm pa, prop01⟩
      | x =>
        match faultOf va w.addr w.kind.code w.size x with
        | some f => .fault f q.2
        | none => .bad .permission 0

/-! ### One lane (R122) -/

/-- The checks of one lane's access. -/
def State.checkLane (s : State) (g : Nat) (w : Want) (priv use : Bool) : LaneRes :=
  let a := w.addr.toNat
  let det := w.orderDep && (s.descOf g).det
  match w.form with
  | .loc => if 2 ^ 22 ≤ a then .bad .spaceInvalid 0 else s.checkScr g (teamOf g) a w false priv use
  | .clu =>
    if 2 ^ 28 ≤ a then .bad .spaceInvalid 0 else s.checkCluster g (a / 2 ^ 22) (a % 2 ^ 22) w false priv use
  | .gen =>
    match windowOf w.addr with
    | .invalid => .bad .spaceInvalid 0
    | .scratch =>
      if scratchTag w.addr ≠ s.logicalCore g then
        .bad .spaceForeign (scratchTag w.addr * 512 + s.logicalCore g % 512)
      else s.checkScr g (teamOf g) (windowOffset w.addr) w false priv use
    | .cluster => s.checkCluster g (clusterField w.addr) (windowOffset w.addr) w det priv use
    | .priv => s.checkPrivate g w priv use
    | .glob => s.checkGlobal g w det priv use

/-- The leaves of table pages that the translation of a fill walks through. -/
def State.fillWalked (s : State) (g ctx va : Nat) (k : XKind) (priv use : Bool) : List Nat :=
  (s.translate (s.coreOf g) (s.ctx ctx) va (if k = .read then .read else .fill) priv use).2.walked

/-- Those of a region access at an offset of a team's region. -/
def State.scrWalked (s : State) (g t o : Nat) (k : XKind) (priv use : Bool) : List Nat :=
  match (s.team t).regionAt o with
  | some (_, r) =>
    let line := (o - r.start) / 128
    if r.state.get .invalid line = .invalid then s.fillWalked g r.ctx (r.glob + 128 * line) k priv use else []
  | none => []

/-- The stage-2 leaves of table pages that a lane's access walks through: they are accessed even where the access is not
made (R77). -/
def State.laneWalked (s : State) (g : Nat) (w : Want) (priv use : Bool) : List Nat :=
  let a := w.addr.toNat
  let clu := fun k o => (s.teamAt g k).elim [] fun t => s.scrWalked g t o w.kind priv use
  match w.form with
  | .loc => s.scrWalked g (teamOf g) a w.kind priv use
  | .clu => clu (a / 2 ^ 22) (a % 2 ^ 22)
  | .gen =>
    match windowOf w.addr with
    | .invalid => []
    | .scratch => s.scrWalked g (teamOf g) (windowOffset w.addr) w.kind priv use
    | .cluster => clu (clusterField w.addr) (windowOffset w.addr)
    | .priv =>
      let o := privateOffset w.addr
      let lines := (List.range ((w.size + 3) / 4)).map fun j => s.privateVa g w.lane (o / 4 * 4 + 4 * j) / 128
      if (s.descOf g).psize < o + w.size then []
      else (lines.filter fun line => !(s.group g).hasLine line).flatMap fun line =>
        s.fillWalked g (s.ctxOf g) (line * 128 % 2 ^ 57) w.kind priv use
    | .glob => (s.translate (s.coreOf g) (s.ctx (s.ctxOf g)) a w.kind priv use).2.walked

/-! ### Faults (R96, R97, R99) -/

/-- SRCK of an origin tag (R97). -/
def FaultSrc.srck : FaultSrc → Nat
  | .data _ _ => 0
  | .fetch _ => 1
  | .copy _ => 2
  | .slice _ => 3

/-- LANE of an origin tag. -/
def FaultSrc.lane : FaultSrc → Nat
  | .data l _ => l
  | .fetch _ => 0
  | .copy n => n
  | .slice _ => 0

/-- LOGE of an origin tag. -/
def FaultSrc.loge : FaultSrc → Nat
  | .data _ e => e
  | _ => 0

/-- The origin tag of R97. -/
def State.originTag (s : State) (g : Nat) (src : FaultSrc) : Word :=
  BitVec.ofNat 32 (s.coreOf g * 2 ^ 23 + (s.group g).gslot % 64 * 2 ^ 17 + src.lane % 32 * 2 ^ 12 +
    src.loge % 8 * 2 ^ 9 + src.srck * 2 ^ 7 + s.ctxOf g % 128)

/-- v3 of a handler lane (R97). -/
def FaultInfo.word (f : FaultInfo) : Word :=
  BitVec.ofNat 32 (f.kind % 8 + f.level % 8 * 8 + f.malformed.toNat * 64 + f.lg % 8 * 256)

/-- The 32 bytes of a stage-2 fault record (R99). -/
def S2Rec.bytes (q : S2Rec) : List Byte :=
  bytesOf 8 q.gpa.toNat ++ bytesOf 8 q.va.toNat ++ bytesOf 4 q.word.toNat ++ bytesOf 4 q.tag.toNat ++
    bytesOf 8 q.time.toNat

/-- Records a fault: a stage-1 fault goes to the die's compaction buffer (R96), a stage-2 fault to the queue of the
group's partition in host memory (R99). -/
def State.addFault (s : State) (g : Nat) (src : FaultSrc) (f : FaultInfo) : State :=
  let c := s.ctxOf g
  let tag := s.originTag g src
  let r : FaultRec :=
    { group := g, src := src, va := f.va, word := f.word, tag := tag, die := s.dieOf g, ctx := c,
      time := (s.gtime g).toNat, arrived := none, st := if f.gpa.isSome then .stage2 else .buffered }
  let s := { s with faults := s.faults.set s.faultNext r, faultNext := s.faultNext + 1 }.arriveFaults (s.dieOf g)
  match f.gpa with
  | none => s
  | some gpa =>
    let p := s.partOf g
    let w := BitVec.ofNat 32 (f.kind % 8 + f.level % 8 * 8 + (s.ctx c).vdid % 128 * 64)
    let q : S2Rec := ⟨gpa, f.va, w, tag, s.gtime g⟩
    (s.enqueue 0 (s2Queue p) (2 ^ 52) q.bytes).setPart p { s.part p with s2queue := (s.part p).s2queue ++ [q] }

/-- The lowest free entry of a group's operand log (R91). -/
def Group.freeEntry (g : Group) : Option Nat := (List.range 8).find? fun n => !g.log.any fun e => e.1 == n

/-- A region fill (R113): the whole line, from its home, through the trail of its translation. -/
def State.fill (s : State) (f : Fill) : State :=
  let s := s.leave f.trail
  let t := s.team f.team
  match t.regions.find? fun e => e.1 == f.region with
  | none => s
  | some (_, r) =>
    if r.state.get .invalid f.line ≠ .invalid then s
    else s.setTeam f.team { t with
      scratch := Memory.put t.scratch (r.start + 128 * f.line) (Memory.bytes s.mem f.pa 128)
      regions := t.regions.set f.region { r with state := r.state.set f.line .clean } }

end Sys2Proof.Machine
end

