-- ==== Sys2Proof/Machine/Jobs.lean ====
section
/-! DEFINITION. What the matrix instructions name (R260, R261, R266, R268, R270), and the bytes that one at work reads
and writes (R254, R256, R271, R272). -/

namespace Sys2Proof

/-- An MMR or MMC (R260). -/
structure Lad where
  pair : MPair
  lowh : Bool
  hold : Bool
  mmc : Bool
  q : Nat
  m : Nat
  c : Nat
  lo : Nat
  deriving DecidableEq, Repr

/-- Whether the activations are nibbles (R61). -/
def MPair.nib (p : MPair) : Bool := decide (p = .s4s4) || decide (p = .s4s8)
/-- The weight tag (R260). -/
def MPair.tag (p : MPair) : WTag := if p = .s8s8 ∨ p = .s4s8 then .s8 else .s4
/-- The bytes of an activation row (R248). -/
def MPair.rowBytes (p : MPair) : Nat := if p.nib then 64 else 128

/-- The tiles of a set, in POS order: each with its macro and the first column that it takes (R261). -/
def Lad.set (x : Lad) : List (Nat × Nat × Nat) :=
  (List.range x.c).flatMap fun j =>
    if x.pair.tag = .s8 ∨ x.lowh = true then [(x.q + j, x.m + j, 0)]
    else [(x.q + 2 * j, x.m + j, 0), (x.q + 2 * j + 1, x.m + j, 64)]

/-- The weight tag of an MMF format (R266). -/
def MFmt.tag : MFmt → WTag
  | .bf16 => .bf16
  | .fp16 => .fp16
  | .e4m3 => .e4m3
  | .e5m2 => .e5m2

/-- Bytes of an MMF element. -/
def MFmt.bytes : MFmt → Nat
  | .bf16 => 2
  | .fp16 => 2
  | _ => 1

/-- Macros that one tile of an MMF takes (R266). -/
def MFmt.perTile (f : MFmt) : Nat := f.bytes

/-- Bytes of a drained element (R270). -/
def DFmt.bytes : DFmt → Nat
  | .f32 => 4
  | .bf16 => 2
  | .fp16 => 2
  | .e4m3 => 1
  | .e5m2 => 1
  | .pair => 8

/-- The MMR or MMC that an instruction is. -/
def Instr.lad? : Instr → Option Lad
  | .mmr p lowh q m c _ lo => some ⟨p, lowh, false, false, q, m, c, lo⟩
  | .mmrHold p lowh q m c _ lo => some ⟨p, lowh, true, false, q, m, c, lo⟩
  | .mmc p lowh q m c _ lo => some ⟨p, lowh, false, true, q, m, c, lo⟩
  | .mmcHold p lowh q m c _ lo => some ⟨p, lowh, true, true, q, m, c, lo⟩
  | _ => none

/-- The values that a QSCALE reads (R268). -/
def ScaleT.count : ScaleT → Nat
  | .row => 32
  | .col => 64
  | .colG64 => 128

end Sys2Proof

namespace Sys2Proof.Machine

open Sys2Proof

/-- Bytes of a tile's image. -/
def imageBytes : Nat := 33472

/-- What a drain takes. -/
structure Drain where
  fmt : DFmt
  rsel : RSel
  z : Bool
  q : Nat
  c : Nat
  base : DWord
  stride : Word
  deriving DecidableEq, Repr

/-- The address of element (i, j, n). -/
def Drain.addr (d : Drain) (i j n : Nat) : DWord :=
  d.base + BitVec.ofNat 64 (i * d.stride.toNat + (64 * j + n) * d.fmt.bytes)

/-- The checks of one row's elements, in order. -/
def State.drainRow (s : State) (g : Nat) (d : Drain) (priv use : Bool) (i : Nat) : List (Nat × Nat × DWord × LaneRes) :=
  (List.range d.c).flatMap fun j => (List.range 64).map fun n =>
    let a := d.addr i j n
    let r := match windowOf a with
      | .priv => LaneRes.bad .spaceInvalid 0
      | _ => s.checkLane g ⟨i, a, d.fmt.bytes, .write, .gen, false, false, true⟩ priv use
    (j, n, a, r)

/-- The drain that an instruction is. -/
def Job.drain? (j : Job) : Option Drain :=
  match j.instr with
  | .qdrain f r z _ q c _ => some ⟨f, r, z, q, c, j.base, j.stride⟩
  | _ => none

/-- The bytes of the team region that an instruction's next step touches, MMC apart (R256). -/
def Job.ranges (j : Job) : List (Nat × Nat) :=
  let a := j.base.toNat
  match j.instr with
  | .wld _ _ _ c => [(a, 8192 * c)]
  | .mmr p _ _ _ _ _ _ => (lanesOf j.mask).map fun i => (a + i * p.rowBytes, p.rowBytes)
  | .mmrHold p _ _ _ _ _ _ => (lanesOf j.mask).map fun i => (a + i * p.rowBytes, p.rowBytes)
  | .mmf f _ _ _ _ => (lanesOf j.mask).map fun i => (a + i * (128 * f.bytes), 128 * f.bytes)
  | .qscale bf t _ _ => [(a, t.count * if bf then 2 else 4)]
  | .qsave _ _ c | .qload _ _ c => [(a, imageBytes * c)]
  | _ => []

/-- Whether an instruction still has its reads of the team region before it: a row buffer is filled at the start (R254),
WLD and QSCALE read as they complete, QLOAD has read as it issued. -/
def Job.readsAhead (j : Job) : Bool :=
  match j.instr with
  | .wld _ _ _ _ => true
  | .qscale _ _ _ _ => true
  | .qsave _ _ _ | .qload _ _ _ => false
  | _ => !j.started && !j.resume

/-- The places that an instruction at work is still to read. -/
def State.jobReads (s : State) (j : Job) : List (Loc × Nat) :=
  let t := teamOf j.group
  if !j.readsAhead then []
  else
    match j.instr.lad? with
    | some x => if x.mmc then [(.scr t 0, s.regionBytes t)] else j.ranges.map fun r => (.scr t r.1, r.2)
    | none => j.ranges.map fun r => (.scr t r.1, r.2)

/-- The places that it is still to write. -/
def State.jobWrites (s : State) (j : Job) : List (Loc × Nat) :=
  match j.instr, j.drain? with
  | .qsave _ _ _, _ => j.ranges.map fun r => (.scr (teamOf j.group) r.1, r.2)
  | _, some d =>
    (lanesOf j.mask).flatMap fun i => (s.drainRow j.group d j.priv false i).flatMap fun e =>
      match e.2.2.2 with
      | .ok t => t.pieces.map fun p => (p.2.2, p.2.1)
      | _ => []
  | _, none => []

/-- Whether memory events of an instruction at work are still to come: reads of the team region, a save's or a drain's
writes (R254, R274). -/
def State.jobPends (s : State) (j : Job) : Bool :=
  !(s.jobReads j).isEmpty ||
    match j.instr with
    | .qsave _ _ _ | .qdrain _ _ _ _ _ _ _ => true
    | _ => false

end Sys2Proof.Machine
end

