-- ==== Sys2Proof/Machine/Perform.lean ====
section
/-! DEFINITION. Performing accesses at their homes and bringing their values back (R69, R84, R112, R115 to R117, R276,
R280, R282, R293, R321). The axioms of R274 to R292 are met by one global order of steps in which each part of an access
is performed at its home once, with replicas that may lag (log entry 96), and in which an ordering of a scope may be
broken where no agent within the scope can tell (log entry 7). -/

namespace Sys2Proof

/-- Extend (R120, R123): word `j` of a loaded value. -/
def Width.word (w : Width) (v j : Nat) : Word :=
  match w with
  | .s8 => (BitVec.ofNat 8 v).signExtend 32
  | .s16 => (BitVec.ofNat 16 v).signExtend 32
  | .u8 => BitVec.ofNat 32 (v % 256)
  | .u16 => BitVec.ofNat 32 (v % 65536)
  | _ => BitVec.ofNat 32 (v / 2 ^ (32 * j))

/-- The widest of some scopes. -/
def Scope.widest : List Scope → Option Scope
  | [] => none
  | a :: r =>
    match Scope.widest r with
    | none => some a
    | some b => if b.code < a.code then some a else some b

end Sys2Proof

namespace Sys2Proof.Machine

open Sys2Proof

/-! ### Homes -/

/-- The home of a place (R69, R126, R128): stacks 0 to 15, cores from 16, the CXL port 528, none 530, and from 1024 the
stacks of the peer devices, 16 each, as this device's MEMMODE would lay them out (DESIGN CHOICE, log entry 105). -/
def State.homeOf (s : State) (l : Loc) : Nat :=
  match l with
  | .phys pa =>
    if isHbm pa then s.stackOf pa else if paKind pa = 1 then 528 else 1024 + 16 * peerOf pa + s.stackOf (pa % 2 ^ 41)
  | .scr t _ => 16 + (s.team t).core
  | .priv _ => 530
  | .window _ _ => 530

/-- The count of a peer's timekeeper where die 0's is `t`: what the peer has it at, which the domain's bound of 256 ticks
binds while LOCKED is set (R325). -/
def peerCount (locked : Bool) (t x : DWord) : DWord :=
  if locked && decide (256 < (x - t).toNat) && decide (256 < (t - x).toNat) then t else x

/-- The time by which a home judges (R126, R128): its die's; at the CXL port compute die 0's; at a peer's stack the
peer's own, which is free here but for the bound of R325. -/
def State.timeAt (s : State) (h : Nat) : DWord :=
  if h < 16 then s.time (h / 4)
  else if h < 528 then s.time (dieOfCore (h - 16))
  else if h < 1024 then s.time 0
  else peerCount (s.die 0).locked (s.time 0) (Config.peerTime ((h - 1024) / 16) ((h - 1024) % 16 / 4) (s.time 0))

/-- Whether an access of a home's queue is due (R126). -/
def State.due (s : State) (h : HeldRec) : Bool :=
  match (((s.group h.group).inflight.find? fun a => a.1 == h.acc).bind fun a => a.2.held) with
  | some t => decide (t ≤ s.timeAt h.home)
  | none => false

/-- Whether a home has a held access to release before anything else is performed there (R282, R294). -/
def State.homeDue (s : State) (home : Nat) : Bool := s.holds.any fun h => h.home == home && s.due h

/-! ### Program order and scopes (R277, R279, R280) -/

/-- Whether the paths of some lanes have met one that knows `past` since their event of number `k` (R279, R280 case 3). -/
def metSince (m : Word) (k : Nat) (past : List Nat) : Bool := (lanesOf m).any fun i => decide (k < past.getD i 0)

/-- Whether event `k` of a split of lanes `m` comes before a later one of lanes `m'` that knows `past`: they share a lane,
or their paths have met in between (R279). -/
def poBefore (m : Word) (k : Nat) (m' : Word) (past : List Nat) : Bool := decide (m &&& m' ≠ 0) || metSince m k past

/-- Whether group `h` lies in group `g`'s instance of a scope (R277); domain and system hold every group of the device. -/
def State.inScope (s : State) (sc : Scope) (g h : Nat) : Bool :=
  match sc with
  | .grp => g == h
  | .team => teamOf g == teamOf h
  | .clus => clusterOfCore (s.coreOf g) == clusterOfCore (s.coreOf h)
  | _ => true

/-- Whether two places share a byte. -/
def overlaps (l : Loc) (n : Nat) (l' : Loc) (n' : Nat) : Bool :=
  match l, l' with
  | .phys a, .phys b => decide (a < b + n') && decide (b < a + n)
  | .scr t a, .scr u b => decide (t = u) && decide (a < b + n') && decide (b < a + n)
  | .window f a, .window h b => decide (f = h) && decide (a < b + n') && decide (b < a + n)
  | _, _ => false

/-- Whether a place lies on a line of physical memory. -/
def Loc.onLine (l : Loc) (line : Nat) : Bool :=
  match l with
  | .phys pa => decide (pa / 128 = line)
  | _ => false

/-- Whether a part lies on one of some places. -/
def Part.onAny (p : Part) (ls : List (Loc × Nat)) : Bool := ls.any fun x => overlaps p.loc p.size x.1 x.2

/-- Whether a kind writes. -/
def AccKind.writes : AccKind → Bool
  | .store | .atomic _ | .asum => true
  | _ => false

/-- Whether a kind reads. -/
def AccKind.reads : AccKind → Bool
  | .store => false
  | _ => true

/-- Whether a common byte of an earlier access and a later one orders them: one of them writes it (R280 case 1), or one
split reads it twice (R288); a held access is ordered by a read-modify-write alone (case 7). -/
def Access.meets (e a : Access) : Bool :=
  (e.kind.writes && e.kind.reads) ||
    (a.held.isNone && (e.kind.writes || a.kind.writes || decide (e.mask &&& a.mask ≠ 0)))

/-- Whether an earlier access of the group, of number `k`, must be performed before the chosen parts of a later one,
whoever observes them (R280 cases 1, 3 and 7, cases 4 to 6 at system scope, R293): bytes in common, a reconvergence in
between, an acquire or a release of the whole system, a write to a page of non-atomic propagation before a release. -/
def Access.before (k : Nat) (e a : Access) (ps : List Part) : Bool :=
  metSince e.mask k a.past || decide (e.acq = some .sys) || decide (a.rel = some .sys) ||
    (a.rel.isSome && e.kind.writes && e.parts.any fun p => p.open_ && p.prop01) ||
    (e.meets a && e.parts.any fun p => p.open_ && !p.logged && ps.any fun q => overlaps p.loc p.size q.loc q.size)

/-- Whether a FENCE stands between event `k` of a split of lanes `m` and access `acc`. -/
def FenceRec.between (f : FenceRec) (m : Word) (k acc : Nat) (a : Access) : Bool :=
  decide (k < f.key) && decide (f.key < acc) && poBefore m k f.mask f.past && poBefore f.mask f.key a.mask a.past

/-- Whether a FENCE's kind orders an event before an access (R280 case 6): `reads` where the event reads. -/
def FenceRec.kinds (f : FenceRec) (reads : Bool) (a : Access) : Bool :=
  match f.kind with
  | .full => true
  | .acq => reads
  | .rel => a.kind.writes

/-- The scope in which event `k` of lanes `m` is ordered before access `acc` (R280 cases 4 to 6): of the acquire `acq`, of
the release, of the FENCEs in between. -/
def Group.scopeOf (g : Group) (m : Word) (k : Nat) (acq : Option Scope) (reads : Bool) (acc : Nat) (a : Access) : Option Scope :=
  Scope.widest (acq.toList ++ a.rel.toList ++
    (g.fences.filter fun f => f.between m k acc a && f.kinds reads a).map (·.scope))

/-- The earlier accesses of a group that program order puts before one of number `acc` and that are still to be
performed; held ones order nothing (R280). -/
def Group.openBefore (g : Group) (acc : Nat) (a : Access) : List (Nat × Access) :=
  g.inflight.filter fun e => decide (e.1 < acc) && e.2.held.isNone && e.2.open_ && poBefore e.2.mask e.1 a.mask a.past

/-- An earlier event that an ordering of a scope puts before an access: its number, the scope, and whether it waits for a
fault. -/
structure Scoped where
  num : Nat
  scope : Scope
  stuck : Bool
  deriving DecidableEq, Repr

/-- Those of the open accesses. -/
def Group.scopedBefore (g : Group) (acc : Nat) (a : Access) : List Scoped :=
  (g.openBefore acc a).filterMap fun e => (g.scopeOf e.2.mask e.1 e.2.acq e.2.kind.reads acc a).map fun sc =>
    ⟨e.1, sc, e.2.parts.any (·.logged)⟩

/-- The matrix instruction at work whose reads and writes come before an access of its group: they stand at its place in
program order (R254, R280). -/
def State.jobAhead (s : State) (g acc : Nat) (a : Access) : Option Job :=
  (s.jobOf g).filter fun j => decide (j.order < acc) && poBefore j.mask j.order a.mask a.past && s.jobPends j

/-- Everything that an ordering of some scope puts before an access. -/
def State.scopedBefore (s : State) (g acc : Nat) (a : Access) : List Scoped :=
  (s.group g).scopedBefore acc a ++ ((s.jobAhead g acc a).bind fun j =>
    ((s.group g).scopeOf j.mask j.order none (s.jobReads j ≠ []) acc a).map fun sc => (⟨j.order, sc, j.waiting⟩ : Scoped)).toList

/-- Whether a matrix instruction at work is ordered before the chosen parts of an access, whoever observes them: a
reconvergence lies in between, the access is a release of the whole system, it reaches bytes that the instruction is to
write, or writes those that it is to read. For the last, a held access waits as well (R254). -/
def State.jobBefore (s : State) (g acc : Nat) (a : Access) (ps : List Part) : Bool :=
  (s.jobAhead g acc a).any fun j =>
    metSince j.mask j.order a.past || decide (a.rel = some .sys) ||
      (a.kind.writes && ps.any fun p => p.onAny (s.jobReads j)) ||
      (a.held.isNone && ps.any fun p => p.onAny (s.jobWrites j))

/-- Whether some write of a group to a page of non-atomic propagation, of those that come before event `acc` of lanes `m`
and that `p` selects, is not yet at every replica; held stores and copies' writes order nothing (R280). -/
def State.lagging (s : State) (g acc : Nat) (m : Word) (past : List Nat) (p : Replica → Behind → Bool) : Bool :=
  s.replicas.any fun r => r.behind.any fun b =>
    b.group == g && !b.free && decide (b.key < acc) && poBefore b.mask b.key m past && p r b

/-- Whether a FENCE of the device's scope or a wider one orders a write that its group has read, or made by a
read-modify-write, before an access: it is an acquire of it. -/
def Group.acquired (g : Group) (b : Behind) (acc : Nat) (a : Access) : Bool :=
  b.rmw && g.fences.any fun f => f.between b.mask b.key acc a && decide (Scope.dev.code ≤ f.scope.code)

/-- Whether a write that is not at every replica is ordered before the chosen parts of an access (R291, R293): the access
is a release, paths have met in between, an acquire lies in between, or it is an acquire of the line itself. -/
def State.lagBefore (s : State) (g acc : Nat) (a : Access) (ps : List Part) : Bool :=
  s.lagging g acc a.mask a.past fun r b =>
    a.rel.isSome || metSince b.mask b.key a.past || (s.group g).acquired b acc a ||
      (a.acq.isSome && ps.any fun p => p.loc.onLine r.line)

/-! ### Orderings of a scope that are broken for a while -/

/-- Whether what an early access has overtaken is still to be performed. -/
def State.earlyOpen (s : State) (r : Early) : Bool :=
  r.waits.any fun k =>
    (((s.group r.group).inflight.find? fun a => a.1 == k).any fun a => a.2.open_) ||
      (s.jobOf r.group).any fun j => j.order == k && s.jobPends j

/-- Whether a group would meet, in an access of some bytes, another group's early one within that one's scope. -/
def State.earlyClash (s : State) (g : Nat) (writes : Bool) (l : Loc) (n : Nat) : Bool :=
  s.early.any fun r => r.group != g && s.inScope r.scope r.group g && (r.writes || writes) &&
    (r.places.any fun x => overlaps x.1 x.2 l n) && s.earlyOpen r

/-- Whether an early access is ordered before the chosen parts of a later one of its group, whoever observes them (R280
cases 1, 3, 6 and 7): that one would be early as well. -/
def Early.before (r : Early) (g : Group) (acc : Nat) (a : Access) (ps : List Part) : Bool :=
  decide (r.acc < acc) && poBefore r.mask r.acc a.mask a.past &&
    (metSince r.mask r.acc a.past ||
      (((r.reads && r.writes) || (a.held.isNone && (r.writes || a.kind.writes))) && ps.any fun p => p.onAny r.places) ||
      (g.fences.any fun f => f.between r.mask r.acc acc a && f.kinds r.reads a))

/-- Whether an access of a group waits for one that went early. -/
def State.afterEarly (s : State) (g acc : Nat) (a : Access) (ps : List Part) : Bool :=
  s.early.any fun r => r.group == g && r.before (s.group g) acc a ps && s.earlyOpen r

/-- Whether an access may overtake the events that an ordering of a scope puts before it: none of them waits for a fault,
it is not held (R280), the scope lies within the device, and no other group of the scope, nor one in whose scope its own
group lies, has an early access open. -/
def State.mayOvertake (s : State) (g : Nat) (a : Access) (es : List Scoped) : Bool :=
  match Scope.widest (es.map (·.scope)) with
  | none => true
  | some sc =>
    a.held.isNone && decide (sc.code < Scope.dom.code) && (es.all fun e => !e.stuck) &&
      !(s.early.any fun r => r.group != g && (s.inScope r.scope r.group g || s.inScope sc g r.group) && s.earlyOpen r)

/-- The record of what is accessed early, at some places; records that are over go. -/
def State.noteEarly (s : State) (g acc : Nat) (a : Access) (es : List Scoped) (ls : List (Loc × Nat)) (collects : Bool) : State :=
  match Scope.widest (es.map (·.scope)) with
  | none => s
  | some sc =>
    let r : Early :=
      { group := g, acc := acc, mask := a.mask, waits := es.map (·.num), scope := sc, places := ls, reads := a.kind.reads,
        writes := a.kind.writes, collects := collects }
    { s with early := r :: s.early.filter s.earlyOpen }

/-- The places that a slice's step reads early are added to its record. -/
def State.collect (s : State) (ls : List (Loc × Nat)) : State :=
  { s with early := s.early.map fun r => if r.collects then { r with places := ls ++ r.places } else r }

/-- A slice's step is over. -/
def State.collected (s : State) : State := { s with early := s.early.map fun r => { r with collects := false } }

/-! ### Whether parts may be performed -/

/-- The line of a store's parts that covers it whole: such a write is one (R103, R123). -/
def Access.wholeLine (a : Access) (line : Nat) : Bool :=
  decide (a.kind = .store) && (List.range 32).all fun w => a.parts.any fun p => p.open_ && !p.logged &&
    match p.loc with
    | .phys pa => decide (pa ≤ 128 * line + 4 * w) && decide (128 * line + 4 * w + 4 ≤ pa + p.size)
    | _ => false

/-- Whether two parts are performed in one step: they share a byte (R115, R116), or cover a line together. -/
def Access.joined (a : Access) (p q : Part) : Bool :=
  overlaps p.loc p.size q.loc q.size ||
    match p.loc, q.loc with
    | .phys x, .phys y => decide (x / 128 = y / 128) && a.wholeLine (x / 128)
    | _, _ => false

/-- The parts that are performed with some chosen ones, by their places in the list. -/
def Access.closure (a : Access) (ids : List Nat) : List Nat :=
  let ps := a.parts.zipIdx
  let chosen := ps.filter fun p => ids.contains p.2 && p.1.open_ && !p.1.logged
  match a.kind with
  | .load => chosen.map (·.2)
  | _ => (ps.filter fun p => p.1.open_ && !p.1.logged && chosen.any fun q => a.joined p.1 q.1).map (·.2)

/-- Whether a replica is behind a write of a group of its own die (R293). -/
def State.behindOwn (s : State) (r : Replica) : Bool := r.behind.any fun b => s.dieOf b.group == r.die

/-- Whether a home lets a group's access of some bytes be performed now: no held access is due there, no early access is
met (R277), the team is there (R108), a link leads there, and a read finds no replica behind a write of its die (R293). A
held access is performed at its time (R126), whatever is early there, which its successors meet all the same; a held load is
performed at its home (R294): no replica of its die may be behind. -/
def State.homeOpen (s : State) (g : Nat) (k : AccKind) (held : Bool) (l : Loc) (n : Nat) : Bool :=
  (held || (!s.homeDue (s.homeOf l) && !s.earlyClash g k.writes l n)) &&
  match l with
  | .scr t _ => decide (t = teamOf g) || !s.teamAway t
  | .phys pa =>
    s.linked g pa &&
      (decide (k ≠ .load) ||
        !(s.replicas.any fun r => r.line == pa / 128 && r.die == s.dieOf g && r.stale && (held || s.behindOwn r)))
  | _ => true

/-- A store that no link carries: one to a peer is dropped and named in a LINK event (R425), one to host memory ends as an
uncorrectable error (R419). -/
def State.lostStore (s : State) (g pa : Nat) : State :=
  if paKind pa = 1 then s.machineCheck (s.ctxOf g) pa
  else s.post 0 evLink 2048 (s.ctxOf g) (some (BitVec.ofNat 64 pa))

/-- Whether the earlier work of the group lets an access's chosen parts be performed now. -/
def State.inOrder (s : State) (g acc : Nat) (a : Access) (ps : List Part) : Bool :=
  !(((s.group g).openBefore acc a).any fun e => e.2.before e.1 a ps) && !s.jobBefore g acc a ps &&
  !s.lagBefore g acc a ps && !s.afterEarly g acc a ps

/-- Whether the chosen parts of an access may be performed now. -/
def State.mayPerform (s : State) (g acc : Nat) (a : Access) (ids : List Nat) : Bool :=
  let ps := ids.filterMap fun i => a.parts[i]?
  s.inOrder g acc a ps && s.mayOvertake g a (s.scopedBefore g acc a) &&
  ps.all fun p => s.homeOpen g a.kind a.held.isSome p.loc p.size

/-- An access that an instruction makes as it issues, for the questions above: its kind and its place in program order. -/
def Access.probe (k : AccKind) (rel : Option Scope) (mask : Word) (past : List Nat) : Access :=
  { kind := k, slot := 0, mask := mask, width := .w32, form := .gen, uni := false, dest := none, zeroMask := 0,
    held := none, acq := none, rel := rel, arrived := false, late := 0, ended := 0, priv := false, family := false,
    olds := [], past := past, entry := none, issued := 0, parts := [] }

/-- Places as parts of such an access. -/
def probeParts (ls : List (Loc × Nat)) : List Part :=
  ls.map fun x =>
    { lane := 0, sub := 0, addr := 0, loc := x.1, size := x.2, data := 0, cmp := 0, performed := false, back := false,
      value := 0, logged := false, dropped := false, rm := false, prop01 := false }

/-- Whether a group's access that is performed at once, of number `acc`, may be: nothing earlier is ordered before it but
what it may overtake, and its homes are open. -/
def State.mayAtOnce (s : State) (g acc : Nat) (a : Access) (ls : List (Loc × Nat)) : Bool :=
  let ps := probeParts ls
  s.inOrder g acc a ps && s.mayOvertake g a (s.scopedBefore g acc a) &&
  ps.all fun p => s.homeOpen g a.kind false p.loc p.size

/-- What it overtakes is noted. -/
def State.noteAtOnce (s : State) (g acc : Nat) (a : Access) (ls : List (Loc × Nat)) : State :=
  s.noteEarly g acc a (s.scopedBefore g acc a) ls false

/-! ### Memory at the home -/

/-- Reads a place: a die that holds a replica of the line is served by it (R84, R293). -/
def State.readLoc (s : State) (die : Nat) (l : Loc) (n : Nat) : Nat :=
  match l with
  | .phys pa =>
    (match s.replicas.find? fun r => r.line == pa / 128 && r.die == die with
     | some r => natOfBytes ((r.bytes.drop (pa % 128)).take n)
     | none => Memory.read s.mem pa n)
  | .scr t o => Memory.read (s.team t).scratch o n
  | _ => 0

/-- A write to physical memory at its home (R84, R293): under PROP = 00 the line's replicas go first, under
PROP = 01 they wait for the write. -/
def State.writePhys (s : State) (pa : Nat) (bytes : List Byte) (prop01 : Bool) (who : Option Behind) : State :=
  let lines := (List.range ((pa + bytes.length - 1) / 128 + 1 - pa / 128)).map (pa / 128 + ·)
  let rs := if prop01 then
      s.replicas.map fun r =>
        if lines.contains r.line then { r with stale := true, behind := who.toList ++ r.behind.filter fun b => who ≠ some b } else r
    else s.replicas.filter fun r => !lines.contains r.line
  { s with mem := Memory.put s.mem pa bytes, replicas := rs, fronts := breakRes s.fronts lines }

/-- A write to a team's region: a mapped line becomes DIRTY (R113). -/
def State.writeScr (s : State) (t o : Nat) (bytes : List Byte) : State :=
  let x := s.team t
  let x := { x with scratch := Memory.put x.scratch o bytes }
  match x.regionAt o with
  | some (n, r) =>
    let line := (o - r.start) / 128
    s.setTeam t { x with regions := x.regions.set n { r with state := r.state.set line .dirty } }
  | none => s.setTeam t x

/-- Writes a place. -/
def State.writeLoc (s : State) (who : Behind) (l : Loc) (n v : Nat) (prop01 : Bool) : State :=
  match l with
  | .phys pa => s.writePhys pa (bytesOf n v) prop01 (some who)
  | .scr t o => s.writeScr t o (bytesOf n v)
  | _ => s

/-! ### Atomics and anchored sums (R117, R133) -/

/-- CAS takes the compare register (R133). -/
def atomNew (op : AOp) (old b c : Word) : Word :=
  match op with
  | .add => old + b
  | .and => old &&& b
  | .or => old ||| b
  | .xor => old ^^^ b
  | .mins => if old.toInt ≤ b.toInt then old else b
  | .maxs => if old.toInt ≤ b.toInt then b else old
  | .minu => if old.toNat ≤ b.toNat then old else b
  | .maxu => if old.toNat ≤ b.toNat then b else old
  | .xchg => b
  | .cas => if old = c then b else old
  | .fadd => (fadd32 old b).1

/-- The value that an access leaves at a place, from the old one. -/
def AccKind.new (k : AccKind) (old data : Nat) (cmp : Word) : Nat :=
  match k with
  | .load => old
  | .pfet => old
  | .store => data
  | .atomic op => (atomNew op (BitVec.ofNat 32 old) (BitVec.ofNat 32 data) cmp).toNat
  | .asum => (old + data) % 2 ^ 128

/-! ### The private cache (R112) -/

/-- Writes a dirty line of a group back to where its fill found it, through the marks of a write (R77); it covers the line
(R103). To a stack that the core may reach no more nothing goes (R424; DEDUCED, log entry 144); to a home that no link
reaches it is lost as a store (R419, R425). -/
def State.writeBack (s : State) (g : Nat) (p : PLine) : State :=
  if !p.dirty || s.denied g p.pa ⟨0, 0, 128, .write, .gen, false, false, false⟩ true then s
  else if !s.linked g p.pa then s.lostStore g p.pa
  else ((s.leave ⟨p.marks, [], []⟩).writePhys p.pa p.bytes false none).repairLines (· == p.pa / 128)

/-- The A and D bits that a write-back of a private line sets. -/
def State.lineMarks (s : State) (g va : Nat) (priv use : Bool) : List (Nat × Nat) :=
  match s.translate (s.coreOf g) (s.ctx (s.ctxOf g)) va .atomic priv use with
  | (.ok _ _ _, tr) => tr.marks
  | _ => []

/-- Brings a line into a group's private cache for an access of kind `k`, most recently used first: on a miss the least
recently used of 32 lines is written back and leaves, and the line is read (R112). -/
def State.bringLine (s : State) (g line : Nat) (k : XKind) (priv use : Bool) : State :=
  let gr := s.group g
  let va := line * 128 % 2 ^ 57
  match gr.priv.find? fun p => p.line == line with
  | some p => s.setGroup g { gr with priv := p :: gr.priv.filter fun q => q.line != line }
  | none =>
    match s.lineFill g (s.ctxOf g) va ⟨0, BitVec.ofNat 64 va, 128, k, .gen, false, false, false⟩ priv use with
    | .ok (pa, tr) =>
      let ms := s.lineMarks g va priv use
      let s := s.leave tr
      let s := match gr.priv.drop 31 with
        | p :: _ => s.writeBack g p
        | [] => s
      let p : PLine := ⟨line, pa, ms, Memory.bytes s.mem pa 128, false⟩
      s.setGroup g { s.group g with priv := p :: gr.priv.take 31 }
    | .error _ => s

/-- Reads a private place in the cache. -/
def Group.readPriv (g : Group) (va n : Nat) : Nat :=
  match g.priv.find? fun p => p.line == va / 128 with
  | some p => natOfBytes ((p.bytes.drop (va % 128)).take n)
  | none => 0

/-- Writes a private place in the cache. -/
def Group.writePriv (g : Group) (va n v : Nat) : Group :=
  { g with priv := g.priv.map fun p =>
      if p.line = va / 128 then
        { p with bytes := p.bytes.take (va % 128) ++ bytesOf n v ++ p.bytes.drop (va % 128 + n), dirty := true }
      else p }

/-- Performs the private parts of one lane, in order: the words of one access form one value. -/
def State.performPrivate (s : State) (g : Nat) (k : AccKind) (priv use : Bool) (ps : List Part) : State × Nat :=
  let xk := if k.writes then XKind.write else .read
  let va := fun (p : Part) => match p.loc with
    | .priv va => va
    | _ => 0
  let step := fun (q : State × Nat) (p : Part) =>
    let s := q.1.bringLine g (va p / 128) xk priv use
    (s, q.2 + (s.group g).readPriv (va p) p.size * 2 ^ (8 * p.sub))
  let q := ps.foldl step (s, 0)
  match ps with
  | [] => q
  | p :: _ =>
    let new := k.new q.2 (ps.map fun p => p.data * 2 ^ (8 * p.sub)).sum p.cmp
    if k.writes then
      (ps.foldl (fun s p =>
        let s := s.bringLine g (va p / 128) xk priv use
        s.setGroup g ((s.group g).writePriv (va p) p.size (new / 2 ^ (8 * p.sub)))) q.1, q.2)
    else q

/-! ### Performing parts -/

/-- A replica that the home may place when a die reads a replicable line (R84): the oracle decides, and the
die's pool must have room. -/
def State.replicate (s : State) (die : Nat) (p : Part) : State :=
  match p.loc with
  | .phys pa =>
    if p.rm && !(s.replicas.any fun r => r.line == pa / 128 && r.die == die) then
      let room := decide ((s.replicas.filter fun r => r.die == die).length < (s.die die).pool)
      if s.choice && room then
        let r : Replica := ⟨die, pa / 128, Memory.bytes s.mem (pa / 128 * 128) 128, p.prop01, false, []⟩
        { s.chosen with replicas := r :: s.replicas }
      else s.chosen
    else s
  | _ => s

/-- A group has read a line that writes of its own before stand on: what acquires the read acquires them (R280). -/
def State.noteRead (s : State) (who : Behind) (l : Loc) : State :=
  { s with replicas := s.replicas.map fun r =>
      if l.onLine r.line then
        { r with behind := r.behind.map fun b =>
            if b.group = who.group ∧ b.key < who.key ∧ who.free = false then { b with rmw := true } else b }
      else r }

/-- An access as replicas know its writes. -/
def Access.behind (a : Access) (g acc : Nat) : Behind := ⟨g, acc, a.mask, a.kind.reads, a.held.isSome⟩

/-- Whether a place is in the region of a team that has ended, or has begun to end and is written back (R321). -/
def State.regionGone (s : State) (l : Loc) : Bool :=
  match l with
  | .scr t _ => !(s.team t).live || s.teamDone t
  | _ => false

/-- Performs one part at its home and keeps the value read. A region that is gone is not touched (R321). A global access to the backing words of a live group's private memory, whose value
no rule gives (R112), reads and writes what memory holds there (DESIGN CHOICE, log entry 106). -/
def State.performPart (s : State) (who : Behind) (k : AccKind) (p : Part) : State × Part :=
  let die := s.dieOf who.group
  if s.regionGone p.loc then (s, { p with dropped := true, back := true })
  else
    let old := match k with
      | .load => s.readLoc die p.loc p.size
      | _ =>
        (match p.loc with
         | .phys pa => Memory.read s.mem pa p.size
         | l => s.readLoc die l p.size)
    let p' := { p with performed := true, value := old }
    match k with
    | .load => ((s.noteRead who p.loc).replicate die p, p')
    | .pfet => (s, p')
    | _ => (s.writeLoc who p.loc p.size (k.new old p.data p.cmp % 2 ^ (8 * p.size)) p.prop01, p')

/-- The failed line that some parts meet (R102, R103): reads, atomics and partial writes; a set of stores
that covers the whole line meets no error. -/
def State.failedIn (s : State) (k : AccKind) (ps : List Part) : Option Nat :=
  let pas := ps.filterMap fun p =>
    match p.loc with
    | .phys pa => some (pa, p.size)
    | _ => none
  let covers := fun (line : Nat) =>
    decide (k = .store) && (List.range 128).all fun i =>
      pas.any fun x => decide (x.1 ≤ line * 128 + i) && decide (line * 128 + i < x.1 + x.2)
  (pas.find? fun x => s.failed (x.1 / 128) && !covers (x.1 / 128)).map (·.1)

/-- Clears the marks of failed lines that some stores cover whole. -/
def State.repair (s : State) (ps : List Part) : State :=
  let lines := (ps.filterMap fun p =>
    match p.loc with
    | .phys pa => some (pa / 128)
    | _ => none).eraseDups
  s.repairLines lines.contains

/-- Puts an access back among those in flight. -/
def State.putAccess (s : State) (g acc : Nat) (a : Access) : State :=
  s.setGroup g { s.group g with inflight := (s.group g).inflight.set acc a }

/-- The access of a number. -/
def Group.access? (g : Group) (acc : Nat) : Option Access :=
  (g.inflight.find? fun a => a.1 == acc).map (·.2)

/-- Lanes whose parts `p` selects. -/
def Access.lanes (a : Access) (p : Part → Bool) : Word :=
  a.parts.foldl (fun m q => if p q then m ||| ((1 : Word) <<< q.lane) else m) 0

/-- Whether a part meets an INVALID line of a mapped region, mapped since the access was checked (R113). -/
def State.unfilled (s : State) (p : Part) : Bool :=
  match p.loc with
  | .scr t o =>
    (s.team t).live && !s.teamDone t &&
      ((s.team t).regionAt o).any fun r => decide (r.2.state.get .invalid ((o - r.2.start) / 128) = .invalid)
  | _ => false

/-- Such parts go to the operand log, where their replay fills the line (R93, R113; DEDUCED, log entry 143); where no entry is
free they stay as they are. -/
def State.logAgain (s : State) (g acc : Nat) (a : Access) (bad : List Nat) : State :=
  let gr := s.group g
  match a.entry.or gr.freeEntry with
  | none => s
  | some e =>
    let ps := a.parts.zipIdx.map fun p => if bad.contains p.2 then { p.1 with logged := true } else p.1
    let gr := { gr with inflight := gr.inflight.set acc { a with parts := ps, entry := some e } }
    s.setGroup g (if a.entry.isSome then gr else { gr with log := gr.log.set e ⟨.access acc, a.slot, acc, 0, 0, 0, 0, []⟩ })

/-- Performs the chosen parts of an access in lane order. -/
def State.performNow (s : State) (g acc : Nat) (ids : List Nat) : State :=
  match (s.group g).access? acc with
  | none => s
  | some a =>
    let ps := ids.filterMap fun i => a.parts[i]?
    match s.failedIn a.kind ps with
    | some pa => s.machineCheck (s.ctxOf g) pa
    | none =>
      let s := if a.kind = .store then s.repair ps else s
      let q := a.parts.zipIdx.foldl (fun (q : State × List Part) p =>
        if ids.contains p.2 then
          let r := q.1.performPart (a.behind g acc) a.kind p.1
          (r.1, q.2 ++ [r.2])
        else (q.1, q.2 ++ [p.1])) (s, [])
      let met := q.2.zipIdx.foldl (fun (m : Word) p =>
        if ids.contains p.2 && p.1.dropped then m ||| ((1 : Word) <<< p.1.lane) else m) 0
      q.1.putAccess g acc { a with parts := q.2, ended := a.ended ||| met }

/-- Performs the chosen parts of an access; those that meet an INVALID line go to the operand log. -/
def State.performParts (s : State) (g acc : Nat) (ids : List Nat) : State :=
  match (s.group g).access? acc with
  | none => s
  | some a =>
    let bad := ids.filter fun i => (a.parts[i]?).any s.unfilled
    if bad.isEmpty then s.performNow g acc ids
    else (s.logAgain g acc a bad).performNow g acc (ids.filter fun i => !bad.contains i)

/-! ### Values coming back -/

/-- A late cause of an issued instruction (R389, R390): the lanes with their addresses and the code. -/
def lateReport (c : Cause) (slot : Nat) (m : Word) (addr : Nat → DWord) : Report :=
  { cause := c, info := slot % 2 ^ 18, src := 0, late := true, lane := lowestLane m, addr := addr (lowestLane m),
    mask := m, laneAddr := (List.range 32).map fun i => if laneIn m i then addr i else 0,
    laneCode := (List.range 32).map fun i => if laneIn m i then BitVec.ofNat 8 c.code else 0 }

/-- Keeps a late cause for delivery (R389). -/
def Group.addLate (g : Group) (order : Nat) (r : Report) : Group := { g with lates := g.lates ++ [⟨order, r⟩] }

/-- The address that a lane of an access presented; a `.uni` access presented one for all its lanes (R124). -/
def Access.addrOf (a : Access) (i : Nat) : DWord :=
  ((a.parts.find? fun p => p.lane == i || a.uni).map (·.addr)).getD 0

/-- The lanes for which a late cause of some lanes of an access is reported: for a `.uni` access, which is made once, every
active lane (DEDUCED, log entry 47). -/
def Access.reported (a : Access) (m : Word) : Word := if a.uni && decide (m ≠ 0) then a.mask else m

/-- A lane's loaded value, all its parts together. -/
def Access.valueOf (a : Access) (i : Nat) : Nat :=
  (a.parts.filter fun p => p.lane == i).foldl (fun v p => v + p.value * 2 ^ (8 * p.sub)) 0

/-- Writes lanes of a destination as they have come back. -/
def Group.writeLanes (g : Group) (d : Dst) (m : Word) (vals : Lanes) : Group :=
  match d with
  | .v n => { g with vregs := g.vregs.set n (.general (mergeLanes m vals (g.v n).lanes) false) }
  | .o n => { g with oregs := g.oregs.set n (mergeLanes m vals (g.o n)) }
  | .k n => if m = 0 then g else { g with kregs := g.kregs.set n (vals.get (lowestLane m)) }

/-- Writes a value that one access read for the whole split (R124): uniform under a full mask. -/
def Group.writeUniform (g : Group) (d : Dst) (m : Word) (x : Word) : Group :=
  match d with
  | .v n => if m = fullMask then { g with vregs := g.vregs.set n (.uniform x) } else g.writeLanes d m (Lanes.splat x)
  | _ => g.writeLanes d m (Lanes.splat x)

/-- Writes the destination of a finished access: each lane whose parts were performed; zero where R134 says
so; every other lane keeps its value. -/
def Group.writeBack (g : Group) (a : Access) : Group :=
  match a.dest with
  | none => g
  | some d =>
    let m := a.mask &&& ~~~(a.lanes fun p => p.dropped)
    (List.range a.width.regs).foldl (fun g j =>
      if a.uni then
        let i := lowestLane a.mask
        if a.parts.any fun p => p.dropped then
          match d.plus j with
          | .v n => { g with vregs := g.vregs.set n (a.olds.getD j .never) }
          | _ => g
        else g.writeUniform (d.plus j) a.mask (a.width.word (a.valueOf i) j)
      else
        g.writeLanes (d.plus j) m (Lanes.ofFn fun i =>
          if laneIn a.zeroMask i then 0 else a.width.word (a.valueOf i) j)) g

/-- Whether an access has nothing left to do: performed or dropped, and back where it has a destination. -/
def Access.finished (a : Access) : Bool :=
  a.parts.all fun p => !p.logged && (p.dropped || (p.performed && (p.back || a.dest.isNone)))

/-- The LATE_VIS that a held store's late lanes raise (R126, R329). -/
def State.lateVis (s : State) (g : Nat) (a : Access) : State :=
  let gr := s.group g
  if a.late = 0 then s
  else if (s.descOf g).lvtrap then
    s.setGroup g { gr with lateVis := gr.lateVis ++ [(a.addrOf (lowestLane a.late), a.late)] }
  else
    let n := min (gr.gstat.toNat / 65536 + 1) 0xFFFF
    s.setGroup g { gr with gstat := BitVec.ofNat 32 (n * 65536 + gr.gstat.toNat % 65536) }

/-- Retires a finished access: its destination, the causes that it met late, and its record. A destination whose
slots do not fit waits for room (R180). -/
def State.finish (s : State) (g acc : Nat) : State :=
  match (s.group g).access? acc with
  | none => s
  | some a =>
    if a.finished then
      let gr := ((s.group g).writeBack a)
      let ds := a.dest.elim [] fun d => d.regs a.width.regs
      match s.commitStop g gr ds with
      | some n => s.awaitRoom g n
      | none =>
        let gr := { gr with inflight := gr.inflight.del acc }
        let gr := if a.ended = 0 then gr
          else gr.addLate acc (lateReport .permission a.slot (a.reported a.ended) a.addrOf)
        let t := (s.setGroup g gr).lateVis g a
        if ds.isEmpty then t else t.served s g
    else s

/-- Marks performed parts as back. -/
def State.bringBack (s : State) (g acc : Nat) (ids : List Nat) : State :=
  match (s.group g).access? acc with
  | none => s
  | some a =>
    let ps := a.parts.zipIdx.map fun p =>
      if ids.contains p.2 && p.1.performed then { p.1 with back := true } else p.1
    s.putAccess g acc { a with parts := ps }

/-- Whether the parts may move now: the access is not held, or the hold has let them. -/
def Access.free (a : Access) : Bool := a.held.isNone

/-- Chosen parts are performed, where they may be; those that overtake what a scope orders before them are noted. -/
def State.performIn (s : State) (g acc : Nat) (a : Access) (todo : List Nat) : State :=
  if a.free && s.mayPerform g acc a todo then
    let ps := todo.filterMap fun i => a.parts[i]?
    (s.noteEarly g acc a (if ps.isEmpty then [] else s.scopedBefore g acc a) (ps.map fun p => (p.loc, p.size)) false).performParts g acc todo
  else s

/-- LOAD_RETURN: loads are performed and come back; what was performed before comes back. -/
def State.loadReturn (s : State) (g acc : Nat) (ids : List Nat) : State :=
  match (s.group g).access? acc with
  | none => s
  | some a =>
    let s := match a.kind with
      | .load => s.performIn g acc a (a.closure ids)
      | _ => s
    ((s.bringBack g acc ids).finish g acc)

/-- WRITE_PERFORMED: stores, atomics and anchored sums are performed at their homes. -/
def State.writePerformed (s : State) (g acc : Nat) (ids : List Nat) : State :=
  match (s.group g).access? acc with
  | none => s
  | some a => if a.kind.writes then (s.performIn g acc a (a.closure ids)).finish g acc else s

/-! ### Meanings of the events -/

/-- LOAD_RETURN (R92, R280, R396). -/
def execLoadReturn (g acc : Nat) (parts : List Nat) (s : State) : Host.Outcome State Fault Refusal :=
  .next (s.loadReturn g acc parts)

/-- WRITE_PERFORMED (R84, R280, R282, R293). -/
def execWritePerformed (g acc : Nat) (parts : List Nat) (s : State) : Host.Outcome State Fault Refusal :=
  .next (s.writePerformed g acc parts)

/-- REPLICA_UPDATE (R84, R293): the home applies its writes to a die's replica. -/
def execReplicaUpdate (die line : Nat) (s : State) : Host.Outcome State Fault Refusal :=
  let rs := s.replicas.map fun r =>
    if r.die = die ∧ r.line = line ∧ r.stale = true then
      { r with bytes := Memory.bytes s.mem (line * 128) 128, stale := false, behind := [] }
    else r
  .next { s with replicas := rs }

end Sys2Proof.Machine
end

