-- ==== Sys2Proof/Machine/Lsu.lean ====
section
/-! DEFINITION. Issuing a memory instruction (R91, R92, R94, R118 to R127, R134, R382, R383): the lanes'
checks, the winning cause, the operand log, and the access in flight. -/

namespace Sys2Proof.Machine

open Sys2Proof

/-- A memory instruction's request. -/
structure Req where
  kind : AccKind
  form : AForm
  width : Width
  size : Nat
  uni : Bool
  addr : Nat → DWord
  data : Nat → Nat
  cmp : Nat → Word
  dest : Option Dst
  zeroOld : Bool                  -- order-free atomics give zero under the deterministic flag (R134)
  held : Option DWord
  acq : Option Scope
  rel : Option Scope
  family : Bool

/-- The kind of translation that an access needs (R90). -/
def AccKind.xkind : AccKind → XKind
  | .load => .read
  | .pfet => .read
  | .store => .write
  | .atomic _ => .atomic
  | .asum => .atomic

/-- Atomics whose result depends on their order (R134). -/
def AOp.orderDep : AOp → Bool
  | .xchg => true
  | .cas => true
  | .fadd => true
  | _ => false

/-- What a lane of a request wants. -/
def Req.want (q : Req) (i : Nat) : Want :=
  { lane := i, addr := q.addr i, size := q.size, kind := q.kind.xkind, form := q.form, family := q.family,
    orderDep := (match q.kind with
      | .atomic op => Sys2Proof.Machine.AOp.orderDep op
      | _ => false),
    whole := decide (q.kind = .asum) }

/-- The lanes that a request accesses: for `.uni` one (R124). -/
def Req.lanes (q : Req) (m : Word) : List Nat := if q.uni then [lowestLane m] else lanesOf m

/-! ### Causes at issue (R382, R383, R387) -/

/-- The cause of a lane's outcome. -/
def LaneRes.cause : LaneRes → Option Cause
  | .bad c _ => some c
  | .fault _ _ => some .pageFault
  | _ => none

/-- INFO of a lane's cause. -/
def LaneRes.info : LaneRes → Nat
  | .bad _ i => i
  | _ => 0

/-- The winning cause of the lanes, a page fault apart (R382). -/
def winningCause (rs : List (Nat × LaneRes)) : Option Cause :=
  worstOf (rs.filterMap fun r =>
    match r.2 with
    | .bad c _ => some (true, c)
    | _ => none)

/-- The report of a lane cause (R383, R387). -/
def laneReport (c : Cause) (rs : List (Nat × LaneRes)) (addr : Nat → DWord) (m : Word) : Report :=
  let hit := rs.filter fun r => decide (r.2.cause = some c)
  let low := match hit with
    | r :: _ => r.1
    | [] => 0
  let info := match hit with
    | r :: _ => r.2.info
    | [] => 0
  let code := fun i => match rs.find? fun r => r.1 == i with
    | some r => (match r.2.cause with
        | some c => BitVec.ofNat 8 c.code
        | none => 0)
    | none => 0
  { cause := c, info := info, src := 0, late := false, lane := low, addr := addr low,
    mask := hit.foldl (fun a r => a ||| ((1 : Word) <<< r.1)) 0,
    laneAddr := (List.range 32).map fun i => if laneIn m i then addr i else 0,
    laneCode := (List.range 32).map fun i => if laneIn m i then code i else 0 }

/-- The outcomes of an access that is made once, as those of every active lane. -/
def spread (uni : Bool) (m : Word) (rs : List (Nat × LaneRes)) : List (Nat × LaneRes) :=
  match uni, rs with
  | true, r :: _ => (lanesOf m).map fun i => (i, r.2)
  | _, _ => rs

/-- A cause of an instruction with one address for all its lanes. -/
def State.uniReport (s : State) (c : Cause) (addr : DWord) (info : Nat) : Report :=
  laneReport c ((lanesOf s.mask).map fun i => (i, .bad c info)) (fun _ => addr) s.mask

/-- A plan's answer: such a cause. -/
def State.uniStop {α : Type} (s : State) (c : Cause) (addr : DWord) : Except Stop α :=
  .error (.raise (s.uniReport c addr 0))

/-! ### The operand log (R91, R92, R94) -/

/-- An address as R92 compares it: the window and the place in it. -/
def placeIn (form : AForm) (a : DWord) : Nat × Nat :=
  match form with
  | .loc => (1, a.toNat)
  | .clu => (2, a.toNat)
  | .gen =>
    match windowOf a with
    | .glob => (0, a.toNat)
    | .scratch => (1, windowOffset a)
    | .cluster => (2, clusterField a * 2 ^ 22 + windowOffset a)
    | .priv => (3, privateOffset a)
    | .invalid => (4, a.toNat)

/-- Whether two accesses share a byte by generic address in one window (R92). -/
def sharePlace (a : Nat × Nat) (n : Nat) (b : Nat × Nat) (k : Nat) : Bool :=
  decide (a.1 = b.1) && decide (a.2 < b.2 + k) && decide (b.2 < a.2 + n)

/-- Whether an access covers a byte of a pending log entry (R92): of a lane of an access, or of an instruction that waits as
a whole. -/
def Group.logClash (g : Group) (form : AForm) (a : DWord) (n : Nat) : Bool :=
  (g.inflight.any fun x => x.2.parts.any fun p =>
    p.logged && sharePlace (placeIn form a) n (placeIn x.2.form (p.addr + BitVec.ofNat 64 p.sub)) p.size) ||
  g.log.any fun e => e.2.covers.any fun c => sharePlace (placeIn form a) n (c.1, c.2.1) c.2.2

/-! ### Hold queues (R126, R128) -/

/-- The line of a place. -/
def Loc.line : Loc → Nat × Nat
  | .phys pa => (0, pa / 128)
  | .scr t o => (t + 1, o / 128)
  | .priv va => (0, va / 128)
  | .window _ off => (0, off / 128)

/-- The entries of a home's queue that held accesses take or will take: one for each line of each. -/
def State.heldLines (s : State) (home : Nat) : Nat :=
  ((s.groups.map (·.1)).eraseDups.map fun g =>
    (((s.group g).inflight.filter fun a => a.2.held.isSome).map fun a =>
      ((a.2.parts.filter fun p => p.open_ && !p.logged && s.homeOf p.loc == home).map fun p =>
        p.loc.line).eraseDups.length).sum).sum

/-- The size of a home's queue. -/
def homeQueue (h : Nat) : Nat := if 16 ≤ h ∧ h < 528 then 64 else 1024

/-- Whether the homes' queues have the entries that a held access needs. -/
def State.heldRoom (s : State) (rs : List (Nat × LaneRes)) : Bool :=
  let locs := rs.flatMap fun r =>
    match r.2 with
    | .ok t => t.pieces.map fun p => p.2.2
    | _ => []
  let homes := (locs.map s.homeOf).eraseDups.filter fun h => decide (h ≠ 530)
  homes.all fun h =>
    decide (s.heldLines h + ((locs.filter fun l => s.homeOf l == h).map Loc.line).eraseDups.length ≤ homeQueue h)

/-! ### The access in flight -/

/-- A part as it starts. -/
def partAt (q : Req) (i : Nat) (sub size : Nat) (loc : Loc) (logged rm prop01 : Bool) : Part :=
  { lane := i, sub := sub, addr := q.addr i, loc := loc, size := size,
    data := q.data i / 2 ^ (8 * sub) % 2 ^ (8 * size), cmp := q.cmp i, performed := false, back := false,
    value := 0, logged := logged, dropped := false, rm := rm, prop01 := prop01 }

/-- The parts of a lane. -/
def Req.partsOf (q : Req) (i : Nat) : LaneRes → List Part
  | .ok t => t.pieces.map fun p => partAt q i p.1 p.2.1 p.2.2 false t.rm t.prop01
  | .fault _ _ => [partAt q i 0 q.size (.priv 0) true false false]
  | _ => []

/-- The contents of a destination before a load. -/
def Group.oldDests (g : Group) (d : Option Dst) (w : Width) : List VReg :=
  match d with
  | some (.v n) => (List.range w.regs).map fun j => g.v (n + j)
  | _ => []

/-- The mapping that a destination receives at issue (R91): general with the old values, or uniform for a
load that is made once under a full mask. -/
def Group.reserve (g : Group) (d : Option Dst) (w : Width) (uniform : Bool) : Group :=
  match d with
  | some (.v n) =>
    (List.range w.regs).foldl (fun g j =>
      let old := (g.v (n + j)).lanes
      { g with vregs := g.vregs.set (n + j) (if uniform then .uniform (old.get 0) else .general old false) }) g
  | _ => g

/-- The lanes that fault. -/
def faultLanes (rs : List (Nat × LaneRes)) : Word :=
  rs.foldl (fun m r =>
    match r.2 with
    | .fault _ _ => m ||| ((1 : Word) <<< r.1)
    | _ => m) 0

/-- What the translations of the lanes leave: the trails, and the region lines filled. -/
def State.leaveLanes (s : State) (rs : List (Nat × LaneRes)) : State :=
  rs.foldl (fun s r =>
    match r.2 with
    | .ok t => t.fills.foldl State.fill (s.leave t.trail)
    | .fault _ tr => s.leaveWalk tr
    | _ => s) s

/-- Sends the faults of a log entry to their service. -/
def State.logFaults (s : State) (g entry : Nat) (rs : List (Nat × LaneRes)) : State :=
  rs.foldl (fun s r =>
    match r.2 with
    | .fault f _ => s.addFault g (.data r.1 entry) f
    | _ => s) s

/-- The key of an access: the issue order of its instruction. -/
def State.accKey (s : State) : Nat := 3 * s.g.seq + s.cur.slot % 3

/-- Whether every write of the group to a page of non-atomic propagation that comes before the executing instruction is at
every replica (R293). -/
def State.noStale (s : State) (g : Nat) : Bool :=
  !s.lagging g s.accKey s.mask ((s.group g).past s.mask) fun _ _ => true

/-- Sets the values of parts that were performed at once. -/
def Access.setDone (a : Access) (i v : Nat) (p : Part → Bool) : Access :=
  { a with parts := a.parts.map fun x =>
      if x.lane = i ∧ p x = true then
        { x with performed := true, back := true, value := v / 2 ^ (8 * x.sub) % 2 ^ (8 * x.size) }
      else x }

/-- Whether a part is performed at issue: a private one (R112), or one at a function window (R420). -/
def Part.atOnce (p : Part) : Bool :=
  match p.loc with
  | .priv _ => !p.logged && p.open_
  | .window _ _ => !p.logged && p.open_
  | _ => false

/-- Performs a window part. -/
def State.performWindow (s : State) (g : Nat) (k : AccKind) (p : Part) : State × Nat :=
  match p.loc with
  | .window fn off =>
    (match k with
     | .load => (s, s.readWindow fn off p.size)
     | _ => (s.writeWindow fn off (bytesOf p.size p.data) (some g), 0))
  | _ => (s, 0)

/-- Performs what an access performs at once, lane by lane. -/
def State.immediate (s : State) (g acc : Nat) (priv use : Bool) : State :=
  match (s.group g).access? acc with
  | none => s
  | some a0 =>
    let lanes := ((a0.parts.filter Part.atOnce).map (·.lane)).eraseDups
    let s := lanes.foldl (fun s i =>
      match (s.group g).access? acc with
      | none => s
      | some a =>
        let ps := a.parts.filter fun p => p.lane == i && p.atOnce
        match ps with
        | [] => s
        | p :: _ =>
          let q := match p.loc with
            | .window _ _ => s.performWindow g a.kind p
            | _ => s.performPrivate g a.kind priv use ps
          if (q.1.group g).live then q.1.putAccess g acc (a.setDone i q.2 Part.atOnce) else q.1) s
    s.finish g acc

/-- The pieces at function windows that an access reaches: they are accessed as it issues. -/
def windowPieces (rs : List (Nat × LaneRes)) : List (Loc × Nat) :=
  rs.flatMap fun r =>
    match r.2 with
    | .ok t => t.pieces.filterMap fun p =>
      match p.2.2 with
      | .window _ _ => some (p.2.2, p.2.1)
      | _ => none
    | _ => []

/-- Starts an access whose lanes' outcomes are known. -/
def State.startAccess (s : State) (q : Req) (rs : List (Nat × LaneRes)) (key slot : Nat) (m : Word)
    (priv use : Bool) (entry : Option Nat) : State :=
  let g := s.cur.group
  let ws := windowPieces rs
  let s := if ws.isEmpty then s else s.noteAtOnce g key (Access.probe q.kind q.rel m ((s.group g).past m)) ws
  let s := s.chosen.leaveLanes rs
  let gr := s.group g
  let fl := faultLanes rs
  let a : Access :=
    { kind := q.kind, slot := slot, mask := m, width := q.width, form := q.form, uni := q.uni, dest := q.dest,
      zeroMask := if q.zeroOld then maskOf fun i => laneIn m i && (decide ((placeIn q.form (q.addr i)).1 = 0) ||
        decide ((placeIn q.form (q.addr i)).1 = 2)) else 0,
      held := q.held, acq := q.acq, rel := q.rel, arrived := false, late := 0, ended := 0, priv := priv, family := q.family,
      olds := gr.oldDests q.dest q.width, past := gr.past m, entry := if fl = 0 then none else entry,
      issued := s.ticks (s.dieOf g),
      parts := rs.flatMap fun r => q.partsOf r.1 r.2 }
  let gr := { gr.reserve q.dest q.width (q.uni && decide (m = fullMask) && decide (fl = 0)) with
    inflight := gr.inflight.set key a }
  let gr := match fl, entry with
    | 0, _ => gr
    | _, some e => { gr with log := gr.log.set e ⟨.access key, slot, key, fl, 0, 0, 0, []⟩ }
    | _, none => gr
  let s := s.setGroup g gr
  let s := match entry with
    | some e => s.logFaults g e rs
    | none => s
  s.immediate g key priv use

/-- The walker's or the fill's uncorrectable error among the lanes (R102). -/
def checkedPa (rs : List (Nat × LaneRes)) : Option Nat :=
  rs.findSome? fun r =>
    match r.2 with
    | .check pa => some pa
    | _ => none

/-- Whether nothing earlier of the group is ordered before what an instruction accesses as it issues (R280). -/
def State.windowsOpen (s : State) (q : Req) (rs : List (Nat × LaneRes)) : Bool :=
  let ls := windowPieces rs
  ls.isEmpty || s.mayAtOnce s.cur.group s.accKey (Access.probe q.kind q.rel s.mask (s.g.past s.mask)) ls

/-- A memory instruction's plan: its causes, its stalls, its access. Where its faulting lanes find no entry in the
operand log, it waits in the stall buffer as a whole: none of its lanes accesses anything, and when an entry is free
every lane is checked again (DESIGN CHOICE, log entry 107: R94 says neither of the lanes that do not fault). -/
def State.access (s : State) (q : Req) : Except Stop (State → State) :=
  let g := s.cur.group
  let m := s.mask
  let priv := s.priv
  let use := s.choice
  let rs := (q.lanes m).map fun i => (i, s.checkLane g (q.want i) priv use)
  let key := s.accKey
  let slot := s.cur.slot
  match winningCause rs with
  | some c => .error (.raise { laneReport c (spread q.uni m rs) q.addr m with
      walked := (q.lanes m).flatMap fun i => s.laneWalked g (q.want i) priv use })
  | none =>
    match checkedPa rs with
    | some pa => .ok fun t => t.machineCheck (t.ctxOf g) pa
    | none =>
      if rs.any (fun r => s.g.logClash q.form (q.addr r.1) q.size) || rs.any (fun r => decide (r.2 = .away)) ||
          (q.held.isSome && !s.heldRoom rs) || !s.windowsOpen q rs then .error .stall
      else if faultLanes rs ≠ 0 ∧ s.g.freeEntry = none then .error .full
      else .ok fun t => t.startAccess q rs key slot m priv use (if faultLanes rs = 0 then none else t.g.freeEntry)

/-- A destination of an access that gives lane values: a k register takes uniform results alone (R175). -/
def State.accessTo (s : State) (d : Dst) (q : Req) : Except Stop (State → State) :=
  if d.isK && !q.uni then s.stop .shapeMismatch else s.access q

end Sys2Proof.Machine
end

