-- ==== Sys2Proof/Machine/LoadStore.lean ====
section
/-! DEFINITION. The memory instructions of R59: loads and stores with their held, acquire and release forms,
pointer tests and casts, atomics, anchored sums, fences, mapped regions and time (R113, R114, R117, R123 to
R138, R348, R349). -/

namespace Sys2Proof

/-- An address operand with its offset field. -/
structure Off where
  src : Src
  off : Int
  deriving DecidableEq, Repr

/-- An address operand of a source and an offset field. -/
def Off.imm (a : Src) (off : Int) : Off := ⟨a, off⟩

/-- Whether a cast writes a pair (R131). -/
def CastTo.generic : CastTo → Bool
  | .scr => true
  | .clu => true
  | _ => false

end Sys2Proof

namespace Sys2Proof.Machine

open Sys2Proof

/-! ### Addresses and data (R118 to R121) -/

/-- The address of a lane (R119): the base plus the offset field times the size, modulo 2^64 or 2^32. -/
def State.addrOf (s : State) (form : AForm) (o : Off) (size i : Nat) : DWord :=
  let d : Int := o.off * size
  match form with
  | .gen => s.rdPair o.src i + BitVec.ofInt 64 d
  | _ => ((s.rd o.src).vals.get i + BitVec.ofInt 32 d).setWidth 64

/-- A lane's store data from the registers from `x` on (R120). -/
def State.regData (s : State) (x : Nat) (w : Width) (i : Nat) : Nat :=
  ((List.range w.regs).map fun j => ((s.rdv (x + j)).vals.get i).toNat * 2 ^ (32 * j)).sum

/-- A lane's store data from a source; `a` is the instruction's first operand. -/
def State.srcData (s : State) (a x : Src) (w : Width) (i : Nat) : Nat :=
  if w.regs = 1 then ((s.rd2 a x).vals.get i).toNat
  else ((List.range w.regs).map fun j => ((s.rd (x.next j)).vals.get i).toNat * 2 ^ (32 * j)).sum

/-- A load's request. -/
def State.loadReq (s : State) (form : AForm) (w : Width) (d : Dst) (o : Off) : Req :=
  { kind := .load, form := form, width := w, size := w.bytes, uni := false,
    addr := fun i => s.addrOf form o w.bytes i, data := fun _ => 0, cmp := fun _ => 0, dest := some d,
    zeroOld := false, held := none, acq := none, rel := none, family := true }

/-- A store's request. -/
def State.storeReq (s : State) (form : AForm) (w : Width) (data : Nat → Nat) (o : Off) : Req :=
  { kind := .store, form := form, width := w, size := w.bytes, uni := false,
    addr := fun i => s.addrOf form o w.bytes i, data := data, cmp := fun _ => 0, dest := none,
    zeroOld := false, held := none, acq := none, rel := none, family := true }

/-- A plain load. -/
def loadPlan (form : AForm) (w : Width) (d : Dst) (o : Off) : Plan := fun s => s.accessTo d (s.loadReq form w d o)

/-- A plain store. -/
def storePlan (form : AForm) (w : Width) (x : Nat) (o : Off) : Plan := fun s =>
  s.access (s.storeReq form w (s.regData x w) o)

/-- An atomic (R133, R134). -/
def atomPlan (form : AForm) (op : AOp) (d : Dst) (a b : Src) (c : CSrc) : Plan := fun s =>
  let y := s.rd2 a b
  let z := s.rdc c
  s.accessTo d { s.loadReq form .w32 d (Off.imm a 0) with
    kind := .atomic op, data := fun i => (y.vals.get i).toNat,
    cmp := fun i => if op.isCas then z.vals.get i else 0,
    zeroOld := decide (form = .gen) && (s.descOf s.cur.group).det, family := false }

/-! ### Held times (R125, R127) -/

/-- A time operand: an absolute pair, or a count of ticks from now. -/
def State.timeOperand (s : State) (rel : Bool) (t : Src) : DWord :=
  if rel then s.gtime s.cur.group + ((s.rd t).u.setWidth 64) else s.rdPair t 0

/-- The time of a held access, where it lies within the horizon of 2^22 ticks (R127). -/
def State.holdTime (s : State) (rel : Bool) (t : Src) : Option DWord :=
  let v := s.timeOperand rel t
  if (s.gtime s.cur.group).toNat + 2 ^ 22 < v.toNat then none else some v

/-! ### Pointer tests and casts (R130, R131) -/

/-- The shape of a result of an address pair: uniform where both registers are (R130, R131). -/
def State.pairShape (s : State) (a : Src) : Sh := shapeOf [s.rd a, s.rd (a.next 1)]

/-- SPTEST's code (R130). -/
def State.windowCode (s : State) (a : DWord) : Nat :=
  match windowOf a with
  | .glob => 0
  | .scratch => if scratchTag a = s.logicalCore s.cur.group then 1 else 2
  | .cluster => 3
  | .priv => 4
  | .invalid => 7

/-- The core and the offset that SPCAST reads from a source (R131). -/
def State.castFrom (s : State) (fr : CastFrom) (a : Src) (i : Nat) : Option (Nat × Nat) :=
  let l := s.logicalCore s.cur.group
  let w := ((s.rd a).vals.get i).toNat
  match fr with
  | .gen =>
    let x := s.rdPair a i
    (match windowOf x with
     | .scratch => some (scratchTag x, windowOffset x)
     | .cluster => some (l / 64 * 64 + clusterField x, windowOffset x)
     | _ => none)
  | .loc => if 2 ^ 22 ≤ w then none else some (l, w)
  | .c32 => if 2 ^ 28 ≤ w then none else some (l / 64 * 64 + w / 2 ^ 22, w % 2 ^ 22)

/-- What SPCAST gives (R131): all ones where the source or the condition fails. -/
def castTo (tgt : CastTo) (l : Nat) (x : Option (Nat × Nat)) : DWord :=
  match x with
  | none => BitVec.allOnes 64
  | some (c, o) =>
    match tgt with
    | .scr => BitVec.ofNat 64 (0xF800000000000000 + c * 2 ^ 48 + o)
    | .clu => if c / 64 = l / 64 then BitVec.ofNat 64 (0xF400000000000000 + c % 64 * 2 ^ 48 + o) else BitVec.allOnes 64
    | .loc => if c = l then BitVec.ofNat 64 o else BitVec.allOnes 64
    | .c32 => if c / 64 = l / 64 then BitVec.ofNat 64 (c % 64 * 2 ^ 22 + o) else BitVec.allOnes 64

/-! ### PFET (R132) -/

/-- What a lane of PFET reaches: GLOBAL and PRIVATE addresses alone. -/
def State.prefetchLane (s : State) (g i : Nat) (a : DWord) (priv use : Bool) : LaneRes :=
  let w : Want := ⟨i, a, 4, .read, .gen, false, false, false⟩
  match windowOf a with
  | .glob => s.checkLane g w priv use
  | .priv => s.checkLane g w priv use
  | _ => .bad .spaceInvalid 0

/-- Brings a lane's line in. -/
def State.prefetch (s : State) (g : Nat) (r : LaneRes) (priv use : Bool) : State :=
  match r with
  | .ok t =>
    t.pieces.foldl (fun s p =>
      match p.2.2 with
      | .priv va => s.bringLine g (va / 128) .read priv use
      | _ => s.leave t.trail) s
  | _ => s

/-! ### Anchored sums (R117) -/

/-- An addend as an integer modulo 2^128, whether it is NaN, and whether it saturates. -/
def anchored (anchor : Int) (x : Word) : Nat × Bool × Bool :=
  let top : Nat := 2 ^ 63 - 1
  let of := fun (neg : Bool) (n : Nat) => if neg && decide (n ≠ 0) then 2 ^ 128 - n else n
  match f32 x with
  | .nan => (0, true, false)
  | .inf neg => (of neg top, false, true)
  | .fin e =>
    let n := (choose e anchor Ctx.rne).n
    if top < n then (of e.neg top, false, true) else (of e.neg n, false, false)

/-! ### Fences (R136, R280) -/

/-- Whether a group has no matrix instruction at work. -/
def State.noJob (s : State) (g : Nat) : Bool := (s.jobOf g).isNone

/-- Whether program order puts event `k` of a split of lanes `m` before the executing split's next instruction (R279). -/
def State.earlier (s : State) (m : Word) (k : Nat) : Bool := poBefore m k s.mask (s.g.past s.mask)

/-- Whether access `k`, which comes before the executing split's next instruction, is still to be performed. -/
def State.pendingAccess (s : State) (k : Nat) (a : Access) : Bool := a.open_ && s.earlier a.mask k

/-- Whether no matrix instruction that comes before the executing split's next one has accesses to make (R253, R254). -/
def State.jobsDone (s : State) (g : Nat) : Bool := !(s.jobOf g).any fun j => s.earlier j.mask j.order && s.jobPends j

/-- Whether every access that comes before has been performed, but for held ones, which no fence waits for (R127). -/
def State.quiet (s : State) (g : Nat) : Bool :=
  s.jobsDone g && (s.group g).inflight.all fun a => a.2.held.isSome || !s.pendingAccess a.1 a.2

/-- Whether every access that comes before has been performed, held ones as well: what a barrier publishes (R155,
R285). -/
def State.settled (s : State) (g : Nat) : Bool :=
  s.jobsDone g && (s.group g).inflight.all fun a => !s.pendingAccess a.1 a.2

/-- Whether every read that comes before has been performed, those of copies and held loads as well (R363, R377). -/
def State.readsDone (s : State) (g : Nat) : Bool :=
  s.jobsDone g && ((s.group g).inflight.all fun a => !a.2.kind.reads || !s.pendingAccess a.1 a.2) &&
    (s.group g).copies.all fun c => !s.earlier c.2.mask c.2.order

/-- Whether every write that comes before, but for held ones, is at every replica: what a release waits for where pages
of non-atomic propagation are concerned (R293; on others a write is everywhere once it is performed, log entry 108). -/
def State.propagated (s : State) (g : Nat) : Bool :=
  s.noStale g && !((s.jobOf g).any fun j => j.drain?.isSome && s.earlier j.mask j.order) &&
    (s.group g).inflight.all fun a =>
      a.2.held.isSome || !a.2.kind.writes || !s.pendingAccess a.1 a.2 || !(a.2.parts.any fun p => p.open_ && p.prop01)

/-- Whether anything that a group issued before its number `k` is still at work: a FENCE there orders it. -/
def Group.openTill (g : Group) (job : Option Job) (k : Nat) : Bool :=
  (g.inflight.any fun a => decide (a.1 < k) && a.2.open_) || job.any fun j => decide (j.order < k)

/-- A FENCE takes its place among the group's accesses; those that order nothing any more go. -/
def State.addFence (s : State) (k : FenceK) (sc : Scope) : State :=
  let f : FenceRec := ⟨s.accKey, k, sc, s.mask, s.g.past s.mask⟩
  let j := s.jobOf s.cur.group
  let lags := fun (f : FenceRec) => s.replicas.any fun r => r.behind.any fun b => b.group == s.cur.group && decide (b.key < f.key)
  s.modG fun g => { g with fences := (g.fences ++ [f]).filter fun f => g.openTill j f.key || lags f }

/-! ### Mapped regions (R113, R114, R137, R138) -/

/-- The causes that RMAP checks, each with the address that has it. -/
def State.mapCause (s : State) (o n : Nat) (gl : DWord) : Option (Cause × DWord) :=
  let a := BitVec.ofNat 64 o
  let d := s.descOf s.cur.group
  let inScr := decide (0 < d.scrlen) && decide (d.scrbase ≤ gl.toNat) && decide (gl.toNat + n ≤ d.scrbase + d.scrlen)
  let cs : List (Bool × Cause × DWord) :=
    [(decide (2 ^ 22 ≤ o), .spaceInvalid, a), (decide (o < 2 ^ 22) && decide (s.regionBytes (teamOf s.cur.group) < o + n), .permission, a),
     (decide (windowOf gl ≠ .glob), .spaceInvalid, gl), (decide (o % 128 ≠ 0), .misaligned, a),
     (decide (n % 128 ≠ 0) || decide (n = 0), .misaligned, a), (decide (gl.toNat % 128 ≠ 0), .misaligned, gl),
     (d.anytime && decide (windowOf gl = .glob) && !inScr, .anytimeEscape, gl)]
  (cs.filter (·.1)).foldl (fun w c =>
    match w with
    | none => some c.2
    | some b => if c.2.1.rank < b.1.rank then some c.2 else some b) none

/-- Whether a region would overlap a mapped one, in scratchpad or in its global range. -/
def Team.regionClash (t : Team) (o n gl : Nat) : Bool :=
  t.regions.any fun e =>
    let r := e.2
    (decide (o < r.start + 128 * r.lines) && decide (r.start < o + n)) ||
    (decide (gl < r.glob + 128 * r.lines) && decide (r.glob < gl + n))

/-- RMAP's effect: the entry number, or what stands for it when nothing is mapped. It takes the lowest free entry, and
where none is free the answer says so, overlap or not (DESIGN CHOICE, log entry 132: R137 names neither). -/
def State.mapRegion (s : State) (d o n gl : Nat) : State :=
  let k := teamOf s.cur.group
  let t := s.team k
  match (List.range 8).find? fun i => !t.regions.any fun e => e.1 == i with
  | none => s.writeUni (.v d) 0xFFFFFFFF
  | some i =>
    if t.regionClash o n gl then s.writeUni (.v d) 0xFFFFFFFE
    else
      let r : Region := ⟨o, n / 128, gl, s.ctxOf s.cur.group, []⟩
      (s.setTeam k { t with regions := t.regions.set i r }).writeUni (.v d) (BitVec.ofNat 32 i)

/-- The translation of a line's write-back (R114): a write in the context of the mapping. -/
def State.backLine (s : State) (core : Nat) (r : Region) (line : Nat) (priv use : Bool) : XRes × Trail :=
  s.translate core (s.ctx r.ctx) (r.glob + 128 * line) .write priv use

/-- Whether a home takes a line that group `g` writes back (R282); one that no link reaches gets nothing of it. -/
def State.backOpen (s : State) (g pa : Nat) : Bool := !s.linked g pa || s.homeOpen g .store false (.phys pa) 128

/-- Writes a line of a region back for group `g` and marks it CLEAN: it is the whole line (R103). No link carries it
to a home that none reaches. -/
def State.putBack (s : State) (k i line pa : Nat) (tr : Trail) (prop01 : Bool) (g : Nat) : State :=
  let s := s.leave tr
  let t := s.team k
  let r := (t.regions.find? fun e => e.1 == i).map (·.2)
  match r with
  | none => s
  | some r =>
    let s :=
      if s.linked g pa then
        (s.writePhys pa (Memory.bytes t.scratch (r.start + 128 * line) 128) prop01 (some ⟨g, 3 * (s.group g).seq, fullMask, false, false⟩)).repairLines
          (· == pa / 128)
      else s.lostStore g pa
    s.setTeam k
      { t with regions := t.regions.set i { r with state := r.state.set line .clean } }

/-- A region entry of a team. -/
def Team.region? (t : Team) (i : Nat) : Option Region := (t.regions.find? fun e => e.1 == i).map (·.2)

/-- The lines of a region that a flush can write back now, with where they go. -/
def State.flushable (s : State) (r : Region) (priv use : Bool) : List (Nat × XRes × Trail) :=
  r.dirty.map fun line => (line, s.backLine (s.coreOf s.cur.group) r line priv use)

/-- The executing instruction waits for a fault of its own: a log entry, the fault, and the wait (R138, R368). The entry
keeps the address `a` that the instruction presented (R409) and the bytes that its access covers (R92). -/
def State.waitLogged (s : State) (e : Nat) (f : FaultInfo) (a : DWord) (covers : List (Nat × Nat × Nat)) (w : Wait) : State :=
  let key := s.accKey
  let slot := s.cur.slot
  let g := s.cur.group
  let s := s.modG fun gr => { gr with log := gr.log.set e ⟨.retry, slot, key, 1, 0, 0, a, covers⟩, stallBuf := none }
  (s.modSp fun x => { x with wait := some w }).addFault g (.data 0 e) f

/-- RFLUSH's answer for a uniform entry number. -/
def State.flush (s : State) (n : Word) : Except Stop (State → State) :=
  let g := s.cur.group
  let k := teamOf g
  let priv := s.priv
  let use := s.choice
  match (if n.toNat < 8 then (s.team k).region? n.toNat else none) with
  | none => .ok id
  | some r =>
    let ls := s.flushable r priv use
    let denied := ls.find? fun l =>
      match l.2.1 with
      | .permission => true
      | .ok pa _ _ => s.denied g pa ⟨0, 0, 128, .write, .gen, false, false, false⟩ priv
      | _ => false
    match denied with
    | some l => .error (.raise { s.uniReport .permission (BitVec.ofNat 64 (r.glob + 128 * l.1)) 0 with
        walked := ls.flatMap (·.2.2.walked) })
    | none =>
    match ls.find? fun l => s.escapes g (r.glob + 128 * l.1) 128 with
    | some l => s.uniStop .anytimeEscape (BitVec.ofNat 64 (r.glob + 128 * l.1))
    | none =>
      let bad := ls.findSome? fun l =>
        match l.2.1 with
        | .check pa => some pa
        | _ => none
      let faulted := ls.findSome? fun l => faultOf (r.glob + 128 * l.1) (BitVec.ofNat 64 (r.glob + 128 * l.1)) 1 128 l.2.1
      match bad, faulted with
      | some pa, _ => .ok fun t => t.machineCheck (t.ctxOf g) pa
      | none, some f =>
        (match s.g.freeEntry with
         | none => .error .full
         | some e => .error (.act fun t => (ls.foldl (fun t l => t.leaveWalk l.2.2) t).waitLogged e f f.addr
           (ls.map fun l => (0, r.glob + 128 * l.1, 128)) (.record e [])))
      | none, none =>
        let shut := ls.any fun l =>
          match l.2.1 with
          | .ok pa _ _ => !s.backOpen g pa
          | _ => false
        if !s.quiet g || shut then .error .stall
        else .ok fun t => ls.foldl (fun t l =>
          match l.2.1 with
          | .ok pa prop01 _ => t.putBack k n.toNat l.1 pa l.2.2 prop01 g
          | _ => t) t.chosen

/-- Fresh bytes over a range: contents that the spec leaves unspecified (R114). -/
def State.blur (s : State) (k o n : Nat) : State :=
  let bs := (List.range n).map fun i => Config.freeByte (s.freeIx + i)
  let t := s.team k
  { s with freeIx := s.freeIx + n }.setTeam k { t with scratch := Memory.put t.scratch o bs }

/-- RDROP's effect. -/
def State.dropRegion (s : State) (k i : Nat) : State :=
  match (if i < 8 then (s.team k).region? i else none) with
  | none => s
  | some r =>
    let t := s.team k
    (s.setTeam k { t with regions := t.regions.del i }).blur k r.start (128 * r.lines)

/-! ### Meanings -/

/-- LD (R123): a load through a generic address. -/
def planLd (w : Width) (d : Dst) (a : Src) (off : Int) : Plan := loadPlan .gen w d (Off.imm a off)
def execLd (w : Width) (d : Dst) (a : Src) (off : Int) (s : State) : Host.Outcome State Fault Refusal :=
  issue (.ld w d a off) (planLd w d a off) s

/-- ST (R123): a store through a generic address. -/
def planSt (w : Width) (x : Nat) (a : Src) (off : Int) : Plan := storePlan .gen w x (Off.imm a off)
def execSt (w : Width) (x : Nat) (a : Src) (off : Int) (s : State) : Host.Outcome State Fault Refusal :=
  issue (.st w x a off) (planSt w x a off) s

/-- LDS (R123): a load through the local form. -/
def planLds (w : Width) (d : Dst) (a : Src) (off : Int) : Plan := loadPlan .loc w d (Off.imm a off)
def execLds (w : Width) (d : Dst) (a : Src) (off : Int) (s : State) : Host.Outcome State Fault Refusal :=
  issue (.lds w d a off) (planLds w d a off) s

/-- STS (R123): a store through the local form. -/
def planSts (w : Width) (x : Nat) (a : Src) (off : Int) : Plan := storePlan .loc w x (Off.imm a off)
def execSts (w : Width) (x : Nat) (a : Src) (off : Int) (s : State) : Host.Outcome State Fault Refusal :=
  issue (.sts w x a off) (planSts w x a off) s

/-- LDC (R123): a load through the cluster form. -/
def planLdc (w : Width) (d : Dst) (a : Src) (off : Int) : Plan := loadPlan .clu w d (Off.imm a off)
def execLdc (w : Width) (d : Dst) (a : Src) (off : Int) (s : State) : Host.Outcome State Fault Refusal :=
  issue (.ldc w d a off) (planLdc w d a off) s

/-- STC (R123): a store through the cluster form. -/
def planStc (w : Width) (x : Nat) (a : Src) (off : Int) : Plan := storePlan .clu w x (Off.imm a off)
def execStc (w : Width) (x : Nat) (a : Src) (off : Int) (s : State) : Host.Outcome State Fault Refusal :=
  issue (.stc w x a off) (planStc w x a off) s

/-- LD.uni, LDS.uni and LDC.uni (R124): one access for the split. -/
def planLdUni (fm : AForm) (w : Width) (d : Dst) (a : Src) (off : Int) : Plan := fun s =>
  s.access { s.loadReq fm w d (Off.imm a off) with uni := true }
def execLdUni (fm : AForm) (w : Width) (d : Dst) (a : Src) (off : Int) (s : State) : Host.Outcome State Fault Refusal :=
  issue (.ldUni fm w d a off) (planLdUni fm w d a off) s

/-- LD.nb, LDS.nb and LDC.nb (R125 to R128): a load held until its not-before time. -/
def planLdNb (fm : AForm) (w : Width) (rel : Bool) (d : Dst) (a t : Src) : Plan := fun s =>
  if d.isK then s.stop .shapeMismatch
  else
    match s.holdTime rel t with
    | none => s.stop .timeHorizon
    | some v => s.access { s.loadReq fm w d (Off.imm a 0) with held := some v }
def execLdNb (fm : AForm) (w : Width) (rel : Bool) (d : Dst) (a t : Src) (s : State) : Host.Outcome State Fault Refusal :=
  issue (.ldNb fm w rel d a t) (planLdNb fm w rel d a t) s

/-- ST.va, STS.va and STC.va (R125 to R128): a store held until its visible-at time. -/
def planStVa (fm : AForm) (w : Width) (rel : Bool) (x : Nat) (a t : Src) : Plan := fun s =>
  match s.holdTime rel t with
  | none => s.stop .timeHorizon
  | some v => s.access { s.storeReq fm w (s.regData x w) (Off.imm a 0) with held := some v }
def execStVa (fm : AForm) (w : Width) (rel : Bool) (x : Nat) (a t : Src) (s : State) : Host.Outcome State Fault Refusal :=
  issue (.stVa fm w rel x a t) (planStVa fm w rel x a t) s

/-- LD.acq, LDS.acq and LDC.acq (R129): later accesses wait for it. -/
def planLdAcq (fm : AForm) (w : Width) (sc : Scope) (d : Dst) (a : Src) : Plan := fun s =>
  s.accessTo d { s.loadReq fm w d (Off.imm a 0) with acq := some sc }
def execLdAcq (fm : AForm) (w : Width) (sc : Scope) (d : Dst) (a : Src) (s : State) : Host.Outcome State Fault Refusal :=
  issue (.ldAcq fm w sc d a) (planLdAcq fm w sc d a) s

/-- ST.rel, STS.rel and STC.rel (R129): it waits for earlier accesses. -/
def planStRel (fm : AForm) (w : Width) (sc : Scope) (a x : Src) : Plan := fun s =>
  s.access { s.storeReq fm w (s.srcData a x w) (Off.imm a 0) with rel := some sc }
def execStRel (fm : AForm) (w : Width) (sc : Scope) (a x : Src) (s : State) : Host.Outcome State Fault Refusal :=
  issue (.stRel fm w sc a x) (planStRel fm w sc a x) s

/-- SPTEST (R130): the window of each lane's address. -/
def planSptest (d : Dst) (a : Src) : Plan := fun s =>
  s.putVec d (s.pairShape a) (Lanes.ofFn fun i => BitVec.ofNat 32 (s.windowCode (s.rdPair a i)))
def execSptest (d : Dst) (a : Src) (s : State) : Host.Outcome State Fault Refusal :=
  issue (.sptest d a) (planSptest d a) s

/-- SPCAST (R131): the address in another form. -/
def planSpcast (fr : CastFrom) (tgt : CastTo) (d : Dst) (a : Src) : Plan := fun s =>
  let sh := if fr = .gen then s.pairShape a else shape1 (s.rd a)
  let val := fun i => castTo tgt (s.logicalCore s.cur.group) (s.castFrom fr a i)
  let lo := Lanes.ofFn fun i => (val i).setWidth 32
  if tgt.generic then
    .ok fun t => (t.writeVec d sh lo).writeDst (d.plus 1) sh (Lanes.ofFn fun i => (val i >>> 32).setWidth 32)
  else s.putVec d sh lo
def execSpcast (fr : CastFrom) (tgt : CastTo) (d : Dst) (a : Src) (s : State) : Host.Outcome State Fault Refusal :=
  issue (.spcast fr tgt d a) (planSpcast fr tgt d a) s

/-- PFET (R132): a lane whose access would stop does nothing. -/
def planPfet (a : Src) (off : Int) : Plan := fun s =>
  let g := s.cur.group
  let priv := s.priv
  let use := s.choice
  let rs := (lanesOf s.mask).map fun i => (i, s.prefetchLane g i (s.addrOf .gen (Off.imm a off) 4 i) priv use)
  match checkedPa rs with
  | some pa => .ok fun t => t.machineCheck (t.ctxOf g) pa
  | none => .ok fun t => rs.foldl (fun t r => t.prefetch g r.2 priv use) t.chosen
def execPfet (a : Src) (off : Int) (s : State) : Host.Outcome State Fault Refusal :=
  issue (.pfet a off) (planPfet a off) s

/-- ATOM (R133, R134): a read-modify-write through a generic address. -/
def planAtom (op : AOp) (d : Dst) (a b : Src) (c : CSrc) : Plan := atomPlan .gen op d a b c
def execAtom (op : AOp) (d : Dst) (a b : Src) (c : CSrc) (s : State) : Host.Outcome State Fault Refusal :=
  issue (.atom op d a b c) (planAtom op d a b c) s

/-- ATOMS (R133, R134): a read-modify-write through the local form. -/
def planAtoms (op : AOp) (d : Dst) (a b : Src) (c : CSrc) : Plan := atomPlan .loc op d a b c
def execAtoms (op : AOp) (d : Dst) (a b : Src) (c : CSrc) (s : State) : Host.Outcome State Fault Refusal :=
  issue (.atoms op d a b c) (planAtoms op d a b c) s

/-- ASUM (R117, R135): adds the rounded addends into their cells. -/
def planAsum (a x : Src) (anchor : Int) : Plan := fun s =>
  let y := s.rd2 a x
  let n := fun i => anchored anchor (y.vals.get i)
  let nan := (lanesOf s.mask).any fun i => (n i).2.1
  let sat := (lanesOf s.mask).any fun i => (n i).2.2
  match s.access { s.storeReq .gen .w128 (fun i => (n i).1) (Off.imm a 0) with kind := .asum, family := false } with
  | .error e => .error e
  | .ok f => .ok fun t =>
    ((f t).orFlags (if nan then flNV else 0)).modG fun g =>
      { g with gstat := if sat then g.gstat ||| 4 else g.gstat }
def execAsum (a x : Src) (anchor : Int) (s : State) : Host.Outcome State Fault Refusal :=
  issue (.asum a x anchor) (planAsum a x anchor) s

/-- FENCE (R136, R280, R293): an event in the group's order, against which the accesses around it are performed. A full
one and a release wait until the writes before them are at every replica. -/
def planFence (k : FenceK) (sc : Scope) : Plan := fun s =>
  if decide (k = .acq) || s.propagated s.cur.group then
    let f := fun (t : State) => t.addFence k sc
    .ok f
  else .error .stall
def execFence (k : FenceK) (sc : Scope) (s : State) : Host.Outcome State Fault Refusal :=
  issue (.fence k sc) (planFence k sc) s

/-- RMAP (R137): maps a run of lines to a global range. -/
def planRmap (d : Nat) (a b : Src) (c : CSrc) : Plan := fun s =>
  let o := (s.rd a).u.toNat
  let n := (s.rd2 a b).u.toNat
  let gl := pair64 (s.rdc c).u (s.rdv (c.n + 1)).u
  match s.mapCause o n gl with
  | some q => s.uniStop q.1 q.2
  | none => .ok fun t => t.mapRegion d o n gl.toNat
def execRmap (d : Nat) (a b : Src) (c : CSrc) (s : State) : Host.Outcome State Fault Refusal :=
  issue (.rmap d a b c) (planRmap d a b c) s

/-- RFLUSH (R138): writes the DIRTY lines back; a write-back that faults is logged against it. -/
def planRflush (n : Src) : Plan := fun s =>
  if s.sp.wait = some .aborted then .ok id
  else
    match s.sp.wait with
    | some (.record e ops) =>
      if s.g.log.any fun x => x.1 == e then .error (.wait (.record e ops)) else s.flush (s.rd n).u
    | _ => s.flush (s.rd n).u
def execRflush (n : Src) (s : State) : Host.Outcome State Fault Refusal :=
  issue (.rflush n) (planRflush n) s

/-- RDROP (R114, R138): frees the entry and discards its lines. -/
def planRdrop (n : Src) : Plan := fun s =>
  let e := (s.rd n).u.toNat
  .ok fun t => t.dropRegion (teamOf t.cur.group) e
def execRdrop (n : Src) (s : State) : Host.Outcome State Fault Refusal :=
  issue (.rdrop n) (planRdrop n) s

/-- TNOW (R348). -/
def planTnow (d : Nat) : Plan := fun s =>
  let x := s.gtime s.cur.group
  .ok fun t => t.writePair d x
def execTnow (d : Nat) (s : State) : Host.Outcome State Fault Refusal :=
  issue (.tnow d) (planTnow d) s

/-- TWAIT (R349): waits until the die's time reaches the target that it keeps. -/
def planTwait (rel : Bool) (a : Src) : Plan := fun s =>
  let now := s.gtime s.cur.group
  let target := match s.sp.wait with
    | some (.twait x) => x
    | _ => s.timeOperand rel a
  if target ≤ now then .ok id else .error (.wait (.twait target))
def execTwait (rel : Bool) (a : Src) (s : State) : Host.Outcome State Fault Refusal :=
  issue (.twait rel a) (planTwait rel a) s

end Sys2Proof.Machine
end

