-- ==== Sys2Proof/Machine/Control.lean ====
section
/-! DEFINITION. Control flow (R302 to R306, R313 to R320), traps, breakpoints and their return (R404, R405),
HALT (R406). -/

namespace Sys2Proof.Machine

open Sys2Proof

/-- A branch target: a slot index plus an offset, modulo 2^64 (R48, R313). -/
def target (s : Nat) (off : Int) : Nat := ((s + off) % 2 ^ 64).toNat

/-- The first slot after the issue unit. -/
def State.after (s : State) : Nat := s.cur.slot + s.cur.len

/-- The executing split at another slot: it leaves its pass (R40, R432). -/
def State.goto (s : State) (pc : Nat) : State :=
  s.modSp fun x => { x with pc := pc, entered := none, charged := false }

/-- The lanes for which a branch condition is nonzero (R313): a k source is tested bit by bit, and $lane, which has no one
value, as each lane's own index (DEDUCED, log entry 140). -/
def State.condLanes (s : State) (a : Src) : Word :=
  let x := s.rd a
  maskOf fun i => s.active i &&
    match a.spec with
    | .k _ => x.u.getLsbD i
    | _ => decide (x.vals.get i ≠ 0)

/-- The join point of BNZ and BZ (R302). -/
def Split.joinOr (x : Split) (j : Nat) : Nat := x.join.getD j

/-- The bundle that the executing split has entered, where a slot lies in it (R68). -/
def State.enteredAt (s : State) (f : Nat) : Option Entered :=
  if f / 3 = s.cur.slot / 3 then s.sp.entered else none

/-- A conditional branch's plan (R302, R303, R308): STACK_OVF before any change. -/
def divergePlan (taken : State → Word) (t f : State → Nat) (j : State → Nat) (bix : Bool) : Plan := fun s =>
  let mt := taken s
  let mn := s.mask &&& ~~~mt
  let tgt := t s
  let ft := f s
  let jn := j s
  if mt ≠ 0 ∧ mn ≠ 0 ∧ tgt ≠ ft ∧ 78 ≤ s.g.stack.length then s.stop .stackOvf
  else
    let en := s.enteredAt ft
    .ok fun u => u.modG fun g => (g.diverge u.sp mt mn tgt ft (u.sp.joinOr jn) bix en).getD g

/-- BNZ and BZ. -/
def branchPlan (nonzero : Bool) (a : Src) (off : Int) : Plan :=
  divergePlan (fun s => if nonzero then s.condLanes a else s.mask &&& ~~~s.condLanes a)
    (fun s => target s.cur.slot off) State.after (fun s => max (target s.cur.slot off) s.after) false

/-- BIX's target for a lane (R315). -/
def State.bixTarget (s : State) (a : Src) (i : Nat) : Nat := target s.cur.slot ((s.rd a).vals.get i).toInt

/-! ### Exit (R318, R148) -/

/-- The failed copy that is reported first (R148): the lowest batch, then the earliest issued. -/
def firstFail : List CopyFail → Option CopyFail
  | [] => none
  | c :: r =>
    match firstFail r with
    | none => some c
    | some d =>
      if if c.batch = d.batch then c.order ≤ d.order else (d.batch - c.batch).toNat < 2 ^ 31 then some c else some d

/-- The report of a failed copy (R148, R379). -/
def State.copyReport (s : State) (c : CopyFail) : Report :=
  { s.unit c.cause (c.batch.toNat % 2 ^ 18) with src := 1, addr := c.addr }

/-- Reports a failed copy once and takes it off the list. -/
def State.reportFail (s : State) (c : CopyFail) (slot len : Nat) : State :=
  let r := s.copyReport c
  let s := s.modG fun g => { g with copyFails := g.copyFails.filter fun d => d.order != c.order }
  { s with cur := { s.cur with slot := slot, len := len } }.raise r

/-- A wait that reports failed copies first. -/
def failFirst (fs : List CopyFail) (k : Except Stop (State → State)) :
    Except Stop (State → State) :=
  match firstFail fs with
  | none => k
  | some c => .error (.act fun t => t.reportFail c t.cur.slot t.cur.len)

/-- Whether a group has nothing left that EXIT waits for (R318). -/
def Group.exitReady (g : Group) : Bool :=
  decide (g.log = []) && g.copies.isEmpty && g.slow.isEmpty && !g.inflight.any fun a =>
    a.2.held.isSome && decide (a.2.kind = .load)

/-- The end of a group whose last lane has left: its pins are released, its resources freed (R318, R363). -/
def State.endIfDone (s : State) (g : Nat) : State :=
  let gr := s.group g
  if gr.splits.isEmpty then
    match gr.pinPas.find? fun pa => s.failed (pa / 128) with
    | some pa => s.machineCheck (s.ctxOf g) pa
    | none => { s.sweep gr.pinPas with mem := s.releasePins s.mem gr }.setGroup g gr.discard
  else s

/-- The lanes of the executing split leave. -/
def State.leaveLanesOut (s : State) : State :=
  (s.modG fun g => g.exitSplit s.sp).endIfDone s.cur.group

/-! ### TSYNC (R320) -/

/-- Whether the groups of a team have all come to a count of TSYNCs, or ended. -/
def State.teamAt_ (s : State) (g : Nat) (n : Word) : Bool :=
  (List.range (s.descOf g).gpt).all fun i =>
    let x := s.group (teamOf g * 16 + i)
    !x.live || decide ((x.tsync - n).toNat < 2 ^ 31)

/-! ### Meanings -/

/-- NOP (R319). -/
def planNop : Plan := fun _ => .ok id
def execNop (s : State) : Host.Outcome State Fault Refusal := issue .nop planNop s

/-- BRA (R313). -/
def planBra (off : Int) : Plan := fun s =>
  let t := target s.cur.slot off
  .ok fun u => u.goto t
def execBra (off : Int) (s : State) : Host.Outcome State Fault Refusal := issue (.bra off) (planBra off) s

/-- BNZ (R313). -/
def planBnz (a : Src) (off : Int) : Plan := branchPlan true a off
def execBnz (a : Src) (off : Int) (s : State) : Host.Outcome State Fault Refusal :=
  issue (.bnz a off) (planBnz a off) s

/-- BZ (R313). -/
def planBz (a : Src) (off : Int) : Plan := branchPlan false a off
def execBz (a : Src) (off : Int) (s : State) : Host.Outcome State Fault Refusal :=
  issue (.bz a off) (planBz a off) s

/-- BDV (R313): the pending join point. -/
def planBdv (off : Int) : Plan := fun s =>
  let t := target s.cur.slot off
  .ok fun u => u.modSp fun x => { x with join := some t }
def execBdv (off : Int) (s : State) : Host.Outcome State Fault Refusal := issue (.bdv off) (planBdv off) s

/-- JPT (R314). -/
def planJpt (a : Src) (n : Nat) : Plan := fun s =>
  let t := s.cur.slot + 1 + min (s.rd a).u.toNat n
  .ok fun u => u.goto t
def execJpt (a : Src) (n : Nat) (s : State) : Host.Outcome State Fault Refusal :=
  issue (.jpt a n) (planJpt a n) s

/-- BIX (R315): the lanes whose target is the lowest lane's take it, the others execute BIX again. -/
def planBix (a : Src) : Plan :=
  divergePlan (fun s => maskOf fun i => s.active i && decide (s.bixTarget a i = s.bixTarget a (lowestLane s.mask)))
    (fun s => s.bixTarget a (lowestLane s.mask)) (fun s => s.cur.slot) (fun s => s.cur.slot + 1) true
def execBix (a : Src) (s : State) : Host.Outcome State Fault Refusal := issue (.bix a) (planBix a) s

/-- CALL (R316). -/
def planCall (off : Int) : Plan := fun s =>
  let t := target s.cur.slot off
  let ret := s.after
  if 78 ≤ s.g.stack.length then s.stop .stackOvf
  else .ok fun u => u.modG fun g => (g.call u.sp ret t).getD g
def execCall (off : Int) (s : State) : Host.Outcome State Fault Refusal := issue (.call off) (planCall off) s

/-- RET (R306, R317). -/
def planRet : Plan := fun s =>
  if (s.g.ret s.sp).isNone then s.stop .illegalOperand
  else .ok fun u => u.modG fun g => (g.ret u.sp).getD g
def execRet (s : State) : Host.Outcome State Fault Refusal := issue .ret planRet s

/-- EXIT (R306, R318). -/
def planExit : Plan := fun s =>
  if !(s.g.exitReady && s.noJob s.cur.group) then .error (.wait .exit)
  else failFirst s.g.copyFails (.ok State.leaveLanesOut)
def execExit (s : State) : Host.Outcome State Fault Refusal := issue .exit planExit s

/-- YLD (R319). -/
def planYld : Plan := fun _ => .ok fun u => u.modG fun g => { g with yielded := true }
def execYld (s : State) : Host.Outcome State Fault Refusal := issue .yld planYld s

/-- TSYNC (R320): a full fence of the team, then the count, then the wait for the team's groups. -/
def planTsync : Plan := fun s =>
  match s.sp.wait with
  | some (.tsync n) => if s.teamAt_ s.cur.group n then .ok id else .error (.wait (.tsync n))
  | _ =>
    if 1 < s.g.splits.length then s.stop .illegalOperand
    else if !(s.settled s.cur.group && s.noStale s.cur.group) then .error .stall
    else
      let n := s.g.tsync + 1
      .error (.act fun t => (t.modG fun g => { g with tsync := n }).modSp fun x => { x with wait := some (.tsync n) })
def execTsync (s : State) : Host.Outcome State Fault Refusal := issue .tsync planTsync s

/-- TRAP (R404). -/
def planTrap (n : Nat) : Plan := fun s => .error (.raise (s.unit .trap n))
def execTrap (n : Nat) (s : State) : Host.Outcome State Fault Refusal := issue (.trap n) (planTrap n) s

/-- BKPT (R404). -/
def planBkpt (n : Nat) : Plan := fun s => .error (.raise (s.unit .bkpt n))
def execBkpt (n : Nat) (s : State) : Host.Outcome State Fault Refusal := issue (.bkpt n) (planBkpt n) s

/-- TRET (R306, R405). -/
def planTret (next : Bool) : Plan := fun s =>
  if (s.g.tret s.sp next).isNone then s.stop .illegalOperand
  else .ok fun u => u.modG fun g => (g.tret u.sp next).getD g
def execTret (next : Bool) (s : State) : Host.Outcome State Fault Refusal := issue (.tret next) (planTret next) s

/-- HALT (R406): the group stops at the end of a matrix instruction that it has at work. -/
def planHalt : Plan := fun s =>
  if !s.priv then s.uniStop .permission 0
  else if !s.noJob s.cur.group then .error .stall
  else .ok fun u =>
    let c := u.ctxOf u.cur.group
    (u.modG fun g => { g with halted := true }).post (u.fnOfCtx c) evHalted (u.coreOf u.cur.group) c none
def execHalt (s : State) : Host.Outcome State Fault Refusal := issue .halt planHalt s

end Sys2Proof.Machine
end

