-- ==== Sys2Proof/Machine/Registers.lean ====
section
/-! DEFINITION. Registers as such (R184 to R188) and the format and mode registers (R207, R243, R244). -/

namespace Sys2Proof.Machine

open Sys2Proof

/-- A result of a CT, AX or LS instruction that is one word (R175, R403). -/
def State.putUni (d : Dst) (x : Word) : Except Stop (State → State) := .ok fun t => t.writeUni d x

/-- REGQ's word for a register (R188). -/
def regWord (r : VReg) : Word :=
  let spilled := match r with
    | .general _ true => 1
    | _ => 0
  BitVec.ofNat 32 (spilled * 128 + r.code * 16 + r.slots)

/-- REGQ's word for the group (R188). -/
def State.bankWord (s : State) : Word :=
  BitVec.ofNat 32 (s.g.slots * 2 ^ 23 + s.reservation s.cur.group * 2 ^ 14 +
    (bankSlots - s.slotsUsed (s.coreOf s.cur.group)))

/-- RMODE from a word (R243): SEED, zeros, MODE. -/
def rmodeOf (a : Word) : Word := BitVec.ofNat 32 (a.toNat / 65536 * 65536 + a.toNat % 8)

/-! ### Meanings -/

/-- SHAPE (R184). -/
def planShape (d : Dst) (a : Nat) : Plan := fun s => s.putVec d .uniform (Lanes.splat (BitVec.ofNat 32 (s.g.v a).code))
def execShape (d : Dst) (a : Nat) (s : State) : Host.Outcome State Fault Refusal :=
  issue (.shape d a) (planShape d a) s

/-- MKAFF (R185): a k destination raises ILLEGAL_OPERAND. -/
def planMkaff (d : Dst) (a b : Src) : Plan := fun s =>
  let x := (s.rd a).u
  let y := (s.rd2 a b).u
  if d.isK then s.stop .illegalOperand else s.putVec d (.affine x y) (VReg.affine x y).lanes
def execMkaff (d : Dst) (a b : Src) (s : State) : Host.Outcome State Fault Refusal :=
  issue (.mkaff d a b) (planMkaff d a b) s

/-- MKUNI (R186). -/
def planMkuni (chk : Bool) (d : Dst) (a : Src) : Plan := fun s =>
  let x := s.rd a
  let v := x.vals.get (lowestLane s.mask)
  if chk && (lanesOf s.mask).any (fun i => x.vals.get i != v) then s.stop .shapeMismatch
  else s.putVec d .uniform (Lanes.splat v)
def execMkuni (chk : Bool) (d : Dst) (a : Src) (s : State) : Host.Outcome State Fault Refusal :=
  issue (.mkuni chk d a) (planMkuni chk d a) s

/-- FREE (R187): nothing in a diverged state. -/
def planFree (a n : Nat) : Plan := fun s =>
  if s.g.splits.length ≠ 1 then .ok fun t => t
  else
    let rs := (List.range n).map (a + ·)
    let pend := s.pending s.cur.group
    if rs.any fun r => pend.contains (.v r) then .error .stall
    else .ok fun t => rs.foldl (fun t r => t.modG fun g => g.release r) t
def execFree (a n : Nat) (s : State) : Host.Outcome State Fault Refusal :=
  issue (.free a n) (planFree a n) s

/-- REGQ (R188). -/
def planRegq (grp : Bool) (d : Dst) (a : Nat) : Plan := fun s => s.putVec d .uniform (Lanes.splat (if grp then s.bankWord else regWord (s.g.v a)))
def execRegq (grp : Bool) (d : Dst) (a : Nat) (s : State) : Host.Outcome State Fault Refusal :=
  issue (.regq grp d a) (planRegq grp d a) s

/-- SFMT (R243). -/
def planSfmt (imm : Option Nat) (a : Src) : Plan := fun s =>
  let x := match imm with
    | some n => n
    | none => (s.rd a).u.toNat
  .ok fun t => t.modSp fun p => { p with fmt := BitVec.ofNat 32 (x % 4) }
def execSfmt (imm : Option Nat) (a : Src) (s : State) : Host.Outcome State Fault Refusal :=
  issue (.sfmt imm a) (planSfmt imm a) s

/-- GFMT (R243). -/
def planGfmt (d : Dst) : Plan := fun s => State.putUni d s.sp.fmt
def execGfmt (d : Dst) (s : State) : Host.Outcome State Fault Refusal :=
  issue (.gfmt d) (planGfmt d) s

/-- SRND (R243): a mode of 110 or 111 raises ILLEGAL_OPERAND. -/
def planSrnd (imm : Option Nat) (a : Src) : Plan := fun s =>
  match imm with
  | some m => .ok fun t => t.modSp fun p =>
      { p with rmode := BitVec.ofNat 32 (p.rmode.toNat / 65536 * 65536 + m % 8) }
  | none =>
    let x := (s.rd a).u
    if s.isUniform a.spec && decide (6 ≤ x.toNat % 8) then s.stop .illegalOperand
    else .ok fun t => t.modSp fun p => { p with rmode := rmodeOf x }
def execSrnd (imm : Option Nat) (a : Src) (s : State) : Host.Outcome State Fault Refusal :=
  issue (.srnd imm a) (planSrnd imm a) s

/-- GRND (R243). -/
def planGrnd (d : Dst) : Plan := fun s => State.putUni d s.sp.rmode
def execGrnd (d : Dst) (s : State) : Host.Outcome State Fault Refusal :=
  issue (.grnd d) (planGrnd d) s

/-- FLAGS (R243, R244): it waits for the slow path's work. -/
def planFlags (d : Dst) : Plan := fun s => if s.g.slow ≠ [] then .error .stall else State.putUni d s.g.flags
def execFlags (d : Dst) (s : State) : Host.Outcome State Fault Refusal :=
  issue (.flags d) (planFlags d) s

/-- FLAGS.clr (R243, R244). -/
def planFlagsClr (d : Dst) (a : Src) : Plan := fun s =>
  if s.g.slow ≠ [] then .error .stall
  else
    let x := (s.rd a).u &&& 31
    let v := s.g.flags
    .ok fun t => (t.writeUni d v).modG fun g => { g with flags := g.flags &&& ~~~x }
def execFlagsClr (d : Dst) (a : Src) (s : State) : Host.Outcome State Fault Refusal :=
  issue (.flagsClr d a) (planFlagsClr d a) s

end Sys2Proof.Machine
end

