-- ==== Sys2Proof/Machine/System.lean ====
section
/-! DEFINITION. System registers (R65 to R68, R85, R98, R327, R328, R381, R388, R402, R403), per-lane trap
records (R407), and the completion of faults (R98, R100). -/

namespace Sys2Proof.Machine

open Sys2Proof

/-! ### The decode table (R65 to R67) -/

/-- The standard map's entry of an opcode (R55 to R62, R67). -/
def stdEntry (op : Nat) : Word :=
  if opAssigned op then
    BitVec.ofNat 32 (2 ^ 31 + (stdPipe op).code * 2 ^ 28 + stdFormat op * 2 ^ 24 + (Config.mapOper 0 op).toNat)
  else 0

/-- The entries of a map that the image carries. -/
def State.imageMap (s : State) (n : Nat) : Option (List Word) :=
  match s.img with
  | some i => (i.maps.find? fun m => m.1 == n).map (·.2)
  | none => none

/-- Whether a map number names a map. -/
def State.hasMap (s : State) (n : Nat) : Bool := decide (n = 0) || (s.imageMap n).isSome

/-- The entry of an opcode in a context's table. -/
def State.tableEntry (s : State) (c : Context) (op : Nat) : Word :=
  match c.edits.find? fun e => e.1 == op with
  | some e => e.2
  | none =>
    if c.mapid = 0 then stdEntry op
    else
      match s.imageMap c.mapid with
      | some m => m.getD op 0
      | none => 0

/-- The operation that an operation number of a map performs (R67): for the standard map, the opcode that
carries the number there. -/
def operOf (map : Nat) (oper : BitVec 16) : Nat :=
  match (if map = 0 then (List.range 1024).find? fun op => opAssigned op && Config.mapOper 0 op == oper else none) with
  | some op => op
  | none => Config.operation map oper

/-- How a context reads an opcode (R65, R67): an unedited entry of the standard map directly. -/
def State.view (s : State) (c : Context) : OpView := fun op =>
  if c.mapid = 0 ∧ (c.edits.any fun e => e.1 == op) = false then stdView op
  else
    let e := (s.tableEntry c op).toNat
    match Pipe.ofCode (e / 2 ^ 28 % 8) with
    | none => none
    | some p =>
      if bitOf e 31 ∧ e / 2 ^ 24 % 16 < 8 then some (operOf c.mapid (BitVec.ofNat 16 e), p, e / 2 ^ 24 % 16) else none

/-- The executing group's context. -/
def State.cx (s : State) : Context := s.ctx (s.ctxOf s.cur.group)

/-- The state with the executing group's context changed. -/
def State.modCx (s : State) (f : Context → Context) : State := s.setCtx (s.ctxOf s.cur.group) (f s.cx)

/-- Whether a write of DTABLE is a MAPID write (R65). -/
def mapidWrites (c : Context) (w : Word) : Bool := w.getLsbD 25 || decide (w.toNat / 65536 % 256 ≠ c.mapid)

/-- A permitted write of DTABLE (R65, R66). -/
def State.writeTable (s : State) (w : Word) : State :=
  let n := w.toNat
  let c := s.cx
  let c1 := { c with index := n % 1024, lock := c.lock || w.getLsbD 31, err := c.err && !w.getLsbD 24 }
  let c2 :=
    if mapidWrites c w then
      if s.hasMap (n / 65536 % 256) then { c1 with mapid := n / 65536 % 256, edits := [] } else { c1 with err := true }
    else c1
  s.modCx fun _ => c2

/-- A permitted write of DTDATA (R67): reserved bits stay zero (R2). -/
def State.writeEntry (s : State) (w : Word) : State :=
  s.modCx fun c => { c with edits := c.edits.set c.index (w &&& 0xFF00FFFF) }

/-! ### Completing faults (R98, R100) -/

/-- The fault that a handler lane was started with. -/
def Group.faultOfLane (g : Group) (lane : Nat) : Option Nat := g.handler.getD lane none

/-- A handler lane completes its fault. -/
def State.laneDone (s : State) (g lane : Nat) (abort : Bool) : State :=
  match (s.group g).faultOfLane lane with
  | none => s
  | some n => s.completeFault n abort

/-! ### Views of the innermost trap entry (R388) -/

/-- The index of the innermost trap entry that contains a split. -/
def Group.trapIndex (g : Group) (x : Split) : Option Nat :=
  g.stack.findIdx? fun e => e.holds x.mask && decide (e.kind = .trap)

/-- That entry. -/
def Group.trapEntry (g : Group) (x : Split) : Option Entry := (g.trapIndex x).bind fun i => g.stack[i]?

/-- A word of the entry for a privileged split; zero without one. -/
def State.trapWord (s : State) (f : Entry → Word) : Word :=
  match s.priv, s.g.trapEntry s.sp with
  | true, some e => f e
  | _, _ => 0

/-- Changes the entry, where there is one. -/
def State.modTrap (s : State) (f : Entry → Entry) : State :=
  match s.g.trapIndex s.sp with
  | some i => s.modG fun g => { g with stack := g.stack.modify i f }
  | none => s

/-! ### Reading and writing (R4, R402, R403) -/

/-- The low and high words of a 64-bit register. -/
def loWord (x : DWord) : Word := x.setWidth 32
def hiWord (x : DWord) : Word := (x >>> 32).setWidth 32
/-- A 64-bit register with one word written. -/
def withLo (x : DWord) (w : Word) : DWord := hiWord x ++ w
def withHi (x : DWord) (w : Word) : DWord := w ++ loWord x

/-- TSTAT (R327). -/
def Die.tstat (d : Die) : Word :=
  BitVec.ofNat 32 (d.thr.toNat * 128 + d.src.toNat * 4 + d.locked.toNat * 2 + d.epoch.toNat)

/-- DSKEW (R328). -/
def Die.dskew (d : Die) : Word :=
  let meas := if d.offsets = [] then 0xFFFF else min 0xFFFF (d.offsets.foldl max 0)
  BitVec.ofNat 32 (meas * 65536 + domainBound)

/-- TRANSIT (R328). -/
def transit : Word := 47 * 2 ^ 14 + 10 * 2 ^ 7 + 5

/-- DTABLE as a split reads it (R66, R4). -/
def Context.dtable (c : Context) (priv : Bool) : Word :=
  BitVec.ofNat 32 (c.mode.code * 2 ^ 29 + c.err.toNat * 2 ^ 24 +
    if priv then c.lock.toNat * 2 ^ 31 + c.mapid % 256 * 65536 + c.index % 1024 else 0)

/-- The value that SRD reads. -/
def State.readSys (s : State) (reg : Nat) : Word :=
  let c := s.cx
  let d := s.die (s.dieOf s.cur.group)
  let own := fun (w : Word) => if s.priv then w else 0
  match reg with
  | 0x000 => (s.g.gstat &&& ~~~32) ||| (if s.priv then 32 else 0)
  | 0x001 => s.trapWord (·.fltcause)
  | 0x002 => s.trapWord (·.fltlane)
  | 0x003 => s.trapWord (·.fltmask)
  | 0x004 => s.trapWord fun e => loWord e.fltaddr
  | 0x005 => s.trapWord fun e => hiWord e.fltaddr
  | 0x006 => own (loWord c.hvec)
  | 0x007 => own (hiWord c.hvec)
  | 0x009 => if c.preq then 1 else 0
  | 0x010 => d.tstat
  | 0x011 => d.dskew
  | 0x012 => transit
  | 0x018 => c.dtable s.priv
  | 0x019 => own (s.tableEntry c c.index &&& 0xFF00FFFF)
  | 0x020 => BitVec.ofNat 32 (c.vdid % 128 * 65536 + c.s2en.toNat)
  | 0x021 => own (loWord c.xlroot1)
  | 0x022 => own (hiWord c.xlroot1)
  | 0x023 => loWord c.xlroot2
  | 0x024 => hiWord c.xlroot2
  | _ => 0

/-- GSTAT after a write (R381): LVCNT and RRTE are written, ASAT and RELEASED_READ cleared by ones. -/
def gstatWrite (old w : Word) : Word := (w &&& 0xFFFF0010) ||| (old &&& 5 &&& ~~~w)

/-- Registers with privileged fields: other writers raise PERMISSION (R4). -/
def privilegedReg (reg : Nat) : Bool :=
  [0x001, 0x002, 0x003, 0x004, 0x005, 0x006, 0x007, 0x008, 0x018, 0x019, 0x021, 0x022].contains reg

/-- The effect of SWR on a register but PFDONE. -/
def State.writeSys (s : State) (reg : Nat) (w : Word) : State :=
  match reg with
  | 0x000 => s.modG fun g => { g with gstat := gstatWrite g.gstat w }
  | 0x001 => s.modTrap fun e => { e with fltcause := w &&& 0xFFFFF1FF }
  | 0x002 => s.modTrap fun e => { e with fltlane := w }
  | 0x003 => s.modTrap fun e => { e with fltmask := w }
  | 0x004 => s.modTrap fun e => { e with fltaddr := withLo e.fltaddr w }
  | 0x005 => s.modTrap fun e => { e with fltaddr := withHi e.fltaddr w }
  | 0x006 => s.modCx fun c => { c with hvec := withLo c.hvec w }
  | 0x007 => s.modCx fun c => { c with hvec := withHi c.hvec w }
  | 0x018 => s.writeTable w
  | 0x019 => s.writeEntry w
  | 0x021 => s.modCx fun c => { c with xlroot1 := withLo c.xlroot1 (w &&& 0xFFFFF000) }
  | 0x022 => s.modCx fun c => { c with xlroot1 := withHi c.xlroot1 (w &&& 0x00FFFFFF) }
  | _ => s

/-- Whether a write of the decode table's registers is refused (R65, R66). -/
def State.locked (s : State) (reg : Nat) (w : Word) : Bool :=
  s.cx.lock && (decide (reg = 0x019) || (decide (reg = 0x018) && mapidWrites s.cx w))

/-- A write of one word to a system register, with the causes of R4 and R65. -/
def State.sysWrite (s : State) (reg : Nat) (w : Word) : Except Stop (State → State) :=
  if (privilegedReg reg && !s.priv) || s.locked reg w then s.uniStop .permission 0
  else .ok fun t => t.writeSys reg w

/-- The lanes' words written to PFDONE (R98, R403). A word whose bits [31:2] are not zero is treated as the outcomes 10
and 11 are (DESIGN CHOICE, log entry 134). -/
def State.pfdone (s : State) (x : Nat → Word) : Except Stop (State → State) :=
  if (lanesOf s.mask).any fun i => decide (1 < (x i).toNat) then s.stop .illegalOperand
  else if !s.priv then s.uniStop .permission 0
  else .ok fun t => (lanesOf s.mask).foldl (fun t i => t.laneDone t.cur.group i (decide (x i = 1))) t

/-! ### Meanings -/

/-- SRD (R403). -/
def planSrd (d : Dst) (reg : Nat) : Plan := fun s => State.putUni d (s.readSys reg)
def execSrd (d : Dst) (reg : Nat) (s : State) : Host.Outcome State Fault Refusal :=
  issue (.srd d reg) (planSrd d reg) s

/-- SWR (R403). -/
def planSwr (reg : Nat) (a : Src) : Plan := fun s =>
  let x := s.rd a
  if reg = 0x008 then s.pfdone x.vals.get else s.sysWrite reg x.u
def execSwr (reg : Nat) (a : Src) (s : State) : Host.Outcome State Fault Refusal :=
  issue (.swr reg a) (planSwr reg a) s

/-- PFDONE with "replay" for one lane (R98). -/
def planPfdoneReplay (lane : Nat) : Plan := fun s =>
  if !s.priv then s.uniStop .permission 0 else .ok fun t => t.laneDone t.cur.group lane false
def execPfdoneReplay (lane : Nat) (s : State) : Host.Outcome State Fault Refusal :=
  issue (.pfdoneReplay lane) (planPfdoneReplay lane) s

/-- PFDONE with "abort" for one lane (R98). -/
def planPfdoneAbort (lane : Nat) : Plan := fun s =>
  if !s.priv then s.uniStop .permission 0 else .ok fun t => t.laneDone t.cur.group lane true
def execPfdoneAbort (lane : Nat) (s : State) : Host.Outcome State Fault Refusal :=
  issue (.pfdoneAbort lane) (planPfdoneAbort lane) s

/-- A MAPID write (R65, R66). -/
def planMapidWrite (w : Word) : Plan := fun s => s.sysWrite 0x018 w
def execMapidWrite (w : Word) (s : State) : Host.Outcome State Fault Refusal :=
  issue (.mapidWrite w) (planMapidWrite w) s

/-- A DTDATA write (R65, R67). -/
def planDtdataWrite (w : Word) : Plan := fun s => s.sysWrite 0x019 w
def execDtdataWrite (w : Word) (s : State) : Host.Outcome State Fault Refusal :=
  issue (.dtdataWrite w) (planDtdataWrite w) s

/-- FLTRD (R387, R407). -/
def planFltrd (f : FltK) (d : Dst) : Plan := fun s =>
  let sv := match s.priv, s.g.trapEntry s.sp with
    | true, some e => some (s.g.saves.get ⟨Lanes.zero, Lanes.zero, [], []⟩ (tctlSave e.tctl))
    | _, _ => none
  let v := fun (sv : TrapSave) i =>
    match f with
    | .lo => loWord (sv.addrs.getD i 0)
    | .hi => hiWord (sv.addrs.getD i 0)
    | .cause => (sv.codes.getD i 0).setWidth 32
  let vals := match sv with
    | some sv => Lanes.ofFn (v sv)
    | none => Lanes.zero
  .ok fun t => t.writeDst d .general vals
def execFltrd (f : FltK) (d : Dst) (s : State) : Host.Outcome State Fault Refusal :=
  issue (.fltrd f d) (planFltrd f d) s

/-- STAGE2_RETRY (R100). -/
def execStage2Retry (tag : Word) (s : State) : Host.Outcome State Fault Refusal := .next (s.stage2Answer tag false)

/-- STAGE2_FATAL (R100). -/
def execStage2Fatal (tag : Word) (s : State) : Host.Outcome State Fault Refusal := .next (s.stage2Answer tag true)

end Sys2Proof.Machine
end

