-- ==== Sys2Proof/Machine/Engine.lean ====
section
/-! DEFINITION. What the engines share: element reads and writes (R145), tensor shape records (R139, R140,
R142), and the walk of their elements (R141). -/

namespace Sys2Proof.Machine

open Sys2Proof

/-! ### Element accesses (R145) -/

/-- Why an engine does not go on. -/
inductive EngStop where
  | cause (c : Cause) (info : Nat) (addr : DWord)
  | fault (f : FaultInfo)
  | check (pa : Nat)
  | wait
  deriving DecidableEq, Repr

/-- The checks of an engine's access through an address form. -/
def State.formCheck (s : State) (form : AForm) (g : Nat) (priv use : Bool) (addr : DWord) (size : Nat) (k : XKind) :
    Except EngStop Target :=
  match s.checkLane g ⟨0, addr, size, k, form, false, false, false⟩ priv use with
  | .bad c i => .error (.cause c i addr)
  | .fault f _ => .error (.fault f)
  | .check pa => .error (.check pa)
  | .away => .error .wait
  | .ok t => .ok t

/-- The checks of an engine's access through a generic address: it reaches no private memory (R145). -/
def State.engCheck (s : State) (g : Nat) (priv use : Bool) (addr : DWord) (size : Nat) (k : XKind) :
    Except EngStop Target :=
  match windowOf addr with
  | .priv => .error (.cause .spaceInvalid 0 addr)
  | _ => s.formCheck .gen g priv use addr size k

/-- Whether the homes of an access let the engine have it now. -/
def State.engMay (s : State) (g : Nat) (k : AccKind) (t : Target) : Bool :=
  t.pieces.all fun p => s.homeOpen g k false p.2.2 p.2.1

/-- The first physical place of a target that `p` selects. -/
def Target.pa? (t : Target) (p : Nat → Bool) : Option Nat :=
  t.pieces.findSome? fun x =>
    match x.2.2 with
    | .phys pa => if p pa then some pa else none
    | _ => none

/-- The failed line that an access meets (R102, R103): no element covers a line. -/
def State.engFailed (s : State) (t : Target) : Option Nat := t.pa? fun pa => s.failed (pa / 128)

/-- A place of a target that no link reaches (R419, R425). -/
def State.engLost (s : State) (g : Nat) (t : Target) : Option Nat := t.pa? fun pa => !s.linked g pa

/-- Fills and translations that an access leaves. -/
def State.leaveTarget (s : State) (t : Target) : State := t.fills.foldl State.fill (s.leave t.trail)

/-- Reads what an access whose checks have given `q` reaches. -/
def State.engGet (s : State) (g : Nat) (q : Except EngStop Target) : State × Except EngStop Nat :=
  match q with
  | .error e => (s, .error e)
  | .ok t =>
    match (s.engLost g t).or (s.engFailed t) with
    | some pa => (s, .error (.check pa))
    | none =>
      if !s.engMay g .load t then (s, .error .wait)
      else
        let s := (s.leaveTarget t).collect (t.pieces.map fun p => (p.2.2, p.2.1))
        (s, .ok ((t.pieces.map fun p => s.readLoc (s.dieOf g) p.2.2 p.2.1 * 2 ^ (8 * p.1)).sum))

/-- What an engine's access that is not made leaves: the leaves of table pages that it has walked through (R77). -/
def State.engWalked (s : State) (g : Nat) (priv use : Bool) (addr : DWord) (size : Nat) (k : XKind) : State :=
  s.mark ((s.laneWalked g ⟨0, addr, size, k, .gen, false, false, false⟩ priv use).map fun a => (a, 1))

/-- Reads an element. -/
def State.engRead (s : State) (g : Nat) (priv use : Bool) (addr : DWord) (size : Nat) : State × Except EngStop Nat :=
  match s.engCheck g priv use addr size .read with
  | .error e => (s.engWalked g priv use addr size .read, .error e)
  | q => s.engGet g q

/-- Writes an element: `f` gives its new value from the old one. One to a peer that no link reaches is dropped (R425). -/
def State.engWrite (s : State) (who : Behind) (priv use : Bool) (addr : DWord) (size : Nat) (f : Nat → Nat) :
    State × Except EngStop Unit :=
  let g := who.group
  match s.engCheck g priv use addr size .write with
  | .error e => (s.engWalked g priv use addr size .write, .error e)
  | .ok t =>
    match s.engLost g t, s.engFailed t with
    | some pa, _ => if paKind pa = 1 then (s, .error (.check pa)) else (s.lostStore g pa, .ok ())
    | none, some pa => (s, .error (.check pa))
    | none, none =>
      if !s.engMay g .store t then (s, .error .wait)
      else
        let s := s.leaveTarget t
        (t.pieces.foldl (fun s p =>
          let old := match p.2.2 with
            | .phys pa => Memory.read s.mem pa p.2.1
            | l => s.readLoc (s.dieOf g) l p.2.1
          s.writeLoc who p.2.2 p.2.1 (f old / 2 ^ (8 * p.1) % 2 ^ (8 * p.2.1)) t.prop01) s, .ok ())

/-! ### Element formats (R139) -/

/-- An element format. -/
inductive Elem where
  | int (f : IFmt)
  | flt (f : FFmt)
  | pair
  | rns
  deriving DecidableEq, Repr

/-- FORMAT codes. -/
def Elem.ofCode (n : Nat) : Option Elem :=
  [Elem.int .s4, .int .s8, .int .u8, .int .s16, .int .u16, .int .s32, .int .u32, .flt .e4m3, .flt .e5m2,
    .flt .fp16, .flt .bf16, .flt .fp32, .pair, .rns][n]?

/-- Bits of an element. -/
def Elem.bits : Elem → Nat
  | .int f => f.bits
  | .flt f => f.bits
  | .pair => 64
  | .rns => 32

/-- Bytes that an access to an element moves: one for a nibble. -/
def Elem.bytes (e : Elem) : Nat := max 1 (e.bits / 8)

/-- The exact value of an element (R144); none for pairs and residues, which do not convert. -/
def Elem.value (e : Elem) (p : Nat) : Option Val :=
  match e with
  | .int f => some (Val.ofInt (f.value (p % 2 ^ f.bits)))
  | .flt f => some (f.value (p % 2 ^ f.bits))
  | _ => none

/-- An element rounded to a target format, with its flags (R144). -/
def Elem.round (e : Elem) (c : Ctx) (v : Val) : Nat × Word :=
  match e with
  | .int f =>
    let r := roundInt f c v
    ((r.1 % 2 ^ f.bits).toNat, r.2)
  | .flt f => roundFlt f c v
  | _ => (0, 0)

/-- Whether a copy may turn one format into another (R144). -/
def convertible (a b : Elem) : Bool :=
  a == b || (match a, b with
    | .pair, _ => false
    | .rns, _ => false
    | _, .pair => false
    | _, .rns => false
    | _, _ => true)

/-- An element of format `a` as one of format `b`. -/
def convertElem (a b : Elem) (c : Ctx) (p : Nat) : Nat × Word :=
  if a = b then (p % 2 ^ a.bits, 0)
  else
    match a.value p with
    | some v => b.round c v
    | none => (0, 0)

/-! ### Shape records (R139, R140, R142) -/

/-- KIND of a dimension. -/
inductive DimKind where | affine | indexed | window
  deriving DecidableEq, Repr

/-- A dimension. -/
structure Dim where
  kind : DimKind
  extent : Nat
  stride : Int
  dil : Nat
  pad : Nat
  rowed : Bool
  slot : Nat
  deriving DecidableEq, Repr

/-- A shape record. -/
structure ShapeRec where
  elem : Elem
  count : Nat
  tables : List Nat
  dims : List Dim
  deriving DecidableEq, Repr

/-- A signed number of `n` bits. -/
def signedOf (n v : Nat) : Int := if v < 2 ^ (n - 1) then v else (v : Int) - 2 ^ n

/-- A dimension entry, where its fields are ones that R140 gives. -/
def dimOf (bs : List Byte) (o : Nat) : Option Dim :=
  let c := fieldAt bs (o + 4) 4
  let k := c % 4
  let dil := c / 65536
  let reserved := decide (c / 32 % 2048 ≠ 0) || (decide (k ≠ 2) && decide (dil ≠ 0)) ||
    (decide (k ≠ 1) && decide (c / 4 % 8 ≠ 0)) || decide (k = 3) || (decide (k = 2) && decide (dil = 0)) ||
    decide (fieldAt bs o 4 = 0)
  if reserved then none
  else some {
    kind := if k = 0 then .affine else if k = 1 then .indexed else .window
    extent := fieldAt bs o 4
    stride := if k = 2 then signedOf 32 (fieldAt bs (o + 8) 4) else signedOf 64 (fieldAt bs (o + 8) 8)
    dil := dil
    pad := if k = 2 then fieldAt bs (o + 12) 4 else 0
    rowed := bitOf c 4
    slot := c / 4 % 4 }

/-- Every dimension of a record, where each is well formed. -/
def dimsOf (bs : List Byte) (n : Nat) : Option (List Dim) :=
  let ds := (List.range n).map fun j => dimOf bs (0x40 + 16 * j)
  if ds.all Option.isSome then some (ds.filterMap id) else none

/-- The window conditions of R142: each window has an outer neighbour that is affine with stride 0. -/
def windowsOk : List Dim → Bool
  | [] => true
  | d :: r =>
    (match d.kind, r with
     | .window, e :: _ => decide (e.kind = .affine) && decide (e.stride = 0)
     | .window, [] => false
     | _, _ => true) && windowsOk r

/-- Whether an address lies in the own team region of a group on logical core `core`, whose region has `region` bytes. -/
def inOwnRegion (core region : Nat) (a : DWord) : Bool :=
  decide (windowOf a = .scratch) && decide (scratchTag a = core) && decide (windowOffset a < region)

/-- Whether a table's address is one that R142 allows. -/
def tableOk (core region a : Nat) : Bool :=
  decide (a % 4 = 0) &&
  (decide (windowOf (BitVec.ofNat 64 a) = .glob) || inOwnRegion core region (BitVec.ofNat 64 a))

/-- NDIM of a record's bytes. -/
def recDims (bs : List Byte) : Nat := fieldAt bs 1 1

/-- The product of a record's extents. -/
def recExtents (bs : List Byte) : Nat :=
  (List.range (recDims bs)).foldl (fun p j => p * fieldAt bs (0x40 + 16 * j) 4) 1

/-- COUNT times the element size, where a record's bytes give them (R154): FORMAT is not reserved, NDIM is in its range
and COUNT is the product of the extents, none of them 0, and at most 2^40 (DEDUCED, log entry 131). -/
def recBytes (bs : List Byte) : Option Nat :=
  let c := fieldAt bs 8 8
  if recDims bs = 0 ∨ 12 < recDims bs ∨ c ≠ recExtents bs ∨ c = 0 ∨ 2 ^ 40 < c then none
  else (Elem.ofCode (fieldAt bs 0 1)).map fun e => if e.bits = 4 then (c + 1) / 2 else c * e.bytes

/-- A record from its bytes; none for a malformed one (R142). -/
def shapeOfBytes (core region : Nat) (bs : List Byte) : Option ShapeRec :=
  let n := recDims bs
  if n = 0 ∨ 12 < n ∨ fieldAt bs 2 6 ≠ 0 ∨ fieldAt bs 0x30 16 ≠ 0 then none
  else
    match Elem.ofCode (fieldAt bs 0 1), dimsOf bs n with
    | some e, some ds =>
      let count := fieldAt bs 8 8
      let tables := (List.range 4).map fun j => fieldAt bs (0x10 + 8 * j) 8
      let good := decide (count = ds.foldl (fun a d => a * d.extent) 1) && decide (count ≤ 2 ^ 40) &&
        windowsOk ds && (ds.all fun d => decide (d.kind ≠ .indexed) || tableOk core region (tables.getD d.slot 0)) &&
        !(decide (e = .pair) && ds.any fun d => decide (d.kind = .window))
      if good then some ⟨e, count, tables, ds⟩ else none
    | _, _ => none

/-- An engine's read of a record's 64 bytes in eight words. -/
def State.engRead64 (s : State) (g : Nat) (priv use : Bool) (addr : DWord) : State × Except EngStop (List Byte) :=
  (List.range 8).foldl (fun q j =>
    match q.2 with
    | .error e => (q.1, .error e)
    | .ok bs =>
      let r := q.1.engRead g priv use (addr + BitVec.ofNat 64 (8 * j)) 8
      match r.2 with
      | .error (.fault f) => (r.1, .error (.fault { f with addr := addr, lg := 6 }))
      | .error e => (r.1, .error e)
      | .ok v => (r.1, .ok (bs ++ bytesOf 8 v))) (s, .ok [])

/-- Reads the pieces of a record from `addr` on. -/
def State.readPieces (s : State) (g : Nat) (priv use : Bool) (addr : DWord) : Nat → List Byte →
    State × Except EngStop (List Byte)
  | 0, bs => (s, .ok bs)
  | n + 1, bs =>
    let r := s.engRead64 g priv use (addr + BitVec.ofNat 64 bs.length)
    match r.2 with
    | .error e => (r.1, .error e)
    | .ok b => State.readPieces r.1 g priv use addr n (bs ++ b)

/-- Reads a record's bytes: its header and, where NDIM is in its range, its dimensions. -/
def State.readRec (s : State) (g : Nat) (priv use : Bool) (addr : DWord) : State × Except EngStop (List Byte) :=
  let h := s.engRead64 g priv use addr
  match h.2 with
  | .error e => (h.1, .error e)
  | .ok bs =>
    let n := recDims bs
    if n = 0 ∨ 12 < n then (h.1, .ok bs) else h.1.readPieces g priv use addr ((n + 3) / 4) bs

/-- Reads a record (R139): from GLOBAL memory or the own team region. A malformed one is ILLEGAL_OPERAND at
the record's address (R148). A record in another window is SPACE_INVALID, one in the CLUSTER window as well, whichever core
it names (DESIGN CHOICE, log entry 109: no rule names the cause). -/
def State.readShape (s : State) (g : Nat) (priv use : Bool) (addr : DWord) : State × Except EngStop ShapeRec :=
  if addr.toNat % 64 ≠ 0 then (s, .error (.cause .illegalOperand 0 addr))
  else if windowOf addr ≠ .glob ∧ windowOf addr ≠ .scratch then (s, .error (.cause .spaceInvalid 0 addr))
  else
    let q := s.readRec g priv use addr
    match q.2 with
    | .error e => (q.1, .error e)
    | .ok bs =>
      match shapeOfBytes (s.logicalCore g) (s.regionBytes (teamOf g)) bs with
      | some r => (q.1, .ok r)
      | none => (q.1, .error (.cause .illegalOperand 0 addr))

/-! ### WalkElement (R141) -/

/-- Where an element lies: an offset in bytes (nibbles for s4), or nowhere. -/
inductive Pos where
  | off (o : Int)
  | skip
  | pad (p : Nat)
  deriving DecidableEq, Repr

/-- The indices of element `i`, dimension 0 fastest. -/
def indicesOf : List Dim → Nat → List Nat
  | [], _ => []
  | d :: r, i => i % d.extent :: indicesOf r (i / d.extent)

/-- The walk over the dimensions from the innermost; `rd` reads a table word. -/
def State.walkDims (s : State) (rd : State → Nat → State × Except EngStop Nat) (tables : List Nat) :
    List Dim → List Nat → Int → State × Except EngStop Pos
  | [], _, off => (s, .ok (.off off))
  | d :: r, is, off =>
    let i := is.headD 0
    let outer := (is.drop 1).headD 0
    match d.kind with
    | .affine => State.walkDims s rd tables r (is.drop 1) (off + i * d.stride)
    | .indexed =>
      let row := if d.rowed && decide (r ≠ []) then outer else 0
      let q := rd s (tables.getD d.slot 0 + 4 * (row * d.extent + i))
      match q.2 with
      | .error e => (q.1, .error e)
      | .ok e =>
        if e = 0xFFFFFFFF then (q.1, .ok .skip)
        else State.walkDims q.1 rd tables r (is.drop 1) (off + e * d.stride)
    | .window =>
      let lo : Int := ((d.extent - 1) * d.dil / 2 : Nat)
      let pos : Int := outer + i * d.dil - lo
      let ext := match r with
        | e :: _ => e.extent
        | [] => 0
      if pos < 0 ∨ (ext : Int) ≤ pos then (s, .ok (.pad d.pad))
      else State.walkDims s rd tables r (is.drop 1) (off + pos * d.stride)

/-- WalkElement: the position of element `i` of a record, through the engine's reads. -/
def State.walkElement (s : State) (g : Nat) (priv use : Bool) (r : ShapeRec) (i : Nat) : State × Except EngStop Pos :=
  s.walkDims (fun s a => s.engRead g priv use (BitVec.ofNat 64 a) 4) r.tables r.dims (indicesOf r.dims i) 0

/-- The byte address of an element at an offset from a base, and for a nibble which half it is. -/
def elemAddr (e : Elem) (base : DWord) (off : Int) : DWord × Bool :=
  if e.bits = 4 then
    let n := (2 * (base.toNat : Int) + off) % 2 ^ 65
    (BitVec.ofInt 64 (n / 2), decide (n % 2 = 1))
  else (base + BitVec.ofInt 64 off, false)

/-- An element's pattern within the bytes that were read. -/
def pickElem (e : Elem) (high : Bool) (v : Nat) : Nat :=
  if e.bits = 4 then (if high then v / 16 % 16 else v % 16) else v

/-- The bytes with an element's pattern put in. -/
def placeElem (e : Elem) (high : Bool) (p old : Nat) : Nat :=
  if e.bits = 4 then (if high then old % 16 + 16 * (p % 16) else old / 16 * 16 + p % 16) else p

end Sys2Proof.Machine
end

