-- ==== Sys2Proof/Machine/Copies.lean ====
section
/-! DEFINITION. Copies and their batches (R143 to R151), barrier objects (R152 to R158), and the access
engine's instructions in the group (R160, R163 to R165). -/

namespace Sys2Proof.Machine

open Sys2Proof

/-! ### Causes with an address of their own -/

/-- The worst of the causes of an instruction that has one address for its lanes (R382): each with its INFO
and its address. -/
def worstAt (cs : List (Bool × Cause × Nat × DWord)) : Option (Cause × Nat × DWord) :=
  (cs.filter (·.1)).foldl (fun w c =>
    match w with
    | none => some c.2
    | some b => if c.2.1.rank < b.1.rank then some c.2 else some b) none

/-- Such a cause as a plan's answer. -/
def State.raiseAt {α : Type} (s : State) (c : Cause × Nat × DWord) : Except Stop α :=
  .error (.raise (s.uniReport c.1 c.2.2 c.2.1))

/-- An instruction's own access as it issues, for its place in program order: a read, or a read-modify-write. -/
def State.ownProbe (s : State) (k : XKind) : Access :=
  Access.probe (if k = .read then .load else .asum) none s.mask (s.g.past s.mask)

/-- Whether an instruction's own access may be performed as it issues (R280, R282): a read, or a read-modify-write. -/
def State.clearOf (s : State) (k : XKind) (t : Target) : Bool :=
  s.mayAtOnce s.cur.group s.accKey (s.ownProbe k) (t.pieces.map fun p => (p.2.2, p.2.1))

/-- What it overtakes is noted. -/
def State.noteOwn (s : State) (k : XKind) (t : Target) : State :=
  s.noteAtOnce s.cur.group s.accKey (s.ownProbe k) (t.pieces.map fun p => (p.2.2, p.2.1))

/-- Places of an instruction's own access as it issues: where it goes on, or why it does not. It stalls on the bytes of a
pending log entry (R92). A page fault is logged against the instruction, which waits for it. The access may be a piece of
the `len` bytes at `base`, the address that the instruction presented and that its reports hold (R409). -/
def State.openPiece (s : State) (form : AForm) (addr : DWord) (size : Nat) (base : DWord) (len : Nat) (k : XKind)
    (ops : List DWord) (cont : Target → Except Stop (State → State)) : Except Stop (State → State) :=
  let g := s.cur.group
  match s.checkLane g ⟨0, addr, size, k, form, false, false, true⟩ s.priv s.choice with
  | .bad c i => .error (.raise { s.uniReport c base i with
      walked := s.laneWalked g ⟨0, addr, size, k, form, false, false, true⟩ s.priv s.choice })
  | .check pa => .ok fun t => t.machineCheck (t.ctxOf g) pa
  | .away => .error .stall
  | .fault f tr =>
    (match s.g.freeEntry with
     | none => .error .full
     | some e => .error (.act fun t => (t.leaveWalk tr).waitLogged e f base
         [((placeIn form base).1, (placeIn form base).2, len)] (.record e ops)))
  | .ok t =>
    if !s.g.logClash form addr size && s.clearOf k t then (cont t).map fun f u => f (u.noteOwn k t) else .error .stall

/-- The same for an access that is whole. -/
def State.openAt (s : State) (form : AForm) (addr : DWord) (size : Nat) (k : XKind)
    (ops : List DWord) (cont : Target → Except Stop (State → State)) : Except Stop (State → State) :=
  s.openPiece form addr size addr size k ops cont

/-- An instruction that waits for a fault of its own: it goes on when the entry has left the log, and has no
effect where the fault was aborted (R368). -/
def State.afterFault (s : State) (k : Except Stop (State → State)) : Except Stop (State → State) :=
  match s.sp.wait with
  | some .aborted => .ok id
  | some w => if s.g.ownFault s.sp then .error (.wait w) else k
  | none => k

/-! ### Batches (R147, R151) -/

/-- Batch `b` counts as numbered at or below `n` (R147). -/
def atOrBelow (b n : Word) : Bool := decide ((n - b).toNat < 2 ^ 31)

/-- The last closed batch. -/
def Group.lastClosed (g : Group) : Word := g.batchOpen - 1

/-- The batch that a CWAIT waits for: beyond the last closed one counts as the last closed one (R151). -/
def Group.waitBatch (g : Group) (n : Word) : Word :=
  if n ≠ g.lastClosed ∧ atOrBelow g.lastClosed n = true then g.lastClosed else n

/-- Whether every copy of the batches at or below `n` is complete. -/
def Group.batchDone (g : Group) (n : Word) : Bool := !g.copies.any fun c => atOrBelow c.2.batch n

/-! ### Barrier objects (R152 to R154) -/

/-- A barrier object's fields. -/
structure Bar where
  expb : Nat
  arrb : Nat
  arra : Nat
  expa : Nat
  lasterr : Bool
  err : Bool
  phase : Bool
  deriving DecidableEq, Repr

/-- Reads an object's 16 bytes (R152). -/
def Bar.ofNat (n : Nat) : Bar :=
  let w := n / 2 ^ 96
  ⟨n % 2 ^ 32, n / 2 ^ 32 % 2 ^ 32, n / 2 ^ 80 % 65536, n / 2 ^ 64 % 65536, bitOf w 2, bitOf w 1, bitOf w 0⟩

/-- Writes an object's 16 bytes. -/
def Bar.toNat (b : Bar) : Nat :=
  b.expb + b.arrb * 2 ^ 32 + (b.expa + b.arra * 65536) * 2 ^ 64 +
    (b.lasterr.toNat * 4 + b.err.toNat * 2 + b.phase.toNat) * 2 ^ 96

/-- An object as BARI leaves it. -/
def Bar.initial (n : Nat) : Bar := ⟨0, 0, 0, n, false, false, false⟩

/-- The completion test (R153). -/
def Bar.settle (b : Bar) : Bar :=
  if b.arra = b.expa ∧ b.arrb = b.expb then
    { b with phase := !b.phase, lasterr := b.err, err := false, expb := 0, arrb := 0, arra := 0 }
  else b

/-- A sum that saturates at 2^32 − 1, and whether it did (R154). -/
def satAdd (a n : Nat) : Nat × Bool := if 2 ^ 32 ≤ a + n then (2 ^ 32 - 1, true) else (a + n, false)

/-- BARX's update (R157). -/
def Bar.expect (b : Bar) (n : Nat) : Bar :=
  let r := satAdd b.expb n
  { b with expb := r.1, err := b.err || r.2 }

/-- BARA's update (R157). -/
def Bar.arrive (b : Bar) : Bar := if b.arra < b.expa then { b with arra := b.arra + 1 } else { b with err := true }

/-- A copy's arrival (R154): its byte count, or none where it is unknown; `failed` sets ERR. -/
def Bar.land (b : Bar) (n : Option Nat) (failed : Bool) : Bar :=
  match n with
  | some n =>
    let r := satAdd b.arrb n
    { b with arrb := r.1, err := b.err || r.2 || failed }
  | none => { b with arrb := b.expb, err := true }

/-- One indivisible update of an object. -/
def State.updateBar (s : State) (t : Target) (f : Bar → Bar) : State :=
  let s := s.leaveTarget t
  t.pieces.foldl (fun s p =>
    match p.2.2 with
    | .scr k o => s.writeScr k o (bytesOf 16 (f (Bar.ofNat (Memory.read (s.team k).scratch o 16))).toNat)
    | _ => s) s

/-- The object that a target names. -/
def State.barAt (s : State) (t : Target) : Bar :=
  match t.pieces with
  | (_, _, .scr k o) :: _ => Bar.ofNat (Memory.read (s.team k).scratch o 16)
  | _ => Bar.initial 0

/-- A barrier instruction's plan (R156, R157): it waits where it publishes the group's earlier accesses. -/
def barPlan (form : AForm) (addr : State → DWord) (publish : Bool) (f : State → Bar → Bar) : Plan := fun s =>
  s.afterFault (s.openAt form (addr s) 16 .atomic [] fun t =>
    if publish && !(s.settled s.cur.group && s.noStale s.cur.group) then .error .stall
    else
      let u := f s
      .ok fun v => v.updateBar t u)

/-- The form of a barrier address. -/
def barForm (c32 : Bool) : AForm := if c32 then .clu else .loc

/-! ### Issuing a copy (R143, R145, R149) -/

/-- The checks of a base address (R149). -/
def State.baseCauses (s : State) (a : DWord) : List (Bool × Cause × Nat × DWord) :=
  let core := s.logicalCore s.cur.group
  let w := windowOf a
  [(decide (w = .priv) || decide (w = .invalid), .spaceInvalid, 0, a),
   (decide (w = .scratch) && decide (scratchTag a ≠ core), .spaceForeign, scratchTag a * 512 + core % 512, a)]

/-- The checks of BAR (R149). -/
def State.barCauses (s : State) (b : Word) : List (Bool × Cause × Nat × DWord) :=
  let n := b.toNat
  let a := b.setWidth 64
  if b = 0xFFFFFFFF then []
  else
    let out := match s.teamAt s.cur.group (n / 2 ^ 22 % 64) with
      | none => true
      | some t => decide (s.regionBytes t < n % 2 ^ 22 + 16)
    [(decide (2 ^ 28 ≤ n), .spaceInvalid, 0, a), (decide (n % 16 ≠ 0), .misaligned, 0, a),
     (decide (n < 2 ^ 28) && out, .permission, 0, a)]

/-- A copy as a descriptor describes it. -/
def copyOf (linear : Bool) (bs : List Byte) (s : State) : Copy :=
  { linear := linear, sbase := BitVec.ofNat 64 (fieldAt bs 0 8), dbase := BitVec.ofNat 64 (fieldAt bs 8 8),
    srec := if linear then 0 else BitVec.ofNat 64 (fieldAt bs 0x10 8),
    drec := if linear then 0 else BitVec.ofNat 64 (fieldAt bs 0x18 8),
    len := if linear then fieldAt bs 0x10 8 else 0,
    bar := BitVec.ofNat 32 (if linear then fieldAt bs 0x18 4 else fieldAt bs 0x20 4),
    rmode := s.sp.rmode, fmt := s.sp.fmt, batch := s.g.batchOpen, order := s.accKey, mask := s.mask, past := s.g.past s.mask,
    next := 0, flags := 0,
    priv := s.priv, faulted := false, faultAt := 0, aborted := false, failed := none }

/-- Fields of a descriptor that must be zero, and a LEN outside its range (R143, R149). -/
def badCopy (linear : Bool) (bs : List Byte) : Bool :=
  if linear then
    decide (fieldAt bs 0x1C 4 ≠ 0) || decide (fieldAt bs 0x10 8 = 0) || decide (2 ^ 40 < fieldAt bs 0x10 8)
  else decide (fieldAt bs 0x24 12 ≠ 0)

/-- Adds a copy in the lowest free copy slot (R97, R148). -/
def Group.addCopy (g : Group) (c : Copy) : Group :=
  match (List.range 16).find? fun n => !g.copies.any fun x => x.1 == n with
  | some n => { g with copies := g.copies.set n c }
  | none => g

/-- The bytes that a target names. -/
def State.bytesAt (s : State) (g : Nat) (t : Target) : List Byte :=
  t.pieces.flatMap fun p => bytesOf p.2.1 (s.readLoc (s.dieOf g) p.2.2 p.2.1)

/-- The targets of a run of local bytes, in pieces of 16: a descriptor or a record as it issues. -/
def State.openLocal (s : State) (addr : DWord) (n : Nat) (cont : List Byte → List Target → Except Stop (State → State)) :
    Except Stop (State → State) :=
  let g := s.cur.group
  let rec go : Nat → Nat → List Byte → List Target → Except Stop (State → State)
    | 0, _, bs, ts => cont bs ts
    | k + 1, o, bs, ts => s.openPiece .loc (addr + BitVec.ofNat 64 o) 16 addr n .read [] fun t =>
        go k (o + 16) (bs ++ (match t.fills with
          | f :: _ =>
            (match t.pieces with
             | (_, _, .scr _ o) :: _ => Memory.bytes s.mem (f.pa + (o - (((s.team f.team).region? f.region).map (·.start)).getD 0) % 128) 16
             | _ => [])
          | [] => s.bytesAt g t)) (ts ++ [t])
  go (n / 16) 0 [] []

/-- Fills and marks of the targets. -/
def State.leaveTargets (s : State) (ts : List Target) : State := ts.foldl State.leaveTarget s

/-- CPY and CPYL at issue (R149). -/
def copyPlan (linear : Bool) (a : Src) : Plan := fun s =>
  let addr := (s.rd a).u.setWidth 64
  let size := if linear then 32 else 48
  let region := s.regionBytes (teamOf s.cur.group)
  s.afterFault (
    match worstAt [(decide (2 ^ 22 ≤ addr.toNat), .spaceInvalid, 0, addr),
        (decide (addr.toNat % 16 ≠ 0), .misaligned, 0, addr),
        (decide (addr.toNat < 2 ^ 22) && decide (region < addr.toNat + size), .permission, 0, addr)] with
    | some c => s.raiseAt c
    | none =>
      s.openLocal addr size fun bs ts =>
        if badCopy linear bs then s.stop .illegalOperand
        else
          let c := copyOf linear bs s
          let esc := decide (windowOf c.dbase = .glob) && s.escapes s.cur.group c.dbase.toNat 1
          match worstAt (s.baseCauses c.sbase ++ s.baseCauses c.dbase ++ s.barCauses c.bar ++
              [(esc, .anytimeEscape, 0, c.dbase)]) with
          | some q => s.raiseAt q
          | none =>
            if 16 ≤ s.g.copies.length then .error .stall
            else .ok fun t => (t.leaveTargets ts).modG fun g => g.addCopy c)

/-! ### Moving elements (R144, R145) -/

/-- A byte of a team region. -/
def State.regionByte (s : State) (t o : Nat) : Option Loc := if o < s.regionBytes t then some (.scr t o) else none

/-- The byte that an engine's access of a group reaches at an address, whichever of its names the address is: none where
it would not be accessed, an anytime launch's range (R360) apart. -/
def State.byteAt (s : State) (g : Nat) (priv use : Bool) (k : XKind) (a : DWord) : Option Loc :=
  match windowOf a with
  | .scratch => if scratchTag a = s.logicalCore g then s.regionByte (teamOf g) (windowOffset a) else none
  | .cluster => (s.teamAt g (clusterField a)).bind fun t => s.regionByte t (windowOffset a)
  | .glob =>
    match s.translate (s.coreOf g) (s.ctx (s.ctxOf g)) a.toNat k priv use with
    | (.ok pa _ _, _) => if s.denied g pa ⟨0, a, 1, k, .gen, false, false, false⟩ priv then none else some (.phys pa)
    | _ => none
  | _ => none

/-- Whether an anytime launch's copy fails at an element that it would write there (R145). -/
def State.outOfRange (s : State) (g : Nat) (k : XKind) (a : DWord) (n : Nat) : Bool :=
  decide (k = .write) && decide (windowOf a = .glob) && s.escapes g a.toNat n

/-- The number of a place among those of its kind. -/
def Loc.ix : Loc → Nat
  | .phys a => a
  | .scr _ o => o
  | .priv a => a
  | .window _ o => o

/-- The byte `n` further on. -/
def Loc.plus (l : Loc) (n : Nat) : Loc :=
  match l with
  | .phys a => .phys (a + n)
  | .scr t o => .scr t (o + n)
  | .priv a => .priv (a + n)
  | .window f o => .window f (o + n)

/-- The records of a copy, and what is known of it (R144). -/
structure CopyShape where
  src : ShapeRec
  dst : Option ShapeRec
  deriving DecidableEq, Repr

/-- The format that the destination has. -/
def CopyShape.delem (x : CopyShape) : Elem :=
  match x.dst with
  | some r => r.elem
  | none => x.src.elem

/-- The one dense dimension of a destination without a record (R143). -/
def denseOff (e : Elem) (i : Nat) : Int := if e.bits = 4 then i else (i * (e.bits / 8) : Nat)

/-- The position of element `i` of the destination. -/
def State.dstPos (s : State) (g : Nat) (c : Copy) (x : CopyShape) (use : Bool) (i : Nat) : State × Except EngStop Pos :=
  match x.dst with
  | none => (s, .ok (.off (denseOff x.src.elem i)))
  | some r => s.walkElement g c.priv use r i

/-- Reads the records of a copy (R142, R144): a pair with unequal COUNTs, or one that needs a conversion of
pairs or residues, is malformed. -/
def State.copyShape (s : State) (g : Nat) (c : Copy) (use : Bool) : State × Except EngStop CopyShape :=
  let q := s.readShape g c.priv use c.srec
  match q.2 with
  | .error e => (q.1, .error e)
  | .ok r =>
    if c.drec = 0 then (q.1, .ok ⟨r, none⟩)
    else
      let p := q.1.readShape g c.priv use c.drec
      match p.2 with
      | .error e => (p.1, .error e)
      | .ok d =>
        if r.count ≠ d.count ∨ convertible r.elem d.elem = false then
          (p.1, .error (.cause .illegalOperand 0 c.srec))
        else (p.1, .ok ⟨r, some d⟩)

/-- A run of `n` bytes in pieces that lie in one block of 64 KiB each: in a block, places follow addresses (R75). -/
def runPieces (a : DWord) (n : Nat) : List (DWord × Nat) :=
  let o := a.toNat % 65536
  (List.range ((o + n + 65535) / 65536)).map fun i =>
    let lo := max o (65536 * i)
    (a + BitVec.ofNat 64 (lo - o), min (o + n) (65536 * (i + 1)) - lo)

/-- Whether a run of `n` bytes, accessed as `k`, holds one of `m` bytes of a place. -/
def State.runHolds (s : State) (g : Nat) (priv use : Bool) (k : XKind) (a : DWord) (n : Nat) (b : Loc) (m : Nat) : Bool :=
  (runPieces a n).any fun p => (s.byteAt g priv use k p.1).any fun l =>
    overlaps l p.2 b m && !s.outOfRange g k (p.1 + BitVec.ofNat 64 (b.ix - l.ix)) 1

/-- Whether one of the first `n` elements of a record covers one of `m` bytes of a place (R145). The elements of one
block of 64 KiB are found by the place of the block. -/
def State.covers (s : State) (g : Nat) (priv use : Bool) (k : XKind) (pos : Nat → Option Pos) (e : Elem) (base : DWord)
    (n : Nat) (b : Loc) (m : Nat) : Bool :=
  let at_ := (List.range n).filterMap fun i =>
    match pos i with
    | some (.off o) =>
      let a := (elemAddr e base o).1
      if s.outOfRange g k a e.bytes then none else some a.toNat
    | _ => none
  (at_.map (· / 65536)).eraseDups.any fun blk =>
    (s.byteAt g priv use k (BitVec.ofNat 64 (blk * 65536))).any fun l =>
      at_.any fun a => decide (a / 65536 = blk) && overlaps (l.plus (a % 65536)) e.bytes b m

/-- A walk's answer without its effects. -/
def posOnly (q : State × Except EngStop Pos) : Option Pos :=
  match q.2 with
  | .ok p => some p
  | .error _ => none

/-- Whether a record's index tables hold one of `m` bytes of a place: a walk reads them. -/
def State.tablesHold (s : State) (g : Nat) (priv use : Bool) (r : ShapeRec) (b : Loc) (m : Nat) : Bool :=
  r.dims.zipIdx.any fun d =>
    let rows := match d.1.rowed, r.dims[d.2 + 1]? with
      | true, some e => e.extent
      | _, _ => 1
    decide (d.1.kind = .indexed) &&
      s.runHolds g priv use .read (BitVec.ofNat 64 (r.tables.getD d.1.slot 0)) (4 * d.1.extent * rows) b m

/-- Whether a copy reads one of `m` bytes of a place: of an element, of an index table, of a record (R145). -/
def State.copyReads (s : State) (g : Nat) (c : Copy) (x : CopyShape) (use : Bool) (b : Loc) (m : Nat) : Bool :=
  s.covers g c.priv use .read (fun i => posOnly (s.walkElement g c.priv use x.src i)) x.src.elem c.sbase x.src.count b m ||
  s.tablesHold g c.priv use x.src b m || s.runHolds g c.priv use .read c.srec (64 + 16 * x.src.dims.length) b m ||
  match x.dst with
  | some r => s.tablesHold g c.priv use r b m || s.runHolds g c.priv use .read c.drec (64 + 16 * r.dims.length) b m
  | none => false

/-- Whether it writes one. -/
def State.copyWrites (s : State) (g : Nat) (c : Copy) (x : CopyShape) (use : Bool) (b : Loc) (m : Nat) : Bool :=
  s.covers g c.priv use .write (fun i => posOnly (s.dstPos g c x use i)) x.delem c.dbase x.src.count b m

/-- Which of the `n` bytes of an element at an address, accessed as `k`, satisfy `p`, which is asked of `m` bytes at a
place; first of all of them. -/
def State.bytesThat (s : State) (g : Nat) (priv use : Bool) (k : XKind) (a : DWord) (n : Nat) (p : Loc → Nat → Bool) :
    Nat → Bool :=
  match s.byteAt g priv use k a with
  | some l => if p l n then fun i => decide (i < n) && p (l.plus i) 1 else fun _ => false
  | none => fun _ => false

/-- The bytes of a value with those replaced that `p` selects: their contents are unspecified. -/
def State.freeBytes (s : State) (n v : Nat) (p : Nat → Bool) : Nat × State :=
  if (List.range n).any p then
    (natOfBytes ((List.range n).map fun i =>
      if p i then Config.freeByte (s.freeIx + i) else BitVec.ofNat 8 (v / 2 ^ (8 * i))), { s with freeIx := s.freeIx + n })
  else (v, s)

/-- What a copy reads at an address: bytes that it also writes give unspecified values (R145). -/
def State.copyRead (s : State) (g : Nat) (c : Copy) (x : CopyShape) (use : Bool) (a : DWord) (n : Nat) :
    State × Except EngStop Nat :=
  let r := s.engRead g c.priv use a n
  match r.2 with
  | .error e => (r.1, .error e)
  | .ok v =>
    let f := r.1.freeBytes n v (s.bytesThat g c.priv use .read a n (s.copyWrites g c x use))
    (f.2, .ok f.1)

/-- The walk of a copy's record: its table words are read as its elements are. -/
def State.copyWalk (s : State) (g : Nat) (c : Copy) (x : CopyShape) (use : Bool) (r : ShapeRec) (i : Nat) :
    State × Except EngStop Pos :=
  s.walkDims (fun s a => s.copyRead g c x use (BitVec.ofNat 64 a) 4) r.tables r.dims (indicesOf r.dims i) 0

/-- Where a copy finds its element `i` to write. -/
def State.copyDst (s : State) (g : Nat) (c : Copy) (x : CopyShape) (use : Bool) (i : Nat) : State × Except EngStop Pos :=
  match x.dst with
  | none => (s, .ok (.off (denseOff x.src.elem i)))
  | some r => s.copyWalk g c x use r i

/-- A copy as replicas know its writes. -/
def Copy.behind (c : Copy) (g : Nat) : Behind := ⟨g, c.order, c.mask, false, true⟩

/-- What one step of a copy has done: the state; the flags of its conversions, the bytes written, the elements moved. -/
abbrev Moved := State × Except EngStop (Word × Nat × Nat)

/-- Whether element `i` is the first in its destination byte: two nibbles of one byte are charged once (R333). -/
def State.newByte (s : State) (g : Nat) (c : Copy) (x : CopyShape) (use : Bool) (i : Nat) (a : DWord) : Bool :=
  match i with
  | 0 => true
  | j + 1 =>
    match posOnly (s.dstPos g c x use j) with
    | some (.off o) => decide ((elemAddr x.delem c.dbase o).1 ≠ a)
    | _ => true

/-- Moves element `i` of a copy with records. One whose destination is SKIP or PAD is not written and raises no flags
(DESIGN CHOICE, log entry 110: R144 does not say whether it converts). -/
def State.moveElement (s : State) (g : Nat) (c : Copy) (x : CopyShape) (use : Bool) (i : Nat) : Moved :=
  let q := s.copyWalk g c x use x.src i
  match q.2 with
  | .error e => (q.1, .error e)
  | .ok sp =>
    let se := x.src.elem
    let de := x.delem
    let v : State × Except EngStop Nat :=
      match sp with
      | .skip => (q.1, .ok 0)
      | .pad p => (q.1, .ok (p % 2 ^ se.bits))
      | .off o =>
        let a := elemAddr se c.sbase o
        let r := q.1.copyRead g c x use a.1 se.bytes
        (r.1, r.2.map (pickElem se a.2))
    match v.2 with
    | .error e => (v.1, .error e)
    | .ok n =>
      let d := v.1.copyDst g c x use i
      match d.2 with
      | .error e => (d.1, .error e)
      | .ok (.off o) =>
        let a := elemAddr de c.dbase o
        let r := convertElem se de (Ctx.ofRegs c.rmode c.fmt i) n
        let read := s.bytesThat g c.priv use .write a.1 de.bytes (s.copyReads g c x use)
        let f := d.1.freeBytes 8 0 read
        let mix := fun (n : Nat) =>
          natOfBytes ((List.range de.bytes).map fun k => BitVec.ofNat 8 ((if read k then f.1 else n) / 2 ^ (8 * k)))
        let w := f.2.engWrite (c.behind g) c.priv use a.1 de.bytes fun old => mix (placeElem de a.2 r.1 old)
        let n := if s.newByte g c x use i a.1 then de.bytes else 0
        (w.1, w.2.map fun _ => (r.2, n, 1))
      | .ok _ => (d.1, .ok (0, 0, 1))

/-- Reads byte `i` of a CPYL: a byte that the copy both reads and writes gives an unspecified value and holds one
afterwards (R145). -/
def State.linearByte (s : State) (g : Nat) (c : Copy) (use : Bool) (i : Nat) : State × Except EngStop Nat :=
  let a := c.sbase + BitVec.ofNat 64 i
  let d := c.dbase + BitVec.ofNat 64 i
  let r := s.engRead g c.priv use a 1
  match r.2 with
  | .error e => (r.1, .error e)
  | .ok v =>
    let f := r.1.freeBytes 1 v fun _ =>
      (s.byteAt g c.priv use .read a).any (fun l => s.runHolds g c.priv use .write c.dbase c.len l 1) ||
      (s.byteAt g c.priv use .write d).any (fun l => s.runHolds g c.priv use .read c.sbase c.len l 1)
    (f.2, .ok f.1)

/-- Reads `n` bytes of a CPYL from byte `i` on. -/
def State.linearBytes (s : State) (g : Nat) (c : Copy) (use : Bool) (i : Nat) : Nat → State × Except EngStop (List Byte)
  | 0 => (s, .ok [])
  | n + 1 =>
    let q := s.linearByte g c use i
    match q.2 with
    | .error e => (q.1, .error e)
    | .ok v =>
      let r := State.linearBytes q.1 g c use (i + 1) n
      (r.1, r.2.map (BitVec.ofNat 8 v :: ·))

/-- The failed line that a CPYL covers whole from byte `i` on, where it reaches it in memory: its write there is one and
meets no error (R103). -/
def State.coveredLine (s : State) (g : Nat) (c : Copy) (use : Bool) (i : Nat) : Option (Nat × Target) :=
  match s.engCheck g c.priv use (c.dbase + BitVec.ofNat 64 i) 1 .write with
  | .ok t =>
    (t.pa? fun pa => decide (pa % 128 = 0) && s.failed (pa / 128) && decide (i + 128 ≤ c.len) && s.linked g pa).map
      fun pa => (pa, t)
  | .error _ => none

/-- Moves byte `i` of a CPYL. -/
def State.moveByte (s : State) (g : Nat) (c : Copy) (use : Bool) (i : Nat) : Moved :=
  let r := s.linearByte g c use i
  match r.2 with
  | .error e => (r.1, .error e)
  | .ok v =>
    let w := r.1.engWrite (c.behind g) c.priv use (c.dbase + BitVec.ofNat 64 i) 1 fun _ => v
    (w.1, w.2.map fun _ => (0, 1, 1))

/-- A step of a CPYL: a byte, or a failed line that it covers. Where a byte of such a line cannot be read, those before
it are written alone, and meet the error. -/
def State.moveLinear (s : State) (g : Nat) (c : Copy) (use : Bool) (i : Nat) : Moved :=
  match s.coveredLine g c use i with
  | none => s.moveByte g c use i
  | some (pa, t) =>
    let r := s.linearBytes g c use i 128
    match r.2 with
    | .error (.cause _ _ _) => s.moveByte g c use i
    | .error e => (r.1, .error e)
    | .ok bs =>
      if !s.homeOpen g .store false (.phys pa) 128 then (s, .error .wait)
      else
        (((r.1.leaveTarget t).writePhys pa bs t.prop01 (some (c.behind g))).repairLines (· == pa / 128), .ok (0, 128, 128))

/-- A copy of a group. -/
def Group.copy? (g : Group) (n : Nat) : Option Copy := (g.copies.find? fun c => c.1 == n).map (·.2)

/-- Puts a copy back. -/
def State.putCopy (s : State) (g n : Nat) (c : Copy) : State :=
  s.setGroup g { s.group g with copies := (s.group g).copies.set n c }

/-- A copy's element fails or faults (R145): a page fault pauses it, an uncorrectable error kills the context,
any other cause fails it. The failing address is the element's, the malformed record's, or that of the index-table word or
the record's word whose read failed (DESIGN CHOICE, log entry 111: R148 names the first two). -/
def State.copyStop (s : State) (g n : Nat) (c : Copy) (e : EngStop) : State :=
  match e with
  | .wait => s
  | .check pa => s.machineCheck (s.ctxOf g) pa
  | .fault f => (s.putCopy g n { c with faulted := true, faultAt := f.addr }).addFault g (.copy n) f
  | .cause k i a => s.putCopy g n { c with failed := some (k, a, i) }

/-- Whether a copy's elements may move: its group is live in a live bank and not halted, no fault is open, and every access
of the group before it has been performed, at every replica as well (R146, R291, R396, R406); of a matrix instruction, the
accesses of the team region (R253, R254). -/
def State.copyMay (s : State) (g : Nat) (c : Copy) : Bool :=
  let gr := s.group g
  let earlier := fun k m => decide (k < c.order) && poBefore m k c.mask c.past
  gr.live && decide (gr.bank = .live) && !gr.halted && !c.faulted &&
  !((s.jobOf g).any fun j => earlier j.order j.mask && s.jobPends j) &&
  !(gr.inflight.any fun a => earlier a.1 a.2.mask && a.2.open_) &&
  !s.lagging g c.order c.mask c.past fun _ _ => true

/-- The size of a copy in elements, once its records are known. -/
def copyCount (c : Copy) (x : Option CopyShape) : Nat :=
  match x with
  | some x => x.src.count
  | none => if c.linear then c.len else c.next + 1

/-- Moves up to `k` elements. -/
def State.moveSome (s : State) (g n : Nat) (x : Option CopyShape) (use : Bool) : Nat → State
  | 0 => s
  | k + 1 =>
    match (s.group g).copy? n with
    | none => s
    | some c =>
      if c.faulted || c.failed.isSome || decide (copyCount c x ≤ c.next) then s
      else
        let m := match x with
          | some x => s.moveElement g c x use c.next
          | none => s.moveLinear g c use c.next
        match m.2 with
        | .error e => m.1.copyStop g n c e
        | .ok (fl, w, k') =>
          let t := m.1.putCopy g n { c with next := c.next + k', flags := c.flags ||| fl }
          State.moveSome (t.chargeG g .copy w) g n x use k

/-! ### Completion (R147, R148, R154) -/

/-- The record that fixes a copy's destination (R154). -/
def Copy.fixing (c : Copy) : DWord := if c.drec = 0 then c.srec else c.drec

/-- Whether that record cannot be read: a fault of it has been aborted. -/
def Copy.unread (c : Copy) : Bool :=
  c.aborted || c.failed.any fun f => decide (f.1 = .translationAbort) && decide (f.2.1 = c.fixing)

/-- The byte count of a copy, where the record that fixes its destination gives COUNT and FORMAT (R154); else what keeps
the record from being read now. -/
def State.copyBytes (s : State) (g : Nat) (c : Copy) (use : Bool) : Except EngStop (Option Nat) :=
  if c.linear then .ok (some c.len)
  else
    let a := c.fixing
    if a.toNat % 64 ≠ 0 ∨ (windowOf a ≠ .glob ∧ windowOf a ≠ .scratch) ∨ c.unread = true then .ok none
    else
      match (s.readRec g c.priv use a).2 with
      | .ok bs => .ok (recBytes bs)
      | .error (.cause _ _ _) => .ok none
      | .error e => .error e

/-- A copy leaves its slot: its flags, and its failure for the CWAIT or EXIT that covers it. -/
def State.copyEnd (s : State) (g n : Nat) (c : Copy) (fail : Option (Cause × DWord)) : State :=
  let gr := s.group g
  let fs := match fail with
    | some (k, a) => [⟨c.batch, c.order, k, a⟩]
    | none => []
  s.setGroup g { gr with
    copies := gr.copies.del n, flags := gr.flags ||| c.flags, copyFails := gr.copyFails ++ fs }

/-- Whether a write of a copy is not at every replica: what its batch and its arrival publish is everywhere (R284, R285,
R291). -/
def State.copyLags (s : State) (g : Nat) (c : Copy) : Bool :=
  s.replicas.any fun r => r.behind.any fun b => b.group == g && b.key == c.order

/-- Completes a copy whose elements are done or which has failed, with its arrival (R154), which waits for its home. Where
the fill of the object's line faults and is aborted there is no arrival, and the copy has failed with TRANSLATION_ABORT
(DESIGN CHOICE, log entry 136). -/
def State.copyFinish (s : State) (g n : Nat) (c : Copy) (use : Bool) : State :=
  let fail := c.failed.map fun f => (f.1, f.2.1)
  let a := c.bar.setWidth 64
  if s.copyLags g c then s
  else if c.bar = 0xFFFFFFFF then s.copyEnd g n c fail
  else
    match s.checkLane g ⟨0, a, 16, .atomic, .clu, false, false, true⟩ c.priv use with
    | .ok t =>
      if !s.engMay g .asum t then s
      else
        (match s.copyBytes g c use with
         | .ok b => (s.updateBar t fun x => (x.land b fail.isSome).settle).copyEnd g n c fail
         | .error e => s.copyStop g n c e)
    | .away => s
    | .check pa => s.machineCheck (s.ctxOf g) pa
    | .fault f _ =>
      if c.aborted || c.failed.any fun f => decide (f.1 = .translationAbort) && decide (f.2.1 = a) then s.copyEnd g n c fail
      else s.copyStop g n c (.fault f)
    | .bad _ _ => s.copyEnd g n c (some (.permission, a))

/-- A copy as far as an event takes it: up to `k` elements, and its completion where nothing is left. -/
def State.copyRun (s : State) (g n k : Nat) (x : Option CopyShape) (use : Bool) : State :=
  let s := s.moveSome g n x use k
  match (s.group g).copy? n with
  | none => s
  | some c =>
    if !c.faulted && (c.failed.isSome || decide (copyCount c x ≤ c.next)) then s.copyFinish g n c use else s

/-- COPY_COMPLETE (R144 to R148, R154). -/
def State.copyStep (s : State) (g n k : Nat) : State :=
  match (s.group g).copy? n with
  | none => s
  | some c =>
    let use := s.choice
    let s := s.chosen
    if !s.copyMay g c then s
    else if c.aborted && c.failed.isNone then
      (s.putCopy g n { c with aborted := false, failed := some (.translationAbort, c.faultAt, 0) }).copyRun g n 0 none use
    else if c.failed.isSome || c.linear then s.copyRun g n k none use
    else
      let q := s.copyShape g c use
      match q.2 with
      | .ok x => q.1.copyRun g n k (some x) use
      | .error e => (q.1.copyStop g n c e).copyRun g n 0 none use

/-! ### Meanings -/

/-- COPY_COMPLETE. -/
def execCopyComplete (g slot n : Nat) (s : State) : Host.Outcome State Fault Refusal := .next (s.copyStep g slot n)

/-- CPY (R149). -/
def planCpy (a : Src) : Plan := copyPlan false a
def execCpy (a : Src) (s : State) : Host.Outcome State Fault Refusal := issue (.cpy a) (planCpy a) s

/-- CPY.f (R160): in a group it raises ILLEGAL_OPERAND; an access slice runs it as a walk. -/
def planCpyFeed : Plan := fun s => s.stop .illegalOperand
def execCpyFeed (n : Nat) (a : Src) (s : State) : Host.Outcome State Fault Refusal :=
  issue (.cpyFeed n a) planCpyFeed s

/-- CPYL (R149). -/
def planCpyl (a : Src) : Plan := copyPlan true a
def execCpyl (a : Src) (s : State) : Host.Outcome State Fault Refusal := issue (.cpyl a) (planCpyl a) s

/-- CBATCH (R150). -/
def planCbatch (d : Nat) : Plan := fun s =>
  let n := s.g.batchOpen
  .ok fun t => (t.writeUni (.v d) n).modG fun g => { g with batchOpen := n + 1 }
def execCbatch (d : Nat) (s : State) : Host.Outcome State Fault Refusal := issue (.cbatch d) (planCbatch d) s

/-- CWAIT (R148, R151). -/
def planCwait (all : Bool) (a : Src) : Plan := fun s =>
  let n := match s.sp.wait with
    | some (.cwait n) => n
    | _ => if all then s.g.lastClosed else s.g.waitBatch (s.rd a).u
  if !s.g.batchDone n then .error (.wait (.cwait n))
  else failFirst (s.g.copyFails.filter fun c => atOrBelow c.batch n) (.ok id)
def execCwait (all : Bool) (a : Src) (s : State) : Host.Outcome State Fault Refusal :=
  issue (.cwait all a) (planCwait all a) s

/-- BARI (R156). -/
def planBari (b : Src) (n : Nat) : Plan :=
  barPlan .loc (fun s => (s.rd b).u.setWidth 64) false fun _ _ => (Bar.initial n).settle
def execBari (b : Src) (n : Nat) (s : State) : Host.Outcome State Fault Refusal :=
  issue (.bari b n) (planBari b n) s

/-- BARX (R157). -/
def planBarx (c32 : Bool) (b : Src) (c : Nat) : Plan :=
  barPlan (barForm c32) (fun s => (s.rd b).u.setWidth 64) true fun s x => (x.expect (s.rdv c).u.toNat).settle
def execBarx (c32 : Bool) (b : Src) (c : Nat) (s : State) : Host.Outcome State Fault Refusal :=
  issue (.barx c32 b c) (planBarx c32 b c) s

/-- BARA (R157). -/
def planBara (c32 : Bool) (b : Src) : Plan :=
  barPlan (barForm c32) (fun s => (s.rd b).u.setWidth 64) true fun _ x => x.arrive.settle
def execBara (c32 : Bool) (b : Src) (s : State) : Host.Outcome State Fault Refusal :=
  issue (.bara c32 b) (planBara c32 b) s

/-- BARW (R158): it fills an INVALID line of the object first (R113), and keeps the object and the parity that it waits
for. -/
def planBarw (d : Nat) (b : Src) : Plan := fun s =>
  let q : Word × Word := match s.sp.wait with
    | some (.barw a p) => (a, p)
    | some (.record _ (a :: p :: _)) => (a.setWidth 32, p.setWidth 32)
    | _ => ((s.rd b).u, (s.rdv d).u &&& 1)
  s.afterFault (s.openAt .loc (q.1.setWidth 64) 16 .read [q.1.setWidth 64, q.2.setWidth 64] fun t =>
    let x := (s.leaveTarget t).barAt t
    if decide (x.phase = q.2.getLsbD 0) then
      if t.fills.isEmpty then .error (.wait (.barw q.1 q.2))
      else .error (.act fun u => (u.leaveTarget t).modSp fun y => { y with wait := some (.barw q.1 q.2) })
    else .ok fun u => (u.leaveTarget t).writeUni (.v d) (BitVec.ofNat 32 (x.lasterr.toNat * 2 + x.phase.toNat)))
def execBarw (d : Nat) (b : Src) (s : State) : Host.Outcome State Fault Refusal := issue (.barw d b) (planBarw d b) s

/-- ASTART (R163). -/
def planAstart (a : Src) (x : Nat) : Plan := fun s =>
  let addr := s.rdPair a 0
  let v := (s.rdv x).u
  if addr.toNat % 16 ≠ 0 then s.uniStop .misaligned addr
  else .ok fun t =>
    let priv := t.priv
    let key := t.accKey
    let m := t.mask
    t.modG fun g => { g with
      feeds := []
      slice := { Slice.initial with
        st := .running, pc := addr.toNat / 16 * 3, vregs := [(0, .uniform v)], gen := g.slice.gen + 1, order := key,
        mask := m, past := g.past m, priv := priv } }
def execAstart (a : Src) (x : Nat) (s : State) : Host.Outcome State Fault Refusal :=
  issue (.astart a x) (planAstart a x) s

/-- ASTOP's effect on the slice: one that runs is stopped. -/
def Slice.halt (x : Slice) : Slice := if x.st = .running then { x with st := .stopped, walk := none } else x

/-- ASTOP (R164). -/
def planAstop (discard : Bool) : Plan := fun _ => .ok fun t => t.modG fun g =>
  if g.slice.st = .unbound then g
  else { g with slice := g.slice.halt, feeds := if discard then [] else g.feeds }
def execAstop (discard : Bool) (s : State) : Host.Outcome State Fault Refusal :=
  issue (.astop discard) (planAstop discard) s

/-- FSTAT.SLICE (R165). -/
def SliceSt.code : SliceSt → Nat
  | .unbound => 0
  | .running => 1
  | .ended => 2
  | .stopped => 3

/-- FSTAT's word (R165). -/
def Group.fstat (g : Group) : Word :=
  BitVec.ofNat 32 (g.slice.st.code * 2 ^ 30 + ((List.range 4).map fun n =>
    let c := (g.feed n).length
    (c + (if c = 0 ∧ g.slice.st ≠ .running then 32 else 0)) * 2 ^ (7 * n)).sum)

/-- FSTAT (R165). -/
def planFstat (d : Dst) : Plan := fun s => State.putUni d s.g.fstat
def execFstat (d : Dst) (s : State) : Host.Outcome State Fault Refusal := issue (.fstat d) (planFstat d) s

end Sys2Proof.Machine
end

