-- ==== Sys2Proof/Machine/Matrix.lean ====
section
/-! DEFINITION. The matrix engine's data: macros and their layouts (R246, R247), activation blocks and their
planes (R248, R249), tiles and QCTL (R250, R251), the epilogue (R252), the ladder (R262), MMF (R266) and the
tile images (R272, R273). -/

namespace Sys2Proof.Machine

open Sys2Proof

/-- An MMF format's number format. -/
def mfmtFloat : MFmt → FFmt
  | .bf16 => .bf16
  | .fp16 => .fp16
  | .e4m3 => .e4m3
  | .e5m2 => .e5m2

/-! ### Macros (R247) -/

/-- Column `n` of a macro: the patterns of W[0..127][n]. -/
def Macro.column (m : Macro) (n : Nat) : List Nat :=
  match m.tag with
  | .s4 => ((m.bytes.drop (128 * (n / 2))).take 128).map fun b =>
      if n % 2 = 0 then b.toNat % 16 else b.toNat / 16
  | .bf16 | .fp16 =>
    (List.range 128).map fun k => fieldAt ((m.bytes.drop (256 * n)).take 256) (2 * k) 2
  | _ => ((m.bytes.drop (128 * n)).take 128).map (·.toNat)

/-- The integer weights of a column (R189). -/
def Macro.ints (m : Macro) (n : Nat) : List Int :=
  (m.column n).map fun p => if m.tag = .s4 then signedOf 4 p else signedOf 8 p

/-- A group's macro: its team's (R245). -/
def State.macroOf (s : State) (g n : Nat) : Macro := (s.team (teamOf g)).macros.get Macro.initial n

/-- Loads macro `n` from an offset of the team region (R247, R259). -/
def State.loadMacro (s : State) (g n : Nat) (tag : WTag) (o : Nat) : State :=
  let k := teamOf g
  let t := s.team k
  s.setTeam k { t with macros := t.macros.set n ⟨Memory.bytes t.scratch o 8192, tag, some o⟩ }

/-- Reloads a returned team's macros from their recorded offsets (R255). -/
def State.reloadMacros (s : State) (g : Nat) : State :=
  let k := teamOf g
  let t := s.team k
  if t.reload then
    s.setTeam k { t with
      reload := false
      macros := t.macros.map fun m =>
        match m.2.src with
        | some o => (m.1, { m.2 with bytes := Memory.bytes t.scratch o 8192 })
        | none => m }
  else s

/-! ### Tiles (R246, R250, R251) -/

/-- A pair of a tile. -/
def Tile.pair (t : Tile) (i n : Nat) : Pair := t.pairs.getD (64 * i + n) ⟨0, 0⟩
/-- The shadow words of an element. -/
def Tile.shadow (t : Tile) (i n : Nat) : Word × Word := t.shadows.getD (64 * i + n) (0, 0)
/-- A row scale; 1.0 where none was loaded. -/
def Tile.rowScale (t : Tile) (i : Nat) : Word := t.rs.getD i 0x3F800000
/-- A column scale of half `g`. -/
def Tile.colScale (t : Tile) (g n : Nat) : Word := (if g = 0 then t.cs0 else t.cs1).getD n 0x3F800000

/-- The 2,048 elements of a tile, by `f`. -/
def elements {α : Type} (f : Nat → Nat → α) : List α := (List.range 2048).map fun e => f (e / 64) (e % 64)

/-- A tile with every shadow zero and QCTL zero but for G64 (R262). -/
def Tile.cleared (t : Tile) : Tile :=
  { t with
    shadows := [], st := .empty, next := 0, op := 0, fmtp := 0, w := 0, cnt := 0, lowh := false, knext := 0,
    pos := 0, addr := 0, mask := 0 }

/-- STATE's code (R251). -/
def TState.code : TState → Nat
  | .empty => 0
  | .held => 1
  | .intr => 2

/-- QCTL (R251). -/
def Tile.qctl (t : Tile) : Word :=
  match t.st with
  | .empty => BitVec.ofNat 32 (t.g64.toNat * 2 ^ 12)
  | st => BitVec.ofNat 32 (st.code * 2 ^ 29 + t.next % 8 * 2 ^ 26 + t.op % 4 * 2 ^ 24 + t.fmtp % 4 * 2 ^ 22 +
      t.w % 32 * 2 ^ 17 + t.cnt % 8 * 2 ^ 14 + t.lowh.toNat * 2 ^ 13 + t.g64.toNat * 2 ^ 12 +
      t.knext % 128 * 2 ^ 5 + t.pos % 8 * 4)

/-- A tile of a group. -/
def Group.tile (g : Group) (n : Nat) : Tile := g.tiles.get Tile.initial n

/-- A group with a tile changed. -/
def Group.putTile (g : Group) (n : Nat) (t : Tile) : Group := { g with tiles := g.tiles.set n t }

/-- A group with some of its tiles changed. -/
def Group.modTiles (g : Group) (ns : List Nat) (f : Nat → Tile → Tile) : Group :=
  (ns.zipIdx).foldl (fun g n => g.putTile n.1 (f n.2 (g.tile n.1))) g

/-! ### The epilogue (R252) -/

/-- Whether an FP32 pattern is a NaN. -/
def isNan32 (w : Word) : Bool := decide (f32 w = .nan)

/-- The triple product, rounded once. -/
def scaled (x : Int) (rs cs : Word) : Word × Word :=
  if isNan32 rs || isNan32 cs then (BitVec.ofNat 32 FFmt.fp32.nan, 0)
  else
    let a := mulVal (Val.ofInt x) (f32 rs)
    let b := mulVal a.1 (f32 cs)
    let nv := if a.1 = .nan then a.2 else b.2
    let r := rne32 b.1
    (r.1, r.2 ||| nv)

/-- Epilogue of one element: its pair and the flags. -/
def Tile.epilogue (t : Tile) (i n : Nat) : Pair × Word :=
  let h := t.shadow i n
  let parts := if t.g64 then [h.1, h.2] else [residueAdd h.1 h.2]
  (parts.zipIdx).foldl (fun (q : Pair × Word) p =>
    let y := scaled (crtDecode p.1) (t.rowScale i) (t.colScale p.2 n)
    let r := pairAdd q.1 ⟨y.1, 0⟩
    (r.1, q.2 ||| y.2 ||| r.2)) (t.pair i n, 0)

/-- The epilogue over the active rows of a tile, and the flags. -/
def Tile.finishRows (t : Tile) (m : Word) : Tile × Word :=
  let es := elements fun i n => if laneIn m i then t.epilogue i n else (t.pair i n, 0)
  ({ t with pairs := es.map (·.1) }, es.foldl (fun f e => f ||| e.2) 0)

/-! ### The ladder (R249, R262) -/

/-- PlaneWeight (R249). -/
def planeWeight (top p : Nat) : Int := if p = top then -(2 ^ top : Int) else 2 ^ p

/-- The sum over some k of bit `p` of the activation times the weight. -/
def planeSum (p : Nat) (row : List Nat) (w : List Int) : Int :=
  ((row.zip w).map fun x => if bitOf x.1 p then x.2 else 0).sum

/-- One plane added to an element's shadow words. -/
def addPlane (top p : Nat) (row : List Nat) (w : List Int) (h : Word × Word) : Word × Word :=
  let pw := planeWeight top p
  (residueAdd h.1 (residueOf (pw * planeSum p (row.take 64) (w.take 64))),
    residueAdd h.2 (residueOf (pw * planeSum p (row.drop 64) (w.drop 64))))

/-- The planes of a range, from the highest down. -/
def planesDown (hi n : Nat) : List Nat := (List.range n).map fun j => hi - j

/-- The row that a row buffer holds for a lane. -/
def rowOf (rows : List (Nat × List Nat)) (i : Nat) : Option (List Nat) :=
  (rows.find? fun r => r.1 == i).map (·.2)

/-- A tile after the planes of a range, fed by a macro from a column. -/
def Tile.ladder (t : Tile) (m : Macro) (off top : Nat) (ps : List Nat) (rows : List (Nat × List Nat)) : Tile :=
  let cols := (List.range 64).map fun n => m.ints (off + n)
  { t with shadows := elements fun i n =>
      match rowOf rows i with
      | some row => ps.foldl (fun h p => addPlane top p row (cols.getD n []) h) (t.shadow i n)
      | none => t.shadow i n }

/-! ### MMF (R266) -/

/-- One product added to a pair. -/
def addProduct (a w : Val) (q : Pair × Word) : Pair × Word :=
  let p := mulVal a w
  let y := rne32 p.1
  let r := pairAdd q.1 ⟨y.1, 0⟩
  (r.1, q.2 ||| p.2 ||| y.2 ||| r.2)

/-- The macro and column that feed column `n` of tile `j` of an MMF's set. -/
def mmfColumn (f : MFmt) (m j n : Nat) : Nat × Nat :=
  if f.perTile = 2 then (m + 2 * j + n / 32, n % 32) else (m + j, n)

/-- Products for k from `k0` to below `k1`, into a tile, and the flags. -/
def Tile.products (t : Tile) (f : MFmt) (col : Nat → List Nat) (k0 k1 : Nat) (rows : List (Nat × List Nat)) :
    Tile × Word :=
  let ff := mfmtFloat f
  let cols := (List.range 64).map fun n => (((col n).drop k0).take (k1 - k0)).map ff.value
  let es := elements fun i n =>
    match rowOf rows i with
    | some row =>
      ((((row.drop k0).take (k1 - k0)).map ff.value).zip (cols.getD n [])).foldl
        (fun (q : Pair × Word) (x : Val × Val) => addProduct x.1 x.2 q) (t.pair i n, 0)
    | none => (t.pair i n, 0)
  ({ t with pairs := es.map (·.1) }, es.foldl (fun f e => f ||| e.2) 0)

/-! ### Tile images (R272, R273) -/

/-- A word's four bytes. -/
def wordBytes (w : Word) : List Byte := bytesOf 4 w.toNat

/-- QSAVE's image of a tile. -/
def Tile.image (t : Tile) : List Byte :=
  (elements fun i n => wordBytes (t.pair i n).s ++ wordBytes (t.pair i n).c).flatten ++
  (elements fun i n => wordBytes (t.shadow i n).1 ++ wordBytes (t.shadow i n).2).flatten ++
  ((List.range 32).flatMap fun i => wordBytes (t.rowScale i)) ++
  ((List.range 64).flatMap fun n => wordBytes (t.colScale 0 n)) ++
  ((List.range 64).flatMap fun n => wordBytes (t.colScale 1 n)) ++
  wordBytes t.qctl ++ wordBytes t.addr ++ wordBytes t.mask ++ bytesOf 52 0

/-- A list of words from bytes. -/
def wordsOf : Nat → List Byte → List Word
  | 0, _ => []
  | n + 1, bs => BitVec.ofNat 32 (natOfBytes (bs.take 4)) :: wordsOf n (bs.drop 4)

/-- Neighbouring words of a list in pairs. -/
def twos : List Word → List (Word × Word)
  | a :: b :: r => (a, b) :: twos r
  | _ => []

/-- QLOAD's reading of an image; none for a failing one. A HELD image's shadow words are data: the bits that R195 reserves
in a residue triple are not looked at (DESIGN CHOICE, log entry 139). -/
def tileOfImage (bs : List Byte) : Option Tile :=
  let q := fieldAt bs 0x8280 4
  let st := q / 2 ^ 29
  let addr := fieldAt bs 0x8284 4
  let mask := fieldAt bs 0x8288 4
  let bad := decide (1 < st) || decide (q / 2 ^ 24 % 4 = 3) || decide (q % 4 ≠ 0) || decide (fieldAt bs 0x828C 52 ≠ 0) ||
    (decide (st = 0) && (decide (q / 2 ^ 13 ≠ 0) || decide (q / 4 % 2 ^ 10 ≠ 0) || decide (addr ≠ 0) || decide (mask ≠ 0)))
  if bad then none
  else some {
    pairs := (twos (wordsOf 4096 bs)).map fun p => ⟨p.1, p.2⟩
    shadows := if st = 0 then [] else twos (wordsOf 4096 (bs.drop 0x4000))
    rs := wordsOf 32 (bs.drop 0x8000)
    cs0 := wordsOf 64 (bs.drop 0x8080)
    cs1 := wordsOf 64 (bs.drop 0x8180)
    g64 := bitOf q 12
    st := if st = 0 then .empty else .held
    next := q / 2 ^ 26 % 8
    op := q / 2 ^ 24 % 4
    fmtp := q / 2 ^ 22 % 4
    w := q / 2 ^ 17 % 32
    cnt := q / 2 ^ 14 % 8
    lowh := bitOf q 13
    knext := q / 2 ^ 5 % 128
    pos := q / 4 % 8
    addr := BitVec.ofNat 32 addr
    mask := BitVec.ofNat 32 mask }

/-! ### Draining (R270) -/

/-- A drained element: its stored bits and flags. `x` is the pair that is stored. -/
def drainBits (f : DFmt) (c : Ctx) (x : Pair) : Nat × Word :=
  match f with
  | .pair => (x.s.toNat + x.c.toNat * 2 ^ 32, 0)
  | .f32 => roundFlt .fp32 c (x.valIn c.mode)
  | .bf16 => roundFlt .bf16 c (x.valIn c.mode)
  | .fp16 => roundFlt .fp16 c (x.valIn c.mode)
  | .e4m3 => roundFlt .e4m3 c (x.valIn c.mode)
  | .e5m2 => roundFlt .e5m2 c (x.valIn c.mode)

end Sys2Proof.Machine
end

