-- ==== Sys2Proof/Machine/MatrixRun.lean ====
section
/-! DEFINITION. A matrix instruction at work in a core's MX pipe (R253 to R258, R262, R263, R266, R268 to
R273, R410): what it fetches as it starts or resumes, what it does as it completes, where it stops. -/

namespace Sys2Proof

/-- The access width that a drained element has. -/
def DFmt.width (f : DFmt) : Width := if f.bytes = 8 then .w64 else if f.bytes = 4 then .w32 else if f.bytes = 2 then .u16 else .u8

/-- The tiles that an interrupted instruction leaves in INTR. -/
def Instr.tileSet (i : Instr) : List Nat :=
  match i with
  | .mmf _ q _ c _ => (List.range c).map (q + ·)
  | i =>
    match i.lad? with
    | some x => x.set.map (·.1)
    | none => []

end Sys2Proof

namespace Sys2Proof.Machine

open Sys2Proof

/-- Changes a group's matrix job where it is. -/
def State.modJob (s : State) (g : Nat) (f : Job → Option Job) : State :=
  let c := s.coreOf g
  match (s.core c).mx with
  | some j =>
    if j.group = g then s.setCore c { s.core c with mx := f j }
    else s.setGroup g { s.group g with suspended := (s.group g).suspended.bind f }
  | none => s.setGroup g { s.group g with suspended := (s.group g).suspended.bind f }

/-- A group's tiles in EMPTY, with their pairs kept (R256, R263). -/
def State.clearTiles (s : State) (g : Nat) (ns : List Nat) : State :=
  s.setGroup g ((s.group g).modTiles ns fun _ t => t.cleared)

/-- A matrix instruction takes no further step (R256, R263): at a resumption its tiles are cleared. -/
def State.dropJob (s : State) (j : Job) : State :=
  let s := s.modJob j.group fun _ => none
  if j.resume then s.clearTiles j.group j.instr.tileSet else s

/-! ### Region fills (R113, R256) -/

/-- The offsets at which the lines of some region bytes begin. -/
def lineStarts (o n : Nat) : List Nat :=
  o :: ((List.range (n / 128 + 1)).map fun k => (o / 128 + 1 + k) * 128).filter fun x => decide (x < o + n)

/-- Fills the lines that some bytes of the group's own region need. -/
def State.fillRange (s : State) (g o n : Nat) (priv use : Bool) : Except EngStop State :=
  (lineStarts o n).foldl (fun q x =>
    match q with
    | .error e => .error e
    | .ok t =>
      match t.fillFor g (teamOf g) x ⟨0, BitVec.ofNat 64 x, 128, .read, .loc, false, false, false⟩ priv use with
      | .ok fs => .ok (fs.foldl State.fill t)
      | .error (.fault f _) => .error (.fault f)
      | .error (.check pa) => .error (.check pa)
      | .error (.bad c i) => .error (.cause c i (BitVec.ofNat 64 x))
      | .error _ => .error .wait) (.ok s)

/-- Fills several runs of bytes. -/
def State.fillRanges (s : State) (g : Nat) (priv use : Bool) (rs : List (Nat × Nat)) : Except EngStop State :=
  rs.foldl (fun q r =>
    match q with
    | .error e => .error e
    | .ok t => t.fillRange g r.1 r.2 priv use) (.ok s)

/-! ### Convolution rows (R263) -/

/-- What stops an MMC's walk. -/
inductive WalkStop where
  | illegal
  | lane (c : Cause) (info : Nat) (addr : DWord)
  | eng (e : EngStop)
  deriving DecidableEq, Repr

/-- Whether an address is in the group's own team region. -/
def State.ownScratch (s : State) (g : Nat) (a : DWord) : Bool :=
  inOwnRegion (s.logicalCore g) (s.regionBytes (teamOf g)) a

/-- A read of a record or of a table: any cause of it is ILLEGAL_OPERAND. -/
def ownStop : EngStop → EngStop
  | .cause _ _ a => .cause .illegalOperand 0 a
  | e => e

/-- A table word of an MMC's record. -/
def State.ownTable (s : State) (g : Nat) (priv use : Bool) (a : Nat) : State × Except EngStop Nat :=
  let x := BitVec.ofNat 64 a
  if !s.ownScratch g x then (s, .error (.cause .illegalOperand 0 x))
  else
    let q := s.engRead g priv use x 4
    match q.2 with
    | .ok v => (q.1, .ok v)
    | .error e => (q.1, .error (ownStop e))

/-- One element of an MMC's rows. -/
def State.convElem (s : State) (g : Nat) (priv use : Bool) (r : ShapeRec) (base : DWord) (e : Nat) :
    State × Except WalkStop Nat :=
  if r.count ≤ e then (s, .ok 0)
  else
    let q := s.walkDims (fun s a => s.ownTable g priv use a) r.tables r.dims (indicesOf r.dims e) 0
    match q.2 with
    | .error (.cause _ _ _) => (q.1, .error .illegal)
    | .error e => (q.1, .error (.eng e))
    | .ok .skip => (q.1, .ok 0)
    | .ok (.pad p) => (q.1, .ok (p % 2 ^ r.elem.bits))
    | .ok (.off o) =>
      let a := elemAddr r.elem base o
      if windowOf a.1 ≠ .scratch then (q.1, .error (.lane .spaceInvalid 0 a.1))
      else
        let v := q.1.engRead g priv use a.1 1
        match v.2 with
        | .ok n => (v.1, .ok (pickElem r.elem a.2 n))
        | .error (.cause c i x) => (v.1, .error (.lane c i x))
        | .error e => (v.1, .error (.eng e))

/-- One row of an MMC: its elements, or the worst lane cause among them. -/
def State.convRow (s : State) (g : Nat) (priv use : Bool) (r : ShapeRec) (base : DWord) (e0 : Nat) :
    State × Except WalkStop (List Nat) :=
  (List.range 128).foldl (fun q k =>
    match q.2 with
    | .error .illegal => q
    | .error (.eng _) => q
    | acc =>
      let v := q.1.convElem g priv use r base (e0 + k)
      match acc, v.2 with
      | .ok xs, .ok x => (v.1, .ok (xs ++ [x]))
      | .ok _, .error e => (v.1, .error e)
      | .error (.lane c i a), .error (.lane d j b) =>
        (v.1, .error (if d.rank < c.rank then .lane d j b else .lane c i a))
      | .error e, .ok _ => (v.1, .error e)
      | .error _, .error e => (v.1, .error e)) (s, .ok [])

/-- Every active row of an MMC, with the lanes' causes: each lane with a row or with its worst cause. EBASE and ROWSTEP
are read as unsigned numbers, and an element index does not wrap (DESIGN CHOICE, log entry 113: R263 gives their widths
alone). -/
def State.convRows (s : State) (g : Nat) (priv use : Bool) (desc : List Byte) (nib : Bool) (m : Word) :
    State × Except WalkStop (List (Nat × Except (Cause × Nat × DWord) (List Nat))) :=
  let srec := BitVec.ofNat 64 (fieldAt desc 8 8)
  if fieldAt desc 0x1C 4 ≠ 0 ∨ s.ownScratch g srec = false then (s, .error .illegal)
  else
    let h := s.readShape g priv use srec
    match h.2 with
    | .error (.cause _ _ _) => (h.1, .error .illegal)
    | .error e => (h.1, .error (.eng e))
    | .ok r =>
      let tabs := r.dims.all fun d => decide (d.kind ≠ .indexed) ||
        s.ownScratch g (BitVec.ofNat 64 (r.tables.getD d.slot 0))
      if r.elem ≠ (if nib then .int .s4 else .int .s8) ∨ tabs = false then (h.1, .error .illegal)
      else
        (lanesOf m).foldl (fun q i =>
          match q.2 with
          | .error e => (q.1, .error e)
          | .ok rows =>
            let e0 := fieldAt desc 0x10 8 + i * fieldAt desc 0x18 4
            let v := q.1.convRow g priv use r (BitVec.ofNat 64 (fieldAt desc 0 8)) e0
            match v.2 with
            | .ok row => (v.1, .ok (rows ++ [(i, .ok row)]))
            | .error (.lane c j a) => (v.1, .ok (rows ++ [(i, .error (c, j, a))]))
            | .error e => (v.1, .error e)) (h.1, .ok [])

/-! ### Fetching, at the start and at every resumption (R254, R256) -/

/-- The elements of a row of `n` bytes at an offset of the region. -/
def State.blockRow (s : State) (g o n w : Nat) (nib : Bool) : List Nat :=
  let bs := Memory.bytes (s.team (teamOf g)).scratch o n
  if nib then bs.flatMap fun b => [b.toNat % 16, b.toNat / 16]
  else if w = 2 then (List.range (n / 2)).map fun k => fieldAt bs (2 * k) 2
  else bs.map (·.toNat)

/-- The row buffer after the fills. -/
def State.rowBuffer (s : State) (j : Job) : List (Nat × List Nat) :=
  let a := j.base.toNat
  let rows := fun (n w : Nat) (nib : Bool) => (lanesOf j.mask).map fun i => (i, s.blockRow j.group (a + i * n) n w nib)
  match j.instr with
  | .mmr p _ _ _ _ _ _ => rows p.rowBytes 1 p.nib
  | .mmrHold p _ _ _ _ _ _ => rows p.rowBytes 1 p.nib
  | .mmf f _ _ _ _ => rows (128 * f.bytes) f.bytes false
  | _ => []

/-- A fetch: the row buffer, or what stops it. -/
def State.fetchRows (s : State) (j : Job) (use : Bool) : State × Except WalkStop (List (Nat × List Nat)) :=
  match j.instr.lad? with
  | some x =>
    if x.mmc then
      let q := s.convRows j.group j.priv use j.desc x.pair.nib j.mask
      match q.2 with
      | .error e => (q.1, .error e)
      | .ok rows =>
        let bad := rows.filterMap fun r =>
          match r.2 with
          | .error c => some (true, c.1, c.2.1, c.2.2)
          | .ok _ => none
        match worstAt bad with
        | some (c, i, a) => (q.1, .error (.lane c i a))
        | none => (q.1, .ok (rows.filterMap fun r =>
            match r.2 with
            | .ok row => some (r.1, row)
            | .error _ => none))
    else
      match s.fillRanges j.group j.priv use j.ranges with
      | .ok t => (t, .ok (t.rowBuffer j))
      | .error e => (s, .error (.eng e))
  | none =>
    match s.fillRanges j.group j.priv use j.ranges with
    | .ok t => (t, .ok (t.rowBuffer j))
    | .error e => (s, .error (.eng e))

/-- A late cause of a matrix instruction (R263, R389). -/
def State.lateJob (s : State) (j : Job) (c : Cause) (addr : DWord) : State :=
  s.setGroup j.group ((s.group j.group).addLate j.order (lateReport c j.slot j.mask fun _ => addr))

/-- Whether an instruction reads or writes the team region as it completes. -/
def Job.touchesLast (j : Job) : Bool :=
  match j.instr with
  | .wld _ _ _ _ => true
  | .qscale _ _ _ _ => true
  | .qsave _ _ _ => true
  | _ => false

/-- Whether the home of the team region lets an instruction at its bytes (R282). -/
def State.jobOpen (s : State) (j : Job) : Bool :=
  let k := match j.instr with
    | .qsave _ _ _ => AccKind.store
    | _ => .load
  j.ranges.all fun r => s.homeOpen j.group k false (.scr (teamOf j.group) r.1) r.2

/-- The bytes that an instruction's access to the team region covers (R92): an MMC's may be anywhere there. -/
def State.jobCovers (s : State) (j : Job) : List (Nat × Nat × Nat) :=
  if j.instr.lad?.any (·.mmc) then [(1, 0, s.regionBytes (teamOf j.group))] else j.ranges.map fun r => (1, r.1, r.2)

/-- A fetch's outcome: the job goes on, waits for a fill, or takes no further step. Its reports hold the instruction's own
address form (R409). -/
def State.fetchJob (s : State) (j : Job) (use : Bool) : State :=
  let q := s.fetchRows j use
  match q.2 with
  | .ok rows => q.1.modJob j.group fun _ => some { j with started := true, rows := rows }
  | .error (.eng (.fault f)) =>
    (match (s.group j.group).freeEntry with
     | none => s
     | some e =>
       let s := s.setGroup j.group { s.group j.group with
         log := (s.group j.group).log.set e ⟨.matrix, j.slot, j.order, 1, 0, 0, j.base, s.jobCovers j⟩ }
       (s.modJob j.group fun _ => some { j with waiting := true }).addFault j.group (.data 0 e) f)
  | .error (.eng (.check pa)) => s.machineCheck (s.ctxOf j.group) pa
  | .error (.eng .wait) => s
  | .error (.eng (.cause k _ _)) => (s.dropJob j).lateJob j k j.base
  | .error .illegal => (s.dropJob j).lateJob j .illegalOperand j.base
  | .error (.lane k _ _) => (s.dropJob j).lateJob j k j.base

/-- Whether every access of the group that comes before an instruction has been performed (R254). -/
def State.earlierDone (s : State) (j : Job) : Bool :=
  ((s.group j.group).inflight.all fun a =>
    decide (j.order ≤ a.1) || !a.2.open_ || !poBefore a.2.mask a.1 j.mask j.past) &&
  !s.lagging j.group j.order j.mask j.past fun _ b => metSince b.mask b.key j.past

/-- Whether an instruction touches the team region as it runs. -/
def Job.touches (j : Job) : Bool :=
  match j.instr with
  | .qzero _ _ => false
  | .qstat _ _ => false
  | .qdrain _ _ _ _ _ _ _ => false
  | _ => true

/-- MATRIX_START: an instruction fetches what it needs, at its start and when it goes on after a castling or a fault. -/
def State.startJob (s : State) (c : Nat) : State :=
  match (s.core c).mx with
  | none => s
  | some j =>
    if j.started || j.waiting || (j.touches && !(s.earlierDone j && s.jobOpen j)) then s
    else ((s.chosen.reloadMacros j.group).fetchJob j s.choice)

/-- The group of a core's live bank whose interrupted matrix instruction goes first (R410). -/
def State.suspendedOn (s : State) (c : Nat) : Option Nat :=
  (s.bankGroups c).find? fun g => (s.group g).suspended.isSome

/-- MATRIX_RESUME. -/
def State.resumeJob (s : State) (c : Nat) : State :=
  if (s.core c).mx.isSome then s
  else
    match s.suspendedOn c with
    | none => s
    | some g =>
      match (s.group g).suspended with
      | none => s
      | some j =>
        ((s.setGroup g { s.group g with suspended := none }).setCore c { s.core c with mx := some j }).startJob c

/-! ### Steps of the ladder and of MMF -/

/-- The lanes of a mask, counted. -/
def laneCount (m : Word) : Nat := (lanesOf m).length

/-- The plane at which a ladder goes on (R262). Where the tiles of a set differ in NEXT, which R264 does not compare, the
first tile's counts for all (DESIGN CHOICE, log entry 115). -/
def Group.ladderTop (g : Group) (x : Lad) : Nat :=
  match x.set with
  | (q, _, _) :: _ => if (g.tile q).st = .empty then x.pair.top else (g.tile q).next
  | [] => x.pair.top

/-- Planes from `hi` down, `n` of them, on every tile of the set, with their charge (R258). -/
def State.ladderPlanes (s : State) (j : Job) (x : Lad) (hi n : Nat) : State :=
  let s := x.set.foldl (fun s e =>
    let g := s.group j.group
    s.setGroup j.group (g.putTile e.1
      ((g.tile e.1).ladder (s.macroOf j.group e.2.1) e.2.2 x.pair.top (planesDown hi n) j.rows))) s
  s.chargeG j.group .macros (x.c * laneCount j.mask * n)

/-- The control fields that a tile records (R251, R262). -/
def Tile.record (t : Tile) (st : TState) (op fmtp w cnt : Nat) (lowh : Bool) (next knext pos : Nat) (a m : Word) : Tile :=
  { t with st := st, op := op, fmtp := fmtp, w := w, cnt := cnt, lowh := lowh, next := next, knext := knext,
           pos := pos, addr := a, mask := m }

/-- The tiles of a ladder record where it stands. CNT is the instruction's c − 1, for S4 weights too, where the set has
2c tiles (DESIGN CHOICE, log entry 114: R251 says "count of the set minus 1"). -/
def State.recordLadder (s : State) (j : Job) (x : Lad) (st : TState) (next : Nat) : State :=
  s.setGroup j.group ((s.group j.group).modTiles (x.set.map (·.1)) fun pos t =>
    t.record st x.mmc.toNat x.pair.code x.m (x.c - 1) x.lowh next 0 pos (j.base.setWidth 32) j.mask)

/-- Flags of a group (R252). -/
def State.addFlags (s : State) (g : Nat) (f : Word) : State :=
  s.setGroup g { s.group g with flags := (s.group g).flags ||| f }

/-- The epilogue of every tile of a set, and the tiles EMPTY (R252, R262). -/
def State.finishLadder (s : State) (j : Job) (x : Lad) : State :=
  let g := s.group j.group
  let q := x.set.foldl (fun (q : Group × Word) e =>
    let r := (q.1.tile e.1).finishRows j.mask
    (q.1.putTile e.1 r.1.cleared, q.2 ||| r.2)) (g, 0)
  (s.setGroup j.group q.1).addFlags j.group (j.flags ||| q.2)

/-- The rest of a ladder. -/
def State.runLadder (s : State) (j : Job) (x : Lad) : State :=
  let hi := (s.group j.group).ladderTop x
  let s := s.ladderPlanes j x hi (hi + 1 - x.lo)
  if x.hold then s.recordLadder j x .held (x.lo - 1) else s.finishLadder j x

/-- The first k of what an MMF has left (R266). -/
def Group.mmfFrom (g : Group) (q : Nat) : Nat := if (g.tile q).st = .intr then (g.tile q).knext else 0

/-- Products of an MMF for k from `k0` to below `k1`, with their charge; the flags that they set. -/
def State.mmfSteps (s : State) (j : Job) (f : MFmt) (q m c k0 k1 : Nat) : State × Word :=
  let g := s.group j.group
  let r := (List.range c).foldl (fun (r : Group × Word) t =>
    let col := fun n => (s.macroOf j.group (mmfColumn f m t n).1).column (mmfColumn f m t n).2
    let y := (r.1.tile (q + t)).products f col k0 k1 j.rows
    (r.1.putTile (q + t) y.1, r.2 ||| y.2)) (g, 0)
  ((s.setGroup j.group r.1).chargeG j.group .macros ((k1 - k0) / 8 * (c * f.perTile) * laneCount j.mask), r.2)

/-- The rest of an MMF. -/
def State.runMmf (s : State) (j : Job) (f : MFmt) (q m c : Nat) : State :=
  let r := s.mmfSteps j f q m c ((s.group j.group).mmfFrom q) 128
  (r.1.clearTiles j.group j.instr.tileSet).addFlags j.group (j.flags ||| r.2)

/-! ### Scales, images, QSTAT -/

/-- A BF16 value widened: a NaN becomes canonical (R268). -/
def widenBf16 (n : Nat) : Word :=
  let w := BitVec.ofNat 32 (n * 65536)
  if isNan32 w then BitVec.ofNat 32 FFmt.fp32.nan else w

/-- The values that a QSCALE reads. NaNs become canonical in widening alone: FP32 values are loaded as they are (DESIGN
CHOICE, log entry 138: R268 names the two in one sentence). -/
def State.scales (s : State) (j : Job) (bf : Bool) (n : Nat) : List Word :=
  let bs := Memory.bytes (s.team (teamOf j.group)).scratch j.base.toNat (n * if bf then 2 else 4)
  (List.range n).map fun k => if bf then widenBf16 (fieldAt bs (2 * k) 2) else BitVec.ofNat 32 (fieldAt bs (4 * k) 4)

/-- QSCALE's effect. -/
def Tile.scale (t : Tile) (k : ScaleT) (xs : List Word) : Tile :=
  match k with
  | .row => { t with rs := xs }
  | .col => { t with cs0 := xs, g64 := false }
  | .colG64 => { t with cs0 := xs.take 64, cs1 := xs.drop 64, g64 := true }

/-- The group once a QSTAT has written its destination (R269). -/
def Group.stat (g : Group) (j : Job) (q : Nat) : Group :=
  match j.dest with
  | some d => (g.commit j.mask d .uniform (Lanes.splat (g.tile q).qctl)).1
  | none => g

/-- QSTAT's effect. -/
def State.putStat (s : State) (j : Job) (q : Nat) : State :=
  (s.setGroup j.group ((s.group j.group).stat j q)).served s j.group

/-- Why a QSTAT's destination is not written now (R174, R180). -/
def State.statStop (s : State) (j : Job) : Option (Option Nat) :=
  match j.instr with
  | .qstat _ q => s.commitStop j.group ((s.group j.group).stat j q) j.dest.toList
  | _ => none

/-! ### QDRAIN (R270, R271) -/

/-- The element that stands for a row: the first with its worst cause, or with a fault, or the first. -/
def rowStands (es : List (Nat × Nat × DWord × LaneRes)) : Option (DWord × LaneRes) :=
  (es.foldl (fun (w : Option (DWord × LaneRes)) e =>
    match w with
    | none => some (e.2.2.1, e.2.2.2)
    | some b =>
      match e.2.2.2.cause, b.2.cause with
      | some c, some k => if c.rank < k.rank then some (e.2.2.1, e.2.2.2) else some b
      | some _, none => some (e.2.2.1, e.2.2.2)
      | none, _ => some b) none)

/-- The pair that a drain takes from a tile, with the flags of a HELD tile's epilogue. -/
def Tile.drained (t : Tile) (i n : Nat) : Pair × Word := if t.st = .held then t.epilogue i n else (t.pair i n, 0)

/-- The stored bits of an element and its flags. -/
def Group.drainValue (g : Group) (j : Job) (d : Drain) (i k n : Nat) : Nat × Word :=
  let x := (g.tile (d.q + k)).drained i n
  let ix := j.slot % 2 ^ 32 * 2 ^ 16 + 512 * i + 64 * k + n
  let r := drainBits d.fmt ((Ctx.ofRegs j.rmode j.fmt ix).select d.rsel) x.1
  (r.1, x.2 ||| r.2)

/-- The parts of a row's stores. -/
def Group.drainParts (g : Group) (j : Job) (d : Drain) (logged : Bool) (i : Nat)
    (es : List (Nat × Nat × DWord × LaneRes)) : List Part :=
  es.map fun e =>
    let v := (g.drainValue j d i e.1 e.2.1).1
    let p : Part :=
      { lane := i, sub := 0, addr := e.2.2.1, loc := .priv 0, size := d.fmt.bytes, data := v, cmp := 0,
        performed := false, back := false, value := 0, logged := logged, dropped := false, rm := false,
        prop01 := false }
    match logged, e.2.2.2 with
    | false, .ok t =>
      (match t.pieces with
       | (_, _, l) :: _ => { p with loc := l, rm := t.rm, prop01 := t.prop01 }
       | [] => p)
    | _, _ => p

/-- The rows of a drained tile set to (+0, +0) (R270). -/
def Tile.zeroRows (t : Tile) (m : Word) : Tile :=
  { t with pairs := elements fun i n => if laneIn m i then ⟨0, 0⟩ else t.pair i n }

/-- The fault of a row: its first faulting element's. -/
def rowFault (es : List (Nat × Nat × DWord × LaneRes)) : Option FaultInfo :=
  es.findSome? fun e =>
    match e.2.2.2 with
    | .fault f _ => some f
    | _ => none

/-- Whether a row's stores may not be made: it has a cause other than a fault. -/
def rowCause (es : List (Nat × Nat × DWord × LaneRes)) : Option (Cause × DWord) :=
  match rowStands es with
  | some (a, .bad c _) => some (c, a)
  | _ => none

/-- QDRAIN's completion: its stores go out at its place in program order; a faulting row waits whole in the
log; a row whose addresses have come to have another cause stores nothing and reports it late. -/
def State.runDrain (s : State) (j : Job) (d : Drain) (use : Bool) : State :=
  let g := j.group
  let rows := (lanesOf j.mask).map fun i => (i, s.drainRow g d j.priv use i)
  let all := rows.flatMap fun r => r.2.map fun e => e.2.2.2
  let faulted := rows.filter fun r => (rowCause r.2).isNone && (rowFault r.2).isSome
  let entry := if faulted.isEmpty then none else (s.group g).freeEntry
  match checkedPa (all.map fun r => (0, r)) with
  | some pa => s.machineCheck (s.ctxOf g) pa
  | none =>
    if all.contains .away || (!faulted.isEmpty && entry.isNone) then s
    else
      let gr := s.group g
      let s := all.foldl (fun s r =>
        match r with
        | .ok t => s.leaveTarget t
        | .fault _ tr => s.leaveWalk tr
        | _ => s) s
      let fl := (lanesOf j.mask).foldl (fun f i => (List.range d.c).foldl (fun f k => (List.range 64).foldl (fun f n =>
        f ||| (gr.drainValue j d i k n).2) f) f) j.flags
      let parts := rows.flatMap fun r =>
        if (rowCause r.2).isSome then []
        else gr.drainParts j d (rowFault r.2).isSome r.1 r.2
      let fm := faulted.foldl (fun (m : Word) r => m ||| ((1 : Word) <<< r.1)) 0
      let a : Access :=
        { kind := .store, slot := j.slot, mask := j.mask, width := d.fmt.width, form := .gen, uni := false,
          dest := none, zeroMask := 0, held := none, acq := none, rel := none, arrived := false, late := 0,
          ended := 0, priv := j.priv, family := false, olds := [], past := j.past, entry := entry,
          issued := s.ticks (s.dieOf g), parts := parts }
      let s := s.modJob g fun _ => none
      let gr := s.group g
      let gr := { gr with
        inflight := gr.inflight.set j.order a
        log := match entry with
          | some e => gr.log.set e ⟨.access j.order, j.slot, j.order, fm, 0, 0, 0, []⟩
          | none => gr.log }
      let gr := if d.z then gr.modTiles ((List.range d.c).map (d.q + ·)) fun _ t => t.zeroRows j.mask else gr
      let s := (s.setGroup g gr).addFlags g fl
      let s := rows.foldl (fun s r =>
        match rowCause r.2 with
        | some (c, x) => s.setGroup g ((s.group g).addLate j.order
            (lateReport c j.slot ((1 : Word) <<< r.1) fun _ => x))
        | none => s) s
      let s := match entry with
        | some e => faulted.foldl (fun (s : State) (r : Nat × List (Nat × Nat × DWord × LaneRes)) =>
            match rowFault r.2 with
            | some f => s.addFault g (.data r.1 e) f
            | none => s) s
        | none => s
      s.chargeG g .matbytes ((rows.filter fun r => (rowCause r.2).isNone).length * d.c * 64 * d.fmt.bytes)

/-! ### Completion -/

/-- Writes an image into the team region; the mapped lines that it touches become DIRTY (R113). -/
def State.writeImage (s : State) (g o : Nat) (bs : List Byte) : State :=
  (lineStarts o bs.length).foldl (fun s x =>
    let n := min (x / 128 * 128 + 128) (o + bs.length) - x
    s.writeScr (teamOf g) x ((bs.drop (x - o)).take n)) s

/-- What an instruction other than a drain does as it completes. -/
def State.finishJob (s : State) (j : Job) : State :=
  let g := j.group
  match j.instr with
  | .wld tag m _ c =>
    ((List.range c).foldl (fun s k => s.loadMacro g (m + k) tag (j.base.toNat + 8192 * k)) s).chargeG g .matbytes
      (8192 * c)
  | .mmf f q m c _ => s.runMmf j f q m c
  | .qzero q c => s.setGroup g ((s.group g).modTiles ((List.range c).map (q + ·)) fun _ _ => Tile.initial)
  | .qscale bf t q _ => s.setGroup g ((s.group g).modTiles [q] fun _ x => x.scale t (s.scales j bf t.count))
  | .qsave _ q c =>
    ((List.range c).foldl (fun s k =>
      s.writeImage g (j.base.toNat + imageBytes * k) ((s.group g).tile (q + k)).image) s).chargeG g .matbytes
      (imageBytes * c)
  | .qload _ q c =>
    (s.setGroup g ((s.group g).modTiles ((List.range c).map (q + ·)) fun k t =>
      (tileOfImage ((j.desc.drop (imageBytes * k)).take imageBytes)).getD t)).chargeG g .matbytes (imageBytes * c)
  | .qstat _ q => s.putStat j q
  | i =>
    match i.lad? with
    | some x => s.runLadder j x
    | none => s

/-- MATRIX_COMPLETE. -/
def State.completeJob (s : State) (c : Nat) : State :=
  match (s.core c).mx with
  | none => s
  | some j =>
    if !j.started || j.waiting || (j.touchesLast && !s.jobOpen j) then s
    else
      match j.drain?, s.statStop j with
      | some d, _ => s.chosen.runDrain j d s.choice
      | none, some n => s.awaitRoom j.group n
      | none, none => (s.finishJob j).modJob j.group fun _ => none

/-! ### Stopping at a point (R257, R410) -/

/-- A started ladder stops after `n` more planes, or completes where its epilogue has begun. -/
def State.stopLadder (s : State) (j : Job) (x : Lad) (n : Nat) : State × Option Job :=
  let hi := (s.group j.group).ladderTop x
  let left := hi + 1 - x.lo
  if left ≤ n then (s.runLadder j x, none)
  else
    let s := s.ladderPlanes j x hi n
    (s.recordLadder j x .intr (hi - n), some { j with started := false, resume := true, rows := [] })

/-- A started MMF stops after `n` more runs of 16 values of k. -/
def State.stopMmf (s : State) (j : Job) (f : MFmt) (q m c n : Nat) : State × Option Job :=
  let k0 := (s.group j.group).mmfFrom q
  if 128 ≤ k0 + 16 * n then (s.runMmf j f q m c, none)
  else
    let r := s.mmfSteps j f q m c k0 (k0 + 16 * n)
    let s := r.1.setGroup j.group ((r.1.group j.group).modTiles j.instr.tileSet fun pos t =>
      t.record .intr 2 f.code m (c - 1) false 0 (k0 + 16 * n) pos (j.base.setWidth 32) j.mask)
    (s, some { j with started := false, resume := true, rows := [], flags := j.flags ||| r.2 })

/-- A castling takes the core's matrix instruction out of MX after `n` more planes (or runs of 16 values of
k): the others restart, and QZERO, QSCALE and QSTAT run to their end (a QSTAT that finds no room for its destination
restarts: it has changed nothing). -/
def State.stopJob (s : State) (c n : Nat) : State :=
  match (s.core c).mx with
  | none => s
  | some j =>
    let park := fun (t : State) (j : Job) =>
      (t.setCore c { t.core c with mx := none }).setGroup j.group { t.group j.group with suspended := some j }
    if !j.started || j.waiting then park s j
    else
      let r := match j.instr with
        | .mmf f q m k _ => s.stopMmf j f q m k n
        | .qzero _ _ => (s.finishJob j, none)
        | .qscale _ _ _ _ => (s.finishJob j, none)
        | .qstat _ _ => if (s.statStop j).isSome then (s, some { j with started := false }) else (s.finishJob j, none)
        | i =>
          match i.lad? with
          | some x => s.stopLadder j x n
          | none => (s, some { j with started := false })
      match r.2 with
      | some j => park r.1 j
      | none => r.1.setCore c { r.1.core c with mx := none }

/-! ### Meanings of the events: the core is the state's `site` -/

/-- MATRIX_START (R253, R254, R256). -/
def execMatrixStart (s : State) : Host.Outcome State Fault Refusal := .next (s.startJob s.site)

/-- MATRIX_RESUME (R254, R255, R257, R410). -/
def execMatrixResume (s : State) : Host.Outcome State Fault Refusal := .next (s.resumeJob s.site)

/-- MATRIX_COMPLETE (R252, R258, R262, R266 to R273). -/
def execMatrixComplete (s : State) : Host.Outcome State Fault Refusal := .next (s.completeJob s.site)

end Sys2Proof.Machine
end

