-- ==== Sys2Proof/Machine/MatrixIssue.lean ====
section
/-! DEFINITION. The matrix instructions as they issue to MX (R245, R259 to R273): their checks, and the job
that MX keeps. One waits to issue until the core's earlier matrix instructions are complete, so that its
checks see the tiles and macros that it will act on (log entry 40). -/

namespace Sys2Proof.Machine

open Sys2Proof

/-! ### Checks -/

/-- Whether an instruction that waits for a fill as it issues holds a core's MX, other than the executing one (R256). -/
def State.fillHolds (s : State) (c : Nat) : Bool :=
  (s.bankGroups c).any fun g => (s.group g).splits.any fun x =>
    match x.wait with
    | some (.fill _) => decide (g ≠ s.cur.group) || decide (x.num ≠ s.cur.split)
    | _ => false

/-- Whether MX can take an instruction: it holds none, and none of the live bank's groups has one to resume
(R253, R410). -/
def State.mxFree (s : State) : Bool :=
  let c := s.coreOf s.cur.group
  (s.core c).mx.isNone && (s.suspendedOn c).isNone && !s.fillHolds c

/-- Tiles of the group's allotment (R245). -/
def State.tilesOk (s : State) (q c : Nat) : Bool := decide (q + c ≤ (s.descOf s.cur.group).accum)

/-- Macros of the team's allotment (R245). -/
def State.macrosOk (s : State) (m c : Nat) : Bool := decide (m + c ≤ (s.descOf s.cur.group).macros)

/-- The cause of a run of `n` bytes at a local address, aligned to `al` (R109, R122). -/
def State.localCause (s : State) (a n al : Nat) : LaneRes :=
  if 2 ^ 22 ≤ a then .bad .spaceInvalid 0
  else
    match worstOf [(decide (s.regionBytes (teamOf s.cur.group) < a + n), .permission), (decide (a % al ≠ 0), .misaligned)] with
    | some c => .bad c 0
    | none => .away

/-- The lanes' causes at a local address, or the plan that follows. -/
def State.localChecks (s : State) (a : DWord) (rs : List (Nat × LaneRes)) (k : Except Stop (State → State)) :
    Except Stop (State → State) :=
  match winningCause rs with
  | some c => .error (.raise (laneReport c rs (fun _ => a) s.mask))
  | none => k

/-- One run of bytes for the whole instruction. -/
def State.wholeChecks (s : State) (a : DWord) (n al : Nat) (k : Except Stop (State → State)) :
    Except Stop (State → State) :=
  s.localChecks a ((lanesOf s.mask).map fun i => (i, s.localCause a.toNat n al)) k

/-- One row for each lane. -/
def State.rowChecks (s : State) (a : DWord) (n : Nat) (k : Except Stop (State → State)) :
    Except Stop (State → State) :=
  s.localChecks a ((lanesOf s.mask).map fun i =>
    (i, if 2 ^ 22 ≤ a.toNat then .bad .spaceInvalid 0
        else
          match worstOf [(decide (s.regionBytes (teamOf s.cur.group) < a.toNat + (i + 1) * n), .permission),
              (decide (a.toNat % 64 ≠ 0), .misaligned)] with
          | some c => .bad c 0
          | none => .away)) k

/-! ### The job -/

/-- The job of an instruction. -/
def State.newJob (s : State) (i : Instr) (base : DWord) : Job :=
  { group := s.cur.group, order := s.accKey, past := s.g.past s.mask, instr := i, slot := s.cur.slot, mask := s.mask,
    rmode := s.sp.rmode, fmt := s.sp.fmt, base := base, stride := 0, priv := s.priv, dest := none, desc := [],
    rows := [], flags := 0, started := false, resume := false, waiting := false }

/-- Gives a job to MX. -/
def giveJob (j : Job) : Except Stop (State → State) :=
  .ok fun t =>
    let c := t.coreOf j.group
    t.setCore c { t.core c with mx := some j }

/-- The local base address of an instruction. -/
def State.localBase (s : State) (a : Src) : DWord := (s.rd a).u.setWidth 64

/-- Why an instruction's own reads as it issues do not go on: `a` is its address (R409), `covers` what it reads (R92). -/
def State.engStop (s : State) (a : DWord) (covers : List (Nat × Nat × Nat)) (e : EngStop) : Except Stop (State → State) :=
  let g := s.cur.group
  match e with
  | .cause c i _ => .error (.raise (s.uniReport c a i))
  | .check pa => .ok fun t => t.machineCheck (t.ctxOf g) pa
  | .wait => .error .stall
  | .fault f =>
    match s.g.freeEntry with
    | none => .error .full
    | some e => .error (.act fun t => t.waitLogged e f a covers (.fill e))

/-- Reads bytes of the team region as an instruction issues: after every earlier access of its group, its
mapped lines filled. -/
def State.openRange (s : State) (o n : Nat) (k : State → List Byte → Except Stop (State → State)) :
    Except Stop (State → State) :=
  let g := s.cur.group
  if !s.settled g || !s.homeOpen g .load false (.scr (teamOf g) o) n then .error .stall
  else
    match s.fillRange g o n s.priv s.choice with
    | .error e => s.engStop (BitVec.ofNat 64 o) [(1, o, n)] e
    | .ok t => k t (Memory.bytes (t.team (teamOf g)).scratch o n)

/-! ### MMR and MMC (R260 to R265) -/

/-- Whether every tile of a set is EMPTY. -/
def Group.allEmpty (g : Group) (x : Lad) : Bool := x.set.all fun e => decide ((g.tile e.1).st = .empty)

/-- Whether an instruction continues what a set's tiles record (R264). An address operand that is not uniform has no
one value to compare (`a` is none). -/
def Group.continues (g : Group) (x : Lad) (a : Option Word) (m : Word) : Bool :=
  x.set.zipIdx.all fun e =>
    let t := g.tile e.1.1
    decide (t.st ≠ .empty) && decide (t.op = x.mmc.toNat) && decide (t.fmtp = x.pair.code) && decide (t.w = x.m) &&
    decide (t.cnt = x.c - 1) && decide (t.lowh = x.lowh) && decide (t.pos = e.2) && a.all (fun a => decide (t.addr = a)) &&
    decide (t.mask = m) && decide (x.lo ≤ t.next)

/-- The breaches of R245, R260 and R264. An address operand that is not uniform raises SHAPE_MISMATCH, after the other
breaches (R171, R382). -/
def State.badLadder (s : State) (x : Lad) (a : Src) : Bool :=
  let g := s.cur.group
  !(s.macrosOk x.m x.c) ||
  !(x.set.all fun e => s.tilesOk e.1 1 && decide ((s.macroOf g e.2.1).tag = x.pair.tag)) ||
  !(s.g.allEmpty x || s.g.continues x (if s.isUniform a.spec then some (s.rd a).u else none) s.mask)

/-- An MMR's plan. -/
def mmrPlan (i : Instr) (x : Lad) (a : Src) : Plan := fun s =>
  let b := s.localBase a
  if !s.mxFree then .error .stall
  else if s.badLadder x a then s.stop .illegalOperand
  else s.rowChecks b x.pair.rowBytes (giveJob (s.newJob i b))

/-- An MMC's plan: the descriptor is read as it issues, and its record, tables and elements are checked. -/
def mmcPlan (i : Instr) (x : Lad) (a : Src) : Plan := fun s =>
  let b := s.localBase a
  s.afterFault (
  if !s.mxFree then .error .stall
  else if s.badLadder x a then s.stop .illegalOperand
  else s.wholeChecks b 32 16 (s.openRange b.toNat 32 fun t desc =>
    let q := t.convRows s.cur.group s.priv s.choice desc x.pair.nib s.mask
    match q.2 with
    | .error .illegal => s.stop .illegalOperand
    | .error (.eng (.cause _ _ _)) => s.stop .illegalOperand
    | .error (.eng e) => s.engStop b [(1, 0, s.regionBytes (teamOf s.cur.group))] e
    | .error (.lane c k _) => .error (.raise (s.uniReport c b k))
    | .ok rows =>
      let rs := rows.map fun r =>
        match r.2 with
        | .error c => (r.1, LaneRes.bad c.1 c.2.1)
        | .ok _ => (r.1, LaneRes.away)
      match winningCause rs with
      | some c => .error (.raise (laneReport c rs (fun _ => b) s.mask))
      | none =>
        let j := { s.newJob i b with desc := desc }
        .ok fun u =>
          let v := (u.convRows j.group j.priv u.choice desc x.pair.nib j.mask).1
          v.setCore (v.coreOf j.group) { v.core (v.coreOf j.group) with mx := some j }))

/-! ### QDRAIN at issue (R271) -/

/-- QDRAIN's plan. -/
def drainPlan (i : Instr) (f : DFmt) (r : RSel) (z : Bool) (a : Src) (q c sv : Nat) : Plan := fun s =>
  let g := s.cur.group
  let base := s.rdPair a 0
  let stride := (s.rdv sv).u
  let d : Drain := ⟨f, r, z, q, c, base, stride⟩
  if !s.mxFree then .error .stall
  else if !(s.tilesOk q c) || (z && (List.range c).any fun k => decide ((s.g.tile (q + k)).st ≠ .empty)) then
    s.stop .illegalOperand
  else
    let rows := (lanesOf s.mask).map fun i => (i, s.drainRow g d s.priv s.choice i)
    let all := rows.flatMap fun r => r.2.map fun e => e.2.2.2
    let rs := rows.map fun r =>
      match rowStands r.2 with
      | some x => (r.1, x.2)
      | none => (r.1, LaneRes.away)
    let at_ := fun n =>
      match (rows.find? fun r => r.1 == n).bind fun r => rowStands r.2 with
      | some x => x.1
      | none => base
    match winningCause rs with
    | some k => .error (.raise (laneReport k rs at_ s.mask))
    | none =>
      match checkedPa (all.map fun r => (0, r)) with
      | some pa => .ok fun t => t.machineCheck (t.ctxOf g) pa
      | none =>
        if all.contains .away || (rows.any fun r => r.2.any fun e => s.g.logClash .gen e.2.2.1 f.bytes) then .error .stall
        else if (all.any fun r => decide (r.cause ≠ none)) && s.g.freeEntry.isNone then .error .full
        else giveJob { s.newJob i base with stride := stride }

/-! ### Meanings -/

/-- WLD (R259). -/
def planWld (tag : WTag) (m : Nat) (a : Src) (c : Nat) : Plan := fun s =>
  let b := s.localBase a
  if !s.mxFree then .error .stall
  else if !(s.macrosOk m c) then s.stop .illegalOperand
  else s.wholeChecks b (8192 * c) 16 (giveJob (s.newJob (.wld tag m a c) b))
def execWld (tag : WTag) (m : Nat) (a : Src) (c : Nat) (s : State) : Host.Outcome State Fault Refusal :=
  issue (.wld tag m a c) (planWld tag m a c) s

/-- MMR (R260 to R262). -/
def planMmr (p : MPair) (lowh : Bool) (q m c : Nat) (a : Src) (lo : Nat) : Plan :=
  mmrPlan (.mmr p lowh q m c a lo) ⟨p, lowh, false, false, q, m, c, lo⟩ a
def execMmr (p : MPair) (lowh : Bool) (q m c : Nat) (a : Src) (lo : Nat) (s : State) : Host.Outcome State Fault Refusal :=
  issue (.mmr p lowh q m c a lo) (planMmr p lowh q m c a lo) s

/-- MMR.hold (R260 to R262). -/
def planMmrHold (p : MPair) (lowh : Bool) (q m c : Nat) (a : Src) (lo : Nat) : Plan :=
  mmrPlan (.mmrHold p lowh q m c a lo) ⟨p, lowh, true, false, q, m, c, lo⟩ a
def execMmrHold (p : MPair) (lowh : Bool) (q m c : Nat) (a : Src) (lo : Nat) (s : State) :
    Host.Outcome State Fault Refusal :=
  issue (.mmrHold p lowh q m c a lo) (planMmrHold p lowh q m c a lo) s

/-- MMC (R260 to R263). -/
def planMmc (p : MPair) (lowh : Bool) (q m c : Nat) (a : Src) (lo : Nat) : Plan :=
  mmcPlan (.mmc p lowh q m c a lo) ⟨p, lowh, false, true, q, m, c, lo⟩ a
def execMmc (p : MPair) (lowh : Bool) (q m c : Nat) (a : Src) (lo : Nat) (s : State) : Host.Outcome State Fault Refusal :=
  issue (.mmc p lowh q m c a lo) (planMmc p lowh q m c a lo) s

/-- MMC.hold (R260 to R263). -/
def planMmcHold (p : MPair) (lowh : Bool) (q m c : Nat) (a : Src) (lo : Nat) : Plan :=
  mmcPlan (.mmcHold p lowh q m c a lo) ⟨p, lowh, true, true, q, m, c, lo⟩ a
def execMmcHold (p : MPair) (lowh : Bool) (q m c : Nat) (a : Src) (lo : Nat) (s : State) :
    Host.Outcome State Fault Refusal :=
  issue (.mmcHold p lowh q m c a lo) (planMmcHold p lowh q m c a lo) s

/-- MMF (R266). -/
def planMmf (f : MFmt) (q m c : Nat) (a : Src) : Plan := fun s =>
  let b := s.localBase a
  let g := s.cur.group
  let n := c * f.perTile
  if !s.mxFree then .error .stall
  else if !(s.macrosOk m n) || !(s.tilesOk q c) ||
      ((List.range n).any fun k => decide ((s.macroOf g (m + k)).tag ≠ f.tag)) ||
      ((List.range c).any fun k => decide ((s.g.tile (q + k)).st ≠ .empty)) then s.stop .illegalOperand
  else s.rowChecks b (128 * f.bytes) (giveJob (s.newJob (.mmf f q m c a) b))
def execMmf (f : MFmt) (q m c : Nat) (a : Src) (s : State) : Host.Outcome State Fault Refusal :=
  issue (.mmf f q m c a) (planMmf f q m c a) s

/-- QZERO (R267). -/
def planQzero (q c : Nat) : Plan := fun s =>
  if !s.mxFree then .error .stall
  else if !(s.tilesOk q c) then s.stop .illegalOperand
  else giveJob (s.newJob (.qzero q c) 0)
def execQzero (q c : Nat) (s : State) : Host.Outcome State Fault Refusal := issue (.qzero q c) (planQzero q c) s

/-- QDRAIN (R270, R271). -/
def planQdrain (f : DFmt) (r : RSel) (z : Bool) (a : Src) (q c sv : Nat) : Plan :=
  drainPlan (.qdrain f r z a q c sv) f r z a q c sv
def execQdrain (f : DFmt) (r : RSel) (z : Bool) (a : Src) (q c sv : Nat) (s : State) : Host.Outcome State Fault Refusal :=
  issue (.qdrain f r z a q c sv) (planQdrain f r z a q c sv) s

/-- QSCALE (R268). -/
def planQscale (bf16 : Bool) (t : ScaleT) (q : Nat) (a : Src) : Plan := fun s =>
  let b := s.localBase a
  let w := if bf16 then 2 else 4
  if !s.mxFree then .error .stall
  else if !(s.tilesOk q 1) then s.stop .illegalOperand
  else s.wholeChecks b (t.count * w) w (giveJob (s.newJob (.qscale bf16 t q a) b))
def execQscale (bf16 : Bool) (t : ScaleT) (q : Nat) (a : Src) (s : State) : Host.Outcome State Fault Refusal :=
  issue (.qscale bf16 t q a) (planQscale bf16 t q a) s

/-- QSAVE (R272, R273). -/
def planQsave (a : Src) (q c : Nat) : Plan := fun s =>
  let b := s.localBase a
  if !s.mxFree then .error .stall
  else if !(s.tilesOk q c) then s.stop .illegalOperand
  else s.wholeChecks b (imageBytes * c) 64 (giveJob (s.newJob (.qsave a q c) b))
def execQsave (a : Src) (q c : Nat) (s : State) : Host.Outcome State Fault Refusal :=
  issue (.qsave a q c) (planQsave a q c) s

/-- QLOAD (R272, R273): every image is checked before any tile changes. -/
def planQload (a : Src) (q c : Nat) : Plan := fun s =>
  let b := s.localBase a
  s.afterFault (
  if !s.mxFree then .error .stall
  else if !(s.tilesOk q c) then s.stop .illegalOperand
  else s.wholeChecks b (imageBytes * c) 64 (s.openRange b.toNat (imageBytes * c) fun _ bs =>
    if (List.range c).any fun k => (tileOfImage ((bs.drop (imageBytes * k)).take imageBytes)).isNone then
      s.stop .illegalOperand
    else
      let j := { s.newJob (.qload a q c) b with desc := bs }
      .ok fun u =>
        let v := match u.fillRange j.group b.toNat (imageBytes * c) j.priv u.choice with
          | .ok v => v
          | .error _ => u
        v.setCore (v.coreOf j.group) { v.core (v.coreOf j.group) with mx := some j }))
def execQload (a : Src) (q c : Nat) (s : State) : Host.Outcome State Fault Refusal :=
  issue (.qload a q c) (planQload a q c) s

/-- QSTAT (R269). -/
def planQstat (d : Dst) (q : Nat) : Plan := fun s =>
  if !s.mxFree then .error .stall
  else if !(s.tilesOk q 1) then s.stop .illegalOperand
  else
    let j := { s.newJob (.qstat d q) 0 with dest := some d }
    .ok fun t =>
      let u := t.modG fun g => g.reserve (some d) .w32 (decide (j.mask = fullMask))
      u.setCore (u.coreOf j.group) { u.core (u.coreOf j.group) with mx := some j }
def execQstat (d : Dst) (q : Nat) (s : State) : Host.Outcome State Fault Refusal :=
  issue (.qstat d q) (planQstat d q) s

end Sys2Proof.Machine
end

