-- ==== Sys2Proof/Machine/Versions.lean ====
section
/-! DEFINITION. Result objects (R354 to R377): the version instructions, the commit of a pass, and the end of
a producer's launch. -/

namespace Sys2Proof.Machine

open Sys2Proof

/-! ### Records -/

/-- The fields of a record (R354), STATUS apart. -/
structure VRec where
  st : Status
  pass : Nat
  slotb : Nat
  openPass : Nat
  pins : List Nat
  deriving DecidableEq, Repr

/-- A record at its home. -/
def State.vrec (s : State) (pa : Nat) : VRec :=
  { st := s.status pa, pass := Memory.read s.mem (pa + 4) 4, slotb := Memory.read s.mem (pa + 0x18) 4,
    openPass := Memory.read s.mem (pa + 0x28) 4,
    pins := (List.range 4).map fun j => Memory.read s.mem (pa + 0x30 + 4 * j) 4 }

/-- Slots of the object. -/
def VRec.slots (r : VRec) : Nat := 2 + r.st.nslotm

/-- The lowest free slot (R358). -/
def VRec.freeSlot (r : VRec) : Option Nat :=
  (List.range r.slots).find? fun j => decide (r.pins.getD j 0 = 0) && (decide (r.pass = 0) || decide (j ≠ r.st.sslot))

/-- Whether the version qualifies (R362): `early` is the minimum of a read-early handle. -/
def VRec.qualifies (r : VRec) (early : Option Nat) (q : Nat) : Bool :=
  match r.st.st with
  | 2 => true
  | 3 => true
  | 1 =>
    (match early with
     | some m => decide (max q m ≤ r.st.quality)
     | none => false)
  | _ => false

/-- The version status word (R369). -/
def VRec.vsw (r : VRec) (timeout pinned : Bool) : Word :=
  BitVec.ofNat 32 (r.st.quality * 65536 + timeout.toNat * 128 + pinned.toNat * 64 + r.st.sslot * 16 + r.st.st)

/-- Writes words of a record in one update (R355). -/
def State.putWords (s : State) (pa : Nat) (ws : List (Nat × Nat × Nat)) : State :=
  { s.sweep [pa] with mem := ws.foldl (fun m w => Memory.write m (pa + w.1) w.2.1 w.2.2) s.mem }

/-- Opens a pass in a slot (R358). -/
def State.openPass (s : State) (pa k slot : Nat) : State :=
  let x := { s.status pa with opn := true, wslot := slot }
  s.putWords pa [(0, 4, x.toNat), (0x28, 4, k)]

/-- Commits the open pass (R359). -/
def State.commitPass (s : State) (pa q : Nat) (final : Bool) : State :=
  let r := s.vrec pa
  let x := { r.st with quality := q, sslot := r.st.wslot, opn := false, wslot := 0, st := if final then 2 else 1 }
  s.putWords pa [(0, 4, x.toNat), (4, 4, r.openPass), (8, 8, (s.homeTime pa).toNat), (0x28, 4, 0)]

/-- Changes a pin count. -/
def State.pinCount (s : State) (pa slot : Nat) (f : Nat → Nat) : State :=
  s.putWords pa [(0x30 + 4 * slot, 4, f (Memory.read s.mem (pa + 0x30 + 4 * slot) 4) % 2 ^ 32)]

/-! ### Reaching a record (R357, R368) -/

/-- The executing group's handle. -/
def State.handle (s : State) (h : Nat) : Handle := (s.descOf s.cur.group).handles.getD h .undeclared

/-- Its record's address. -/
def State.handleAddr (s : State) (h : Nat) : DWord := (s.descOf s.cur.group).hrec.getD h 0

/-- Whether a handle is produced. -/
def Handle.produces : Handle → Bool
  | .produced _ _ => true
  | _ => false

/-- Whether a handle is read. -/
def Handle.reads : Handle → Bool
  | .final => true
  | .early _ => true
  | _ => false

/-- The minimum quality of a read handle (R362): none for a read-final one. -/
def Handle.minimum : Handle → Option Nat
  | .early m => some m
  | _ => none

/-- A version instruction's way to its record: its causes, its faults, what it waits for (R92, R280), and what it does
there. -/
def State.withRecord (s : State) (h : Nat) (k : XKind) (ops : List DWord) (cont : Nat → Except Stop (State → State)) :
    Except Stop (State → State) :=
  let g := s.cur.group
  let a := s.handleAddr h
  let w : Want := ⟨0, a, 128, k, .gen, false, false, true⟩
  let q := s.translate (s.coreOf g) (s.ctx (s.ctxOf g)) (a.toNat % 2 ^ 57) k s.priv s.choice
  let denied := match q.1 with
    | .permission => true
    | .ok pa _ _ => !isHbm pa || s.denied g pa w s.priv
    | _ => false
  s.afterFault (
    match worstAt [(decide (windowOf a ≠ .glob), .spaceInvalid, 0, a), (decide (a.toNat % 128 ≠ 0), .misaligned, 0, a),
        (decide (windowOf a = .glob) && denied, .permission, 0, a)] with
    | some c => .error (.raise { s.uniReport c.1 c.2.2 c.2.1 with walked := q.2.walked })
    | none =>
      match q.1 with
      | .ok pa _ _ =>
        let here : Target := ⟨[(0, 128, .phys pa)], q.2, [], false, false⟩
        if s.failed (pa / 128) then .ok fun t => t.machineCheck (t.ctxOf g) pa
        else if s.g.logClash .gen a 128 || !s.clearOf k here then .error .stall
        else
          match cont pa with
          | .ok f => .ok fun t => f ((t.noteOwn k here).chosen.leave q.2)
          | .error e => .error e
      | .check pa => .ok fun t => t.machineCheck (t.ctxOf g) pa
      | x =>
        match faultOf a.toNat a k.code 128 x, s.g.freeEntry with
        | some f, some e => .error (.act fun t => (t.leaveWalk q.2).waitLogged e f a [(0, a.toNat, 128)] (.record e ops))
        | some _, none => .error .full
        | none, _ => s.raiseAt (.permission, 0, a))

/-! ### Passes (R358, R359) -/

/-- What VBEGIN decides. -/
inductive Begin where
  | order
  | join
  | wait
  | opens (slot : Nat)
  deriving DecidableEq, Repr

/-- VBEGIN's decision (R358). -/
def VRec.begin (r : VRec) (k : Nat) : Begin :=
  if r.st.st = 2 ∨ k ≤ r.pass then .order
  else if r.st.opn then
    if k = r.openPass then .join else if k < r.openPass then .order else .wait
  else
    match r.freeSlot with
    | some j => .opens j
    | none => .wait

/-- A seal is recorded with its launch, and the group has sealed the pass (R359, R360). A launch that has been cut, by
the seal's own charge even, accepts no arrival (R365). -/
def State.recordSeal (s : State) (g h : Nat) (k : Word) (q : Nat) (final : Bool) : State :=
  let l := launchOf g
  let x := s.launch l
  if x.cut.isSome || x.ended then s
  else
    let s := s.setLaunch l { x with seals := x.seals ++ [⟨h, g, q, final, s.accKey, s.mask, s.g.past s.mask⟩] }
    s.setGroup g { s.group g with sealed := (s.group g).sealed.set h k }

/-- VSEAL's and VSEAL.final's plan. -/
def sealPlan (h : Nat) (a : Src) (b : Nat) (final : Bool) : Plan := fun s =>
  let g := s.cur.group
  let k := (s.rd a).u
  let q := min (s.rdv b).u.toNat 65535
  if !(s.handle h).produces then s.stop .anytimePerm
  else if k = 0 then s.stop .sealOrder
  else s.withRecord h .atomic [] fun pa =>
    let r := s.vrec pa
    let sealed := (s.launch (launchOf g)).seals.any fun x => decide (x.handle = h) && decide (x.group = g)
    if r.st.opn = false ∨ k.toNat ≠ r.openPass ∨ sealed = true ∨ q < r.st.quality then s.stop .sealOrder
    else if !(s.quiet g && s.noStale g) then .error .stall
    else .ok fun t => t.recordSeal g h k q final

/-- The groups of a launch, by team. -/
def Launch.groupKeys (x : Launch) (l : Nat) : List (Nat × Nat) :=
  (List.range x.desc.spans).flatMap fun sp => (List.range x.desc.tps).flatMap fun j =>
    (List.range x.desc.gpt).map fun i => (sp, gidOf l (sp * 64 + j) i)

/-- Whether every team of a launch has arrived at a handle's open pass, and one group has sealed it (R359). -/
def State.arrived (s : State) (l h : Nat) : Bool :=
  let x := s.launch l
  let mine := x.seals.filter fun e => decide (e.handle = h)
  !mine.isEmpty && (x.groupKeys l).all fun e =>
    (mine.any fun m => decide (m.group = e.2)) || (decide (x.spanSt.get 0 e.1 ≠ 0) && !(s.group e.2).live)

/-- Whether what comes before a seal has been performed: held stores too, which the VSEAL has not waited for (R286). -/
def State.sealDone (s : State) (e : Seal) : Bool :=
  (s.group e.group).inflight.all fun a =>
    !(decide (a.1 < e.order) && a.2.open_ && poBefore a.2.mask a.1 e.mask e.past)

/-- The record of a handle's open pass that every team of its launch has arrived at. -/
def State.arrivedPa (s : State) (l h : Nat) : Option Nat :=
  let x := s.launch l
  match x.desc.handles.getD h .undeclared, x.hpa.getD h none with
  | .produced _ _, some pa => if s.arrived l h && (s.vrec pa).st.opn && !x.ended then some pa else none
  | _, _ => none

/-- Whether a pass that every team has arrived at still waits for what its seals publish (R359 step 1). -/
def State.commitWaits (s : State) (l h : Nat) : Bool :=
  (s.arrivedPa l h).isSome && ((s.launch l).seals.any fun e => decide (e.handle = h) && !s.sealDone e)

/-- Commits a handle's open pass where every team has arrived and what their seals publish has been performed. A failed
line of the record ends the context instead (R102). -/
def State.commitHandle (s : State) (l h : Nat) : State :=
  let x := s.launch l
  match s.arrivedPa l h with
  | none => s
  | some pa =>
    if s.commitWaits l h then s
    else if s.failed (pa / 128) then s.machineCheck x.ctx pa
    else
      let mine := x.seals.filter fun e => decide (e.handle = h)
      let q := mine.foldl (fun q e => min q e.quality) 65535
      let final := mine.all (·.final)
      ((s.commitPass pa q final).setLaunch l { x with seals := x.seals.filter fun e => decide (e.handle ≠ h) }).softLeft x.ctx

/-- Whether some pass of a launch still waits so. -/
def State.commitsWait (s : State) (l : Nat) : Bool := (List.range 8).any (s.commitWaits l)

/-- Commits every pass whose teams have all arrived (R365, R376). -/
def State.commitAll (s : State) (l : Nat) : State := (List.range 8).foldl (fun s h => s.commitHandle l h) s

/-! ### What a launch has left (R352, R375) -/

/-- BLEFT's value; in a handler group all ones (R431). -/
def State.budgetLeft (s : State) (g : Nat) : DWord :=
  let x := s.launch (launchOf g)
  if x.service then BitVec.allOnes 64 else if x.demoted then 0 else BitVec.ofNat 64 (x.remaining - x.cyc.get 0 (s.coreOf g))

/-- VLEFT.e's value. -/
def Launch.energyLeft (x : Launch) : DWord :=
  if x.service ∨ x.desc.energy = 0 then BitVec.allOnes 64 else BitVec.ofNat 64 (x.desc.energy - x.energy)

/-- VLEFT.t's value. -/
def State.timeLeft (s : State) (g : Nat) : DWord :=
  let d := s.descOf g
  let t := if d.cutt = 0 then d.deadline else min d.deadline d.cutt
  if (s.launch (launchOf g)).service then BitVec.allOnes 64 else BitVec.ofNat 64 (t - (s.gtime g).toNat)

/-! ### Meanings -/

/-- VBEGIN (R358, R370). -/
def planVbegin (h : Nat) (a : Src) : Plan := fun s =>
  let k := match s.sp.wait with
    | some (.vbegin _ k) => k
    | some (.record _ (k :: _)) => k.setWidth 32
    | _ => (s.rd a).u
  if !(s.handle h).produces then s.stop .anytimePerm
  else if k = 0 then s.stop .sealOrder
  else s.withRecord h .atomic [k.setWidth 64] fun pa =>
    match (s.vrec pa).begin k.toNat with
    | .order => s.stop .sealOrder
    | .join => .ok id
    | .wait => .error (.wait (.vbegin h k))
    | .opens j => .ok fun t => t.openPass pa k.toNat j
def execVbegin (h : Nat) (a : Src) (s : State) : Host.Outcome State Fault Refusal := issue (.vbegin h a) (planVbegin h a) s

/-- VSLOT (R370). -/
def planVslot (prev : Bool) (d h : Nat) : Plan := fun s =>
  if !(s.handle h).produces then s.stop .anytimePerm
  else s.withRecord h .read [] fun pa =>
    let r := s.vrec pa
    let none_ := if prev then decide (r.pass = 0) else !r.st.opn
    let j := if prev then r.st.sslot else r.st.wslot
    let v := if none_ then BitVec.allOnes 64 else s.handleAddr h + BitVec.ofNat 64 (128 + j * r.slotb)
    .ok fun t => t.writePair d v
def execVslot (prev : Bool) (d h : Nat) (s : State) : Host.Outcome State Fault Refusal :=
  issue (.vslot prev d h) (planVslot prev d h) s

/-- VSEAL (R359, R370). -/
def planVseal (h : Nat) (a : Src) (b : Nat) : Plan := sealPlan h a b false
def execVseal (h : Nat) (a : Src) (b : Nat) (s : State) : Host.Outcome State Fault Refusal :=
  issue (.vseal h a b) (planVseal h a b) s

/-- VSEAL.final (R359, R370). -/
def planVsealFinal (h : Nat) (a : Src) (b : Nat) : Plan := sealPlan h a b true
def execVsealFinal (h : Nat) (a : Src) (b : Nat) (s : State) : Host.Outcome State Fault Refusal :=
  issue (.vsealFinal h a b) (planVsealFinal h a b) s

/-- Releases a group's pin on a handle, where it holds one (R363). -/
def State.unpin (s : State) (g h : Nat) : State :=
  match (s.group g).pins.find? fun p => p.1 == h with
  | some (_, p) =>
    (s.pinCount p.pa p.slot fun n => n - 1).setGroup g { s.group g with pins := (s.group g).pins.del h }
  | none => s

/-- Takes a pin (R363). -/
def State.pin (s : State) (g h pa slot : Nat) : State :=
  (s.pinCount pa slot fun n => n + 1).setGroup g { s.group g with pins := (s.group g).pins.set h ⟨pa, slot⟩ }

/-- VPIN (R363, R371, R377). -/
def planVpin (d h : Nat) (a : Src) : Plan := fun s =>
  let g := s.cur.group
  let q := (s.rd a).u.toNat % 65536
  if !(s.handle h).reads then s.stop .anytimePerm
  else s.withRecord h .atomic [] fun pa =>
    if s.g.pins.has h && !s.readsDone g then .error .stall
    else
      let r := s.vrec pa
      let ok := r.qualifies (s.handle h).minimum q
      let base := if ok then s.handleAddr h + BitVec.ofNat 64 (128 + r.st.sslot * r.slotb) else 0
      .ok fun t =>
        let t := t.unpin g h
        let t := if ok then t.pin g h pa r.st.sslot else t
        ((t.writePair d base).writeUni (.v (d + 2)) (r.vsw false ok)).writeUni (.v (d + 3)) (BitVec.ofNat 32 r.pass)
def execVpin (d h : Nat) (a : Src) (s : State) : Host.Outcome State Fault Refusal := issue (.vpin d h a) (planVpin d h a) s

/-- VUNPIN (R363, R372). -/
def planVunpin (h : Nat) : Plan := fun s =>
  let g := s.cur.group
  if !(s.handle h).reads then s.stop .anytimePerm
  else s.withRecord h .atomic [] fun _ =>
    if !(s.quiet g && s.readsDone g && s.noStale g) then .error .stall else .ok fun t => t.unpin g h
def execVunpin (h : Nat) (s : State) : Host.Outcome State Fault Refusal := issue (.vunpin h) (planVunpin h) s

/-- VWAIT (R373). -/
def planVwait (d h : Nat) (a : Src) (t : Option Src) : Plan := fun s =>
  let q : Word × Option DWord := match s.sp.wait with
    | some (.vwait _ q x) => (q, x)
    | some (.record _ (q :: x)) => (q.setWidth 32, x.head?)
    | _ => ((s.rd a).u, t.map fun b => s.rdPair b 0)
  if !(s.handle h).reads then s.stop .anytimePerm
  else s.withRecord h .read (q.1.setWidth 64 :: q.2.toList) fun pa =>
    let r := s.vrec pa
    let runsOver := decide (2 ≤ r.st.st) || r.qualifies (s.handle h).minimum q.1.toNat
    let late := match q.2 with
      | some x => decide (x ≤ s.gtime s.cur.group)
      | none => false
    if runsOver || late then .ok fun u => u.writeUni (.v d) (r.vsw (!runsOver) false)
    else .error (.wait (.vwait h q.1 q.2))
def execVwait (d h : Nat) (a : Src) (t : Option Src) (s : State) : Host.Outcome State Fault Refusal :=
  issue (.vwait d h a t) (planVwait d h a t) s

/-- VSTAT (R374). -/
def planVstat (d : Dst) (h w : Nat) : Plan := fun s =>
  if s.handle h = .undeclared then s.stop .anytimePerm
  else s.withRecord h .read [] fun pa =>
    let x := BitVec.ofNat 32 (Memory.read s.mem (pa + 4 * w) 4)
    .ok fun t => t.writeUni d x
def execVstat (d : Dst) (h w : Nat) (s : State) : Host.Outcome State Fault Refusal :=
  issue (.vstat d h w) (planVstat d h w) s

/-- VLEFT (R375). -/
def planVleft (k : LeftK) (d : Nat) : Plan := fun s =>
  let g := s.cur.group
  let v := match k with
    | .b => s.budgetLeft g
    | .e => (s.launch (launchOf g)).energyLeft
    | .t => s.timeLeft g
  .ok fun t => t.writePair d v
def execVleft (k : LeftK) (d : Nat) (s : State) : Host.Outcome State Fault Refusal := issue (.vleft k d) (planVleft k d) s

/-- PASS_COMMIT (R359). -/
def execPassCommit (l h : Nat) (s : State) : Host.Outcome State Fault Refusal := .next (s.commitHandle l h)

/-- Whether a cut launch's groups have all halted: none of them is at work in MX (R365). A group issues
nothing once its launch is cut, so each is at a preemptible point. -/
def State.cutHalted (s : State) (l : Nat) : Bool :=
  (s.groupsOf l).all fun g =>
    match (s.core (s.coreOf g)).mx with
    | some j => decide (j.group ≠ g) || !j.started || j.waiting
    | none => true

/-- CUT_RECORD_UPDATE (R365): the commits of passes that had arrived, then the one update, and the launch
ends, its teams with it (R400). -/
def State.cutUpdate (s : State) (l : Nat) : State :=
  let x := s.launch l
  match x.cut with
  | none => s
  | some c =>
    if x.ended || !s.cutHalted l || s.commitsWait l then s
    else if let pa :: _ := s.endMeets l then s.machineCheck x.ctx pa
    else
      let ran := s.teams.any fun t => t.1 / 512 == l && t.2.live
      let s := (s.commitAll l).endLaunch l c.reason true true (some c.time)
      let s := s.post (s.fnOfCtx x.ctx) evCut 0 x.ctx none
      if ran then s.softLeft x.ctx else s

/-- CUT_RECORD_UPDATE. -/
def execCutRecordUpdate (l : Nat) (s : State) : Host.Outcome State Fault Refusal := .next (s.cutUpdate l)

end Sys2Proof.Machine
end

