-- ==== Sys2Proof/Machine/Launches.lean ====
section
/-! DEFINITION. LAUNCH, JOIN, BLEFT and DLINE (R345 to R353), and the decision of admission on what has been
submitted (R336). -/

namespace Sys2Proof.Machine

open Sys2Proof

/-! ### The pending pool and child slots (R345) -/

/-- Records of the pending pool in use in a partition: undecided ones of LAUNCHes, and running children. -/
def State.poolUsed (s : State) (part : Nat) : Nat :=
  (s.submissions.filter fun x => x.part == part && x.parentOf.isSome).length +
  ((s.entries part).filter fun l => (s.launch l).parent.isSome).length

/-- A group's child slots in use, with those that its undecided LAUNCHes may still take. -/
def State.childUse (s : State) (g : Nat) : Nat := (s.group g).children.length + (s.group g).waitingLaunch.length

/-- The lowest free child slot. -/
def Group.freeChild (g : Group) : Nat :=
  ((List.range 64).find? fun n => !(g.children.any fun c => c.1 == n)).getD 0

/-- The record addresses that a launch's descriptor declares (R35). -/
def Rec.objects (d : Rec) : List DWord :=
  (d.handles.zip d.hrec).filterMap fun x => if x.1 = .undeclared then none else some x.2

/-- Whether an anytime parent's record names a GLOBAL object outside the parent's own (R350). -/
def State.foreignObject (s : State) (g : Nat) (bs : List Byte) : Bool :=
  let d := s.descOf g
  d.anytime && (List.range 8).any fun h =>
    let a := BitVec.ofNat 64 (fieldAt bs (0x50 + 8 * h) 8)
    decide (a ≠ 0) && decide (windowOf a = .glob) && !d.objects.contains a

/-- LAUNCH's submission. -/
def State.submit (s : State) (g : Nat) (bs : List Byte) (m : Word) (d : Nat) : State :=
  let l := s.launch (launchOf g)
  let x : Submission :=
    { bytes := bs, part := l.part, vdid := l.vdid, ctx := l.ctx, release := (s.gtime g).toNat, by_ := .group g m d }
  let gr := (s.group g).reserve (some (.v d)) .w32 (decide (m = fullMask))
  { s with submissions := s.submissions ++ [x] }.setGroup g { gr with waitingLaunch := gr.waitingLaunch ++ [d] }

/-- LAUNCH (R345, R350). -/
def planLaunch (d : Nat) (a : Src) : Plan := fun s =>
  let b := s.localBase a
  let g := s.cur.group
  s.afterFault (s.wholeChecks b 256 64 (s.openRange b.toNat 256 fun _ bs =>
    if s.foreignObject g bs then s.uniStop .anytimeEscape b
    else if !s.noStale g then .error .stall
    else
      let full := decide (4096 ≤ s.poolUsed (s.partOf g)) || decide (64 ≤ s.childUse g)
      .ok fun t =>
        let u := match t.fillRange g b.toNat 256 t.priv t.choice with
          | .ok u => u.chosen
          | .error _ => t
        if full then u.writeUni (.v d) (statusWord .full 0) else u.submit g bs u.mask d))
def execLaunch (d : Nat) (a : Src) (s : State) : Host.Outcome State Fault Refusal := issue (.launch d a) (planLaunch d a) s

/-- Whether what the groups of a launch have done, held accesses apart, is at its homes and at every replica. -/
def State.launchSettled (s : State) (l : Nat) : Bool :=
  (s.groups.all fun g => decide (launchOf g.1 ≠ l) || g.2.inflight.all fun a => a.2.held.isSome || !a.2.open_) &&
    !s.replicas.any fun r => r.behind.any fun b => launchOf b.group == l && !b.free

/-- Whether a child has ended, and its end has released what it did (R346): an empty slot counts as ended (R351). -/
def State.childEnded (s : State) (g n : Nat) : Bool :=
  match (s.group g).children.find? fun c => c.1 == n with
  | some (_, l) => (s.launch l).ended && s.launchSettled l
  | none => true

/-- The child slots that a mask names. -/
def slotsOf (m : DWord) : List Nat := (List.range 64).filter fun i => m.getLsbD i

/-- JOIN's result: the slots whose children ended abnormally (R346). -/
def State.joinMask (s : State) (g : Nat) (m : DWord) : DWord :=
  BitVec.ofNat 64 (((slotsOf m).filter fun n =>
    match (s.group g).children.find? fun c => c.1 == n with
    | some (_, l) => (s.launch l).abnormal
    | none => false).foldl (fun a n => a + 2 ^ n) 0)

/-- JOIN (R346, R351). -/
def planJoin (d : Nat) (a : Src) : Plan := fun s =>
  let g := s.cur.group
  let m := match s.sp.wait with
    | some (.join m) => m
    | _ => s.rdPair a 0
  if !((slotsOf m).all fun n => s.childEnded g n) then .error (.wait (.join m))
  else
    let v := s.joinMask g m
    .ok fun t =>
      (t.modG fun gr => { gr with children := gr.children.filter fun c => !(slotsOf m).contains c.1 }).writePair d v
def execJoin (d : Nat) (a : Src) (s : State) : Host.Outcome State Fault Refusal := issue (.join d a) (planJoin d a) s

/-- BLEFT (R352). -/
def planBleft (d : Nat) : Plan := fun s =>
  let v := s.budgetLeft s.cur.group
  .ok fun t => t.writePair d v
def execBleft (d : Nat) (s : State) : Host.Outcome State Fault Refusal := issue (.bleft d) (planBleft d) s

/-- DLINE (R353). -/
def planDline (rel : Bool) (d : Nat) : Plan := fun s =>
  let g := s.cur.group
  let x := (s.descOf g).deadline
  let v := if (s.launch (launchOf g)).service then BitVec.allOnes 64
    else BitVec.ofNat 64 (if rel then x - (s.gtime g).toNat else x)
  .ok fun t => t.writePair d v
def execDline (rel : Bool) (d : Nat) (s : State) : Host.Outcome State Fault Refusal :=
  issue (.dline rel d) (planDline rel d) s

/-! ### Accesses of agents that run in no context (R102, R103) -/

/-- MACHINE_CHECK is posted to the physical function, and no context is killed. -/
def State.postCheck (s : State) (pa : Nat) : State :=
  s.post 0 evMachineCheck (dieOfPa pa * 256) 0 (some (BitVec.ofNat 64 (pa / 128 * 128)))

/-- The lines of `n` bytes at a physical address. -/
def linesOf (pa n : Nat) : List Nat := (List.range ((pa + n - 1) / 128 + 1 - pa / 128)).map (pa / 128 + ·)

/-- A failed line that an access meets: a read, or a write that covers only a part of it. -/
def State.metError (s : State) (pa n : Nat) (write : Bool) : Option Nat :=
  (linesOf pa n).find? fun l =>
    s.failed l && !(write && decide (pa ≤ l * 128) && decide ((l + 1) * 128 ≤ pa + n))

/-- A write of the host, a peer or the front end at its home. -/
def State.outerWrite (s : State) (pa : Nat) (bytes : List Byte) : State :=
  match s.metError pa bytes.length true with
  | some l => (s.markFailed l).postCheck (l * 128)
  | none =>
    (s.writePhys pa bytes false none).repairLines (linesOf pa bytes.length).contains

/-! ### The decision of admission (R336) -/

/-- The status code of a packet, with a member's index (R416, R417). -/
def State.packetStatus (s : State) (addr code index : Nat) : State :=
  s.outerWrite (addr + 0x38) (bytesOf 8 (index % 256 * 256 + code % 256))

/-- A group once a LAUNCH of its has its status (R350). -/
def Group.launched (gr : Group) (m : Word) (d : Nat) (w : Word) : Group :=
  { (gr.commit m (.v d) .uniform (Lanes.splat w)).1 with waitingLaunch := gr.waitingLaunch.erase d }

/-- A LAUNCH learns its status. -/
def State.launchStatus (s : State) (g : Nat) (m : Word) (d : Nat) (w : Word) : State :=
  if (s.group g).live then (s.setGroup g ((s.group g).launched m d w)).served s g else s

/-- The word that a LAUNCH of a group receives for what admission has decided. -/
def State.launchWord (s : State) (g : Nat) (r : Except AdmitCode Nat) : Word :=
  match r with
  | .error c => statusWord c 0
  | .ok _ => statusWord .admitted (s.group g).freeChild

/-- Why a submitter's register does not take its status now (R174, R180). -/
def State.answerStop (s : State) (x : Submission) (r : Except AdmitCode Nat) : Option (Nat × Option Nat) :=
  match x.by_ with
  | .group g m d =>
    if (s.group g).live then
      (s.commitStop g ((s.group g).launched m d (s.launchWord g r)) [.v d]).map fun n => (g, n)
    else none
  | _ => none

/-- A front-end core goes on past an XDISP with the status word in its register (R414). -/
def State.dispatched (s : State) (fe rd : Nat) (w : Word) : State :=
  let f := s.front fe
  if f.xdisp then
    s.setFront fe { f with
      xdisp := false, pc := f.pc + 4, x := if rd = 0 then f.x else f.x.set rd (w.setWidth 64) }
  else s

/-- A launch that a ring has admitted is one of its earlier launches (R416). -/
def State.ringLaunch (s : State) (ring l : Nat) : State :=
  let r := s.ring ring
  s.setRing ring { r with earlier := r.earlier ++ [l] }

/-- So is one that a ring's prologue has dispatched. -/
def State.frontLaunch (s : State) (ring : Option Nat) (l : Nat) : State :=
  match ring with
  | some k => s.ringLaunch k l
  | none => s

/-- Tells a submitter what admission has decided. -/
def State.answer (s : State) (x : Submission) (r : Except AdmitCode Nat) : State :=
  match x.by_ with
  | .group g m d =>
    (match r with
     | .error _ => s.launchStatus g m d (s.launchWord g r)
     | .ok l =>
       if (s.group g).live then
         let n := (s.group g).freeChild
         let w := s.launchWord g r
         let s := s.setLaunch l { s.launch l with parent := some (g, n) }
         let s := s.setGroup g { s.group g with children := (s.group g).children.set n l }
         s.launchStatus g m d w
       else s.setLaunch l { s.launch l with parent := some (g, 64) })
  | .packet ring addr =>
    (match r with
     | .error c => s.packetStatus addr c.code 0
     | .ok l => (s.packetStatus addr 0 0).ringLaunch ring l)
  | .front fe rd ring =>
    (match r with
     | .error c => s.dispatched fe rd (statusWord c 0)
     | .ok l => (s.frontLaunch ring l).dispatched fe rd (statusWord .admitted 0))
  | .left ring =>
    (match r with
     | .error _ => s
     | .ok l => s.frontLaunch ring l)

/-- ADMISSION_DECISION (R336): the oldest submission is decided, where its submitter's register can take the status (R180);
the preferred cores are the scheduler's choice (R338). -/
def State.decide_ (s : State) (pref : List Nat) : State :=
  match s.submissions with
  | [] => s
  | x :: rest =>
    let q := { s with submissions := rest }.tryAdmit pref x
    match s.answerStop x q.2 with
    | some (g, n) => s.awaitRoom g n
    | none => q.1.answer x q.2

/-- ADMISSION_DECISION. -/
def execAdmissionDecision (pref : List Nat) (s : State) : Host.Outcome State Fault Refusal := .next (s.decide_ pref)

end Sys2Proof.Machine
end

