-- ==== Sys2Proof/Machine/Faults.lean ====
section
/-! DEFINITION. Fault service (R96, R97, R431), the replay of the operand log (R93, R256, R368, R390), held
accesses at their homes (R126, R128, R282, R294, R295), and the commit of slow-path results (R214). -/

namespace Sys2Proof.Machine

open Sys2Proof

/-! ### Handler groups (R96, R97, R431) -/

/-- The stage-1 faults that a die's compaction buffer holds, oldest first: those that have arrived and wait for a
handler, at most 256 (R96). The table keeps faults in the order of their arrival. -/
def State.buffered (s : State) (die : Nat) : List (Nat × FaultRec) :=
  s.faults.filter fun f => decide (f.2.st = .buffered) && f.2.die == die && f.2.arrived.isSome

/-- Those of one context. -/
def State.bufferedOf (s : State) (die ctx : Nat) : List (Nat × FaultRec) :=
  (s.buffered die).filter fun f => f.2.ctx == ctx

/-- The partition that holds a context. -/
def State.partOfCtx (s : State) (c : Nat) : Nat := (s.fn (s.fnOfCtx c)).part

/-- The core and bank that a partition's fault-service launch holds on a die. -/
def State.handlerPlace (s : State) (l die : Nat) : Option (Nat × Nat) :=
  (s.launch l).place.find? fun p => dieOfCore p.1 == die

/-- The lowest free group slot of a core. -/
def State.freeGslot (s : State) (c : Nat) : Nat :=
  let used := (s.liveGroups.filter fun g => s.coreOf g == c).map fun g => (s.group g).gslot
  ((List.range 128).find? fun n => !used.contains n).getD 0

/-- A handler lane's registers, as the lanes' values of one of v0 to v3. -/
def handlerReg (fs : List (Nat × FaultRec)) (f : FaultRec → Word) : VReg :=
  .general (Lanes.ofFn fun i => match fs[i]? with
    | some x => f x.2
    | none => 0) false

/-- The handler group of some faults, one lane each. -/
def handlerGroup (entry gslot ctx : Nat) (fs : List (Nat × FaultRec)) : Group :=
  let m := maskOf fun i => decide (i < fs.length)
  { Group.initial entry .live with
    splits := [{ Split.initial entry with mask := m }]
    vregs := [(0, handlerReg fs (·.tag)), (1, handlerReg fs fun f => loWord f.va),
      (2, handlerReg fs fun f => hiWord f.va), (3, handlerReg fs (·.word))]
    handler := (List.range 32).map fun i => (fs[i]?).map (·.1)
    hctx := ctx
    gslot := gslot }

/-- Whether the buffer launches a handler group for a context now (R96). -/
def State.handlerDue (s : State) (die ctx : Nat) : Bool :=
  match s.bufferedOf die ctx with
  | [] => false
  | f :: r => decide (32 ≤ r.length + 1) || f.2.arrived.any fun t => decide (t + 4000 ≤ (s.time die).toNat)

/-- FAULT_HANDLER_LAUNCH: the context's oldest faults of the buffer, at most 32, take the lanes of a handler
group, where the die's footprint is free and its bank is live. -/
def State.launchHandler (s : State) (die ctx : Nat) : State :=
  let l := (s.part (s.partOfCtx ctx)).service
  let t := l * 512 + die
  match s.handlerPlace l die with
  | none => s
  | some (c, b) =>
    if !s.handlerDue die ctx || (s.team t).live || decide ((s.core c).liveBank ≠ b) || (s.launch l).ended ||
        s.liveGroups.any (fun g => teamOf g == t) then s
    else
      let fs := (s.bufferedOf die ctx).take 32
      let g := handlerGroup (s.launch l).desc.entry (s.freeGslot c) ctx fs
      let s := s.setTeam t { Team.absent with core := c, live := true }
      let s := s.setGroup (t * 16) g
      let fs' := fs.zipIdx.foldl (fun m f => m.set f.1.1 { f.1.2 with st := .served (t * 16) f.2 }) s.faults
      { s with faults := fs' }.arriveFaults die

/-- FAULT_HANDLER_LAUNCH. -/
def execFaultHandlerLaunch (die ctx : Nat) (s : State) : Host.Outcome State Fault Refusal :=
  .next (s.launchHandler die ctx)

/-! ### The replay of a logged access (R93, R390) -/

/-- What a logged part wants as it translates again. -/
def Access.wantAgain (a : Access) (p : Part) : Want :=
  { lane := p.lane, addr := p.addr + BitVec.ofNat 64 p.sub, size := p.size, kind := a.kind.xkind, form := a.form, family := a.family,
    orderDep := (match a.kind with
      | .atomic op => Sys2Proof.Machine.AOp.orderDep op
      | _ => false),
    whole := decide (a.kind = .asum) }

/-- The pieces of a part whose translation has succeeded. -/
def Part.pieces (p : Part) (t : Target) : List Part :=
  t.pieces.map fun x =>
    { p with
      sub := p.sub + x.1, size := x.2.1, loc := x.2.2, logged := false, rm := t.rm, prop01 := t.prop01
      data := p.data / 2 ^ (8 * x.1) % 2 ^ (8 * x.2.1) }

/-- A lane's parts after its replay: performed nothing (dropped), waiting again, or on their way. -/
inductive Again where
  | drop (perm : Bool)
  | fault (f : FaultInfo)
  | go
  deriving DecidableEq, Repr

/-- The outcome of a lane, from those of its parts: aborted; PERMISSION in one of them; a fault in one of
them; or all well. -/
def againOf (aborted : Bool) (rs : List LaneRes) : Again :=
  if aborted then .drop false
  else if rs.any fun r =>
      match r with
      | .bad _ _ => true
      | _ => false then .drop true
  else
    match rs.findSome? fun r =>
      match r with
      | .fault f _ => some f
      | _ => none with
    | some f => .fault f
    | none => .go

/-- A logged access translates again: its logged parts with their outcomes. -/
def State.retranslate (s : State) (g : Nat) (a : Access) (use : Bool) : List (Part × LaneRes) :=
  (a.parts.filter (·.logged)).map fun p => (p, s.checkLane g (a.wantAgain p) a.priv use)

/-- The outcome of a lane. -/
def laneAgain (e : LogEntry) (rs : List (Part × LaneRes)) (i : Nat) : Again :=
  againOf (laneIn e.aborted i) ((rs.filter fun r => r.1.lane == i).map (·.2))

/-- An access after its replay. -/
def Access.afterReplay (a : Access) (e : LogEntry) (rs : List (Part × LaneRes)) : Access :=
  let next := fun (p : Part) =>
    if !p.logged then [p]
    else
      match laneAgain e rs p.lane with
      | .drop _ => [{ p with logged := false, dropped := true, back := true }]
      | .fault _ => [p]
      | .go =>
        match rs.find? fun r => r.1 == p with
        | some (_, .ok t) => p.pieces t
        | _ => [p]
  let ps := a.parts.flatMap next
  { a with parts := ps, entry := if ps.any (·.logged) then a.entry else none }

/-- The lanes of a replay with an outcome. -/
def lanesAgain (e : LogEntry) (rs : List (Part × LaneRes)) (f : Again → Bool) : Word :=
  maskOf fun i => (rs.any fun r => r.1.lane == i) && f (laneAgain e rs i)

/-- A late cause of some lanes of an entry, where there are any (R390). -/
def Group.lateLanes (g : Group) (e : LogEntry) (c : Cause) (m : Word) (addr : Nat → DWord) : Group :=
  if m = 0 then g else g.addLate e.seq (lateReport c e.slot m addr)

/-- The late causes of an access's entry that has left the log: PERMISSION before TRANSLATION_ABORT. -/
def Group.entryLates (g : Group) (e : LogEntry) (a : Access) : Group :=
  (g.lateLanes e .permission (a.reported e.perm) a.addrOf).lateLanes e .translationAbort (a.reported e.aborted) a.addrOf

/-- The replay of an access's entry. -/
def State.replayAccess (s : State) (g n : Nat) (e : LogEntry) (acc : Nat) : State :=
  match (s.group g).access? acc with
  | none => s.setGroup g { s.group g with log := (s.group g).log.del n }
  | some a =>
    let use := s.choice
    let rs := s.retranslate g a use
    let go := rs.filter fun r => decide (laneAgain e rs r.1.lane = .go)
    let lanes := go.map fun r => (r.1.lane, r.2)
    match checkedPa lanes with
    | some pa => s.machineCheck (s.ctxOf g) pa
    | none =>
      let ws := windowPieces lanes
      if lanes.any (fun r => decide (r.2 = .away)) || (a.held.isSome && !s.heldRoom lanes) ||
          !(ws.isEmpty || s.mayAtOnce g acc (Access.probe a.kind a.rel a.mask a.past) ws) then s
      else
        let s := if ws.isEmpty then s else s.noteAtOnce g acc (Access.probe a.kind a.rel a.mask a.past) ws
        let s := s.chosen.leaveLanes lanes
        let a' := a.afterReplay e rs
        let fm := lanesAgain e rs fun x =>
          match x with
          | .fault _ => true
          | _ => false
        let e' := { e with
          waiting := fm, perm := e.perm ||| lanesAgain e rs fun x => decide (x = .drop true) }
        let s := s.putAccess g acc a'
        let gr := s.group g
        if fm = 0 then
          let gr := { gr with log := gr.log.del n }
          (s.setGroup g (gr.entryLates e' a)).immediate g acc a.priv use
        else
          let s := s.setGroup g { gr with log := gr.log.set n e' }
          let s := (lanesOf fm).foldl (fun s i =>
            match laneAgain e rs i with
            | .fault f => s.addFault g (.data i n) f
            | _ => s) s
          s.immediate g acc a.priv use

/-- The replay of a matrix instruction's entry (R256): it goes on, or takes no further step. -/
def State.replayMatrix (s : State) (g n : Nat) (e : LogEntry) : State :=
  let s := s.setGroup g { s.group g with log := (s.group g).log.del n }
  match s.jobOf g with
  | none => s
  | some j =>
    if e.aborted = 0 then s.modJob g fun j => some { j with waiting := false }
    else (s.dropJob j).lateJob j .translationAbort e.addr

/-- The replay of the entry of an instruction that waits for a fault of its own (R138, R368). -/
def State.replayWait (s : State) (g n : Nat) (e : LogEntry) : State :=
  let gr := s.group g
  let gr := { gr with log := gr.log.del n }
  if e.aborted = 0 then s.setGroup g gr
  else
    let waits := fun (x : Split) => decide (x.wait.bind Wait.entry? = some n)
    let m := ((gr.splits.find? waits).map (·.mask)).getD fullMask
    let gr := { gr with splits := gr.splits.map fun x => if waits x then { x with wait := some .aborted } else x }
    s.setGroup g (gr.addLate e.seq (lateReport .translationAbort e.slot m fun _ => e.addr))

/-- LOG_REPLAY: an entry whose every fault has been completed, in a group of a live bank (R98). -/
def State.replay (s : State) (g n : Nat) : State :=
  let gr := s.group g
  match gr.log.find? fun e => e.1 == n with
  | none => s
  | some (_, e) =>
    if e.waiting ≠ 0 ∨ gr.bank ≠ .live ∨ gr.live = false then s
    else
      match e.what with
      | .access acc => s.replayAccess g n e acc
      | .matrix => s.replayMatrix g n e
      | .retry => s.replayWait g n e

/-- LOG_REPLAY (R92, R93, R98, R256, R368, R390). -/
def execLogReplay (g entry : Nat) (s : State) : Host.Outcome State Fault Refusal := .next (s.replay g entry)

/-! ### Held accesses (R126, R128, R282, R294, R295) -/

/-- The places in an access's list of its parts at a home that are not yet performed. -/
def State.partsAt (s : State) (a : Access) (home : Nat) : List Nat :=
  (a.parts.zipIdx.filter fun p => p.1.open_ && !p.1.logged && s.homeOf p.1.loc == home).map (·.2)

/-- Performs an access's parts at a home, and retires it where nothing is left. -/
def State.performHome (s : State) (g acc home : Nat) : State :=
  match (s.group g).access? acc with
  | none => s
  | some a => (s.performParts g acc (s.partsAt a home)).finish g acc

/-- Whether a held access is too late at a home: it arrives after its time. -/
def State.tooLate (s : State) (home : Nat) (v : DWord) : Bool := decide (v < s.timeAt home)

/-- A held access arrives at one home: it takes its place in the queue, or is performed at once. -/
def State.arriveAt (s : State) (g acc : Nat) (v : DWord) (home : Nat) : State :=
  match (s.group g).access? acc with
  | none => s
  | some a =>
    let ids := s.partsAt a home
    if !s.mayPerform g acc a ids then s
    else if s.tooLate home v then
      if s.homeDue home then s
      else
        let late := if a.kind = .load then 0
          else (ids.filterMap fun i => a.parts[i]?).foldl (fun (m : Word) p => m ||| ((1 : Word) <<< p.lane)) a.late
        (s.putAccess g acc { a with arrived := true, late := late }).performHome g acc home
    else
      let s := s.putAccess g acc { a with arrived := true }
      { s with holds := s.holds ++ [⟨home, g, acc, s.heldSeq⟩], heldSeq := s.heldSeq + 1 }

/-- The homes that an access has not yet reached. -/
def State.homesLeft (s : State) (g acc : Nat) (a : Access) : List Nat :=
  ((a.parts.filter fun p => p.open_ && !p.logged).map fun p => s.homeOf p.loc).eraseDups.filter fun h =>
    !s.holds.any fun x => x.home == h && x.group == g && x.acc == acc

/-- HELD_ARRIVAL. -/
def State.heldArrive (s : State) (g acc : Nat) : State :=
  match (s.group g).access? acc with
  | none => s
  | some a =>
    match a.held with
    | none => s
    | some v => (s.homesLeft g acc a).foldl (fun s h => s.arriveAt g acc v h) s

/-- HELD_ARRIVAL (R126 to R128, R294, R295, R329). -/
def execHeldArrival (g acc : Nat) (s : State) : Host.Outcome State Fault Refusal := .next (s.heldArrive g acc)

/-- The order in which a queue releases: by time, stores before loads, then by arrival (R126). -/
def State.releaseKey (s : State) (h : HeldRec) : Nat × Nat × Nat :=
  match (s.group h.group).access? h.acc with
  | some a => ((a.held.getD 0).toNat, if a.kind = .load then 1 else 0, h.order)
  | none => (0, 0, h.order)

/-- Whether one key comes before another. -/
def keyBefore (a b : Nat × Nat × Nat) : Bool :=
  decide (a.1 < b.1) || (decide (a.1 = b.1) && (decide (a.2.1 < b.2.1) ||
    (decide (a.2.1 = b.2.1) && decide (a.2.2 < b.2.2))))

/-- The first of some held accesses. -/
def State.firstHeld (s : State) : List HeldRec → Option HeldRec
  | [] => none
  | h :: r =>
    match State.firstHeld s r with
    | none => some h
    | some k => if keyBefore (s.releaseKey k) (s.releaseKey h) then some k else some h

/-- The held accesses that a home may release now: those whose time has come. -/
def State.releasable (s : State) (home : Nat) : List HeldRec :=
  s.holds.filter fun h => h.home == home && (s.due h || ((s.group h.group).access? h.acc).isNone)

/-- Whether a home lets a held access be performed: its team is there, a link leads there, no early access is met, and
for a load no replica of its die is behind (R277, R293, R294). -/
def State.heldOpen (s : State) (h : HeldRec) : Bool :=
  match (s.group h.group).access? h.acc with
  | none => true
  | some a => (s.partsAt a h.home).all fun i =>
      match a.parts[i]? with
      | none => true
      | some p => s.homeOpen h.group a.kind true p.loc p.size

/-- HOLD_RELEASE: the first of a home's queue is performed. -/
def State.release (s : State) (home : Nat) : State :=
  match s.firstHeld (s.releasable home) with
  | none => s
  | some h =>
    if !s.heldOpen h then s
    else { s with holds := s.holds.filter fun x => x != h }.performHome h.group h.acc home

/-- HOLD_RELEASE (R126, R128, R282, R294, R295). -/
def execHoldRelease (home : Nat) (s : State) : Host.Outcome State Fault Refusal := .next (s.release home)

/-! ### Slow-path results (R214) -/

/-- A slow-path result is written: its destination and its flags. -/
def Group.slowCommit (g : Group) (i : Nat) : Group :=
  match g.slow.find? fun r => r.1 == i with
  | none => g
  | some (_, r) =>
    let g := { g with slow := g.slow.del i, flags := g.flags ||| r.flags }
    match r.dest with
    | .v n => { g with vregs := g.vregs.set n r.reg }
    | .o n => { g with oregs := g.oregs.set n r.reg.lanes }
    | .k n => { g with kregs := g.kregs.set n (r.reg.lanes.get 0) }

/-- SLOW_PATH_COMMIT: where the destination's slots fit (R180). -/
def State.slowDone (s : State) (g i : Nat) : State :=
  if (s.group g).live then
    let gr := (s.group g).slowCommit i
    match s.commitStop g gr ((((s.group g).slow.find? fun r => r.1 == i).map fun r => r.2.dest).toList) with
    | some n => s.awaitRoom g n
    | none => (s.setGroup g gr).served s g
  else s

/-- SLOW_PATH_COMMIT (R177, R180, R214). -/
def execSlowPathCommit (g i : Nat) (s : State) : Host.Outcome State Fault Refusal := .next (s.slowDone g i)

end Sys2Proof.Machine
end

