-- ==== Sys2Proof/Machine/Fetch.lean ====
section
/-! DEFINITION. Fetching and decoding a bundle (R38 to R42, R63 to R68, R90, R95). -/

namespace Sys2Proof.Machine

open Sys2Proof

/-- The address of the bundle of a slot index. -/
def bundleAddr (pc : Nat) : Nat := pc / 3 * 16

/-- What a fetch gives. -/
inductive FetchRes where
  | ok (bundle : Nat) (tr : Trail)
  | permission (tr : Trail)
  | fault (f : FaultInfo) (tr : Trail)
  | check (pa : Nat)
  deriving DecidableEq, Repr

/-- The fault of a fetch (R97: size 4, one bundle). -/
def fetchFault (a level : Nat) (malformed : Bool) (gpa : Option DWord) : FaultInfo :=
  ⟨BitVec.ofNat 64 a, BitVec.ofNat 64 a, XKind.fetch.code, level, malformed, 4, gpa⟩

/-- Fetches the bundle of a slot for a group: kind FETCH, from an address of the GLOBAL window. -/
def State.fetch (s : State) (g pc : Nat) (priv use : Bool) : FetchRes :=
  let a := bundleAddr pc
  if 2 ^ 57 ≤ a then .fault (fetchFault a 4 true none) Trail.none
  else
    let q := s.translate (s.coreOf g) (s.ctx (s.ctxOf g)) a .fetch priv use
    match q.1 with
    | .ok pa _ _ =>
      if s.denied g pa ⟨0, 0, 16, .fetch, .gen, false, false, false⟩ priv then .permission q.2
      else if s.failed (pa / 128) || !s.linked g pa then .check pa
      else .ok (s.readLoc (s.dieOf g) (.phys pa) 16) q.2
    | .permission => .permission q.2
    | .fault level bad => .fault (fetchFault a level bad none) q.2
    | .stage2 gpa level => .fault (fetchFault a level false (some (BitVec.ofNat 64 gpa))) q.2
    | .check pa => .check pa

/-- A bundle from the number of its 16 bytes (R38). -/
def bundleOfNat (n : Nat) : Bundle := bundleOfBytes (bytesOf 16 n)

/-- The three entry positions of a bundle under a decode table (R40, R64, R68). -/
def enterBundle (view : OpView) (n : Nat) : Entered :=
  let b := bundleOfNat n
  { bundle := n
    yields := decide (b.v = 1) && bitOf b.sc 3
    pos := (List.range 3).map fun p =>
      match decodeUnit view b p with
      | .ok u => .unit u
      | .error e => .bad e.1 e.2 }

/-- A decode cause (R63, R64). -/
def decodeCause : DecodeErr → Cause
  | .illegalBundle => .illegalBundle
  | .illegalChain => .illegalChain
  | .illegalOpcode _ => .illegalOpcode
  | .illegalOperand => .illegalOperand

end Sys2Proof.Machine
end

