-- ==== Sys2Proof/Machine/Slice.lean ====
section
/-! DEFINITION. The access engine: the steps of a group's access slice (R159 to R162). -/

namespace Sys2Proof.Machine

open Sys2Proof

/-- A source of the slice (R159): its own registers, parameters, special sources, constants. -/
def State.sliceRd (s : State) (g : Nat) (sp : Spec) : Opnd :=
  match sp with
  | .v n => ((s.group g).slice.vregs.get (.uniform 0) n).opnd
  | .special .amask => ⟨.uniform, Lanes.splat fullMask⟩
  | x => ({ s with cur := { s.cur with group := g } }).opnd x 0

/-- The state with a group's slice changed. -/
def State.modSlice (s : State) (g : Nat) (f : Slice → Slice) : State :=
  let gr := s.group g
  s.setGroup g { gr with slice := f gr.slice }

/-- A cause in the slice (R162): it stops, and the cause waits for its delivery. -/
def State.sliceCause (s : State) (g : Nat) (c : Cause) (info : Nat) (addr : DWord) : State :=
  s.modSlice g fun x => { x with st := .stopped, walk := none, cause := some (c, addr, info) }

/-- What stops an engine's access, in the slice. -/
def State.sliceStop (s : State) (g : Nat) (e : EngStop) : State :=
  match e with
  | .wait => s
  | .check pa => s.machineCheck (s.ctxOf g) pa
  | .fault f => (s.modSlice g fun x => { x with faulted := true, faultAt := f.addr }).addFault g (.slice (s.group g).slice.gen) f
  | .cause c i a => s.sliceCause g c i a

/-- A result in a slice register: a general one raises SHAPE_MISMATCH (R159). -/
def State.slicePut (s : State) (g pc : Nat) (d : Dst) (sh : Sh) (vals : Lanes) : State :=
  match sh, d with
  | .general, _ => s.sliceCause g .shapeMismatch 0 0
  | _, .v n => s.modSlice g fun x => { x with vregs := x.vregs.set n (commitReg fullMask sh vals .never), pc := pc }
  | _, _ => s.sliceCause g .illegalOperand 0 0

/-- A two-operand instruction of the slice. -/
def State.slice2 (s : State) (g pc : Nat) (d : Dst) (a b : Src) (sh : Opnd → Opnd → Sh) (f : Word → Word → Word) :
    State :=
  let x := s.sliceRd g a.spec
  let y := s.sliceRd g b.spec
  s.slicePut g pc d (sh x y) (map2 f x y)

/-- A branch of the slice: its condition is uniform. -/
def State.sliceBranch (s : State) (g here next : Nat) (a : Src) (off : Int) (nonzero : Bool) : State :=
  let x := s.sliceRd g a.spec
  if x.sh ≠ .uniform then s.sliceCause g .shapeMismatch 0 0
  else
    let taken := decide (x.u ≠ 0) == nonzero
    s.modSlice g fun y => { y with pc := if taken then target here off else next }

/-- Pushes an entry into a feed and charges it (R160). -/
def State.push (s : State) (g f : Nat) (v : Lanes) : State :=
  let gr := s.group g
  (s.setGroup g { gr with feeds := gr.feeds.set f (gr.feed f ++ [v]) }).chargeG g .feed 128

/-- Whether a feed is full. -/
def State.feedFull (s : State) (g f : Nat) : Bool := decide (16 ≤ ((s.group g).feed f).length)

/-- The address of a lane of a slice load. -/
def State.sliceAddr (s : State) (g : Nat) (fm : AForm) (a : Src) (off : Int) (size i : Nat) : DWord :=
  let d : Int := off * size
  match fm with
  | .gen => pair64 ((s.sliceRd g a.spec).vals.get i) ((s.sliceRd g (a.next 1).spec).vals.get i) + BitVec.ofInt 64 d
  | _ => ((s.sliceRd g a.spec).vals.get i + BitVec.ofInt 32 d).setWidth 64

/-- Reads a lane of a slice load whose checks have passed. -/
def State.sliceRead (s : State) (g : Nat) (priv use : Bool) (t : Target) : State × Nat :=
  t.pieces.foldl (fun q p =>
    match p.2.2 with
    | .priv va =>
      let s := q.1.bringLine g (va / 128) .read priv use
      (s, q.2 + (s.group g).readPriv va p.2.1 * 2 ^ (8 * p.1))
    | l => (q.1, q.2 + q.1.readLoc (q.1.dieOf g) l p.2.1 * 2 ^ (8 * p.1))) ((s.leaveTarget t).collect (t.pieces.map fun p => (p.2.2, p.2.1)), 0)

/-- The targets of the lanes of a load whose every check has passed. -/
def okTargets (rs : List (Nat × LaneRes)) : List (Nat × Target) :=
  rs.filterMap fun r =>
    match r.2 with
    | .ok t => some (r.1, t)
    | _ => none

/-- A load into a feed (R160). -/
def State.feedLoad (s : State) (g next : Nat) (fm : AForm) (w : Width) (f : Nat) (a : Src) (off : Int)
    (priv use : Bool) : State :=
  if s.feedFull g f then s
  else
    let addr := s.sliceAddr g fm a off w.bytes
    let rs := (List.range 32).map fun i => (i, s.checkLane g ⟨i, addr i, w.bytes, .read, fm, false, false, false⟩ priv use)
    match winningCause rs with
    | some c =>
      let r := laneReport c rs addr fullMask
      let walked := (List.range 32).flatMap fun i =>
        s.laneWalked g ⟨i, addr i, w.bytes, .read, fm, false, false, false⟩ priv use
      (s.mark (walked.map fun a => (a, 1))).sliceCause g c r.info r.addr
    | none =>
      match checkedPa rs with
      | some pa => s.machineCheck (s.ctxOf g) pa
      | none =>
        let faulted := rs.findSome? fun r =>
          match r.2 with
          | .fault f tr => some (f, tr)
          | _ => none
        match faulted with
        | some (f, tr) => (s.leaveWalk tr).sliceStop g (.fault f)
        | none =>
          let ts := okTargets rs
          match ts.findSome? fun t => (s.engLost g t.2).or (s.engFailed t.2) with
          | some pa => s.machineCheck (s.ctxOf g) pa
          | none =>
            if ts.length < 32 || ts.any (fun t => !s.engMay g .load t.2) then s
            else
              let q := ts.foldl (fun (q : State × List Word) t =>
                let r := q.1.sliceRead g priv use t.2
                (r.1, q.2 ++ [w.word r.2 0])) (s, [])
              (q.1.push g f (Lanes.ofFn fun i => q.2.getD i 0)).modSlice g fun x => { x with pc := next }

/-- An element as a word of a feed entry (R160). -/
def feedWord (e : Elem) (p : Nat) : Word :=
  match e with
  | .int f => BitVec.ofInt 32 (f.value (p % 2 ^ f.bits))
  | .flt .fp32 => BitVec.ofNat 32 p
  | .flt f => BitVec.ofNat 32 (roundFlt .fp32 Ctx.rne (f.value (p % 2 ^ f.bits))).1
  | _ => BitVec.ofNat 32 p

/-- The words of a walk's entry, from element `i` on, `n` of them. -/
def State.walkWords (s : State) (g : Nat) (priv use : Bool) (r : ShapeRec) (base : DWord) : Nat → Nat → List Word →
    State × Except EngStop (List Word)
  | 0, _, ws => (s, .ok ws)
  | n + 1, i, ws =>
    if r.count ≤ i then State.walkWords s g priv use r base n (i + 1) (ws ++ [0])
    else
      let q := s.walkElement g priv use r i
      match q.2 with
      | .error e => (q.1, .error e)
      | .ok .skip => State.walkWords q.1 g priv use r base n (i + 1) (ws ++ [0])
      | .ok (.pad p) => State.walkWords q.1 g priv use r base n (i + 1) (ws ++ [feedWord r.elem p])
      | .ok (.off o) =>
        let a := elemAddr r.elem base o
        let v := q.1.engRead g priv use a.1 r.elem.bytes
        match v.2 with
        | .error e => (v.1, .error e)
        | .ok x => State.walkWords v.1 g priv use r base n (i + 1) (ws ++ [feedWord r.elem (pickElem r.elem a.2 x)])

/-- One entry of a pending walk; after the last the slice goes on behind it. -/
def State.walkStep (s : State) (g : Nat) (w : Walk) (priv use : Bool) : State :=
  if s.feedFull g w.feed then s
  else
    let q := s.readShape g priv use w.srec
    match q.2 with
    | .error e => q.1.sliceStop g e
    | .ok r =>
      if r.elem = .pair then q.1.sliceCause g .illegalOperand 0 w.srec
      else
        let v := q.1.walkWords g priv use r w.sbase 32 (32 * w.next) []
        match v.2 with
        | .error e => v.1.sliceStop g e
        | .ok ws =>
          let s := v.1.push g w.feed (Lanes.ofFn fun i => ws.getD i 0)
          if r.count ≤ 32 * (w.next + 1) then s.modSlice g fun x => { x with walk := none, pc := x.pc + 1 }
          else s.modSlice g fun x => { x with walk := some { w with next := w.next + 1 } }

/-- A walk's start: its descriptor is that of a CPY without a destination (R160). One that names a destination or an
object raises ILLEGAL_OPERAND (DESIGN CHOICE, log entry 112: R160 says what the fields are, and no cause). SBASE is
checked at each element's address, and not as the walk starts (DESIGN CHOICE, log entry 135). -/
def State.startWalk (s : State) (g f : Nat) (a : Src) (priv use : Bool) : State :=
  let x := s.sliceRd g a.spec
  let addr := x.u.setWidth 64
  if x.sh ≠ .uniform then s.sliceCause g .shapeMismatch 0 0
  else if 2 ^ 22 ≤ addr.toNat then s.sliceCause g .spaceInvalid 0 addr
  else if s.regionBytes (teamOf g) < addr.toNat + 48 then s.sliceCause g .permission 0 addr
  else if addr.toNat % 16 ≠ 0 then s.sliceCause g .misaligned 0 addr
  else
    let q := (List.range 6).foldl (fun (q : State × Except EngStop (List Byte)) j =>
      match q.2 with
      | .error e => (q.1, .error e)
      | .ok bs =>
        let r := q.1.engGet g (q.1.formCheck .loc g priv use (addr + BitVec.ofNat 64 (8 * j)) 8 .read)
        (r.1, r.2.map fun v => bs ++ bytesOf 8 v)) (s, .ok [])
    match q.2 with
    | .error e => q.1.sliceStop g e
    | .ok bs =>
      if fieldAt bs 8 8 ≠ 0 ∨ fieldAt bs 0x18 8 ≠ 0 ∨ fieldAt bs 0x20 4 ≠ 0xFFFFFFFF ∨ fieldAt bs 0x24 12 ≠ 0 then
        q.1.sliceCause g .illegalOperand 0 addr
      else
        q.1.modSlice g fun x => { x with
          walk := some ⟨f, BitVec.ofNat 64 (fieldAt bs 0 8), BitVec.ofNat 64 (fieldAt bs 0x10 8), 0⟩ }

/-- One instruction of the slice at slot `here`; `next` is the slot after it. -/
def State.sliceInstr (s : State) (g here next : Nat) (i : Instr) (priv use : Bool) : State :=
  match i with
  | .iadd d a b => s.slice2 g next d a b shapeAdd (· + ·)
  | .isub d a b => s.slice2 g next d a b shapeSub (· - ·)
  | .imul d a b => s.slice2 g next d a b shapeMul (· * ·)
  | .and d a b => s.slice2 g next d a b shape2 (· &&& ·)
  | .or d a b => s.slice2 g next d a b shape2 (· ||| ·)
  | .xor d a b => s.slice2 g next d a b shape2 (· ^^^ ·)
  | .shl d a b => s.slice2 g next d a b shapeShl shlWord
  | .shr d a b => s.slice2 g next d a b shape2 shrWord
  | .sar d a b => s.slice2 g next d a b shape2 sarWord
  | .mov d a =>
    let x := s.sliceRd g a.spec
    s.slicePut g next d x.sh x.vals
  | .movi d e => s.slicePut g next d .uniform (Lanes.splat (BitVec.ofInt 32 e))
  | .limm d n => s.slicePut g next d .uniform (Lanes.splat (BitVec.ofNat 32 n))
  | .bra off => s.modSlice g fun x => { x with pc := target here off }
  | .bnz a off => s.sliceBranch g here next a off true
  | .bz a off => s.sliceBranch g here next a off false
  | .nop => s.modSlice g fun x => { x with pc := next }
  | .exit => s.modSlice g fun x => { x with st := .ended }
  | .cpyFeed f a => s.startWalk g f a priv use
  | _ => s.sliceCause g .shapeMismatch 0 0

/-- The slice operation at a position of a bundle, and the number of its slots. A LIMM takes its literal from
the slot that it is chained to. -/
def sliceAt (view : OpView) (b : Bundle) (p : Nat) : Except DecodeErr (SliceOp × Nat) :=
  let wide := isLimm view (b.slot p)
  if 2 ≤ b.v then .error .illegalBundle
  else if (wide && !(b.ch p)) || (decide (0 < p) && b.ch (p - 1) && isLimm view (b.slot (p - 1))) then
    .error .illegalChain
  else
    match decodeSliceSlot view (b.slot p) (b.slot (p + 1)) with
    | .error e => .error e
    | .ok o => .ok (o, if wide then 2 else 1)

/-- One step of a running slice: an entry of its walk, or its next instruction. -/
def State.sliceGo (s : State) (g : Nat) (use : Bool) : State :=
  let x := (s.group g).slice
  match x.walk with
  | some w => s.walkStep g w x.priv use
  | none =>
    match s.fetch g x.pc x.priv use with
    | .permission tr => (s.leaveWalk tr).sliceCause g .permission 0 (BitVec.ofNat 64 (bundleAddr x.pc))
    | .fault f tr => (s.leaveWalk tr).sliceStop g (.fault f)
    | .check pa => s.machineCheck (s.ctxOf g) pa
    | .ok n tr =>
      let s := s.leave tr
      match sliceAt (s.view (s.ctx (s.ctxOf g))) (bundleOfNat n) (x.pc % 3) with
      | .error e => s.sliceCause g (decodeCause e) 0 0
      | .ok (.feedLoad fm w f a off, k) => s.feedLoad g (x.pc + k) fm w f a off x.priv use
      | .ok (.instr i, k) => s.sliceInstr g x.pc (x.pc + k) i x.priv use

/-- A slice's reads, for their place in program order: that of its start. -/
def Slice.probe (x : Slice) : Access := Access.probe .load none x.mask x.past

/-- What an acquire or a FENCE orders before a slice's reads and is still to be performed (R280 cases 4 to 6). -/
def State.sliceBefore (s : State) (g : Nat) : List Scoped := s.scopedBefore g (s.group g).slice.order (s.group g).slice.probe

/-- Whether a slice's reads may be performed: they may overtake what is ordered before them in a scope, and follow no write
that an acquire orders before them and that is not at every replica (R280, R291). -/
def State.sliceOrdered (s : State) (g : Nat) : Bool :=
  let x := (s.group g).slice
  s.mayOvertake g x.probe (s.sliceBefore g) &&
    !s.lagging g x.order x.mask x.past fun _ b => (s.group g).acquired b x.order x.probe

/-- A slice's step, with what it reads early noted. -/
def State.sliceEarly (s : State) (g : Nat) (f : State → State) : State :=
  match s.sliceBefore g with
  | [] => f s
  | es => (f (s.noteEarly g (s.group g).slice.order (s.group g).slice.probe es [] true)).collected

/-- Whether a group has a slice at work: it is in a live bank, and not halted (R406). -/
def Group.slices (gr : Group) : Bool :=
  gr.live && decide (gr.bank = .live) && !gr.halted && decide (gr.slice.st = .running) && !gr.slice.faulted

/-- SLICE_STEP (R159 to R162): a running slice whose group is live. -/
def State.sliceStep (s : State) (g : Nat) : State :=
  let gr := s.group g
  let use := s.choice
  if !gr.slices || !s.sliceOrdered g then s
  else if gr.slice.aborted then s.sliceCause g .translationAbort (gr.slice.pc % 2 ^ 18) gr.slice.faultAt
  else s.chosen.sliceEarly g fun t => t.sliceGo g use

/-- SLICE_STEP. -/
def execSliceStep (g : Nat) (s : State) : Host.Outcome State Fault Refusal := .next (s.sliceStep g)

end Sys2Proof.Machine
end

