-- ==== Sys2Proof/Machine/Chain.lean ====
section
/-! DEFINITION. The plan of every instruction, by which a chain's members issue together (R41 to R43) and an
instruction that has waited goes on; the illegal opcode (R63). -/

namespace Sys2Proof.Machine

open Sys2Proof

/-- An unassigned opcode (R63, R65). -/
def planIllegalOpcode : Plan := fun s => s.stop .illegalOpcode

/-- The plan of an instruction; an event issues nothing. -/
def planOf : Instr → Plan
  | .bra off => planBra off
  | .bnz a off => planBnz a off
  | .bz a off => planBz a off
  | .bdv off => planBdv off
  | .jpt a n => planJpt a n
  | .bix a => planBix a
  | .call off => planCall off
  | .trap n => planTrap n
  | .tret next => planTret next
  | .srd d reg => planSrd d reg
  | .swr reg a => planSwr reg a
  | .pfdoneReplay lane => planPfdoneReplay lane
  | .pfdoneAbort lane => planPfdoneAbort lane
  | .mapidWrite w => planMapidWrite w
  | .dtdataWrite w => planDtdataWrite w
  | .bkpt n => planBkpt n
  | .fltrd f d => planFltrd f d
  | .iadd d a b => planIadd d a b
  | .isub d a b => planIsub d a b
  | .iadds sg d a b => planIadds sg d a b
  | .isubs sg d a b => planIsubs sg d a b
  | .imul d a b => planImul d a b
  | .imulh sg d a b => planImulh sg d a b
  | .imad d a b c => planImad d a b c
  | .imin sg d a b => planImin sg d a b
  | .imax sg d a b => planImax sg d a b
  | .iabs d a => planIabs d a
  | .ineg d a => planIneg d a
  | .idot4 f d a b c => planIdot4 f d a b c
  | .and d a b => planAnd d a b
  | .or d a b => planOr d a b
  | .xor d a b => planXor d a b
  | .andn d a b => planAndn d a b
  | .shl d a b => planShl d a b
  | .shr d a b => planShr d a b
  | .sar d a b => planSar d a b
  | .rotl d a b => planRotl d a b
  | .bfe sgn d a pos len => planBfe sgn d a pos len
  | .bfi d a b c => planBfi d a b c
  | .popc d a => planPopc d a
  | .clz d a => planClz d a
  | .brev d a => planBrev d a
  | .icmp cc d a b => planIcmp cc d a b
  | .sel d a b kn => planSel d a b kn
  | .mov d a => planMov d a
  | .movi d e => planMovi d e
  | .limm d lit => planLimm d lit
  | .fadd f r d a b => planFadd f r d a b
  | .fsub f r d a b => planFsub f r d a b
  | .fmul f r d a b => planFmul f r d a b
  | .ffma f d a b c => planFfma f d a b c
  | .fmin f d a b => planFmin f d a b
  | .fmax f d a b => planFmax f d a b
  | .fcmp f cc d a b => planFcmp f cc d a b
  | .fclass f d a => planFclass f d a
  | .fround f r d a => planFround f r d a
  | .fdiv f r d a b => planFdiv f r d a b
  | .fsqrt f r d a => planFsqrt f r d a
  | .frcp f r d a => planFrcp f r d a
  | .frsq f r d a => planFrsq f r d a
  | .fexp f r d a => planFexp f r d a
  | .fexp2 f r d a => planFexp2 f r d a
  | .flog f r d a => planFlog f r d a
  | .flog2 f r d a => planFlog2 f r d a
  | .fsin f r d a => planFsin f r d a
  | .fcos f r d a => planFcos f r d a
  | .ftanh f r d a => planFtanh f r d a
  | .twosum d a b => planTwosum d a b
  | .twoprod d a b => planTwoprod d a b
  | .padd d a b => planPadd d a b
  | .pnorm d a => planPnorm d a
  | .cvtTo tgt r d a => planCvtTo tgt r d a
  | .cvtFrom fr r d a => planCvtFrom fr r d a
  | .qnt f d a b c => planQnt f d a b c
  | .dqnt f d a b c => planDqnt f d a b c
  | .pack w d a b c => planPack w d a b c
  | .unpk t d a b => planUnpk t d a b
  | .rnse d a => planRnse d a
  | .rnsd d a => planRnsd d a
  | .acvt d a anchor => planAcvt d a anchor
  | .perm w d a b c => planPerm w d a b c
  | .shfl m d a b c => planShfl m d a b c
  | .bcast d a b => planBcast d a b
  | .vote m d a => planVote m d a
  | .lred op pair d a => planLred op pair d a
  | .lscan op ex d a => planLscan op ex d a
  | .shape d a => planShape d a
  | .mkaff d a b => planMkaff d a b
  | .mkuni chk d a => planMkuni chk d a
  | .free a n => planFree a n
  | .regq grp d a => planRegq grp d a
  | .sfmt imm a => planSfmt imm a
  | .gfmt d => planGfmt d
  | .srnd imm a => planSrnd imm a
  | .grnd d => planGrnd d
  | .flags d => planFlags d
  | .flagsClr d a => planFlagsClr d a
  | .ld w d a off => planLd w d a off
  | .st w s a off => planSt w s a off
  | .lds w d a off => planLds w d a off
  | .sts w s a off => planSts w s a off
  | .ldc w d a off => planLdc w d a off
  | .stc w s a off => planStc w s a off
  | .ldUni fm w d a off => planLdUni fm w d a off
  | .ldNb fm w rel d a t => planLdNb fm w rel d a t
  | .stVa fm w rel s a t => planStVa fm w rel s a t
  | .ldAcq fm w sc d a => planLdAcq fm w sc d a
  | .stRel fm w sc a s => planStRel fm w sc a s
  | .sptest d a => planSptest d a
  | .spcast fr tgt d a => planSpcast fr tgt d a
  | .pfet a off => planPfet a off
  | .atom op d a b c => planAtom op d a b c
  | .atoms op d a b c => planAtoms op d a b c
  | .asum a x anchor => planAsum a x anchor
  | .fence k sc => planFence k sc
  | .rmap d a b c => planRmap d a b c
  | .rflush n => planRflush n
  | .rdrop n => planRdrop n
  | .tnow d => planTnow d
  | .twait rel a => planTwait rel a
  | .cpy a => planCpy a
  | .cpyFeed _ _ => planCpyFeed
  | .cpyl a => planCpyl a
  | .cbatch d => planCbatch d
  | .cwait all a => planCwait all a
  | .bari b n => planBari b n
  | .barx c32 b c => planBarx c32 b c
  | .bara c32 b => planBara c32 b
  | .barw d b => planBarw d b
  | .astart a x => planAstart a x
  | .astop discard => planAstop discard
  | .fstat d => planFstat d
  | .wld tag m a c => planWld tag m a c
  | .mmr p lowh q m c a lo => planMmr p lowh q m c a lo
  | .mmrHold p lowh q m c a lo => planMmrHold p lowh q m c a lo
  | .mmf f q m c a => planMmf f q m c a
  | .mmc p lowh q m c a lo => planMmc p lowh q m c a lo
  | .mmcHold p lowh q m c a lo => planMmcHold p lowh q m c a lo
  | .qzero q c => planQzero q c
  | .qdrain f r z a q c s => planQdrain f r z a q c s
  | .qscale bf16 t q a => planQscale bf16 t q a
  | .qsave a q c => planQsave a q c
  | .qload a q c => planQload a q c
  | .qstat d q => planQstat d q
  | .vbegin h a => planVbegin h a
  | .vslot prev d h => planVslot prev d h
  | .vseal h a b => planVseal h a b
  | .vsealFinal h a b => planVsealFinal h a b
  | .vpin d h a => planVpin d h a
  | .vunpin h => planVunpin h
  | .vwait d h a t => planVwait d h a t
  | .vstat d h w => planVstat d h w
  | .vleft k d => planVleft k d
  | .launch d a => planLaunch d a
  | .join d a => planJoin d a
  | .bleft d => planBleft d
  | .dline rel d => planDline rel d
  | .nop => planNop
  | .ret => planRet
  | .exit => planExit
  | .yld => planYld
  | .tsync => planTsync
  | .halt => planHalt
  | .powerOnBoot _ _ => fun _ => .error .stall
  | .negotiateAlgorithms _ _ => fun _ => .error .stall
  | .getCertificate _ => fun _ => .error .stall
  | .challenge _ => fun _ => .error .stall
  | .setepoch _ _ => fun _ => .error .stall
  | .timepost _ _ _ => fun _ => .error .stall
  | .partcreate _ _ => fun _ => .error .stall
  | .partdestroy _ _ => fun _ => .error .stall
  | .calwrite _ _ _ => fun _ => .error .stall
  | .connwrite _ _ _ => fun _ => .error .stall
  | .ctxkill _ _ => fun _ => .error .stall
  | .ctxleave _ _ => fun _ => .error .stall
  | .ctxresume _ _ => fun _ => .error .stall
  | .ctxcreate _ _ => fun _ => .error .stall
  | .vdsetup _ _ => fun _ => .error .stall
  | .pagereq _ _ _ => fun _ => .error .stall
  | .powerStateChange _ => fun _ => .error .stall
  | .invStageWrite _ _ _ => fun _ => .error .stall
  | .invAllVdid _ _ => fun _ => .error .stall
  | .invStage1Range _ _ _ _ => fun _ => .error .stall
  | .invStage2Range _ _ _ _ => fun _ => .error .stall
  | .invEveryVdid _ => fun _ => .error .stall
  | .invalComplete _ => fun _ => .error .stall
  | .stage2Retry _ => fun _ => .error .stall
  | .stage2Fatal _ => fun _ => .error .stall
  | .ringDoorbell _ _ _ => fun _ => .error .stall
  | .hostAccess _ => fun _ => .error .stall
  | .peerAccess _ => fun _ => .error .stall
  | .timeSyncExchange _ _ _ => fun _ => .error .stall
  | .brynrikLinkDown _ => fun _ => .error .stall
  | .peerAccessAbort _ _ => fun _ => .error .stall
  | .throttle _ _ => fun _ => .error .stall
  | .throttleEnd _ => fun _ => .error .stall
  | .patrolScrubError _ => fun _ => .error .stall
  | .fabricParityError _ _ => fun _ => .error .stall
  | .admissionDecision _ => fun _ => .error .stall
  | .spanStart _ _ => fun _ => .error .stall
  | .teamEnd _ => fun _ => .error .stall
  | .launchEnd _ => fun _ => .error .stall
  | .calendarSwitch _ => fun _ => .error .stall
  | .castlingSwap _ _ => fun _ => .error .stall
  | .fumaroleLoad _ _ => fun _ => .error .stall
  | .leaveForcedHalt _ => fun _ => .error .stall
  | .leaveKill _ => fun _ => .error .stall
  | .deadlineReached _ => fun _ => .error .stall
  | .cutTimeReached _ => fun _ => .error .stall
  | .energyUpdate _ _ => fun _ => .error .stall
  | .cutRecordUpdate _ => fun _ => .error .stall
  | .passCommit _ _ => fun _ => .error .stall
  | .vbeginRetry _ _ => fun _ => .error .stall
  | .vwaitWake _ _ => fun _ => .error .stall
  | .faultHandlerLaunch _ _ => fun _ => .error .stall
  | .logReplay _ _ => fun _ => .error .stall
  | .trapDelivery _ _ => fun _ => .error .stall
  | .lateCauseDelivery _ _ => fun _ => .error .stall
  | .illegalOpcode _ => planIllegalOpcode
  | .heldArrival _ _ => fun _ => .error .stall
  | .holdRelease _ => fun _ => .error .stall
  | .loadReturn _ _ _ => fun _ => .error .stall
  | .replicaUpdate _ _ => fun _ => .error .stall
  | .regionWriteback _ _ _ => fun _ => .error .stall
  | .copyComplete _ _ _ => fun _ => .error .stall
  | .cwaitWake _ _ => fun _ => .error .stall
  | .barwWake _ _ => fun _ => .error .stall
  | .tsyncWake _ _ => fun _ => .error .stall
  | .joinWake _ _ => fun _ => .error .stall
  | .twaitExpiry _ _ => fun _ => .error .stall
  | .exitComplete _ _ => fun _ => .error .stall
  | .slowPathCommit _ _ => fun _ => .error .stall
  | .sliceStep _ => fun _ => .error .stall
  | .launchPacket _ _ => fun _ => .error .stall
  | .beginPacket _ _ => fun _ => .error .stall
  | .commitPacket _ _ => fun _ => .error .stall
  | .waitPacket _ _ => fun _ => .error .stall
  | .signalPacket _ _ => fun _ => .error .stall
  | .indirectPacket _ _ => fun _ => .error .stall
  | .rfet _ _ => fun _ => .error .stall
  | .xbfx _ _ _ => fun _ => .error .stall
  | .swait _ _ _ => fun _ => .error .stall
  | .xdisp _ _ => fun _ => .error .stall
  | .writePerformed _ _ _ => fun _ => .error .stall
  | .tempThrottleLimit _ _ => fun _ => .error .stall
  | .prologueReturn _ _ => fun _ => .error .stall
  | .getVersion => fun _ => .error .stall
  | .getCapabilities => fun _ => .error .stall
  | .getDigests => fun _ => .error .stall
  | .getMeasurements => fun _ => .error .stall
  | .cxlLinkFailure => fun _ => .error .stall
  | .hostRestart => fun _ => .error .stall
  | .lockLossTimeout => fun _ => .error .stall
  | .tempCritical => fun _ => .error .stall
  | .droop => fun _ => .error .stall
  | .castlingRequest => fun _ => .error .stall
  | .fumaroleSpill => fun _ => .error .stall
  | .zugzwangSpill => fun _ => .error .stall
  | .matrixStart => fun _ => .error .stall
  | .matrixResume => fun _ => .error .stall
  | .matrixComplete => fun _ => .error .stall
  | .waitPacketRelease => fun _ => .error .stall
  | .prologueTimeout => fun _ => .error .stall
  | .swaitWake => fun _ => .error .stall

/-- ILLEGAL_OPCODE (R63 to R65). -/
def execIllegalOpcode (op : Nat) (s : State) : Host.Outcome State Fault Refusal :=
  issue (.illegalOpcode op) planIllegalOpcode s

end Sys2Proof.Machine
end

