-- ==== Sys2Proof/Machine/Select.lean ====
section
/-! DEFINITION. What a core does when its turn comes (R309, R342, R389): which group and split issue, the bundle
that the split is in (R40, R68, R95), and the issue of its next unit. -/

namespace Sys2Proof.Machine

open Sys2Proof

/-! ### The split's next unit (R40, R68) -/

/-- What stands at a split's pc. -/
inductive Look where
  | unit (u : IssueUnit) (e : Entered) (tr : Trail)
  | bad (err : DecodeErr) (slot len : Nat) (e : Entered) (tr : Trail)
  | permission (tr : Trail)
  | fault (f : FaultInfo) (tr : Trail)
  | check (pa : Nat)
  deriving DecidableEq, Repr

/-- The slots of the chain that starts at a position of a bundle. -/
def chainLen (bundle p : Nat) : Nat := chainEnd (bundleOfNat bundle) p + 1 - p

/-- The unit at a slot of an entered bundle. -/
def Entered.look (e : Entered) (pc : Nat) (tr : Trail) : Look :=
  match e.pos[pc % 3]? with
  | some (.unit u) => .unit u e tr
  | some (.bad err p) => .bad err (pc / 3 * 3 + p) (chainLen e.bundle p) e tr
  | none => .bad .illegalBundle pc 1 e tr

/-- The unit at a split's pc: of the bundle that it has entered, or of the one that it fetches now. -/
def State.look (s : State) (g : Nat) (x : Split) : Look :=
  match x.entered with
  | some e => e.look x.pc Trail.none
  | none =>
    match s.fetch g x.pc (s.privileged g x.mask) s.choice with
    | .ok n tr => (enterBundle (s.view (s.ctx (s.ctxOf g))) n).look x.pc tr
    | .permission tr => .permission tr
    | .fault f tr => .fault f tr
    | .check pa => .check pa

/-- The members of a unit at a slot. -/
def membersAt (slot : Nat) (u : IssueUnit) : List Member :=
  u.members.map fun m => ⟨slot / 3 * 3 + m.1, m.2, planOf m.2⟩

/-- The state with the executing unit set. -/
def State.executing (s : State) (g sp slot len : Nat) : State := { s with cur := ⟨g, sp, slot, len⟩ }

/-- The state in which a split's unit issues: the bundle entered, the trail of its fetch left. -/
def State.entering (s : State) (g : Nat) (x : Split) (len : Nat) (e : Entered) (tr : Trail) : State :=
  let s := s.executing g x.num x.pc len
  if x.entered.isSome then s else (s.chosen.leave tr).modSp fun y => { y with entered := some e }

/-! ### Pending causes (R389) -/

/-- The earliest late cause: in issue order, PERMISSION before TRANSLATION_ABORT. -/
def firstLate : List Late → Option Late
  | [] => none
  | l :: r =>
    match firstLate r with
    | none => some l
    | some k =>
      if k.order < l.order ∨ (k.order = l.order ∧ k.report.cause = .permission ∧ l.report.cause ≠ .permission) then some k
      else some l

/-- The cause that is delivered next in a split, and the group without it. -/
def Group.asyncCause (g : Group) (m : Word) : Option (Report × Group) :=
  match g.overrun with
  | some why => some (unitReport .overrun why m 0, { g with overrun := none })
  | none =>
    match firstLate g.lates with
    | some l => some (l.report, { g with lates := g.lates.erase l })
    | none =>
      match g.slice.cause with
      | some (c, a, i) => some ({ unitReport c i m a with src := 2 }, { g with slice := { g.slice with cause := none } })
      | none =>
        match g.lateVis with
        | (a, lanes) :: r => some ({ unitReport .lateVis 0 lanes a with src := 3 }, { g with lateVis := r })
        | [] => none

/-- Whether a pending cause is delivered before a split's next unit. -/
def Group.asyncDue (g : Group) (x : Split) : Bool :=
  x.wait.isNone && (g.asyncCause x.mask).isSome

/-- Delivers the next pending cause in a split, at the unit that it would issue (R385, R389). -/
def State.deliverAsync (s : State) (g : Nat) (x : Split) (len : Nat) : State :=
  match (s.group g).asyncCause x.mask with
  | some (r, gr) => if gr.log = [] then (s.setGroup g gr).deliver g x.num r x.pc len else s
  | none => s

/-- Delivers a cause that waited for the operand log (R95, R385). -/
def State.deliverTrap (s : State) (g : Nat) (x : Split) : State :=
  match x.trap with
  | some (r, slot, len) => if (s.group g).log = [] then s.deliver g x.num r slot len else s
  | none => s

/-! ### Readiness (R309) -/

/-- Whether a unit would issue now: it is neither interlocked nor stalled, and a waiting one would go on. -/
def State.wouldIssue (s : State) (ms : List Member) : Bool :=
  if (ms.any fun m => s.interlocked m.instr) || s.feedsShort ms then false
  else
    let ps := s.reading.plans ms
    match winner (ps.flatMap fun p => p.2.1) with
    | some _ => true
    | none =>
      let u := cutUnit ms ps
      match firstStop u.1 with
      | some .stall => false
      | some .full => s.g.stallBuf.isNone
      | some (.wait _) => s.sp.wait.isNone
      | some _ => true
      | none =>
        let q := if u.2.2.isSome then s.partChange u.2.1 u.1 else s.unitChange ms ps
        !s.unitAfter u.2.1 q && ((s.asker (s.coreOf s.cur.group)).isNone || s.unitFits u.2.1 q)

/-- Whether a split is ready. -/
def State.readySplit (s : State) (g : Nat) (x : Split) : Bool :=
  let gr := s.group g
  if x.fetchFault then false
  else if x.trap.isSome then decide (gr.log = [])
  else if gr.stallBuf.isSome && gr.stallBuf != some x.num then false
  else
    match s.look g x with
    | .unit u e tr =>
      if gr.asyncDue x then decide (gr.log = []) else (s.entering g x u.len e tr).wouldIssue (membersAt x.pc u)
    | .bad _ _ _ _ _ => !gr.asyncDue x || decide (gr.log = [])
    | _ => true

/-- The ready split that issues next: after the last one, in ascending order, from 3 to 0 (R309). -/
def State.nextSplit (s : State) (g : Nat) : Option Split :=
  let gr := s.group g
  ((List.range 4).filterMap fun k => gr.split? ((gr.lastSplit + 1 + k) % 4)).find? fun x => s.readySplit g x

/-- Whether nothing of its own keeps a group from issuing: it lives, is not halted, no fetch fault of a split of its is
open, its launch is not cut (R95, R365, R406). -/
def State.canRun (s : State) (g : Nat) : Bool :=
  let gr := s.group g
  gr.live && !gr.halted && !(gr.splits.any (·.fetchFault)) && (s.launch (launchOf g)).cut.isNone

/-- Whether a group may issue at all: in the live bank of a core that runs, with no castling asked for (R393, R428,
R430). -/
def State.mayIssue (s : State) (g : Nat) : Bool :=
  s.canRun g && decide ((s.group g).bank = .live) && !(s.core (s.coreOf g)).castling &&
    decide (s.power = .running) && !s.resetHold

/-- Whether a group has a ready split. -/
def State.ready (s : State) (g : Nat) : Bool := (s.nextSplit g).isSome

/-! ### SelectGroup (R339, R342) -/

/-- The slot of a core's calendar. -/
def State.calSlot (s : State) (c : Nat) : Nat := (s.core c).cycles / 4000 / 32 % 64

/-- The entry of a core's calendar in the current slot. -/
def State.calEntry (s : State) (c : Nat) : Byte := ((s.calendar c).now).getD (s.calSlot c) 0

/-- Whether a launch's tenant owns a calendar slot, a free one counting for all (R344). -/
def ownsSlot (e : Byte) (vdid : Nat) : Bool := decide (e.toNat < 128) || decide (e.toNat = 128 + vdid)

/-- The tenant of a group: of its launch, or for a handler group of the context of its faults. -/
def State.tenant (s : State) (g : Nat) : Nat := (s.ctx (s.ctxOf g)).vdid

/-- The order of two sort keys. -/
def keyLt (a b : Nat × Nat) : Bool := decide (a.1 < b.1) || (decide (a.1 = b.1) && decide (a.2 < b.2))

/-- The sort key of a group. -/
def State.keyOf (s : State) (g : Nat) : Nat × Nat := (s.launch (launchOf g)).key

/-- Whether group `a` goes before group `b`: by key, then by sequence number, team and group. -/
def State.goesBefore (s : State) (a b : Nat) : Bool :=
  keyLt (s.keyOf a) (s.keyOf b) || (decide (s.keyOf a = s.keyOf b) &&
    keyBefore ((s.launch (launchOf a)).seq, teamId (teamOf a), groupIx a)
      ((s.launch (launchOf b)).seq, teamId (teamOf b), groupIx b))

/-- The first of some groups. -/
def State.firstGroup (s : State) : List Nat → Option Nat
  | [] => none
  | g :: r =>
    match State.firstGroup s r with
    | none => some g
    | some h => if s.goesBefore h g then some h else some g

/-- The candidates of a selection. -/
def State.candidates (s : State) (c : Nat) : List Nat :=
  let rs := (s.bankGroups c).filter fun g => s.mayIssue g && s.ready g
  let e := s.calEntry c
  let own := rs.filter fun g => s.tenant g == e.toNat - 128
  if 128 ≤ e.toNat ∧ own ≠ [] then own else rs

/-- SelectGroup (R342). -/
def State.selectGroup (s : State) (c : Nat) : Option Nat :=
  let cs := s.candidates c
  match s.firstGroup cs, (s.core c).last with
  | some g, some h =>
    if cs.contains h && decide (s.keyOf h = s.keyOf g) && !(s.group h).yielded then some h else some g
  | some g, none => some g
  | none, _ => none

/-! ### Issuing -/

/-- What a core does in its turn. -/
inductive Turn where
  | idle
  | exec (i : Instr) (s : State)          -- one instruction, in the state in which it executes
  | done (s : State)
  deriving Repr

/-- A split issues its next unit, or takes what stands in its way. -/
def State.turnOf (s : State) (g : Nat) (x : Split) : Turn :=
  if x.trap.isSome then .done (s.deliverTrap g x)
  else
    match s.look g x with
    | .permission tr =>
      .done (((s.leaveWalk tr).executing g x.num x.pc 1).raise (unitReport .permission 0 x.mask (BitVec.ofNat 64 (bundleAddr x.pc))))
    | .fault f tr =>
      .done (((s.chosen.leaveWalk tr).setGroup g ((s.group g).putSplit { x with fetchFault := true })).addFault g
        (.fetch x.num) f)
    | .check pa => .done (s.machineCheck (s.ctxOf g) pa)
    | .bad err slot len e tr =>
      if (s.group g).asyncDue x then .done (s.deliverAsync g x len)
      else
        let t := { s.entering g x len e tr with cur := ⟨g, x.num, slot, len⟩ }
        match err with
        | .illegalOpcode op => .exec (.illegalOpcode op) t
        | _ => .done (t.chargePass.raise (unitReport (decodeCause err) 0 x.mask 0))
    | .unit u e tr =>
      if (s.group g).asyncDue x then .done (s.deliverAsync g x u.len)
      else
        match u.members with
        | [(_, i)] => .exec i (s.entering g x u.len e tr)
        | _ => .done ((s.entering g x u.len e tr).issueUnit (membersAt x.pc u))

/-- The core's record of its last issuer, whose yield is used up (R39, R342). -/
def State.chosenGroup (s : State) (c g : Nat) (x : Split) : State :=
  let s := match (s.core c).last with
    | some h => s.setGroup h { s.group h with yielded := false }
    | none => s
  (s.setCore c { s.core c with last := some g }).setGroup g { s.group g with lastSplit := x.num }

/-- A core's turn. -/
def State.coreTurn (s : State) (c : Nat) : Turn :=
  match s.selectGroup c with
  | none => .idle
  | some g =>
    match s.nextSplit g with
    | none => .idle
    | some x => (s.chosenGroup c g x).turnOf g x

end Sys2Proof.Machine
end

