-- ==== Sys2Proof/Machine/Wakes.lean ====
section
/-! DEFINITION. The ends of waits (R92, R151, R158, R318, R320, R349, R351, R358, R373) and the delivery of
causes that waited (R385, R389). Each happens in a group that may issue. -/

namespace Sys2Proof.Machine

open Sys2Proof

/-- A waiting split's instruction goes on, where it has what it waits for. -/
def State.wake (s : State) (g sp : Nat) (p : Wait → Bool) : State :=
  match (s.group g).split? sp with
  | none => s
  | some x =>
    if (x.wait.any p) && s.mayIssue g && s.readySplit g x then
      match s.look g x with
      | .unit u e tr => (s.entering g x u.len e tr).issueUnit (membersAt x.pc u)
      | _ => s
    else s

/-- CWAIT_WAKE (R148, R151). -/
def execCwaitWake (g sp : Nat) (s : State) : Host.Outcome State Fault Refusal :=
  .next (s.wake g sp fun w =>
    match w with
    | .cwait _ => true
    | _ => false)

/-- BARW_WAKE (R152, R155, R158). -/
def execBarwWake (g sp : Nat) (s : State) : Host.Outcome State Fault Refusal :=
  .next (s.wake g sp fun w =>
    match w with
    | .barw _ _ => true
    | _ => false)

/-- TSYNC_WAKE (R320). -/
def execTsyncWake (g sp : Nat) (s : State) : Host.Outcome State Fault Refusal :=
  .next (s.wake g sp fun w =>
    match w with
    | .tsync _ => true
    | _ => false)

/-- JOIN_WAKE (R346, R351). -/
def execJoinWake (g sp : Nat) (s : State) : Host.Outcome State Fault Refusal :=
  .next (s.wake g sp fun w =>
    match w with
    | .join _ => true
    | _ => false)

/-- TWAIT_EXPIRY (R349). -/
def execTwaitExpiry (g sp : Nat) (s : State) : Host.Outcome State Fault Refusal :=
  .next (s.wake g sp fun w =>
    match w with
    | .twait _ => true
    | _ => false)

/-- EXIT_COMPLETE (R148, R164, R318). -/
def execExitComplete (g sp : Nat) (s : State) : Host.Outcome State Fault Refusal :=
  .next (s.wake g sp fun w =>
    match w with
    | .exit => true
    | _ => false)

/-- VBEGIN_RETRY (R358). -/
def execVbeginRetry (g sp : Nat) (s : State) : Host.Outcome State Fault Refusal :=
  .next (s.wake g sp fun w =>
    match w with
    | .vbegin _ _ => true
    | _ => false)

/-- VWAIT_WAKE (R373). -/
def execVwaitWake (g sp : Nat) (s : State) : Host.Outcome State Fault Refusal :=
  .next (s.wake g sp fun w =>
    match w with
    | .vwait _ _ _ => true
    | _ => false)

/-- TRAP_DELIVERY: a cause that waited for the operand log (R95, R385). -/
def execTrapDelivery (g sp : Nat) (s : State) : Host.Outcome State Fault Refusal :=
  .next (match (s.group g).split? sp with
    | some x => if s.mayIssue g then s.deliverTrap g x else s
    | none => s)

/-- The length of the unit that a split would issue. -/
def Look.len : Look → Nat
  | .unit u _ _ => u.len
  | .bad _ _ len _ _ => len
  | _ => 1

/-- LATE_CAUSE_DELIVERY: before a split's next issue unit (R335, R389, R390). -/
def execLateCauseDelivery (g sp : Nat) (s : State) : Host.Outcome State Fault Refusal :=
  .next (match (s.group g).split? sp with
    | some x =>
      if s.mayIssue g && !x.fetchFault && x.trap.isNone && (s.group g).asyncDue x then
        s.deliverAsync g x (s.look g x).len
      else s
    | none => s)

end Sys2Proof.Machine
end

