-- ==== Sys2Proof/Machine/Scheduler.lean ====
section
/-! DEFINITION. The scheduler's events (R113, R179 to R182, R298 to R300, R335, R339, R344 to R347, R361, R364,
R376, R393 to R401): starts and ends, cuts, calendars, castling, the fumarole, zugzwang spills. -/

namespace Sys2Proof.Machine

open Sys2Proof

/-! ### Spans (R298 to R300) -/

/-- The physical core and bank of a team of a launch. -/
def Launch.seat (x : Launch) (span j : Nat) : Option (Nat × Nat) :=
  x.place[span % max 1 x.clusters * x.desc.tps + j]?

/-- The seats of a span's teams. -/
def Launch.seats (x : Launch) (span : Nat) : List (Nat × Nat) :=
  (List.range x.desc.tps).filterMap fun j => x.seat span j

/-- Whether the spans that share a logical cluster with a span let it start (R298): none of them runs, and
under the deterministic flag every earlier one has ended. -/
def Launch.turnOfSpan (x : Launch) (span : Nat) : Bool :=
  (List.range x.desc.spans).all fun k =>
    k == span || decide (k % max 1 x.clusters ≠ span % max 1 x.clusters) ||
      (decide (x.spanSt.get 0 k ≠ 1) && (!x.desc.det || decide (span < k) || decide (x.spanSt.get 0 k = 2)))

/-- The live groups of a span. -/
def State.spanGroups (s : State) (l k : Nat) : List Nat := (s.groupsOf l).filter fun g => spanOf (teamOf g) == k

/-- The spans of a launch that have live groups on a core. -/
def State.spansOn (s : State) (l c : Nat) : List Nat :=
  (((s.groupsOf l).filter fun g => s.coreOf g == c).map fun g => spanOf (teamOf g)).eraseDups

/-- The live teams of a launch. -/
def State.teamsOf (s : State) (l : Nat) : List Nat :=
  ((s.teams.map (·.1)).eraseDups.filter fun t => t / 512 == l && (s.team t).live)

/-- Whether a nested launch may have a core: the spans there of those in whose footprints it stands have been castled out
as a whole, and saved (R299, R338, R347). -/
def State.parentOut (s : State) (l c : Nat) : Bool :=
  (s.hosts (l + 1) l).all fun p =>
    (s.spansOn p c).all fun k => (s.spanGroups p k).all fun g => decide ((s.group g).bank = .saved)

/-- Whether a launch that stands in a launch's footprint has a team on one of some cores (R338, R347). -/
def State.nestedOn (s : State) (l : Nat) (cores : List Nat) : Bool :=
  (s.launches.map (·.1)).eraseDups.any fun n =>
    s.nestedUnder n l && (s.teamsOf n).any fun t => cores.contains (s.team t).core

/-- Whether a context is on its way out of the device (R400). -/
def State.ctxOut (s : State) (c : Nat) : Bool :=
  match (s.ctx c).leaving with
  | .out _ => true
  | _ => false

/-- Whether a launch is. -/
def State.isOut (s : State) (l : Nat) : Bool := s.ctxOut (s.launch l).ctx

/-- Whether a span could start once its banks are live: it waits, its START has passed on every die that it is
placed on, and the cores are free for it. -/
def State.spanReady (s : State) (l span : Nat) : Bool :=
  let x := s.launch l
  !x.ended && !x.service && x.cut.isNone && decide (span < x.desc.spans) && decide (x.spanSt.get 0 span = 0) &&
    !s.isOut l && x.turnOfSpan span && decide ((x.seats span).length = x.desc.tps) &&
    (x.seats span).all fun p => decide (x.desc.start ≤ (s.time (dieOfCore p.1)).toNat) && s.parentOut l p.1 &&
      !s.nestedOn l [p.1]

/-- A team starts with all its groups (R299, R300, R322); an overrun of a hard launch awaits them (R335). -/
def State.startTeam (s : State) (l span j c : Nat) : State :=
  let x := s.launch l
  let d := x.desc
  let t := l * 512 + span * 64 + j
  let s := s.setTeam t { Team.absent with core := c, live := true }
  (List.range d.gpt).foldl (fun s i =>
    s.setGroup (t * 16 + i) { Group.initial d.entry .live with gslot := s.freeGslot c, overrun := x.trapsAs }) s

/-- SPAN_START: every team of the span, at once, where each one's bank is live. -/
def State.startSpan (s : State) (l span : Nat) : State :=
  let x := s.launch l
  if s.spanReady l span && (x.seats span).all fun p => decide ((s.core p.1).liveBank = p.2) && !(s.core p.1).castling then
    let s := (x.seats span).zipIdx.foldl (fun s p => s.startTeam l span p.2 p.1.1) s
    s.setLaunch l { s.launch l with spanSt := (s.launch l).spanSt.set span 1 }
  else s

/-- SPAN_START (R298 to R300, R322). -/
def execSpanStart (l span : Nat) (s : State) : Host.Outcome State Fault Refusal := .next (s.startSpan l span)

/-! ### Write-backs and ends (R113, R299, R346, R361, R376) -/

/-- The group as which the device writes a line of a team's region back: the first of the team. R114 says: the group
that caused the write-back (DESIGN CHOICE, log entry 116). -/
def teamGroup (t : Nat) : Nat := t * 16

/-- REGION_WRITEBACK: a DIRTY line goes back, where its translation and its home let it (R113, R360). -/
def State.writeBackLine (s : State) (t i line : Nat) : State :=
  let g := teamGroup t
  match (s.team t).region? i with
  | none => s
  | some r =>
    if !(s.team t).live || decide (r.state.get .invalid line ≠ .dirty) || s.escapes g (r.glob + 128 * line) 128 then s
    else
      let q := s.backLine (s.coreOf g) r line (s.privileged g fullMask) s.choice
      match q.1 with
      | .ok pa prop01 _ =>
        if s.denied g pa ⟨0, 0, 128, .write, .gen, false, false, false⟩ false || !s.backOpen g pa then s
        else s.chosen.putBack t i line pa q.2 prop01 g
      | .check pa => s.machineCheck r.ctx pa
      | _ => s

/-- REGION_WRITEBACK (R113, R114). -/
def execRegionWriteback (t region line : Nat) (s : State) : Host.Outcome State Fault Refusal :=
  .next (s.writeBackLine t region line)

/-- Whether a core has no further team of a launch: none runs there, and none will (R334). -/
def State.lastOn (s : State) (l c : Nat) : Bool :=
  let x := s.launch l
  (List.range x.desc.spans).all fun k => (x.seats k).zipIdx.all fun p =>
    decide (p.1.1 ≠ c) || decide (x.spanSt.get 0 k = 2) ||
      (decide (x.spanSt.get 0 k = 1) && !(s.team (l * 512 + k * 64 + p.2)).live)

/-- TEAM_END: the core reports its charge where this was its last team of the launch (R334), and a span whose
teams have all ended has ended. -/
def State.endTeam (s : State) (t : Nat) : State :=
  let l := t / 512
  let c := (s.team t).core
  if !(s.team t).live || !s.teamDone t then s
  else
    let s := s.setTeam t { s.team t with live := false, regions := [] }
    let s := if s.lastOn l c then s.reportCharge l c else s
    let x := s.launch l
    let s := if x.service || (s.teamsOf l).any fun u => spanOf u == spanOf t then s
      else s.setLaunch l { x with spanSt := x.spanSt.set (spanOf t) 2 }
    if x.service then s.leaveDone (s.group (t * 16)).hctx else (s.softLeft x.ctx).leaveDone x.ctx

/-- TEAM_END (R113, R299, R321, R334, R400). -/
def execTeamEnd (t : Nat) (s : State) : Host.Outcome State Fault Refusal := .next (s.endTeam t)

/-- A ring's SIGNALs whose earlier launches have all ended are stored (R416). -/
def State.ringSignals (s : State) (ring : Nat) : State :=
  let r := s.ring ring
  let due := fun (x : Nat × DWord × List Nat) => x.2.2.all fun l => (s.launch l).ended && s.launchSettled l
  let s := (r.signals.filter due).foldl (fun s x => s.outerWrite x.1 (bytesOf 8 x.2.1.toNat)) s
  s.setRing ring { r with signals := r.signals.filter fun x => !due x }

/-- Every ring's. -/
def State.allSignals (s : State) : State := (s.rings.map (·.1)).eraseDups.foldl State.ringSignals s

/-- LAUNCH_END: the last team has ended and every write has reached every replica; a pass whose teams have all
arrived commits first, then the records take their end. -/
def State.finishLaunch (s : State) (l : Nat) : State :=
  let x := s.launch l
  if x.ended || x.service || x.cut.isSome || !((List.range x.desc.spans).all fun k => decide (x.spanSt.get 0 k = 2)) ||
      s.commitsWait l || (s.replicas.any fun r => r.behind.any fun b => launchOf b.group == l) then s
  else if let pa :: _ := s.endMeets l then s.machineCheck x.ctx pa
  else ((s.commitAll l).endLaunch l 5 false false none).allSignals

/-- LAUNCH_END (R345, R346, R361, R363, R376). -/
def execLaunchEnd (l : Nat) (s : State) : Host.Outcome State Fault Refusal := .next (s.finishLaunch l)

/-! ### Deadlines, cut times, energy (R335, R364) -/

/-- The dies that a launch is placed on. -/
def Launch.dies (x : Launch) : List Nat := (x.place.map fun p => dieOfCore p.1).eraseDups

/-- The dies whose time counts for a launch: an anytime launch's are those that hold a team of it (R364). -/
def State.watched (s : State) (l : Nat) : List Nat :=
  let x := s.launch l
  if x.desc.anytime then ((s.teamsOf l).map fun t => dieOfCore (s.team t).core).eraseDups else x.dies

/-- The first of them on which a time has been reached. -/
def State.dieAt (s : State) (l t : Nat) : Option Nat :=
  (s.watched l).find? fun d => decide (t ≤ (s.time d).toNat)

/-- DEADLINE_REACHED (R335, R364). -/
def execDeadlineReached (l : Nat) (s : State) : Host.Outcome State Fault Refusal :=
  .next (match s.dieAt l (s.launch l).desc.deadline with
    | some d => s.overrun l 1 d
    | none => s)

/-- A launch is cut (R364): once. -/
def State.cutFor (s : State) (l reason d : Nat) : State :=
  let x := s.launch l
  if x.ended || x.service || !x.desc.anytime || x.cut.isSome then s
  else s.setLaunch l { x with cut := some ⟨reason, s.time d⟩ }

/-- CUT_TIME_REACHED (R364). -/
def execCutTimeReached (l : Nat) (s : State) : Host.Outcome State Fault Refusal :=
  .next (match s.dieAt l (s.launch l).desc.cutt with
    | some d => if (s.launch l).desc.cutt = 0 then s else s.cutFor l 2 d
    | none => s)

/-- What a launch's energy is shared out by: for each die its energy count, the cycles charged on it and those charged
to the launch (R364). -/
def State.meters (s : State) (l : Nat) : List (Nat × Nat × Nat) :=
  (List.range 4).map fun d => ((s.die d).energy, s.cyclesOn d, (s.launch l).dieCycles.get 0 d)

/-- A launch's share of what one die has used between two readings, in whole µJ (DESIGN CHOICE, log entry 117). -/
def energyShare (old new : Nat × Nat × Nat) : Nat :=
  (new.1 - old.1) * (new.2.2 - old.2.2) / (new.2.1 - old.2.1)

/-- ENERGY_UPDATE: the `n`-th of the points of the launch's own grid of 40,000 ticks, each once and in order (R364). -/
def State.addEnergy (s : State) (l n : Nat) : State :=
  let x := s.launch l
  let d := x.dies.headD 0
  if x.ended || x.service || decide (n ≠ x.updates + 1) || decide ((s.time d).toNat < x.release + 40000 * n) then s
  else
    let now := s.meters l
    let total := x.energy + ((x.seen.zip now).map fun p => energyShare p.1 p.2).sum
    let s := s.setLaunch l { x with energy := total, updates := n, seen := now }
    if x.desc.energy ≠ 0 ∧ x.desc.energy ≤ total then s.cutFor l 3 d else s

/-- ENERGY_UPDATE (R364). -/
def execEnergyUpdate (l n : Nat) (s : State) : Host.Outcome State Fault Refusal := .next (s.addEnergy l n)

/-! ### Calendars (R339) -/

/-- A written calendar takes the place of the one in force. -/
def Calendar.switch (x : Calendar) : Calendar :=
  match x.next with
  | some es => ⟨es, none⟩
  | none => x

/-- The slot that a unit is in. The clocks of the fabric and of the channels are free (log entry 118). -/
def State.slotOf (s : State) : CalUnit → Nat
  | .core n => s.calSlot n
  | .port _ => (s.die 0).raw * Config.fabricMhz / 4000 % 64
  | .chan _ => (s.die 0).raw * Config.channelMhz / 4000 / 8 % 64

/-- CALENDAR_SWITCH: at slot 0 of the unit. -/
def execCalendarSwitch (u : CalUnit) (s : State) : Host.Outcome State Fault Refusal :=
  .next (if s.slotOf u = 0 then s.setCalendar u.key (s.calendar u.key).switch else s)

/-! ### Castling (R344, R347, R392 to R396, R400, R401) -/

/-- The groups of a core that stand in a bank. -/
def State.groupsIn (s : State) (c : Nat) (b : Bank) : List Nat :=
  s.liveGroups.filter fun g => s.coreOf g == c && decide ((s.group g).bank = b)

/-- The spans that wait to start in the shadow bank of a core (R338). -/
def State.spansWaiting (s : State) (c : Nat) : List (Nat × Nat) :=
  let b := 1 - (s.core c).liveBank
  ((s.launches.map (·.1)).eraseDups.flatMap fun l => (List.range (s.launch l).desc.spans).map fun k => (l, k)).filter
    fun x => s.spanReady x.1 x.2 && ((s.launch x.1).seats x.2).contains (c, b)

/-- Whether a span that stands in shadow banks is ready there: one of its groups is, so that it comes back as a whole
(R299, R347). -/
def State.shadowSpan (s : State) (g : Nat) : Bool :=
  (s.spanGroups (launchOf g) (spanOf (teamOf g))).any fun h => decide ((s.group h).bank = .shadow) && s.canRun h && s.ready h

/-- The launches of a core's shadow bank that are ready and may issue in the current slot. -/
def State.shadowReady (s : State) (c : Nat) : List Nat :=
  let e := s.calEntry c
  (((s.groupsIn c .shadow).filter fun g => s.shadowSpan g && (s.launch (launchOf g)).cut.isNone).map launchOf ++
    (s.spansWaiting c).map (·.1)).filter fun l => ownsSlot e (s.launch l).vdid && !s.isOut l

/-- Those of its live bank. -/
def State.liveReady (s : State) (c : Nat) : List Nat :=
  let e := s.calEntry c
  (((s.groupsIn c .live).filter fun g => s.mayIssue g && s.ready g).map launchOf).filter fun l =>
    ownsSlot e (s.launch l).vdid

/-- Whether a group waits in JOIN, or has ended (R347). -/
def Group.joins_ (g : Group) : Bool :=
  !g.live || (!g.splits.isEmpty && g.splits.all fun x =>
    match x.wait with
    | some (.join _) => true
    | _ => false)

/-- The cores whose live bank holds groups of a span. -/
def State.spanCores (s : State) (l k : Nat) : List Nat :=
  (((s.spanGroups l k).filter fun g => decide ((s.group g).bank = .live)).map s.coreOf).eraseDups

/-- The spans of parents on a core that a nested child needs, whose every group waits in JOIN or has ended (R347): the
parent and the span. -/
def State.nestSpans (s : State) (c : Nat) : List (Nat × Nat) :=
  (s.launches.map (·.1)).eraseDups.flatMap fun l =>
    let x := s.launch l
    if !x.ended && (List.range x.desc.spans).any fun k => decide (x.spanSt.get 0 k = 0) &&
        (x.seats k).any fun q => q.1 == c then
      (s.hosts (l + 1) l).flatMap fun p =>
        ((s.spansOn p c).filter fun k => (s.spanGroups p k).all fun g => (s.group g).joins_).map fun k => (p, k)
    else []

/-- Whether a nested child holds a core that a span of its parent occupies (R347). -/
def State.childHolds (s : State) (l k : Nat) : Bool := s.nestedOn l ((s.spanGroups l k).map s.coreOf)

/-- Whether a JOIN of a castled-out parent can return, or its groups wait in none (R347). -/
def State.canReturn (s : State) (g : Nat) : Bool :=
  (s.group g).splits.any fun x =>
    match x.wait with
    | some (.join m) => (slotsOf m).all fun n => s.childEnded g n
    | _ => true

/-- Whether a span may come back: no nested child holds its cores, and a JOIN of it can return (R347). -/
def State.spanReturns (s : State) (l k : Nat) : Bool := !s.childHolds l k && (s.spanGroups l k).any s.canReturn

/-- A launch's saved groups of a core that may come back (R347, R400). -/
def State.comeBack (s : State) (c l : Nat) : List Nat :=
  (s.groupsIn c .saved).filter fun g =>
    launchOf g == l && s.spanReturns l (spanOf (teamOf g)) && !s.ctxOut (s.ctxOf g)

/-- The launches whose saved groups may come back into the bank that is live now, as a parent's do whose nested child ran
in it (R347): for a castling they count as those of the shadow bank, which they come into when the banks have swapped. -/
def State.backToLive (s : State) (c : Nat) : List Nat :=
  (s.launches.map (·.1)).eraseDups.filter fun l =>
    (s.launch l).place.contains (c, (s.core c).liveBank) && !(s.comeBack c l).isEmpty &&
      ownsSlot (s.calEntry c) (s.launch l).vdid && (s.launch l).cut.isNone

/-- R344's condition. -/
def State.castlingDue (s : State) (c : Nat) : Bool :=
  (s.shadowReady c ++ s.backToLive c).any fun l =>
    (s.liveReady c).all fun m => keyLt (s.launch l).key (s.launch m).key

/-- Asks for a castling on some cores. -/
def State.askCastling (s : State) (cs : List Nat) : State :=
  cs.foldl (fun s c => s.setCore c { s.core c with castling := true }) s

/-- CASTLING_REQUEST: on the core that the site names, and for a span that leaves as a whole on all of its cores. -/
def State.requestCastling (s : State) (c : Nat) : State :=
  let leaves := (s.groupsIn c .live).any fun g => s.ctxOut (s.ctxOf g)
  s.askCastling ((if s.castlingDue c || leaves then [c] else []) ++
    (s.nestSpans c).flatMap fun p => s.spanCores p.1 p.2)

/-- CASTLING_REQUEST (R344, R347, R400). -/
def execCastlingRequest (s : State) : Host.Outcome State Fault Refusal := .next (s.requestCastling s.site)

/-- The scheduler reclaims a cluster: every span that it holds is castled out as a whole (R299, R401). -/
def State.reclaim (s : State) (k : Nat) : State :=
  let gs := s.liveGroups.filter fun g => clusterOfCore (s.coreOf g) == k && decide ((s.group g).bank = .live)
  s.askCastling (gs.flatMap fun g => s.spanCores (launchOf g) (spanOf (teamOf g))).eraseDups

/-- Whether every group of a live bank is at a preemptible point but for MX (R392): no slow-path result is on
its way. -/
def State.atPoints (s : State) (c : Nat) : Bool := (s.groupsIn c .live).all fun g => (s.group g).slow.isEmpty

/-- The banks and the tables of a core exchange their roles (R393). -/
def State.swapBanks (s : State) (c : Nat) : State :=
  let outs := s.groupsIn c .live
  let ins := s.groupsIn c .shadow
  let s := outs.foldl (fun s g => s.setGroup g { s.group g with bank := .shadow }) s
  let s := ins.foldl (fun s g => s.setGroup g { s.group g with bank := .live }) s
  let s := (ins.map teamOf).eraseDups.foldl (fun s t => s.setTeam t { s.team t with reload := true }) s
  s.setCore c { s.core c with
    castling := false, liveBank := 1 - (s.core c).liveBank, last := none, loaded := none, requester := none }

/-- CASTLING_SWAP: the core's matrix instruction stops after `planes` more planes, then the banks swap. -/
def State.castle (s : State) (c planes : Nat) : State :=
  if !(s.core c).castling || !s.atPoints c then s else (s.stopJob c planes).swapBanks c

/-- CASTLING_SWAP (R108, R182, R250, R257, R392 to R396). -/
def execCastlingSwap (core planes : Nat) (s : State) : Host.Outcome State Fault Refusal := .next (s.castle core planes)

/-- FUMAROLE_SPILL: the outgoing groups that the shadow bank still holds are saved, and of those that it has brought in
the ones of a context that leaves; a context whose groups are all saved has left (R397, R400). -/
def State.spillOut (s : State) (c : Nat) : State :=
  let gs := (s.groupsIn c .shadow).filter fun g => (s.core c).loaded.isNone || s.ctxOut (s.ctxOf g)
  let cs := (gs.map s.ctxOf).eraseDups
  let s := gs.foldl (fun s g => s.setGroup g { s.group g with bank := .saved }) s
  let s := if (s.groupsIn c .shadow).isEmpty then s.setCore c { s.core c with loaded := none } else s
  cs.foldl State.leaveDone s

/-- FUMAROLE_SPILL on the core that the site names (R393 to R399). -/
def execFumaroleSpill (s : State) : Host.Outcome State Fault Refusal := .next (s.spillOut s.site)

/-- FUMAROLE_LOAD: a launch's saved groups of a core come into the shadow bank, where the launch's bank is that
one, the fumarole has finished with the outgoing groups, and their spans may come back. -/
def State.loadIn (s : State) (c l : Nat) : State :=
  let gs := s.comeBack c l
  let busy := !(s.groupsIn c .shadow).isEmpty && (s.core c).loaded.isNone
  if gs.isEmpty || busy || !(s.launch l).place.contains (c, 1 - (s.core c).liveBank) then s
  else
    let s := gs.foldl (fun s g => s.setGroup g { s.group g with bank := .shadow }) s
    s.setCore c { s.core c with loaded := some l }

/-- FUMAROLE_LOAD (R255, R394, R395, R411). -/
def execFumaroleLoad (core l : Nat) (s : State) : Host.Outcome State Fault Refusal := .next (s.loadIn core l)

/-- LEAVE_FORCED_HALT: 200 µs after the soft request (R400). -/
def execLeaveForcedHalt (ctx : Nat) (s : State) : Host.Outcome State Fault Refusal :=
  .next (match (s.ctx ctx).leaving with
    | .soft since => if since + 800000 ≤ s.ticks 0 then s.castleOut ctx else s
    | _ => s)

/-- LEAVE_KILL: the save is not complete 10 ms after the forced halt began (R391, R400). -/
def execLeaveKill (ctx : Nat) (s : State) : Host.Outcome State Fault Refusal :=
  .next (match (s.ctx ctx).leaving with
    | .out since =>
      let t := s.leaveDone ctx
      if decide ((t.ctx ctx).leaving = .no) || decide (s.ticks 0 < since + 40000000) then t
      else s.killCtx ctx evKill none
    | _ => s)

/-! ### Zugzwang (R179 to R182) -/

/-- Whether a group of a core is over its reservation, the requester counted with its allocation. -/
def State.overReserved (s : State) (c g : Nat) : Bool :=
  let ask := match (s.core c).requester with
    | some (r, n) => if r = g then n else 0
    | none => 0
  decide (s.reservation g < (s.group g).slots + ask)

/-- The registers of a group that the fumarole may spill: general, not spilled, not awaited; highest first. -/
def State.spillable (s : State) (g : Nat) : List Nat :=
  (List.range 64).reverse.filter fun n =>
    (match (s.group g).v n with
     | .general _ false => true
     | _ => false) && !(s.pending g).contains (.v n)

/-- The order of victims: the latest deadline, then the youngest. -/
def State.victimKey (s : State) (g : Nat) : Nat × Nat × Nat :=
  ((s.launch (launchOf g)).desc.deadline, (s.launch (launchOf g)).seq, teamId (teamOf g) * 16 + groupIx g)

/-- The victim among some groups. -/
def State.victim (s : State) : List Nat → Option Nat
  | [] => none
  | g :: r =>
    match State.victim s r with
    | none => some g
    | some h => if keyBefore (s.victimKey h) (s.victimKey g) then some g else some h

/-- Spills one register of the victim. -/
def State.spillOne (s : State) (c : Nat) : State :=
  match s.victim ((s.bankGroups c).filter fun g => s.overReserved c g && !(s.spillable g).isEmpty) with
  | none => s
  | some g =>
    match (s.spillable g).head?, (s.group g).v ((s.spillable g).headD 0) with
    | some n, .general vals _ =>
      s.setGroup g { s.group g with vregs := (s.group g).vregs.set n (.general vals true) }
    | _, _ => s

/-- Spills until the allocation fits. -/
def State.spillUntil (s : State) (c need : Nat) : Nat → State
  | 0 => s
  | k + 1 => if s.hasRoom c need then s else State.spillUntil (s.spillOne c) c need k

/-- Whether a group may still make the allocation that it has asked for: a unit of it would issue, or a result of it waits
for its register. -/
def State.wants (s : State) (g : Nat) : Bool :=
  let gr := s.group g
  s.ready g || (gr.inflight.any fun a => a.2.finished) || !gr.slow.isEmpty || !gr.waitingLaunch.isEmpty ||
    (s.jobOf g).any fun j => j.dest.isSome

/-- ZUGZWANG_SPILL on the core that the site names: the fumarole makes room for the allocation that a group asks for. That
is the core's next one, until the group has made it or asks for it no more (R180). -/
def State.zugzwang (s : State) (c : Nat) : State :=
  match s.asker c with
  | none => if (s.core c).requester.isNone then s else s.setCore c { s.core c with requester := none }
  | some (g, need) =>
    if !s.hasRoom c need then s.spillUntil c need 8192
    else if s.wants g then s
    else s.setCore c { s.core c with requester := none }

/-- ZUGZWANG_SPILL (R179 to R182). -/
def execZugzwangSpill (s : State) : Host.Outcome State Fault Refusal := .next (s.zugzwang s.site)

end Sys2Proof.Machine
end

