-- ==== Sys2Proof/Machine/Outside.lean ====
section
/-! DEFINITION. What comes from outside the cores: the passing of time, boot and attestation (R426, R427), the
mailbox's commands (R421, R422), the invalidation port (R88, R89), accesses of the host and of peers (R296),
time exchanges and lost links (R324, R325, R419, R425), and the monitors (R341, R428, R429). -/

namespace Sys2Proof.Machine

open Sys2Proof

/-! ### The passing of time (R323) -/

/-- A die's timekeeper after `n` ticks: what is left to slew goes in at most one tick in 4,096. -/
def Die.elapse (x : Die) (n : Nat) : Die :=
  let k : Int := ((x.raw + n) / 4096 - x.raw / 4096 : Nat)
  let adj := max (-k) (min k x.slew)
  { x with count := x.count + BitVec.ofInt 64 (n + adj), raw := x.raw + n, slew := x.slew - adj }

/-- A core's clock after `n` ticks of 0.25 ns: `mhz` million cycles a second, counted in four-thousandths. -/
def Core.elapse (x : Core) (n : Nat) : Core := { x with cycles := x.cycles + n * x.mhz }

/-- Time passes for the four timekeepers and the 512 cores. -/
def State.elapse (s : State) (n : Nat) : State :=
  { s with
    dies := (List.range 4).map fun d => (d, (s.die d).elapse n)
    cores := (List.range 512).map fun c => (c, (s.core c).elapse n) }

/-! ### Boot (R426) and power (R430) -/

/-- The memory channels that the image's calendar is written to: 32 to a stack. -/
def channels : Nat := 512

/-- The units that have a calendar, with the image's calendar of their kind. -/
def imageCalendars (i : Image) : Tbl Calendar :=
  ((List.range 512).map fun n => (n, ⟨i.coreCal, none⟩)) ++
  ((List.range 18).map fun n => (1024 + n, ⟨i.portCal, none⟩)) ++
  ((List.range channels).map fun n => (2048 + n, ⟨i.chanCal, none⟩))

/-- The partition to which an image gives a front-end core. -/
def frontPart (i : Image) (fe : Nat) : Nat := (i.layout.findIdx? fun p => p.2.2.testBit fe).getD 0

/-- The configuration that a verified image gives the device. -/
def State.configure (s : State) (i : Image) : State :=
  { s with
    boot := .booted, img := some i, identity := some Config.identityKey
    dies := (List.range 4).map fun d =>
      (d, { s.die d with memmode := i.memmode.getD d .interleaved, pool := i.replicaPool.getD d 0, src := i.src })
    calendars := imageCalendars i
    conn := (List.range 18).map fun p => (p, i.conn.getD p 0 &&& 0xFFFF)
    fronts := (List.range 8).map fun fe => (fe, { s.front fe with part := frontPart i fe, buffer := i.buffers.getD fe 0 }) }

/-- POWER_ON_BOOT: the image's signature decides. -/
def State.powerOn (s : State) (i : Image) (ok : Bool) : State :=
  if s.boot ≠ .off then s
  else if ok then s.configure i
  else { s with boot := .failed }.mbSet 0 ((s.fn 0).mbStatus &&& 0xFFFFFFFF0000FFFF ||| 0xBAD10000)

/-- POWER_ON_BOOT (R66, R72, R84, R324, R339, R413, R424, R426). -/
def execPowerOnBoot (img : Image) (signatureOk : Bool) (s : State) : Host.Outcome State Fault Refusal :=
  .next (s.powerOn img signatureOk)

/-- POWER_STATE_CHANGE (R430): through the physical function's mailbox. -/
def execPowerStateChange (tgt : Power) (s : State) : Host.Outcome State Fault Refusal :=
  .next (s.command 0 fun t =>
    .ok (if t.power = tgt then t else { t with power := tgt }.post 0 Config.powerCode 0 0 none))

/-! ### Attestation (R427) -/

/-- A request over the DOE mailbox of a device that is up. -/
def State.respond (s : State) (r : Spdm) : State := if s.up then { s with spdm := r } else s

/-- The four measurements. -/
def State.measurements (s : State) : List Nat :=
  match s.img with
  | some i => [Config.bootRomDigest, i.digest, i.version, i.configDigest]
  | none => [Config.bootRomDigest]

/-- The identity key. -/
def State.key (s : State) : Nat := s.identity.getD 0

/-- GET_VERSION (R427). -/
def execGetVersion (s : State) : Host.Outcome State Fault Refusal := .next (s.respond .version)
/-- GET_CAPABILITIES (R427). -/
def execGetCapabilities (s : State) : Host.Outcome State Fault Refusal := .next (s.respond .capabilities)
/-- NEGOTIATE_ALGORITHMS (R427): ECDSA P-384 with SHA-384 only. -/
def execNegotiateAlgorithms (ecdsaP384 sha384 : Bool) (s : State) : Host.Outcome State Fault Refusal :=
  .next (s.respond (.algorithms (ecdsaP384 && sha384)))
/-- GET_DIGESTS (R427). -/
def execGetDigests (s : State) : Host.Outcome State Fault Refusal :=
  .next (s.respond (.digests [Config.certificateDigest s.key]))
/-- GET_CERTIFICATE (R427). -/
def execGetCertificate (slot : Nat) (s : State) : Host.Outcome State Fault Refusal :=
  .next (s.respond (.certificate slot s.key))
/-- CHALLENGE (R427): the nonce and the measurements, signed. -/
def execChallenge (nonce : Nat) (s : State) : Host.Outcome State Fault Refusal :=
  .next (s.respond (.challengeAuth nonce (Config.signature (nonce :: s.measurements))))
/-- GET_MEASUREMENTS (R427). -/
def execGetMeasurements (s : State) : Host.Outcome State Fault Refusal :=
  .next (s.respond (.measurements s.measurements (Config.signature s.measurements)))

/-! ### The mailbox's commands (R421, R422) -/

/-- SETEPOCH (R323). -/
def execSetepoch (fn : Nat) (t : DWord) (s : State) : Host.Outcome State Fault Refusal :=
  .next (s.command fn (pfOnly fn (cmdSetEpoch t)))
/-- TIMEPOST (R324). -/
def execTimepost (fn : Nat) (t delay : DWord) (s : State) : Host.Outcome State Fault Refusal :=
  .next (s.command fn (pfOnly fn (cmdTimePost t delay)))
/-- PARTCREATE (R422, R424, R425, R431). -/
def execPartcreate (fn : Nat) (args : List DWord) (s : State) : Host.Outcome State Fault Refusal :=
  .next (s.command fn (pfOnly fn (cmdPartCreate args)))
/-- PARTDESTROY (R421, R431). -/
def execPartdestroy (fn part : Nat) (s : State) : Host.Outcome State Fault Refusal :=
  .next (s.command fn (pfOnly fn (cmdPartDestroy part)))
/-- CALWRITE (R339). -/
def execCalwrite (fn : Nat) (u : CalUnit) (entries : List Byte) (s : State) : Host.Outcome State Fault Refusal :=
  .next (s.command fn (pfOnly fn (cmdCalWrite u.key entries)))
/-- CONNWRITE (R424). -/
def execConnwrite (fn port : Nat) (stks : Word) (s : State) : Host.Outcome State Fault Refusal :=
  .next (s.command fn (pfOnly fn (cmdConnWrite port stks)))
/-- CTXKILL (R391, R421). -/
def execCtxkill (fn ctx : Nat) (s : State) : Host.Outcome State Fault Refusal :=
  .next (s.command fn (pfOnly fn (cmdCtxKill ctx)))
/-- CTXLEAVE (R400). -/
def execCtxleave (fn ctx : Nat) (s : State) : Host.Outcome State Fault Refusal :=
  .next (s.command fn (pfOnly fn (cmdCtxLeave ctx)))
/-- CTXRESUME (R406). -/
def execCtxresume (fn ctx : Nat) (s : State) : Host.Outcome State Fault Refusal :=
  .next (s.command fn (pfOnly fn (cmdCtxResume ctx)))
/-- CTXCREATE (R85, R422). -/
def execCtxcreate (fn : Nat) (args : List DWord) (s : State) : Host.Outcome State Fault Refusal :=
  .next (s.command fn (cmdCtxCreate fn args))
/-- VDSETUP (R87, R422). -/
def execVdsetup (fn : Nat) (args : List DWord) (s : State) : Host.Outcome State Fault Refusal :=
  .next (s.command fn (pfOnly fn (cmdVdSetup args)))
/-- PAGEREQ (R421): the request, or the host's answer to it. -/
def execPagereq (fn : Nat) (args : List DWord) (answer : Option (List DWord)) (s : State) :
    Host.Outcome State Fault Refusal :=
  .next (match answer with
    | none => s.pageRequest fn (argAt args 0)
    | some a => s.pageAnswer fn a)

/-! ### The invalidation port (R88, R89) -/

/-- INV_STAGE_WRITE by the host (R88). -/
def execInvStageWrite (fn off : Nat) (bytes : List Byte) (s : State) : Host.Outcome State Fault Refusal :=
  .next (if s.up ∧ fn ≤ 64 ∧ 0x1000 ≤ off ∧ off + bytes.length ≤ 0x1010 then s.stageInv fn off bytes none else s)

/-- A descriptor that the host posts. -/
def State.hostPost (s : State) (fn : Nat) (d : InvDesc) : State :=
  if s.up ∧ fn ≤ 64 then s.postInv fn d none else s

/-- INV_ALL_VDID (R88). -/
def execInvAllVdid (fn vdid : Nat) (s : State) : Host.Outcome State Fault Refusal := .next (s.hostPost fn ⟨0, vdid, 0, 0⟩)
/-- INV_STAGE1_RANGE (R88). -/
def execInvStage1Range (fn vdid size : Nat) (addr : DWord) (s : State) : Host.Outcome State Fault Refusal :=
  .next (s.hostPost fn ⟨1, vdid, size, addr⟩)
/-- INV_STAGE2_RANGE (R88). -/
def execInvStage2Range (fn vdid size : Nat) (addr : DWord) (s : State) : Host.Outcome State Fault Refusal :=
  .next (s.hostPost fn ⟨2, vdid, size, addr⟩)
/-- INV_EVERY_VDID (R88). -/
def execInvEveryVdid (fn : Nat) (s : State) : Host.Outcome State Fault Refusal := .next (s.hostPost fn ⟨3, 0, 0, 0⟩)

/-- Whether something that a group has issued may still store. -/
def State.pendingOpen (s : State) : Pending → Bool
  | .access g n => ((s.group g).access? n).any Access.open_
  | .copy g order => (s.group g).copies.any fun c => c.2.order == order
  | .job g order => (s.jobOf g).any fun j => j.order == order

/-- Whether a range of a descriptor meets `n` bytes at an address. -/
def Posted.meets (p : Posted) (a n : Nat) : Bool :=
  decide (a < p.addr.toNat + 2 ^ p.size) && decide (p.addr.toNat < a + n)

/-- Whether a descriptor's entries include a cached one. A stage-2 range also takes the stage-1 entries that stand in a
table page of the range: they know where that page is. -/
def Posted.drops (p : Posted) (c : Cached) : Bool :=
  match p.kind with
  | 0 => c.vdid == p.vdid
  | 1 => c.vdid == p.vdid && c.stage == 1 && p.meets (c.page * 2 ^ c.bits) (2 ^ c.bits)
  | 2 => c.vdid == p.vdid && (if c.stage = 2 then p.meets (c.page * 2 ^ c.bits) (2 ^ c.bits)
      else c.via.isSome && p.meets c.gpa 8)
  | _ => true

/-- Whether an open part of an access of a VDID's context may have been translated through a dropped entry;
for stage 2 the guest address is not kept, so every one may. -/
def Posted.concerns (p : Posted) (vdid : Nat) (q : Part) : Bool :=
  q.open_ && !q.logged &&
  (match q.loc with
   | .phys _ | .window _ _ =>
     (match p.kind with
      | 0 => vdid == p.vdid
      | 1 => vdid == p.vdid && p.meets (q.addr.toNat + q.sub) q.size
      | 2 => vdid == p.vdid
      | _ => true)
   | _ => false)

/-- Whether every access through a dropped entry has been performed. -/
def State.noConcern (s : State) (p : Posted) : Bool :=
  (s.groups.map (·.1)).eraseDups.all fun g =>
    (s.group g).inflight.all fun a => !(a.2.parts.any (p.concerns (s.tenant g)))

/-- Whether a private line of a group of a VDID may have been filled through a dropped entry. -/
def Posted.takes (p : Posted) (vdid : Nat) (x : PLine) : Bool :=
  match p.kind with
  | 1 => vdid == p.vdid && p.meets (x.line * 128 % 2 ^ 57) 128
  | 3 => true
  | _ => vdid == p.vdid

/-- The private lines of a group that a descriptor concerns are written back and dropped: a later access fills them anew
(R89, R112). -/
def State.dropPrivate (s : State) (p : Posted) (g : Nat) : State :=
  let v := s.tenant g
  let s := ((s.group g).priv.filter fun x => p.takes v x).foldl (fun s x => s.writeBack g x) s
  s.setGroup g { s.group g with priv := (s.group g).priv.filter fun x => !p.takes v x }

/-- The private lines of every live group. -/
def State.dropLines (s : State) (p : Posted) : State := s.liveGroups.foldl (fun s g => s.dropPrivate p g) s

/-- INVAL_COMPLETE: the port's oldest descriptor, once the poster's stores have reached their homes and the
accesses through its entries are performed. -/
def State.completeInv (s : State) (fn : Nat) : State :=
  let f := s.fn fn
  match f.posted with
  | [] => s
  | p :: r =>
    if p.fences.any s.pendingOpen || !s.noConcern p then s
    else
      let t := s.dropLines p
      { t with cache := t.cache.filter fun c => !p.drops c }.setFn fn { t.fn fn with posted := r, invDone := p.seq }

/-- INVAL_COMPLETE (R89). -/
def execInvalComplete (fn : Nat) (s : State) : Host.Outcome State Fault Refusal := .next (s.completeInv fn)

/-! ### The host and peers (R102, R296, R420) -/

/-- RING_DOORBELL: a write of a ring descriptor's TAIL (R415, R420). -/
def execRingDoorbell (fn ring : Nat) (tail : DWord) (s : State) : Host.Outcome State Fault Refusal :=
  .next (if s.up ∧ fn ≤ 64 ∧ ring < 8 then
      s.writeWindow fn (0x2000 + 64 * ring + 0x18) (bytesOf 8 tail.toNat) none
    else s)

/-- Whether `n` bytes of an address are local HBM. -/
def inHbm (pa n : Nat) : Bool := isHbm pa && isHbm (pa + n - 1)

/-- A read at the home by an agent in no context: only an error in the line has an effect here; the line that it meets
is marked failed (R102, R103). -/
def State.outerRead (s : State) (pa n : Nat) : State :=
  match s.metError pa n false with
  | some l => (s.markFailed l).postCheck (l * 128)
  | none => s

/-- An access of the host or of a peer to device memory, served at the line's home where its port may reach that (`may`)
once no held access is due there. -/
def State.outerAccess (s : State) (may : Nat → Nat → Bool → Bool) (a : ExtAcc) : State :=
  let served := fun (pa n : Nat) =>
    let writes := match a with
      | .read _ _ => false
      | _ => true
    decide (n ≠ 0) && inHbm pa n && may pa n writes && !s.homeDue (s.homeOf (.phys pa))
  match a with
  | .read pa n => if served pa n then s.outerRead pa n else s
  | .write pa bytes => if served pa bytes.length then s.outerWrite pa bytes else s
  | .atomic pa op b c =>
    if served pa 4 && decide (pa % 4 = 0) then
      s.outerWrite pa (bytesOf 4 (atomNew op (BitVec.ofNat 32 (Memory.read s.mem pa 4)) b c).toNat)
    else s

/-- Whether a requester port's row of the connection matrix reaches `n` bytes (R424). -/
def State.portReaches (s : State) (port pa n : Nat) : Bool :=
  (linesOf pa n).all fun l => (s.conn.get 0 port).getLsbD (s.stackOf (128 * l))

/-- Whether a function's HDM decoder covers `n` bytes: the stacks of its partition (R419); of a physical function whose
partition has not been created, every one (DESIGN CHOICE, log entry 119). -/
def State.decodes (s : State) (fn pa n : Nat) : Bool :=
  let p := s.part (s.fn fn).part
  if p.live then (linesOf pa n).all fun l => p.stks.getLsbD (s.stackOf (128 * l)) else decide (fn = 0)

/-- Whether a peer would meet an access that went early at domain scope (R277, R287). -/
def State.peerClash (s : State) (pa n : Nat) (writes : Bool) : Bool :=
  s.early.any fun r => decide (r.scope = .dom) && (r.writes || writes) &&
    (r.places.any fun x => overlaps x.1 x.2 (.phys pa) n) && s.earlyOpen r

/-- The host's access through a function. After a boot whose check has failed the mailbox alone answers (R426). -/
def State.hostAccess (s : State) (fn : Nat) (a : ExtAcc) : State :=
  let mem := if s.up then s.outerAccess (fun pa n _ => s.decodes fn pa n && s.portReaches 16 pa n) a else s
  match a with
  | .write pa bytes =>
    let w := windowAt pa
    if paKind pa = 3 ∧ w.1 ≤ 64 then
      (if s.up || (s.mbAlive && decide (w.2 < 0x1000)) then s.writeWindow w.1 w.2 bytes none else s)
    else mem
  | _ => mem

/-- HOST_ACCESS through the function that the site names (R70, R102, R103, R296, R419, R424), and the host's writes into a
function's register window (R420). -/
def execHostAccess (a : ExtAcc) (s : State) : Host.Outcome State Fault Refusal :=
  .next (if s.cxl then s.hostAccess s.site a else s)

/-- PEER_ACCESS (R102, R103, R296, R424, R425). -/
def execPeerAccess (a : ExtAcc) (s : State) : Host.Outcome State Fault Refusal :=
  .next (if s.up && s.ports.any id then
      s.outerAccess (fun pa n w => s.portReaches 17 pa n && !s.peerClash pa n w) a
    else s)

/-! ### Time (R324, R325) -/

/-- How far the sender of a two-step exchange stands ahead of the local timekeeper, by its two messages: the sync, which
it sent at `sync.1` of its own time and which came at `sync.2` here, and the delay request, which left here at `delay.1`
and which it took at `delay.2`. -/
def syncAhead (sync delay : Nat × Nat) : Int := (((delay.2 : Int) - delay.1) - ((sync.2 : Int) - sync.1)) / 2

/-- TIME_SYNC_EXCHANGE: a device that follows the Brynrik links takes the exchange of the port nearest the root (R324). -/
def execTimeSyncExchange (port : Nat) (sync delay : Nat × Nat) (s : State) : Host.Outcome State Fault Refusal :=
  .next (if (s.die 0).src = 2 ∧ s.ports.getD port false = true ∧ s.syncPort = some port then
      s.exchange (syncAhead sync delay)
    else s)

/-- LOCK_LOSS_TIMEOUT on the die that the site names: no exchange has completed for 1 ms. The count of good
exchanges starts again. -/
def State.lockLoss (s : State) (d : Nat) : State :=
  let x := s.die d
  if d < 4 ∧ x.locked = true ∧ x.lastExchange + 4000000 ≤ x.ticks then
    (s.setDie d { x with locked := false, good := 0 }).post 0 evSkew (d * 256) 0 none
  else s

/-- LOCK_LOSS_TIMEOUT (R325). -/
def execLockLossTimeout (s : State) : Host.Outcome State Fault Refusal := .next (s.lockLoss s.site)

/-! ### Links (R419, R425) -/

/-- BRYNRIK_LINK_DOWN (R425). -/
def execBrynrikLinkDown (port : Nat) (s : State) : Host.Outcome State Fault Refusal :=
  .next (if s.ports.getD port false then
      { s with ports := s.ports.set port false }.post 0 evLink (2048 + port) 0 none
    else s)

/-- A group's open parts at addresses that `p` selects. -/
def State.openPa (s : State) (g : Nat) (p : Nat → Bool) : Option Nat :=
  (s.group g).inflight.findSome? fun a => a.2.parts.findSome? fun q =>
    match q.loc with
    | .phys pa => if q.open_ && !q.logged && p pa then some pa else none
    | _ => none

/-- CXL_LINK_FAILURE: the outstanding host accesses end as uncorrectable errors of their contexts, those that are issued
later as well. -/
def State.cxlFails (s : State) : State :=
  let s := if s.cxl then { s with cxl := false }.post 0 evLink 4096 0 none else s
  s.liveGroups.foldl (fun s g =>
    match s.openPa g (fun pa => decide (paKind pa = 1)) with
    | some pa => s.machineCheck (s.ctxOf g) pa
    | none => s) s

/-- CXL_LINK_FAILURE (R102, R419). -/
def execCxlLinkFailure (s : State) : Host.Outcome State Fault Refusal := .next s.cxlFails

/-- A part of a store that its home cannot be reached for. -/
def Part.lost (s : State) (g : Nat) (q : Part) : Bool :=
  q.open_ && !q.logged &&
  (match q.loc with
   | .phys pa => decide (paKind pa = 2) && !s.linked g pa
   | _ => false)

/-- PEER_ACCESS_ABORT: an access to a peer that no live port reaches, 10 µs after its issue. -/
def State.abortPeer (s : State) (g acc : Nat) : State :=
  match (s.group g).access? acc with
  | none => s
  | some a =>
    match a.parts.find? (Part.lost s g) with
    | none => s
    | some q =>
      let pa := match q.loc with
        | .phys pa => pa
        | _ => 0
      if a.arrived || decide (s.ticks (s.dieOf g) < a.issued + 40000) then s
      else if a.kind = .store ∨ a.kind = .pfet then
        let ps := a.parts.map fun p => if Part.lost s g p then { p with dropped := true, back := true } else p
        let t := (s.putAccess g acc { a with parts := ps }).finish g acc
        if a.kind = .store then t.post 0 evLink 2048 (s.ctxOf g) (some (BitVec.ofNat 64 pa)) else t
      else s.machineCheck (s.ctxOf g) pa

/-- PEER_ACCESS_ABORT (R102, R425). -/
def execPeerAccessAbort (g acc : Nat) (s : State) : Host.Outcome State Fault Refusal := .next (s.abortPeer g acc)

/-! ### Monitors (R341, R428, R429) -/

/-- Sets the clocks of some cores. -/
def State.setClocks (s : State) (cs : List Nat) (f : Nat → Nat) : State :=
  cs.foldl (fun s c => s.setCore c { s.core c with mhz := f (s.core c).mhz }) s

/-- THROTTLE: the clock of a partition's cores is set. -/
def State.throttle (s : State) (part mhz : Nat) : State :=
  if !(s.part part).live || decide (mhz = 0) then s
  else (s.setClocks (s.coresOf part) fun _ => mhz).afterClocks part

/-- THROTTLE (R341). -/
def execThrottle (part mhz : Nat) (s : State) : Host.Outcome State Fault Refusal := .next (s.throttle part mhz)

/-- THROTTLE_END: every clock has been at 1.8 GHz or above for 1 ms. -/
def State.throttleEnd (s : State) (part : Nat) : State :=
  let p := s.part part
  if p.throttled && p.fastFrom.any fun t => decide (t + 4000000 ≤ s.ticks 0) then
    s.unthrottle part
  else s

/-- THROTTLE_END (R341). -/
def execThrottleEnd (part : Nat) (s : State) : Host.Outcome State Fault Refusal := .next (s.throttleEnd part)

/-- TEMP_THROTTLE_LIMIT: the clocks of a die's cores go down. -/
def State.tooWarm (s : State) (die mhz : Nat) : State :=
  let s := (s.setClocks ((List.range 128).map (128 * die + ·)) fun m => min m mhz).post 0 evTemp (die * 256) 0 none
  ((List.range 8).filter fun q => (s.diesOf q).contains die).foldl State.afterClocks s

/-- TEMP_THROTTLE_LIMIT (R341, R428). -/
def execTempThrottleLimit (die mhz : Nat) (s : State) : Host.Outcome State Fault Refusal :=
  .next (if die < 4 ∧ 0 < mhz then s.tooWarm die mhz else s)

/-- TEMP_CRITICAL on the die that the site names: every context is killed, and the cores are held in reset
until the host restarts them. -/
def State.critical (s : State) (d : Nat) : State :=
  let s := s.post 0 evTemp (d * 256) 0 none
  let cs := (s.ctxs.map (·.1)).eraseDups.filter fun c => (s.ctx c).live
  { cs.foldl (fun s c => s.killCtx c evKill none) s with resetHold := true }

/-- TEMP_CRITICAL (R428). -/
def execTempCritical (s : State) : Host.Outcome State Fault Refusal := .next (s.critical s.site)

/-- HOST_RESTART (R428): through the mailbox. -/
def execHostRestart (s : State) : Host.Outcome State Fault Refusal :=
  .next (s.command 0 fun t => .ok { t with resetHold := false })

/-- DROOP on the die that the site names (R428). -/
def execDroop (s : State) : Host.Outcome State Fault Refusal := .next (s.post 0 evDroop (s.site * 256) 0 none)

/-- PATROL_SCRUB_ERROR (R103): the line is marked failed. -/
def execPatrolScrubError (pa : Nat) (s : State) : Host.Outcome State Fault Refusal :=
  .next (if isHbm pa then (s.markFailed (pa / 128)).postCheck pa else s)

/-- FABRIC_PARITY_ERROR: of a flit of a group's access, or of one that belongs to no group (R102, R429). -/
def execFabricParityError (pa g : Nat) (s : State) : Host.Outcome State Fault Refusal :=
  .next (if (s.group g).live then s.machineCheck (s.ctxOf g) pa else s.postCheck pa)

/-! ### What has no row of the opcode table -/

/-- What comes from outside: an error arises in a line (R102), an access of a group meets one in an SRAM, of which the
scratchpads, registers, tiles, macros and caches are made (R429; log entry 145), ECC corrects one (R101, R428), a die's monitors count
energy (R364), the partition manager names the domain's root (R324), interrupt lines change (R414), the scheduler reclaims
a cluster (R401), the front end looks at a ring's SIGNALs (R416). -/
def State.happens (s : State) : Incident → State
  | .strike l => if isHbm (128 * l) then { s with badLines := l :: s.badLines.filter (· ≠ l) } else s
  | .sram g => if (s.group g).live then s.killCtx (s.ctxOf g) evMachineCheck none else s
  | .corrected l => s.post 0 evEccCorrected (dieOfPa (128 * l) * 256) 0 none
  | .energy d e => s.setDie d { s.die d with energy := (s.die d).energy + e }
  | .syncPort p => { s with syncPort := p }
  | .interrupts fe lines =>
    let f := s.front fe
    s.setFront fe { f with csrs := { f.csrs with mip := f.csrs.mip &&& ~~~0x888 ||| (lines &&& 0x888) } }
  | .reclaim k => s.reclaim k
  | .signals ring => s.ringSignals ring

end Sys2Proof.Machine
end

