-- ==== Sys2Proof/Machine/Rv64.lean ====
section
/-! DEFINITION. The instructions of a front-end core beside its extension (R413): the RV64GC of the RISC-V
manuals, which the spec names and does not describe (PRESUMED, log entry 120). Their decoding, compressed forms
included, and their arithmetic. -/

namespace Sys2Proof.Machine

open Sys2Proof

/-! ### Syntax -/

/-- Integer operations. -/
inductive Alu where
  | add | sub | sll | slt | sltu | xor | srl | sra | or | and
  | mul | mulh | mulhsu | mulhu | div | divu | rem | remu
  deriving DecidableEq, Repr

/-- Conditions of branches. -/
inductive RvCond where | eq | ne | lt | ge | ltu | geu
  deriving DecidableEq, Repr

/-- Atomic operations. -/
inductive Amo where | swap | add | xor | and | or | min | max | minu | maxu
  deriving DecidableEq, Repr

/-- Floating operations of two operands that round. -/
inductive RvFop where | add | sub | mul | div
  deriving DecidableEq, Repr

/-- Ways of setting a sign. -/
inductive RvSgn where | copy | negate | xor
  deriving DecidableEq, Repr

/-- Comparisons. -/
inductive RvCmp where | le | lt | eq
  deriving DecidableEq, Repr

/-- An instruction of RV64GC. `w` and `dbl` choose between the 32- and the 64-bit form, `n` is a size in bytes, `rm` a
rounding mode; a, b and c name source registers, d a destination. -/
inductive Rv where
  | lui (d : Nat) (v : DWord)
  | auipc (d : Nat) (v : DWord)
  | jal (d : Nat) (off : DWord)
  | jalr (d a : Nat) (off : DWord)
  | branch (k : RvCond) (a b : Nat) (off : DWord)
  | load (n : Nat) (uns : Bool) (d a : Nat) (off : DWord)
  | store (n a b : Nat) (off : DWord)
  | aluImm (op : Alu) (w : Bool) (d a : Nat) (v : DWord)
  | alu (op : Alu) (w : Bool) (d a b : Nat)
  | lr (n d a : Nat)
  | sc (n d a b : Nat)
  | amo (op : Amo) (n d a b : Nat)
  | fence | ecall | ebreak | mret | sret | wfi | sfence
  | csr (f3 num d src : Nat)
  | fload (dbl : Bool) (d a : Nat) (off : DWord)
  | fstore (dbl : Bool) (a b : Nat) (off : DWord)
  | fma (dbl negP negC : Bool) (rm d a b c : Nat)
  | fop (op : RvFop) (dbl : Bool) (rm d a b : Nat)
  | fsqrt (dbl : Bool) (rm d a : Nat)
  | fsgn (k : RvSgn) (dbl : Bool) (d a b : Nat)
  | fminmax (max dbl : Bool) (d a b : Nat)
  | fcmp (k : RvCmp) (dbl : Bool) (d a b : Nat)
  | fclass (dbl : Bool) (d a : Nat)
  | ftoi (dbl uns long : Bool) (rm d a : Nat)
  | itof (dbl uns long : Bool) (rm d a : Nat)
  | fcvt (toDbl : Bool) (rm d a : Nat)
  | fmvx (dbl : Bool) (d a : Nat)
  | fmvf (dbl : Bool) (d a : Nat)
  deriving DecidableEq, Repr

/-! ### Decoding the 32-bit forms -/

/-- A field of `n` bits, sign-extended. -/
def sx (n v : Nat) : DWord := (BitVec.ofNat n v).signExtend 64

/-- The immediates of the formats. -/
def immI (w : Nat) : DWord := sx 12 (fld w 20 12)
def immS (w : Nat) : DWord := sx 12 (fld w 25 7 * 32 + fld w 7 5)
def immB (w : Nat) : DWord := sx 13 (fld w 31 1 * 4096 + fld w 7 1 * 2048 + fld w 25 6 * 32 + fld w 8 4 * 2)
def immU (w : Nat) : DWord := sx 32 (fld w 12 20 * 4096)
def immJ (w : Nat) : DWord :=
  sx 21 (fld w 31 1 * 2 ^ 20 + fld w 12 8 * 4096 + fld w 20 1 * 2048 + fld w 21 10 * 2)

/-- A load's size and signedness by funct3. -/
def rvLoad : Nat → Option (Nat × Bool)
  | 0 => some (1, false)
  | 1 => some (2, false)
  | 2 => some (4, false)
  | 3 => some (8, false)
  | 4 => some (1, true)
  | 5 => some (2, true)
  | 6 => some (4, true)
  | _ => none

/-- A branch's condition by funct3. -/
def rvCond : Nat → Option RvCond
  | 0 => some .eq
  | 1 => some .ne
  | 4 => some .lt
  | 5 => some .ge
  | 6 => some .ltu
  | 7 => some .geu
  | _ => none

/-- An operation on an immediate, and its operand, by funct3; shifts carry their own field. -/
def rvImm (w : Nat) (word : Bool) : Option (Alu × DWord) :=
  let sh := if word then fld w 20 5 else fld w 20 6
  let top := if word then fld w 25 7 * 2 else fld w 26 6 * 4
  let shift := fun (op : Alu) => some (op, BitVec.ofNat 64 sh)
  match fld w 12 3 with
  | 0 => some (.add, immI w)
  | 1 => if top = 0 then shift .sll else none
  | 5 => if top = 0 then shift .srl else if top = 64 then shift .sra else none
  | f3 =>
    if word then none
    else some ((if f3 = 2 then .slt else if f3 = 3 then .sltu else if f3 = 4 then .xor else if f3 = 6 then .or else .and), immI w)

/-- An operation on registers by funct7 and funct3. -/
def rvAlu (f7 f3 : Nat) (word : Bool) : Option Alu :=
  match f7, f3 with
  | 0, 0 => some .add
  | 32, 0 => some .sub
  | 0, 1 => some .sll
  | 0, 5 => some .srl
  | 32, 5 => some .sra
  | 1, 0 => some .mul
  | 1, 4 => some .div
  | 1, 5 => some .divu
  | 1, 6 => some .rem
  | 1, 7 => some .remu
  | 0, 2 => if word then none else some .slt
  | 0, 3 => if word then none else some .sltu
  | 0, 4 => if word then none else some .xor
  | 0, 6 => if word then none else some .or
  | 0, 7 => if word then none else some .and
  | 1, 1 => if word then none else some .mulh
  | 1, 2 => if word then none else some .mulhsu
  | 1, 3 => if word then none else some .mulhu
  | _, _ => none

/-- An atomic operation by funct5. -/
def rvAmo : Nat → Option Amo
  | 1 => some .swap
  | 0 => some .add
  | 4 => some .xor
  | 12 => some .and
  | 8 => some .or
  | 16 => some .min
  | 20 => some .max
  | 24 => some .minu
  | 28 => some .maxu
  | _ => none

/-- The A instructions. -/
def rvAtomic (w d a b : Nat) : Option Rv :=
  match fld w 12 3 with
  | 2 => go 4
  | 3 => go 8
  | _ => none
where
  /-- Of a size. -/
  go (n : Nat) : Option Rv :=
    match fld w 27 5 with
    | 2 => if b = 0 then some (.lr n d a) else none
    | 3 => some (.sc n d a b)
    | f5 => (rvAmo f5).map fun op => .amo op n d a b

/-- The SYSTEM instructions. -/
def rvSystem (w d a : Nat) : Option Rv :=
  match fld w 12 3 with
  | 0 =>
    if fld w 25 7 = 9 ∧ d = 0 then some .sfence
    else if d ≠ 0 ∨ a ≠ 0 then none
    else
      match fld w 20 12 with
      | 0x000 => some .ecall
      | 0x001 => some .ebreak
      | 0x102 => some .sret
      | 0x105 => some .wfi
      | 0x302 => some .mret
      | _ => none
  | 4 => none
  | f3 => some (.csr f3 (fld w 20 12) d a)

/-- The F and D instructions on registers. -/
def rvFloat (w d a b : Nat) : Option Rv :=
  let rm := fld w 12 3
  let dbl := decide (fld w 25 2 = 1)
  if 2 ≤ fld w 25 2 then none
  else
    match fld w 27 5 with
    | 0 => some (.fop .add dbl rm d a b)
    | 1 => some (.fop .sub dbl rm d a b)
    | 2 => some (.fop .mul dbl rm d a b)
    | 3 => some (.fop .div dbl rm d a b)
    | 11 => if b = 0 then some (.fsqrt dbl rm d a) else none
    | 4 =>
      (match rm with
       | 0 => some (.fsgn .copy dbl d a b)
       | 1 => some (.fsgn .negate dbl d a b)
       | 2 => some (.fsgn .xor dbl d a b)
       | _ => none)
    | 5 => if rm ≤ 1 then some (.fminmax (decide (rm = 1)) dbl d a b) else none
    | 20 =>
      (match rm with
       | 0 => some (.fcmp .le dbl d a b)
       | 1 => some (.fcmp .lt dbl d a b)
       | 2 => some (.fcmp .eq dbl d a b)
       | _ => none)
    | 24 => if b ≤ 3 then some (.ftoi dbl (decide (b % 2 = 1)) (decide (2 ≤ b)) rm d a) else none
    | 26 => if b ≤ 3 then some (.itof dbl (decide (b % 2 = 1)) (decide (2 ≤ b)) rm d a) else none
    | 8 => if (dbl = true ∧ b = 0) ∨ (dbl = false ∧ b = 1) then some (.fcvt dbl rm d a) else none
    | 28 => if b ≠ 0 then none else if rm = 0 then some (.fmvx dbl d a) else if rm = 1 then some (.fclass dbl d a) else none
    | 30 => if b = 0 ∧ rm = 0 then some (.fmvf dbl d a) else none
    | _ => none

/-- A 32-bit instruction. -/
def decodeRv (w : Nat) : Option Rv :=
  let d := fld w 7 5
  let a := fld w 15 5
  let b := fld w 20 5
  let f3 := fld w 12 3
  let fma := fun (np nc : Bool) =>
    if 2 ≤ fld w 25 2 then none else some (Rv.fma (decide (fld w 25 2 = 1)) np nc f3 d a b (fld w 27 5))
  match fld w 0 7 with
  | 0x37 => some (.lui d (immU w))
  | 0x17 => some (.auipc d (immU w))
  | 0x6F => some (.jal d (immJ w))
  | 0x67 => if f3 = 0 then some (.jalr d a (immI w)) else none
  | 0x63 => (rvCond f3).map fun k => .branch k a b (immB w)
  | 0x03 => (rvLoad f3).map fun x => .load x.1 x.2 d a (immI w)
  | 0x23 => if f3 ≤ 3 then some (.store (2 ^ f3) a b (immS w)) else none
  | 0x13 => (rvImm w false).map fun x => .aluImm x.1 false d a x.2
  | 0x1B => (rvImm w true).map fun x => .aluImm x.1 true d a x.2
  | 0x33 => (rvAlu (fld w 25 7) f3 false).map fun op => .alu op false d a b
  | 0x3B => (rvAlu (fld w 25 7) f3 true).map fun op => .alu op true d a b
  | 0x0F => if f3 ≤ 1 then some .fence else none
  | 0x2F => rvAtomic w d a b
  | 0x73 => rvSystem w d a
  | 0x07 => if f3 = 2 ∨ f3 = 3 then some (.fload (decide (f3 = 3)) d a (immI w)) else none
  | 0x27 => if f3 = 2 ∨ f3 = 3 then some (.fstore (decide (f3 = 3)) a b (immS w)) else none
  | 0x43 => fma false false
  | 0x47 => fma false true
  | 0x4B => fma true false
  | 0x4F => fma true true
  | 0x53 => rvFloat w d a b
  | _ => none

/-! ### Decoding the compressed forms -/

/-- The registers x8 to x15 of a 3-bit field. -/
def creg (h lo : Nat) : Nat := 8 + fld h lo 3

/-- The signed 6-bit immediate. -/
def cimm (h : Nat) : DWord := sx 6 (fld h 12 1 * 32 + fld h 2 5)

/-- A number as an offset. -/
def off (n : Nat) : DWord := BitVec.ofNat 64 n

/-- Offsets of the loads and stores of quadrant 0. -/
def coffW (h : Nat) : DWord := off (fld h 10 3 * 8 + fld h 6 1 * 4 + fld h 5 1 * 64)
def coffD (h : Nat) : DWord := off (fld h 10 3 * 8 + fld h 5 2 * 64)

/-- Quadrant 0. -/
def decodeC0 (h : Nat) : Option Rv :=
  let d := creg h 2
  let a := creg h 7
  match fld h 13 3 with
  | 0 =>
    let v := fld h 11 2 * 16 + fld h 7 4 * 64 + fld h 6 1 * 4 + fld h 5 1 * 8
    if v = 0 then none else some (.aluImm .add false d 2 (off v))
  | 1 => some (.fload true d a (coffD h))
  | 2 => some (.load 4 false d a (coffW h))
  | 3 => some (.load 8 false d a (coffD h))
  | 5 => some (.fstore true a d (coffD h))
  | 6 => some (.store 4 a d (coffW h))
  | 7 => some (.store 8 a d (coffD h))
  | _ => none

/-- The register operations of quadrant 1. -/
def decodeCAlu (h : Nat) : Option Rv :=
  let d := creg h 7
  let b := creg h 2
  let sh := off (fld h 12 1 * 32 + fld h 2 5)
  match fld h 10 2 with
  | 0 => some (.aluImm .srl false d d sh)
  | 1 => some (.aluImm .sra false d d sh)
  | 2 => some (.aluImm .and false d d (cimm h))
  | _ =>
    match fld h 12 1, fld h 5 2 with
    | 0, 0 => some (.alu .sub false d d b)
    | 0, 1 => some (.alu .xor false d d b)
    | 0, 2 => some (.alu .or false d d b)
    | 0, _ => some (.alu .and false d d b)
    | _, 0 => some (.alu .sub true d d b)
    | _, 1 => some (.alu .add true d d b)
    | _, _ => none

/-- C.ADDI16SP and C.LUI. -/
def decodeCLui (h d : Nat) : Option Rv :=
  if d = 2 then
    let v := fld h 12 1 * 512 + fld h 6 1 * 16 + fld h 5 1 * 64 + fld h 3 2 * 128 + fld h 2 1 * 32
    if v = 0 then none else some (.aluImm .add false 2 2 (sx 10 v))
  else if cimm h = 0 then none
  else some (.lui d (cimm h <<< 12))

/-- Quadrant 1. -/
def decodeC1 (h : Nat) : Option Rv :=
  let d := fld h 7 5
  let br := sx 9 (fld h 12 1 * 256 + fld h 10 2 * 8 + fld h 5 2 * 64 + fld h 3 2 * 2 + fld h 2 1 * 32)
  match fld h 13 3 with
  | 0 => some (.aluImm .add false d d (cimm h))
  | 1 => if d = 0 then none else some (.aluImm .add true d d (cimm h))
  | 2 => some (.aluImm .add false d 0 (cimm h))
  | 3 => decodeCLui h d
  | 4 => decodeCAlu h
  | 5 =>
    some (.jal 0 (sx 12 (fld h 12 1 * 2048 + fld h 11 1 * 16 + fld h 9 2 * 256 + fld h 8 1 * 1024 + fld h 7 1 * 64 +
      fld h 6 1 * 128 + fld h 3 3 * 2 + fld h 2 1 * 32)))
  | 6 => some (.branch .eq (creg h 7) 0 br)
  | _ => some (.branch .ne (creg h 7) 0 br)

/-- The jumps and moves of quadrant 2. -/
def decodeCJump (h d b : Nat) : Option Rv :=
  if fld h 12 1 = 0 then
    if b ≠ 0 then some (.alu .add false d 0 b) else if d = 0 then none else some (.jalr 0 d 0)
  else if b ≠ 0 then some (.alu .add false d d b)
  else if d = 0 then some .ebreak
  else some (.jalr 1 d 0)

/-- Quadrant 2. -/
def decodeC2 (h : Nat) : Option Rv :=
  let d := fld h 7 5
  let b := fld h 2 5
  let lw := off (fld h 12 1 * 32 + fld h 4 3 * 4 + fld h 2 2 * 64)
  let ld := off (fld h 12 1 * 32 + fld h 5 2 * 8 + fld h 2 3 * 64)
  let sw := off (fld h 9 4 * 4 + fld h 7 2 * 64)
  let sd := off (fld h 10 3 * 8 + fld h 7 3 * 64)
  match fld h 13 3 with
  | 0 => some (.aluImm .sll false d d (off (fld h 12 1 * 32 + b)))
  | 1 => some (.fload true d 2 ld)
  | 2 => if d = 0 then none else some (.load 4 false d 2 lw)
  | 3 => if d = 0 then none else some (.load 8 false d 2 ld)
  | 4 => decodeCJump h d b
  | 5 => some (.fstore true 2 b sd)
  | 6 => some (.store 4 2 b sw)
  | _ => some (.store 8 2 b sd)

/-- A 16-bit instruction. -/
def decodeC (h : Nat) : Option Rv :=
  match fld h 0 2 with
  | 0 => decodeC0 h
  | 1 => decodeC1 h
  | 2 => decodeC2 h
  | _ => none

/-! ### Integer arithmetic -/

/-- An operation on `n`-bit values. -/
def Alu.eval {n : Nat} (op : Alu) (a b : BitVec n) : BitVec n :=
  let sh := b.toNat % n
  match op with
  | .add => a + b
  | .sub => a - b
  | .sll => a <<< sh
  | .slt => if a.slt b then 1 else 0
  | .sltu => if a.ult b then 1 else 0
  | .xor => a ^^^ b
  | .srl => a >>> sh
  | .sra => a.sshiftRight sh
  | .or => a ||| b
  | .and => a &&& b
  | .mul => a * b
  | .mulh => BitVec.ofInt n (a.toInt * b.toInt / 2 ^ n)
  | .mulhsu => BitVec.ofInt n (a.toInt * (b.toNat : Int) / 2 ^ n)
  | .mulhu => BitVec.ofNat n (a.toNat * b.toNat / 2 ^ n)
  | .div => if b = 0 then BitVec.allOnes n else a.sdiv b
  | .divu => if b = 0 then BitVec.allOnes n else a / b
  | .rem => if b = 0 then a else a.srem b
  | .remu => if b = 0 then a else a % b

/-- The 64-bit form, or the 32-bit one with its result sign-extended. -/
def Alu.result (op : Alu) (w : Bool) (a b : DWord) : DWord :=
  if w then (op.eval (a.setWidth 32) (b.setWidth 32)).signExtend 64 else op.eval a b

/-- Whether a branch is taken. -/
def RvCond.holds (k : RvCond) (a b : DWord) : Bool :=
  match k with
  | .eq => a == b
  | .ne => a != b
  | .lt => a.slt b
  | .ge => !a.slt b
  | .ltu => a.ult b
  | .geu => !a.ult b

/-- What an atomic operation leaves, of `n` bits. -/
def Amo.eval {n : Nat} (op : Amo) (old b : BitVec n) : BitVec n :=
  match op with
  | .swap => b
  | .add => old + b
  | .xor => old ^^^ b
  | .and => old &&& b
  | .or => old ||| b
  | .min => if b.slt old then b else old
  | .max => if old.slt b then b else old
  | .minu => if b.ult old then b else old
  | .maxu => if old.ult b then b else old

/-- A loaded value of `n` bytes, extended. -/
def rvExtend (n : Nat) (uns : Bool) (v : Nat) : DWord := if uns then BitVec.ofNat 64 v else sx (8 * n) v

/-! ### Floating arithmetic -/

/-- A binary interchange format: exponent and mantissa bits. -/
structure BinFmt where
  e : Nat
  m : Nat
  deriving DecidableEq, Repr

/-- Single and double precision. -/
def BinFmt.of (dbl : Bool) : BinFmt := if dbl then ⟨11, 52⟩ else ⟨8, 23⟩

def BinFmt.bias (f : BinFmt) : Nat := 2 ^ (f.e - 1) - 1
def BinFmt.infPat (f : BinFmt) : Nat := (2 ^ f.e - 1) * 2 ^ f.m
def BinFmt.nan (f : BinFmt) : Nat := f.infPat + 2 ^ (f.m - 1)
def BinFmt.sign (f : BinFmt) (neg : Bool) : Nat := if neg then 2 ^ (f.e + f.m) else 0

/-- The value of a pattern. -/
def BinFmt.value (f : BinFmt) (p : Nat) : Val :=
  let neg := p / 2 ^ (f.e + f.m) % 2 == 1
  let ex := p / 2 ^ f.m % 2 ^ f.e
  let ma := p % 2 ^ f.m
  if ex = 2 ^ f.e - 1 then (if ma = 0 then .inf neg else .nan)
  else if ex = 0 then .of neg ma (1 - (f.bias : Int) - f.m)
  else .of neg (2 ^ f.m + ma) ((ex : Int) - f.bias - f.m)

/-- Whether a pattern is a signaling NaN. -/
def BinFmt.signaling (f : BinFmt) (p : Nat) : Bool :=
  decide (f.value p = .nan) && decide (p / 2 ^ (f.m - 1) % 2 = 0)

/-- Rounding to a format, with tininess detected after rounding. -/
def BinFmt.round (f : BinFmt) (mode : RMode) (x : Val) : Nat × Word :=
  match x with
  | .nan => (f.nan, 0)
  | .inf neg => (f.sign neg + f.infPat, 0)
  | .fin x =>
    if x.mant = 0 ∧ x.sticky = false then (f.sign x.neg, 0)
    else
      let c : Ctx := { Ctx.rne with mode := mode }
      let emin : Int := 1 - (f.bias : Int)
      let lg : Int := x.exp + (Nat.log2 x.mant : Nat)
      let k : Int := max lg emin - f.m
      let ch := choose x k c
      let tiny := decide (lg < emin) && !(decide (lg + 1 = emin) && decide ((choose x (lg - f.m) c).n = 2 ^ (f.m + 1)))
      let fl := if ch.exact then 0 else if tiny then flNX ||| flUF else flNX
      let p := (k + f.m + f.bias - 1).toNat * 2 ^ f.m + ch.n
      if f.infPat ≤ p then
        let down := decide (mode = .rtz) || (decide (mode = .rup) && x.neg) || (decide (mode = .rdn) && !x.neg)
        (f.sign x.neg + (if down then f.infPat - 1 else f.infPat), fl ||| flOF ||| flNX)
      else (f.sign x.neg + p, fl)

/-- A rounding mode by its number, with frm for 7; none for a reserved one. -/
def rvRound (rm frm : Nat) : Option RMode :=
  match if rm = 7 then frm else rm with
  | 0 => some .rne
  | 1 => some .rtz
  | 2 => some .rdn
  | 3 => some .rup
  | 4 => some .rna
  | _ => none

/-- NV where one of some operands is a signaling NaN. -/
def BinFmt.snan (f : BinFmt) (ps : List Nat) : Word := if ps.any f.signaling then flNV else 0

/-- An operation of two operands. -/
def RvFop.eval (op : RvFop) (f : BinFmt) (mode : RMode) (p q : Nat) : Nat × Word :=
  let x := f.value p
  let y := f.value q
  let rdn := decide (mode = .rdn)
  let v := match op with
    | .add => addVal rdn x y
    | .sub => addVal rdn x y.negate
    | .mul => mulVal x y
    | .div => divVal x y
  let r := f.round mode v.1
  (r.1, r.2 ||| v.2 ||| f.snan [p, q])

/-- The fused forms. -/
def rvFma (f : BinFmt) (mode : RMode) (negP negC : Bool) (p q c : Nat) : Nat × Word :=
  let flip := fun (n : Bool) (x : Val) => if n then x.negate else x
  let v := fmaVal (decide (mode = .rdn)) (flip negP (f.value p)) (f.value q) (flip negC (f.value c))
  let r := f.round mode v.1
  (r.1, r.2 ||| v.2 ||| f.snan [p, q, c])

/-- The square root. -/
def rvSqrt (f : BinFmt) (mode : RMode) (p : Nat) : Nat × Word :=
  let v := sqrtVal (f.value p)
  let r := f.round mode v.1
  (r.1, r.2 ||| v.2 ||| f.snan [p])

/-- FSGNJ, FSGNJN, FSGNJX. -/
def RvSgn.eval (k : RvSgn) (f : BinFmt) (p q : Nat) : Nat :=
  let s := p / 2 ^ (f.e + f.m) % 2 == 1
  let t := q / 2 ^ (f.e + f.m) % 2 == 1
  p % 2 ^ (f.e + f.m) + f.sign (match k with
    | .copy => t
    | .negate => !t
    | .xor => s != t)

/-- FMIN and FMAX: a NaN gives way to a number, and −0 lies below +0. -/
def rvMinMax (f : BinFmt) (max : Bool) (p q : Nat) : Nat × Word :=
  let x := f.value p
  let y := f.value q
  let first := match cmpVal x y with
    | some .lt => !max
    | some .gt => max
    | _ => if x.neg = y.neg then true else x.neg != max
  (if x = .nan then (if y = .nan then f.nan else q) else if y = .nan then p else if first then p else q, f.snan [p, q])

/-- FLE, FLT and FEQ: the first two signal any NaN. -/
def RvCmp.eval (k : RvCmp) (f : BinFmt) (p q : Nat) : Bool × Word :=
  match cmpVal (f.value p) (f.value q) with
  | none => (false, if k = .eq then f.snan [p, q] else flNV)
  | some o => ((match k with
      | .le => o != .gt
      | .lt => o == .lt
      | .eq => o == .eq), 0)

/-- FCLASS. -/
def rvClass (f : BinFmt) (p : Nat) : Nat :=
  let ex := p / 2 ^ f.m % 2 ^ f.e
  match f.value p with
  | .nan => if f.signaling p then 256 else 512
  | .inf neg => if neg then 1 else 128
  | .fin x =>
    if x.mant = 0 then (if x.neg then 8 else 16)
    else if ex = 0 then (if x.neg then 4 else 32)
    else if x.neg then 2 else 64

/-- A conversion to an integer of `n` bits: out of range it saturates, as NaN does. -/
def rvToInt (f : BinFmt) (mode : RMode) (uns : Bool) (n p : Nat) : Int × Word :=
  let lo : Int := if uns then 0 else -(2 ^ (n - 1) : Int)
  let hi : Int := if uns then 2 ^ n - 1 else 2 ^ (n - 1) - 1
  match f.value p with
  | .nan => (hi, flNV)
  | .inf neg => (if neg then lo else hi, flNV)
  | .fin x =>
    let ch := choose x 0 { Ctx.rne with mode := mode }
    let y : Int := if x.neg then -(ch.n : Int) else ch.n
    if y < lo then (lo, flNV) else if hi < y then (hi, flNV) else (y, if ch.exact then 0 else flNX)

end Sys2Proof.Machine
end

