-- ==== Sys2Proof/Machine/FrontCore.lean ====
section
/-! DEFINITION. A front-end core (R413, R424): its reach, its control and status registers, its address translation, its
traps and interrupts, and what each instruction of RV64GC does (PRESUMED from the RISC-V manuals, log entry 120). -/

namespace Sys2Proof.Machine

open Sys2Proof

/-! ### Registers -/

/-- A register of a front-end core; x0 reads as zero. -/
def Front.reg (f : Front) (n : Nat) : DWord := if n = 0 then 0 else f.x.get 0 n

/-- A write of a register; x0 keeps nothing. -/
def Front.setReg (f : Front) (n : Nat) (v : DWord) : Front := if n = 0 then f else { f with x := f.x.set n v }

/-- A floating register as a value of a width: a single is boxed in ones, or reads as a NaN. -/
def Front.freg (f : Front) (dbl : Bool) (n : Nat) : Nat :=
  let v := (f.f.get 0 n).toNat
  if dbl then v else if v / 2 ^ 32 = 2 ^ 32 - 1 then v % 2 ^ 32 else (BinFmt.of false).nan

/-- A write of a floating register: it leaves the floating state dirty. -/
def Front.setFreg (f : Front) (dbl : Bool) (n v : Nat) : Front :=
  let w := if dbl then v else (2 ^ 32 - 1) * 2 ^ 32 + v % 2 ^ 32
  { f with f := f.f.set n (BitVec.ofNat 64 w), csrs := { f.csrs with mstatus := f.csrs.mstatus ||| 0x6000 } }

/-- The exception flags of floating arithmetic are gathered in fflags. -/
def Front.flag (f : Front) (fl : Word) : Front :=
  if fl = 0 then f
  else { f with csrs := { f.csrs with fcsr := f.csrs.fcsr ||| fl, mstatus := f.csrs.mstatus ||| 0x6000 } }

/-- The core goes on after an instruction of `len` bytes. -/
def Front.goOn (f : Front) (len : Nat) : Front :=
  { f with pc := f.pc + BitVec.ofNat 64 len, csrs := { f.csrs with instret := f.csrs.instret + 1 } }

/-! ### Reach (R413, R424) -/

/-- Whether a front-end core may reach `n` bytes at a physical address: device memory that CONN lets its port reach,
host memory, and its partition's function windows. -/
def State.frontMay (s : State) (fe pa n : Nat) : Bool :=
  if isHbm pa then isHbm (pa + n - 1) && s.portReaches (8 + fe) pa n
  else if 2 ^ 56 ≤ pa then false
  else if paKind pa = 1 then s.cxl && decide (pa / 2 ^ 48 % 16 = 0)
  else if paKind pa = 3 then
    decide (pa / 2 ^ 23 % 2 ^ 29 = 0) && decide ((windowAt pa).1 ≤ 64) &&
      decide ((s.fn (windowAt pa).1).part = (s.front fe).part)
  else false

/-- Whether a front-end core's access meets its memory: permitted, and no error in what it reads. -/
def State.frontOk (s : State) (fe pa n : Nat) : Bool := s.frontMay fe pa n && (s.metError pa n false).isNone

/-- Whether a held access is due at the home of an address: it goes first (R126). -/
def State.frontWaits (s : State) (pa : Nat) : Bool := isHbm pa && s.homeDue (s.homeOf (.phys pa))

/-- What a front-end core reads. -/
def State.frontRead (s : State) (pa n : Nat) : Nat :=
  if paKind pa = 3 then s.readWindow (windowAt pa).1 (windowAt pa).2 n else Memory.read s.mem pa n

/-- What a front-end core writes. -/
def State.frontWrite (s : State) (pa : Nat) (bytes : List Byte) : State :=
  if paKind pa = 3 then s.writeWindow (windowAt pa).1 (windowAt pa).2 bytes none else s.outerWrite pa bytes

/-! ### Address translation (Sv39) -/

/-- What an access of a front-end core is for. -/
inductive FrontUse where | fetch | load | store
  deriving DecidableEq, Repr

/-- The access fault and the page fault of a use. -/
def FrontUse.accessFault : FrontUse → Nat
  | .fetch => 1
  | .load => 5
  | .store => 7
def FrontUse.pageFault : FrontUse → Nat
  | .fetch => 12
  | .load => 13
  | .store => 15

/-- Whether an access runs in supervisor mode: under MPRV loads and stores take MPP's. -/
def Front.asSupervisor (f : Front) (u : FrontUse) : Bool :=
  if !f.supervisor && f.csrs.mstatus.getLsbD 17 && decide (u ≠ .fetch) then !f.csrs.mstatus.getLsbD 12 else f.supervisor

/-- Whether a leaf admits a use in supervisor mode; A, and D for a store, are software's to set. -/
def leafAdmits (ms : DWord) (pte : Nat) (u : FrontUse) : Bool :=
  let bit := fun (n : Nat) => bitOf pte n
  (match u with
   | .fetch => bit 3 && !bit 4
   | .load => (bit 1 || (ms.getLsbD 19 && bit 3)) && (!bit 4 || ms.getLsbD 18)
   | .store => bit 2 && (!bit 4 || ms.getLsbD 18)) && bit 6 && (decide (u ≠ .store) || bit 7)

/-- The walk from the table at `a`, at a level: the physical address, or the exception. -/
def State.frontWalk (s : State) (fe va : Nat) (u : FrontUse) : Nat → Nat → Except Nat Nat
  | 0, _ => .error u.pageFault
  | level + 1, a =>
    let pa := a + 8 * (va / 2 ^ (12 + 9 * level) % 512)
    if !s.frontOk fe pa 8 then .error u.accessFault
    else
      let pte := s.frontRead pa 8
      let ppn := pte / 2 ^ 10 % 2 ^ 44
      if !bitOf pte 0 || (!bitOf pte 1 && bitOf pte 2) || decide (pte / 2 ^ 54 ≠ 0) then .error u.pageFault
      else if bitOf pte 1 || bitOf pte 3 then
        if leafAdmits (s.front fe).csrs.mstatus pte u && decide (ppn % 2 ^ (9 * level) = 0) then
          .ok (ppn * 4096 + va % 2 ^ (12 + 9 * level))
        else .error u.pageFault
      else State.frontWalk s fe va u level (ppn * 4096)

/-- Where a virtual address of a front-end core is. -/
def State.frontPlace (s : State) (fe : Nat) (va : DWord) (u : FrontUse) : Except Nat Nat :=
  let f := s.front fe
  let satp := f.csrs.satp.toNat
  if !f.asSupervisor u || decide (satp / 2 ^ 60 ≠ 8) then .ok va.toNat
  else if (va.setWidth 39).signExtend 64 ≠ va then .error u.pageFault
  else s.frontWalk fe (va.toNat % 2 ^ 39) u 3 (satp % 2 ^ 44 * 4096)

/-! ### Traps -/

/-- Whether a trap goes to supervisor mode: one that arises there and is delegated. -/
def Front.delegated (f : Front) (cause : Nat) (interrupt : Bool) : Bool :=
  f.supervisor && (if interrupt then f.csrs.mideleg else f.csrs.medeleg).getLsbD cause

/-- Where a trap goes: the base, or for an interrupt in vectored mode its own entry. -/
def trapVector (tvec : DWord) (cause : Nat) (interrupt : Bool) : DWord :=
  (tvec &&& ~~~(3 : DWord)) + (if interrupt && decide (tvec &&& 3 = 1) then BitVec.ofNat 64 (4 * cause) else 0)

/-- The cause register's word. -/
def causeWord (cause : Nat) (interrupt : Bool) : DWord := BitVec.ofNat 64 (interrupt.toNat * 2 ^ 63 + cause)

/-- The register words of a trap into machine mode: MPIE takes MIE, MPP the mode. -/
def Front.trapM (f : Front) (cause : Nat) (interrupt : Bool) (tval : DWord) : Front :=
  let c := f.csrs
  let st := (c.mstatus &&& ~~~(0x1888 : DWord)) ||| (if c.mstatus.getLsbD 3 then 0x80 else 0) |||
    (if f.supervisor then 0x800 else 0x1800)
  { f with
    csrs := { c with mepc := f.pc, mcause := causeWord cause interrupt, mtval := tval, mstatus := st }
    supervisor := false, pc := trapVector c.mtvec cause interrupt }

/-- Into supervisor mode: SPIE takes SIE, SPP the mode. -/
def Front.trapS (f : Front) (cause : Nat) (interrupt : Bool) (tval : DWord) : Front :=
  let c := f.csrs
  let st := (c.mstatus &&& ~~~(0x122 : DWord)) ||| (if c.mstatus.getLsbD 1 then 0x20 else 0) |||
    (if f.supervisor then 0x100 else 0)
  { f with
    csrs := { c with sepc := f.pc, scause := causeWord cause interrupt, stval := tval, mstatus := st }
    supervisor := true, pc := trapVector c.stvec cause interrupt }

/-- A trap: the pc is the interrupted or faulting instruction's own, a waiting SWAIT's too (R414). -/
def Front.trap (f : Front) (cause : Nat) (interrupt : Bool) (tval : DWord) : Front :=
  let f := { f with swait := none, wfi := false }
  if f.delegated cause interrupt then f.trapS cause interrupt tval else f.trapM cause interrupt tval

/-- Takes an exception. -/
def State.frontTrap (s : State) (fe cause : Nat) (tval : DWord) : State :=
  s.setFront fe ((s.front fe).trap cause false tval)

/-- An access that fails: an error in the line is posted as MACHINE_CHECK as well (R102). -/
def State.frontFault (s : State) (fe pa n cause : Nat) (va : DWord) : State :=
  (match s.metError pa n false with
   | some l => if s.frontMay fe pa n then (s.markFailed l).postCheck (l * 128) else s
   | none => s).frontTrap fe cause va

/-- The interrupt that a core takes next: machine external, software, timer, then the supervisor's. -/
def Front.interrupt (f : Front) : Option Nat :=
  let c := f.csrs
  let due := c.mip &&& c.mie
  let m := f.supervisor || c.mstatus.getLsbD 3
  let sv := f.supervisor && c.mstatus.getLsbD 1
  [11, 3, 7, 9, 1, 5].find? fun n => due.getLsbD n && (if c.mideleg.getLsbD n then sv else m)

/-- MRET. -/
def Front.mret (f : Front) : Front :=
  let st := f.csrs.mstatus
  let toM := st.getLsbD 12
  let st' := (st &&& ~~~(0x1888 : DWord)) ||| (if st.getLsbD 7 then 0x8 else 0) ||| 0x80 ||| 0x800
  { f with csrs := { f.csrs with mstatus := if toM then st' else st' &&& ~~~(0x20000 : DWord) },
           supervisor := !toM, pc := f.csrs.mepc }

/-- SRET: there is no mode below the supervisor's. -/
def Front.sret (f : Front) : Front :=
  let st := f.csrs.mstatus
  let st' := (st &&& ~~~(0x122 : DWord)) ||| (if st.getLsbD 5 then 0x2 else 0) ||| 0x20 ||| 0x100
  { f with csrs := { f.csrs with mstatus := st' &&& ~~~(0x20000 : DWord) }, supervisor := true, pc := f.csrs.sepc }

/-! ### Control and status registers -/

/-- The fields of mstatus that can be written: MPP is machine or supervisor, SPP the supervisor alone. -/
def writeMstatus (old v : DWord) : DWord :=
  let v := if v.getLsbD 11 then v else v &&& ~~~(0x1800 : DWord) ||| (old &&& 0x1800)
  (v &&& 0x7E78AA) ||| 0x100

/-- The fields of mstatus that sstatus shows. -/
def sstatusMask : DWord := 0xC6122

/-- mstatus as it reads: SD with a dirty floating state, 64-bit supervisor mode. -/
def readMstatus (v : DWord) : DWord :=
  v ||| 0x800000000 ||| (if v &&& 0x6000 = 0x6000 then 0x8000000000000000 else 0)

/-- misa: RV64 with A, C, D, F, I, M and S. -/
def misa : DWord := 0x800000000004112D

/-- Registers that exist and read as zero: identification, physical memory protection with no region, performance
counters, environment configuration. -/
def zeroCsr (n : Nat) : Bool :=
  decide (0xF11 ≤ n ∧ n ≤ 0xF13) || decide (n = 0xF15) || decide (0x3A0 ≤ n ∧ n < 0x3F0) || decide (0x323 ≤ n ∧ n ≤ 0x33F) ||
    decide (0xB03 ≤ n ∧ n ≤ 0xB1F) || decide (n = 0x320) || decide (n = 0x30A) || decide (n = 0x10A)

/-- A register's value; `none` where there is no such register. -/
def State.readCsr (s : State) (fe n : Nat) : Option DWord :=
  let c := (s.front fe).csrs
  match n with
  | 0x001 => some ((c.fcsr &&& 0x1F).setWidth 64)
  | 0x002 => some (((c.fcsr >>> 5) &&& 7).setWidth 64)
  | 0x003 => some (c.fcsr.setWidth 64)
  | 0x100 => some (readMstatus c.mstatus &&& (sstatusMask ||| 0x8000000000000000))
  | 0x104 => some (c.mie &&& c.mideleg)
  | 0x105 => some c.stvec
  | 0x106 => some c.scounteren
  | 0x140 => some c.sscratch
  | 0x141 => some c.sepc
  | 0x142 => some c.scause
  | 0x143 => some c.stval
  | 0x144 => some (c.mip &&& c.mideleg)
  | 0x180 => some c.satp
  | 0x300 => some (readMstatus c.mstatus)
  | 0x301 => some misa
  | 0x302 => some c.medeleg
  | 0x303 => some c.mideleg
  | 0x304 => some c.mie
  | 0x305 => some c.mtvec
  | 0x306 => some c.mcounteren
  | 0x340 => some c.mscratch
  | 0x341 => some c.mepc
  | 0x342 => some c.mcause
  | 0x343 => some c.mtval
  | 0x344 => some c.mip
  | 0xB00 => some (Config.frontCycles fe (s.ticks 0))
  | 0xB02 => some c.instret
  | 0xF14 => some (BitVec.ofNat 64 fe)
  | _ => if zeroCsr n then some 0 else none

/-- The bits of a word that a mask lets change. -/
def merge (old v mask : DWord) : DWord := (old &&& ~~~mask) ||| (v &&& mask)

/-- A trap vector: direct or vectored. -/
def tvecOf (v : DWord) : DWord := v &&& ~~~(2 : DWord)

/-- Writes a register's fields. -/
def Csrs.write (c : Csrs) (n : Nat) (v : DWord) : Csrs :=
  match n with
  | 0x001 => { c with fcsr := (c.fcsr &&& 0xE0) ||| (v.setWidth 32 &&& 0x1F), mstatus := c.mstatus ||| 0x6000 }
  | 0x002 => { c with fcsr := (c.fcsr &&& 0x1F) ||| ((v.setWidth 32 &&& 7) <<< 5), mstatus := c.mstatus ||| 0x6000 }
  | 0x003 => { c with fcsr := v.setWidth 32 &&& 0xFF, mstatus := c.mstatus ||| 0x6000 }
  | 0x100 => { c with mstatus := writeMstatus c.mstatus (merge c.mstatus v sstatusMask) }
  | 0x104 => { c with mie := merge c.mie v (c.mideleg &&& 0x222) }
  | 0x105 => { c with stvec := tvecOf v }
  | 0x106 => { c with scounteren := v &&& 0xFFFFFFFF }
  | 0x140 => { c with sscratch := v }
  | 0x141 => { c with sepc := v &&& ~~~(1 : DWord) }
  | 0x142 => { c with scause := v }
  | 0x143 => { c with stval := v }
  | 0x144 => { c with mip := merge c.mip v (c.mideleg &&& 0x2) }
  | 0x180 => if v >>> 60 = 0 ∨ v >>> 60 = 8 then { c with satp := v } else c
  | 0x300 => { c with mstatus := writeMstatus c.mstatus v }
  | 0x302 => { c with medeleg := v &&& 0xF00B3FF }
  | 0x303 => { c with mideleg := v &&& 0x222 }
  | 0x304 => { c with mie := v &&& 0xAAA }
  | 0x305 => { c with mtvec := tvecOf v }
  | 0x306 => { c with mcounteren := v &&& 0xFFFFFFFF }
  | 0x340 => { c with mscratch := v }
  | 0x341 => { c with mepc := v &&& ~~~(1 : DWord) }
  | 0x342 => { c with mcause := v }
  | 0x343 => { c with mtval := v }
  | 0x344 => { c with mip := merge c.mip v 0x222 }
  | 0xB02 => { c with instret := v }
  | _ => c

/-- Whether a register may be reached: in its mode, the floating ones while the floating state is on, satp unless TVM
traps it. -/
def Front.csrOk (f : Front) (n : Nat) (write : Bool) : Bool :=
  (!f.supervisor || decide (n / 256 % 4 ≤ 1)) && !(write && decide (n / 1024 = 3)) &&
    !(decide (n ≤ 3) && decide (f.csrs.mstatus &&& 0x6000 = 0)) &&
    !(decide (n = 0x180) && f.supervisor && f.csrs.mstatus.getLsbD 20)

/-! ### Memory of an instruction -/

/-- Loads `n` bytes at a virtual address, or the trap; `k` goes on with the value. -/
def State.frontLoad (s : State) (fe : Nat) (va : DWord) (n : Nat) (k : Nat → Nat → State) : State :=
  if va.toNat % n ≠ 0 then s.frontTrap fe 4 va
  else
    match s.frontPlace fe va .load with
    | .error c => s.frontTrap fe c va
    | .ok pa =>
      if s.frontWaits pa then s else if !s.frontOk fe pa n then s.frontFault fe pa n 5 va else k pa (s.frontRead pa n)

/-- Where `n` bytes at a virtual address may be stored, or the trap. Windows take no atomics. -/
def State.frontStore (s : State) (fe : Nat) (va : DWord) (n : Nat) (atomic : Bool) (k : Nat → State) : State :=
  if va.toNat % n ≠ 0 then s.frontTrap fe 6 va
  else
    match s.frontPlace fe va .store with
    | .error c => s.frontTrap fe c va
    | .ok pa =>
      if s.frontWaits pa then s
      else if !s.frontMay fe pa n || (atomic && decide (paKind pa = 3)) then s.frontTrap fe 7 va
      else if !s.frontOk fe pa n && (atomic || decide (paKind pa ≠ 3)) then s.frontFault fe pa n 7 va
      else k pa

/-- The core after an instruction that changes its own registers alone. -/
def State.frontDone (s : State) (fe len : Nat) (g : Front → Front) : State := s.setFront fe ((g (s.front fe)).goOn len)

/-- A jump: its target, and the return address. -/
def Front.jump (f : Front) (d : Nat) (target : DWord) (len : Nat) : Front :=
  let r := f.pc + BitVec.ofNat 64 len
  { (f.setReg d r) with pc := target, csrs := { f.csrs with instret := f.csrs.instret + 1 } }

/-- SC: it stores where the core still holds its reservation, which a write of the line ends. -/
def State.frontSc (s : State) (fe len d : Nat) (va : DWord) (n : Nat) (v : DWord) : State :=
  s.frontStore fe va n true fun pa =>
    let ok := decide ((s.front fe).reserved = some pa)
    let s := if ok then s.frontWrite pa (bytesOf n v.toNat) else s
    s.frontDone fe len fun f => { f.setReg d (if ok then 0 else 1) with reserved := none }

/-- AMO. -/
def State.frontAmo (s : State) (fe len : Nat) (op : Amo) (n d : Nat) (va v : DWord) : State :=
  s.frontStore fe va n true fun pa =>
    let old := s.frontRead pa n
    let new := if n = 4 then (op.eval (BitVec.ofNat 32 old) (v.setWidth 32)).toNat else (op.eval (BitVec.ofNat 64 old) v).toNat
    (s.frontWrite pa (bytesOf n new)).frontDone fe len fun f => f.setReg d (sx (8 * n) old)

/-- A CSR instruction. -/
def State.frontCsr (s : State) (fe len w f3 num d src : Nat) : State :=
  let f := s.front fe
  let v := if 4 ≤ f3 then BitVec.ofNat 64 src else f.reg src
  let write := decide (f3 % 4 = 1) || decide (src ≠ 0)
  match s.readCsr fe num with
  | none => s.frontTrap fe 2 (BitVec.ofNat 64 w)
  | some old =>
    if !f.csrOk num write then s.frontTrap fe 2 (BitVec.ofNat 64 w)
    else
      let new := match f3 % 4 with
        | 1 => v
        | 2 => old ||| v
        | _ => old &&& ~~~v
      s.frontDone fe len fun f =>
        let f := f.setReg d old
        if write then { f with csrs := f.csrs.write num new } else f

/-- A floating instruction: it needs the floating state on and, where it rounds, a rounding mode. -/
def State.frontFloat (s : State) (fe len w rm : Nat) (k : RMode → Front → Front) : State :=
  let c := (s.front fe).csrs
  match rvRound rm (c.fcsr.toNat / 32 % 8) with
  | some m => if c.mstatus &&& 0x6000 = 0 then s.frontTrap fe 2 (BitVec.ofNat 64 w) else s.frontDone fe len (k m)
  | none => s.frontTrap fe 2 (BitVec.ofNat 64 w)

/-- A result of floating arithmetic. -/
def Front.fresult (f : Front) (dbl : Bool) (d : Nat) (r : Nat × Word) : Front := (f.setFreg dbl d r.1).flag r.2

/-! ### What an instruction does -/

/-- The instructions on integer registers, jumps and memory. -/
def State.rvInt (s : State) (fe len w : Nat) (i : Rv) : State :=
  let f := s.front fe
  let x := f.reg
  match i with
  | .lui d v => s.frontDone fe len fun f => f.setReg d v
  | .auipc d v => s.frontDone fe len fun f => f.setReg d (f.pc + v)
  | .jal d off => s.setFront fe (f.jump d (f.pc + off) len)
  | .jalr d a off => s.setFront fe (f.jump d ((x a + off) &&& ~~~(1 : DWord)) len)
  | .branch k a b off =>
    if k.holds (x a) (x b) then s.setFront fe (f.jump 0 (f.pc + off) len) else s.frontDone fe len id
  | .load n uns d a off =>
    s.frontLoad fe (x a + off) n fun _ v => s.frontDone fe len fun f => f.setReg d (rvExtend n uns v)
  | .store n a b off =>
    s.frontStore fe (x a + off) n false fun pa => (s.frontWrite pa (bytesOf n (x b).toNat)).frontDone fe len id
  | .aluImm op word d a v => s.frontDone fe len fun f => f.setReg d (op.result word (x a) v)
  | .alu op word d a b => s.frontDone fe len fun f => f.setReg d (op.result word (x a) (x b))
  | .lr n d a =>
    s.frontLoad fe (x a) n fun pa v => s.frontDone fe len fun f =>
      { f.setReg d (sx (8 * n) v) with reserved := some pa }
  | .sc n d a b => s.frontSc fe len d (x a) n (x b)
  | .amo op n d a b => s.frontAmo fe len op n d (x a) (x b)
  | .csr f3 num d src => s.frontCsr fe len w f3 num d src
  | _ => s.frontDone fe len id

/-- The instructions of the modes. -/
def State.rvSys (s : State) (fe len w : Nat) (i : Rv) : State :=
  let f := s.front fe
  let st := f.csrs.mstatus
  let illegal := s.frontTrap fe 2 (BitVec.ofNat 64 w)
  match i with
  | .ecall => s.frontTrap fe (if f.supervisor then 9 else 11) 0
  | .ebreak => s.frontTrap fe 3 f.pc
  | .mret => if f.supervisor then illegal else s.setFront fe f.mret
  | .sret => if f.supervisor && st.getLsbD 22 then illegal else s.setFront fe f.sret
  | .wfi => if f.supervisor && st.getLsbD 21 then illegal else s.frontDone fe len fun f => { f with wfi := true }
  | .sfence => if f.supervisor && st.getLsbD 20 then illegal else s.frontDone fe len id
  | _ => s.frontDone fe len id

/-- The floating instructions. -/
def State.rvFlt (s : State) (fe len w : Nat) (i : Rv) : State :=
  let f := s.front fe
  let x := f.reg
  let plain := fun (k : Front → Front) => s.frontFloat fe len w 0 fun _ => k
  match i with
  | .fload dbl d a off =>
    if f.csrs.mstatus &&& 0x6000 = 0 then s.frontTrap fe 2 (BitVec.ofNat 64 w)
    else s.frontLoad fe (x a + off) (if dbl then 8 else 4) fun _ v => s.frontDone fe len fun f => f.setFreg dbl d v
  | .fstore dbl a b off =>
    let n := if dbl then 8 else 4
    if f.csrs.mstatus &&& 0x6000 = 0 then s.frontTrap fe 2 (BitVec.ofNat 64 w)
    else s.frontStore fe (x a + off) n false fun pa =>
      (s.frontWrite pa (bytesOf n ((f.f.get 0 b).toNat % 2 ^ (8 * n)))).frontDone fe len id
  | .fma dbl np nc rm d a b c => s.frontFloat fe len w rm fun m f =>
      f.fresult dbl d (rvFma (.of dbl) m np nc (f.freg dbl a) (f.freg dbl b) (f.freg dbl c))
  | .fop op dbl rm d a b => s.frontFloat fe len w rm fun m f =>
      f.fresult dbl d (op.eval (.of dbl) m (f.freg dbl a) (f.freg dbl b))
  | .fsqrt dbl rm d a => s.frontFloat fe len w rm fun m f => f.fresult dbl d (rvSqrt (.of dbl) m (f.freg dbl a))
  | .fsgn k dbl d a b => plain fun f => f.setFreg dbl d (k.eval (.of dbl) (f.freg dbl a) (f.freg dbl b))
  | .fminmax mx dbl d a b => plain fun f => f.fresult dbl d (rvMinMax (.of dbl) mx (f.freg dbl a) (f.freg dbl b))
  | .fcmp k dbl d a b => plain fun f =>
      let r := k.eval (.of dbl) (f.freg dbl a) (f.freg dbl b)
      (f.setReg d (if r.1 then 1 else 0)).flag r.2
  | .fclass dbl d a => plain fun f => f.setReg d (BitVec.ofNat 64 (rvClass (.of dbl) (f.freg dbl a)))
  | .ftoi dbl uns long rm d a => s.frontFloat fe len w rm fun m f =>
      let r := rvToInt (.of dbl) m uns (if long then 64 else 32) (f.freg dbl a)
      (f.setReg d (if long then BitVec.ofInt 64 r.1 else (BitVec.ofInt 32 r.1).signExtend 64)).flag r.2
  | .itof dbl uns long rm d a => s.frontFloat fe len w rm fun m f =>
      let v : Int := if long then (if uns then ((f.reg a).toNat : Int) else (f.reg a).toInt)
        else if uns then (((f.reg a).setWidth 32).toNat : Int) else ((f.reg a).setWidth 32).toInt
      f.fresult dbl d ((BinFmt.of dbl).round m (.ofInt v))
  | .fcvt toDbl rm d a => s.frontFloat fe len w rm fun m f =>
      let from_ := BinFmt.of (!toDbl)
      let r := (BinFmt.of toDbl).round m (from_.value (f.freg (!toDbl) a))
      f.fresult toDbl d (r.1, r.2 ||| from_.snan [f.freg (!toDbl) a])
  | .fmvx dbl d a => plain fun f =>
      f.setReg d (if dbl then f.f.get 0 a else ((f.f.get 0 a).setWidth 32).signExtend 64)
  | .fmvf dbl d a => plain fun f => f.setFreg dbl d ((f.reg a).toNat % (if dbl then 2 ^ 64 else 2 ^ 32))
  | _ => s.frontDone fe len id

/-- An instruction of `len` bytes, whose bits are `w`. -/
def State.rvExec (s : State) (fe len w : Nat) (i : Rv) : State :=
  match i with
  | .ecall | .ebreak | .mret | .sret | .wfi | .sfence => s.rvSys fe len w i
  | .fload _ _ _ _ | .fstore _ _ _ _ | .fma _ _ _ _ _ _ _ _ | .fop _ _ _ _ _ _ | .fsqrt _ _ _ _ | .fsgn _ _ _ _ _
  | .fminmax _ _ _ _ _ | .fcmp _ _ _ _ _ | .fclass _ _ _ | .ftoi _ _ _ _ _ _ | .itof _ _ _ _ _ _ | .fcvt _ _ _ _
  | .fmvx _ _ _ | .fmvf _ _ _ => s.rvFlt fe len w i
  | _ => s.rvInt fe len w i

/-! ### Fetching -/

/-- Two bytes of an instruction at a virtual address, or the exception with the physical address it meets. -/
def State.frontParcel (s : State) (fe : Nat) (va : DWord) : Except (Nat × Nat) Nat :=
  match s.frontPlace fe va .fetch with
  | .error c => .error (c, 0)
  | .ok pa => if s.frontOk fe pa 2 then .ok (s.frontRead pa 2) else .error (1, pa)

/-- What stands at a pc: the word and its length in bytes, or the exception and the addresses that it meets. -/
def State.frontFetch (s : State) (fe : Nat) : Except (Nat × Nat × DWord) (Nat × Nat) :=
  let pc := (s.front fe).pc
  match s.frontParcel fe pc with
  | .error (c, pa) => .error (c, pa, pc)
  | .ok h =>
    if h % 4 ≠ 3 then .ok (h, 2)
    else
      match s.frontParcel fe (pc + 2) with
      | .error (c, pa) => .error (c, pa, pc + 2)
      | .ok h' => .ok (h + h' * 65536, 4)

end Sys2Proof.Machine
end

