-- ==== Sys2Proof/Machine/FrontEnd.lean ====
section
/-! DEFINITION. The front end (R413 to R418): the custom-0 extension, a core's turn, and the packets of the rings. An
event names its front-end core, or the state's `site` does. The addresses that a packet holds, and a ring's, are physical
(R71). -/

namespace Sys2Proof

/-- The rows of the opcode table that are events: neither a slot's instruction, nor one that a slot's decodes
to, nor the front end's. -/
def Instr.isEvent : Instr → Bool
  | .pfdoneReplay _ | .pfdoneAbort _ | .mapidWrite _ | .dtdataWrite _ | .illegalOpcode _ => false
  | i => !i.isSlot && !i.isFront

end Sys2Proof

namespace Sys2Proof.Machine

open Sys2Proof

/-! ### The custom-0 extension (R414, R415) -/

/-- Writes the destination and goes on to the next instruction. -/
def State.frontNext (s : State) (fe d : Nat) (v : DWord) : State := s.frontDone fe 4 fun f => f.setReg d v

/-- A ring descriptor's answer to a fetch (R415): `none` for RING_FAULT, else the packet's address (0 for an
empty ring) and the new HEAD. -/
def ringFetch (base log2n res head tail rest : Nat) : Option (Nat × Nat) :=
  let n := 2 ^ log2n
  if res ≠ 0 ∨ rest ≠ 0 ∨ log2n = 0 ∨ 16 < log2n ∨ n < (tail + 2 ^ 64 - head) % 2 ^ 64 then none
  else if head = tail then some (0, head)
  else some ((base + 64 * (head % n)) % 2 ^ 64, (head + 1) % 2 ^ 64)

/-- Changes what the front end has in hand of a ring. -/
def State.modRing (s : State) (k : Nat) (f : Ring → Ring) : State := s.setRing k (f (s.ring k))

/-- RFET on a descriptor's address: the packet that it hands out is in the core's hand. It reads the descriptor, and where it
hands a packet out it stores HEAD: its faults are those of a load and of that store (R414). -/
def State.rfet (s : State) (fe d : Nat) (va : DWord) : State :=
  s.frontLoad fe va 64 fun pa _ =>
    let rd := fun (o n : Nat) => s.frontRead (pa + o) n
    match ringFetch (rd 0 8) (rd 8 4) (rd 0xC 4) (rd 0x10 8) (rd 0x18 8) (rd 0x20 32) with
    | none => s.frontTrap fe 24 va
    | some (p, head) =>
      if head = rd 0x10 8 then s.frontNext fe d (BitVec.ofNat 64 p)
      else s.frontStore fe (va + 0x10) 8 false fun at_ =>
        ((s.frontWrite at_ (bytesOf 8 head)).modRing pa fun r =>
          { r with fetched := r.fetched ++ [(fe, p)] }).frontNext fe d (BitVec.ofNat 64 p)

/-- RFET (R414, R415). -/
def execRfet (d a : Nat) (s : State) : Host.Outcome State Fault Refusal :=
  .next (s.rfet s.site d ((s.front s.site).reg a))

/-- XBFX's field: `none` for FIELD_FAULT. -/
def bitField (x y : DWord) : Option DWord :=
  let pos := y.toNat % 64
  let len := y.toNat / 64 % 64
  if 64 < pos + len then none else some (BitVec.ofNat 64 (x.toNat / 2 ^ pos % 2 ^ len))

/-- XBFX (R414). -/
def execXbfx (d a b : Nat) (s : State) : Host.Outcome State Fault Refusal :=
  let f := s.front s.site
  .next (match bitField (f.reg a) (f.reg b) with
    | none => s.frontTrap s.site 25 (f.reg b)
    | some v => s.frontNext s.site d v)

/-- SWAIT: the signal's value now, or the core waits. -/
def State.swait_ (s : State) (fe d : Nat) (va least : DWord) : State :=
  if va.toNat % 8 ≠ 0 then s.frontTrap fe 26 va
  else
    s.frontLoad fe va 8 fun _ v =>
      if least.toNat ≤ v then s.frontNext fe d (BitVec.ofNat 64 v)
      else s.setFront fe { s.front fe with swait := some (d, va.toNat, least) }

/-- SWAIT (R414). -/
def execSwait (d a b : Nat) (s : State) : Host.Outcome State Fault Refusal :=
  let f := s.front s.site
  .next (s.swait_ s.site d (f.reg a) (f.reg b))

/-- SWAIT_WAKE: the waiting core looks again (R414). -/
def execSwaitWake (s : State) : Host.Outcome State Fault Refusal :=
  .next (match (s.front s.site).swait with
    | none => s
    | some (d, va, least) =>
      (s.setFront s.site { s.front s.site with swait := none }).swait_ s.site d (BitVec.ofNat 64 va) least)

/-- Whether an address is device memory aligned to 64. -/
def isRecord (pa : Nat) : Bool := inHbm pa 256 && decide (pa % 64 = 0)

/-- The lowest context of a function; a number that no context has yet where the function has none. -/
def State.ctxOfFn (s : State) (fn : Nat) : Nat :=
  ((List.range s.ctxNext).find? fun c => (s.ctx c).live && (s.ctx c).vdid == fn).getD s.ctxNext

/-- The function that submits what a front-end core takes from a ring: the one in whose window the ring's descriptor
stands; for other work the lowest function of the core's partition that has a context (R423; DESIGN CHOICE, log entry
121). -/
def State.submitter (s : State) (fe : Nat) (ring : Option Nat) : Nat :=
  match ring.filter fun k => decide (paKind k = 3) with
  | some k => (windowAt k).1
  | none =>
    ((List.range 65).find? fun fn => decide ((s.fn fn).part = (s.front fe).part) &&
      decide (s.ctxOfFn fn < s.ctxNext)).getD 0

/-- A record that a front-end core submits. -/
def State.frontRecord (s : State) (fe : Nat) (ring : Option Nat) (bytes : List Byte) (by_ : Submitter) : Submission :=
  let fn := s.submitter fe ring
  { bytes := bytes, part := (s.front fe).part, vdid := fn, ctx := s.ctxOfFn fn, release := (s.time 0).toNat, by_ := by_ }

/-- The places of a record's four pieces of 64 bytes, or the exception. -/
def State.recordPlaces (s : State) (fe : Nat) (va : DWord) : List Nat → Except Nat (List Nat)
  | [] => .ok []
  | j :: r =>
    match s.frontPlace fe (va + BitVec.ofNat 64 (64 * j)) .load, State.recordPlaces s fe va r with
    | .error c, _ => .error c
    | _, .error c => .error c
    | .ok pa, .ok ps => .ok (pa :: ps)

/-- XDISP: the record goes to admission; the core goes on when the status word comes. -/
def State.xdisp_ (s : State) (fe d : Nat) (va : DWord) : State :=
  match s.recordPlaces fe va (List.range 4) with
  | .error c => s.frontTrap fe c va
  | .ok ps =>
    if !decide (va.toNat % 64 = 0) || !(ps.all fun pa => inHbm pa 64) then s.frontTrap fe 27 va
    else if ps.any s.frontWaits then s
    else
      match ps.find? fun pa => !s.frontOk fe pa 64 with
      | some pa => s.frontFault fe pa 64 5 va
      | none =>
        let ring := (s.front fe).prologue.map (·.ring)
        let x := s.frontRecord fe ring (ps.flatMap fun pa => Memory.bytes s.mem pa 64) (.front fe d ring)
        { s with submissions := s.submissions ++ [x] }.setFront fe { s.front fe with xdisp := true }

/-- XDISP (R336, R350, R414). -/
def execXdisp (d a : Nat) (s : State) : Host.Outcome State Fault Refusal :=
  .next (s.xdisp_ s.site d ((s.front s.site).reg a))

/-! ### A front-end core's turn -/

/-- What a front-end core does in its turn. -/
inductive FrontTurn where
  | done (s : State)
  | exec (i : Instr) (s : State)
  deriving Repr

/-- A word of `len` bytes that stands at the pc: the extension's, or one of RV64GC, or an illegal instruction. -/
def State.frontWord (s : State) (fe len w : Nat) : FrontTurn :=
  let ext := if len = 4 then decodeFront w else none
  match ext with
  | some i => .exec i { s with site := fe }
  | none =>
    match if len = 4 then decodeRv w else decodeC w with
    | some i => .done (s.rvExec fe len w i)
    | none => .done (s.frontTrap fe 2 (BitVec.ofNat 64 w))

/-- Whether a core does nothing in its turn: the device is not up, an XDISP waits, or a prologue has returned to the ring
loop (R418). -/
def State.frontStill (s : State) (fe : Nat) : Bool :=
  let f := s.front fe
  !s.up || f.xdisp || f.prologue.any fun p => decide (p.back = f.pc)

/-- A front-end core's turn (R413, R414): an interrupt, which a SWAIT or a WFI does not keep off, else the instruction at
the pc. -/
def State.frontTurn (s : State) (fe : Nat) : FrontTurn :=
  let f := s.front fe
  if s.frontStill fe then .done s
  else
    match f.interrupt with
    | some n => .done (s.setFront fe (f.trap n true 0))
    | none =>
      if f.wfi then .done (if f.csrs.mip &&& f.csrs.mie = 0 then s else s.setFront fe { f with wfi := false })
      else if f.swait.isSome then .done s
      else
        match s.frontFetch fe with
        | .ok (w, len) => s.frontWord fe len w
        | .error (c, pa, va) => .done (if c = 1 then s.frontFault fe pa 2 1 va else s.frontTrap fe c va)

/-! ### Packets (R416) -/

/-- A packet's fields. -/
structure Packet where
  type : Nat
  a : Nat
  b : Nat
  c : Nat
  zero : Bool                             -- its zero bytes are zero
  deriving DecidableEq, Repr

/-- Reads a packet. -/
def State.packet (s : State) (addr : Nat) : Packet :=
  let bs := Memory.bytes s.mem addr 64
  { type := fieldAt bs 0 1, a := fieldAt bs 8 8, b := fieldAt bs 0x10 8, c := fieldAt bs 0x18 8
    zero := decide (fieldAt bs 1 7 = 0) && decide (fieldAt bs 0x20 24 = 0) }

/-- Whether a packet's type is none of the six. -/
def Packet.unknown (p : Packet) : Bool := decide (p.type = 0) || decide (6 < p.type)

/-- Whether a packet is malformed in itself. -/
def Packet.malformed (p : Packet) : Bool := !p.zero || p.unknown

/-- Whether a submission is a ring's. -/
def Submitter.isOf (b : Submitter) (k : Nat) : Bool :=
  match b with
  | .packet n _ => n == k
  | .front _ _ n => n == some k
  | .left n => n == some k
  | .group _ _ _ => false

/-- Whether the front end can take a ring's next packet: nothing holds it, no prologue of it runs, and its
earlier launches have been decided. -/
def State.ringFree (s : State) (k : Nat) : Bool :=
  s.up && (s.ring k).hold.isNone && !(s.submissions.any fun x => x.by_.isOf k) &&
    !((List.range 8).any fun fe => (s.front fe).prologue.any fun p => p.ring == k)

/-- The ring whose next packet is the one at an address, in a front-end core's hand. -/
def State.ringAt (s : State) (fe addr : Nat) : Option Nat :=
  (s.rings.map (·.1)).find? fun k => decide ((s.ring k).fetched.head? = some (fe, addr)) && s.ringFree k

/-- Whether the packet at an address is one for the event of a type, and no held access is due before it. -/
def State.takes (s : State) (addr type : Nat) : Bool :=
  ((s.packet addr).unknown || decide ((s.packet addr).type = type)) && !s.frontWaits addr

/-- A packet that stands inside a batch: a LAUNCH becomes a member, of 255 at most; any other makes the batch
malformed (R417). -/
def Ring.intoBatch (r : Ring) (addr : Nat) (ok : Bool) : Ring :=
  match r.batch with
  | some (b, ms, bad) => { r with batch := some (b, ms ++ [addr], bad || !ok || decide (255 ≤ ms.length)) }
  | none => r

/-- A ring without the packet that stands first. -/
def State.popPacket (s : State) (k : Nat) : State := s.modRing k fun r => { r with fetched := r.fetched.drop 1 }

/-- Whether a packet's 64 bytes are memory that the core can read and write. -/
def State.packetOk (s : State) (fe addr : Nat) : Bool :=
  decide (addr % 64 = 0) && s.frontOk fe addr 64 && decide (paKind addr ≠ 3)

/-- Takes a ring's next packet: within a batch it joins it; a malformed one is answered with code 9; else `f` runs. One
that the core cannot read is passed over. -/
def State.takePacket (s : State) (fe addr type : Nat) (f : State → Nat → Packet → State) : State :=
  match s.ringAt fe addr with
  | none => s
  | some k =>
    let p := s.packet addr
    let t := s.popPacket k
    if !s.takes addr type then s
    else if !s.packetOk fe addr then t
    else if (s.ring k).batch.isSome then t.modRing k fun r => r.intoBatch addr (!p.malformed && decide (type = 1))
    else if p.malformed then t.packetStatus addr 9 0
    else f t k p

/-- The submission of a LAUNCH packet; `none` where its record is not device memory that the core may read. -/
def State.member (s : State) (fe k addr : Nat) : Option Submission :=
  let a := (s.packet addr).a
  if isRecord a && s.frontOk fe a 256 then
    some (s.frontRecord fe (some k) (Memory.bytes s.mem a 256) (.packet k addr))
  else none

/-- LAUNCH_PACKET (R416). -/
def execLaunchPacket (fe addr : Nat) (s : State) : Host.Outcome State Fault Refusal :=
  .next (s.takePacket fe addr 1 fun s k _ =>
    match s.member fe k addr with
    | some x => { s with submissions := s.submissions ++ [x] }
    | none => s.packetStatus addr 9 0)

/-- BEGIN_PACKET (R417). -/
def execBeginPacket (fe addr : Nat) (s : State) : Host.Outcome State Fault Refusal :=
  .next (s.takePacket fe addr 2 fun s k _ => s.modRing k fun r => { r with batch := some (addr, [], false) })

/-- WAIT_PACKET (R416). -/
def execWaitPacket (fe addr : Nat) (s : State) : Host.Outcome State Fault Refusal :=
  .next (s.takePacket fe addr 4 fun s k p =>
    if p.a % 8 ≠ 0 || !s.frontOk fe p.a 8 then s.packetStatus addr 9 0
    else if p.b ≤ s.frontRead p.a 8 ∧ s.frontWaits p.a = false then s
    else s.modRing k fun r => { r with hold := some (p.a, BitVec.ofNat 64 p.b) })

/-- The ring of the lowest address whose WAIT's signal has come. -/
def State.heldRing (s : State) : Option Nat :=
  (s.rings.map (·.1)).find? fun k => (s.ring k).hold.any fun h =>
    decide (h.2.toNat ≤ s.frontRead h.1 8) && !s.frontWaits h.1

/-- WAIT_PACKET_RELEASE (R416). -/
def execWaitPacketRelease (s : State) : Host.Outcome State Fault Refusal :=
  .next (match s.heldRing with
    | some k => s.modRing k fun r => { r with hold := none }
    | none => s)

/-- SIGNAL_PACKET: stored at once where the ring's earlier launches have ended, else when the last of them
ends (R346, R416). -/
def execSignalPacket (fe addr : Nat) (s : State) : Host.Outcome State Fault Refusal :=
  .next (s.takePacket fe addr 5 fun s k p =>
    if p.a % 8 ≠ 0 || !s.frontMay fe p.a 8 || decide (paKind p.a = 3) then s.packetStatus addr 9 0
    else (s.modRing k fun r =>
      { r with signals := r.signals ++ [(p.a, BitVec.ofNat 64 p.b, r.earlier)] }).ringSignals k)

/-! ### Batches (R417) -/

/-- Step 1: checks 1 to 4 of every member, the first failure with its member's index. -/
def State.validate (s : State) (fe k : Nat) : List Nat → Nat → Except (Nat × Nat) (List Submission)
  | [], _ => .ok []
  | addr :: r, i =>
    match s.member fe k addr with
    | none => .error (9, i)
    | some x =>
      match s.earlyChecks x with
      | .error c => .error (c.code, i)
      | .ok _ =>
        match State.validate s fe k r (i + 1) with
        | .error e => .error e
        | .ok xs => .ok (x :: xs)

/-- Step 2: every member is admitted, the earlier ones counted, or none is. -/
def State.admitBatch : State → List Submission → Nat → Except (Nat × Nat) (State × List Nat)
  | s, [], _ => .ok (s, [])
  | s, x :: r, i =>
    match s.tryAdmit [] x with
    | (_, .error c) => .error (c.code, i)
    | (t, .ok l) =>
      match State.admitBatch t r (i + 1) with
      | .error e => .error e
      | .ok (u, ls) => .ok (u, l :: ls)

/-- The batch's answer, in the STATUS of its BEGIN, and of its members where they are admitted. -/
def State.commitBatch (s : State) (fe k begin_ : Nat) (ms : List Nat) (bad : Bool) : State :=
  let s := s.modRing k fun r => { r with batch := none }
  if bad || ms.isEmpty then s.packetStatus begin_ 9 0
  else
    match s.validate fe k ms 0 with
    | .error (c, i) => s.packetStatus begin_ c i
    | .ok xs =>
      match s.admitBatch xs 0 with
      | .error (c, i) => s.packetStatus begin_ c i
      | .ok (t, ls) =>
        ls.foldl (fun t l => t.ringLaunch k l) ((begin_ :: ms).foldl (fun t a => t.packetStatus a 0 0) t)

/-- Takes a COMMIT, or a packet of no type: a COMMIT without a BEGIN is malformed. -/
def State.takeCommit (s : State) (fe addr : Nat) : State :=
  match s.ringAt fe addr with
  | none => s
  | some k =>
    let p := s.packet addr
    let t := s.popPacket k
    if !s.takes addr 3 then s
    else if !s.packetOk fe addr then t
    else
      match (s.ring k).batch with
      | none => t.packetStatus addr 9 0
      | some (b, ms, bad) =>
        if p.unknown then t.modRing k fun r => r.intoBatch addr false else t.commitBatch fe k b ms (bad || p.malformed)

/-- COMMIT_PACKET (R417). -/
def execCommitPacket (fe addr : Nat) (s : State) : Host.Outcome State Fault Refusal := .next (s.takeCommit fe addr)

/-! ### INDIRECT (R418) -/

/-- Calls the prologue: the template goes into the ring loop's buffer; a0, a1 and the return address are set. -/
def State.callPrologue (s : State) (fe : Nat) (x : Prologue) : State :=
  let p := s.packet x.packet
  let buf := (s.front fe).buffer
  if !inHbm buf 256 || !s.frontMay fe buf 256 then s.frontTrap fe 7 (BitVec.ofNat 64 buf)
  else
    let s := s.outerWrite buf (Memory.bytes s.mem p.b 256)
    let f := (((s.front fe).setReg 10 (BitVec.ofNat 64 buf)).setReg 11 (BitVec.ofNat 64 p.c)).setReg 1 x.back
    s.setFront fe { f with pc := BitVec.ofNat 64 p.a, prologue := some { x with since := s.ticks 0 } }

/-- INDIRECT_PACKET (R418). -/
def execIndirectPacket (fe addr : Nat) (s : State) : Host.Outcome State Fault Refusal :=
  .next (s.takePacket fe addr 6 fun s k p =>
    if isRecord p.b && s.frontOk fe p.b 256 then s.callPrologue fe ⟨k, addr, 1, 0, (s.front fe).pc⟩
    else s.packetStatus addr 9 0)

/-- A submission once the XDISP of a core waits for its answer no more: the launch stands (R418). -/
def Submission.leaveFront (x : Submission) (fe : Nat) : Submission :=
  match x.by_ with
  | .front n _ ring => if n = fe then { x with by_ := .left ring } else x
  | _ => x

/-- The end of a prologue: the ring loop goes on where it called. -/
def State.endPrologue (s : State) (fe : Nat) (back : DWord) : State :=
  { s with submissions := s.submissions.map fun (x : Submission) => x.leaveFront fe }.setFront fe { s.front fe with prologue := none, pc := back, swait := none, wfi := false, xdisp := false }

/-- PROLOGUE_RETURN: it has returned to the ring loop with the number of launches in a0; 0 cancels the packet, more than 1
repeats it, up to 64 calls (R418). -/
def State.prologueReturn (s : State) (fe n : Nat) : State :=
  let f := s.front fe
  match f.prologue with
  | some x =>
    if f.pc ≠ x.back ∨ f.reg 10 ≠ BitVec.ofNat 64 n ∨ f.xdisp = true ∨ f.swait.isSome = true then s
    else if 1 < n ∧ x.calls < 64 then s.callPrologue fe { x with calls := x.calls + 1 }
    else s.endPrologue fe x.back
  | none => s

/-- PROLOGUE_RETURN (R418). -/
def execPrologueReturn (fe n : Nat) (s : State) : Host.Outcome State Fault Refusal := .next (s.prologueReturn fe n)

/-- PROLOGUE_TIMEOUT on the core that the site names: 20 µs after its call a prologue is abandoned (R418). -/
def execPrologueTimeout (s : State) : Host.Outcome State Fault Refusal :=
  .next (match (s.front s.site).prologue with
    | some x =>
      if x.since + 80000 ≤ s.ticks 0 then (s.endPrologue s.site x.back).packetStatus x.packet 9 0 else s
    | none => s)

/-! ### Placing a program -/

/-- Bytes stored at an address, on lines that hold no error and have no replica. -/
def State.placeBytes (s : State) (pa : Nat) (bytes : List Byte) : State :=
  { s with
    mem := Memory.put s.mem pa bytes
    failedLines := s.failedLines.filter fun l => !(linesOf pa bytes.length).contains l
    badLines := s.badLines.filter fun l => !(linesOf pa bytes.length).contains l
    replicas := s.replicas.filter fun r => !(linesOf pa bytes.length).contains r.line }

/-- The tables of the placed program's context: virtual addresses below 1 GiB are the physical ones, to read,
write and fetch (R75 to R77). -/
def placedTables (s : State) : State :=
  ((s.placeBytes 0x40000000 (bytesOf 8 0x40001003)).placeBytes 0x40001000 (bytesOf 8 0x40002003)).placeBytes
    0x40002000 (bytesOf 8 0x1D)

/-- The record of the placed program's launch. -/
def placedRec : Rec :=
  { Rec.empty with
    cls := .hard, regs := 256, accum := 8, scratch := 4194304, budget := 1024, macros := 32, gpt := 1, tps := 1
    spans := 1 }

/-- One group on core 0 at the bundle of address 0, in a service context, next to issue. -/
def State.placeGroup (s : State) : State :=
  let l : Launch := { Launch.absent with desc := placedRec, clusters := 1, place := [(0, 0)], spanSt := [(0, 1)], ended := false }
  let c : Context := { Context.absent with live := true, xlroot1 := 0x40000000, lock := true }
  let s := (((s.setLaunch 0 l).setCtx 0 c).setTeam 0 { Team.absent with live := true }).setGroup 0 (Group.initial 0 .live)
  { s with
    conn := s.conn.set 0 0xFFFF, cache := [], oracle := [], power := .running, resetHold := false
    launchNext := max 1 s.launchNext, ctxNext := max 1 s.ctxNext
    cores := s.cores.set 0 { Core.initial with last := some 0 }, calendars := s.calendars.set 0 Calendar.initial
    turn := .core 0 }

/-- A front-end core at the word of address 0. -/
def State.placeFront (s : State) : State :=
  { s with
    boot := .booted, conn := s.conn.set 8 0xFFFF, turn := .front 0
    fronts := s.fronts.set 0 { s.front 0 with
      pc := 0, swait := none, wfi := false, xdisp := false, prologue := none
      csrs := { (s.front 0).csrs with mie := 0, satp := 0 } } }

/-- The header of the bundle that holds a placed slot: CH01 where the instruction takes a literal (R39, R53). -/
def placedHeader : Option Instr → Nat
  | some (.limm _ _) => 0x20
  | _ => 0

end Sys2Proof.Machine
end

