-- ==== Sys2Proof/Machine/Dispatch.lean ====
section
/-! DEFINITION. One arm for every constructor of Instr: each names the one meaning of its instruction or event. -/

namespace Sys2Proof.Machine

open Sys2Proof

/-- The meaning of an instruction or event. -/
def exec (i : Instr) (s : State) : Host.Outcome State Fault Refusal :=
  match i with
  | .powerOnBoot x1 x2 => Sys2Proof.Machine.execPowerOnBoot x1 x2 s
  | .negotiateAlgorithms x1 x2 => Sys2Proof.Machine.execNegotiateAlgorithms x1 x2 s
  | .getCertificate x1 => Sys2Proof.Machine.execGetCertificate x1 s
  | .challenge x1 => Sys2Proof.Machine.execChallenge x1 s
  | .setepoch x1 x2 => Sys2Proof.Machine.execSetepoch x1 x2 s
  | .timepost x1 x2 x3 => Sys2Proof.Machine.execTimepost x1 x2 x3 s
  | .partcreate x1 x2 => Sys2Proof.Machine.execPartcreate x1 x2 s
  | .partdestroy x1 x2 => Sys2Proof.Machine.execPartdestroy x1 x2 s
  | .calwrite x1 x2 x3 => Sys2Proof.Machine.execCalwrite x1 x2 x3 s
  | .connwrite x1 x2 x3 => Sys2Proof.Machine.execConnwrite x1 x2 x3 s
  | .ctxkill x1 x2 => Sys2Proof.Machine.execCtxkill x1 x2 s
  | .ctxleave x1 x2 => Sys2Proof.Machine.execCtxleave x1 x2 s
  | .ctxresume x1 x2 => Sys2Proof.Machine.execCtxresume x1 x2 s
  | .ctxcreate x1 x2 => Sys2Proof.Machine.execCtxcreate x1 x2 s
  | .vdsetup x1 x2 => Sys2Proof.Machine.execVdsetup x1 x2 s
  | .pagereq x1 x2 x3 => Sys2Proof.Machine.execPagereq x1 x2 x3 s
  | .powerStateChange x1 => Sys2Proof.Machine.execPowerStateChange x1 s
  | .invStageWrite x1 x2 x3 => Sys2Proof.Machine.execInvStageWrite x1 x2 x3 s
  | .invAllVdid x1 x2 => Sys2Proof.Machine.execInvAllVdid x1 x2 s
  | .invStage1Range x1 x2 x3 x4 => Sys2Proof.Machine.execInvStage1Range x1 x2 x3 x4 s
  | .invStage2Range x1 x2 x3 x4 => Sys2Proof.Machine.execInvStage2Range x1 x2 x3 x4 s
  | .invEveryVdid x1 => Sys2Proof.Machine.execInvEveryVdid x1 s
  | .invalComplete x1 => Sys2Proof.Machine.execInvalComplete x1 s
  | .stage2Retry x1 => Sys2Proof.Machine.execStage2Retry x1 s
  | .stage2Fatal x1 => Sys2Proof.Machine.execStage2Fatal x1 s
  | .ringDoorbell x1 x2 x3 => Sys2Proof.Machine.execRingDoorbell x1 x2 x3 s
  | .hostAccess x1 => Sys2Proof.Machine.execHostAccess x1 s
  | .peerAccess x1 => Sys2Proof.Machine.execPeerAccess x1 s
  | .timeSyncExchange x1 x2 x3 => Sys2Proof.Machine.execTimeSyncExchange x1 x2 x3 s
  | .brynrikLinkDown x1 => Sys2Proof.Machine.execBrynrikLinkDown x1 s
  | .peerAccessAbort x1 x2 => Sys2Proof.Machine.execPeerAccessAbort x1 x2 s
  | .throttle x1 x2 => Sys2Proof.Machine.execThrottle x1 x2 s
  | .throttleEnd x1 => Sys2Proof.Machine.execThrottleEnd x1 s
  | .patrolScrubError x1 => Sys2Proof.Machine.execPatrolScrubError x1 s
  | .fabricParityError x1 x2 => Sys2Proof.Machine.execFabricParityError x1 x2 s
  | .admissionDecision x1 => Sys2Proof.Machine.execAdmissionDecision x1 s
  | .spanStart x1 x2 => Sys2Proof.Machine.execSpanStart x1 x2 s
  | .teamEnd x1 => Sys2Proof.Machine.execTeamEnd x1 s
  | .launchEnd x1 => Sys2Proof.Machine.execLaunchEnd x1 s
  | .calendarSwitch x1 => Sys2Proof.Machine.execCalendarSwitch x1 s
  | .castlingSwap x1 x2 => Sys2Proof.Machine.execCastlingSwap x1 x2 s
  | .fumaroleLoad x1 x2 => Sys2Proof.Machine.execFumaroleLoad x1 x2 s
  | .leaveForcedHalt x1 => Sys2Proof.Machine.execLeaveForcedHalt x1 s
  | .leaveKill x1 => Sys2Proof.Machine.execLeaveKill x1 s
  | .deadlineReached x1 => Sys2Proof.Machine.execDeadlineReached x1 s
  | .cutTimeReached x1 => Sys2Proof.Machine.execCutTimeReached x1 s
  | .energyUpdate x1 x2 => Sys2Proof.Machine.execEnergyUpdate x1 x2 s
  | .cutRecordUpdate x1 => Sys2Proof.Machine.execCutRecordUpdate x1 s
  | .passCommit x1 x2 => Sys2Proof.Machine.execPassCommit x1 x2 s
  | .vbeginRetry x1 x2 => Sys2Proof.Machine.execVbeginRetry x1 x2 s
  | .vwaitWake x1 x2 => Sys2Proof.Machine.execVwaitWake x1 x2 s
  | .faultHandlerLaunch x1 x2 => Sys2Proof.Machine.execFaultHandlerLaunch x1 x2 s
  | .logReplay x1 x2 => Sys2Proof.Machine.execLogReplay x1 x2 s
  | .trapDelivery x1 x2 => Sys2Proof.Machine.execTrapDelivery x1 x2 s
  | .lateCauseDelivery x1 x2 => Sys2Proof.Machine.execLateCauseDelivery x1 x2 s
  | .illegalOpcode x1 => Sys2Proof.Machine.execIllegalOpcode x1 s
  | .heldArrival x1 x2 => Sys2Proof.Machine.execHeldArrival x1 x2 s
  | .holdRelease x1 => Sys2Proof.Machine.execHoldRelease x1 s
  | .loadReturn x1 x2 x3 => Sys2Proof.Machine.execLoadReturn x1 x2 x3 s
  | .replicaUpdate x1 x2 => Sys2Proof.Machine.execReplicaUpdate x1 x2 s
  | .regionWriteback x1 x2 x3 => Sys2Proof.Machine.execRegionWriteback x1 x2 x3 s
  | .copyComplete x1 x2 x3 => Sys2Proof.Machine.execCopyComplete x1 x2 x3 s
  | .cwaitWake x1 x2 => Sys2Proof.Machine.execCwaitWake x1 x2 s
  | .barwWake x1 x2 => Sys2Proof.Machine.execBarwWake x1 x2 s
  | .tsyncWake x1 x2 => Sys2Proof.Machine.execTsyncWake x1 x2 s
  | .joinWake x1 x2 => Sys2Proof.Machine.execJoinWake x1 x2 s
  | .twaitExpiry x1 x2 => Sys2Proof.Machine.execTwaitExpiry x1 x2 s
  | .exitComplete x1 x2 => Sys2Proof.Machine.execExitComplete x1 x2 s
  | .slowPathCommit x1 x2 => Sys2Proof.Machine.execSlowPathCommit x1 x2 s
  | .sliceStep x1 => Sys2Proof.Machine.execSliceStep x1 s
  | .launchPacket x1 x2 => Sys2Proof.Machine.execLaunchPacket x1 x2 s
  | .beginPacket x1 x2 => Sys2Proof.Machine.execBeginPacket x1 x2 s
  | .commitPacket x1 x2 => Sys2Proof.Machine.execCommitPacket x1 x2 s
  | .waitPacket x1 x2 => Sys2Proof.Machine.execWaitPacket x1 x2 s
  | .signalPacket x1 x2 => Sys2Proof.Machine.execSignalPacket x1 x2 s
  | .indirectPacket x1 x2 => Sys2Proof.Machine.execIndirectPacket x1 x2 s
  | .rfet x1 x2 => Sys2Proof.Machine.execRfet x1 x2 s
  | .xbfx x1 x2 x3 => Sys2Proof.Machine.execXbfx x1 x2 x3 s
  | .swait x1 x2 x3 => Sys2Proof.Machine.execSwait x1 x2 x3 s
  | .xdisp x1 x2 => Sys2Proof.Machine.execXdisp x1 x2 s
  | .bra x1 => Sys2Proof.Machine.execBra x1 s
  | .bnz x1 x2 => Sys2Proof.Machine.execBnz x1 x2 s
  | .bz x1 x2 => Sys2Proof.Machine.execBz x1 x2 s
  | .bdv x1 => Sys2Proof.Machine.execBdv x1 s
  | .jpt x1 x2 => Sys2Proof.Machine.execJpt x1 x2 s
  | .bix x1 => Sys2Proof.Machine.execBix x1 s
  | .call x1 => Sys2Proof.Machine.execCall x1 s
  | .trap x1 => Sys2Proof.Machine.execTrap x1 s
  | .tret x1 => Sys2Proof.Machine.execTret x1 s
  | .srd x1 x2 => Sys2Proof.Machine.execSrd x1 x2 s
  | .swr x1 x2 => Sys2Proof.Machine.execSwr x1 x2 s
  | .pfdoneReplay x1 => Sys2Proof.Machine.execPfdoneReplay x1 s
  | .pfdoneAbort x1 => Sys2Proof.Machine.execPfdoneAbort x1 s
  | .mapidWrite x1 => Sys2Proof.Machine.execMapidWrite x1 s
  | .dtdataWrite x1 => Sys2Proof.Machine.execDtdataWrite x1 s
  | .bkpt x1 => Sys2Proof.Machine.execBkpt x1 s
  | .fltrd x1 x2 => Sys2Proof.Machine.execFltrd x1 x2 s
  | .iadd x1 x2 x3 => Sys2Proof.Machine.execIadd x1 x2 x3 s
  | .isub x1 x2 x3 => Sys2Proof.Machine.execIsub x1 x2 x3 s
  | .iadds x1 x2 x3 x4 => Sys2Proof.Machine.execIadds x1 x2 x3 x4 s
  | .isubs x1 x2 x3 x4 => Sys2Proof.Machine.execIsubs x1 x2 x3 x4 s
  | .imul x1 x2 x3 => Sys2Proof.Machine.execImul x1 x2 x3 s
  | .imulh x1 x2 x3 x4 => Sys2Proof.Machine.execImulh x1 x2 x3 x4 s
  | .imad x1 x2 x3 x4 => Sys2Proof.Machine.execImad x1 x2 x3 x4 s
  | .imin x1 x2 x3 x4 => Sys2Proof.Machine.execImin x1 x2 x3 x4 s
  | .imax x1 x2 x3 x4 => Sys2Proof.Machine.execImax x1 x2 x3 x4 s
  | .iabs x1 x2 => Sys2Proof.Machine.execIabs x1 x2 s
  | .ineg x1 x2 => Sys2Proof.Machine.execIneg x1 x2 s
  | .idot4 x1 x2 x3 x4 x5 => Sys2Proof.Machine.execIdot4 x1 x2 x3 x4 x5 s
  | .and x1 x2 x3 => Sys2Proof.Machine.execAnd x1 x2 x3 s
  | .or x1 x2 x3 => Sys2Proof.Machine.execOr x1 x2 x3 s
  | .xor x1 x2 x3 => Sys2Proof.Machine.execXor x1 x2 x3 s
  | .andn x1 x2 x3 => Sys2Proof.Machine.execAndn x1 x2 x3 s
  | .shl x1 x2 x3 => Sys2Proof.Machine.execShl x1 x2 x3 s
  | .shr x1 x2 x3 => Sys2Proof.Machine.execShr x1 x2 x3 s
  | .sar x1 x2 x3 => Sys2Proof.Machine.execSar x1 x2 x3 s
  | .rotl x1 x2 x3 => Sys2Proof.Machine.execRotl x1 x2 x3 s
  | .bfe x1 x2 x3 x4 x5 => Sys2Proof.Machine.execBfe x1 x2 x3 x4 x5 s
  | .bfi x1 x2 x3 x4 => Sys2Proof.Machine.execBfi x1 x2 x3 x4 s
  | .popc x1 x2 => Sys2Proof.Machine.execPopc x1 x2 s
  | .clz x1 x2 => Sys2Proof.Machine.execClz x1 x2 s
  | .brev x1 x2 => Sys2Proof.Machine.execBrev x1 x2 s
  | .icmp x1 x2 x3 x4 => Sys2Proof.Machine.execIcmp x1 x2 x3 x4 s
  | .sel x1 x2 x3 x4 => Sys2Proof.Machine.execSel x1 x2 x3 x4 s
  | .mov x1 x2 => Sys2Proof.Machine.execMov x1 x2 s
  | .movi x1 x2 => Sys2Proof.Machine.execMovi x1 x2 s
  | .limm x1 x2 => Sys2Proof.Machine.execLimm x1 x2 s
  | .fadd x1 x2 x3 x4 x5 => Sys2Proof.Machine.execFadd x1 x2 x3 x4 x5 s
  | .fsub x1 x2 x3 x4 x5 => Sys2Proof.Machine.execFsub x1 x2 x3 x4 x5 s
  | .fmul x1 x2 x3 x4 x5 => Sys2Proof.Machine.execFmul x1 x2 x3 x4 x5 s
  | .ffma x1 x2 x3 x4 x5 => Sys2Proof.Machine.execFfma x1 x2 x3 x4 x5 s
  | .fmin x1 x2 x3 x4 => Sys2Proof.Machine.execFmin x1 x2 x3 x4 s
  | .fmax x1 x2 x3 x4 => Sys2Proof.Machine.execFmax x1 x2 x3 x4 s
  | .fcmp x1 x2 x3 x4 x5 => Sys2Proof.Machine.execFcmp x1 x2 x3 x4 x5 s
  | .fclass x1 x2 x3 => Sys2Proof.Machine.execFclass x1 x2 x3 s
  | .fround x1 x2 x3 x4 => Sys2Proof.Machine.execFround x1 x2 x3 x4 s
  | .fdiv x1 x2 x3 x4 x5 => Sys2Proof.Machine.execFdiv x1 x2 x3 x4 x5 s
  | .fsqrt x1 x2 x3 x4 => Sys2Proof.Machine.execFsqrt x1 x2 x3 x4 s
  | .frcp x1 x2 x3 x4 => Sys2Proof.Machine.execFrcp x1 x2 x3 x4 s
  | .frsq x1 x2 x3 x4 => Sys2Proof.Machine.execFrsq x1 x2 x3 x4 s
  | .fexp x1 x2 x3 x4 => Sys2Proof.Machine.execFexp x1 x2 x3 x4 s
  | .fexp2 x1 x2 x3 x4 => Sys2Proof.Machine.execFexp2 x1 x2 x3 x4 s
  | .flog x1 x2 x3 x4 => Sys2Proof.Machine.execFlog x1 x2 x3 x4 s
  | .flog2 x1 x2 x3 x4 => Sys2Proof.Machine.execFlog2 x1 x2 x3 x4 s
  | .fsin x1 x2 x3 x4 => Sys2Proof.Machine.execFsin x1 x2 x3 x4 s
  | .fcos x1 x2 x3 x4 => Sys2Proof.Machine.execFcos x1 x2 x3 x4 s
  | .ftanh x1 x2 x3 x4 => Sys2Proof.Machine.execFtanh x1 x2 x3 x4 s
  | .twosum x1 x2 x3 => Sys2Proof.Machine.execTwosum x1 x2 x3 s
  | .twoprod x1 x2 x3 => Sys2Proof.Machine.execTwoprod x1 x2 x3 s
  | .padd x1 x2 x3 => Sys2Proof.Machine.execPadd x1 x2 x3 s
  | .pnorm x1 x2 => Sys2Proof.Machine.execPnorm x1 x2 s
  | .cvtTo x1 x2 x3 x4 => Sys2Proof.Machine.execCvtTo x1 x2 x3 x4 s
  | .cvtFrom x1 x2 x3 x4 => Sys2Proof.Machine.execCvtFrom x1 x2 x3 x4 s
  | .qnt x1 x2 x3 x4 x5 => Sys2Proof.Machine.execQnt x1 x2 x3 x4 x5 s
  | .dqnt x1 x2 x3 x4 x5 => Sys2Proof.Machine.execDqnt x1 x2 x3 x4 x5 s
  | .pack x1 x2 x3 x4 x5 => Sys2Proof.Machine.execPack x1 x2 x3 x4 x5 s
  | .unpk x1 x2 x3 x4 => Sys2Proof.Machine.execUnpk x1 x2 x3 x4 s
  | .rnse x1 x2 => Sys2Proof.Machine.execRnse x1 x2 s
  | .rnsd x1 x2 => Sys2Proof.Machine.execRnsd x1 x2 s
  | .acvt x1 x2 x3 => Sys2Proof.Machine.execAcvt x1 x2 x3 s
  | .perm x1 x2 x3 x4 x5 => Sys2Proof.Machine.execPerm x1 x2 x3 x4 x5 s
  | .shfl x1 x2 x3 x4 x5 => Sys2Proof.Machine.execShfl x1 x2 x3 x4 x5 s
  | .bcast x1 x2 x3 => Sys2Proof.Machine.execBcast x1 x2 x3 s
  | .vote x1 x2 x3 => Sys2Proof.Machine.execVote x1 x2 x3 s
  | .lred x1 x2 x3 x4 => Sys2Proof.Machine.execLred x1 x2 x3 x4 s
  | .lscan x1 x2 x3 x4 => Sys2Proof.Machine.execLscan x1 x2 x3 x4 s
  | .shape x1 x2 => Sys2Proof.Machine.execShape x1 x2 s
  | .mkaff x1 x2 x3 => Sys2Proof.Machine.execMkaff x1 x2 x3 s
  | .mkuni x1 x2 x3 => Sys2Proof.Machine.execMkuni x1 x2 x3 s
  | .free x1 x2 => Sys2Proof.Machine.execFree x1 x2 s
  | .regq x1 x2 x3 => Sys2Proof.Machine.execRegq x1 x2 x3 s
  | .sfmt x1 x2 => Sys2Proof.Machine.execSfmt x1 x2 s
  | .gfmt x1 => Sys2Proof.Machine.execGfmt x1 s
  | .srnd x1 x2 => Sys2Proof.Machine.execSrnd x1 x2 s
  | .grnd x1 => Sys2Proof.Machine.execGrnd x1 s
  | .flags x1 => Sys2Proof.Machine.execFlags x1 s
  | .flagsClr x1 x2 => Sys2Proof.Machine.execFlagsClr x1 x2 s
  | .ld x1 x2 x3 x4 => Sys2Proof.Machine.execLd x1 x2 x3 x4 s
  | .st x1 x2 x3 x4 => Sys2Proof.Machine.execSt x1 x2 x3 x4 s
  | .lds x1 x2 x3 x4 => Sys2Proof.Machine.execLds x1 x2 x3 x4 s
  | .sts x1 x2 x3 x4 => Sys2Proof.Machine.execSts x1 x2 x3 x4 s
  | .ldc x1 x2 x3 x4 => Sys2Proof.Machine.execLdc x1 x2 x3 x4 s
  | .stc x1 x2 x3 x4 => Sys2Proof.Machine.execStc x1 x2 x3 x4 s
  | .ldUni x1 x2 x3 x4 x5 => Sys2Proof.Machine.execLdUni x1 x2 x3 x4 x5 s
  | .ldNb x1 x2 x3 x4 x5 x6 => Sys2Proof.Machine.execLdNb x1 x2 x3 x4 x5 x6 s
  | .stVa x1 x2 x3 x4 x5 x6 => Sys2Proof.Machine.execStVa x1 x2 x3 x4 x5 x6 s
  | .ldAcq x1 x2 x3 x4 x5 => Sys2Proof.Machine.execLdAcq x1 x2 x3 x4 x5 s
  | .stRel x1 x2 x3 x4 x5 => Sys2Proof.Machine.execStRel x1 x2 x3 x4 x5 s
  | .sptest x1 x2 => Sys2Proof.Machine.execSptest x1 x2 s
  | .spcast x1 x2 x3 x4 => Sys2Proof.Machine.execSpcast x1 x2 x3 x4 s
  | .pfet x1 x2 => Sys2Proof.Machine.execPfet x1 x2 s
  | .atom x1 x2 x3 x4 x5 => Sys2Proof.Machine.execAtom x1 x2 x3 x4 x5 s
  | .atoms x1 x2 x3 x4 x5 => Sys2Proof.Machine.execAtoms x1 x2 x3 x4 x5 s
  | .asum x1 x2 x3 => Sys2Proof.Machine.execAsum x1 x2 x3 s
  | .fence x1 x2 => Sys2Proof.Machine.execFence x1 x2 s
  | .rmap x1 x2 x3 x4 => Sys2Proof.Machine.execRmap x1 x2 x3 x4 s
  | .rflush x1 => Sys2Proof.Machine.execRflush x1 s
  | .rdrop x1 => Sys2Proof.Machine.execRdrop x1 s
  | .tnow x1 => Sys2Proof.Machine.execTnow x1 s
  | .twait x1 x2 => Sys2Proof.Machine.execTwait x1 x2 s
  | .cpy x1 => Sys2Proof.Machine.execCpy x1 s
  | .cpyFeed x1 x2 => Sys2Proof.Machine.execCpyFeed x1 x2 s
  | .cpyl x1 => Sys2Proof.Machine.execCpyl x1 s
  | .cbatch x1 => Sys2Proof.Machine.execCbatch x1 s
  | .cwait x1 x2 => Sys2Proof.Machine.execCwait x1 x2 s
  | .bari x1 x2 => Sys2Proof.Machine.execBari x1 x2 s
  | .barx x1 x2 x3 => Sys2Proof.Machine.execBarx x1 x2 x3 s
  | .bara x1 x2 => Sys2Proof.Machine.execBara x1 x2 s
  | .barw x1 x2 => Sys2Proof.Machine.execBarw x1 x2 s
  | .astart x1 x2 => Sys2Proof.Machine.execAstart x1 x2 s
  | .astop x1 => Sys2Proof.Machine.execAstop x1 s
  | .fstat x1 => Sys2Proof.Machine.execFstat x1 s
  | .wld x1 x2 x3 x4 => Sys2Proof.Machine.execWld x1 x2 x3 x4 s
  | .mmr x1 x2 x3 x4 x5 x6 x7 => Sys2Proof.Machine.execMmr x1 x2 x3 x4 x5 x6 x7 s
  | .mmrHold x1 x2 x3 x4 x5 x6 x7 => Sys2Proof.Machine.execMmrHold x1 x2 x3 x4 x5 x6 x7 s
  | .mmf x1 x2 x3 x4 x5 => Sys2Proof.Machine.execMmf x1 x2 x3 x4 x5 s
  | .mmc x1 x2 x3 x4 x5 x6 x7 => Sys2Proof.Machine.execMmc x1 x2 x3 x4 x5 x6 x7 s
  | .mmcHold x1 x2 x3 x4 x5 x6 x7 => Sys2Proof.Machine.execMmcHold x1 x2 x3 x4 x5 x6 x7 s
  | .qzero x1 x2 => Sys2Proof.Machine.execQzero x1 x2 s
  | .qdrain x1 x2 x3 x4 x5 x6 x7 => Sys2Proof.Machine.execQdrain x1 x2 x3 x4 x5 x6 x7 s
  | .qscale x1 x2 x3 x4 => Sys2Proof.Machine.execQscale x1 x2 x3 x4 s
  | .qsave x1 x2 x3 => Sys2Proof.Machine.execQsave x1 x2 x3 s
  | .qload x1 x2 x3 => Sys2Proof.Machine.execQload x1 x2 x3 s
  | .qstat x1 x2 => Sys2Proof.Machine.execQstat x1 x2 s
  | .vbegin x1 x2 => Sys2Proof.Machine.execVbegin x1 x2 s
  | .vslot x1 x2 x3 => Sys2Proof.Machine.execVslot x1 x2 x3 s
  | .vseal x1 x2 x3 => Sys2Proof.Machine.execVseal x1 x2 x3 s
  | .vsealFinal x1 x2 x3 => Sys2Proof.Machine.execVsealFinal x1 x2 x3 s
  | .vpin x1 x2 x3 => Sys2Proof.Machine.execVpin x1 x2 x3 s
  | .vunpin x1 => Sys2Proof.Machine.execVunpin x1 s
  | .vwait x1 x2 x3 x4 => Sys2Proof.Machine.execVwait x1 x2 x3 x4 s
  | .vstat x1 x2 x3 => Sys2Proof.Machine.execVstat x1 x2 x3 s
  | .vleft x1 x2 => Sys2Proof.Machine.execVleft x1 x2 s
  | .launch x1 x2 => Sys2Proof.Machine.execLaunch x1 x2 s
  | .join x1 x2 => Sys2Proof.Machine.execJoin x1 x2 s
  | .bleft x1 => Sys2Proof.Machine.execBleft x1 s
  | .dline x1 x2 => Sys2Proof.Machine.execDline x1 x2 s
  | .writePerformed x1 x2 x3 => Sys2Proof.Machine.execWritePerformed x1 x2 x3 s
  | .tempThrottleLimit x1 x2 => Sys2Proof.Machine.execTempThrottleLimit x1 x2 s
  | .prologueReturn x1 x2 => Sys2Proof.Machine.execPrologueReturn x1 x2 s
  | .getVersion => Sys2Proof.Machine.execGetVersion s
  | .getCapabilities => Sys2Proof.Machine.execGetCapabilities s
  | .getDigests => Sys2Proof.Machine.execGetDigests s
  | .getMeasurements => Sys2Proof.Machine.execGetMeasurements s
  | .cxlLinkFailure => Sys2Proof.Machine.execCxlLinkFailure s
  | .hostRestart => Sys2Proof.Machine.execHostRestart s
  | .lockLossTimeout => Sys2Proof.Machine.execLockLossTimeout s
  | .tempCritical => Sys2Proof.Machine.execTempCritical s
  | .droop => Sys2Proof.Machine.execDroop s
  | .castlingRequest => Sys2Proof.Machine.execCastlingRequest s
  | .fumaroleSpill => Sys2Proof.Machine.execFumaroleSpill s
  | .zugzwangSpill => Sys2Proof.Machine.execZugzwangSpill s
  | .matrixStart => Sys2Proof.Machine.execMatrixStart s
  | .matrixResume => Sys2Proof.Machine.execMatrixResume s
  | .matrixComplete => Sys2Proof.Machine.execMatrixComplete s
  | .waitPacketRelease => Sys2Proof.Machine.execWaitPacketRelease s
  | .prologueTimeout => Sys2Proof.Machine.execPrologueTimeout s
  | .swaitWake => Sys2Proof.Machine.execSwaitWake s
  | .nop => Sys2Proof.Machine.execNop s
  | .ret => Sys2Proof.Machine.execRet s
  | .exit => Sys2Proof.Machine.execExit s
  | .yld => Sys2Proof.Machine.execYld s
  | .tsync => Sys2Proof.Machine.execTsync s
  | .halt => Sys2Proof.Machine.execHalt s

end Sys2Proof.Machine
end

