-- ==== Sys2Proof/Machine/Step.lean ====
section
/-! DEFINITION. One step of the machine: what the agenda holds next, else the turn of the agent that acts. -/

namespace Sys2Proof.Machine

open Sys2Proof

/-- The turn of a core or of a front-end core. -/
def State.act (s : State) : Agent → Host.Outcome State Fault Refusal
  | .core n =>
    if 512 ≤ n then .fault .noSuchAgent
    else
      match s.coreTurn n with
      | .idle => .next s
      | .exec i t => exec i t
      | .done t => .next t
  | .front n =>
    if 8 ≤ n then .fault .noSuchAgent
    else
      match s.frontTurn n with
      | .done t => .next t
      | .exec i t => exec i t

/-- One step: time passes, an agent takes its turn, an event happens or something comes from outside as the agenda says;
with an empty agenda
the agent of the turn acts. -/
def step (s : State) : Host.Outcome State Fault Refusal :=
  match s.agenda with
  | [] => s.act s.turn
  | .elapse n :: r => .next ({ s with agenda := r }.elapse n)
  | .select a :: r => .next { s with agenda := r, turn := a }
  | .outside o :: r => .next ({ s with agenda := r }.happens o)
  | .event i site :: r =>
    if i.isEvent then exec i { s with agenda := r, site := site } else .next { s with agenda := r }

/-- The state with an instruction of the opcode table placed where `step` fetches next: a 32-bit word for
front-end core 0, a slot for a group of core 0 (log entry 41). -/
def State.withFetchWord (s : State) (nbits w : Nat) : State :=
  let s := { s with agenda := [] }
  if nbits ≤ 32 then s.placeFront.placeBytes 0 (bytesOf 4 w)
  else
    let n := placedHeader (decodeTableWord nbits w) + w % 2 ^ 80 * 2 ^ 8
    (placedTables s.placeGroup).placeBytes 0 (bytesOf 16 n)

end Sys2Proof.Machine
end

