-- ==== Sys2Proof/Laws/Fields.lean ====
section
/-! SUPPORT. The fields of the encoder's words read back, and the decoder's shapes on them. -/

namespace Sys2Proof

/-! ### Fields of a word -/

section Words

variable {op d a b x n m imm off wd : Nat}

theorem fOp_enc (hd : d < 128) (ha : a < 256) (hb : b < 256) (hx : x < 128) (ho : op < 1024) :
    fOp (enc op d a b x) = op := by simp only [fOp, fld, enc]; omega
theorem fD_enc (hd : d < 128) (ha : a < 256) (hb : b < 256) (hx : x < 128) : fD (enc op d a b x) = d := by
  simp only [fD, fld, enc]; omega
theorem fA_enc (ha : a < 256) (hb : b < 256) (hx : x < 128) : fA (enc op d a b x) = a := by
  simp only [fA, fld, enc]; omega
theorem fB_enc (hb : b < 256) (hx : x < 128) : fB (enc op d a b x) = b := by
  simp only [fB, fld, enc]; omega
theorem fC_enc (hx : x < 128) : fC (enc op d a b x) = x := by
  simp only [fC, fld, enc]; omega

theorem fOp_encI (hd : d < 128) (ha : a < 256) (hi : imm < 32768) (ho : op < 1024) : fOp (encI op d a imm) = op := by
  simp only [fOp, fld, encI]; omega
theorem fD_encI (hd : d < 128) (ha : a < 256) (hi : imm < 32768) : fD (encI op d a imm) = d := by
  simp only [fD, fld, encI]; omega
theorem fA_encI (ha : a < 256) (hi : imm < 32768) : fA (encI op d a imm) = a := by
  simp only [fA, fld, encI]; omega
theorem fI_encI (hi : imm < 32768) : fld (encI op d a imm) 0 15 = imm := by
  simp only [fld, encI]; omega

theorem fOp_encL (hd : d < 128) (hi : imm < 2 ^ 23) (ho : op < 1024) : fOp (encL op d imm) = op := by
  simp only [fOp, fld, encL]; omega
theorem fD_encL (hd : d < 128) (hi : imm < 2 ^ 23) : fD (encL op d imm) = d := by
  simp only [fD, fld, encL]; omega
theorem fI_encL (hi : imm < 2 ^ 23) : fld (encL op d imm) 0 23 = imm := by
  simp only [fld, encL]; omega

theorem fOp_encM (hd : d < 128) (ha : a < 256) (hoff : off < 4096) (hw : wd < 8) (ho : op < 1024) :
    fOp (encM op d a off wd) = op := by simp only [fOp, fld, encM]; omega
theorem fD_encM (hd : d < 128) (ha : a < 256) (hoff : off < 4096) (hw : wd < 8) : fD (encM op d a off wd) = d := by
  simp only [fD, fld, encM]; omega
theorem fA_encM (ha : a < 256) (hoff : off < 4096) (hw : wd < 8) : fA (encM op d a off wd) = a := by
  simp only [fA, fld, encM]; omega
theorem fOff_encM (hoff : off < 4096) (hw : wd < 8) : fld (encM op d a off wd) 3 12 = off := by
  simp only [fld, encM]; omega
theorem fW_encM (hw : wd < 8) : fld (encM op d a off wd) 0 3 = wd := by
  simp only [fld, encM]; omega

theorem fOp_encB (ha : a < 256) (hoff : off < 2 ^ 22) (ho : op < 1024) : fOp (encB op a off) = op := by
  simp only [fOp, fld, encB]; omega
theorem fA_encB (ha : a < 256) (hoff : off < 2 ^ 22) : fld (encB op a off) 22 8 = a := by
  simp only [fld, encB]; omega
theorem fOff_encB (hoff : off < 2 ^ 22) : fld (encB op a off) 0 22 = off := by
  simp only [fld, encB]; omega

theorem fOp_encX (hd : d < 128) (ha : a < 256) (hn : n < 32) (hm : m < 1024) (ho : op < 1024) :
    fOp (encX op d a n m) = op := by simp only [fOp, fld, encX]; omega
theorem fD_encX (hd : d < 128) (ha : a < 256) (hn : n < 32) (hm : m < 1024) : fD (encX op d a n m) = d := by
  simp only [fD, fld, encX]; omega
theorem fA_encX (ha : a < 256) (hn : n < 32) (hm : m < 1024) : fA (encX op d a n m) = a := by
  simp only [fA, fld, encX]; omega
theorem fN_encX (hn : n < 32) (hm : m < 1024) : fN (encX op d a n m) = n := by
  simp only [fN, fld, encX]; omega
theorem fM_encX (hm : m < 1024) : fM (encX op d a n m) = m := by
  simp only [fM, fld, encX]; omega

end Words

/-! ### Signed fields -/

theorem unsext_lt (n : Nat) (e : Int) : unsext n e < 2 ^ n := by
  have h : (0 : Int) < 2 ^ n := by positivity
  have h1 := Int.emod_nonneg e (ne_of_gt h)
  have h2 := Int.emod_lt_of_pos e h
  have h3 : (unsext n e : Int) < (2 ^ n : Nat) := by
    simp only [unsext, Int.toNat_of_nonneg h1]; push_cast; exact h2
  exact_mod_cast h3

theorem sext_unsext (n : Nat) (hn : 0 < n) (e : Int) (h : inSigned n e = true) : sext n (unsext n e) = e := by
  obtain ⟨k, rfl⟩ : ∃ k, n = k + 1 := ⟨n - 1, by omega⟩
  simp only [inSigned, Nat.add_sub_cancel, Bool.and_eq_true, decide_eq_true_eq] at h
  have hp : (2 : Int) ^ (k + 1) = 2 * 2 ^ k := by ring
  have hpos : (0 : Int) < 2 ^ k := by positivity
  simp only [sext, unsext, Nat.add_sub_cancel]
  by_cases he : 0 ≤ e
  · have h1 : e % 2 ^ (k + 1) = e := Int.emod_eq_of_lt he (by omega)
    have h2 : e.toNat < 2 ^ k := by
      have : (e.toNat : Int) < (2 ^ k : Nat) := by rw [Int.toNat_of_nonneg he]; push_cast; exact h.2
      exact_mod_cast this
    rw [h1, if_pos h2, Int.toNat_of_nonneg he]
  · have h1 : e % 2 ^ (k + 1) = e + 2 ^ (k + 1) := by
      have h3 : e + 2 ^ (k + 1) = (e + 2 ^ (k + 1)) % 2 ^ (k + 1) := (Int.emod_eq_of_lt (by omega) (by omega)).symm
      rw [h3, Int.add_emod_right]
    have h0 : 0 ≤ e + 2 ^ (k + 1) := by omega
    have h2 : ¬ (e + 2 ^ (k + 1)).toNat < 2 ^ k := by
      intro hc
      have : ((e + 2 ^ (k + 1)).toNat : Int) < (2 ^ k : Nat) := by exact_mod_cast hc
      rw [Int.toNat_of_nonneg h0] at this
      push_cast at this
      omega
    rw [h1, if_neg h2, Int.toNat_of_nonneg h0]
    ring

/-! ### Operands -/

theorem decSpec_code (sp : Spec) (h : sp.wf = true) : decSpec sp.code = some sp := by
  cases sp with
  | special x => cases x <;> rfl
  | _ n =>
    simp only [Spec.wf, decide_eq_true_eq] at h
    simp only [Spec.code, decSpec]
    first
    | (rw [if_pos h])
    | (interval_cases n <;> rfl)

theorem Spec.code_lt (sp : Spec) (h : sp.wf = true) : sp.code < 128 := by
  cases sp with
  | special x => cases x <;> decide
  | _ n => simp only [Spec.wf, decide_eq_true_eq] at h; simp only [Spec.code]; omega

theorem Spec.code_lt_v (sp : Spec) (h : sp.wf = true) (hv : sp.isV = true) : sp.code < 64 := by
  cases sp <;> simp_all [Spec.isV, Spec.wf, Spec.code]

theorem Src.code_lt (a : Src) (h : a.wf = true) : a.code < 256 := by
  simp only [Src.wf, Bool.and_eq_true] at h
  have := Spec.code_lt a.spec h.1
  have := Bool.toNat_lt a.lu
  simp only [Src.code]; omega

theorem decSrc_code (a : Src) (h : a.wf = true) : decSrc a.code = some a := by
  obtain ⟨sp, lu⟩ := a
  simp only [Src.wf, Bool.and_eq_true] at h
  have h1 : (2 * sp.code + lu.toNat) / 2 = sp.code := by have := Bool.toNat_lt lu; omega
  have h2 : (2 * sp.code + lu.toNat) % 2 = lu.toNat := by have := Bool.toNat_lt lu; omega
  simp only [decSrc, Src.code, h1, h2, decSpec_code sp h.1]
  cases lu with
  | false => rfl
  | true =>
    have := Spec.code_lt_v sp h.1 (by simpa using h.2)
    rw [if_neg (by omega)]
    rfl

theorem Dst.code_lt (d : Dst) (h : d.wf = true) : d.code < 128 := by
  cases d <;> simp only [Dst.wf, decide_eq_true_eq] at h <;> simp only [Dst.code] <;> omega

theorem decDst_code (d : Dst) (h : d.wf = true) : decDst d.code = some d := by
  cases d with
  | _ n =>
    simp only [Dst.wf, decide_eq_true_eq] at h
    simp only [Dst.code, decDst]
    first
    | (rw [if_pos h])
    | (interval_cases n <;> rfl)

theorem CSrc.code_lt (c : CSrc) (h : c.wf = true) : c.code < 128 := by
  simp only [CSrc.wf, decide_eq_true_eq] at h
  have := Bool.toNat_lt c.lu
  simp only [CSrc.code]; omega

theorem decC_code (c : CSrc) : decC c.code = c := by
  obtain ⟨n, lu⟩ := c
  have h1 : (2 * n + lu.toNat) / 2 = n := by have := Bool.toNat_lt lu; omega
  have h2 : (2 * n + lu.toNat) % 2 = lu.toNat := by have := Bool.toNat_lt lu; omega
  simp only [decC, CSrc.code, h1, h2]
  cases lu <;> rfl

theorem decW_code (w : Width) : decW w.code = some w := by cases w <;> rfl
theorem Width.code_lt (w : Width) : w.code < 8 := by cases w <;> decide
theorem decR_code (r : RSel) : decR r.code = some r := by cases r <;> rfl
theorem RSel.code_lt (r : RSel) : r.code < 8 := by cases r <;> decide
theorem decScope_code (s : Scope) : decScope s.code = some s := by cases s <;> rfl
theorem Scope.code_lt (s : Scope) : s.code < 8 := by cases s <;> decide
theorem toNat_beq_one (b : Bool) : (b.toNat == 1) = b := by cases b <;> rfl

/-! ### Operand kinds of an entry are operands -/

theorem Src.wf_of_pair {a : Src} (h : a.pairWf = true) : a.wf = true := by
  obtain ⟨sp, lu⟩ := a
  cases sp <;> simp_all [Src.pairWf, Src.wf, Spec.wf, Spec.isV] <;> omega

theorem Src.wf_of_vPair {a : Src} (h : a.vPairWf = true) : a.wf = true := by
  obtain ⟨sp, lu⟩ := a
  cases sp <;> simp_all [Src.vPairWf, Src.wf, Spec.wf, Spec.isV]; omega

theorem Src.wf_of_vQuad {a : Src} (h : a.vQuadWf = true) : a.wf = true := by
  obtain ⟨sp, lu⟩ := a
  cases sp <;> simp_all [Src.vQuadWf, Src.wf, Spec.wf, Spec.isV]; omega

theorem Src.wf_of_v {a : Src} (h : a.vWf = true) : a.wf = true := by
  obtain ⟨sp, lu⟩ := a
  cases sp <;> simp_all [Src.vWf, Src.wf, Spec.wf, Spec.isV]

theorem Dst.wf_of_vo {d : Dst} (h : d.voWf = true) : d.wf = true := by
  cases d <;> simp_all [Dst.voWf, Dst.wf]

theorem Dst.wf_of_width {w : Width} {d : Dst} (h : w.dstWf d = true) : d.wf = true := by
  cases d <;> cases w <;> simp_all [Width.dstWf, Width.regs, Dst.wf] <;> omega

theorem Width.data_lt {w : Width} {n : Nat} (h : w.dataWf n = true) : n < 128 := by
  cases w <;> simp_all [Width.dataWf, Width.regs] <;> omega

theorem AForm.src_wf {fm : AForm} {a : Src} (h : fm.addrWf a = true) : a.wf = true := by
  cases fm with
  | gen => exact Src.wf_of_pair h
  | loc => exact h
  | clu => exact h

theorem wf_of_time {rel : Bool} {t : Src} (h : timeWf rel t = true) : t.wf = true := by
  cases rel with
  | false => exact Src.wf_of_pair h
  | true => exact h

theorem CSrc.wf_of_unused {c : CSrc} (h : c.unused = true) : c.wf = true := by
  obtain ⟨n, lu⟩ := c
  simp only [CSrc.unused, beq_iff_eq, CSrc.mk.injEq] at h
  simp [CSrc.wf, h.1]

theorem CSrc.wf_of_pair {c : CSrc} (h : c.pairWf = true) : c.wf = true := by
  simp only [CSrc.pairWf, CSrc.wf, decide_eq_true_eq] at *; omega

/-! ### The shapes on encoded words -/

theorem checked_wf {i : Instr} (h : i.wf = true) : checked i = some i := by simp only [checked, h, if_true]

section Shapes

variable {op x n m : Nat} {d : Dst} {a b : Src} {c : CSrc}

theorem f2_enc {k : Dst → Src → Src → Instr} (hd : d.wf = true) (ha : a.wf = true) (hb : b.wf = true) (hx : x < 128)
    (hk : (k d a b).wf = true) : f2 (enc op d.code a.code b.code x) x k = some (k d a b) := by
  have h1 := d.code_lt hd
  have h2 := a.code_lt ha
  have h3 := b.code_lt hb
  simp only [f2, fD_enc h1 h2 h3 hx, fA_enc h2 h3 hx, fB_enc h3 hx, fC_enc hx, decDst_code d hd, decSrc_code a ha,
    decSrc_code b hb, if_true, checked_wf hk]

theorem f2u_enc {k : Dst → Src → Instr} (hd : d.wf = true) (ha : a.wf = true) (hx : x < 128)
    (hk : (k d a).wf = true) : f2u (enc op d.code a.code 0 x) x k = some (k d a) := by
  have h1 := d.code_lt hd
  have h2 := a.code_lt ha
  have h3 : 0 < 256 := by decide
  simp only [f2u, fD_enc h1 h2 h3 hx, fA_enc h2 h3 hx, fB_enc h3 hx, fC_enc hx, decDst_code d hd, decSrc_code a ha,
    and_self, if_true, checked_wf hk]

theorem f2r_enc {k : RSel → Dst → Src → Src → Instr} {r : RSel} (hd : d.wf = true) (ha : a.wf = true)
    (hb : b.wf = true) (hk : (k r d a b).wf = true) :
    f2r (enc op d.code a.code b.code r.code) k = some (k r d a b) := by
  have hr : r.code < 128 := by have := r.code_lt; omega
  simp only [f2r, fC_enc hr, decR_code]
  exact f2_enc hd ha hb hr hk

theorem f2ur_enc {k : RSel → Dst → Src → Instr} {r : RSel} (hd : d.wf = true) (ha : a.wf = true)
    (hk : (k r d a).wf = true) : f2ur (enc op d.code a.code 0 r.code) k = some (k r d a) := by
  have hr : r.code < 128 := by have := r.code_lt; omega
  simp only [f2ur, fC_enc hr, decR_code]
  exact f2u_enc hd ha hr hk

theorem f2z_enc {k : Dst → Instr} (hd : d.wf = true) (hx : x < 128) (hk : (k d).wf = true) :
    f2z (enc op d.code 0 0 x) x k = some (k d) := by
  have h1 := d.code_lt hd
  have h2 : 0 < 256 := by decide
  simp only [f2z, fD_enc h1 h2 h2 hx, fA_enc h2 h2 hx, fB_enc h2 hx, fC_enc hx, decDst_code d hd, and_self, if_true,
    checked_wf hk]

theorem f2s_enc {k : Src → Instr} (ha : a.wf = true) (hx : x < 128) (hk : (k a).wf = true) :
    f2s (enc op 0 a.code 0 x) x k = some (k a) := by
  have h1 : 0 < 128 := by decide
  have h2 := a.code_lt ha
  have h3 : 0 < 256 := by decide
  simp only [f2s, fD_enc h1 h2 h3 hx, fA_enc h2 h3 hx, fB_enc h3 hx, fC_enc hx, decSrc_code a ha, and_self, if_true,
    checked_wf hk]

theorem f3_enc {k : Dst → Src → Src → CSrc → Instr} (hd : d.wf = true) (ha : a.wf = true) (hb : b.wf = true)
    (hc : c.wf = true) (hk : (k d a b c).wf = true) :
    f3 (enc op d.code a.code b.code c.code) k = some (k d a b c) := by
  have h1 := d.code_lt hd
  have h2 := a.code_lt ha
  have h3 := b.code_lt hb
  have h4 := c.code_lt hc
  simp only [f3, fD_enc h1 h2 h3 h4, fA_enc h2 h3 h4, fB_enc h3 h4, fC_enc h4, decDst_code d hd, decSrc_code a ha,
    decSrc_code b hb, decC_code, checked_wf hk]

theorem fb_enc {k : Src → Int → Instr} {e : Int} (ha : a.wf = true) (he : inSigned 22 e = true)
    (hk : (k a e).wf = true) : fb (encB op a.code (unsext 22 e)) k = some (k a e) := by
  have h2 := a.code_lt ha
  have h3 := unsext_lt 22 e
  simp only [fb, fA_encB h2 h3, fOff_encB h3, decSrc_code a ha, sext_unsext 22 (by decide) e he, checked_wf hk]

theorem fbz_enc {k : Int → Instr} {e : Int} (he : inSigned 22 e = true) (hk : (k e).wf = true) :
    fbz (encB op 0 (unsext 22 e)) k = some (k e) := by
  have h2 : 0 < 256 := by decide
  have h3 := unsext_lt 22 e
  simp only [fbz, fA_encB h2 h3, fOff_encB h3, sext_unsext 22 (by decide) e he, if_true, checked_wf hk]

theorem fmLd_enc {k : Width → Dst → Src → Int → Instr} {w : Width} {e : Int} (hd : d.wf = true) (ha : a.wf = true)
    (he : inSigned 12 e = true) (hk : (k w d a e).wf = true) :
    fmLd (encM op d.code a.code (unsext 12 e) w.code) k = some (k w d a e) := by
  have h1 := d.code_lt hd
  have h2 := a.code_lt ha
  have h3 : unsext 12 e < 4096 := unsext_lt 12 e
  have h4 := w.code_lt
  simp only [fmLd, fD_encM h1 h2 h3 h4, fA_encM h2 h3 h4, fOff_encM h3 h4, fW_encM h4, decDst_code d hd,
    decSrc_code a ha, decW_code, sext_unsext 12 (by decide) e he, checked_wf hk]

theorem fmSt_enc {k : Width → Nat → Src → Int → Instr} {w : Width} {e : Int} {r : Nat} (hr : r < 128) (ha : a.wf = true)
    (he : inSigned 12 e = true) (hk : (k w r a e).wf = true) :
    fmSt (encM op r a.code (unsext 12 e) w.code) k = some (k w r a e) := by
  have h2 := a.code_lt ha
  have h3 : unsext 12 e < 4096 := unsext_lt 12 e
  have h4 := w.code_lt
  simp only [fmSt, fD_encM hr h2 h3 h4, fA_encM h2 h3 h4, fOff_encM h3 h4, fW_encM h4, decSrc_code a ha, decW_code,
    sext_unsext 12 (by decide) e he, checked_wf hk]

theorem ft_enc {k : Width → Bool → Nat → Src → Src → Option Instr} {w : Width} {rel : Bool} {r : Nat} (hr : r < 128)
    (ha : a.wf = true) (hb : b.wf = true) :
    ft (enc op r a.code b.code (8 * rel.toNat + w.code)) k = k w rel r a b := by
  have h2 := a.code_lt ha
  have h3 := b.code_lt hb
  have h5 := w.code_lt
  have h6 := Bool.toNat_lt rel
  have hx : 8 * rel.toNat + w.code < 128 := by omega
  have e1 : (8 * rel.toNat + w.code) % 8 = w.code := by omega
  have e2 : (8 * rel.toNat + w.code) / 16 = 0 := by omega
  have e3 : (8 * rel.toNat + w.code) / 8 % 2 = rel.toNat := by omega
  simp only [ft, fD_enc hr h2 h3 hx, fA_enc h2 h3 hx, fB_enc h3 hx, fC_enc hx, decSrc_code a ha, decSrc_code b hb, e1,
    e2, e3, decW_code, toNat_beq_one, if_true]

theorem fxz_enc {i : Instr} (hn : m < 1024) : fxz (encX op 0 0 0 m) i m = some i := by
  have h1 : 0 < 128 := by decide
  have h2 : 0 < 256 := by decide
  have h3 : 0 < 32 := by decide
  simp only [fxz, fD_encX h1 h2 h3 hn, fA_encX h2 h3 hn, fN_encX h3 hn, fM_encX hn, and_self, if_true]

theorem fxa_enc {k : Src → Instr} (ha : a.wf = true) (hn : n < 32) (hm : m < 1024) (hk : (k a).wf = true) :
    fxa (encX op 0 a.code n m) n m k = some (k a) := by
  have h1 : 0 < 128 := by decide
  have h2 := a.code_lt ha
  simp only [fxa, fD_encX h1 h2 hn hm, fA_encX h2 hn hm, fN_encX hn hm, fM_encX hm, decSrc_code a ha, and_self, if_true,
    checked_wf hk]

theorem fxda_enc {k : Nat → Src → Instr} {r : Nat} (hr : r < 128) (ha : a.wf = true) (hn : n < 32) (hm : m < 1024)
    (hk : (k r a).wf = true) : fxda (encX op r a.code n m) n m k = some (k r a) := by
  have h2 := a.code_lt ha
  simp only [fxda, fD_encX hr h2 hn hm, fA_encX h2 hn hm, fN_encX hn hm, fM_encX hm, decSrc_code a ha, and_self, if_true,
    checked_wf hk]

theorem fxd_enc {k : Nat → Instr} {r : Nat} (hr : r < 128) (hn : n < 32) (hm : m < 1024) (hk : (k r).wf = true) :
    fxd (encX op r 0 n m) n m k = some (k r) := by
  have h2 : 0 < 256 := by decide
  simp only [fxd, fD_encX hr h2 hn hm, fA_encX h2 hn hm, fN_encX hn hm, fM_encX hm, and_self, if_true, checked_wf hk]

end Shapes

/-! ### Slots -/

theorem op_lt {op : Nat} (h : opAssigned op = true) : op < 1024 := by
  simp only [opAssigned, assignedRuns, List.any_cons, List.any_nil, Bool.or_false, Bool.or_eq_true, Bool.and_eq_true,
    decide_eq_true_eq] at h
  omega

/-- A word whose opcode is assigned and whose fields decode. -/
theorem slot_ok {w lit : Nat} (op : Nat) {i : Instr} (h2 : opAssigned op = true) (h1 : op < 1024 → fOp w = op)
    (h3 : decOper op w lit = some i) : decodeSlot stdView w lit = .ok i := by
  simp only [decodeSlot, stdView, h1 (op_lt h2), h2, reformat, h3, if_true, Option.bind_some]

section Slots

variable {op x n m lit : Nat} {d : Dst} {a b : Src} {c : CSrc}

theorem f2_slot {k : Dst → Src → Src → Instr} (ho : opAssigned op = true) (hx : x < 128)
    (hk : ∀ w, decOper op w lit = f2 w x k) (hd : d.wf = true) (ha : a.wf = true) (hb : b.wf = true)
    (hw : (k d a b).wf = true) : decodeSlot stdView (enc op d.code a.code b.code x) lit = .ok (k d a b) :=
  slot_ok op ho (fOp_enc (d.code_lt hd) (a.code_lt ha) (b.code_lt hb) hx) ((hk _).trans (f2_enc hd ha hb hx hw))

theorem f2u_slot {k : Dst → Src → Instr} (ho : opAssigned op = true) (hx : x < 128)
    (hk : ∀ w, fC w = x → decOper op w lit = f2u w x k) (hd : d.wf = true) (ha : a.wf = true)
    (hw : (k d a).wf = true) : decodeSlot stdView (enc op d.code a.code 0 x) lit = .ok (k d a) :=
  slot_ok op ho (fOp_enc (d.code_lt hd) (a.code_lt ha) (by decide) hx)
    ((hk _ (fC_enc hx)).trans (f2u_enc hd ha hx hw))

theorem f2r_slot {k : RSel → Dst → Src → Src → Instr} {r : RSel} (ho : opAssigned op = true)
    (hk : ∀ w, decOper op w lit = f2r w k) (hd : d.wf = true) (ha : a.wf = true) (hb : b.wf = true)
    (hw : (k r d a b).wf = true) : decodeSlot stdView (enc op d.code a.code b.code r.code) lit = .ok (k r d a b) :=
  slot_ok op ho (fOp_enc (d.code_lt hd) (a.code_lt ha) (b.code_lt hb) (by have := r.code_lt; omega))
    ((hk _).trans (f2r_enc hd ha hb hw))

theorem f2ur_slot {k : RSel → Dst → Src → Instr} {r : RSel} (ho : opAssigned op = true)
    (hk : ∀ w, decOper op w lit = f2ur w k) (hd : d.wf = true) (ha : a.wf = true) (hw : (k r d a).wf = true) :
    decodeSlot stdView (enc op d.code a.code 0 r.code) lit = .ok (k r d a) :=
  slot_ok op ho (fOp_enc (d.code_lt hd) (a.code_lt ha) (by decide) (by have := r.code_lt; omega))
    ((hk _).trans (f2ur_enc hd ha hw))

theorem f2z_slot {k : Dst → Instr} (ho : opAssigned op = true) (hx : x < 128)
    (hk : ∀ w, fC w = x → decOper op w lit = f2z w x k) (hd : d.wf = true) (hw : (k d).wf = true) :
    decodeSlot stdView (enc op d.code 0 0 x) lit = .ok (k d) :=
  slot_ok op ho (fOp_enc (d.code_lt hd) (by decide) (by decide) hx) ((hk _ (fC_enc hx)).trans (f2z_enc hd hx hw))

theorem f2s_slot {k : Src → Instr} (ho : opAssigned op = true) (hx : x < 128)
    (hk : ∀ w, fC w = x → decOper op w lit = f2s w x k) (ha : a.wf = true) (hw : (k a).wf = true) :
    decodeSlot stdView (enc op 0 a.code 0 x) lit = .ok (k a) :=
  slot_ok op ho (fOp_enc (by decide) (a.code_lt ha) (by decide) hx) ((hk _ (fC_enc hx)).trans (f2s_enc ha hx hw))

theorem f3_slot {k : Dst → Src → Src → CSrc → Instr} (ho : opAssigned op = true)
    (hk : ∀ w, decOper op w lit = f3 w k) (hd : d.wf = true) (ha : a.wf = true) (hb : b.wf = true) (hc : c.wf = true)
    (hw : (k d a b c).wf = true) : decodeSlot stdView (enc op d.code a.code b.code c.code) lit = .ok (k d a b c) :=
  slot_ok op ho (fOp_enc (d.code_lt hd) (a.code_lt ha) (b.code_lt hb) (c.code_lt hc))
    ((hk _).trans (f3_enc hd ha hb hc hw))

theorem fb_slot {k : Src → Int → Instr} {e : Int} (ho : opAssigned op = true) (hk : ∀ w, decOper op w lit = fb w k)
    (ha : a.wf = true) (he : inSigned 22 e = true) (hw : (k a e).wf = true) :
    decodeSlot stdView (encB op a.code (unsext 22 e)) lit = .ok (k a e) :=
  slot_ok op ho (fOp_encB (a.code_lt ha) (unsext_lt 22 e)) ((hk _).trans (fb_enc ha he hw))

theorem fbz_slot {k : Int → Instr} {e : Int} (ho : opAssigned op = true) (hk : ∀ w, decOper op w lit = fbz w k)
    (he : inSigned 22 e = true) (hw : (k e).wf = true) :
    decodeSlot stdView (encB op 0 (unsext 22 e)) lit = .ok (k e) :=
  slot_ok op ho (fOp_encB (by decide) (unsext_lt 22 e)) ((hk _).trans (fbz_enc he hw))

theorem fmLd_slot {k : Width → Dst → Src → Int → Instr} {w : Width} {e : Int} (ho : opAssigned op = true)
    (hk : ∀ x, decOper op x lit = fmLd x k) (hd : d.wf = true) (ha : a.wf = true) (he : inSigned 12 e = true)
    (hw : (k w d a e).wf = true) :
    decodeSlot stdView (encM op d.code a.code (unsext 12 e) w.code) lit = .ok (k w d a e) :=
  slot_ok op ho (fOp_encM (d.code_lt hd) (a.code_lt ha) (unsext_lt 12 e) w.code_lt)
    ((hk _).trans (fmLd_enc hd ha he hw))

theorem fmSt_slot {k : Width → Nat → Src → Int → Instr} {w : Width} {e : Int} {r : Nat} (ho : opAssigned op = true)
    (hk : ∀ x, decOper op x lit = fmSt x k) (hr : r < 128) (ha : a.wf = true) (he : inSigned 12 e = true)
    (hw : (k w r a e).wf = true) :
    decodeSlot stdView (encM op r a.code (unsext 12 e) w.code) lit = .ok (k w r a e) :=
  slot_ok op ho (fOp_encM hr (a.code_lt ha) (unsext_lt 12 e) w.code_lt) ((hk _).trans (fmSt_enc hr ha he hw))

theorem fxz_slot {i : Instr} (ho : opAssigned op = true) (hm : m < 1024)
    (hk : ∀ w, fM w = m → decOper op w lit = fxz w i m) :
    decodeSlot stdView (encX op 0 0 0 m) lit = .ok i :=
  slot_ok op ho (fOp_encX (by decide) (by decide) (by decide) hm) ((hk _ (fM_encX hm)).trans (fxz_enc hm))

theorem fxa_slot {k : Src → Instr} (ho : opAssigned op = true) (hn : n < 32) (hm : m < 1024)
    (hk : ∀ w, fN w = n → fM w = m → decOper op w lit = fxa w n m k) (ha : a.wf = true) (hw : (k a).wf = true) :
    decodeSlot stdView (encX op 0 a.code n m) lit = .ok (k a) :=
  slot_ok op ho (fOp_encX (by decide) (a.code_lt ha) hn hm)
    ((hk _ (fN_encX hn hm) (fM_encX hm)).trans (fxa_enc ha hn hm hw))

theorem fxda_slot {k : Nat → Src → Instr} {r : Nat} (ho : opAssigned op = true) (hr : r < 128) (hn : n < 32)
    (hm : m < 1024) (hk : ∀ w, fN w = n → fM w = m → decOper op w lit = fxda w n m k) (ha : a.wf = true)
    (hw : (k r a).wf = true) : decodeSlot stdView (encX op r a.code n m) lit = .ok (k r a) :=
  slot_ok op ho (fOp_encX hr (a.code_lt ha) hn hm)
    ((hk _ (fN_encX hn hm) (fM_encX hm)).trans (fxda_enc hr ha hn hm hw))

theorem fxd_slot {k : Nat → Instr} {r : Nat} (ho : opAssigned op = true) (hr : r < 128) (hn : n < 32) (hm : m < 1024)
    (hk : ∀ w, fD w = r → fN w = n → fM w = m → decOper op w lit = fxd w n m k) (hw : (k r).wf = true) :
    decodeSlot stdView (encX op r 0 n m) lit = .ok (k r) :=
  slot_ok op ho (fOp_encX hr (by decide) hn hm)
    ((hk _ (fD_encX hr (by decide) hn hm) (fN_encX hn hm) (fM_encX hm)).trans (fxd_enc hr hn hm hw))

end Slots

end Sys2Proof
end

