-- ==== Sys2Proof/Laws/PerInstr.lean ====
section
/-! SUPPORT. Encoding and decoding agree, instruction by instruction: the word that the encoder gives a well-formed
instruction decodes to it, under the standard map (R44 to R62, R414). -/

namespace Sys2Proof

/-- The word of a well-formed instruction decodes to it: of a slot, or of the front end. Events have no word. -/
def Laws.WordRoundTrip.Statement (i : Instr) : Prop :=
  i.wf = true →
    (i.isSlot = true → decodeSlot stdView (encode i) (literalOf i) = .ok i) ∧
    (i.isFront = true → decodeFront (encode i) = some i)

theorem roundTrip_slot {i : Instr} (hf : i.isFront = false)
    (h : i.wf = true → decodeSlot stdView (encode i) (literalOf i) = .ok i) : Laws.WordRoundTrip.Statement i :=
  fun w => ⟨fun _ => h w, fun c => Bool.noConfusion (hf.symm.trans c)⟩

theorem roundTrip_event {i : Instr} (hs : i.isSlot = false) (hf : i.isFront = false) :
    Laws.WordRoundTrip.Statement i :=
  fun _ => ⟨fun c => Bool.noConfusion (hs.symm.trans c), fun c => Bool.noConfusion (hf.symm.trans c)⟩

theorem roundTrip_front {i : Instr} (hs : i.isSlot = false)
    (h : i.wf = true → decodeFront (encode i) = some i) : Laws.WordRoundTrip.Statement i :=
  fun w => ⟨fun c => Bool.noConfusion (hs.symm.trans c), fun _ => h w⟩

theorem f2p_slot {op lit r : Nat} {a b : Src} {k : Nat → Src → Src → Instr} (ho : opAssigned op = true)
    (hk : ∀ w, decOper op w lit = f2p w k) (hr : r < 128) (ha : a.wf = true) (hb : b.wf = true)
    (hw : (k r a b).wf = true) : decodeSlot stdView (enc op r a.code b.code 0) lit = .ok (k r a b) := by
  have h2 := a.code_lt ha
  have h3 := b.code_lt hb
  have hx : 0 < 128 := by decide
  refine slot_ok op ho (fOp_enc hr h2 h3 hx) ((hk _).trans ?_)
  simp only [f2p, fD_enc hr h2 h3 hx, fA_enc h2 h3 hx, fB_enc h3 hx, fC_enc hx, decSrc_code a ha, decSrc_code b hb,
    if_true, checked_wf hw]

/-- The fields of an F2 or F3 word. -/
theorem enc_fields {op d a b x : Nat} (hd : d < 128) (ha : a < 256) (hb : b < 256) (hx : x < 128) :
    fD (enc op d a b x) = d ∧ fA (enc op d a b x) = a ∧ fB (enc op d a b x) = b ∧ fC (enc op d a b x) = x :=
  ⟨fD_enc hd ha hb hx, fA_enc ha hb hx, fB_enc hb hx, fC_enc hx⟩

/-- The fields of an FX word. -/
theorem encX_fields {op d a n m : Nat} (hd : d < 128) (ha : a < 256) (hn : n < 32) (hm : m < 1024) :
    fD (encX op d a n m) = d ∧ fA (encX op d a n m) = a ∧ fN (encX op d a n m) = n ∧ fM (encX op d a n m) = m :=
  ⟨fD_encX hd ha hn hm, fA_encX ha hn hm, fN_encX hn hm, fM_encX hm⟩

/-- The fields of an FI word. -/
theorem encI_fields {op d a imm : Nat} (hd : d < 128) (ha : a < 256) (hi : imm < 32768) :
    fD (encI op d a imm) = d ∧ fA (encI op d a imm) = a ∧ fld (encI op d a imm) 0 15 = imm :=
  ⟨fD_encI hd ha hi, fA_encI ha hi, fI_encI hi⟩

/-- The fields of an R-type word (R414). -/
theorem rtype_fields {f d s t : Nat} (hf : f < 8) (hd : d < 32) (hs : s < 32) (ht : t < 32) :
    fld (rtype f d s t) 0 7 = 0x0B ∧ fld (rtype f d s t) 25 7 = 0 ∧ fld (rtype f d s t) 12 3 = f ∧
    fld (rtype f d s t) 7 5 = d ∧ fld (rtype f d s t) 15 5 = s ∧ fld (rtype f d s t) 20 5 = t := by
  simp only [fld, rtype]; omega

/-- FX words with a v destination in D7 and no other source than N. -/
theorem fxdd_slot {op n m lit : Nat} {d : Dst} {i : Instr} (ho : opAssigned op = true) (hd : d.wf = true) (hn : n < 32)
    (hm : m < 1024) (hk : ∀ w, decDst (fD w) = some d → fA w = 0 → fN w = n → fM w = m → decOper op w lit = checked i)
    (hw : i.wf = true) : decodeSlot stdView (encX op d.code 0 n m) lit = .ok i := by
  obtain ⟨e1, e2, e3, e4⟩ := encX_fields (op := op) (d.code_lt hd) (by decide : 0 < 256) hn hm
  exact slot_ok op ho (fOp_encX (d.code_lt hd) (by decide) hn hm)
    ((hk _ (by rw [e1, decDst_code d hd]) e2 e3 e4).trans (checked_wf hw))

/-- FX words with every field in use. -/
theorem fx_slot {op r n m lit : Nat} {a : Src} {i : Instr} (ho : opAssigned op = true) (hr : r < 128) (ha : a.wf = true)
    (hn : n < 32) (hm : m < 1024)
    (hk : ∀ w, fD w = r → decSrc (fA w) = some a → fN w = n → fM w = m → decOper op w lit = checked i)
    (hw : i.wf = true) : decodeSlot stdView (encX op r a.code n m) lit = .ok i := by
  obtain ⟨e1, e2, e3, e4⟩ := encX_fields (op := op) hr (a.code_lt ha) hn hm
  exact slot_ok op ho (fOp_encX hr (a.code_lt ha) hn hm)
    ((hk _ e1 (by rw [e2, decSrc_code a ha]) e3 e4).trans (checked_wf hw))

/-- F2 words read field by field. -/
theorem f_slot {op r ac bc x lit : Nat} {i : Instr} (ho : opAssigned op = true) (hr : r < 128) (ha : ac < 256)
    (hb : bc < 256) (hx : x < 128)
    (hk : ∀ w, fD w = r → fA w = ac → fB w = bc → fC w = x → decOper op w lit = checked i) (hw : i.wf = true) :
    decodeSlot stdView (enc op r ac bc x) lit = .ok i := by
  obtain ⟨e1, e2, e3, e4⟩ := enc_fields (op := op) hr ha hb hx
  exact slot_ok op ho (fOp_enc hr ha hb hx) ((hk _ e1 e2 e3 e4).trans (checked_wf hw))

/-- FI words read field by field. -/
theorem fi_slot {op r ac imm lit : Nat} {i : Instr} (ho : opAssigned op = true) (hr : r < 128) (ha : ac < 256)
    (hi : imm < 32768) (hk : ∀ w, fD w = r → fA w = ac → fld w 0 15 = imm → decOper op w lit = checked i)
    (hw : i.wf = true) : decodeSlot stdView (encI op r ac imm) lit = .ok i := by
  obtain ⟨e1, e2, e3⟩ := encI_fields (op := op) hr ha hi
  exact slot_ok op ho (fOp_encI hr ha hi) ((hk _ e1 e2 e3).trans (checked_wf hw))

theorem sysReg_lt {n : Nat} (h : sysRegWf n = true) : n < 32768 := by
  simp only [sysRegWf, List.contains_iff_mem, sysRegs, List.mem_cons, List.not_mem_nil, or_false] at h
  omega

/-- The M10 of a ladder form and its fields (R260). -/
theorem ladM_fields {lowh : Bool} {q c lo : Nat} (hq : q < 8) (h1 : 1 ≤ c) (hc : c ≤ 8) (hl : lo < 8) :
    ladM lowh q c lo < 1024 ∧ ladM lowh q c lo % 2 = lowh.toNat ∧ ladM lowh q c lo / 16 % 8 = q ∧
    ladM lowh q c lo / 2 % 8 + 1 = c ∧ ladM lowh q c lo / 128 = lo := by
  have := Bool.toNat_lt lowh
  simp only [ladM]; omega

theorem MPair.top_lt (p : MPair) : p.top < 8 := by cases p <;> decide

theorem ladder_slot {op lit q m c lo : Nat} {lowh hold : Bool} {p : MPair} {a : Src}
    {k : MPair → Bool → Nat → Nat → Nat → Src → Nat → Instr} (ho : opAssigned op = true)
    (hk : ∀ w, decOper op w lit = decLad w k p) (h : ladderWf p lowh hold q m c lo a = true)
    (hw : (k p lowh q m c a lo).wf = true) :
    decodeSlot stdView (encX op 0 a.code m (ladM lowh q c lo)) lit = .ok (k p lowh q m c a lo) := by
  simp only [ladderWf, Bool.and_eq_true, decide_eq_true_eq] at h
  obtain ⟨⟨⟨⟨⟨⟨⟨⟨⟨ha, hq⟩, hm⟩, h1⟩, hc⟩, -⟩, hl⟩, -⟩, -⟩, -⟩ := h
  have ht := p.top_lt
  obtain ⟨f0, f1, f2, f3, f4⟩ := ladM_fields (lowh := lowh) hq h1 hc (by omega : lo < 8)
  refine fx_slot ho (by decide) ha hm f0 (fun w e1 e2 e3 e4 => (hk w).trans ?_) hw
  simp only [decLad, fxa, e1, e2, e3, e4, f1, f2, f3, f4, toNat_beq_one, and_self, if_true]

theorem tilesWf_bounds {q c : Nat} (h : tilesWf q c = true) : q < 8 ∧ 1 ≤ c ∧ c ≤ 8 := by
  simp only [tilesWf, Bool.and_eq_true, decide_eq_true_eq] at h; omega

theorem Laws.WordRoundTrip.powerOnBoot (img : Image) (signatureOk : Bool) : Statement (.powerOnBoot img signatureOk) := roundTrip_event rfl rfl

theorem Laws.WordRoundTrip.negotiateAlgorithms (ecdsaP384 sha384 : Bool) : Statement (.negotiateAlgorithms ecdsaP384 sha384) := roundTrip_event rfl rfl

theorem Laws.WordRoundTrip.getCertificate (slot : Nat) : Statement (.getCertificate slot) := roundTrip_event rfl rfl

theorem Laws.WordRoundTrip.challenge (nonce : Nat) : Statement (.challenge nonce) := roundTrip_event rfl rfl

theorem Laws.WordRoundTrip.setepoch (fn : Nat) (t : DWord) : Statement (.setepoch fn t) := roundTrip_event rfl rfl

theorem Laws.WordRoundTrip.timepost (fn : Nat) (t delay : DWord) : Statement (.timepost fn t delay) := roundTrip_event rfl rfl

theorem Laws.WordRoundTrip.partcreate (fn : Nat) (args : List DWord) : Statement (.partcreate fn args) := roundTrip_event rfl rfl

theorem Laws.WordRoundTrip.partdestroy (fn part : Nat) : Statement (.partdestroy fn part) := roundTrip_event rfl rfl

theorem Laws.WordRoundTrip.calwrite (fn : Nat) (u : CalUnit) (entries : List Byte) : Statement (.calwrite fn u entries) := roundTrip_event rfl rfl

theorem Laws.WordRoundTrip.connwrite (fn port : Nat) (stks : Word) : Statement (.connwrite fn port stks) := roundTrip_event rfl rfl

theorem Laws.WordRoundTrip.ctxkill (fn ctx : Nat) : Statement (.ctxkill fn ctx) := roundTrip_event rfl rfl

theorem Laws.WordRoundTrip.ctxleave (fn ctx : Nat) : Statement (.ctxleave fn ctx) := roundTrip_event rfl rfl

theorem Laws.WordRoundTrip.ctxresume (fn ctx : Nat) : Statement (.ctxresume fn ctx) := roundTrip_event rfl rfl

theorem Laws.WordRoundTrip.ctxcreate (fn : Nat) (args : List DWord) : Statement (.ctxcreate fn args) := roundTrip_event rfl rfl

theorem Laws.WordRoundTrip.vdsetup (fn : Nat) (args : List DWord) : Statement (.vdsetup fn args) := roundTrip_event rfl rfl

theorem Laws.WordRoundTrip.pagereq (fn : Nat) (args : List DWord) (answer : Option (List DWord)) : Statement (.pagereq fn args answer) := roundTrip_event rfl rfl

theorem Laws.WordRoundTrip.powerStateChange (tgt : Power) : Statement (.powerStateChange tgt) := roundTrip_event rfl rfl

theorem Laws.WordRoundTrip.invStageWrite (fn off : Nat) (bytes : List Byte) : Statement (.invStageWrite fn off bytes) := roundTrip_event rfl rfl

theorem Laws.WordRoundTrip.invAllVdid (fn vdid : Nat) : Statement (.invAllVdid fn vdid) := roundTrip_event rfl rfl

theorem Laws.WordRoundTrip.invStage1Range (fn vdid size : Nat) (addr : DWord) : Statement (.invStage1Range fn vdid size addr) := roundTrip_event rfl rfl

theorem Laws.WordRoundTrip.invStage2Range (fn vdid size : Nat) (addr : DWord) : Statement (.invStage2Range fn vdid size addr) := roundTrip_event rfl rfl

theorem Laws.WordRoundTrip.invEveryVdid (fn : Nat) : Statement (.invEveryVdid fn) := roundTrip_event rfl rfl

theorem Laws.WordRoundTrip.invalComplete (fn : Nat) : Statement (.invalComplete fn) := roundTrip_event rfl rfl

theorem Laws.WordRoundTrip.stage2Retry (tag : Word) : Statement (.stage2Retry tag) := roundTrip_event rfl rfl

theorem Laws.WordRoundTrip.stage2Fatal (tag : Word) : Statement (.stage2Fatal tag) := roundTrip_event rfl rfl

theorem Laws.WordRoundTrip.ringDoorbell (fn ring : Nat) (tail : DWord) : Statement (.ringDoorbell fn ring tail) := roundTrip_event rfl rfl

theorem Laws.WordRoundTrip.hostAccess (a : ExtAcc) : Statement (.hostAccess a) := roundTrip_event rfl rfl

theorem Laws.WordRoundTrip.peerAccess (a : ExtAcc) : Statement (.peerAccess a) := roundTrip_event rfl rfl

theorem Laws.WordRoundTrip.timeSyncExchange (port : Nat) (sync delay : Nat × Nat) : Statement (.timeSyncExchange port sync delay) := roundTrip_event rfl rfl

theorem Laws.WordRoundTrip.brynrikLinkDown (port : Nat) : Statement (.brynrikLinkDown port) := roundTrip_event rfl rfl

theorem Laws.WordRoundTrip.peerAccessAbort (g acc : Nat) : Statement (.peerAccessAbort g acc) := roundTrip_event rfl rfl

theorem Laws.WordRoundTrip.throttle (part mhz : Nat) : Statement (.throttle part mhz) := roundTrip_event rfl rfl

theorem Laws.WordRoundTrip.throttleEnd (part : Nat) : Statement (.throttleEnd part) := roundTrip_event rfl rfl

theorem Laws.WordRoundTrip.patrolScrubError (pa : Nat) : Statement (.patrolScrubError pa) := roundTrip_event rfl rfl

theorem Laws.WordRoundTrip.fabricParityError (pa g : Nat) : Statement (.fabricParityError pa g) := roundTrip_event rfl rfl

theorem Laws.WordRoundTrip.admissionDecision (prefCores : List Nat) : Statement (.admissionDecision prefCores) := roundTrip_event rfl rfl

theorem Laws.WordRoundTrip.spanStart (l span : Nat) : Statement (.spanStart l span) := roundTrip_event rfl rfl

theorem Laws.WordRoundTrip.teamEnd (t : Nat) : Statement (.teamEnd t) := roundTrip_event rfl rfl

theorem Laws.WordRoundTrip.launchEnd (l : Nat) : Statement (.launchEnd l) := roundTrip_event rfl rfl

theorem Laws.WordRoundTrip.calendarSwitch (u : CalUnit) : Statement (.calendarSwitch u) := roundTrip_event rfl rfl

theorem Laws.WordRoundTrip.castlingSwap (core planes : Nat) : Statement (.castlingSwap core planes) := roundTrip_event rfl rfl

theorem Laws.WordRoundTrip.fumaroleLoad (core l : Nat) : Statement (.fumaroleLoad core l) := roundTrip_event rfl rfl

theorem Laws.WordRoundTrip.leaveForcedHalt (ctx : Nat) : Statement (.leaveForcedHalt ctx) := roundTrip_event rfl rfl

theorem Laws.WordRoundTrip.leaveKill (ctx : Nat) : Statement (.leaveKill ctx) := roundTrip_event rfl rfl

theorem Laws.WordRoundTrip.deadlineReached (l : Nat) : Statement (.deadlineReached l) := roundTrip_event rfl rfl

theorem Laws.WordRoundTrip.cutTimeReached (l : Nat) : Statement (.cutTimeReached l) := roundTrip_event rfl rfl

theorem Laws.WordRoundTrip.energyUpdate (l n : Nat) : Statement (.energyUpdate l n) := roundTrip_event rfl rfl

theorem Laws.WordRoundTrip.cutRecordUpdate (l : Nat) : Statement (.cutRecordUpdate l) := roundTrip_event rfl rfl

theorem Laws.WordRoundTrip.passCommit (l h : Nat) : Statement (.passCommit l h) := roundTrip_event rfl rfl

theorem Laws.WordRoundTrip.vbeginRetry (g sp : Nat) : Statement (.vbeginRetry g sp) := roundTrip_event rfl rfl

theorem Laws.WordRoundTrip.vwaitWake (g sp : Nat) : Statement (.vwaitWake g sp) := roundTrip_event rfl rfl

theorem Laws.WordRoundTrip.faultHandlerLaunch (die ctx : Nat) : Statement (.faultHandlerLaunch die ctx) := roundTrip_event rfl rfl

theorem Laws.WordRoundTrip.logReplay (g entry : Nat) : Statement (.logReplay g entry) := roundTrip_event rfl rfl

theorem Laws.WordRoundTrip.trapDelivery (g sp : Nat) : Statement (.trapDelivery g sp) := roundTrip_event rfl rfl

theorem Laws.WordRoundTrip.lateCauseDelivery (g sp : Nat) : Statement (.lateCauseDelivery g sp) := roundTrip_event rfl rfl

theorem Laws.WordRoundTrip.illegalOpcode (op : Nat) : Statement (.illegalOpcode op) := roundTrip_event rfl rfl

theorem Laws.WordRoundTrip.heldArrival (g acc : Nat) : Statement (.heldArrival g acc) := roundTrip_event rfl rfl

theorem Laws.WordRoundTrip.holdRelease (home : Nat) : Statement (.holdRelease home) := roundTrip_event rfl rfl

theorem Laws.WordRoundTrip.loadReturn (g acc : Nat) (parts : List Nat) : Statement (.loadReturn g acc parts) := roundTrip_event rfl rfl

theorem Laws.WordRoundTrip.replicaUpdate (die line : Nat) : Statement (.replicaUpdate die line) := roundTrip_event rfl rfl

theorem Laws.WordRoundTrip.regionWriteback (t region line : Nat) : Statement (.regionWriteback t region line) := roundTrip_event rfl rfl

theorem Laws.WordRoundTrip.copyComplete (g slot n : Nat) : Statement (.copyComplete g slot n) := roundTrip_event rfl rfl

theorem Laws.WordRoundTrip.cwaitWake (g sp : Nat) : Statement (.cwaitWake g sp) := roundTrip_event rfl rfl

theorem Laws.WordRoundTrip.barwWake (g sp : Nat) : Statement (.barwWake g sp) := roundTrip_event rfl rfl

theorem Laws.WordRoundTrip.tsyncWake (g sp : Nat) : Statement (.tsyncWake g sp) := roundTrip_event rfl rfl

theorem Laws.WordRoundTrip.joinWake (g sp : Nat) : Statement (.joinWake g sp) := roundTrip_event rfl rfl

theorem Laws.WordRoundTrip.twaitExpiry (g sp : Nat) : Statement (.twaitExpiry g sp) := roundTrip_event rfl rfl

theorem Laws.WordRoundTrip.exitComplete (g sp : Nat) : Statement (.exitComplete g sp) := roundTrip_event rfl rfl

theorem Laws.WordRoundTrip.slowPathCommit (g i : Nat) : Statement (.slowPathCommit g i) := roundTrip_event rfl rfl

theorem Laws.WordRoundTrip.sliceStep (g : Nat) : Statement (.sliceStep g) := roundTrip_event rfl rfl

theorem Laws.WordRoundTrip.launchPacket (fe addr : Nat) : Statement (.launchPacket fe addr) := roundTrip_event rfl rfl

theorem Laws.WordRoundTrip.beginPacket (fe addr : Nat) : Statement (.beginPacket fe addr) := roundTrip_event rfl rfl

theorem Laws.WordRoundTrip.commitPacket (fe addr : Nat) : Statement (.commitPacket fe addr) := roundTrip_event rfl rfl

theorem Laws.WordRoundTrip.waitPacket (fe addr : Nat) : Statement (.waitPacket fe addr) := roundTrip_event rfl rfl

theorem Laws.WordRoundTrip.signalPacket (fe addr : Nat) : Statement (.signalPacket fe addr) := roundTrip_event rfl rfl

theorem Laws.WordRoundTrip.indirectPacket (fe addr : Nat) : Statement (.indirectPacket fe addr) := roundTrip_event rfl rfl

theorem Laws.WordRoundTrip.rfet (d s : Nat) : Statement (.rfet d s) :=
  roundTrip_front rfl fun w => by
    have h : (decide (d < 32) && decide (s < 32)) = true := w
    simp only [Bool.and_eq_true, decide_eq_true_eq] at h
    obtain ⟨e1, e2, e3, e4, e5, e6⟩ := rtype_fields (by decide : 0 < 8) h.1 h.2 (by decide : 0 < 32)
    show decodeFront (rtype 0 d s 0) = _
    simp only [decodeFront, e1, e2, e3, e4, e5, e6, and_self, if_true]

theorem Laws.WordRoundTrip.xbfx (d s t : Nat) : Statement (.xbfx d s t) :=
  roundTrip_front rfl fun w => by
    have h : (decide (d < 32) && decide (s < 32) && decide (t < 32)) = true := w
    simp only [Bool.and_eq_true, decide_eq_true_eq] at h
    obtain ⟨e1, e2, e3, e4, e5, e6⟩ := rtype_fields (by decide : 1 < 8) h.1.1 h.1.2 h.2
    show decodeFront (rtype 1 d s t) = _
    simp only [decodeFront, e1, e2, e3, e4, e5, e6, and_self, if_true]

theorem Laws.WordRoundTrip.swait (d s t : Nat) : Statement (.swait d s t) :=
  roundTrip_front rfl fun w => by
    have h : (decide (d < 32) && decide (s < 32) && decide (t < 32)) = true := w
    simp only [Bool.and_eq_true, decide_eq_true_eq] at h
    obtain ⟨e1, e2, e3, e4, e5, e6⟩ := rtype_fields (by decide : 2 < 8) h.1.1 h.1.2 h.2
    show decodeFront (rtype 2 d s t) = _
    simp only [decodeFront, e1, e2, e3, e4, e5, e6, and_self, if_true]

theorem Laws.WordRoundTrip.xdisp (d s : Nat) : Statement (.xdisp d s) :=
  roundTrip_front rfl fun w => by
    have h : (decide (d < 32) && decide (s < 32)) = true := w
    simp only [Bool.and_eq_true, decide_eq_true_eq] at h
    obtain ⟨e1, e2, e3, e4, e5, e6⟩ := rtype_fields (by decide : 3 < 8) h.1 h.2 (by decide : 0 < 32)
    show decodeFront (rtype 3 d s 0) = _
    simp only [decodeFront, e1, e2, e3, e4, e5, e6, and_self, if_true]

theorem Laws.WordRoundTrip.bra (off : Int) : Statement (.bra off) :=
  roundTrip_slot rfl fun w => by
    have h : (inSigned 22 off) = true := w
    exact fbz_slot rfl (fun _ => rfl) h w

theorem Laws.WordRoundTrip.bnz (a : Src) (off : Int) : Statement (.bnz a off) :=
  roundTrip_slot rfl fun w => by
    have h : (a.wf && inSigned 22 off) = true := w
    simp only [Bool.and_eq_true] at h
    exact fb_slot rfl (fun _ => rfl) h.1 h.2 w

theorem Laws.WordRoundTrip.bz (a : Src) (off : Int) : Statement (.bz a off) :=
  roundTrip_slot rfl fun w => by
    have h : (a.wf && inSigned 22 off) = true := w
    simp only [Bool.and_eq_true] at h
    exact fb_slot rfl (fun _ => rfl) h.1 h.2 w

theorem Laws.WordRoundTrip.bdv (off : Int) : Statement (.bdv off) :=
  roundTrip_slot rfl fun w => by
    have h : (inSigned 22 off) = true := w
    exact fbz_slot rfl (fun _ => rfl) h w

theorem Laws.WordRoundTrip.jpt (a : Src) (n : Nat) : Statement (.jpt a n) :=
  roundTrip_slot rfl fun w => by
    have h : (a.wf && decide (1 ≤ n) && decide (n ≤ 128)) = true := w
    simp only [Bool.and_eq_true, decide_eq_true_eq] at h
    obtain ⟨k, rfl⟩ : ∃ k, n = k + 1 := ⟨n - 1, by omega⟩
    exact f2s_slot (op := 0x005) (x := k) (k := fun a => .jpt a (k + 1)) rfl (by omega) (fun w e => by subst e; rfl)
      h.1.1 w

theorem Laws.WordRoundTrip.bix (a : Src) : Statement (.bix a) :=
  roundTrip_slot rfl fun w => by
    have h : (a.wf) = true := w
    exact f2s_slot rfl (by decide) (fun _ _ => rfl) h w

theorem Laws.WordRoundTrip.call (off : Int) : Statement (.call off) :=
  roundTrip_slot rfl fun w => by
    have h : (inSigned 22 off) = true := w
    exact fbz_slot rfl (fun _ => rfl) h w

theorem Laws.WordRoundTrip.trap (n : Nat) : Statement (.trap n) :=
  roundTrip_slot rfl fun w => by
    have h : (decide (n < 16384)) = true := w
    simp only [decide_eq_true_eq] at h
    exact fi_slot (op := 0x010) rfl (by decide) (by decide) (by omega)
      (fun w e1 e2 e3 => by simp [decOper, decCtl, e1, e2, e3]) w

theorem Laws.WordRoundTrip.tret (next : Bool) : Statement (.tret next) :=
  roundTrip_slot rfl fun w => by
    cases next <;> exact fxz_slot (op := 0x011) rfl (by decide) fun w e => by simp [decOper, decCtl, e]

theorem Laws.WordRoundTrip.srd (d : Dst) (reg : Nat) : Statement (.srd d reg) :=
  roundTrip_slot rfl fun w => by
    have h : (d.wf && sysRegWf reg) = true := w
    simp only [Bool.and_eq_true] at h
    exact fi_slot (op := 0x012) rfl (d.code_lt h.1) (by decide) (sysReg_lt h.2)
      (fun w e1 e2 e3 => by simp [decOper, decCtl, e1, e2, e3, decDst_code d h.1]) w

theorem Laws.WordRoundTrip.swr (reg : Nat) (a : Src) : Statement (.swr reg a) :=
  roundTrip_slot rfl fun w => by
    have h : (a.wf && sysRegWf reg) = true := w
    simp only [Bool.and_eq_true] at h
    exact fi_slot (op := 0x013) rfl (by decide) (a.code_lt h.1) (sysReg_lt h.2)
      (fun w e1 e2 e3 => by simp [decOper, decCtl, e1, e2, e3, decSrc_code a h.1]) w

theorem Laws.WordRoundTrip.pfdoneReplay (lane : Nat) : Statement (.pfdoneReplay lane) := roundTrip_event rfl rfl

theorem Laws.WordRoundTrip.pfdoneAbort (lane : Nat) : Statement (.pfdoneAbort lane) := roundTrip_event rfl rfl

theorem Laws.WordRoundTrip.mapidWrite (w : Word) : Statement (.mapidWrite w) := roundTrip_event rfl rfl

theorem Laws.WordRoundTrip.dtdataWrite (w : Word) : Statement (.dtdataWrite w) := roundTrip_event rfl rfl

theorem Laws.WordRoundTrip.bkpt (n : Nat) : Statement (.bkpt n) :=
  roundTrip_slot rfl fun w => by
    have h : (decide (n < 16384)) = true := w
    simp only [decide_eq_true_eq] at h
    exact fi_slot (op := 0x015) rfl (by decide) (by decide) (by omega)
      (fun w e1 e2 e3 => by simp [decOper, decCtl, e1, e2, e3]) w

theorem Laws.WordRoundTrip.fltrd (f : FltK) (d : Dst) : Statement (.fltrd f d) :=
  roundTrip_slot rfl fun w => by
    have h : (d.voWf) = true := w
    cases f <;> exact f2z_slot (op := 0x016) rfl (by decide) (fun w e => by simp [decOper, decCtl, e, FltK.code])
      (Dst.wf_of_vo h) w

theorem Laws.WordRoundTrip.iadd (d : Dst) (a b : Src) : Statement (.iadd d a b) :=
  roundTrip_slot rfl fun w => by
    have h : (d.wf && a.wf && b.wf) = true := w
    simp only [Bool.and_eq_true] at h
    exact f2_slot (op := 0x080) rfl (by decide) (fun _ => rfl) h.1.1 h.1.2 h.2 w

theorem Laws.WordRoundTrip.isub (d : Dst) (a b : Src) : Statement (.isub d a b) :=
  roundTrip_slot rfl fun w => by
    have h : (d.wf && a.wf && b.wf) = true := w
    simp only [Bool.and_eq_true] at h
    exact f2_slot (op := 0x081) rfl (by decide) (fun _ => rfl) h.1.1 h.1.2 h.2 w

theorem Laws.WordRoundTrip.iadds (sg : Sgn) (d : Dst) (a b : Src) : Statement (.iadds sg d a b) :=
  roundTrip_slot rfl fun w => by
    have h : (d.wf && a.wf && b.wf) = true := w
    simp only [Bool.and_eq_true] at h
    cases sg <;> exact f2_slot rfl (by decide) (fun _ => rfl) h.1.1 h.1.2 h.2 w

theorem Laws.WordRoundTrip.isubs (sg : Sgn) (d : Dst) (a b : Src) : Statement (.isubs sg d a b) :=
  roundTrip_slot rfl fun w => by
    have h : (d.wf && a.wf && b.wf) = true := w
    simp only [Bool.and_eq_true] at h
    cases sg <;> exact f2_slot rfl (by decide) (fun _ => rfl) h.1.1 h.1.2 h.2 w

theorem Laws.WordRoundTrip.imul (d : Dst) (a b : Src) : Statement (.imul d a b) :=
  roundTrip_slot rfl fun w => by
    have h : (d.wf && a.wf && b.wf) = true := w
    simp only [Bool.and_eq_true] at h
    exact f2_slot (op := 0x086) rfl (by decide) (fun _ => rfl) h.1.1 h.1.2 h.2 w

theorem Laws.WordRoundTrip.imulh (sg : Sgn) (d : Dst) (a b : Src) : Statement (.imulh sg d a b) :=
  roundTrip_slot rfl fun w => by
    have h : (d.wf && a.wf && b.wf) = true := w
    simp only [Bool.and_eq_true] at h
    cases sg <;> exact f2_slot rfl (by decide) (fun _ => rfl) h.1.1 h.1.2 h.2 w

theorem Laws.WordRoundTrip.imad (d : Dst) (a b : Src) (c : CSrc) : Statement (.imad d a b c) :=
  roundTrip_slot rfl fun w => by
    have h : (d.wf && a.wf && b.wf && c.wf) = true := w
    simp only [Bool.and_eq_true] at h
    exact f3_slot rfl (fun _ => rfl) h.1.1.1 h.1.1.2 h.1.2 h.2 w

theorem Laws.WordRoundTrip.imin (sg : Sgn) (d : Dst) (a b : Src) : Statement (.imin sg d a b) :=
  roundTrip_slot rfl fun w => by
    have h : (d.wf && a.wf && b.wf) = true := w
    simp only [Bool.and_eq_true] at h
    cases sg <;> exact f2_slot rfl (by decide) (fun _ => rfl) h.1.1 h.1.2 h.2 w

theorem Laws.WordRoundTrip.imax (sg : Sgn) (d : Dst) (a b : Src) : Statement (.imax sg d a b) :=
  roundTrip_slot rfl fun w => by
    have h : (d.wf && a.wf && b.wf) = true := w
    simp only [Bool.and_eq_true] at h
    cases sg <;> exact f2_slot rfl (by decide) (fun _ => rfl) h.1.1 h.1.2 h.2 w

theorem Laws.WordRoundTrip.iabs (d : Dst) (a : Src) : Statement (.iabs d a) :=
  roundTrip_slot rfl fun w => by
    have h : (d.wf && a.wf) = true := w
    simp only [Bool.and_eq_true] at h
    exact f2u_slot rfl (by decide) (fun _ _ => rfl) h.1 h.2 w

theorem Laws.WordRoundTrip.ineg (d : Dst) (a : Src) : Statement (.ineg d a) :=
  roundTrip_slot rfl fun w => by
    have h : (d.wf && a.wf) = true := w
    simp only [Bool.and_eq_true] at h
    exact f2u_slot rfl (by decide) (fun _ _ => rfl) h.1 h.2 w

theorem Laws.WordRoundTrip.idot4 (f : DotF) (d : Dst) (a b : Src) (c : CSrc) : Statement (.idot4 f d a b c) :=
  roundTrip_slot rfl fun w => by
    have h : (d.wf && a.wf && b.wf && c.wf) = true := w
    simp only [Bool.and_eq_true] at h
    cases f <;> exact f3_slot rfl (fun _ => rfl) h.1.1.1 h.1.1.2 h.1.2 h.2 w

theorem Laws.WordRoundTrip.and (d : Dst) (a b : Src) : Statement (.and d a b) :=
  roundTrip_slot rfl fun w => by
    have h : (d.wf && a.wf && b.wf) = true := w
    simp only [Bool.and_eq_true] at h
    exact f2_slot (op := 0x094) rfl (by decide) (fun _ => rfl) h.1.1 h.1.2 h.2 w

theorem Laws.WordRoundTrip.or (d : Dst) (a b : Src) : Statement (.or d a b) :=
  roundTrip_slot rfl fun w => by
    have h : (d.wf && a.wf && b.wf) = true := w
    simp only [Bool.and_eq_true] at h
    exact f2_slot (op := 0x095) rfl (by decide) (fun _ => rfl) h.1.1 h.1.2 h.2 w

theorem Laws.WordRoundTrip.xor (d : Dst) (a b : Src) : Statement (.xor d a b) :=
  roundTrip_slot rfl fun w => by
    have h : (d.wf && a.wf && b.wf) = true := w
    simp only [Bool.and_eq_true] at h
    exact f2_slot (op := 0x096) rfl (by decide) (fun _ => rfl) h.1.1 h.1.2 h.2 w

theorem Laws.WordRoundTrip.andn (d : Dst) (a b : Src) : Statement (.andn d a b) :=
  roundTrip_slot rfl fun w => by
    have h : (d.wf && a.wf && b.wf) = true := w
    simp only [Bool.and_eq_true] at h
    exact f2_slot (op := 0x097) rfl (by decide) (fun _ => rfl) h.1.1 h.1.2 h.2 w

theorem Laws.WordRoundTrip.shl (d : Dst) (a b : Src) : Statement (.shl d a b) :=
  roundTrip_slot rfl fun w => by
    have h : (d.wf && a.wf && b.wf) = true := w
    simp only [Bool.and_eq_true] at h
    exact f2_slot (op := 0x098) rfl (by decide) (fun _ => rfl) h.1.1 h.1.2 h.2 w

theorem Laws.WordRoundTrip.shr (d : Dst) (a b : Src) : Statement (.shr d a b) :=
  roundTrip_slot rfl fun w => by
    have h : (d.wf && a.wf && b.wf) = true := w
    simp only [Bool.and_eq_true] at h
    exact f2_slot (op := 0x099) rfl (by decide) (fun _ => rfl) h.1.1 h.1.2 h.2 w

theorem Laws.WordRoundTrip.sar (d : Dst) (a b : Src) : Statement (.sar d a b) :=
  roundTrip_slot rfl fun w => by
    have h : (d.wf && a.wf && b.wf) = true := w
    simp only [Bool.and_eq_true] at h
    exact f2_slot (op := 0x09A) rfl (by decide) (fun _ => rfl) h.1.1 h.1.2 h.2 w

theorem Laws.WordRoundTrip.rotl (d : Dst) (a b : Src) : Statement (.rotl d a b) :=
  roundTrip_slot rfl fun w => by
    have h : (d.wf && a.wf && b.wf) = true := w
    simp only [Bool.and_eq_true] at h
    exact f2_slot (op := 0x09B) rfl (by decide) (fun _ => rfl) h.1.1 h.1.2 h.2 w

theorem Laws.WordRoundTrip.bfe (sgn : Bool) (d : Dst) (a : Src) (pos len : Nat) : Statement (.bfe sgn d a pos len) :=
  roundTrip_slot rfl fun w => by
    have h : (d.wf && a.wf && decide (1 ≤ len) && decide (pos + len ≤ 32)) = true := w
    simp only [Bool.and_eq_true, decide_eq_true_eq] at h
    obtain ⟨⟨⟨hd, ha⟩, h1⟩, h2⟩ := h
    have hi : pos + 32 * (len - 1) < 32768 := by omega
    have key : ∀ w s, fD w = d.code → fA w = a.code → fld w 0 15 = pos + 32 * (len - 1) →
        decInt.decBfe w s = checked (.bfe s d a pos len) := by
      intro w s e1 e2 e3
      have e4 : fld w 10 5 = 0 := by simp only [fld] at e3 ⊢; omega
      have e5 : fld w 0 5 = pos := by simp only [fld] at e3 ⊢; omega
      have e6 : fld w 5 5 + 1 = len := by simp only [fld] at e3 ⊢; omega
      simp only [decInt.decBfe, e1, e2, decDst_code d hd, decSrc_code a ha, e4, e5, e6, if_true]
    cases sgn with
    | false => exact fi_slot (op := 0x09C) rfl (d.code_lt hd) (a.code_lt ha) hi (fun w e1 e2 e3 => key w _ e1 e2 e3) w
    | true => exact fi_slot (op := 0x09D) rfl (d.code_lt hd) (a.code_lt ha) hi (fun w e1 e2 e3 => key w _ e1 e2 e3) w

theorem Laws.WordRoundTrip.bfi (d : Dst) (a b : Src) (c : CSrc) : Statement (.bfi d a b c) :=
  roundTrip_slot rfl fun w => by
    have h : (d.wf && a.wf && b.wf && c.wf) = true := w
    simp only [Bool.and_eq_true] at h
    exact f3_slot rfl (fun _ => rfl) h.1.1.1 h.1.1.2 h.1.2 h.2 w

theorem Laws.WordRoundTrip.popc (d : Dst) (a : Src) : Statement (.popc d a) :=
  roundTrip_slot rfl fun w => by
    have h : (d.wf && a.wf) = true := w
    simp only [Bool.and_eq_true] at h
    exact f2u_slot rfl (by decide) (fun _ _ => rfl) h.1 h.2 w

theorem Laws.WordRoundTrip.clz (d : Dst) (a : Src) : Statement (.clz d a) :=
  roundTrip_slot rfl fun w => by
    have h : (d.wf && a.wf) = true := w
    simp only [Bool.and_eq_true] at h
    exact f2u_slot rfl (by decide) (fun _ _ => rfl) h.1 h.2 w

theorem Laws.WordRoundTrip.brev (d : Dst) (a : Src) : Statement (.brev d a) :=
  roundTrip_slot rfl fun w => by
    have h : (d.wf && a.wf) = true := w
    simp only [Bool.and_eq_true] at h
    exact f2u_slot rfl (by decide) (fun _ _ => rfl) h.1 h.2 w

theorem Laws.WordRoundTrip.icmp (cc : ICc) (d : Dst) (a b : Src) : Statement (.icmp cc d a b) :=
  roundTrip_slot rfl fun w => by
    have h : (d.wf && a.wf && b.wf) = true := w
    simp only [Bool.and_eq_true] at h
    cases cc <;> exact f2_slot rfl (by decide) (fun _ => rfl) h.1.1 h.1.2 h.2 w

theorem Laws.WordRoundTrip.sel (d : Dst) (a b : Src) (kn : Nat) : Statement (.sel d a b kn) :=
  roundTrip_slot rfl fun w => by
    have h : (d.wf && a.wf && b.wf && decide (kn < 8)) = true := w
    simp only [Bool.and_eq_true, decide_eq_true_eq] at h
    obtain ⟨⟨⟨hd, ha⟩, hb⟩, hn⟩ := h
    have key : ∀ x, decOper 0x0AC x 0 = if fC x < 8 then f2 x (fC x) fun d a b => .sel d a b (fC x) else none :=
      fun _ => rfl
    exact f_slot (op := 0x0AC) rfl (d.code_lt hd) (a.code_lt ha) (b.code_lt hb) (by omega)
      (fun w e1 e2 e3 e4 => (key w).trans (by
        simp only [f2, e1, e2, e3, e4, hn, decDst_code d hd, decSrc_code a ha, decSrc_code b hb, if_true])) w

theorem Laws.WordRoundTrip.mov (d : Dst) (a : Src) : Statement (.mov d a) :=
  roundTrip_slot rfl fun w => by
    have h : (d.wf && a.wf) = true := w
    simp only [Bool.and_eq_true] at h
    exact f2u_slot rfl (by decide) (fun _ _ => rfl) h.1 h.2 w

theorem Laws.WordRoundTrip.movi (d : Dst) (e : Int) : Statement (.movi d e) :=
  roundTrip_slot rfl fun w => by
    have h : (d.wf && inSigned 23 e) = true := w
    simp only [Bool.and_eq_true] at h
    have hi := unsext_lt 23 e
    have key : ∀ x, decOper 0x0AE x 0 = match decDst (fD x) with
        | some d => checked (.movi d (sext 23 (fld x 0 23)))
        | none => none := fun _ => rfl
    refine slot_ok (w := encL 0x0AE d.code (unsext 23 e)) 0x0AE rfl (fOp_encL (d.code_lt h.1) hi) ((key _).trans ?_)
    simp only [fD_encL (d.code_lt h.1) hi, fI_encL hi, decDst_code d h.1, sext_unsext 23 (by decide) e h.2]
    exact checked_wf w

theorem Laws.WordRoundTrip.limm (d : Dst) (lit : Nat) : Statement (.limm d lit) :=
  roundTrip_slot rfl fun w => by
    have h : (d.wf && decide (lit < 2 ^ 40)) = true := w
    simp only [Bool.and_eq_true, decide_eq_true_eq] at h
    have hi : 0 < 2 ^ 23 := by decide
    have key : ∀ x l, decOper 0x0AF x l = match decDst (fD x) with
        | some d => if fld x 0 23 = 0 then checked (.limm d l) else none
        | none => none := fun _ _ => rfl
    refine slot_ok (w := encL 0x0AF d.code 0) 0x0AF rfl (fOp_encL (d.code_lt h.1) hi) ((key _ _).trans ?_)
    simp only [fD_encL (d.code_lt h.1) hi, fI_encL hi, decDst_code d h.1, if_true]
    exact checked_wf w

theorem Laws.WordRoundTrip.fadd (f : FBlk) (r : RSel) (d : Dst) (a b : Src) : Statement (.fadd f r d a b) :=
  roundTrip_slot rfl fun w => by
    have h : (d.wf && a.wf && b.wf) = true := w
    simp only [Bool.and_eq_true] at h
    cases f <;> exact f2r_slot rfl (fun _ => rfl) h.1.1 h.1.2 h.2 w

theorem Laws.WordRoundTrip.fsub (f : FBlk) (r : RSel) (d : Dst) (a b : Src) : Statement (.fsub f r d a b) :=
  roundTrip_slot rfl fun w => by
    have h : (d.wf && a.wf && b.wf) = true := w
    simp only [Bool.and_eq_true] at h
    cases f <;> exact f2r_slot rfl (fun _ => rfl) h.1.1 h.1.2 h.2 w

theorem Laws.WordRoundTrip.fmul (f : FBlk) (r : RSel) (d : Dst) (a b : Src) : Statement (.fmul f r d a b) :=
  roundTrip_slot rfl fun w => by
    have h : (d.wf && a.wf && b.wf) = true := w
    simp only [Bool.and_eq_true] at h
    cases f <;> exact f2r_slot rfl (fun _ => rfl) h.1.1 h.1.2 h.2 w

theorem Laws.WordRoundTrip.ffma (f : FBlk) (d : Dst) (a b : Src) (c : CSrc) : Statement (.ffma f d a b c) :=
  roundTrip_slot rfl fun w => by
    have h : (d.wf && a.wf && b.wf && c.wf) = true := w
    simp only [Bool.and_eq_true] at h
    cases f <;> exact f3_slot rfl (fun _ => rfl) h.1.1.1 h.1.1.2 h.1.2 h.2 w

theorem Laws.WordRoundTrip.fmin (f : FBlk) (d : Dst) (a b : Src) : Statement (.fmin f d a b) :=
  roundTrip_slot rfl fun w => by
    have h : (d.wf && a.wf && b.wf) = true := w
    simp only [Bool.and_eq_true] at h
    cases f <;> exact f2_slot rfl (by decide) (fun _ => rfl) h.1.1 h.1.2 h.2 w

theorem Laws.WordRoundTrip.fmax (f : FBlk) (d : Dst) (a b : Src) : Statement (.fmax f d a b) :=
  roundTrip_slot rfl fun w => by
    have h : (d.wf && a.wf && b.wf) = true := w
    simp only [Bool.and_eq_true] at h
    cases f <;> exact f2_slot rfl (by decide) (fun _ => rfl) h.1.1 h.1.2 h.2 w

theorem Laws.WordRoundTrip.fcmp (f : FBlk) (cc : FCc) (d : Dst) (a b : Src) : Statement (.fcmp f cc d a b) :=
  roundTrip_slot rfl fun w => by
    have h : (a.wf && b.wf && (if f = .f32 then d.wf else d.voWf)) = true := w
    simp only [Bool.and_eq_true] at h
    have hd : d.wf = true := by
      have := h.2
      split at this
      · exact this
      · exact Dst.wf_of_vo this
    cases f <;> cases cc <;> exact f2_slot rfl (by decide) (fun _ => rfl) hd h.1.1 h.1.2 w

theorem Laws.WordRoundTrip.fclass (f : FBlk) (d : Dst) (a : Src) : Statement (.fclass f d a) :=
  roundTrip_slot rfl fun w => by
    have h : (d.wf && a.wf) = true := w
    simp only [Bool.and_eq_true] at h
    cases f <;> exact f2u_slot rfl (by decide) (fun _ _ => rfl) h.1 h.2 w

theorem Laws.WordRoundTrip.fround (f : FBlk) (r : RSel) (d : Dst) (a : Src) : Statement (.fround f r d a) :=
  roundTrip_slot rfl fun w => by
    have h : (d.wf && a.wf) = true := w
    simp only [Bool.and_eq_true] at h
    cases f <;> exact f2ur_slot rfl (fun _ => rfl) h.1 h.2 w

theorem Laws.WordRoundTrip.fdiv (f : FBlk) (r : RSel) (d : Dst) (a b : Src) : Statement (.fdiv f r d a b) :=
  roundTrip_slot rfl fun w => by
    have h : (d.wf && a.wf && b.wf) = true := w
    simp only [Bool.and_eq_true] at h
    cases f <;> exact f2r_slot rfl (fun _ => rfl) h.1.1 h.1.2 h.2 w

theorem Laws.WordRoundTrip.fsqrt (f : FBlk) (r : RSel) (d : Dst) (a : Src) : Statement (.fsqrt f r d a) :=
  roundTrip_slot rfl fun w => by
    have h : (d.wf && a.wf) = true := w
    simp only [Bool.and_eq_true] at h
    cases f <;> exact f2ur_slot rfl (fun _ => rfl) h.1 h.2 w

theorem Laws.WordRoundTrip.frcp (f : FBlk) (r : RSel) (d : Dst) (a : Src) : Statement (.frcp f r d a) :=
  roundTrip_slot rfl fun w => by
    have h : (d.wf && a.wf) = true := w
    simp only [Bool.and_eq_true] at h
    cases f <;> exact f2ur_slot rfl (fun _ => rfl) h.1 h.2 w

theorem Laws.WordRoundTrip.frsq (f : FBlk) (r : RSel) (d : Dst) (a : Src) : Statement (.frsq f r d a) :=
  roundTrip_slot rfl fun w => by
    have h : (d.wf && a.wf) = true := w
    simp only [Bool.and_eq_true] at h
    cases f <;> exact f2ur_slot rfl (fun _ => rfl) h.1 h.2 w

theorem Laws.WordRoundTrip.fexp (f : FBlk) (r : RSel) (d : Dst) (a : Src) : Statement (.fexp f r d a) :=
  roundTrip_slot rfl fun w => by
    have h : (d.wf && a.wf) = true := w
    simp only [Bool.and_eq_true] at h
    cases f <;> exact f2ur_slot rfl (fun _ => rfl) h.1 h.2 w

theorem Laws.WordRoundTrip.fexp2 (f : FBlk) (r : RSel) (d : Dst) (a : Src) : Statement (.fexp2 f r d a) :=
  roundTrip_slot rfl fun w => by
    have h : (d.wf && a.wf) = true := w
    simp only [Bool.and_eq_true] at h
    cases f <;> exact f2ur_slot rfl (fun _ => rfl) h.1 h.2 w

theorem Laws.WordRoundTrip.flog (f : FBlk) (r : RSel) (d : Dst) (a : Src) : Statement (.flog f r d a) :=
  roundTrip_slot rfl fun w => by
    have h : (d.wf && a.wf) = true := w
    simp only [Bool.and_eq_true] at h
    cases f <;> exact f2ur_slot rfl (fun _ => rfl) h.1 h.2 w

theorem Laws.WordRoundTrip.flog2 (f : FBlk) (r : RSel) (d : Dst) (a : Src) : Statement (.flog2 f r d a) :=
  roundTrip_slot rfl fun w => by
    have h : (d.wf && a.wf) = true := w
    simp only [Bool.and_eq_true] at h
    cases f <;> exact f2ur_slot rfl (fun _ => rfl) h.1 h.2 w

theorem Laws.WordRoundTrip.fsin (f : FBlk) (r : RSel) (d : Dst) (a : Src) : Statement (.fsin f r d a) :=
  roundTrip_slot rfl fun w => by
    have h : (d.wf && a.wf) = true := w
    simp only [Bool.and_eq_true] at h
    cases f <;> exact f2ur_slot rfl (fun _ => rfl) h.1 h.2 w

theorem Laws.WordRoundTrip.fcos (f : FBlk) (r : RSel) (d : Dst) (a : Src) : Statement (.fcos f r d a) :=
  roundTrip_slot rfl fun w => by
    have h : (d.wf && a.wf) = true := w
    simp only [Bool.and_eq_true] at h
    cases f <;> exact f2ur_slot rfl (fun _ => rfl) h.1 h.2 w

theorem Laws.WordRoundTrip.ftanh (f : FBlk) (r : RSel) (d : Dst) (a : Src) : Statement (.ftanh f r d a) :=
  roundTrip_slot rfl fun w => by
    have h : (d.wf && a.wf) = true := w
    simp only [Bool.and_eq_true] at h
    cases f <;> exact f2ur_slot rfl (fun _ => rfl) h.1 h.2 w

theorem Laws.WordRoundTrip.twosum (d : Nat) (a b : Src) : Statement (.twosum d a b) :=
  roundTrip_slot rfl fun w => by
    have h : (decide (d ≤ 62) && a.wf && b.wf) = true := w
    simp only [Bool.and_eq_true, decide_eq_true_eq] at h
    exact f2p_slot rfl (fun _ => rfl) (by omega) h.1.2 h.2 w

theorem Laws.WordRoundTrip.twoprod (d : Nat) (a b : Src) : Statement (.twoprod d a b) :=
  roundTrip_slot rfl fun w => by
    have h : (decide (d ≤ 62) && a.wf && b.wf) = true := w
    simp only [Bool.and_eq_true, decide_eq_true_eq] at h
    exact f2p_slot rfl (fun _ => rfl) (by omega) h.1.2 h.2 w

theorem Laws.WordRoundTrip.padd (d : Nat) (a b : Src) : Statement (.padd d a b) :=
  roundTrip_slot rfl fun w => by
    have h : (decide (d ≤ 62) && a.vPairWf && b.vPairWf) = true := w
    simp only [Bool.and_eq_true, decide_eq_true_eq] at h
    exact f2p_slot rfl (fun _ => rfl) (by omega) (Src.wf_of_vPair h.1.2) (Src.wf_of_vPair h.2) w

theorem Laws.WordRoundTrip.pnorm (d : Nat) (a : Src) : Statement (.pnorm d a) :=
  roundTrip_slot rfl fun w => by
    have h : (decide (d ≤ 62) && a.vPairWf) = true := w
    simp only [Bool.and_eq_true, decide_eq_true_eq] at h
    have ha := Src.wf_of_vPair h.2
    exact f_slot (op := 0x163) rfl (by omega) (a.code_lt ha) (by decide) (by decide)
      (fun w e1 e2 e3 e4 => by simp [decOper, decFlt, e1, e2, e3, e4, decSrc_code a ha]) w

theorem Laws.WordRoundTrip.cvtTo (tgt : CvtF) (r : RSel) (d : Dst) (a : Src) : Statement (.cvtTo tgt r d a) :=
  roundTrip_slot rfl fun w => by
    have h : (d.wf && a.wf) = true := w
    simp only [Bool.and_eq_true] at h
    cases tgt <;> exact f2ur_slot rfl (fun _ => rfl) h.1 h.2 w

theorem Laws.WordRoundTrip.cvtFrom (fr : CvtF) (r : RSel) (d : Dst) (a : Src) : Statement (.cvtFrom fr r d a) :=
  roundTrip_slot rfl fun w => by
    have h : (d.wf && a.wf) = true := w
    simp only [Bool.and_eq_true] at h
    cases fr <;> exact f2ur_slot rfl (fun _ => rfl) h.1 h.2 w

theorem Laws.WordRoundTrip.qnt (f : QntF) (d : Dst) (a b : Src) (c : CSrc) : Statement (.qnt f d a b c) :=
  roundTrip_slot rfl fun w => by
    have h : (d.wf && a.wf && b.wf && c.wf) = true := w
    simp only [Bool.and_eq_true] at h
    cases f <;> exact f3_slot rfl (fun _ => rfl) h.1.1.1 h.1.1.2 h.1.2 h.2 w

theorem Laws.WordRoundTrip.dqnt (f : QntF) (d : Dst) (a b : Src) (c : CSrc) : Statement (.dqnt f d a b c) :=
  roundTrip_slot rfl fun w => by
    have h : (d.wf && a.wf && b.wf && c.wf) = true := w
    simp only [Bool.and_eq_true] at h
    cases f <;> exact f3_slot rfl (fun _ => rfl) h.1.1.1 h.1.1.2 h.1.2 h.2 w

theorem Laws.WordRoundTrip.pack (w : PackW) (d : Dst) (a b : Src) (c : CSrc) : Statement (.pack w d a b c) :=
  roundTrip_slot rfl fun hw => by
    have h : (d.wf && a.wf && b.wf && (if w = .b16 then c.unused else c.wf)) = true := hw
    simp only [Bool.and_eq_true] at h
    have hc : c.wf = true := by
      have := h.2
      split at this
      · exact CSrc.wf_of_unused this
      · exact this
    cases w <;> exact f3_slot rfl (fun _ => rfl) h.1.1.1 h.1.1.2 h.1.2 hc hw

theorem Laws.WordRoundTrip.unpk (t : UnpkT) (d : Dst) (a b : Src) : Statement (.unpk t d a b) :=
  roundTrip_slot rfl fun w => by
    have h : (d.wf && a.wf && b.wf) = true := w
    simp only [Bool.and_eq_true] at h
    cases t <;> exact f2_slot rfl (by decide) (fun _ => rfl) h.1.1 h.1.2 h.2 w

theorem Laws.WordRoundTrip.rnse (d : Dst) (a : Src) : Statement (.rnse d a) :=
  roundTrip_slot rfl fun w => by
    have h : (d.wf && a.wf) = true := w
    simp only [Bool.and_eq_true] at h
    exact f2u_slot rfl (by decide) (fun _ _ => rfl) h.1 h.2 w

theorem Laws.WordRoundTrip.rnsd (d : Dst) (a : Src) : Statement (.rnsd d a) :=
  roundTrip_slot rfl fun w => by
    have h : (d.wf && a.wf) = true := w
    simp only [Bool.and_eq_true] at h
    exact f2u_slot rfl (by decide) (fun _ _ => rfl) h.1 h.2 w

theorem Laws.WordRoundTrip.acvt (d : Dst) (a : Src) (anchor : Int) : Statement (.acvt d a anchor) :=
  roundTrip_slot rfl fun w => by
    have h : (d.wf && a.vQuadWf && inSigned 7 anchor) = true := w
    simp only [Bool.and_eq_true] at h
    have ha := Src.wf_of_vQuad h.1.2
    have hx : unsext 7 anchor < 128 := unsext_lt 7 anchor
    exact f_slot (op := 0x1A8) rfl (d.code_lt h.1.1) (a.code_lt ha) (by decide) hx
      (fun w e1 e2 e3 e4 => by
        simp [decOper, decCnv, f2u, e1, e2, e3, e4, decDst_code d h.1.1, decSrc_code a ha,
          sext_unsext 7 (by decide) anchor h.2]) w

theorem Laws.WordRoundTrip.perm (w : PermW) (d : Dst) (a b : Src) (c : CSrc) : Statement (.perm w d a b c) :=
  roundTrip_slot rfl fun hw => by
    have h : (d.wf && a.wf && b.wf && c.wf) = true := hw
    simp only [Bool.and_eq_true] at h
    cases w <;> exact f3_slot rfl (fun _ => rfl) h.1.1.1 h.1.1.2 h.1.2 h.2 hw

theorem Laws.WordRoundTrip.shfl (m : ShflM) (d : Dst) (a b : Src) (c : CSrc) : Statement (.shfl m d a b c) :=
  roundTrip_slot rfl fun w => by
    have h : (d.wf && a.wf && b.wf && c.wf) = true := w
    simp only [Bool.and_eq_true] at h
    cases m <;> exact f3_slot rfl (fun _ => rfl) h.1.1.1 h.1.1.2 h.1.2 h.2 w

theorem Laws.WordRoundTrip.bcast (d : Dst) (a b : Src) : Statement (.bcast d a b) :=
  roundTrip_slot rfl fun w => by
    have h : (d.wf && a.wf && b.wf) = true := w
    simp only [Bool.and_eq_true] at h
    exact f2_slot (op := 0x1B6) rfl (by decide) (fun _ => rfl) h.1.1 h.1.2 h.2 w

theorem Laws.WordRoundTrip.vote (m : VoteM) (d : Dst) (a : Src) : Statement (.vote m d a) :=
  roundTrip_slot rfl fun w => by
    have h : (d.wf && a.wf) = true := w
    simp only [Bool.and_eq_true] at h
    cases m <;> exact f2u_slot rfl (by decide) (fun _ _ => rfl) h.1 h.2 w

theorem Laws.WordRoundTrip.lred (op : LOp) (pair : Bool) (d : Dst) (a : Src) : Statement (.lred op pair d a) :=
  roundTrip_slot rfl fun w => by
    have h : (a.wf && d.wf && (!pair || (op.isFadd && Width.dstWf .w64 d))) = true := w
    simp only [Bool.and_eq_true] at h
    cases op <;> cases pair <;> exact f2u_slot rfl (by decide) (fun w e => by simp [decOper, decCnv, lops, e, LOp.code])
      h.1.2 h.1.1 w

theorem Laws.WordRoundTrip.lscan (op : LOp) (ex : Bool) (d : Dst) (a : Src) : Statement (.lscan op ex d a) :=
  roundTrip_slot rfl fun w => by
    have h : (d.wf && a.wf) = true := w
    simp only [Bool.and_eq_true] at h
    cases op <;> cases ex <;> exact f2u_slot rfl (by decide) (fun w e => by simp [decOper, decCnv, lops, e, LOp.code])
      h.1 h.2 w

theorem Laws.WordRoundTrip.shape (d : Dst) (a : Nat) : Statement (.shape d a) :=
  roundTrip_slot rfl fun w => by
    have h : (d.wf && decide (a < 64)) = true := w
    simp only [Bool.and_eq_true, decide_eq_true_eq] at h
    exact f_slot (op := 0x1D0) rfl (d.code_lt h.1) (by omega) (by decide) (by decide)
      (fun w e1 e2 e3 e4 => by
        have e5 : 2 * a / 2 = a := by omega
        simp [decOper, decCnv, e1, e2, e3, e4, decDst_code d h.1]) w

theorem Laws.WordRoundTrip.mkaff (d : Dst) (a b : Src) : Statement (.mkaff d a b) :=
  roundTrip_slot rfl fun w => by
    have h : (d.voWf && a.wf && b.wf) = true := w
    simp only [Bool.and_eq_true] at h
    exact f2_slot (op := 0x1D1) rfl (by decide) (fun _ => rfl) (Dst.wf_of_vo h.1.1) h.1.2 h.2 w

theorem Laws.WordRoundTrip.mkuni (chk : Bool) (d : Dst) (a : Src) : Statement (.mkuni chk d a) :=
  roundTrip_slot rfl fun w => by
    have h : (d.wf && a.wf) = true := w
    simp only [Bool.and_eq_true] at h
    cases chk <;> exact f2u_slot (op := 0x1D2) rfl (by decide) (fun w e => by simp [decOper, decCnv, e]) h.1 h.2 w

theorem Laws.WordRoundTrip.free (a n : Nat) : Statement (.free a n) :=
  roundTrip_slot rfl fun w => by
    have h : (decide (1 ≤ n) && decide (a + n ≤ 64)) = true := w
    simp only [Bool.and_eq_true, decide_eq_true_eq] at h
    exact f_slot (op := 0x1D3) rfl (by decide) (by omega) (by decide) (by omega)
      (fun w e1 e2 e3 e4 => by
        have e5 : n - 1 < 64 := by omega
        have e6 : n - 1 + 1 = n := by omega
        simp [decOper, decCnv, e1, e2, e3, e4, e5, e6]) w

theorem Laws.WordRoundTrip.regq (grp : Bool) (d : Dst) (a : Nat) : Statement (.regq grp d a) :=
  roundTrip_slot rfl fun w => by
    have h : (d.wf && (if grp then decide (a = 0) else decide (a < 64))) = true := w
    simp only [Bool.and_eq_true] at h
    have ha : a < 64 := by
      have := h.2
      split at this <;> simp only [decide_eq_true_eq] at this <;> omega
    cases grp <;> exact f_slot (op := 0x1D4) rfl (d.code_lt h.1) (by omega) (by decide) (by decide)
      (fun w e1 e2 e3 e4 => by simp [decOper, decCnv, e1, e2, e3, e4, decDst_code d h.1]) w

theorem Laws.WordRoundTrip.sfmt (imm : Option Nat) (a : Src) : Statement (.sfmt imm a) :=
  roundTrip_slot rfl fun w => by
    cases imm with
    | none =>
      have h : a.wf = true := w
      exact f2s_slot (op := 0x1D8) rfl (by decide)
        (fun w e => by simp [decOper, decCnv, decCnv.decImm, e]) h w
    | some n =>
      have h : (decide (n < 4) && a == ⟨.v 0, false⟩) = true := w
      simp only [Bool.and_eq_true, decide_eq_true_eq, beq_iff_eq] at h
      obtain ⟨hn, rfl⟩ := h
      exact f_slot (op := 0x1D8) rfl (by decide) (by decide) (by decide) (by omega)
        (fun w e1 e2 e3 e4 => by
          have h0 : decSrc 0 = some ⟨.v 0, false⟩ := rfl
          simp [decOper, decCnv, decCnv.decImm, f2s, e1, e2, e3, e4, h0]) w

theorem Laws.WordRoundTrip.gfmt (d : Dst) : Statement (.gfmt d) :=
  roundTrip_slot rfl fun w => by
    have h : (d.wf) = true := w
    exact f2z_slot rfl (by decide) (fun _ _ => rfl) h w

theorem Laws.WordRoundTrip.srnd (imm : Option Nat) (a : Src) : Statement (.srnd imm a) :=
  roundTrip_slot rfl fun w => by
    cases imm with
    | none =>
      have h : a.wf = true := w
      exact f2s_slot (op := 0x1DA) rfl (by decide)
        (fun w e => by simp [decOper, decCnv, decCnv.decImm, e]) h w
    | some n =>
      have h : (decide (n < 6) && a == ⟨.v 0, false⟩) = true := w
      simp only [Bool.and_eq_true, decide_eq_true_eq, beq_iff_eq] at h
      obtain ⟨hn, rfl⟩ := h
      exact f_slot (op := 0x1DA) rfl (by decide) (by decide) (by decide) (by omega)
        (fun w e1 e2 e3 e4 => by
          have h0 : decSrc 0 = some ⟨.v 0, false⟩ := rfl
          simp [decOper, decCnv, decCnv.decImm, f2s, e1, e2, e3, e4, h0]) w

theorem Laws.WordRoundTrip.grnd (d : Dst) : Statement (.grnd d) :=
  roundTrip_slot rfl fun w => by
    have h : (d.wf) = true := w
    exact f2z_slot rfl (by decide) (fun _ _ => rfl) h w

theorem Laws.WordRoundTrip.flags (d : Dst) : Statement (.flags d) :=
  roundTrip_slot rfl fun w => f2z_slot (op := 0x1DC) rfl (by decide) (fun w e => by simp [decOper, decCnv, e]) w w

theorem Laws.WordRoundTrip.flagsClr (d : Dst) (a : Src) : Statement (.flagsClr d a) :=
  roundTrip_slot rfl fun w => by
    have h : (d.wf && a.wf) = true := w
    simp only [Bool.and_eq_true] at h
    exact f2u_slot (op := 0x1DC) rfl (by decide) (fun w e => by simp [decOper, decCnv, e]) h.1 h.2 w

theorem Laws.WordRoundTrip.ld (w : Width) (d : Dst) (a : Src) (off : Int) : Statement (.ld w d a off) :=
  roundTrip_slot rfl fun hw => by
    have h : (w.dstWf d && a.pairWf && inSigned 12 off) = true := hw
    simp only [Bool.and_eq_true] at h
    exact fmLd_slot rfl (fun _ => rfl) (Dst.wf_of_width h.1.1) (Src.wf_of_pair h.1.2) h.2 hw

theorem Laws.WordRoundTrip.st (w : Width) (s : Nat) (a : Src) (off : Int) : Statement (.st w s a off) :=
  roundTrip_slot rfl fun hw => by
    have h : (w.dataWf s && a.pairWf && inSigned 12 off) = true := hw
    simp only [Bool.and_eq_true] at h
    exact fmSt_slot rfl (fun _ => rfl) (Width.data_lt h.1.1) (Src.wf_of_pair h.1.2) h.2 hw

theorem Laws.WordRoundTrip.lds (w : Width) (d : Dst) (a : Src) (off : Int) : Statement (.lds w d a off) :=
  roundTrip_slot rfl fun hw => by
    have h : (w.dstWf d && a.wf && inSigned 12 off) = true := hw
    simp only [Bool.and_eq_true] at h
    exact fmLd_slot rfl (fun _ => rfl) (Dst.wf_of_width h.1.1) h.1.2 h.2 hw

theorem Laws.WordRoundTrip.sts (w : Width) (s : Nat) (a : Src) (off : Int) : Statement (.sts w s a off) :=
  roundTrip_slot rfl fun hw => by
    have h : (w.dataWf s && a.wf && inSigned 12 off) = true := hw
    simp only [Bool.and_eq_true] at h
    exact fmSt_slot rfl (fun _ => rfl) (Width.data_lt h.1.1) h.1.2 h.2 hw

theorem Laws.WordRoundTrip.ldc (w : Width) (d : Dst) (a : Src) (off : Int) : Statement (.ldc w d a off) :=
  roundTrip_slot rfl fun hw => by
    have h : (w.dstWf d && a.wf && inSigned 12 off) = true := hw
    simp only [Bool.and_eq_true] at h
    exact fmLd_slot rfl (fun _ => rfl) (Dst.wf_of_width h.1.1) h.1.2 h.2 hw

theorem Laws.WordRoundTrip.stc (w : Width) (s : Nat) (a : Src) (off : Int) : Statement (.stc w s a off) :=
  roundTrip_slot rfl fun hw => by
    have h : (w.dataWf s && a.wf && inSigned 12 off) = true := hw
    simp only [Bool.and_eq_true] at h
    exact fmSt_slot rfl (fun _ => rfl) (Width.data_lt h.1.1) h.1.2 h.2 hw

theorem Laws.WordRoundTrip.ldUni (fm : AForm) (w : Width) (d : Dst) (a : Src) (off : Int) : Statement (.ldUni fm w d a off) :=
  roundTrip_slot rfl fun hw => by
    have h : (w.dstWf d && fm.addrWf a && inSigned 12 off) = true := hw
    simp only [Bool.and_eq_true] at h
    cases fm <;> exact fmLd_slot rfl (fun _ => rfl) (Dst.wf_of_width h.1.1) (AForm.src_wf h.1.2) h.2 hw

theorem Laws.WordRoundTrip.ldNb (fm : AForm) (w : Width) (rel : Bool) (d : Dst) (a t : Src) : Statement (.ldNb fm w rel d a t) :=
  roundTrip_slot rfl fun hw => by
    have h : (w.dstWf d && fm.addrWf a && timeWf rel t) = true := hw
    simp only [Bool.and_eq_true] at h
    have hd := Dst.wf_of_width h.1.1
    have ha := AForm.src_wf h.1.2
    have ht := wf_of_time h.2
    have hx : 8 * rel.toNat + w.code < 128 := by have := w.code_lt; have := Bool.toNat_lt rel; omega
    cases fm <;> exact slot_ok _ rfl (fOp_enc (d.code_lt hd) (a.code_lt ha) (t.code_lt ht) hx)
      ((ft_enc (d.code_lt hd) ha ht).trans (by simp only [decMem.decNb, decDst_code d hd, checked_wf hw]))

theorem Laws.WordRoundTrip.stVa (fm : AForm) (w : Width) (rel : Bool) (s : Nat) (a t : Src) : Statement (.stVa fm w rel s a t) :=
  roundTrip_slot rfl fun hw => by
    have h : (w.dataWf s && fm.addrWf a && timeWf rel t) = true := hw
    simp only [Bool.and_eq_true] at h
    have hd := Width.data_lt h.1.1
    have ha := AForm.src_wf h.1.2
    have ht := wf_of_time h.2
    have hx : 8 * rel.toNat + w.code < 128 := by have := w.code_lt; have := Bool.toNat_lt rel; omega
    have key : ∀ op, ft (enc op s a.code t.code (8 * rel.toNat + w.code))
        (fun sz rel d a t => checked (.stVa fm sz rel d a t)) = some (.stVa fm w rel s a t) :=
      fun op => (ft_enc hd ha ht).trans (checked_wf hw)
    cases fm <;> exact slot_ok _ rfl (fOp_enc hd (a.code_lt ha) (t.code_lt ht) hx) (key _)

theorem Laws.WordRoundTrip.ldAcq (fm : AForm) (w : Width) (sc : Scope) (d : Dst) (a : Src) : Statement (.ldAcq fm w sc d a) :=
  roundTrip_slot rfl fun hw => by
    have h : (w.dstWf d && fm.addrWf a) = true := hw
    simp only [Bool.and_eq_true] at h
    have hc := w.code_lt
    have hs := sc.code_lt
    have e1 : (8 * sc.code + w.code) % 8 = w.code := by omega
    have e2 : (8 * sc.code + w.code) / 8 = sc.code := by omega
    have key : ∀ w', fC w' = 8 * sc.code + w.code →
        decAcq fm w' = f2u w' (8 * sc.code + w.code) (.ldAcq fm w sc) := fun w' e => by
      simp only [decAcq, e, e1, e2, decW_code, decScope_code]
    cases fm <;> exact f2u_slot rfl (by omega) (fun w' e => key w' e) (Dst.wf_of_width h.1) (AForm.src_wf h.2) hw

theorem Laws.WordRoundTrip.stRel (fm : AForm) (w : Width) (sc : Scope) (a s : Src) : Statement (.stRel fm w sc a s) :=
  roundTrip_slot rfl fun hw => by
    have h : (fm.addrWf a && s.vWf && (match s.spec with | .v n => w.dataWf n | _ => false)) = true := hw
    simp only [Bool.and_eq_true] at h
    have hc := w.code_lt
    have hs := sc.code_lt
    have ha := AForm.src_wf h.1.1
    have hv := Src.wf_of_v h.1.2
    have e1 : (8 * sc.code + w.code) % 8 = w.code := by omega
    have e2 : (8 * sc.code + w.code) / 8 = sc.code := by omega
    have key : ∀ w', fD w' = 0 → fA w' = a.code → fB w' = s.code → fC w' = 8 * sc.code + w.code →
        decRel fm w' = checked (.stRel fm w sc a s) := fun w' g1 g2 g3 g4 => by
      simp only [decRel, g1, g2, g3, g4, e1, e2, decW_code, decScope_code, decSrc_code a ha, decSrc_code s hv, if_true]
    cases fm <;> exact f_slot rfl (by decide) (a.code_lt ha) (s.code_lt hv) (by omega) (fun w' g1 g2 g3 g4 =>
      key w' g1 g2 g3 g4) hw

theorem Laws.WordRoundTrip.sptest (d : Dst) (a : Src) : Statement (.sptest d a) :=
  roundTrip_slot rfl fun w => by
    have h : (d.wf && a.pairWf) = true := w
    simp only [Bool.and_eq_true] at h
    exact f2u_slot rfl (by decide) (fun _ _ => rfl) h.1 (Src.wf_of_pair h.2) w

theorem Laws.WordRoundTrip.spcast (fr : CastFrom) (tgt : CastTo) (d : Dst) (a : Src) : Statement (.spcast fr tgt d a) :=
  roundTrip_slot rfl fun w => by
    have h : (castDstWf tgt d && castSrcWf fr a) = true := w
    simp only [Bool.and_eq_true] at h
    have hd : d.wf = true := by
      have := h.1
      cases tgt <;> cases d <;> simp_all [castDstWf, Dst.wf] <;> omega
    have ha : a.wf = true := by
      cases fr with
      | gen => exact Src.wf_of_pair h.2
      | loc => exact h.2
      | c32 => exact h.2
    cases fr <;> cases tgt <;> exact f2u_slot (op := 0x221) rfl (by decide)
      (fun w e => by simp [decOper, decMem, decCast, e, CastFrom.code, CastTo.code]) hd ha w

theorem Laws.WordRoundTrip.pfet (a : Src) (off : Int) : Statement (.pfet a off) :=
  roundTrip_slot rfl fun w => by
    have h : (a.pairWf && inSigned 12 off) = true := w
    simp only [Bool.and_eq_true] at h
    have ha := Src.wf_of_pair h.1
    have h2 := a.code_lt ha
    have h0 : 0 < 128 := by decide
    have h3 : unsext 12 off < 4096 := unsext_lt 12 off
    have h4 : 4 < 8 := by decide
    refine slot_ok (w := encM 0x222 0 a.code (unsext 12 off) 4) 0x222 rfl (fOp_encM h0 h2 h3 h4) ?_
    simp [decOper, decMem, fD_encM h0 h2 h3 h4, fA_encM h2 h3 h4, fOff_encM h3 h4, fW_encM h4, decSrc_code a ha,
      sext_unsext 12 (by decide) off h.2, checked_wf w]

theorem Laws.WordRoundTrip.atom (op : AOp) (d : Dst) (a b : Src) (c : CSrc) : Statement (.atom op d a b c) :=
  roundTrip_slot rfl fun w => by
    have h : (d.wf && a.pairWf && b.wf && (if op.isCas then c.wf else c.unused)) = true := w
    simp only [Bool.and_eq_true] at h
    have hc : c.wf = true := by
      have := h.2
      split at this
      · exact this
      · exact CSrc.wf_of_unused this
    cases op <;> exact f3_slot rfl (fun _ => rfl) h.1.1.1 (Src.wf_of_pair h.1.1.2) h.1.2 hc w

theorem Laws.WordRoundTrip.atoms (op : AOp) (d : Dst) (a b : Src) (c : CSrc) : Statement (.atoms op d a b c) :=
  roundTrip_slot rfl fun w => by
    have h : (d.wf && a.wf && b.wf && (if op.isCas then c.wf else c.unused)) = true := w
    simp only [Bool.and_eq_true] at h
    have hc : c.wf = true := by
      have := h.2
      split at this
      · exact this
      · exact CSrc.wf_of_unused this
    cases op <;> exact f3_slot rfl (fun _ => rfl) h.1.1.1 h.1.1.2 h.1.2 hc w

theorem Laws.WordRoundTrip.asum (a x : Src) (anchor : Int) : Statement (.asum a x anchor) :=
  roundTrip_slot rfl fun w => by
    have h : (a.pairWf && x.wf && inSigned 7 anchor) = true := w
    simp only [Bool.and_eq_true] at h
    have ha := Src.wf_of_pair h.1.1
    have hx : unsext 7 anchor < 128 := unsext_lt 7 anchor
    exact f_slot (op := 0x250) rfl (by decide) (a.code_lt ha) (x.code_lt h.1.2) hx
      (fun w e1 e2 e3 e4 => by
        simp [decOper, decMem, e1, e2, e3, e4, decSrc_code a ha, decSrc_code x h.1.2,
          sext_unsext 7 (by decide) anchor h.2]) w

theorem Laws.WordRoundTrip.fence (k : FenceK) (sc : Scope) : Statement (.fence k sc) :=
  roundTrip_slot rfl fun w => by
    cases k <;> cases sc <;> exact fxz_slot (op := 0x258) rfl (by decide)
      fun w e => by simp [decOper, decMem, e, FenceK.code, Scope.code, decScope]

theorem Laws.WordRoundTrip.rmap (d : Nat) (a b : Src) (c : CSrc) : Statement (.rmap d a b c) :=
  roundTrip_slot rfl fun w => by
    have h : (decide (d < 64) && a.wf && b.wf && c.pairWf) = true := w
    simp only [Bool.and_eq_true, decide_eq_true_eq] at h
    have hc := CSrc.wf_of_pair h.2
    exact f_slot (op := 0x260) rfl (by omega) (a.code_lt h.1.1.2) (b.code_lt h.1.2) (c.code_lt hc)
      (fun w e1 e2 e3 e4 => by
        simp [decOper, decMem, e1, e2, e3, e4, decSrc_code a h.1.1.2, decSrc_code b h.1.2, decC_code]) w

theorem Laws.WordRoundTrip.rflush (n : Src) : Statement (.rflush n) :=
  roundTrip_slot rfl fun w => by
    have h : (n.wf) = true := w
    exact f2s_slot rfl (by decide) (fun _ _ => rfl) h w

theorem Laws.WordRoundTrip.rdrop (n : Src) : Statement (.rdrop n) :=
  roundTrip_slot rfl fun w => by
    have h : (n.wf) = true := w
    exact f2s_slot rfl (by decide) (fun _ _ => rfl) h w

theorem Laws.WordRoundTrip.tnow (d : Nat) : Statement (.tnow d) :=
  roundTrip_slot rfl fun w => by
    have h : (decide (d ≤ 62)) = true := w
    simp only [decide_eq_true_eq] at h
    exact f_slot (op := 0x268) rfl (by omega) (by decide) (by decide) (by decide)
      (fun w e1 e2 e3 e4 => by simp [decOper, decMem, e1, e2, e3, e4]) w

theorem Laws.WordRoundTrip.twait (rel : Bool) (a : Src) : Statement (.twait rel a) :=
  roundTrip_slot rfl fun w => by
    have h : (if rel then a.wf else a.pairWf) = true := w
    have ha : a.wf = true := by
      split at h
      · exact h
      · exact Src.wf_of_pair h
    cases rel <;> exact f2s_slot (op := 0x269) rfl (by decide) (fun w e => by simp [decOper, decMem, e]) ha w

theorem Laws.WordRoundTrip.cpy (a : Src) : Statement (.cpy a) :=
  roundTrip_slot rfl fun w => by
    have h : (a.wf) = true := w
    exact fxa_slot rfl (by decide) (by decide) (fun _ _ hm => by simp [decOper, decCpy, hm]) h w

theorem Laws.WordRoundTrip.cpyFeed (n : Nat) (a : Src) : Statement (.cpyFeed n a) :=
  roundTrip_slot rfl fun w => by
    have h : (a.wf && decide (n < 4)) = true := w
    simp only [Bool.and_eq_true, decide_eq_true_eq] at h
    exact fxa_slot (op := 0x280) rfl (by omega) (by decide) (fun w e1 e2 => by simp [decOper, decCpy, e1, e2]) h.1 w

theorem Laws.WordRoundTrip.cpyl (a : Src) : Statement (.cpyl a) :=
  roundTrip_slot rfl fun w => by
    have h : (a.wf) = true := w
    exact fxa_slot rfl (by decide) (by decide) (fun _ _ _ => rfl) h w

theorem Laws.WordRoundTrip.cbatch (d : Nat) : Statement (.cbatch d) :=
  roundTrip_slot rfl fun w => by
    have h : (decide (d < 64)) = true := w
    simp only [decide_eq_true_eq] at h
    exact fxd_slot rfl (by omega) (by decide) (by decide) (fun _ _ _ _ => rfl) w

theorem Laws.WordRoundTrip.cwait (all : Bool) (a : Src) : Statement (.cwait all a) :=
  roundTrip_slot rfl fun w => by
    cases all with
    | false => exact fxa_slot (op := 0x283) rfl (by decide) (by decide) (fun w e1 e2 => by simp [decOper, decCpy, e2]) w w
    | true =>
      have h' : (a == ⟨.v 0, false⟩) = true := w
      obtain rfl : a = ⟨.v 0, false⟩ := by simpa using h'
      have h0 : decSrc 0 = some ⟨.v 0, false⟩ := rfl
      obtain ⟨e1, e2, e3, e4⟩ := encX_fields (op := 0x283) (by decide : 0 < 128) (by decide : 0 < 256)
        (by decide : 0 < 32) (by decide : 1 < 1024)
      refine slot_ok (w := encX 0x283 0 0 0 1) 0x283 rfl (fOp_encX (by decide) (by decide) (by decide) (by decide)) ?_
      simp [decOper, decCpy, fxa, e1, e2, e3, e4, h0, checked_wf w]

theorem Laws.WordRoundTrip.bari (b : Src) (n : Nat) : Statement (.bari b n) :=
  roundTrip_slot rfl fun w => by
    have h : (b.wf && decide (1 ≤ n) && decide (n ≤ 1024)) = true := w
    simp only [Bool.and_eq_true, decide_eq_true_eq] at h
    obtain ⟨k, rfl⟩ : ∃ k, n = k + 1 := ⟨n - 1, by omega⟩
    exact fxa_slot (op := 0x288) (m := k) (k := fun b => .bari b (k + 1)) rfl (by decide) (by omega)
      (fun w _ e => by subst e; rfl) h.1.1 w

theorem Laws.WordRoundTrip.barx (c32 : Bool) (b : Src) (c : Nat) : Statement (.barx c32 b c) :=
  roundTrip_slot rfl fun w => by
    have h : (b.wf && decide (c < 64)) = true := w
    simp only [Bool.and_eq_true, decide_eq_true_eq] at h
    have hc : c < 128 := by omega
    cases c32 with
    | false =>
      exact fxda_slot (op := 0x289) (n := 0) (m := 0) (k := fun c b => .barx false b c) rfl hc (by decide)
        (by decide) (fun w _ e => by simp [decOper, decCpy, e]) h.1 w
    | true =>
      exact fxda_slot (op := 0x289) (n := 0) (m := 1) (k := fun c b => .barx true b c) rfl hc (by decide)
        (by decide) (fun w _ e => by simp [decOper, decCpy, e]) h.1 w

theorem Laws.WordRoundTrip.bara (c32 : Bool) (b : Src) : Statement (.bara c32 b) :=
  roundTrip_slot rfl fun w => by
    cases c32 <;> exact fxa_slot (op := 0x28A) rfl (by decide) (by decide)
      (fun w _ e => by simp [decOper, decCpy, e]) w w

theorem Laws.WordRoundTrip.barw (d : Nat) (b : Src) : Statement (.barw d b) :=
  roundTrip_slot rfl fun w => by
    have h : (decide (d < 64) && b.wf) = true := w
    simp only [Bool.and_eq_true, decide_eq_true_eq] at h
    exact fxda_slot rfl (by omega) (by decide) (by decide) (fun _ _ _ => rfl) h.2 w

theorem Laws.WordRoundTrip.astart (a : Src) (x : Nat) : Statement (.astart a x) :=
  roundTrip_slot rfl fun w => by
    have h : (a.pairWf && decide (x < 64)) = true := w
    simp only [Bool.and_eq_true, decide_eq_true_eq] at h
    exact fxda_slot (op := 0x290) (n := 0) (m := 0) (k := fun x a => .astart a x) rfl (by omega) (by decide) (by decide)
      (fun _ _ _ => rfl) (Src.wf_of_pair h.1) w

theorem Laws.WordRoundTrip.astop (discard : Bool) : Statement (.astop discard) :=
  roundTrip_slot rfl fun w => by
    cases discard <;> exact fxz_slot (op := 0x291) rfl (by decide) fun w e => by simp [decOper, decCpy, e]

theorem Laws.WordRoundTrip.fstat (d : Dst) : Statement (.fstat d) :=
  roundTrip_slot rfl fun w =>
    fxdd_slot (op := 0x292) rfl w (by decide) (by decide)
      (fun w e1 e2 e3 e4 => by simp [decOper, decCpy, fxd, e1, e2, e3, e4]) w

theorem Laws.WordRoundTrip.wld (tag : WTag) (m : Nat) (a : Src) (c : Nat) : Statement (.wld tag m a c) :=
  roundTrip_slot rfl fun w => by
    have h : (a.wf && decide (1 ≤ c) && decide (m + c ≤ 32)) = true := w
    simp only [Bool.and_eq_true, decide_eq_true_eq] at h
    have key : ∀ w, fD w = 0 → decSrc (fA w) = some a → fN w = m → fM w = c - 1 →
        decMat.decWld w tag = checked (.wld tag m a c) := fun w e1 e2 e3 e4 => by
      have e5 : c - 1 < 32 := by omega
      have e6 : c - 1 + 1 = c := by omega
      simp [decMat.decWld, fxa, e1, e2, e3, e4, e5, e6]
    cases tag <;> exact fx_slot rfl (by decide) h.1.1 (by omega) (by omega) (fun w e1 e2 e3 e4 => key w e1 e2 e3 e4) w

theorem Laws.WordRoundTrip.mmr (p : MPair) (lowh : Bool) (q m c : Nat) (a : Src) (lo : Nat) : Statement (.mmr p lowh q m c a lo) :=
  roundTrip_slot rfl fun w => by
    cases p <;> exact ladder_slot rfl (fun _ => rfl) w w

theorem Laws.WordRoundTrip.mmrHold (p : MPair) (lowh : Bool) (q m c : Nat) (a : Src) (lo : Nat) : Statement (.mmrHold p lowh q m c a lo) :=
  roundTrip_slot rfl fun w => by
    cases p <;> exact ladder_slot rfl (fun _ => rfl) w w

theorem Laws.WordRoundTrip.mmf (f : MFmt) (q m c : Nat) (a : Src) : Statement (.mmf f q m c a) :=
  roundTrip_slot rfl fun w => by
    have h : (a.wf && tilesWf q c && decide (m + f.macros c ≤ 32)) = true := w
    simp only [Bool.and_eq_true, decide_eq_true_eq] at h
    obtain ⟨hq, h1, hc⟩ := tilesWf_bounds h.1.2
    have hm : m < 32 := by have := h.2; cases f <;> simp only [MFmt.macros] at this <;> omega
    have e0 : 16 * q + 2 * (c - 1) < 1024 := by omega
    have e1 : (16 * q + 2 * (c - 1)) % 2 = 0 := by omega
    have e2 : (16 * q + 2 * (c - 1)) / 128 = 0 := by omega
    have e3 : (16 * q + 2 * (c - 1)) / 16 % 8 = q := by omega
    have e4 : (16 * q + 2 * (c - 1)) / 2 % 8 + 1 = c := by omega
    have key : ∀ w, fD w = 0 → decSrc (fA w) = some a → fN w = m → fM w = 16 * q + 2 * (c - 1) →
        decMmf w f = checked (.mmf f q m c a) := fun w g1 g2 g3 g4 => by
      simp only [decMmf, fxa, g1, g2, g3, g4, e1, e2, e3, e4, and_self, if_true]
    cases f <;> exact fx_slot rfl (by decide) h.1.1 hm e0 (fun w g1 g2 g3 g4 => key w g1 g2 g3 g4) w

theorem Laws.WordRoundTrip.mmc (p : MPair) (lowh : Bool) (q m c : Nat) (a : Src) (lo : Nat) : Statement (.mmc p lowh q m c a lo) :=
  roundTrip_slot rfl fun w => by
    cases p <;> exact ladder_slot rfl (fun _ => rfl) w w

theorem Laws.WordRoundTrip.mmcHold (p : MPair) (lowh : Bool) (q m c : Nat) (a : Src) (lo : Nat) : Statement (.mmcHold p lowh q m c a lo) :=
  roundTrip_slot rfl fun w => by
    cases p <;> exact ladder_slot rfl (fun _ => rfl) w w

theorem Laws.WordRoundTrip.qzero (q c : Nat) : Statement (.qzero q c) :=
  roundTrip_slot rfl fun w => by
    have h : (tilesWf q c) = true := w
    obtain ⟨hq, h1, hc⟩ := tilesWf_bounds h
    have hn : q < 32 := by omega
    have hm : c - 1 < 1024 := by omega
    have e5 : c - 1 < 8 := by omega
    have e6 : c - 1 + 1 = c := by omega
    obtain ⟨e1, e2, e3, e4⟩ := encX_fields (op := 0x320) (by decide : 0 < 128) (by decide : 0 < 256) hn hm
    refine slot_ok (w := encX 0x320 0 0 q (c - 1)) 0x320 rfl (fOp_encX (by decide) (by decide) hn hm) ?_
    simp [decOper, decMat, e1, e2, e3, e4, e5, e6, checked_wf w]

theorem Laws.WordRoundTrip.qdrain (f : DFmt) (r : RSel) (z : Bool) (a : Src) (q c s : Nat) : Statement (.qdrain f r z a q c s) :=
  roundTrip_slot rfl fun w => by
    have h : (a.pairWf && tilesWf q c && decide (s < 64) && (if f = .pair then decide (r = .dflt) else true)) = true := w
    simp only [Bool.and_eq_true, decide_eq_true_eq] at h
    obtain ⟨hq, h1, hc⟩ := tilesWf_bounds h.1.1.2
    have hr := r.code_lt
    have hz := Bool.toNat_lt z
    have e0 : 16 * r.code + 8 * z.toNat + (c - 1) < 1024 := by omega
    have e1 : (16 * r.code + 8 * z.toNat + (c - 1)) / 16 = r.code := by omega
    have e2 : (16 * r.code + 8 * z.toNat + (c - 1)) / 8 % 2 = z.toNat := by omega
    have e3 : (16 * r.code + 8 * z.toNat + (c - 1)) % 8 + 1 = c := by omega
    have key : ∀ w, fD w = s → decSrc (fA w) = some a → fN w = q → fM w = 16 * r.code + 8 * z.toNat + (c - 1) →
        decDrain w f = checked (.qdrain f r z a q c s) := fun w g1 g2 g3 g4 => by
      simp only [decDrain, fxda, g1, g2, g3, g4, e1, e2, e3, decR_code, toNat_beq_one, hq, and_self, if_true]
    cases f <;> exact fx_slot rfl (by omega) (Src.wf_of_pair h.1.1.1) (by omega) e0
      (fun w g1 g2 g3 g4 => key w g1 g2 g3 g4) w

theorem Laws.WordRoundTrip.qscale (bf16 : Bool) (t : ScaleT) (q : Nat) (a : Src) : Statement (.qscale bf16 t q a) :=
  roundTrip_slot rfl fun w => by
    have h : (decide (q < 8) && a.wf) = true := w
    simp only [Bool.and_eq_true, decide_eq_true_eq] at h
    have key : ∀ w, fD w = 0 → decSrc (fA w) = some a → fN w = q → fM w = t.code →
        decScale w bf16 = checked (.qscale bf16 t q a) := fun w g1 g2 g3 g4 => by
      cases t <;> simp [decScale, fxa, g1, g2, g3, g4, ScaleT.code, h.1]
    have ht : t.code < 1024 := by cases t <;> decide
    cases bf16 <;> exact fx_slot rfl (by decide) h.2 (by omega) ht (fun w g1 g2 g3 g4 => key w g1 g2 g3 g4) w

theorem Laws.WordRoundTrip.qsave (a : Src) (q c : Nat) : Statement (.qsave a q c) :=
  roundTrip_slot rfl fun w => by
    have h : (a.wf && tilesWf q c) = true := w
    simp only [Bool.and_eq_true] at h
    obtain ⟨hq, h1, hc⟩ := tilesWf_bounds h.2
    have e5 : c - 1 < 8 := by omega
    have e6 : c - 1 + 1 = c := by omega
    exact fx_slot (op := 0x32A) rfl (by decide) h.1 (by omega) (by omega)
      (fun w g1 g2 g3 g4 => by simp [decOper, decMat, fxa, g1, g2, g3, g4, e5, e6]) w

theorem Laws.WordRoundTrip.qload (a : Src) (q c : Nat) : Statement (.qload a q c) :=
  roundTrip_slot rfl fun w => by
    have h : (a.wf && tilesWf q c) = true := w
    simp only [Bool.and_eq_true] at h
    obtain ⟨hq, h1, hc⟩ := tilesWf_bounds h.2
    have e5 : c - 1 < 8 := by omega
    have e6 : c - 1 + 1 = c := by omega
    exact fx_slot (op := 0x32B) rfl (by decide) h.1 (by omega) (by omega)
      (fun w g1 g2 g3 g4 => by simp [decOper, decMat, fxa, g1, g2, g3, g4, e5, e6]) w

theorem Laws.WordRoundTrip.qstat (d : Dst) (q : Nat) : Statement (.qstat d q) :=
  roundTrip_slot rfl fun w => by
    have h : (d.wf && decide (q < 8)) = true := w
    simp only [Bool.and_eq_true, decide_eq_true_eq] at h
    exact fxdd_slot (op := 0x32C) rfl h.1 (by omega) (by decide)
      (fun w e1 e2 e3 e4 => by simp [decOper, decMat, fxd, e1, e2, e3, e4]) w

theorem Laws.WordRoundTrip.vbegin (h : Nat) (a : Src) : Statement (.vbegin h a) :=
  roundTrip_slot rfl fun w => by
    have h : (decide (h < 8) && a.wf) = true := w
    simp only [Bool.and_eq_true, decide_eq_true_eq] at h
    exact fx_slot (op := 0x380) rfl (by decide) h.2 (by omega) (by decide)
      (fun w g1 g2 g3 g4 => by simp [decOper, decVer, fxa, g1, g2, g3, g4]) w

theorem Laws.WordRoundTrip.vslot (prev : Bool) (d : Nat) (h : Nat) : Statement (.vslot prev d h) :=
  roundTrip_slot rfl fun w => by
    have g : (decide (d ≤ 62) && decide (h < 8)) = true := w
    simp only [Bool.and_eq_true, decide_eq_true_eq] at g
    have hd : d < 128 := by omega
    have hh : h < 32 := by omega
    cases prev with
    | false =>
      exact fxd_slot (op := 0x381) (n := h) (m := 0) (k := fun d => .vslot false d h) rfl hd hh (by decide)
        (fun w e1 e2 e3 => by simp [decOper, decVer, e2, e3]) w
    | true =>
      exact fxd_slot (op := 0x381) (n := h) (m := 1) (k := fun d => .vslot true d h) rfl hd hh (by decide)
        (fun w e1 e2 e3 => by simp [decOper, decVer, e2, e3]) w

theorem Laws.WordRoundTrip.vseal (h : Nat) (a : Src) (b : Nat) : Statement (.vseal h a b) :=
  roundTrip_slot rfl fun w => by
    have g : (decide (h < 8) && a.wf && decide (b < 64)) = true := w
    simp only [Bool.and_eq_true, decide_eq_true_eq] at g
    exact fx_slot (op := 0x382) rfl (by omega) g.1.2 (by omega) (by decide)
      (fun w g1 g2 g3 g4 => by simp [decOper, decVer, fxda, g1, g2, g3, g4]) w

theorem Laws.WordRoundTrip.vsealFinal (h : Nat) (a : Src) (b : Nat) : Statement (.vsealFinal h a b) :=
  roundTrip_slot rfl fun w => by
    have g : (decide (h < 8) && a.wf && decide (b < 64)) = true := w
    simp only [Bool.and_eq_true, decide_eq_true_eq] at g
    exact fx_slot (op := 0x383) rfl (by omega) g.1.2 (by omega) (by decide)
      (fun w g1 g2 g3 g4 => by simp [decOper, decVer, fxda, g1, g2, g3, g4]) w

theorem Laws.WordRoundTrip.vpin (d : Nat) (h : Nat) (a : Src) : Statement (.vpin d h a) :=
  roundTrip_slot rfl fun w => by
    have g : (decide (d ≤ 60) && decide (h < 8) && a.wf) = true := w
    simp only [Bool.and_eq_true, decide_eq_true_eq] at g
    exact fx_slot (op := 0x384) rfl (by omega) g.2 (by omega) (by decide)
      (fun w g1 g2 g3 g4 => by simp [decOper, decVer, fxda, g1, g2, g3, g4]) w

theorem Laws.WordRoundTrip.vunpin (h : Nat) : Statement (.vunpin h) :=
  roundTrip_slot rfl fun w => by
    have g : (decide (h < 8)) = true := w
    simp only [decide_eq_true_eq] at g
    have hn : h < 32 := by omega
    obtain ⟨e1, e2, e3, e4⟩ := encX_fields (op := 0x385) (by decide : 0 < 128) (by decide : 0 < 256) hn (by decide : 0 < 1024)
    refine slot_ok (w := encX 0x385 0 0 h 0) 0x385 rfl (fOp_encX (by decide) (by decide) hn (by decide)) ?_
    simp [decOper, decVer, e1, e2, e3, e4, checked_wf w]

theorem Laws.WordRoundTrip.vwait (d : Nat) (h : Nat) (a : Src) (t : Option Src) : Statement (.vwait d h a t) :=
  roundTrip_slot rfl fun w => by
    cases t with
    | none =>
      have g : (decide (d < 64) && decide (h < 8) && a.wf && true) = true := w
      simp only [Bool.and_eq_true, decide_eq_true_eq] at g
      exact fx_slot (op := 0x386) rfl (by omega) g.1.2 (by omega) (by decide)
        (fun w g1 g2 g3 g4 => by simp [decOper, decVer, fxda, g1, g2, g3, g4]) w
    | some t =>
      have g : (decide (d < 64) && decide (h < 8) && a.wf && t.pairWf) = true := w
      simp only [Bool.and_eq_true, decide_eq_true_eq] at g
      have ht := Src.wf_of_pair g.2
      have hc := t.code_lt ht
      have e1 : (256 + t.code) / 256 = 1 := by omega
      have e2 : (256 + t.code) % 256 = t.code := by omega
      exact fx_slot (op := 0x386) rfl (by omega) g.1.2 (by omega) (by omega)
        (fun w g1 g2 g3 g4 => by
          simp only [decOper, decVer, fxda, g1, g2, g3, g4, e1, e2, decSrc_code t ht]
          simp) w

theorem Laws.WordRoundTrip.vstat (d : Dst) (h w : Nat) : Statement (.vstat d h w) :=
  roundTrip_slot rfl fun hw => by
    have g : (d.wf && decide (h < 8) && decide (w < 32)) = true := hw
    simp only [Bool.and_eq_true, decide_eq_true_eq] at g
    exact fxdd_slot (op := 0x387) rfl g.1.1 (by omega) (by omega)
      (fun w e1 e2 e3 e4 => by simp [decOper, decVer, fxd, e1, e2, e3, e4, g.2]) hw

theorem Laws.WordRoundTrip.vleft (k : LeftK) (d : Nat) : Statement (.vleft k d) :=
  roundTrip_slot rfl fun w => by
    have g : (decide (d ≤ 62)) = true := w
    simp only [decide_eq_true_eq] at g
    cases k <;> exact fxd_slot (op := 0x388) rfl (by omega) (by decide) (by decide)
      (fun w e1 e2 e3 => by simp [decOper, decVer, e3, LeftK.code]) w

theorem Laws.WordRoundTrip.launch (d : Nat) (a : Src) : Statement (.launch d a) :=
  roundTrip_slot rfl fun w => by
    have h : (decide (d < 64) && a.wf) = true := w
    simp only [Bool.and_eq_true, decide_eq_true_eq] at h
    exact fxda_slot rfl (by omega) (by decide) (by decide) (fun _ _ _ => rfl) h.2 w

theorem Laws.WordRoundTrip.join (d : Nat) (a : Src) : Statement (.join d a) :=
  roundTrip_slot rfl fun w => by
    have h : (decide (d ≤ 62) && a.vPairWf) = true := w
    simp only [Bool.and_eq_true, decide_eq_true_eq] at h
    exact fxda_slot rfl (by omega) (by decide) (by decide) (fun _ _ _ => rfl) (Src.wf_of_vPair h.2) w

theorem Laws.WordRoundTrip.bleft (d : Nat) : Statement (.bleft d) :=
  roundTrip_slot rfl fun w => by
    have h : (decide (d ≤ 62)) = true := w
    simp only [decide_eq_true_eq] at h
    exact fxd_slot rfl (by omega) (by decide) (by decide) (fun _ _ _ _ => rfl) w

theorem Laws.WordRoundTrip.dline (rel : Bool) (d : Nat) : Statement (.dline rel d) :=
  roundTrip_slot rfl fun w => by
    have g : (decide (d ≤ 62)) = true := w
    simp only [decide_eq_true_eq] at g
    cases rel <;> exact fxd_slot (op := 0x393) rfl (by omega) (by decide) (by decide)
      (fun w e1 e2 e3 => by simp [decOper, decVer, e3]) w

theorem Laws.WordRoundTrip.writePerformed (g acc : Nat) (parts : List Nat) : Statement (.writePerformed g acc parts) := roundTrip_event rfl rfl

theorem Laws.WordRoundTrip.tempThrottleLimit (die mhz : Nat) : Statement (.tempThrottleLimit die mhz) := roundTrip_event rfl rfl

theorem Laws.WordRoundTrip.prologueReturn (fe n : Nat) : Statement (.prologueReturn fe n) := roundTrip_event rfl rfl

theorem Laws.WordRoundTrip.getVersion : Statement (.getVersion) := roundTrip_event rfl rfl

theorem Laws.WordRoundTrip.getCapabilities : Statement (.getCapabilities) := roundTrip_event rfl rfl

theorem Laws.WordRoundTrip.getDigests : Statement (.getDigests) := roundTrip_event rfl rfl

theorem Laws.WordRoundTrip.getMeasurements : Statement (.getMeasurements) := roundTrip_event rfl rfl

theorem Laws.WordRoundTrip.cxlLinkFailure : Statement (.cxlLinkFailure) := roundTrip_event rfl rfl

theorem Laws.WordRoundTrip.hostRestart : Statement (.hostRestart) := roundTrip_event rfl rfl

theorem Laws.WordRoundTrip.lockLossTimeout : Statement (.lockLossTimeout) := roundTrip_event rfl rfl

theorem Laws.WordRoundTrip.tempCritical : Statement (.tempCritical) := roundTrip_event rfl rfl

theorem Laws.WordRoundTrip.droop : Statement (.droop) := roundTrip_event rfl rfl

theorem Laws.WordRoundTrip.castlingRequest : Statement (.castlingRequest) := roundTrip_event rfl rfl

theorem Laws.WordRoundTrip.fumaroleSpill : Statement (.fumaroleSpill) := roundTrip_event rfl rfl

theorem Laws.WordRoundTrip.zugzwangSpill : Statement (.zugzwangSpill) := roundTrip_event rfl rfl

theorem Laws.WordRoundTrip.matrixStart : Statement (.matrixStart) := roundTrip_event rfl rfl

theorem Laws.WordRoundTrip.matrixResume : Statement (.matrixResume) := roundTrip_event rfl rfl

theorem Laws.WordRoundTrip.matrixComplete : Statement (.matrixComplete) := roundTrip_event rfl rfl

theorem Laws.WordRoundTrip.waitPacketRelease : Statement (.waitPacketRelease) := roundTrip_event rfl rfl

theorem Laws.WordRoundTrip.prologueTimeout : Statement (.prologueTimeout) := roundTrip_event rfl rfl

theorem Laws.WordRoundTrip.swaitWake : Statement (.swaitWake) := roundTrip_event rfl rfl

theorem Laws.WordRoundTrip.nop : Statement (.nop) :=
  roundTrip_slot rfl fun w => by
    exact fxz_slot rfl (by decide) fun _ _ => rfl

theorem Laws.WordRoundTrip.ret : Statement (.ret) :=
  roundTrip_slot rfl fun w => by
    exact fxz_slot rfl (by decide) fun _ _ => rfl

theorem Laws.WordRoundTrip.exit : Statement (.exit) :=
  roundTrip_slot rfl fun w => by
    exact fxz_slot rfl (by decide) fun _ _ => rfl

theorem Laws.WordRoundTrip.yld : Statement (.yld) :=
  roundTrip_slot rfl fun w => by
    exact fxz_slot rfl (by decide) fun _ _ => rfl

theorem Laws.WordRoundTrip.tsync : Statement (.tsync) :=
  roundTrip_slot rfl fun w => by
    exact fxz_slot rfl (by decide) fun _ _ => rfl

theorem Laws.WordRoundTrip.halt : Statement (.halt) :=
  roundTrip_slot rfl fun w => by
    exact fxz_slot rfl (by decide) fun _ _ => rfl

end Sys2Proof
end

