-- ==== Sys2Proof/Machine/SaveArea.lean ====
section
/-! DEFINITION. The save and spill areas (R105, R179, R307, R308, R387, R397 to R399, R411, R412). What they
hold is what State holds of a saved group, a spilled register or a stack: the areas are views of it, as bytes at an
offset of the area. The scheduler's places for them in device memory are at no program address and are not stated. -/

namespace Sys2Proof.Machine

open Sys2Proof

/-- Parts of an area, each with its offset: a byte outside them is not specified. -/
abbrev Parts := List (Nat × List Byte)

/-- The byte at an offset. -/
def Parts.at_ (ps : Parts) (o : Nat) : Option Byte :=
  match ps.find? fun p => decide (p.1 ≤ o) && decide (o < p.1 + p.2.length) with
  | some p => p.2[o - p.1]?
  | none => none

/-- The lanes of a register, lane 0 first. -/
def laneBytes (v : Lanes) : List Byte := v.vals.flatMap wordBytes

/-! ### Stack entries and the reserved areas of a group (R307, R308, R385, R387) -/

/-- KIND of a stack entry. -/
def EKind.code : EKind → Nat
  | .div => 0
  | .call => 1
  | .trap => 2

/-- A stack entry's 64 bytes (R307); bytes 0x28 on are zero but in a trap entry (R385). -/
def Entry.bytes (e : Entry) : List Byte :=
  bytesOf 8 e.rpt ++ bytesOf 8 e.dtgt ++ wordBytes e.fmt ++ wordBytes e.rmode ++ wordBytes e.mask ++ wordBytes e.arr ++
  wordBytes e.dmask ++ bytesOf 4 (e.djp.toNat * 8 + e.done.toNat * 4 + e.kind.code) ++
  (if e.kind = .trap then
    wordBytes e.fltcause ++ wordBytes e.fltlane ++ bytesOf 8 e.fltaddr.toNat ++ wordBytes e.fltmask ++ wordBytes e.tctl
   else bytesOf 24 0)

/-- The 16 newest entries, which lie on-core, bottom first. -/
def Group.onCore (g : Group) : List Entry := (g.stack.take 16).reverse

/-- The reserved stack area: the older entries, bottom first, from byte 0 on (R308). -/
def Group.stackArea (g : Group) : Parts := [(0, (g.stack.drop 16).reverse.flatMap Entry.bytes)]

/-- A trap save slot's 1,024 bytes (R387). -/
def TrapSave.bytes (x : TrapSave) : List Byte :=
  laneBytes x.l0 ++ laneBytes x.l1 ++ ((List.range 32).flatMap fun i => wordBytes (loWord (x.addrs.getD i 0))) ++
  ((List.range 32).flatMap fun i => wordBytes (hiWord (x.addrs.getD i 0))) ++
  ((List.range 32).map fun i => x.codes.getD i 0) ++ bytesOf 480 0

/-- The trap save area. -/
def Group.trapArea (g : Group) : Parts := g.saves.map fun s => (1024 * s.1, s.2.bytes)

/-! ### Parts whose inner layout is open (log entry 26) -/

/-- `n` bytes of a part with the contents `xs`. -/
def packedBytes (part n : Nat) (xs : List Nat) : List Byte := (List.range n).map (Config.packed part xs)

/-! ### The spill area (R179) -/

/-- What a spilled register leaves: its lane values, and the map word with its state, B and its class. -/
def spillParts (n : Nat) : VReg → Parts
  | .general vals true =>
    [(128 * n, laneBytes vals), (8192 + 8 * n, packedBytes 0 8 [4, (vals.get 0).toNat, classSlots vals])]
  | _ => []

/-- The spill area. -/
def Group.spillArea (g : Group) : Parts := (List.range 64).flatMap fun n => spillParts n (g.v n)

/-! ### The group save area (R397, R398, R411, R412) -/

/-- A register's shape code (R398). -/
def VReg.saveCode : VReg → Nat
  | .general _ true => 5
  | r => r.code

/-- A register's payload (R398). -/
def VReg.payload : VReg → List Byte
  | .uniform u => wordBytes u
  | .affine b s => wordBytes b ++ wordBytes s
  | .general vals false => laneBytes vals
  | _ => []

/-- The payload: registers in ascending number, with no gaps. -/
def Group.payload (g : Group) : List Byte := (List.range 64).flatMap fun n => (g.v n).payload

/-- A mask of the keys of a table. -/
def keyMask {α : Type} (t : Tbl α) (n : Nat) : Nat :=
  ((List.range n).filter fun i => t.any fun e => e.1 == i).foldl (fun a i => a + 2 ^ i) 0

/-- The header. -/
def Group.saveHeader (g : Group) (ix : Nat) : List Byte :=
  bytesOf 4 ix ++ bytesOf 4 g.stack.length ++ bytesOf 4 (keyMask g.log 8) ++ bytesOf 4 g.copies.length ++
  bytesOf 4 g.payload.length ++ bytesOf 44 0

/-- The shape codes: register n in bits [4n+3 : 4n]. -/
def Group.saveCodes (g : Group) : List Byte :=
  ((List.range 32).map fun j => BitVec.ofNat 8 ((g.v (2 * j)).saveCode + 16 * (g.v (2 * j + 1)).saveCode)) ++ bytesOf 32 0

/-- The wait operand of a split record, where one value is the operand (R396). -/
def Wait.operand : Wait → Option DWord
  | .cwait n => some (n.setWidth 64)
  | .tsync n => some (n.setWidth 64)
  | .join m => some m
  | .twait t => some t
  | .exit => some 0
  | .vbegin _ k => some (k.setWidth 64)
  | _ => none

/-- A split record (R397, R412): its bytes up to the wait operand, the wait operand, and zeros. -/
def Split.saveParts (x : Split) (o : Nat) : Parts :=
  let op := match x.wait with
    | none => some 0
    | some w => w.operand
  [(o, bytesOf 8 x.pc ++ wordBytes x.mask ++ bytesOf 4 (x.wait.isSome.toNat * 2 + 1) ++ wordBytes x.fmt ++
      wordBytes x.rmode ++ bytesOf 8 (x.join.getD (2 ^ 64 - 1)))] ++
  (match op with
   | some v => [(o + 0x20, bytesOf 8 v.toNat)]
   | none => []) ++ [(o + 0x28, bytesOf 24 0)]

/-- The record of split `k`: where the group holds none, LIVE is clear and the rest is not specified. -/
def Group.splitParts (g : Group) (k : Nat) : Parts :=
  match g.split? k with
  | some x => x.saveParts (0x80 + 64 * k)
  | none => [(0x80 + 64 * k + 12, bytesOf 4 0)]

/-- The scalar block (R412). -/
def Group.saveScalars (g : Group) : List Byte :=
  ((List.range 8).flatMap fun n => wordBytes (g.k n)) ++ wordBytes g.flags ++ wordBytes g.gstat ++ wordBytes g.tsync ++
  wordBytes g.batchOpen ++ wordBytes g.lastClosed ++ bytesOf 4 0 ++ bytesOf 8 (keyMask g.children 64) ++ bytesOf 64 0

/-- A resumable copy descriptor (R411). -/
def Copy.saved (c : Copy) (open_ : Word) : List Byte :=
  (if c.linear then
    bytesOf 8 c.sbase.toNat ++ bytesOf 8 c.dbase.toNat ++ bytesOf 8 c.len ++ bytesOf 4 c.bar.toNat ++ bytesOf 20 0
   else
    bytesOf 8 c.sbase.toNat ++ bytesOf 8 c.dbase.toNat ++ bytesOf 8 c.srec.toNat ++ bytesOf 8 c.drec.toNat ++
    bytesOf 4 c.bar.toNat ++ bytesOf 12 0) ++
  bytesOf 8 (c.next % 2 ^ 40 + c.linear.toNat * 2 ^ 40 + c.failed.isSome.toNat * 2 ^ 41 + c.flags.toNat % 32 * 2 ^ 42) ++
  wordBytes (if c.batch = open_ then 0 else c.batch) ++ wordBytes c.rmode

/-- Copies in issue order. -/
def insertCopy (c : Copy) : List Copy → List Copy
  | [] => [c]
  | d :: r => if c.order < d.order then c :: d :: r else d :: insertCopy c r

/-- The incomplete copies in issue order. -/
def Group.copiesInOrder (g : Group) : List Copy := (g.copies.map (·.2)).foldr insertCopy []

/-- What an operand-log entry holds: the instruction's place, its lanes, and for an access what they want. -/
def Group.logContents (g : Group) (e : LogEntry) : List Nat :=
  [e.slot, e.seq, e.waiting.toNat, e.aborted.toNat, e.perm.toNat, e.addr.toNat] ++
  match e.what with
  | .access acc =>
    (match g.access? acc with
     | some a => (a.parts.filter (·.logged)).flatMap fun p => [p.lane, p.sub, p.addr.toNat, p.size, p.data, p.cmp.toNat]
     | none => [])
  | _ => e.covers.flatMap fun c => [c.1, c.2.1, c.2.2]

/-- The operand log's entries in use, 1,024 bytes each. -/
def Group.logParts (g : Group) : Parts :=
  g.log.map fun e => (0xE00 + 1024 * e.1, packedBytes 1 1024 (g.logContents e.2))

/-- The stall buffer, where an instruction waits in it: its split. -/
def Group.stallParts (g : Group) : Parts :=
  match g.stallBuf with
  | some n => [(0x2E00, packedBytes 2 1024 [n, (g.split n).pc, (g.split n).mask.toNat])]
  | none => []

/-- The access context: the slice's state, pc and registers, and its walk's position. -/
def Slice.contents (x : Slice) : List Nat :=
  [x.st.code, x.pc] ++ ((List.range 16).flatMap fun n =>
    (x.vregs.get .never n).code :: (x.vregs.get .never n).payload.map BitVec.toNat) ++
  match x.walk with
  | some w => [w.feed, w.sbase.toNat, w.srec.toNat, w.next]
  | none => []

/-- The group save area (R397). -/
def Group.saveParts (g : Group) (ix tiles : Nat) : Parts :=
  [(0, g.saveHeader ix), (0x40, g.saveCodes)] ++ ((List.range 4).flatMap fun k => g.splitParts k) ++
  [(0x180, g.saveScalars), (0x200, (List.range 8).flatMap fun n => laneBytes (g.o n))] ++
  (g.splits.map fun x => (0x600 + 256 * x.num, laneBytes x.l0 ++ laneBytes x.l1)) ++
  [(0xA00, g.onCore.flatMap Entry.bytes)] ++ g.logParts ++ g.stallParts ++
  [(0x3200, g.copiesInOrder.flatMap fun c => c.saved g.batchOpen), (0x3600, packedBytes 3 256 g.slice.contents)] ++
  ((List.range 4).map fun f => (0x3700 + 2048 * f, (g.feed f).flatMap laneBytes)) ++
  [(0x5700, g.payload)] ++ (List.range tiles).map fun k => (0x7700 + imageBytes * k, (g.tile k).image)

/-- What the save area of a saved group holds at an offset. -/
def State.saveArea (s : State) (g o : Nat) : Option Byte :=
  if (s.group g).bank = .saved then ((s.group g).saveParts (groupIx g) (s.descOf g).accum).at_ o else none

/-! ### The team save record (R399) -/

/-- A macro's word: its tag, and where it has been loaded its source offset. -/
def Macro.saveParts (m : Macro) (n : Nat) : Parts :=
  [(8 * n, [BitVec.ofNat 8 m.tag.code])] ++
  match m.src with
  | some a => [(8 * n + 1, bytesOf 3 a)]
  | none => []

/-- State of a region line, as a number. -/
def LState.code : LState → Nat
  | .invalid => 0
  | .clean => 1
  | .dirty => 2

/-- What a region entry holds: where it starts, its length, its global address, and the lines' states. -/
def Region.contents (r : Region) : List Nat :=
  [r.start, r.lines, r.glob] ++ (List.range r.lines).map fun n => (r.state.get .invalid n).code

/-- The region entries in use, 32 bytes each, after the 32 macro words. -/
def Team.regionParts (t : Team) : Parts :=
  t.regions.map fun r => (256 + 32 * r.1, packedBytes 4 32 r.2.contents)

/-- The team save record (R399). -/
def Team.saveParts (t : Team) : Parts :=
  ((List.range 32).flatMap fun n => (t.macros.get Macro.initial n).saveParts n) ++ t.regionParts

end Sys2Proof.Machine
end

