-- ==== Sys2Proof/Safety.lean ====
section
/-! DEFINITION. The terms in which claims are stated: when an instruction's unit is free to complete, the state
that its change leaves, what a register file reads as, and what an instruction leaves alone. -/

namespace Sys2Proof.Machine

open Sys2Proof

/-! ### A unit of one instruction (R40, R41) -/

/-- The unit of one instruction. -/
def State.single (s : State) (i : Instr) : List Member := [⟨s.cur.slot, i, planOf i⟩]

/-- Nothing holds the instruction back before its own checks: the executing split is there and does not wait, no
source or destination waits for a value (R92), no operand read raises a cause (R161, R170, R171), and every feed that
it pops holds what it pops. -/
def State.clear (s : State) (i : Instr) : Bool :=
  (s.g.split? s.cur.split).isSome && s.sp.wait.isNone && !s.interlocked i && (s.readCauses i).isEmpty &&
    (s.shortFeeds i).isEmpty

/-- The state once the instruction's operands are taken and the split has moved past it. -/
def State.prepared (s : State) (i : Instr) : State := s.prepare (s.single i)

/-- No allocation stands before those of the instruction on its core, whose bank has room for the refills of the sources
and, after the releases, for the destinations whatever their class turns out to be (R169, R180). -/
def State.ample (s : State) (i : Instr) : Bool :=
  (s.core (s.coreOf s.cur.group)).requester.isNone &&
  (firstShort (s.slotsUsed (s.coreOf s.cur.group)) 0 (s.refillSlots (s.single i))).isNone &&
  decide ((s.prepared i).slotsUsed (s.coreOf s.cur.group) + 4 * i.dests.length ≤ bankSlots)

/-- The state with the instruction's change made. -/
def State.changed (s : State) (i : Instr) (f : State → State) : State :=
  { f ((s.prepared i).atMember s.cur.slot) with cur := s.cur }

/-- The state that the instruction leaves when its change is `f`: the yield that its bundle asks for, and the
arrivals that are due. -/
def State.done (s : State) (i : Instr) (f : State → State) : State :=
  ((s.changed i f).yieldOut s.yieldsAfter).retire

/-- The instruction completes with the change `f` wherever nothing holds it back. -/
def Completes (s : State) (i : Instr) (f : State → State) : Prop :=
  s.clear i = true → s.ample i = true → exec i s = .next (s.done i f)

/-! ### What registers read as -/

/-- What a lane reads in a register. -/
def Group.lane (g : Group) (d : Dst) (k : Nat) : Word :=
  match d with
  | .v n => (g.v n).lanes.get k
  | .o n => (g.o n).get k
  | .k n => g.k n

/-- The executing group of one state, in another. -/
def State.in_ (s t : State) : Group := t.group s.cur.group

/-- In `t` the destination holds `F` in the active lanes of the executing split of `s`, and in the others what it
held; a k register holds the value of the lowest active lane (R174, R175). -/
def Wrote (s t : State) (d : Dst) (F : Nat → Word) : Prop :=
  match d with
  | .k n => (s.in_ t).k n = F (lowestLane s.mask)
  | d => ∀ k, k < 32 → (s.in_ t).lane d k = if s.active k then F k else s.g.lane d k

/-! ### Frames -/

/-- From `s` to `t` nothing outside the groups and the launches' accounts has changed, and of another group nothing
but a pending OVERRUN (R334, R335). Memory, scratchpads, contexts, functions, dies, cores and front ends are among
what has not. -/
def Outside (s t : State) : Prop :=
  t = { s with groups := t.groups, launches := t.launches } ∧
  ∀ n, n ≠ s.cur.group → t.group n = { s.group n with overrun := (t.group n).overrun }

/-- Of the executing group nothing has changed but its registers, FLAGS, its splits and their stack, the read mark of GSTAT
(R170), its order counts, its yield and a pending OVERRUN: what it has in flight, its operand log, its copies, its
slice, its tiles, its pins, its children and its private cache have not. -/
def GroupKept (s t : State) : Prop :=
  s.in_ t =
    { s.g with
      flags := (s.in_ t).flags
      vregs := (s.in_ t).vregs
      oregs := (s.in_ t).oregs
      kregs := (s.in_ t).kregs
      feeds := (s.in_ t).feeds
      splits := (s.in_ t).splits
      stack := (s.in_ t).stack
      saves := (s.in_ t).saves
      gstat := (s.in_ t).gstat
      know := (s.in_ t).know
      seq := (s.in_ t).seq
      yielded := (s.in_ t).yielded
      overrun := (s.in_ t).overrun
      stallBuf := none }

/-- Registers that are no destination keep what they hold: a v register unless a last-use bit releases it (R173), an
o register, a k register; a feed keeps its entries but for those the instruction pops (R161). -/
def RegsKept (s t : State) (i : Instr) : Prop :=
  (∀ n, Dst.v n ∉ i.dests → ((s.in_ t).v n).lanes = (s.g.v n).lanes ∨ n ∈ i.releases ∧ (s.in_ t).v n = .released) ∧
  (∀ n, Dst.o n ∉ i.dests → (s.in_ t).o n = s.g.o n) ∧
  (∀ n, Dst.k n ∉ i.dests → (s.in_ t).k n = s.g.k n) ∧
  (∀ n, (s.in_ t).feed n = (s.g.feed n).drop (if n < 4 then i.pops n else 0))

/-- GSTAT keeps its bits but for the mark of a read of a released register (R170, R381). -/
def GstatKept (s t : State) : Prop := (s.in_ t).gstat = s.g.gstat ∨ (s.in_ t).gstat = s.g.gstat ||| 1

/-- With an empty stack no arrival is due: the executing split stands past the unit with its mask, its format and its
rounding mode, the other splits are as before, and the stack stays empty. -/
def SplitMoved (s t : State) : Prop :=
  s.g.stack = [] →
    (s.in_ t).stack = [] ∧ (s.in_ t).saves = s.g.saves ∧
    ((s.in_ t).split s.cur.split).pc = s.cur.slot + s.cur.len ∧
    ((s.in_ t).split s.cur.split).mask = s.sp.mask ∧ ((s.in_ t).split s.cur.split).fmt = s.sp.fmt ∧
    ((s.in_ t).split s.cur.split).rmode = s.sp.rmode ∧
    ∀ n, n ≠ s.cur.split → (s.in_ t).split? n = s.g.split? n

/-- What an instruction that only writes registers leaves alone: everything but its destinations, with FLAGS taking
the bits `fl` (R204). -/
def Kept (s t : State) (i : Instr) (fl : Word) : Prop :=
  Outside s t ∧ GroupKept s t ∧ RegsKept s t i ∧ GstatKept s t ∧ SplitMoved s t ∧
    (s.in_ t).flags = s.g.flags ||| fl

/-- What an instruction that only moves splits leaves alone: memory, everything of other groups but a pending OVERRUN,
and of its own group everything but splits, stack, counts and what its operands say (last uses, feed pops). -/
def Steered (s t : State) (i : Instr) : Prop :=
  Outside s t ∧ GroupKept s t ∧ RegsKept s t i ∧ GstatKept s t ∧ (s.in_ t).flags = s.g.flags

/-- The instruction completes with the change `f` of the group's splits, and leaves everything else alone. -/
def Steers (s : State) (i : Instr) (f : State → State) : Prop :=
  s.clear i = true → s.ample i = true → exec i s = .next (s.done i f) ∧ Steered s (s.done i f) i

/-- An instruction that has issued and waits (R151, R158, R318, R320, R349, R351, R358, R373) has nothing else that holds
it back. -/
def State.goesOn (s : State) (i : Instr) : Bool :=
  (s.g.split? s.cur.split).isSome && s.sp.wait.isSome && !s.interlocked i && (s.shortFeeds i).isEmpty

/-- A waiting instruction completes with the change `f`. -/
def Resumes (s : State) (i : Instr) (f : State → State) : Prop :=
  s.goesOn i = true → s.ample i = true → exec i s = .next (s.done i f)

/-- The instruction completes: it writes `F` to the destination, adds `fl` to FLAGS, and leaves everything else
alone. -/
def Computes (s : State) (i : Instr) (d : Dst) (F : Nat → Word) (fl : Word) : Prop :=
  s.clear i = true → s.ample i = true → ∃ t, exec i s = .next t ∧ Wrote s t d F ∧ Kept s t i fl

/-- A k destination takes uniform results alone (R175). -/
def kFits (d : Dst) (xs : List Opnd) : Prop := d.isK = true → ∀ x ∈ xs, x.sh = .uniform

/-- The lane whose computation a destination lane takes: its own, but lane 0's in a v register whose result is
uniform, which holds one value (R167, R168). -/
def State.resultLane (s : State) (d : Dst) (xs : List Opnd) (k : Nat) : Nat :=
  if shapeOf xs = .uniform ∧ s.mask = fullMask ∧ d.isV = true then 0 else k

/-! ### Memory -/

/-- Every byte memory has its canonical form: physical memory, the teams' scratchpads, the functions' windows and
staging buffers. -/
def State.memOk (s : State) : Bool :=
  Memory.wf s.mem && (s.teams.all fun t => Memory.wf t.2.scratch) &&
    s.fns.all fun f => Memory.wf f.2.win && Memory.wf f.2.invBuf

/-! ### Accesses (R91, R118 to R127) -/

/-- What the lanes of a request reach. -/
def State.reach (s : State) (q : Req) : List (Nat × LaneRes) :=
  (q.lanes s.mask).map fun i => (i, s.checkLane s.cur.group (q.want i) s.priv s.choice)

/-- A lane that reaches its bytes: no cause, no fault, no uncorrectable error, no team that is castled out. -/
def LaneRes.good : LaneRes → Bool
  | .ok _ => true
  | _ => false

/-- Every lane reaches its bytes now: no pending log entry covers one (R92), the homes of a held access have room
for it (R126), and nothing earlier stands before what it accesses at a function window (R280, R420). -/
def State.admits (s : State) (q : Req) : Bool :=
  ((s.reach q).all fun r => r.2.good) && !((s.reach q).any fun r => s.g.logClash q.form (q.addr r.1) q.size) &&
    (q.held.isNone || s.heldRoom (s.reach q)) && s.windowsOpen q (s.reach q)

/-- The access as it starts: every lane's parts in flight, none of them logged. -/
def State.started (s : State) (q : Req) (t : State) : State :=
  t.startAccess q (s.reach q) s.accKey s.cur.slot s.mask s.priv s.choice none

/-- The instruction completes at issue by starting the access. -/
def Accesses (s : State) (i : Instr) (q : Req) : Prop := s.admits q = true → Completes s i (s.started q)

/-- The addresses of the table-entry bytes whose A and D bits the lane's translation sets (R78). -/
def LaneRes.marks : LaneRes → List Nat
  | .ok t => (t.trail.walked ++ t.trail.marks.map (·.1)).map (· + 7)
  | _ => []

/-- A lane that reaches memory and scratchpads alone, without a region fill (R113). -/
def LaneRes.plain : LaneRes → Bool
  | .ok t => t.fills.isEmpty && !t.pieces.isEmpty && t.pieces.all fun p =>
      match p.2.2 with
      | .phys _ => true
      | .scr _ _ => true
      | _ => false
  | _ => false

/-- Whether a part's bytes include a byte of physical memory. -/
def Part.hasPa (p : Part) (x : Nat) : Bool :=
  match p.loc with
  | .phys pa => decide (pa ≤ x) && decide (x < pa + p.size)
  | _ => false

/-- Whether a part's bytes include a byte of a team's scratchpad. -/
def Part.hasScr (p : Part) (t x : Nat) : Bool :=
  match p.loc with
  | .scr u o => decide (u = t) && decide (o ≤ x) && decide (x < o + p.size)
  | _ => false

/-- An address of an object of the group's own: 16 bytes of a barrier object, or what an instruction reads as it
issues, which no earlier access of the group still has to touch. -/
def State.reaches (s : State) (form : AForm) (addr : DWord) (n : Nat) (k : XKind) (t : Target) : Prop :=
  s.sp.wait = none ∧
  s.checkLane s.cur.group ⟨0, addr, n, k, form, false, false, true⟩ s.priv s.choice = .ok t ∧
    s.g.logClash form addr n = false ∧ s.clearOf k t = true

/-- A record as a version instruction reaches it, with the trail of its translation. -/
def recordTarget (pa : Nat) (tr : Trail) : Target := ⟨[(0, 128, .phys pa)], tr, [], false, false⟩

/-- A version instruction at its record: what it overtakes is noted (R280, R287), and its translation leaves its marks. -/
def State.atRecord (t : State) (k : XKind) (pa : Nat) (tr : Trail) : State :=
  (t.noteOwn k (recordTarget pa tr)).chosen.leave tr

/-- The group's handle names a record at `pa`: translated with the trail `tr`, in local memory, permitted, aligned,
without error, and nothing earlier of the group stands before its bytes (R92, R280, R357, R368). -/
def State.recordAt (s : State) (h : Nat) (k : XKind) (pa : Nat) (tr : Trail) : Prop :=
  let a := s.handleAddr h
  (∃ p01 rm, s.translate (s.coreOf s.cur.group) (s.ctx (s.ctxOf s.cur.group)) (a.toNat % 2 ^ 57) k s.priv s.choice = (.ok pa p01 rm, tr)) ∧
  windowOf a = .glob ∧ a.toNat % 128 = 0 ∧ isHbm pa = true ∧
  s.denied s.cur.group pa ⟨0, a, 128, k, .gen, false, false, true⟩ s.priv = false ∧
  s.failed (pa / 128) = false ∧ s.g.logClash .gen a 128 = false ∧
  s.clearOf k (recordTarget pa tr) = true

/-- Bytes of the group's team region at a local address, at an alignment, inside the region (R109, R122). -/
def State.inRegion (s : State) (a : DWord) (n al : Nat) : Prop :=
  a.toNat < 2 ^ 22 ∧ a.toNat + n ≤ s.regionBytes (teamOf s.cur.group) ∧ a.toNat % al = 0

/-- One row of `n` bytes for each active lane. -/
def State.rowsInRegion (s : State) (a : DWord) (n : Nat) : Prop :=
  a.toNat < 2 ^ 22 ∧ a.toNat % 64 = 0 ∧
    ∀ i, i < 32 → s.active i = true → a.toNat + (i + 1) * n ≤ s.regionBytes (teamOf s.cur.group)

/-- A job in the core's MX pipe (R253). -/
def State.given (j : Job) (t : State) : State :=
  t.setCore (t.coreOf j.group) { t.core (t.coreOf j.group) with mx := some j }

/-! ### Exceptions -/

/-- What a unit of one instruction does where nothing holds it back and its plan answers no change. -/
def State.stopped (s : State) (i : Instr) (e : Stop) : State :=
  match e with
  | .raise r => (s.markUnit (s.single i)).chargePass.raise r
  | .wait w => (s.beginWait (s.single i)).chargePass.modSp fun x => { x with wait := some w }
  | .act f => f (s.beginWait (s.single i)).chargePass
  | .full => s.modG fun g => { g with stallBuf := some s.cur.split }
  | .stall => s

/-- The instruction does not complete: a cause, a wait, a stall or a report is what comes of it. -/
def Stops (s : State) (i : Instr) (e : Stop) : Prop := exec i s = .next (s.stopped i e)

/-- The executing split raises a cause: the report is delivered (R385). -/
def Raises (s : State) (i : Instr) (r : Report) : Prop := Stops s i (.raise r)

end Sys2Proof.Machine
end

