-- ==== Sys2Proof/Certificates/Slice0/Obligations.lean ====
section
/-! DEFINITION. The statements for the provers. -/

open Sys2Proof Sys2Proof.Machine

/-! ### Integer and logic instructions (R215 to R221) -/

/-- R215: addition, subtraction, negation and multiplication are modulo 2³²; the saturating forms clamp the exact
result to the reading's range; the high product, the minima and maxima follow the reading; IABS leaves the most
negative value as it is. Every lane in use takes its value, and nothing else changes. -/
def Obligations.IntegerArithmetic : Prop :=
  ∀ (s : State) (sg : Sgn) (d : Dst) (a b : Src),
    let x := fun k => (s.rd a).vals.get k
    let y := fun k => (s.rd2 a b).vals.get k
    (kFits d [s.rd a, s.rd2 a b] →
      Computes s (.iadd d a b) d (fun k => x k + y k) 0 ∧
      Computes s (.isub d a b) d (fun k => x k - y k) 0 ∧
      Computes s (.imul d a b) d (fun k => x k * y k) 0 ∧
      Computes s (.iadds sg d a b) d (fun k => BitVec.ofInt 32 (max sg.lo (min sg.hi (sg.read (x k) + sg.read (y k))))) 0 ∧
      Computes s (.isubs sg d a b) d (fun k => BitVec.ofInt 32 (max sg.lo (min sg.hi (sg.read (x k) - sg.read (y k))))) 0 ∧
      Computes s (.imulh sg d a b) d (fun k => BitVec.ofInt 32 (sg.read (x k) * sg.read (y k) / 2 ^ 32)) 0 ∧
      Computes s (.imin sg d a b) d (fun k => if sg.read (x k) ≤ sg.read (y k) then x k else y k) 0 ∧
      Computes s (.imax sg d a b) d (fun k => if sg.read (x k) ≤ sg.read (y k) then y k else x k) 0) ∧
    (kFits d [s.rd a] →
      Computes s (.ineg d a) d (fun k => -(x k)) 0 ∧
      Computes s (.iabs d a) d (fun k => if (x k).msb then -(x k) else x k) 0)

/-- R215, R219: the bitwise operations; a shift count of 32 or more gives zero, or the sign for SAR; a rotation takes
its count modulo 32; BFE takes a field with or without its sign; POPC, CLZ and BREV. -/
def Obligations.LogicAndShifts : Prop :=
  ∀ (s : State) (d : Dst) (a b : Src) (sgn : Bool) (pos len : Nat),
    let x := fun k => (s.rd a).vals.get k
    let y := fun k => (s.rd2 a b).vals.get k
    (kFits d [s.rd a, s.rd2 a b] →
      Computes s (.and d a b) d (fun k => x k &&& y k) 0 ∧
      Computes s (.or d a b) d (fun k => x k ||| y k) 0 ∧
      Computes s (.xor d a b) d (fun k => x k ^^^ y k) 0 ∧
      Computes s (.andn d a b) d (fun k => x k &&& ~~~(y k)) 0 ∧
      Computes s (.shl d a b) d (fun k => if (y k).toNat < 32 then x k <<< (y k).toNat else 0) 0 ∧
      Computes s (.shr d a b) d (fun k => if (y k).toNat < 32 then x k >>> (y k).toNat else 0) 0 ∧
      Computes s (.sar d a b) d (fun k => (x k).sshiftRight (min (y k).toNat 31)) 0 ∧
      Computes s (.rotl d a b) d (fun k => (x k).rotateLeft ((y k).toNat % 32)) 0) ∧
    (kFits d [s.rd a] →
      Computes s (.bfe sgn d a pos len) d (fun k =>
        if sgn then BitVec.ofInt 32 (sext len ((x k).toNat / 2 ^ pos % 2 ^ len))
        else BitVec.ofNat 32 ((x k).toNat / 2 ^ pos % 2 ^ len)) 0 ∧
      Computes s (.popc d a) d (fun k => BitVec.ofNat 32 ((List.range 32).filter fun i => (x k).getLsbD i).length) 0 ∧
      Computes s (.clz d a) d (fun k =>
        BitVec.ofNat 32 (((List.range 32).find? fun i => (x k).getLsbD (31 - i)).getD 32)) 0 ∧
      Computes s (.brev d a) d (fun k => maskOf fun i => (x k).getLsbD (31 - i)) 0)

/-- R216 to R218, R220: the multiply-add and the dot products modulo 2³², the field insertion; a comparison gives a word
of ones or zeros a lane, or in a k register the ballot of the lanes in use; SEL takes `a` in the lanes whose bit of the
k register is set. -/
def Obligations.CompareSelectDot : Prop :=
  ∀ (s : State) (d : Dst) (a b : Src) (c : CSrc) (f : DotF) (cc : ICc) (kn : Nat),
    let x := fun k => (s.rd a).vals.get k
    let y := fun k => (s.rd2 a b).vals.get k
    let z := fun k => (s.rdc c).vals.get k
    (kFits d [s.rd a, s.rd2 a b, s.rdc c] →
      Computes s (.imad d a b c) d (fun k => x k * y k + z k) 0 ∧
      Computes s (.idot4 f d a b c) d (fun k => z k + BitVec.ofInt 32 (dotSum f (x k) (y k))) 0 ∧
      Computes s (.bfi d a b c) d (fun k =>
        let p := (z k).toNat % 32
        let n := min ((z k).toNat / 256 % 64) 32
        maskOf fun i => if p ≤ i ∧ i < p + n then (y k).getLsbD (i - p) else (x k).getLsbD i) 0) ∧
    Computes s (.icmp cc d a b) d (fun k =>
      if d.isK then maskOf fun i => s.active i && icmpHolds cc (x i) (y i)
      else if icmpHolds cc (x k) (y k) then 0xFFFFFFFF else 0) 0 ∧
    (d.isK = false →
      Computes s (.sel d a b kn) d (fun k => if (s.g.k kn).getLsbD k then x k else y k) 0)

/-- R53, R183 to R186, R188, R221: copies and constants; the state code of a register; a base and a stride; the value of
the lowest lane in use; the register's and the bank's occupancy. MKAFF with a k destination raises ILLEGAL_OPERAND (R185).
SEL, whose result is general, raises SHAPE_MISMATCH there (R175, R217), and MKUNI.chk raises it where the lanes in use
differ (R186). -/
def Obligations.MovesAndShapes : Prop :=
  ∀ (s : State) (d : Dst) (a b : Src) (e : Int) (lit n kn : Nat) (chk grp : Bool),
    (kFits d [s.rd a] → Computes s (.mov d a) d (fun k => (s.rd a).vals.get k) 0) ∧
    Computes s (.movi d e) d (fun _ => BitVec.ofInt 32 e) 0 ∧
    Computes s (.limm d lit) d (fun _ => BitVec.ofNat 32 lit) 0 ∧
    Computes s (.shape d n) d (fun _ => BitVec.ofNat 32 (s.g.v n).code) 0 ∧
    (d.isK = false →
      Computes s (.mkaff d a b) d (fun k => (s.rd a).u + BitVec.ofNat 32 k * (s.rd2 a b).u) 0) ∧
    ((chk = true → ∀ i, s.active i = true → i < 32 →
        (s.rd a).vals.get i = (s.rd a).vals.get (lowestLane s.mask)) →
      Computes s (.mkuni chk d a) d (fun _ => (s.rd a).vals.get (lowestLane s.mask)) 0) ∧
    Computes s (.regq grp d n) d (fun _ => if grp then s.bankWord else regWord (s.g.v n)) 0 ∧
    (s.clear (.mkaff (.k n) a b) = true → Raises s (.mkaff (.k n) a b) (s.unit .illegalOperand 0)) ∧
    (s.clear (.sel (.k n) a b kn) = true → Raises s (.sel (.k n) a b kn) (s.unit .shapeMismatch 0)) ∧
    (s.clear (.mkuni true d a) = true →
      (∃ i, i < 32 ∧ s.active i = true ∧ (s.rd a).vals.get i ≠ (s.rd a).vals.get (lowestLane s.mask)) →
      Raises s (.mkuni true d a) (s.unit .shapeMismatch 0))

/-! ### Float instructions (R222 to R228) -/

/-- R201, R204, R222, R223: each element of each lane takes the exact sum, difference, product or fused product-sum,
rounded once under the form's rounding mode, and FLAGS take the flags of the lanes in use. The lane whose
result a uniform v register keeps under stochastic rounding, where the lanes' roundings may differ (R168, R203), is the
model's reading (resultLane; log entry 86, DEDUCED). -/
def Obligations.FloatArithmetic : Prop :=
  ∀ (s : State) (f : FBlk) (r : RSel) (d : Dst) (a b : Src) (c : CSrc),
    let x := fun k => (s.rd a).vals.get k
    let y := fun k => (s.rd2 a b).vals.get k
    let z := fun k => (s.rdc c).vals.get k
    let ctx := fun k j => s.ctxAt r (k * f.count + j)
    let add := fun k => f.build fun j => roundElem f (ctx k j) (addVal (ctx k j).down (f.val (x k) j) (f.val (y k) j))
    let sub := fun k => f.build fun j =>
      roundElem f (ctx k j) (addVal (ctx k j).down (f.val (x k) j) (f.val (y k) j).negate)
    let mul := fun k => f.build fun j => roundElem f (ctx k j) (mulVal (f.val (x k) j) (f.val (y k) j))
    let fma := fun k => f.build fun j =>
      let q := s.ctxAt .dflt (k * f.count + j)
      roundElem f q (fmaVal q.down (f.val (x k) j) (f.val (y k) j) (f.val (z k) j))
    let at_ := s.resultLane d [s.rd a, s.rd2 a b]
    (kFits d [s.rd a, s.rd2 a b] →
      Computes s (.fadd f r d a b) d (fun k => (add (at_ k)).1) (laneFlags s.mask fun k => (add k).2) ∧
      Computes s (.fsub f r d a b) d (fun k => (sub (at_ k)).1) (laneFlags s.mask fun k => (sub k).2) ∧
      Computes s (.fmul f r d a b) d (fun k => (mul (at_ k)).1) (laneFlags s.mask fun k => (mul k).2)) ∧
    (kFits d [s.rd a, s.rd2 a b, s.rdc c] →
      Computes s (.ffma f d a b c) d
        (fun k => (fma (s.resultLane d [s.rd a, s.rd2 a b, s.rdc c] k)).1) (laneFlags s.mask fun k => (fma k).2))

/-- R224 to R227: minimum and maximum with −0 below +0 and a single NaN giving the other operand, comparisons, classes,
and rounding to an integral value; none of them touches FLAGS. The lane whose
result a uniform v register keeps under stochastic rounding, where the lanes' roundings may differ (R168, R203), is the
model's reading (resultLane; log entry 86, DEDUCED). -/
def Obligations.FloatComparisons : Prop :=
  ∀ (s : State) (f : FBlk) (r : RSel) (cc : FCc) (d : Dst) (a b : Src),
    let x := fun k => (s.rd a).vals.get k
    let y := fun k => (s.rd2 a b).vals.get k
    (kFits d [s.rd a, s.rd2 a b] →
      Computes s (.fmin f d a b) d
        (fun k => (f.build fun j => (minMax f.fmt true (f.elem (x k) j) (f.elem (y k) j), 0)).1) 0 ∧
      Computes s (.fmax f d a b) d
        (fun k => (f.build fun j => (minMax f.fmt false (f.elem (x k) j) (f.elem (y k) j), 0)).1) 0) ∧
    Computes s (.fcmp .f32 cc d a b) d (fun k =>
      if d.isK then maskOf fun i => s.active i && fcmpHolds cc (f32 (x i)) (f32 (y i))
      else if fcmpHolds cc (f32 (x k)) (f32 (y k)) then 0xFFFFFFFF else 0) 0 ∧
    (f ≠ .f32 → d.isK = false →
      Computes s (.fcmp f cc d a b) d (fun k => (f.build fun j =>
        (if fcmpHolds cc (f.fmt.value (f.elem (x k) j)) (f.fmt.value (f.elem (y k) j)) then 0xFFFF else 0, 0)).1) 0) ∧
    (kFits d [s.rd a] →
      Computes s (.fclass f d a) d (fun k => (f.build fun j => (2 ^ classBit f.fmt (f.elem (x k) j), 0)).1) 0 ∧
      Computes s (.fround f r d a) d (fun k =>
        let m := s.resultLane d [s.rd a] k
        (f.build fun j => (roundIntegral f.fmt (s.ctxAt r (m * f.count + j)) (f.elem (x m) j), 0)).1) 0)

/-- R211, R214, R223: division, square root, reciprocals and the transcendental functions, each correctly rounded from
its value, on one of two paths that the machine chooses: at once, with the flags, or into the slow path, where the
destination waits for the same value and the same flags. -/
def Obligations.SlowFloat : Prop :=
  ∀ (s : State) (f : FBlk) (r : RSel) (d : Dst) (a b : Src),
    let put := fun (op : ValOp) (x y : Opnd) (xs : List Opnd) (t : State) =>
      let q := lanesFl s.mask (s.floatLane f r op x y y)
      if t.choice then t.chosen.slowVec d (shapeOf xs) q.1 q.2
      else (t.chosen.writeVec d (shapeOf xs) q.1).orFlags q.2
    let one := fun (op : Val → Val × Word) => put (fun _ v _ _ => op v) (s.rd a) (s.rd a) [s.rd a]
    (kFits d [s.rd a, s.rd2 a b] →
      Completes s (.fdiv f r d a b) (put (fun _ v w _ => divVal v w) (s.rd a) (s.rd2 a b) [s.rd a, s.rd2 a b])) ∧
    (kFits d [s.rd a] →
      Completes s (.fsqrt f r d a) (one sqrtVal) ∧ Completes s (.frcp f r d a) (one rcpVal) ∧
      Completes s (.frsq f r d a) (one rsqVal) ∧ Completes s (.fexp f r d a) (one (expVal false)) ∧
      Completes s (.fexp2 f r d a) (one (expVal true)) ∧ Completes s (.flog f r d a) (one (logVal false)) ∧
      Completes s (.flog2 f r d a) (one (logVal true)) ∧ Completes s (.fsin f r d a) (one (trigVal false)) ∧
      Completes s (.fcos f r d a) (one (trigVal true)) ∧ Completes s (.ftanh f r d a) (one tanhVal))

/-- R205, R206, R228: the pair operations write the leading part to d and the trailing part to d + 1, and the flags of
the lanes in use to FLAGS; l0 takes register d. -/
def Obligations.PairOperations : Prop :=
  ∀ (s : State) (d : Nat) (a b : Src),
    let put := fun (xs : List Opnd) (f : Nat → Pair × Word) (t : State) =>
      ((t.writeVec (.v d) (shapeOf xs) (Lanes.ofFn fun k => (f k).1.s)).writeDst (.v (d + 1)) (shapeOf xs)
        (Lanes.ofFn fun k => (f k).1.c)).orFlags (laneFlags s.mask fun k => (f k).2)
    let x := fun k => (s.rd a).vals.get k
    let y := fun k => (s.rd2 a b).vals.get k
    let px := fun k => (⟨x k, (s.rd (a.next 1)).vals.get k⟩ : Pair)
    let py := fun k => (⟨(s.rd b).vals.get k, (s.rd (b.next 1)).vals.get k⟩ : Pair)
    Completes s (.twosum d a b) (put [s.rd a, s.rd2 a b] fun k => twoSum (x k) (y k)) ∧
    Completes s (.twoprod d a b) (put [s.rd a, s.rd2 a b] fun k => twoProd (x k) (y k)) ∧
    Completes s (.padd d a b) (put [s.rd a, s.rd (a.next 1), s.rd b, s.rd (b.next 1)] fun k => pairAdd (px k) (py k)) ∧
    Completes s (.pnorm d a) (put [s.rd a, s.rd (a.next 1)] fun k => pairNorm (px k))

/-! ### Conversions and lanes (R229 to R242) -/

/-- R229 to R232, R236: conversions round once under the form's or the split's rounding mode, and their flags go to
FLAGS. The lane whose
result a uniform v register keeps under stochastic rounding, where the lanes' roundings may differ (R168, R203), is the
model's reading (resultLane; log entry 86, DEDUCED). -/
def Obligations.RoundingConversions : Prop :=
  ∀ (s : State) (t : CvtF) (q : QntF) (r : RSel) (d : Dst) (a b : Src) (c : CSrc) (anchor : Int),
    let x := fun k => (s.rd a).vals.get k
    let y := fun k => (s.rd2 a b).vals.get k
    let z := fun k => (s.rdc c).vals.get k
    let w := fun j k => (s.rd (a.next j)).vals.get k
    let to_ := fun k => cvtToWord t (s.ctxAt r k) (x k)
    let from_ := fun k => cvtFromWord t (s.ctxAt r k) (x k)
    let qn := fun k => qntWord q (s.ctxAt .dflt k) (x k) (y k) (z k)
    let dq := fun k => dqntWord q (s.ctxAt .dflt k) (x k) (y k) (z k)
    let ac := fun k => acvtWord (s.ctxAt .dflt k) anchor (x k) (w 1 k) (w 2 k) (w 3 k)
    let a1 := s.resultLane d [s.rd a]
    let a3 := s.resultLane d [s.rd a, s.rd2 a b, s.rdc c]
    let a4 := s.resultLane d [s.rd a, s.rd (a.next 1), s.rd (a.next 2), s.rd (a.next 3)]
    (kFits d [s.rd a] →
      Computes s (.cvtTo t r d a) d (fun k => (to_ (a1 k)).1) (laneFlags s.mask fun k => (to_ k).2) ∧
      Computes s (.cvtFrom t r d a) d (fun k => (from_ (a1 k)).1) (laneFlags s.mask fun k => (from_ k).2)) ∧
    (kFits d [s.rd a, s.rd2 a b, s.rdc c] →
      Computes s (.qnt q d a b c) d (fun k => (qn (a3 k)).1) (laneFlags s.mask fun k => (qn k).2) ∧
      Computes s (.dqnt q d a b c) d (fun k => (dq (a3 k)).1) (laneFlags s.mask fun k => (dq k).2)) ∧
    (kFits d [s.rd a, s.rd (a.next 1), s.rd (a.next 2), s.rd (a.next 3)] →
      Computes s (.acvt d a anchor) d (fun k => (ac (a4 k)).1) (laneFlags s.mask fun k => (ac k).2))

/-- R233 to R235, R237: packing, unpacking, residues and permutation of elements: exact, no flags. -/
def Obligations.ElementMoves : Prop :=
  ∀ (s : State) (p : PackW) (t : UnpkT) (w : PermW) (d : Dst) (a b : Src) (c : CSrc),
    let x := fun k => (s.rd a).vals.get k
    let y := fun k => (s.rd2 a b).vals.get k
    let z := fun k => (s.rdc c).vals.get k
    (kFits d [s.rd a] →
      Computes s (.rnse d a) d (fun k => residueOf (x k).toInt) 0 ∧
      Computes s (.rnsd d a) d (fun k => BitVec.ofInt 32 (crtDecode (x k))) 0) ∧
    (kFits d [s.rd a, s.rd2 a b] →
      Computes s (.unpk t d a b) d (fun k =>
        let j := (y k).toNat % (32 / t.width)
        if t.signed then BitVec.ofInt 32 (elemS t.width (x k) j) else BitVec.ofNat 32 (elemU t.width (x k) j)) 0 ∧
      Computes s (.pack .b16 d a b c) d
        (fun k => BitVec.ofNat 32 ((x k).toNat % 65536 + (y k).toNat % 65536 * 2 ^ 16)) 0) ∧
    (p ≠ .b16 → kFits d [s.rd a, s.rd2 a b, s.rdc c] →
      Computes s (.pack p d a b c) d (fun k =>
        let w := if p = .b4 then 4 else 8
        BitVec.ofNat 32 ((z k).toNat / 2 ^ (2 * w) + (x k).toNat % 2 ^ w * 2 ^ (32 - 2 * w) +
          (y k).toNat % 2 ^ w * 2 ^ (32 - w))) 0) ∧
    (kFits d [s.rd a, s.rd2 a b, s.rdc c] →
      Computes s (.perm w d a b c) d (fun k => permWord w (x k) (y k) (z k)) 0)

/-- R238 to R242: reads across lanes, the broadcast of one lane, votes over the lanes in use, and the fold of the lanes
in use in ascending order, as one value or as every lane's prefix. Of a uniform result a v register keeps lane 0's (R168;
resultLane, log entry 86, DEDUCED); an exclusive LSCAN.fadd does not make the fold step over the last lane (log entry 137,
DESIGN CHOICE). -/
def Obligations.LaneOperations : Prop :=
  ∀ (s : State) (m : ShflM) (v : VoteM) (op : LOp) (ex : Bool) (d : Dst) (n : Nat) (a b : Src) (c : CSrc),
    let x := fun k => (s.rd a).vals.get k
    let tr := laneTrace op s.mask (s.rd a)
    let fin := tr.getLastD (⟨0, 0⟩, 0)
    let seen := if ex then tr.dropLast else tr
    (kFits d [s.rd a, s.rd2 a b, s.rdc c] →
      Computes s (.shfl m d a b c) d (fun k =>
        let l := s.resultLane d [s.rd a, s.rd2 a b, s.rdc c] k
        match shflLane m l ((s.rd2 a b).vals.get l) with
        | some t => x t
        | none => (s.rdc c).vals.get l) 0) ∧
    Computes s (.bcast d a b) d (fun _ => x ((s.rd2 a b).u.toNat % 32)) 0 ∧
    Computes s (.vote v d a) d (fun _ =>
      match v with
      | .any => if (lanesOf s.mask).any fun i => x i != 0 then 1 else 0
      | .all => if (lanesOf s.mask).all fun i => x i != 0 then 1 else 0
      | .ballot => maskOf fun i => s.active i && x i != 0) 0 ∧
    Computes s (.lred op false d a) d (fun _ => fin.1.s) fin.2 ∧
    Completes s (.lred op true (.v n) a) (fun t =>
      ((t.writeVec (.v n) .uniform (Lanes.splat fin.1.s)).writeDst (.v (n + 1)) .uniform (Lanes.splat fin.1.c)).orFlags
        (laneFlags s.mask fun _ => fin.2)) ∧
    (d.isK = false →
      Computes s (.lscan op ex d a) d (fun k =>
        let r := laneRank s.mask k
        if ex then (if r = 0 then foldIdentity op else (tr.getD (r - 1) (⟨0, 0⟩, 0)).1.s)
        else (tr.getD r (⟨0, 0⟩, 0)).1.s) (seen.getLastD (⟨0, 0⟩, 0)).2)

/-! ### Modes, flags and registers as such (R187, R243, R244) -/

/-- R187, R243, R244: SFMT and SRND write the split's format and rounding registers and keep reserved bits zero, GFMT,
GRND and FLAGS read, FLAGS.clr reads and clears the bits asked for, FREE releases registers in a group of one split
and does nothing in a diverged one; SRND of a reserved mode raises ILLEGAL_OPERAND. -/
def Obligations.ModesAndFlags : Prop :=
  ∀ (s : State) (d : Dst) (a : Src) (n m r : Nat),
    Steers s (.sfmt (some n) a) (fun t => t.modSp fun p => { p with fmt := BitVec.ofNat 32 (n % 4) }) ∧
    Steers s (.sfmt none a) (fun t => t.modSp fun p => { p with fmt := BitVec.ofNat 32 ((s.rd a).u.toNat % 4) }) ∧
    Steers s (.srnd (some m) a) (fun t => t.modSp fun p =>
      { p with rmode := BitVec.ofNat 32 (p.rmode.toNat / 65536 * 65536 + m % 8) }) ∧
    ((s.rd a).u.toNat % 8 < 6 →
      Steers s (.srnd none a) (fun t => t.modSp fun p =>
        { p with rmode := BitVec.ofNat 32 ((s.rd a).u.toNat / 65536 * 65536 + (s.rd a).u.toNat % 8) })) ∧
    (6 ≤ (s.rd a).u.toNat % 8 → s.clear (.srnd none a) = true →
      Raises s (.srnd none a) (s.unit .illegalOperand 0)) ∧
    Computes s (.gfmt d) d (fun _ => s.sp.fmt) 0 ∧
    Computes s (.grnd d) d (fun _ => s.sp.rmode) 0 ∧
    (s.g.slow = [] →
      Computes s (.flags d) d (fun _ => s.g.flags) 0 ∧
      Completes s (.flagsClr d a) (fun t => (t.writeUni d s.g.flags).modG fun g =>
        { g with flags := g.flags &&& ~~~((s.rd a).u &&& 31) })) ∧
    (s.g.splits.length ≠ 1 → Steers s (.free n r) fun t => t) ∧
    (s.g.splits.length = 1 → (∀ j, j < r → Dst.v (n + j) ∉ s.pending s.cur.group) →
      Completes s (.free n r) fun t => ((List.range r).map (n + ·)).foldl (fun t j => t.modG fun g => g.release j) t)

/-! ### Control flow (R302 to R320) -/

/-- R48, R313, R314, R319: NOP changes nothing; BRA and JPT send the split to their targets, BDV sets the pending join
point, YLD asks for a yield. Each completes, and leaves registers, flags and memory alone. -/
def Obligations.StraightControl : Prop :=
  ∀ (s : State) (a : Src) (off : Int) (n : Nat),
    Steers s .nop (fun t => t) ∧
    Steers s (.bra off) (fun t => t.goto (target s.cur.slot off)) ∧
    Steers s (.bdv off) (fun t => t.modSp fun x => { x with join := some (target s.cur.slot off) }) ∧
    Steers s (.jpt a n) (fun t => t.goto (s.cur.slot + 1 + min (s.rd a).u.toNat n)) ∧
    Steers s .yld (fun t => t.modG fun g => { g with yielded := true })

/-- R302, R303, R308, R313, R315, R316: BNZ, BZ and BIX diverge on their lanes, with the join point given or at the
later of target and next slot; a push beyond the 78 entries that a program may hold raises STACK_OVF before any change,
in CALL too. -/
def Obligations.Branches : Prop :=
  ∀ (s : State) (a : Src) (off : Int),
    let tgt := target s.cur.slot off
    let nz := s.condLanes a
    let z := s.mask &&& ~~~nz
    let same := maskOf fun i => s.active i && decide (s.bixTarget a i = s.bixTarget a (lowestLane s.mask))
    let first := s.bixTarget a (lowestLane s.mask)
    let full := fun (mt mn : Word) (t f : Nat) => mt ≠ 0 ∧ mn ≠ 0 ∧ t ≠ f ∧ 78 ≤ s.g.stack.length
    let go := fun (mt mn : Word) (t f j : Nat) (bix : Bool) (u : State) =>
      u.modG fun g => (g.diverge u.sp mt mn t f (u.sp.joinOr j) bix (s.enteredAt f)).getD g
    (¬full nz z tgt s.after → Steers s (.bnz a off) (go nz (s.mask &&& ~~~nz) tgt s.after (max tgt s.after) false)) ∧
    (¬full z (s.mask &&& ~~~z) tgt s.after →
      Steers s (.bz a off) (go z (s.mask &&& ~~~z) tgt s.after (max tgt s.after) false)) ∧
    (¬full same (s.mask &&& ~~~same) first s.cur.slot →
      Steers s (.bix a) (go same (s.mask &&& ~~~same) first s.cur.slot (s.cur.slot + 1) true)) ∧
    (s.g.stack.length < 78 → Steers s (.call off) (fun u => u.modG fun g => (g.call u.sp s.after tgt).getD g)) ∧
    (full nz z tgt s.after → s.clear (.bnz a off) = true → Raises s (.bnz a off) (s.unit .stackOvf 0)) ∧
    (full z (s.mask &&& ~~~z) tgt s.after → s.clear (.bz a off) = true → Raises s (.bz a off) (s.unit .stackOvf 0)) ∧
    (full same (s.mask &&& ~~~same) first s.cur.slot → s.clear (.bix a) = true →
      Raises s (.bix a) (s.unit .stackOvf 0)) ∧
    (78 ≤ s.g.stack.length → s.clear (.call off) = true → Raises s (.call off) (s.unit .stackOvf 0))

/-- R68, R303: a branch that some lanes take and some do not pushes an entry with the join point and all the lanes;
where the group has a free split both ways go on at once, the lanes not taken in the bundle that they have entered, else
the lanes not taken wait in the entry. -/
def Obligations.Divergence : Prop :=
  ∀ (g : Group) (x : Split) (mt mn : Word) (t f j : Nat) (bix : Bool) (en : Option Entered),
    mt ≠ 0 → mn ≠ 0 → t ≠ f → g.stack.length < 78 →
    ∃ h : Group, g.diverge x mt mn t f j bix en = some h.arriveAll ∧
      ∃ e : Entry, h.stack = e :: g.stack ∧ e.kind = .div ∧ e.rpt = j ∧ e.mask = x.mask ∧ e.arr = 0 ∧
        e.fmt = x.fmt ∧ e.rmode = x.rmode ∧
        h.split? x.num = some { x with mask := mt, pc := t, join := none, entered := none, charged := false } ∧
        (g.splits.length < 4 → (g.split? g.freeSplit).isNone = true → g.freeSplit ≠ x.num → e.dmask = 0 ∧
          ∃ y, h.split? g.freeSplit = some y ∧ y.mask = mn ∧ y.pc = f ∧ y.fmt = x.fmt ∧ y.rmode = x.rmode ∧
            y.entered = en) ∧
        (4 ≤ g.splits.length → e.dmask = mn ∧ e.dtgt = f)

/-- R306, R317, R405: RET and TRET return to the nearest entry that is no divergence entry, where it is a call entry
or a trap entry; elsewhere they raise ILLEGAL_OPERAND. R63, R404: TRAP and BKPT raise their causes with the immediate as
INFO, an unassigned opcode raises ILLEGAL_OPCODE. -/
def Obligations.TrapsAndReturns : Prop :=
  ∀ (s : State) (next : Bool) (n op : Nat),
    (s.g.ret s.sp ≠ none → Steers s .ret (fun u => u.modG fun g => (g.ret u.sp).getD g)) ∧
    (s.g.tret s.sp next ≠ none → Steers s (.tret next) (fun u => u.modG fun g => (g.tret u.sp next).getD g)) ∧
    (s.g.ret s.sp = none → s.clear .ret = true → Raises s .ret (s.unit .illegalOperand 0)) ∧
    (s.g.tret s.sp next = none → s.clear (.tret next) = true → Raises s (.tret next) (s.unit .illegalOperand 0)) ∧
    (s.clear (.trap n) = true → Raises s (.trap n) (s.unit .trap n)) ∧
    (s.clear (.bkpt n) = true → Raises s (.bkpt n) (s.unit .bkpt n)) ∧
    (s.clear (.illegalOpcode op) = true → Raises s (.illegalOpcode op) (s.unit .illegalOpcode 0))

/-- R318, R320, R406: EXIT waits for the group's log, copies and matrix work, and then takes its lanes out of the group;
TSYNC issues in a group of one split once its accesses have been performed, counts, and goes on when the team's groups
have come to its count; HALT halts the group and posts HALTED in a privileged split once no matrix instruction of it is
at work, and raises PERMISSION in another. -/
def Obligations.ExitSyncHalt : Prop :=
  ∀ (s : State) (n : Word),
    (s.g.exitReady = true → s.noJob s.cur.group = true → s.g.copyFails = [] → Completes s .exit State.leaveLanesOut) ∧
    (s.g.exitReady = false → s.clear .exit = true → Stops s .exit (.wait .exit)) ∧
    (s.sp.wait = some .exit → s.reading.g.exitReady = true → s.reading.noJob s.cur.group = true →
      s.reading.g.copyFails = [] → Resumes s .exit State.leaveLanesOut) ∧
    (s.g.splits.length ≤ 1 → s.settled s.cur.group = true → s.noStale s.cur.group = true → s.clear .tsync = true →
      Stops s .tsync (.act fun u => (u.modG fun g => { g with tsync := s.g.tsync + 1 }).modSp fun x =>
        { x with wait := some (.tsync (s.g.tsync + 1)) })) ∧
    (s.sp.wait = some (.tsync n) → s.reading.teamAt_ s.cur.group n = true → Resumes s .tsync fun t => t) ∧
    (1 < s.g.splits.length → s.clear .tsync = true → Raises s .tsync (s.unit .illegalOperand 0)) ∧
    (s.priv = true → s.noJob s.cur.group = true → Completes s .halt fun u =>
      (u.modG fun g => { g with halted := true }).post (u.fnOfCtx (u.ctxOf u.cur.group)) evHalted
        (u.coreOf u.cur.group) (u.ctxOf u.cur.group) none) ∧
    (s.priv = false → s.clear .halt = true → Raises s .halt (s.uniReport .permission 0 0))

/-! ### Exceptions (R379 to R405) -/

/-- R385: taking an exception. The entry keeps slot, mask, format, rounding mode and the report; a save slot that no
other trap entry uses keeps the last-result pair and the lanes' records; the split goes to HVEC, privileged; nothing
else of the machine changes. With four trap entries or a full stack the context is killed instead. -/
def Obligations.ExceptionEntry : Prop :=
  ∀ (s : State) (g sp slot len : Nat) (r : Report) (x : Split),
    let gr := s.group g
    let t := s.deliver g sp r slot len
    let u := t.group g
    gr.split? sp = some x →
    (4 ≤ gr.trapDepth ∨ 80 ≤ gr.stack.length → t = s.killCtx (s.ctxOf g) evKill none) ∧
    (gr.trapDepth < 4 → gr.stack.length < 80 →
      t = s.setGroup g u ∧
      u = { gr with stack := u.stack, saves := u.saves, splits := u.splits } ∧
      (∃ e : Entry, u.stack = e :: gr.stack ∧ e.kind = .trap ∧ e.rpt = slot ∧ e.mask = x.mask ∧ e.fmt = x.fmt ∧
        e.rmode = x.rmode ∧ e.fltcause = r.fltcause ∧ e.fltlane = BitVec.ofNat 32 r.lane ∧ e.fltaddr = r.addr ∧
        e.fltmask = r.mask ∧ (tctlNext e.tctl = true ↔ r.cause = .trap) ∧ tctlLen e.tctl = len % 4 ∧
        (∀ f ∈ gr.stack, f.kind = .trap → f.done = false → tctlSave f.tctl ≠ tctlSave e.tctl) ∧
        u.saves.get ⟨Lanes.zero, Lanes.zero, [], []⟩ (tctlSave e.tctl) = ⟨x.l0, x.l1, r.laneAddr, r.laneCode⟩) ∧
      (∃ y, u.split? sp = some y ∧ y.pc = (s.ctx (s.ctxOf g)).hvec.toNat ∧ y.mask = x.mask ∧ y.fmt = x.fmt ∧
        y.rmode = x.rmode ∧ y.l0 = Lanes.zero ∧ y.l1 = Lanes.zero ∧ y.join = none ∧ y.wait = none) ∧
      t.privileged g x.mask = true ∧
      ∀ n, n ≠ sp → u.split? n = gr.split? n)

/-- R306, R385, R405: returning from an exception undoes taking it: the split stands at its slot again (after the
instruction for TRAP, or where TRET.next asks for it), with its mask, its format, its rounding mode and its last-result
pair, and the stack is as before. -/
def Obligations.ExceptionReturn : Prop :=
  ∀ (g : Group) (x : Split) (r : Report) (slot len hvec : Nat) (next : Bool),
    g.stack = [] → g.split? x.num = some x → x.mask ≠ 0 → len < 4 →
    ∃ h : Group, (g.deliver x r slot len hvec).tret ((g.deliver x r slot len hvec).split x.num) next = some h ∧
      h.stack = [] ∧
      (∃ y, h.split? x.num = some y ∧ y.pc = (if next = true ∨ r.cause = .trap then slot + len else slot) ∧
        y.mask = x.mask ∧ y.fmt = x.fmt ∧ y.rmode = x.rmode ∧ y.l0 = x.l0 ∧ y.l1 = x.l1) ∧
      ∀ n, n ≠ x.num → h.split? n = g.split? n

/-! ### System registers (R4, R65 to R67, R98, R381, R388, R402, R403, R407) -/

/-- R4, R403, R407: SRD gives the register's word, FLTRD the lanes' words of the innermost trap entry's record; the
fields for privileged splits read as zero in others. -/
def Obligations.SystemReads : Prop :=
  ∀ (s : State) (d : Dst) (reg : Nat) (f : FltK),
    Computes s (.srd d reg) d (fun _ => s.readSys reg) 0 ∧
    (s.priv = false → reg ∈ [0x001, 0x002, 0x003, 0x004, 0x005, 0x006, 0x007, 0x019, 0x021, 0x022] → s.readSys reg = 0) ∧
    (∀ e, s.priv = true → s.g.trapEntry s.sp = some e →
      let v := s.g.saves.get ⟨Lanes.zero, Lanes.zero, [], []⟩ (tctlSave e.tctl)
      Computes s (.fltrd f d) d (fun i =>
        match f with
        | .lo => loWord (v.addrs.getD i 0)
        | .hi => hiWord (v.addrs.getD i 0)
        | .cause => (v.codes.getD i 0).setWidth 32) 0) ∧
    (s.priv = false → Computes s (.fltrd f d) d (fun _ => 0) 0)

/-- R4, R65, R66, R98, R381, R402, R403: SWR, a MAPID write, a DTDATA write and PFDONE have their effect in a privileged
split whose table is not locked; a write of a register with privileged fields in another split, and a write that LOCK
refuses, raise PERMISSION; a PFDONE word above 1 raises ILLEGAL_OPERAND, which comes first (R382). GSTAT keeps LVCNT and RRTE as written and
clears its marks by ones, HVEC and XLROOT1 keep the word; the other groups and contexts, and memory, stay. -/
def Obligations.SystemWrites : Prop :=
  ∀ (s : State) (reg lane : Nat) (a : Src) (w : Word),
    let x := s.rd a
    let refused := fun reg w => (privilegedReg reg && !s.priv) || s.locked reg w
    (reg ≠ 0x008 → refused reg x.u = false → Completes s (.swr reg a) fun t => t.writeSys reg x.u) ∧
    (reg ≠ 0x008 → refused reg x.u = true → s.clear (.swr reg a) = true →
      Raises s (.swr reg a) (s.uniReport .permission 0 0)) ∧
    (s.priv = true → (∀ i, i < 32 → s.active i = true → (x.vals.get i).toNat ≤ 1) →
      Completes s (.swr 0x008 a) fun t =>
        (lanesOf s.mask).foldl (fun t i => t.laneDone t.cur.group i (decide (x.vals.get i = 1))) t) ∧
    ((∃ i, i < 32 ∧ s.active i = true ∧ 1 < (x.vals.get i).toNat) → s.clear (.swr 0x008 a) = true →
      Raises s (.swr 0x008 a) (s.unit .illegalOperand 0)) ∧
    (s.priv = true →
      Completes s (.pfdoneReplay lane) (fun t => t.laneDone t.cur.group lane false) ∧
      Completes s (.pfdoneAbort lane) (fun t => t.laneDone t.cur.group lane true)) ∧
    (s.priv = false →
      ((∀ i, i < 32 → s.active i = true → (x.vals.get i).toNat ≤ 1) → s.clear (.swr 0x008 a) = true →
        Raises s (.swr 0x008 a) (s.uniReport .permission 0 0)) ∧
      (s.clear (.pfdoneReplay lane) = true → Raises s (.pfdoneReplay lane) (s.uniReport .permission 0 0)) ∧
      (s.clear (.pfdoneAbort lane) = true → Raises s (.pfdoneAbort lane) (s.uniReport .permission 0 0))) ∧
    (refused 0x018 w = false → Completes s (.mapidWrite w) fun t => t.writeSys 0x018 w) ∧
    (refused 0x018 w = true → s.clear (.mapidWrite w) = true → Raises s (.mapidWrite w) (s.uniReport .permission 0 0)) ∧
    (refused 0x019 w = false → Completes s (.dtdataWrite w) fun t => t.writeSys 0x019 w) ∧
    (refused 0x019 w = true → s.clear (.dtdataWrite w) = true → Raises s (.dtdataWrite w) (s.uniReport .permission 0 0)) ∧
    (s.writeSys 0x000 w).g.gstat = (w &&& 0xFFFF0010) ||| (s.g.gstat &&& 5 &&& ~~~w) ∧
    ((s.writeSys 0x006 w).cx.hvec = hiWord s.cx.hvec ++ w) ∧
    ((s.writeSys 0x007 w).cx.hvec = w ++ loWord s.cx.hvec) ∧
    ((s.writeSys 0x021 w).cx.xlroot1 = hiWord s.cx.xlroot1 ++ (w &&& 0xFFFFF000)) ∧
    ((s.writeSys 0x022 w).cx.xlroot1 = (w &&& 0x00FFFFFF) ++ loWord s.cx.xlroot1) ∧
    (∀ reg, (s.writeSys reg w).mem = s.mem ∧ (s.writeSys reg w).teams = s.teams ∧
      (∀ n, n ≠ s.cur.group → (s.writeSys reg w).group n = s.group n) ∧
      ∀ c, c ≠ s.ctxOf s.cur.group → (s.writeSys reg w).ctx c = s.ctx c)

/-! ### Loads and stores (R91, R113, R118 to R135, R276) -/

/-- R91, R118 to R125, R129: a load or a store completes at issue by starting its access: its form's addresses, its
width, its destination or its lanes' data, and what holds or orders it; a time beyond the horizon raises TIME_HORIZON. A
load with a value for each lane does not fit a k register, which comes before a time beyond the horizon (R382). -/
def Obligations.LoadsAndStores : Prop :=
  ∀ (s : State) (w : Width) (d : Dst) (x : Nat) (a t y : Src) (off : Int) (fm : AForm) (rel : Bool) (sc : Scope)
    (v : DWord),
    (d.isK = false →
      Accesses s (.ld w d a off) (s.loadReq .gen w d ⟨a, off⟩) ∧
      Accesses s (.lds w d a off) (s.loadReq .loc w d ⟨a, off⟩) ∧
      Accesses s (.ldc w d a off) (s.loadReq .clu w d ⟨a, off⟩) ∧
      (s.holdTime rel t = some v →
        Accesses s (.ldNb fm w rel d a t) { s.loadReq fm w d ⟨a, 0⟩ with held := some v }) ∧
      Accesses s (.ldAcq fm w sc d a) { s.loadReq fm w d ⟨a, 0⟩ with acq := some sc }) ∧
    Accesses s (.ldUni fm w d a off) { s.loadReq fm w d ⟨a, off⟩ with uni := true } ∧
    (d.isK = false → s.holdTime rel t = none → s.clear (.ldNb fm w rel d a t) = true →
      Raises s (.ldNb fm w rel d a t) (s.unit .timeHorizon 0)) ∧
    (d.isK = true → s.clear (.ldNb fm w rel d a t) = true →
      Raises s (.ldNb fm w rel d a t) (s.unit .shapeMismatch 0)) ∧
    (d.isK = true → s.clear (.ld w d a off) = true → Raises s (.ld w d a off) (s.unit .shapeMismatch 0)) ∧
    Accesses s (.st w x a off) (s.storeReq .gen w (s.regData x w) ⟨a, off⟩) ∧
    Accesses s (.sts w x a off) (s.storeReq .loc w (s.regData x w) ⟨a, off⟩) ∧
    Accesses s (.stc w x a off) (s.storeReq .clu w (s.regData x w) ⟨a, off⟩) ∧
    (s.holdTime rel t = some v →
      Accesses s (.stVa fm w rel x a t) { s.storeReq fm w (s.regData x w) ⟨a, 0⟩ with held := some v }) ∧
    Accesses s (.stRel fm w sc a y) { s.storeReq fm w (s.srcData a y w) ⟨a, 0⟩ with rel := some sc } ∧
    (s.holdTime rel t = none → s.clear (.stVa fm w rel x a t) = true →
      Raises s (.stVa fm w rel x a t) (s.unit .timeHorizon 0))

/-- R117, R132 to R135: the atomics start a read-modify-write of 32 bits, an anchored sum one of 128 bits with the
addends rounded to the anchor, with NV for a NaN and ASAT for a saturated addend; PFET brings lines in and raises
nothing. The atomic operations' results are those of R133: bitwise, compared as signed or as unsigned numbers, exchanged, and
for fadd the exact sum rounded once to FP32 to nearest even. -/
def Obligations.Atomics : Prop :=
  ∀ (s : State) (op : AOp) (d : Dst) (a b x : Src) (c : CSrc) (anchor off : Int) (old v w : Word),
    let y := s.rd2 a b
    let z := s.rdc c
    let req := fun (fm : AForm) =>
      { s.loadReq fm .w32 d ⟨a, 0⟩ with
        kind := AccKind.atomic op, data := fun i => (y.vals.get i).toNat
        cmp := fun i => if op.isCas then z.vals.get i else 0
        zeroOld := decide (fm = .gen) && (s.descOf s.cur.group).det, family := false }
    let n := fun i => anchored anchor ((s.rd2 a x).vals.get i)
    let rs := (lanesOf s.mask).map fun i =>
      (i, s.prefetchLane s.cur.group i (s.addrOf .gen ⟨a, off⟩ 4 i) s.priv s.choice)
    let sum := { s.storeReq .gen .w128 (fun i => (n i).1) ⟨a, 0⟩ with kind := AccKind.asum, family := false }
    (d.isK = false →
      Accesses s (.atom op d a b c) (req .gen) ∧ Accesses s (.atoms op d a b c) (req .loc)) ∧
    (s.admits sum = true → Completes s (.asum a x anchor) fun t =>
      ((s.started sum t).orFlags (if (lanesOf s.mask).any fun i => (n i).2.1 then flNV else 0)).modG fun g =>
        { g with gstat := if (lanesOf s.mask).any fun i => (n i).2.2 then g.gstat ||| 4 else g.gstat }) ∧
    (checkedPa rs = none → Completes s (.pfet a off) fun t =>
        rs.foldl (fun t r => t.prefetch s.cur.group r.2 s.priv s.choice) t.chosen) ∧
    atomNew .add old v w = old + v ∧ atomNew .and old v w = old &&& v ∧ atomNew .or old v w = old ||| v ∧
    atomNew .xor old v w = old ^^^ v ∧ atomNew .xchg old v w = v ∧
    (atomNew .mins old v w).toInt = min old.toInt v.toInt ∧ (atomNew .maxs old v w).toInt = max old.toInt v.toInt ∧
    (atomNew .minu old v w).toNat = min old.toNat v.toNat ∧ (atomNew .maxu old v w).toNat = max old.toNat v.toNat ∧
    (old = w → atomNew .cas old v w = v) ∧ (old ≠ w → atomNew .cas old v w = old) ∧
    atomNew .fadd old v w = (rne32 (addVal false (f32 old) (f32 v)).1).1

/-- R78, R91, R276, R280: the frame of an access as it starts, on lanes that reach memory and scratchpads alone: every byte
of memory but the A and D bits' bytes of the table entries that its translations used, and every byte of every
scratchpad, is unchanged, the other groups too, and of its own group all but the destinations and the access, which
stands in flight with the parts of its lanes. -/
def Obligations.AccessFrame : Prop :=
  ∀ (s : State) (q : Req) (m : Word) (key slot : Nat) (priv use : Bool),
    let g := s.cur.group
    let t := s.startAccess q (s.reach q) key slot m priv use none
    (∀ r ∈ s.reach q, r.2.plain = true) → s.reach q ≠ [] → s.memOk = true →
    (∀ x, (∀ r ∈ s.reach q, x ∉ r.2.marks) → Memory.get t.mem x = Memory.get s.mem x) ∧ t.teams = s.teams ∧ t.ctxs = s.ctxs ∧ t.fns = s.fns ∧ t.launches = s.launches ∧
    (∀ n, n ≠ g → t.group n = s.group n) ∧
    (∃ a, (t.group g).access? key = some a ∧ a.kind = q.kind ∧ a.dest = q.dest ∧ a.held = q.held ∧ a.acq = q.acq ∧
      a.rel = q.rel ∧ a.mask = m ∧ a.width = q.width ∧ a.slot = slot ∧
      a.parts = (s.reach q).flatMap fun r => q.partsOf r.1 r.2) ∧
    (∀ k, k ≠ key → (t.group g).access? k = (s.group g).access? k) ∧
    (∀ n, (∀ j, j < q.width.regs → q.dest ≠ some (.v (n - j)) ∨ n < j) → (t.group g).v n = (s.group g).v n) ∧
    (∀ n, (t.group g).o n = (s.group g).o n ∧ (t.group g).k n = (s.group g).k n) ∧
    (t.group g).splits = (s.group g).splits ∧ (t.group g).flags = (s.group g).flags ∧ (t.group g).log = (s.group g).log

/-- R121, R133, R276, R280, R282: performing a store at its homes: every byte of memory and of every scratchpad that the
performed parts do not hold is unchanged, and the other groups too. A part of a store leaves its data at its place,
little-endian; an atomic leaves the result of its operation on the word that was there; a sum adds modulo 2^128. -/
def Obligations.StoreFrame : Prop :=
  ∀ (s : State) (g acc i : Nat) (ids : List Nat) (a : Access) (p : Part) (pa : Nat),
    let todo := a.closure ids
    let ps := todo.filterMap fun i => a.parts[i]?
    (s.group g).access? acc = some a → a.kind.writes = true → a.held = none → s.memOk = true →
    (s.mayPerform g acc a todo = true → s.failedIn a.kind ps = none →
      ∃ t, exec (.writePerformed g acc ids) s = .next t ∧
        (∀ x, (∀ p ∈ ps, p.hasPa x = false) → Memory.get t.mem x = Memory.get s.mem x) ∧
        (∀ u x, (∀ p ∈ ps, p.hasScr u x = false) →
          Memory.get (t.team u).scratch x = Memory.get (s.team u).scratch x) ∧
        ∀ n, n ≠ g → t.group n = s.group n) ∧
    (a.closure [i] = [i] → a.parts[i]? = some p → p.loc = .phys pa → s.mayPerform g acc a [i] = true →
      s.failedIn a.kind [p] = none →
      ∃ t, exec (.writePerformed g acc [i]) s = .next t ∧
        Memory.read t.mem pa p.size = a.kind.new (Memory.read s.mem pa p.size) p.data p.cmp % 2 ^ (8 * p.size))

/-- R92, R120, R123, R180: a load that comes back, into a bank that has room for it and where no allocation comes before it:
each lane of the destination takes the bytes at its place as they are at
that time, extended as the width says; the lanes that do not take part keep their values, and memory is unchanged. -/
def Obligations.LoadedLanes : Prop :=
  ∀ (s : State) (g acc n : Nat) (a : Access) (at_ : Nat → Nat),
    let ids := List.range a.parts.length
    (s.group g).access? acc = some a → a.kind = .load → a.held = none → a.uni = false → a.zeroMask = 0 → a.ended = 0 →
    a.late = 0 → a.dest = some (.v n) → a.width.regs = 1 → s.replicas = [] → s.oracle = [] →
    s.slotsUsed (s.coreOf g) + 4 ≤ bankSlots → (s.core (s.coreOf g)).requester = none →
    (a.parts.map fun p => (p.lane, p.sub, p.size, p.loc)) =
      ((lanesOf a.mask).map fun i => (i, 0, a.width.bytes, Loc.phys (at_ i))) →
    (∀ p ∈ a.parts, p.performed = false ∧ p.dropped = false ∧ p.logged = false) →
    s.mayPerform g acc a ids = true → s.failedIn .load a.parts = none →
    ∃ t, exec (.loadReturn g acc ids) s = .next t ∧ t.mem = s.mem ∧ t.teams = s.teams ∧
      (t.group g).access? acc = none ∧
      (∀ k, k < 32 → ((t.group g).v n).lanes.get k =
        if laneIn a.mask k then a.width.word (Memory.read s.mem (at_ k) a.width.bytes) 0
        else ((s.group g).v n).lanes.get k) ∧
      (∀ k, k ≠ n → (t.group g).v k = (s.group g).v k) ∧
      ∀ k, k ≠ g → t.group k = s.group k

/-! ### Fences, time, mapped regions (R113, R114, R136 to R138, R280, R348, R349) -/

/-- R130, R131, R136, R280, R293, R348, R349: FENCE takes its place among the group's accesses, and changes nothing else.
A full one and a release stall while an earlier write of the group is not at every replica (R293): that it waits there,
for the writes on which log entry 11 (DESIGN CHOICE) lets a replica lag, and not elsewhere, is the model's reading (log
entry 108, DEDUCED). One of the whole system lets no later access that it orders be performed before the earlier ones. TNOW reads the die's time; TWAIT goes on once the time is
reached, and waits before; SPTEST gives the window's code of each lane's address, SPCAST the address in another form, or
all ones. -/
def Obligations.FencesTimeAndWindows : Prop :=
  ∀ (s : State) (k : FenceK) (sc : Scope) (rel : Bool) (a : Src) (d : Nat) (v : DWord) (w : Dst) (fr : CastFrom)
    (tgt : CastTo) (f : FenceRec) (e x : Access) (h n acc : Nat) (ids : List Nat),
    let g := s.cur.group
    let val := fun i => castTo tgt (s.logicalCore s.cur.group) (s.castFrom fr a i)
    let sh := if fr = .gen then s.pairShape a else shapeOf [s.rd a]
    (k = .acq ∨ s.propagated g = true → Completes s (.fence k sc) fun t => t.addFence k sc) ∧
    (k ≠ .acq → s.propagated g = false → s.clear (.fence k sc) = true → exec (.fence k sc) s = .next s) ∧
    s.addFence k sc = s.setGroup g { s.g with fences := (s.addFence k sc).g.fences } ∧
    (f ∈ (s.group h).fences → f.scope = .sys → f.between e.mask n acc x = true → f.kinds e.kind.reads x = true →
      (n, e) ∈ (s.group h).inflight → e.held = none → e.open_ = true →
      poBefore e.mask n x.mask x.past = true → s.mayPerform h acc x ids = false) ∧
    Completes s (.tnow d) (fun t => t.writePair d (s.gtime g)) ∧
    (s.timeOperand rel a ≤ s.gtime g → Steers s (.twait rel a) fun t => t) ∧
    (s.gtime g < s.timeOperand rel a → s.clear (.twait rel a) = true →
      Stops s (.twait rel a) (.wait (.twait (s.timeOperand rel a)))) ∧
    (s.sp.wait = some (.twait v) → v ≤ s.reading.gtime g → Resumes s (.twait rel a) fun t => t) ∧
    (w.isK = false → Computes s (.sptest w a) w (fun k => BitVec.ofNat 32 (s.windowCode (s.rdPair a k))) 0) ∧
    (w.isK = false → tgt.generic = false → Computes s (.spcast fr tgt w a) w (fun k => (val k).setWidth 32) 0) ∧
    (tgt.generic = true → Completes s (.spcast fr tgt w a) fun t =>
      (t.writeVec w sh (Lanes.ofFn fun k => (val k).setWidth 32)).writeDst (w.plus 1) sh
        (Lanes.ofFn fun k => (val k >>> 32).setWidth 32))

/-- R113, R114, R137, R138: RMAP maps a run of lines, or gives all ones where the team's eight entries are taken and all
ones but bit 0 where the run would overlap a mapped one; RFLUSH writes the DIRTY lines back, and RDROP frees the entry;
an entry that is not mapped is no error. -/
def Obligations.MappedRegions : Prop :=
  ∀ (s : State) (d : Nat) (a b n : Src) (c : CSrc),
    let o := (s.rd a).u.toNat
    let len := (s.rd2 a b).u.toNat
    let gl := pair64 (s.rdc c).u (s.rdv (c.n + 1)).u
    let k := teamOf s.cur.group
    let e := (s.rd n).u.toNat
    (s.mapCause o len gl = none → Completes s (.rmap d a b c) fun t => t.mapRegion d o len gl.toNat) ∧
    (∀ q, s.mapCause o len gl = some q → s.clear (.rmap d a b c) = true →
      Raises s (.rmap d a b c) (s.uniReport q.1 q.2 0)) ∧
    (s.sp.wait = none → (8 ≤ e ∨ (s.team k).region? e = none) → Completes s (.rflush n) id) ∧
    (∀ r, s.sp.wait = none → e < 8 → (s.team k).region? e = some r →
      (∀ l ∈ r.dirty, ∃ pa p01 rm tr, s.backLine (s.coreOf s.cur.group) r l s.priv s.choice = (.ok pa p01 rm, tr) ∧
        s.denied s.cur.group pa ⟨0, 0, 128, .write, .gen, false, false, false⟩ s.priv = false ∧
        s.backOpen s.cur.group pa = true) →
      (∀ l ∈ r.dirty, s.escapes s.cur.group (r.glob + 128 * l) 128 = false) → s.quiet s.cur.group = true →
      Completes s (.rflush n) fun t => (s.flushable r s.priv s.choice).foldl (fun t l =>
        match l.2.1 with
        | .ok pa p01 _ => t.putBack k (s.rd n).u.toNat l.1 pa l.2.2 p01 s.cur.group
        | _ => t) t.chosen) ∧
    Completes s (.rdrop n) fun t => t.dropRegion (teamOf t.cur.group) e

/-! ### Copies, barriers and the access engine (R143 to R165) -/

/-- R143, R149 to R151, R160: CPY and CPYL add the copy that their descriptor describes to the open batch, CBATCH closes
the batch and gives its number, CWAIT goes on when the copies of its batches are complete and waits before; CPY.f in a
group raises ILLEGAL_OPERAND. -/
def Obligations.CopyInstructions : Prop :=
  ∀ (s : State) (a : Src) (d n : Nat) (all : Bool) (linear : Bool) (bs : List Byte) (ts : List Target) (w : Word),
    let i := if linear then Instr.cpyl a else .cpy a
    let addr := (s.rd a).u.setWidth 64
    let c := copyOf linear bs s
    let upto := if all then s.g.lastClosed else s.g.waitBatch (s.rd a).u
    (s.sp.wait = none → s.inRegion addr (if linear then 32 else 48) 16 →
      (∀ k : List Byte → List Target → Except Stop (State → State),
        s.openLocal addr (if linear then 32 else 48) k =
          (k bs ts).map fun f u => f (ts.foldl (fun u t => u.noteOwn .read t) u)) →
      badCopy linear bs = false →
      worstAt (s.baseCauses c.sbase ++ s.baseCauses c.dbase ++ s.barCauses c.bar) = none →
      (windowOf c.dbase = .glob → s.escapes s.cur.group c.dbase.toNat 1 = false) → s.g.copies.length < 16 →
      Completes s i fun t =>
        ((ts.foldl (fun u t => u.noteOwn .read t) t).leaveTargets ts).modG fun g => g.addCopy c) ∧
    Completes s (.cbatch d) (fun t => (t.writeUni (.v d) s.g.batchOpen).modG fun g =>
      { g with batchOpen := s.g.batchOpen + 1 }) ∧
    (s.g.batchDone upto = true → (∀ f ∈ s.g.copyFails, atOrBelow f.batch upto = false) →
      Steers s (.cwait all a) id) ∧
    (s.g.batchDone upto = false → s.clear (.cwait all a) = true → Stops s (.cwait all a) (.wait (.cwait upto))) ∧
    (s.sp.wait = some (.cwait w) → s.reading.g.batchDone w = true →
      (∀ f ∈ s.reading.g.copyFails, atOrBelow f.batch w = false) → Resumes s (.cwait all a) id) ∧
    (s.clear (.cpyFeed n a) = true → Raises s (.cpyFeed n a) (s.unit .illegalOperand 0))

/-- R153: after every update by BARI, BARX, BARA or a copy's arrival, in the same indivisible update, the phase completes
if ARRA = EXPA and ARRB = EXPB: PHASE is inverted, LASTERR takes ERR, and ERR, EXPB, ARRB and ARRA are cleared; EXPA is
kept. R156 to R158: BARX and BARA update once the group's earlier accesses have been performed; BARW gives the phase and
LASTERR once the phase has passed, and waits before; a line of its object that is INVALID is filled first (R113). Each of the
three notes which events of its group an ordering of a scope lets it overtake (noteOwn; log entry 7, DEDUCED). -/
def Obligations.BarrierInstructions : Prop :=
  ∀ (s : State) (b : Src) (n c d g slot : Nat) (c32 use : Bool) (t : Target) (x : Bar) (y : Copy) (cnt : Option Nat)
    (w p : Word),
    let addr := (s.rd b).u.setWidth 64
    let par := (s.rdv d).u &&& 1
    let done := s.settled s.cur.group && s.noStale s.cur.group
    let now := (s.leaveTarget t).barAt t
    let then_ := (s.reading.leaveTarget t).barAt t
    (x.arra = x.expa → x.arrb = x.expb →
      x.settle = { expb := 0, arrb := 0, arra := 0, expa := x.expa, lasterr := x.err, err := false, phase := !x.phase }) ∧
    (x.arra ≠ x.expa ∨ x.arrb ≠ x.expb → x.settle = x) ∧
    (y.bar ≠ 0xFFFFFFFF →
      s.checkLane g ⟨0, y.bar.setWidth 64, 16, .atomic, .clu, false, false, true⟩ y.priv use = .ok t →
      s.engMay g .asum t = true → s.copyLags g y = false → s.copyBytes g y use = .ok cnt →
      s.copyFinish g slot y use =
        (s.updateBar t fun x => (x.land cnt y.failed.isSome).settle).copyEnd g slot y
          (y.failed.map fun f => (f.1, f.2.1))) ∧
    (s.reaches .loc addr 16 .atomic t →
      Completes s (.bari b n) fun v => (v.noteOwn .atomic t).updateBar t fun _ => (Bar.initial n).settle) ∧
    (s.reaches (barForm c32) addr 16 .atomic t → done = true →
      Completes s (.barx c32 b c)
        (fun v => (v.noteOwn .atomic t).updateBar t fun x => (x.expect (s.rdv c).u.toNat).settle) ∧
      Completes s (.bara c32 b) (fun v => (v.noteOwn .atomic t).updateBar t fun x => x.arrive.settle)) ∧
    (s.reaches .loc addr 16 .read t →
      (now.phase ≠ par.getLsbD 0 → Completes s (.barw d b) fun u => ((u.noteOwn .read t).leaveTarget t).writeUni (.v d)
        (BitVec.ofNat 32 (now.lasterr.toNat * 2 + now.phase.toNat))) ∧
      (now.phase = par.getLsbD 0 → s.clear (.barw d b) = true →
        Stops s (.barw d b) (if t.fills = [] then .wait (.barw (s.rd b).u par)
          else .act fun u => (u.leaveTarget t).modSp fun y => { y with wait := some (.barw (s.rd b).u par) }))) ∧
    (s.sp.wait = some (.barw w p) →
      s.reading.checkLane s.cur.group ⟨0, w.setWidth 64, 16, .read, .loc, false, false, true⟩ s.reading.priv s.reading.choice = .ok t →
      s.reading.g.logClash .loc (w.setWidth 64) 16 = false → s.reading.clearOf .read t = true →
      then_.phase ≠ p.getLsbD 0 →
      Resumes s (.barw d b) fun u => ((u.noteOwn .read t).leaveTarget t).writeUni (.v d)
        (BitVec.ofNat 32 (then_.lasterr.toNat * 2 + then_.phase.toNat)))

/-- R152, R154, R157: the barrier object's own rules: an object reads back as it was written; an arrival beyond the
expected number and a byte count that leaves 32 bits set ERR; a failed copy arrives with its count and sets ERR, and one
whose count is unknown sets ARRB to EXPB. -/
def Obligations.BarrierObject : Prop :=
  ∀ (b : Bar) (n : Nat),
    (b.expb < 2 ^ 32 → b.arrb < 2 ^ 32 → b.expa < 65536 → b.arra < 65536 → Bar.ofNat b.toNat = b) ∧
    (b.arra < b.expa → b.arrive = { b with arra := b.arra + 1 }) ∧
    (b.expa ≤ b.arra → b.arrive = { b with err := true }) ∧
    (b.expb + n < 2 ^ 32 → b.expect n = { b with expb := b.expb + n }) ∧
    (2 ^ 32 ≤ b.expb + n → b.expect n = { b with expb := 2 ^ 32 - 1, err := true }) ∧
    (b.arrb + n < 2 ^ 32 → b.land (some n) false = { b with arrb := b.arrb + n } ∧
      b.land (some n) true = { b with arrb := b.arrb + n, err := true }) ∧
    (2 ^ 32 ≤ b.arrb + n → ∀ failed, b.land (some n) failed = { b with arrb := 2 ^ 32 - 1, err := true }) ∧
    (∀ failed, b.land none failed = { b with arrb := b.expb, err := true })

/-- R144 to R148, R159 to R165, R280, R406: ASTART starts the slice at its bundle with v0, and empties the feeds; ASTOP
stops a running slice, and empties the feeds where it says so; FSTAT reads both. An engine's step: COPY_COMPLETE moves a
linear copy's next bytes, one after the other, and a copy whose group is not live, or is halted, or waits for a fault,
does not move; SLICE_STEP steps a running slice of a live bank that nothing before its start is ordered before, and no
other; what an ordering of a scope lets it overtake is noted (log entry 7, DEDUCED). That a halted group's copies and slice
stand still is the model's choice (log entry 124, DESIGN CHOICE), and the report of MISALIGNED names every lane (log entry
47, DEDUCED). -/
def Obligations.AccessEngine : Prop :=
  ∀ (s : State) (a : Src) (x g slot n : Nat) (discard : Bool) (d : Dst) (c : Copy),
    ((s.rdPair a 0).toNat % 16 = 0 → Completes s (.astart a x) fun t => t.modG fun g => { g with
      feeds := []
      slice := { Slice.initial with
        st := .running, pc := (s.rdPair a 0).toNat / 16 * 3, vregs := [(0, .uniform (s.rdv x).u)],
        gen := g.slice.gen + 1, order := t.accKey, mask := t.mask, past := g.past t.mask, priv := t.priv } }) ∧
    ((s.rdPair a 0).toNat % 16 ≠ 0 → s.clear (.astart a x) = true →
      Raises s (.astart a x) (s.uniReport .misaligned (s.rdPair a 0) 0)) ∧
    (Completes s (.astop discard) fun t => t.modG fun g =>
      if g.slice.st = .unbound then g
      else { g with
        slice := if g.slice.st = .running then { g.slice with st := .stopped, walk := none } else g.slice
        feeds := if discard then [] else g.feeds }) ∧
    Computes s (.fstat d) d (fun _ => s.g.fstat) 0 ∧
    (exec (.copyComplete g slot n) s = .next (s.copyStep g slot n)) ∧
    ((s.group g).copy? slot = none → s.copyStep g slot n = s) ∧
    ((s.group g).copy? slot = some c → s.chosen.copyMay g c = false → s.copyStep g slot n = s.chosen) ∧
    ((s.group g).copy? slot = some c → s.chosen.copyMay g c = true → c.linear = true → c.aborted = false →
      s.copyStep g slot n = s.chosen.copyRun g slot n none s.choice) ∧
    ((s.group g).live = true → (s.group g).bank = .live → (s.group g).halted = false →
      (s.group g).slice.st = .running → (s.group g).slice.faulted = false → (s.group g).slice.aborted = false →
      s.sliceOrdered g = true →
      exec (.sliceStep g) s = .next (s.chosen.sliceEarly g fun t => t.sliceGo g s.choice) ∧
      (s.chosen.sliceBefore g = [] → exec (.sliceStep g) s = .next (s.chosen.sliceGo g s.choice))) ∧
    ((s.group g).live = false ∨ (s.group g).bank ≠ .live ∨ (s.group g).halted = true ∨
      (s.group g).slice.st ≠ .running ∨ s.sliceOrdered g = false → exec (.sliceStep g) s = .next s)

/-! ### The matrix engine (R245 to R273) -/

/-- R245, R253, R259 to R262, R266 to R269: a matrix instruction that finds MX free, its macros and tiles in the
allotment and its bytes in the team region completes at issue by giving MX its job; what it may not name raises
ILLEGAL_OPERAND. That it does not issue while MX is not free is the model's choice (log entry 40, DESIGN CHOICE). -/
def Obligations.MatrixIssue : Prop :=
  ∀ (s : State) (p : MPair) (lowh hold : Bool) (q m c lo : Nat) (a : Src) (tag : WTag) (f : MFmt) (bf : Bool) (t : ScaleT)
    (d : Dst),
    let b := (s.rd a).u.setWidth 64
    let g := s.cur.group
    let mmr := if hold then Instr.mmrHold p lowh q m c a lo else .mmr p lowh q m c a lo
    let x : Lad := ⟨p, lowh, hold, false, q, m, c, lo⟩
    (s.mxFree = false → s.clear (.wld tag m a c) = true → exec (.wld tag m a c) s = .next s) ∧
    (s.mxFree = false → s.clear (.qzero q c) = true → exec (.qzero q c) s = .next s) ∧
    (s.mxFree = true →
    (s.macrosOk m c = false → s.clear (.wld tag m a c) = true → Raises s (.wld tag m a c) (s.unit .illegalOperand 0)) ∧
    (s.tilesOk q c = false → s.clear (.qzero q c) = true → Raises s (.qzero q c) (s.unit .illegalOperand 0)) ∧
    (s.badLadder x a = true → s.clear mmr = true → Raises s mmr (s.unit .illegalOperand 0)) ∧
    (s.macrosOk m c = true → s.inRegion b (8192 * c) 16 → Completes s (.wld tag m a c) (State.given (s.newJob (.wld tag m a c) b))) ∧
    (s.badLadder x a = false → s.rowsInRegion b p.rowBytes → Completes s mmr (State.given (s.newJob mmr b))) ∧
    (s.macrosOk m (c * f.perTile) = true → s.tilesOk q c = true →
      (∀ k, k < c * f.perTile → (s.macroOf g (m + k)).tag = f.tag) → (∀ k, k < c → (s.g.tile (q + k)).st = .empty) →
      s.rowsInRegion b (128 * f.bytes) → Completes s (.mmf f q m c a) (State.given (s.newJob (.mmf f q m c a) b))) ∧
    (s.tilesOk q c = true → Completes s (.qzero q c) (State.given (s.newJob (.qzero q c) 0))) ∧
    (s.tilesOk q 1 = true → s.inRegion b (t.count * if bf then 2 else 4) (if bf then 2 else 4) →
      Completes s (.qscale bf t q a) (State.given (s.newJob (.qscale bf t q a) b))) ∧
    (s.tilesOk q c = true → s.inRegion b (imageBytes * c) 64 →
      Completes s (.qsave a q c) (State.given (s.newJob (.qsave a q c) b))) ∧
    (s.tilesOk q 1 = true → Completes s (.qstat d q) fun t =>
      State.given { s.newJob (.qstat d q) 0 with dest := some d }
        (t.modG fun g => g.reserve (some d) .w32 (decide (s.mask = fullMask)))))

/-- R245, R256, R260, R263, R270 to R273: the matrix instructions that read or check more as they issue: MMC its
descriptor, its record and its rows, QLOAD its images, QDRAIN the addresses of its elements. That the images which QLOAD
reads and checks as it issues are those that it loads is the model's reading (log entry 50, DEDUCED). -/
def Obligations.MatrixIssueReads : Prop :=
  ∀ (s u : State) (p : MPair) (lowh hold z : Bool) (q m c lo sv : Nat) (a : Src) (f : DFmt) (r : RSel)
    (rows : List (Nat × Except (Cause × Nat × DWord) (List Nat))),
    let b := (s.rd a).u.setWidth 64
    let g := s.cur.group
    let mmc := if hold then Instr.mmcHold p lowh q m c a lo else .mmc p lowh q m c a lo
    let x : Lad := ⟨p, lowh, hold, true, q, m, c, lo⟩
    let bytes := fun n => Memory.bytes (u.team (teamOf g)).scratch b.toNat n
    let d : Drain := ⟨f, r, z, q, c, s.rdPair a 0, (s.rdv sv).u⟩
    let drained := (lanesOf s.mask).map fun i => (i, s.drainRow g d s.priv s.choice i)
    s.mxFree = true → s.sp.wait = none →
    (s.badLadder x a = false → s.inRegion b 32 16 → s.settled g = true →
      s.homeOpen g .load false (.scr (teamOf g) b.toNat) 32 = true →
      s.fillRange g b.toNat 32 s.priv s.choice = .ok u →
      (u.convRows g s.priv s.choice (bytes 32) p.nib s.mask).2 = .ok rows →
      (∀ e ∈ rows, ∃ row, e.2 = .ok row) →
      Completes s mmc fun v =>
        State.given { s.newJob mmc b with desc := bytes 32 } (v.convRows g s.priv v.choice (bytes 32) p.nib s.mask).1) ∧
    (s.tilesOk q c = true → s.inRegion b (imageBytes * c) 64 → s.settled g = true →
      s.homeOpen g .load false (.scr (teamOf g) b.toNat) (imageBytes * c) = true →
      s.fillRange g b.toNat (imageBytes * c) s.priv s.choice = .ok u →
      (∀ k, k < c → (tileOfImage (((bytes (imageBytes * c)).drop (imageBytes * k)).take imageBytes)).isSome = true) →
      Completes s (.qload a q c) fun v =>
        State.given { s.newJob (.qload a q c) b with desc := bytes (imageBytes * c) }
          (match v.fillRange g b.toNat (imageBytes * c) s.priv v.choice with
          | .ok w => w
          | .error _ => v)) ∧
    (s.tilesOk q c = true → (z = true → ∀ k, k < c → (s.g.tile (q + k)).st = .empty) →
      (∀ row ∈ drained, ∀ e ∈ row.2, e.2.2.2.good = true ∧ s.g.logClash .gen e.2.2.1 f.bytes = false) →
      Completes s (.qdrain f r z a q c sv)
        (State.given { s.newJob (.qdrain f r z a q c sv) (s.rdPair a 0) with stride := (s.rdv sv).u }))

/-- R249: an activation is the weighted sum of its bit planes, from the top plane down; the planes of any split of a
ladder into two ranges add up exactly to the product over all of them; at most 128 products of magnitude 128 × 128
stay within 2,097,152, and a partial of that size comes back from its residues exactly, which channel-wise addition
adds: no partial wraps. -/
def Obligations.LadderIsExact : Prop :=
  ∀ (w k x : Nat) (row : List Nat) (ws : List Int) (a b : Int),
    let part := fun (ps : List Nat) => (ps.map fun p => planeWeight (w - 1) p * planeSum p row ws).sum
    let total := ((row.zip ws).map fun x => signedOf w x.1 * x.2).sum
    (0 < w → planesDown (w - 1) w = (List.range w).reverse) ∧
    (0 < w → x < 2 ^ w → signedOf w x =
      ((planesDown (w - 1) w).map fun p => planeWeight (w - 1) p * if bitOf x p then 1 else 0).sum) ∧
    (0 < w → k ≤ w → (∀ x ∈ row, x < 2 ^ w) → row.length = ws.length →
      part (planesDown (w - 1) k) + part (planesDown (w - 1 - k) (w - k)) = total ∧
      (w ≤ 8 → row.length ≤ 128 → (∀ y ∈ ws, y.natAbs ≤ 128) → total.natAbs ≤ 2097152)) ∧
    (a.natAbs ≤ 2097152 → crtDecode (residueOf a) = a) ∧
    residueAdd (residueOf a) (residueOf b) = residueOf (a + b)

/-- R253, R254, R257, R258, R262, R266 to R273: MATRIX_START fetches for the job that MX holds, once the group's earlier
accesses are performed and the region's home lets it; MATRIX_RESUME gives MX the live bank's interrupted job again and
starts it; and MATRIX_COMPLETE does what the instruction does: QZERO's tiles are as at group start, WLD's macros hold the
region's bytes, QSCALE's tile its scales, and each tile of an MMR's or an MMC's set the sums of the planes, HELD where it
holds and else with the epilogue and EMPTY. MX is then free. -/
def Obligations.MatrixEvents : Prop :=
  ∀ (s : State) (j : Job) (g : Nat),
    let c := s.site
    ((s.core c).mx = some j → j.started = false → j.waiting = false →
      (j.touches = true → s.earlierDone j = true ∧ s.jobOpen j = true) →
      exec .matrixStart s = .next ((s.chosen.reloadMacros j.group).fetchJob j s.choice)) ∧
    ((s.core c).mx = none → s.suspendedOn c = some g → (s.group g).suspended = some j →
      exec .matrixResume s = .next
        (((s.setGroup g { s.group g with suspended := none }).setCore c { s.core c with mx := some j }).startJob c)) ∧
    ((s.core c).mx = some j → j.started = true → j.waiting = false → (j.touchesLast = true → s.jobOpen j = true) →
      j.drain? = none → s.statStop j = none →
      exec .matrixComplete s = .next ((s.finishJob j).modJob j.group fun _ => none)) ∧
    (∀ d, (s.core c).mx = some j → j.started = true → j.waiting = false → j.drain? = some d →
      exec .matrixComplete s = .next (s.chosen.runDrain j d s.choice)) ∧
    ((s.core c).mx = none → exec .matrixStart s = .next s ∧ exec .matrixComplete s = .next s) ∧
    (∀ q n k, j.instr = .qzero q n → k < n → ((s.finishJob j).group j.group).tile (q + k) = Tile.initial) ∧
    (∀ tag m a n k, j.instr = .wld tag m a n → k < n →
      (s.finishJob j).macroOf j.group (m + k) =
        ⟨Memory.bytes (s.team (teamOf j.group)).scratch (j.base.toNat + 8192 * k) 8192, tag, some (j.base.toNat + 8192 * k)⟩) ∧
    (∀ bf t q a, j.instr = .qscale bf t q a →
      ((s.finishJob j).group j.group).tile q = ((s.group j.group).tile q).scale t (s.scales j bf t.count)) ∧
    (∀ x e, j.instr.lad? = some x → e ∈ x.set →
      let hi := (s.group j.group).ladderTop x
      let t := ((s.group j.group).tile e.1).ladder (s.macroOf j.group e.2.1) e.2.2 x.pair.top
        (planesDown hi (hi + 1 - x.lo)) j.rows
      let u := ((s.finishJob j).group j.group).tile e.1
      (x.hold = false → u = (t.finishRows j.mask).1.cleared) ∧
      (x.hold = true → u.st = .held ∧ u.next = x.lo - 1 ∧ u.addr = j.base.setWidth 32 ∧ u.mask = j.mask ∧
        u.pairs = t.pairs ∧ u.shadows = t.shadows ∧ u.rs = t.rs ∧ u.cs0 = t.cs0 ∧ u.cs1 = t.cs1))

/-! ### Result objects (R354 to R377) -/

/-- R357, R358, R370: VBEGIN opens a pass in the lowest free slot, joins the pass that is open, waits for a slot or for
the open pass, and raises SEAL_ORDER for a pass that is not ahead; VSLOT gives the working slot's or the last version's
address, or all ones. -/
def Obligations.Passes : Prop :=
  ∀ (s : State) (h pa d slot : Nat) (a : Src) (tr : Trail) (prev : Bool),
    let k := (s.rd a).u
    let r := s.vrec pa
    s.sp.wait = none → (s.handle h).produces = true →
    (k ≠ 0 → s.recordAt h .atomic pa tr →
      (r.begin k.toNat = .opens slot → Completes s (.vbegin h a) fun t => (t.atRecord .atomic pa tr).openPass pa k.toNat slot) ∧
      (r.begin k.toNat = .join → Completes s (.vbegin h a) fun t => t.atRecord .atomic pa tr) ∧
      (r.begin k.toNat = .wait → s.clear (.vbegin h a) = true → Stops s (.vbegin h a) (.wait (.vbegin h k))) ∧
      (r.begin k.toNat = .order → s.clear (.vbegin h a) = true → Raises s (.vbegin h a) (s.unit .sealOrder 0))) ∧
    (k = 0 → s.clear (.vbegin h a) = true → Raises s (.vbegin h a) (s.unit .sealOrder 0)) ∧
    (s.recordAt h .read pa tr →
      Completes s (.vslot prev d h) fun t => (t.atRecord .read pa tr).writePair d
        (if (if prev then r.pass = 0 else r.st.opn = false) then BitVec.allOnes 64
         else s.handleAddr h + BitVec.ofNat 64 (128 + (if prev then r.st.sslot else r.st.wslot) * r.slotb)))

/-- R359, R360, R370: VSEAL and VSEAL.final record the group's seal of the open pass with the quality that it gives, once
its earlier accesses have reached memory; a seal of another pass, a second one, or one of lower quality than the last
version's raises SEAL_ORDER. -/
def Obligations.Seals : Prop :=
  ∀ (s : State) (h pa b : Nat) (a : Src) (tr : Trail) (final : Bool),
    let g := s.cur.group
    let k := (s.rd a).u
    let q := min (s.rdv b).u.toNat 65535
    let r := s.vrec pa
    let i := if final then Instr.vsealFinal h a b else .vseal h a b
    let again := (s.launch (launchOf g)).seals.any fun x => decide (x.handle = h) && decide (x.group = g)
    s.sp.wait = none → (s.handle h).produces = true → k ≠ 0 → s.recordAt h .atomic pa tr →
    (r.st.opn = true → k.toNat = r.openPass → again = false → r.st.quality ≤ q → s.quiet g = true → s.noStale g = true →
      Completes s i fun t => (t.atRecord .atomic pa tr).recordSeal g h k q final) ∧
    (r.st.opn = false ∨ k.toNat ≠ r.openPass ∨ again = true ∨ q < r.st.quality → s.clear i = true →
      Raises s i (s.unit .sealOrder 0))

/-- R362: a FINAL or CUT version qualifies for every read handle, a SEALED one for a read-early handle whose QUALITY is
at least max(q, m), any other state for none; VPIN pins the newest committed version, in slot SSLOT, and no other. R361,
R363, R369, R371 to R374: VPIN gives the version's address, status and pass, VUNPIN releases the pin, VWAIT goes on when a
version qualifies or the producer is over, VSTAT reads a word of the record. -/
def Obligations.Readers : Prop :=
  ∀ (s : State) (h pa d w n m : Nat) (a : Src) (t : Option Src) (tr : Trail) (dst : Dst) (v : VRec),
    let g := s.cur.group
    let r := s.vrec pa
    let q := (s.rd a).u.toNat % 65536
    let early := (s.handle h).minimum
    let runsOver := decide (2 ≤ r.st.st) || r.qualifies early (s.rd a).u.toNat
    (v.st.st = 2 ∨ v.st.st = 3 → ∀ e, v.qualifies e n = true) ∧
    (v.st.st = 1 → v.qualifies none n = false ∧ (v.qualifies (some m) n = true ↔ max n m ≤ v.st.quality)) ∧
    (v.st.st = 0 ∨ 4 ≤ v.st.st → ∀ e, v.qualifies e n = false) ∧
    (s.sp.wait = none → (s.handle h).reads = true →
      (s.recordAt h .atomic pa tr → (s.g.pins.has h = true → s.readsDone g = true) →
        Completes s (.vpin d h a) fun u =>
          let v := (u.atRecord .atomic pa tr).unpin g h
          let v := if r.qualifies early q then v.pin g h pa r.st.sslot else v
          ((v.writePair d (if r.qualifies early q then
              s.handleAddr h + BitVec.ofNat 64 (128 + r.st.sslot * r.slotb) else 0)).writeUni (.v (d + 2))
            (r.vsw false (r.qualifies early q))).writeUni (.v (d + 3)) (BitVec.ofNat 32 r.pass)) ∧
      (s.recordAt h .atomic pa tr → s.quiet g = true → s.readsDone g = true → s.noStale g = true →
        Completes s (.vunpin h) fun u => (u.atRecord .atomic pa tr).unpin g h) ∧
      (s.recordAt h .read pa tr → runsOver = true →
        Completes s (.vwait d h a t) fun u => (u.atRecord .read pa tr).writeUni (.v d) (r.vsw false false)) ∧
      (s.recordAt h .read pa tr → runsOver = false → t = none → s.clear (.vwait d h a t) = true →
        Stops s (.vwait d h a t) (.wait (.vwait h (s.rd a).u none)))) ∧
    (s.sp.wait = none → s.handle h ≠ .undeclared → s.recordAt h .read pa tr →
      Completes s (.vstat dst h w) fun u =>
        (u.atRecord .read pa tr).writeUni dst (BitVec.ofNat 32 (Memory.read s.mem (pa + 4 * w) 4)))

/-- R358: a pass's own rules: VBEGIN opens only a pass ahead of the last version's, in the lowest slot that no pin holds
and that is not the last version's. R357: a handle of the wrong kind raises ANYTIME_PERM, whatever else is wrong. -/
def Obligations.PassRules : Prop :=
  ∀ (s : State) (r : VRec) (k slot h d b w : Nat) (a : Src) (t : Option Src) (prev : Bool) (dst : Dst),
    (r.begin k = .opens slot → r.pass < k ∧ r.st.st ≠ 2 ∧ r.st.opn = false ∧ slot < r.slots ∧ r.pins.getD slot 0 = 0 ∧
      (r.pass ≠ 0 → slot ≠ r.st.sslot) ∧
      ∀ j, j < slot → r.pins.getD j 0 ≠ 0 ∨ (r.pass ≠ 0 ∧ j = r.st.sslot)) ∧
    (r.begin k = .join → r.st.opn = true ∧ k = r.openPass) ∧
    (r.st.st = 2 ∨ k ≤ r.pass → r.begin k = .order) ∧
    ((s.handle h).produces = false → ∀ i ∈ [Instr.vbegin h a, .vslot prev d h, .vseal h a b, .vsealFinal h a b],
      s.clear i = true → Raises s i (s.unit .anytimePerm 0)) ∧
    ((s.handle h).reads = false → ∀ i ∈ [Instr.vpin d h a, .vunpin h, .vwait d h a t],
      s.clear i = true → Raises s i (s.unit .anytimePerm 0)) ∧
    (s.handle h = .undeclared → s.clear (.vstat dst h w) = true →
      Raises s (.vstat dst h w) (s.unit .anytimePerm 0))

/-! ### Launches from a group (R345 to R353, R375) -/

/-- R345, R346, R350 to R353, R375: LAUNCH submits the record, or gives FULL where pool or child slots are used up; JOIN
gives the mask of abnormal ends of its ended children and waits for the others; BLEFT, DLINE and VLEFT read what the
launch has left. -/
def Obligations.LaunchInstructions : Prop :=
  ∀ (s u : State) (d : Nat) (a : Src) (rel : Bool) (m : DWord),
    let g := s.cur.group
    let b := (s.rd a).u.setWidth 64
    let bs := Memory.bytes (u.team (teamOf g)).scratch b.toNat 256
    let full := decide (4096 ≤ s.poolUsed (s.partOf g)) || decide (64 ≤ s.childUse g)
    let filled := fun (t : State) =>
      match t.fillRange g b.toNat 256 t.priv t.choice with
      | .ok v => v.chosen
      | .error _ => t
    let x := s.launch (launchOf g)
    (s.sp.wait = none → s.inRegion b 256 64 → s.settled g = true →
      s.homeOpen g .load false (.scr (teamOf g) b.toNat) 256 = true → s.noStale g = true →
      s.fillRange g b.toNat 256 s.priv s.choice = .ok u → s.foreignObject g bs = false →
      Completes s (.launch d a) fun t =>
        if full then (filled t).writeUni (.v d) (statusWord .full 0) else (filled t).submit g bs (filled t).mask d) ∧
    ((∀ n ∈ slotsOf (s.rdPair a 0), s.childEnded g n = true) → Completes s (.join d a) fun t =>
      (t.modG fun gr => { gr with children := gr.children.filter fun c => !(slotsOf (s.rdPair a 0)).contains c.1 }).writePair d
        (s.joinMask g (s.rdPair a 0))) ∧
    ((∃ n ∈ slotsOf (s.rdPair a 0), s.childEnded g n = false) → s.clear (.join d a) = true →
      Stops s (.join d a) (.wait (.join (s.rdPair a 0)))) ∧
    (s.sp.wait = some (.join m) → (∀ n ∈ slotsOf m, s.reading.childEnded g n = true) → Resumes s (.join d a) fun t =>
      (t.modG fun gr => { gr with children := gr.children.filter fun c => !(slotsOf m).contains c.1 }).writePair d
        (s.reading.joinMask g m)) ∧
    Completes s (.bleft d) (fun t => t.writePair d (s.budgetLeft g)) ∧
    Completes s (.dline rel d) (fun t => t.writePair d (if x.service then BitVec.allOnes 64
      else BitVec.ofNat 64 (if rel then x.desc.deadline - (s.gtime g).toNat else x.desc.deadline))) ∧
    Completes s (.vleft .b d) (fun t => t.writePair d (s.budgetLeft g)) ∧
    Completes s (.vleft .e d) (fun t => t.writePair d x.energyLeft) ∧
    Completes s (.vleft .t d) (fun t => t.writePair d (s.timeLeft g))

/-! ### Reset, decoding, the step -/

/-- R5, R88, R166, R246, R300, R323: what is known at reset: memory in its canonical form with nothing listed, timekeepers
at 0 with EPOCH and LOCKED clear, empty staging buffers, no group, nothing booted; and what a group starts with: zero
registers, empty feeds and tiles, one split of all 32 lanes at the entry, an empty stack, FLAGS and GSTAT zero. That
memory reads as zero, and the zeros of registers without a stated reset value, are the model's choice (log entries 1
and 2). -/
def Obligations.ResetState : Prop :=
  State.reset.memOk = true ∧ (∀ a, Memory.get State.reset.mem a = Memory.blank) ∧
  (∀ d, (State.reset.die d).count = 0 ∧ (State.reset.die d).epoch = false ∧ (State.reset.die d).locked = false) ∧
  (∀ f, (State.reset.fn f).invBuf = [] ∧ (State.reset.fn f).invSeq = 0 ∧ (State.reset.fn f).invDone = 0) ∧
  State.reset.up = false ∧ State.reset.liveGroups = [] ∧
  (∀ pc b n k, k < 32 →
    let g := Group.initial pc b
    (g.v n).lanes.get k = 0 ∧ (g.o n).get k = 0 ∧ g.k n = 0 ∧ g.feed n = [] ∧ g.tile n = Tile.initial ∧
      g.stack = [] ∧ g.flags = 0 ∧ g.gstat = 0 ∧
      g.splits = [Split.initial pc] ∧ (Split.initial pc).mask = fullMask ∧ (Split.initial pc).pc = pc ∧
      (Split.initial pc).fmt = 0 ∧ (Split.initial pc).rmode = 0)

/-- R44 to R62, R63, R414: words of the spec's own examples decode to the instructions that they stand for; an unassigned
opcode (0x394) and a nonzero unused field (of NOP) do not decode. -/
def Obligations.DecodeWords : Prop :=
  decodeTableWord 40 0x00843FFFFB = some (.bnz ⟨.v 8, false⟩ (-5)) ∧
  decodeTableWord 40 0x04C0030000 = some (.swr 0 ⟨.v 3, false⟩) ∧
  decodeTableWord 40 0x2001828400 = some (.iadd (.v 3) ⟨.v 2, true⟩ ⟨.v 4, false⟩) ∧
  decodeTableWord 80 0x00123456782BC4800000 = some (.limm (.v 9) 0x12345678) ∧
  decodeTableWord 40 0x4804810202 = some (.fadd .h2bf16 .rtz (.v 9) ⟨.v 1, false⟩ ⟨.v 2, false⟩) ∧
  decodeTableWord 40 0x68CB017C00 = some (.unpk .s8 (.v 22) ⟨.v 1, false⟩ ⟨.const 12, false⟩) ∧
  decodeTableWord 40 0x6D48017102 = some (.shfl .xor (.v 16) ⟨.v 1, false⟩ ⟨.const 1, false⟩ ⟨1, false⟩) ∧
  decodeTableWord 40 0x8402865A04 = some (.ldNb .gen .w32 false (.v 5) ⟨.v 6, false⟩ ⟨.p 4, false⟩) ∧
  decodeTableWord 40 0x8E418A040A =
    some (.atom .cas (.v 3) ⟨.v 10, false⟩ ⟨.v 4, false⟩ ⟨5, false⟩) ∧
  decodeTableWord 40 0xA280090001 = some (.bara true ⟨.v 9, false⟩) ∧
  decodeTableWord 40 0xC240090003 = some (.mmr .s8s4 true 0 0 2 ⟨.v 9, false⟩ 0) ∧
  decodeTableWord 40 0xE182860118 = some (.vwait 5 0 ⟨.v 6, false⟩ (some ⟨.v 12, false⟩)) ∧
  decodeTableWord 32 0x0005850B = some (.rfet 10 11) ∧
  decodeTableWord 40 0xE500000000 = none ∧ decodeTableWord 40 0x0000000001 = none

/-- R38 to R62: the encoder and the decoder agree: the word of every well-formed instruction decodes to it, with every
operand at every value that the encoding admits. -/
def Obligations.RoundTrip : Prop := ∀ i, Sys2Proof.Laws.WordRoundTrip.Statement i

/-- R40, R68, R309, R413, R414: a step runs the instruction that stands at the pc. A core's turn: of the group and the
split that are next, the unit at the split's position of the bundle it has entered, or of the bundle it fetches now, under
the decode table in force; a unit of one instruction runs it, a chain its members. A front-end core's turn, where no
interrupt comes first: the word at its pc, the extension's or one of RV64GC. What comes next of time, choices, events and
the outside happens as the agenda says. -/
def Obligations.StepRunsDecoded : Prop :=
  ∀ (s : State) (c g fe n k w len : Nat) (x : Split) (i : Instr) (v : Rv) (u : IssueUnit) (e : Entered) (tr : Trail)
    (r : List Agenda) (a : Agent) (o : Incident),
    let t := s.chosenGroup c g x
    let e' := enterBundle (t.view (t.ctx (t.ctxOf g))) n
    (s.agenda = [] → s.turn = .core c → c < 512 → s.selectGroup c = some g → s.nextSplit g = some x → x.trap = none →
      (t.group g).asyncDue x = false →
      (x.entered = none → t.fetch g x.pc (t.privileged g x.mask) t.choice = .ok n tr →
        decodeUnit (t.view (t.ctx (t.ctxOf g))) (bundleOfNat n) (x.pc % 3) = .ok u →
        (u.members = [(k, i)] → step s = exec i (t.entering g x u.len e' tr)) ∧
        (2 ≤ u.members.length → step s = .next ((t.entering g x u.len e' tr).issueUnit (membersAt x.pc u)))) ∧
      (x.entered = some e → e.pos[x.pc % 3]? = some (.unit u) →
        (u.members = [(k, i)] → step s = exec i (t.executing g x.num x.pc u.len)) ∧
        (2 ≤ u.members.length → step s = .next ((t.executing g x.num x.pc u.len).issueUnit (membersAt x.pc u))))) ∧
    (s.agenda = [] → s.turn = .front fe → fe < 8 → s.frontStill fe = false →
      ((s.front fe).interrupt = some n → step s = .next (s.setFront fe ((s.front fe).trap n true 0))) ∧
      ((s.front fe).interrupt = none → (s.front fe).wfi = false → (s.front fe).swait = none →
        s.frontFetch fe = .ok (w, len) →
        (len = 4 → decodeFront w = some i → step s = exec i { s with site := fe }) ∧
        (len = 4 → decodeFront w = none → decodeRv w = some v → step s = .next (s.rvExec fe 4 w v)) ∧
        (len = 2 → decodeC w = some v → step s = .next (s.rvExec fe 2 w v)))) ∧
    (s.agenda = .outside o :: r → step s = .next ({ s with agenda := r }.happens o)) ∧
    (s.agenda = .event i k :: r → i.isEvent = true → step s = exec i { s with agenda := r, site := k }) ∧
    (s.agenda = .elapse k :: r → step s = .next ({ s with agenda := r }.elapse k)) ∧
    (s.agenda = .select a :: r → step s = .next { s with agenda := r, turn := a })

/-- R1, R322: every step keeps every byte memory in its canonical form, whatever instruction or event runs. -/
def Obligations.MemoryInvariant : Prop :=
  ∀ (s t : State), s.memOk = true → step s = .next t → t.memOk = true

/-! ### Waits and deliveries -/

/-- R92, R148, R151, R152, R158, R318, R320, R346, R349, R351, R358, R373, R396: the end of a wait completes the waiting
split's instruction, on the operands that it read as it issued, where its group may issue and what it waits for has come:
its batches, its object's phase, its team's groups, its children, its time, its group's work, its slot or pass, its
version; with no such wait nothing happens. R95, R385, R389, R390: a cause that waited for the operand log is delivered
once the log is empty; a pending cause is delivered before the split's next unit, OVERRUN before every other, and of the
late causes the earliest. R177, R180, R214: a slow-path result is written to its destination, with its flags, where the
bank has room for it and no allocation comes before it. -/
def Obligations.WakesAndDeliveries : Prop :=
  ∀ (s : State) (g sp k n h d slot len pa : Nat) (x : Split) (a : Src) (b : Option Src) (rel all : Bool) (u : IssueUnit)
    (e : Entered) (tr tr' : Trail) (w p : Word) (m : DWord) (q : Option DWord) (r : Report) (gr : Group) (sl : SlowResult)
    (t : Target),
    let v := s.entering g x u.len e tr
    let z := v.reading
    let y := z.vrec pa
    let finis := decide (2 ≤ y.st.st) || y.qualifies (z.handle h).minimum w.toNat
    let late := q.any fun c => decide (c ≤ z.gtime g)
    let now := (z.leaveTarget t).barAt t
    (s.group g).split? sp = some x →
    (s.mayIssue g = true → s.readySplit g x = true → s.look g x = .unit u e tr →
      (x.wait = some (.cwait w) → u.members = [(x.pc % 3, .cwait all a)] →
        v.goesOn (.cwait all a) = true → v.ample (.cwait all a) = true →
        z.g.batchDone w = true → (∀ f ∈ z.g.copyFails, atOrBelow f.batch w = false) →
        exec (.cwaitWake g sp) s = .next (v.done (.cwait all a) id)) ∧
      (x.wait = some (.barw w p) → u.members = [(x.pc % 3, .barw d a)] →
        v.goesOn (.barw d a) = true → v.ample (.barw d a) = true →
        z.checkLane g ⟨0, w.setWidth 64, 16, .read, .loc, false, false, true⟩ z.priv z.choice = .ok t →
        z.g.logClash .loc (w.setWidth 64) 16 = false → z.clearOf .read t = true →
        now.phase ≠ p.getLsbD 0 →
        exec (.barwWake g sp) s = .next (v.done (.barw d a) fun c => ((c.noteOwn .read t).leaveTarget t).writeUni (.v d)
          (BitVec.ofNat 32 (now.lasterr.toNat * 2 + now.phase.toNat)))) ∧
      (x.wait = some (.tsync w) → u.members = [(x.pc % 3, .tsync)] →
        v.goesOn .tsync = true → v.ample .tsync = true → z.teamAt_ g w = true →
        exec (.tsyncWake g sp) s = .next (v.done .tsync id)) ∧
      (x.wait = some (.join m) → u.members = [(x.pc % 3, .join d a)] →
        v.goesOn (.join d a) = true → v.ample (.join d a) = true → (∀ j ∈ slotsOf m, z.childEnded g j = true) →
        exec (.joinWake g sp) s = .next (v.done (.join d a) fun c =>
          (c.modG fun gr => { gr with children := gr.children.filter fun y => !(slotsOf m).contains y.1 }).writePair d
            (z.joinMask g m))) ∧
      (x.wait = some (.twait m) → u.members = [(x.pc % 3, .twait rel a)] →
        v.goesOn (.twait rel a) = true → v.ample (.twait rel a) = true → m ≤ z.gtime g →
        exec (.twaitExpiry g sp) s = .next (v.done (.twait rel a) id)) ∧
      (x.wait = some .exit → u.members = [(x.pc % 3, .exit)] →
        v.goesOn .exit = true → v.ample .exit = true → z.g.exitReady = true → z.noJob g = true → z.g.copyFails = [] →
        exec (.exitComplete g sp) s = .next (v.done .exit State.leaveLanesOut)) ∧
      (x.wait = some (.vbegin k w) → u.members = [(x.pc % 3, .vbegin h a)] →
        v.goesOn (.vbegin h a) = true → v.ample (.vbegin h a) = true →
        (z.handle h).produces = true → w ≠ 0 → z.recordAt h .atomic pa tr' →
        (y.begin w.toNat = .opens slot → exec (.vbeginRetry g sp) s =
          .next (v.done (.vbegin h a) fun c => (c.atRecord .atomic pa tr').openPass pa w.toNat slot)) ∧
        (y.begin w.toNat = .join → exec (.vbeginRetry g sp) s =
          .next (v.done (.vbegin h a) fun c => c.atRecord .atomic pa tr'))) ∧
      (x.wait = some (.vwait k w q) → u.members = [(x.pc % 3, .vwait d h a b)] →
        v.goesOn (.vwait d h a b) = true → v.ample (.vwait d h a b) = true →
        (z.handle h).reads = true → z.recordAt h .read pa tr' → (finis || late) = true →
        exec (.vwaitWake g sp) s =
          .next (v.done (.vwait d h a b) fun c => (c.atRecord .read pa tr').writeUni (.v d) (y.vsw (!finis) false)))) ∧
    (x.wait = none → ∀ i ∈ [Instr.cwaitWake g sp, .barwWake g sp, .tsyncWake g sp, .joinWake g sp, .twaitExpiry g sp,
      .exitComplete g sp, .vbeginRetry g sp, .vwaitWake g sp], exec i s = .next s) ∧
    (s.mayIssue g = true → x.trap = some (r, slot, len) → (s.group g).log = [] →
      exec (.trapDelivery g sp) s = .next (s.deliver g x.num r slot len)) ∧
    (s.mayIssue g = true → x.trap = some (r, slot, len) → (s.group g).log ≠ [] → exec (.trapDelivery g sp) s = .next s) ∧
    (s.mayIssue g = true → x.fetchFault = false → x.trap = none → x.wait = none →
      (s.group g).asyncCause x.mask = some (r, gr) → gr.log = [] →
      exec (.lateCauseDelivery g sp) s = .next ((s.setGroup g gr).deliver g x.num r x.pc (s.look g x).len)) ∧
    (∀ why, gr.overrun = some why → ∃ y, gr.asyncCause x.mask = some (unitReport .overrun why x.mask 0, y)) ∧
    (∀ l ∈ gr.lates, gr.overrun = none → ∃ l' y, gr.asyncCause x.mask = some (l'.report, y) ∧ l' ∈ gr.lates ∧
      l'.order ≤ l.order) ∧
    ((s.group g).live = true → s.slotsUsed (s.coreOf g) + 4 ≤ bankSlots → (s.core (s.coreOf g)).requester = none →
      (s.group g).slow.find? (fun y => y.1 == k) = some (k, sl) → sl.dest = .v n →
      ∃ t, exec (.slowPathCommit g k) s = .next t ∧ (t.group g).v n = sl.reg ∧
        (t.group g).flags = (s.group g).flags ||| sl.flags ∧ (∀ m, m ≠ n → (t.group g).v m = (s.group g).v m) ∧
        t = s.setGroup g (t.group g))

/-! ### Held accesses, the operand log, faults -/

/-- R126, R128, R282, R293 to R295: a held access that comes in time takes its place in its home's queue; a store that
comes too late is performed at once and its lanes are marked; a home releases the first of its queue, by time, stores
before loads, then by arrival. R84, R293: a replica takes its line's bytes. R113: a dirty line of a region goes back; that
the device writes it back as the team's first group is the model's choice (log entry 116, DESIGN CHOICE). -/
def Obligations.HeldAccesses : Prop :=
  ∀ (s : State) (g acc h die line tm i : Nat) (a : Access) (v : DWord) (x : HeldRec) (hs : List HeldRec) (r : Region)
    (pa : Nat) (p01 rm : Bool) (tr : Trail),
    let ids := s.partsAt a h
    ((s.group g).access? acc = some a → a.held = some v → s.homesLeft g acc a = [h] →
      s.mayPerform g acc a ids = true →
      (s.tooLate h v = false → exec (.heldArrival g acc) s =
        .next { s.putAccess g acc { a with arrived := true } with
          holds := s.holds ++ [⟨h, g, acc, s.heldSeq⟩], heldSeq := s.heldSeq + 1 }) ∧
      (s.tooLate h v = true → s.homeDue h = false → a.kind ≠ .load → exec (.heldArrival g acc) s =
        .next ((s.putAccess g acc { a with
          arrived := true
          late := (ids.filterMap fun i => a.parts[i]?).foldl (fun (m : Word) p => m ||| ((1 : Word) <<< p.lane)) a.late
          }).performHome g acc h))) ∧
    (s.firstHeld (s.releasable h) = some x → s.heldOpen x = true → exec (.holdRelease h) s =
      .next ({ s with holds := s.holds.filter fun y => y != x }.performHome x.group x.acc h)) ∧
    (s.releasable h = [] → exec (.holdRelease h) s = .next s) ∧
    (s.firstHeld hs = some x → x ∈ hs ∧ ∀ y ∈ hs, keyBefore (s.releaseKey y) (s.releaseKey x) = false) ∧
    (∃ t, exec (.replicaUpdate die line) s = .next t ∧ t = { s with replicas := t.replicas } ∧
      (∀ y ∈ t.replicas, y.die = die → y.line = line → y.stale = false) ∧
      (∀ y ∈ s.replicas, y.die = die → y.line = line → y.stale = true →
        { y with bytes := Memory.bytes s.mem (line * 128) 128, stale := false, behind := [] } ∈ t.replicas) ∧
      ∀ y ∈ s.replicas, y.die ≠ die ∨ y.line ≠ line → y ∈ t.replicas) ∧
    ((s.team tm).region? i = some r → (s.team tm).live = true → r.state.get .invalid line = .dirty →
      s.escapes (teamGroup tm) (r.glob + 128 * line) 128 = false →
      s.backLine (s.coreOf (teamGroup tm)) r line (s.privileged (teamGroup tm) fullMask) s.choice = (.ok pa p01 rm, tr) →
      s.denied (teamGroup tm) pa ⟨0, 0, 128, .write, .gen, false, false, false⟩ false = false →
      s.backOpen (teamGroup tm) pa = true →
      exec (.regionWriteback tm i line) s = .next (s.chosen.putBack tm i line pa tr p01 (teamGroup tm)))

/-- R93, R98, R256, R368, R390: an entry of the operand log is replayed once each of its faults is completed: its
access translates again, a matrix instruction goes on, an instruction that waits for a fault of its own looks again.
R96, R97, R431: the die's oldest faults of a context, at most 32, become the lanes of a handler group, with the tag,
the address and the fault word in v0 to v3; R100: the host's answer completes a stage-2 fault. The late TRANSLATION_ABORT of
a matrix instruction names the address that the instruction presented (log entry 64, DEDUCED). -/
def Obligations.FaultService : Prop :=
  ∀ (s : State) (g n die ctx c b k : Nat) (e : LogEntry) (j : Job) (f : FaultRec) (tag : Word),
    ((s.group g).log.find? (fun x => x.1 == n) = some (n, e) →
      (e.waiting ≠ 0 → exec (.logReplay g n) s = .next s) ∧
      (e.waiting = 0 → (s.group g).bank = .live → (s.group g).live = true →
        let t := s.setGroup g { s.group g with log := (s.group g).log.del n }
        (∀ acc, e.what = .access acc → exec (.logReplay g n) s = .next (s.replayAccess g n e acc)) ∧
        (e.what = .retry → e.aborted = 0 → exec (.logReplay g n) s = .next t) ∧
        (e.what = .matrix → e.aborted = 0 → t.jobOf g = some j →
          exec (.logReplay g n) s = .next (t.modJob g fun j => some { j with waiting := false })) ∧
        (e.what = .matrix → e.aborted ≠ 0 → t.jobOf g = some j →
          exec (.logReplay g n) s = .next ((t.dropJob j).lateJob j .translationAbort e.addr)))) ∧
    (let l := (s.part (s.partOfCtx ctx)).service
     let tm := l * 512 + die
     s.handlerPlace l die = some (c, b) → s.handlerDue die ctx = true → (s.team tm).live = false →
     (s.core c).liveBank = b → (s.launch l).ended = false → (∀ y ∈ s.liveGroups, teamOf y ≠ tm) →
     ∃ t, exec (.faultHandlerLaunch die ctx) s = .next t ∧
       t = { s with teams := t.teams, groups := t.groups, faults := t.faults } ∧
       (t.team tm).live = true ∧ (t.group (tm * 16)).live = true ∧ (t.group (tm * 16)).hctx = ctx ∧
       ((s.bufferedOf die ctx)[k]? = some (n, f) → k < 32 →
         ((t.group (tm * 16)).v 0).lanes.get k = f.tag ∧ ((t.group (tm * 16)).v 1).lanes.get k = loWord f.va ∧
         ((t.group (tm * 16)).v 2).lanes.get k = hiWord f.va ∧ ((t.group (tm * 16)).v 3).lanes.get k = f.word ∧
         (t.group (tm * 16)).faultOfLane k = some n)) ∧
    (s.handlerDue die ctx = false → exec (.faultHandlerLaunch die ctx) s = .next s) ∧
    (s.faults.find? (fun y => decide (y.2.st = .stage2) && decide (y.2.tag = tag)) = some (n, f) →
      s.faults.find? (fun y => y.1 == n) = some (n, f) →
      exec (.stage2Retry tag) s =
        .next ({ s with faults := s.faults.del n }.setGroup f.group ((s.group f.group).faultDone f false)) ∧
      exec (.stage2Fatal tag) s =
        .next ({ s with faults := s.faults.del n }.setGroup f.group ((s.group f.group).faultDone f true)))

/-! ### The outside: boot, commands, links, monitors -/

/-- R66, R72, R84, R324, R339, R413, R418, R424, R426: the boot of an image with a good signature configures the device:
memory modes, replica pools and time sources of the dies, the calendars, the front-end cores' partitions and buffers, and
CONN; a bad one leaves it in reset with the status 0xBAD1. R427: the device answers each attestation request over its own
key and measurements. R430: a power state takes effect through the mailbox, and a change is reported. That the buffers'
addresses come with the image (log entry 6, DESIGN CHOICE), that a command before boot is ignored (log entry 30, DESIGN
CHOICE) and that one after a failed boot fails with error 3 (log entry 104, DESIGN CHOICE) are the model's choices. -/
def Obligations.BootAndAttestation : Prop :=
  ∀ (s : State) (im : Image) (tgt : Power) (ec sh : Bool) (slot nonce : Nat),
    (s.boot = .off → ∃ t, exec (.powerOnBoot im true) s = .next t ∧ t.up = true ∧ t.img = some im ∧ t.mem = s.mem ∧
      t.groups = s.groups ∧ t.parts = s.parts ∧
      (∀ d, d < 4 → t.die d =
        { s.die d with memmode := im.memmode.getD d .interleaved, pool := im.replicaPool.getD d 0, src := im.src }) ∧
      (∀ n, n < 512 → t.calendar n = ⟨im.coreCal, none⟩ ∧ t.calendar (2048 + n) = ⟨im.chanCal, none⟩) ∧
      (∀ p, p < 18 → t.calendar (1024 + p) = ⟨im.portCal, none⟩ ∧ t.conn.get 0 p = im.conn.getD p 0 &&& 0xFFFF) ∧
      (∀ f, f < 8 → t.front f = { s.front f with part := frontPart im f, buffer := im.buffers.getD f 0 })) ∧
    (s.boot = .off → ∃ t, exec (.powerOnBoot im false) s = .next t ∧ t.up = false ∧
      (t.fn 0).mbStatus.toNat / 2 ^ 16 % 2 ^ 16 = 0xBAD1 ∧ t.mem = s.mem ∧ t.groups = s.groups) ∧
    (s.boot ≠ .off → ∀ ok, exec (.powerOnBoot im ok) s = .next s) ∧
    (s.up = true →
      exec .getVersion s = .next { s with spdm := .version } ∧
      exec .getCapabilities s = .next { s with spdm := .capabilities } ∧
      exec (.negotiateAlgorithms ec sh) s = .next { s with spdm := .algorithms (ec && sh) } ∧
      exec .getDigests s = .next { s with spdm := .digests [Config.certificateDigest s.key] } ∧
      exec (.getCertificate slot) s = .next { s with spdm := .certificate slot s.key } ∧
      exec (.challenge nonce) s =
        .next { s with spdm := .challengeAuth nonce (Config.signature (nonce :: s.measurements)) } ∧
      exec .getMeasurements s =
        .next { s with spdm := .measurements s.measurements (Config.signature s.measurements) }) ∧
    (s.up = false → ∀ i ∈ [Instr.getVersion, .getCapabilities, .negotiateAlgorithms ec sh, .getDigests,
      .getCertificate slot, .challenge nonce, .getMeasurements], exec i s = .next s) ∧
    (s.up = true → s.mbBusy 0 = false → ∃ t, exec (.powerStateChange tgt) s = .next t ∧ t.power = tgt ∧
      (t.fn 0).mbStatus = 1 ∧ t.eventSeq = (if s.power = tgt then s.eventSeq else s.eventSeq + 1) ∧
      t.groups = s.groups ∧ t.dies = s.dies) ∧
    (s.boot = .failed → s.mbBusy 0 = false → exec (.powerStateChange tgt) s = .next (s.mbSet 0 0x301)) ∧
    (s.boot = .off → exec (.powerStateChange tgt) s = .next s)

/-- R323, R324, R339, R391, R400, R406, R421, R424, R431: the commands of the physical function, with nothing in
progress. A posted time disciplines every die that follows a clock, where the device follows the host's (that one exchange
disciplines the four alike is the model's reading, log entry 103). That SETEPOCH is checked against an EPOCH that is set
and not against contexts (log entry 31), and that the leave times count from base die 0's ticks (log entry 57), are the
model's choices. -/
def Obligations.DeviceCommands : Prop :=
  ∀ (s : State) (x delay : DWord) (n c port : Nat) (u : CalUnit) (es : List Byte) (m : Word),
    s.up = true → s.mbBusy 0 = false →
    ((∀ d, d < 4 → (s.die d).epoch = false) → ∃ t, exec (.setepoch 0 x) s = .next t ∧ (t.fn 0).mbStatus = 1 ∧
      (∀ d, d < 4 → t.die d = { s.die d with count := x, base := x - ((s.die d).count - (s.die d).base), epoch := true }) ∧
      t = { s with dies := t.dies, fns := t.fns }) ∧
    ((∃ d, d < 4 ∧ (s.die d).epoch = true) → exec (.setepoch 0 x) s = .next (s.mbSet 0 0x201)) ∧
    (let ahead : Int := (x.toNat : Int) + delay.toNat - (s.time 0).toNat
     ∃ t, exec (.timepost 0 x delay) s = .next t ∧ (t.fn 0).mbStatus = 1 ∧
      ∀ d, d < 4 →
        (s.followsHost = false ∨ (s.die d).src = 0 → t.die d = s.die d) ∧
        (s.followsHost = true → (s.die d).src ≠ 0 →
          (t.die d).slew = ahead ∧ (t.die d).count = (s.die d).count ∧ (t.die d).lastExchange = s.ticks d ∧
          (ahead.natAbs ≤ 256 → (t.die d).good = (s.die d).good + 1) ∧
          (256 < ahead.natAbs → (t.die d).good = 0 ∧ (t.die d).locked = false))) ∧
    ((s.part n).live = true → ∃ t, exec (.partdestroy 0 n) s = .next t ∧ (t.part n).live = false ∧
      (t.fn 0).mbStatus = 1 ∧ (t.launch (s.part n).service).ended = true ∧ ∀ k, k ≠ n → t.part k = s.part k) ∧
    ((s.part n).live = false → exec (.partdestroy 0 n) s = .next (s.mbSet 0 0x101)) ∧
    (es.length = 64 → (∀ b ∈ es, b = 0 ∨ 128 ≤ b.toNat ∧ b.toNat ≤ 192) → exec (.calwrite 0 u es) s =
      .next ((s.setCalendar u.key { s.calendar u.key with next := some es }).mbSet 0 1)) ∧
    (port ≤ 17 → m.toNat < 65536 → exec (.connwrite 0 port m) s =
      .next ({ s with conn := s.conn.set port m }.mbSet 0 1)) ∧
    ((s.ctx c).live = true →
      (∃ t, exec (.ctxkill 0 c) s = .next t ∧ (t.fn 0).mbStatus = 1 ∧ (t.ctx c).killed = true ∧
        (∀ l ∈ s.launchesOf c, (t.launch l).ended = true ∧ (t.launch l).abnormal = true)) ∧
      (exec (.ctxleave 0 c) s =
        .next ((s.setCtx c { s.ctx c with preq := true, leaving := .soft (s.ticks 0) }).mbSet 0 1)) ∧
      (∃ t, exec (.ctxresume 0 c) s = .next t ∧ (t.fn 0).mbStatus = 1 ∧
        (∀ g ∈ s.liveGroups, s.ctxOf g = c → t.group g = { s.group g with halted := false }) ∧
        t = { s with groups := t.groups, fns := t.fns })) ∧
    ((s.ctx c).live = false → ∀ i ∈ [Instr.ctxkill 0 c, .ctxleave 0 c, .ctxresume 0 c],
      exec i s = .next (s.mbSet 0 0x101))

/-- R421, R422, R431: PARTCREATE, VDSETUP and CTXCREATE create what their arguments say, CTXCREATE for a function's own
VDID too; PAGEREQ waits for the host and takes its answer; the commands of the physical function fail with NOT_PERMITTED
in another, and while a command is in progress a second one sets the error bit alone. -/
def Obligations.CreatingCommands : Prop :=
  ∀ (s : State) (fn c port : Nat) (x delay : DWord) (u : CalUnit) (es : List Byte) (m : Word) (args ans : List DWord),
    let w := argAt args 0
    let pfCommands := [Instr.setepoch fn x, .timepost fn x delay, .partcreate fn args, .partdestroy fn c,
      .calwrite fn u es, .connwrite fn port m, .ctxkill fn c, .ctxleave fn c, .ctxresume fn c, .vdsetup fn args]
    s.memOk = true → s.up = true → fn ≤ 64 →
    (s.mbBusy fn = false →
      (fn = 0 → w < 2 ^ 35 → argAt args 2 ≤ 1151 → (∀ k, k < 8 → (s.part k).live = false) →
        ∀ d ps, s.serviceRec (s.serviceBytes (w / 2 ^ 32 % 8) (argAt args 1)) = some d →
          s.servicePlaces (BitVec.ofNat 32 (w % 256)) d.footprint = some ps →
        ∃ t, exec (.partcreate fn args) s = .next t ∧ (t.fn 0).mbStatus = 1 ∧
          (t.part (w / 2 ^ 32 % 8)).live = true ∧
          (t.part (w / 2 ^ 32 % 8)).clusters = BitVec.ofNat 32 (w % 256) ∧
          (t.part (w / 2 ^ 32 % 8)).stks = BitVec.ofNat 32 (w / 256 % 65536) ∧
          (t.part (w / 2 ^ 32 % 8)).fronts = BitVec.ofNat 32 (w / 2 ^ 24 % 256) ∧
          (t.part (w / 2 ^ 32 % 8)).device = argAt args 2 ∧ (t.part (w / 2 ^ 32 % 8)).service = s.launchNext ∧
          (t.launch s.launchNext).service = true ∧ (t.launch s.launchNext).place = ps) ∧
      (fn = 0 → w < 2 ^ 35 → argAt args 2 ≤ 1151 → (s.part (w / 2 ^ 32 % 8)).live = true →
        exec (.partcreate fn args) s = .next (s.mbSet 0 0x301)) ∧
      (w < 1024 → w % 128 ≤ 64 → (fn = 0 ∨ w % 128 = fn) → argAt args 1 < 2 ^ 56 → argAt args 1 % 4096 = 0 →
        argAt args 2 ≠ 0 →
        (s.modePermitted (s.fn (w % 128)).part (w / 256 % 4) = true → ∃ t, exec (.ctxcreate fn args) s = .next t ∧
          (t.fn fn).mbStatus = 1 ∧ t.ctxNext = s.ctxNext + 1 ∧ Memory.read (t.fn fn).win 8 8 = s.ctxNext % 2 ^ 64 ∧
          (t.ctx s.ctxNext).live = true ∧ (t.ctx s.ctxNext).vdid = w % 128 ∧
          (t.ctx s.ctxNext).xlroot1.toNat = argAt args 1 ∧ (t.ctx s.ctxNext).hvec = args.getD 2 0 ∧
          (t.ctx s.ctxNext).lock = decide (w / 256 % 4 = 0) ∧ (t.ctx s.ctxNext).mapid = 0) ∧
        (s.modePermitted (s.fn (w % 128)).part (w / 256 % 4) = false →
          exec (.ctxcreate fn args) s = .next (s.mbSet fn 0x201))) ∧
      (fn ≠ 0 → w % 128 ≠ fn → exec (.ctxcreate fn args) s = .next (s.mbSet fn 0x201)) ∧
      (let q := argAt args 2
       fn = 0 → w < 2 ^ 14 → w % 128 ≤ 64 → (s.part (w / 256 % 8)).live = true → q < 2 ^ 22 → q % 2 ^ 14 ≤ 8192 →
       q / 2 ^ 14 % 4 = 0 → 1 ≤ q / 2 ^ 16 % 64 → q / 2 ^ 16 % 64 ≤ 32 → argAt args 1 < 2 ^ 56 →
       argAt args 1 % 4096 = 0 →
       exec (.vdsetup fn args) s = .next ((s.setFn (w % 128) { s.fn (w % 128) with
        part := w / 256 % 8, classMask := BitVec.ofNat 32 (w / 2 ^ 11 % 8),
        xlroot2 := BitVec.ofNat 64 (argAt args 1), entryQuota := q % 2 ^ 14,
        walkerQuota := q / 2 ^ 16 % 64 }).mbSet 0 1)) ∧
      (exec (.pagereq fn args none) s = .next ({ s with hostWaits := s.hostWaits ++ [(fn, w)] }.mbSet fn 0)) ∧
      (exec (.pagereq fn args (some ans)) s = .next s) ∧
      (fn ≠ 0 → ∀ i ∈ pfCommands, exec i s = .next (s.mbSet fn 0x201))) ∧
    (s.mbBusy fn = true →
      (∀ i ∈ pfCommands ++ [.ctxcreate fn args, .pagereq fn args none],
        exec i s = .next (s.mbSet fn ((s.fn fn).mbStatus ||| 2))) ∧
      ∃ t, exec (.pagereq fn args (some ans)) s = .next t ∧ (t.fn fn).mbStatus = 1 ∧ t.mbBusy fn = false ∧
        t.mem = s.mem ∧ t.groups = s.groups)

/-- R88, R89: a descriptor that the port accepts is posted with the next INVSEQ, a function other than 0 for its own
VDID and stage 1 alone; any other sets INVERR. Bytes are staged until the write that includes the last one posts. The
port's oldest descriptor completes once what its poster had issued is at its home and no access that went through its
entries is open: the private lines filled through its entries are written back and dropped, the entries leave the caches,
and INVDONE takes its number. -/
def Obligations.Invalidation : Prop :=
  ∀ (s : State) (fn vdid size off : Nat) (addr : DWord) (bs : List Byte) (p : Posted) (r : List Posted),
    let f := s.fn fn
    let posts := fun (i : Instr) (kind size : Nat) (addr : DWord) =>
      exec i s = .next (s.setFn fn { f with
        invSeq := f.invSeq + 1
        posted := f.posted ++ [⟨f.invSeq + 1, kind, if fn = 0 then (if kind = 3 then 0 else vdid) else fn, size, addr, []⟩] })
    let errs := fun (i : Instr) => exec i s = .next (s.setFn fn { f with invErr := true })
    let ranged := 16 ≤ size ∧ size ≤ 57 ∧ addr.toNat % 2 ^ size = 0
    (s.up = true → fn ≤ 64 →
      (fn = 0 → vdid ≤ 64 → posts (.invAllVdid fn vdid) 0 0 0) ∧
      ((fn = 0 → vdid ≤ 64) → ranged → posts (.invStage1Range fn vdid size addr) 1 size addr) ∧
      (fn = 0 → vdid ≤ 64 → ranged → posts (.invStage2Range fn vdid size addr) 2 size addr) ∧
      (fn = 0 → posts (.invEveryVdid fn) 3 0 0) ∧
      (fn ≠ 0 ∨ 64 < vdid → errs (.invAllVdid fn vdid)) ∧
      (fn = 0 ∧ 64 < vdid ∨ ¬ranged → errs (.invStage1Range fn vdid size addr)) ∧
      (fn ≠ 0 ∨ 64 < vdid ∨ ¬ranged → errs (.invStage2Range fn vdid size addr)) ∧
      (fn ≠ 0 → errs (.invEveryVdid fn)) ∧
      (0x1000 ≤ off → off + bs.length < 0x1010 → exec (.invStageWrite fn off bs) s =
        .next (s.setFn fn { f with invBuf := Memory.put f.invBuf (off - 0x1000) bs })) ∧
      (0x1000 ≤ off → off + bs.length = 0x1010 → ∃ t, exec (.invStageWrite fn off bs) s = .next t ∧
        (t.fn fn).invBuf = [] ∧ ((t.fn fn).invSeq = f.invSeq + 1 ∨ (t.fn fn).invErr = true))) ∧
    (f.posted = p :: r → (∀ y ∈ p.fences, s.pendingOpen y = false) → s.noConcern p = true →
      exec (.invalComplete fn) s =
        .next ({ s.dropLines p with cache := (s.dropLines p).cache.filter fun c => !p.drops c }.setFn fn
          { (s.dropLines p).fn fn with posted := r, invDone := p.seq })) ∧
    (f.posted = p :: r → (s.noConcern p = false ∨ ∃ y ∈ p.fences, s.pendingOpen y = true) →
      exec (.invalComplete fn) s = .next s) ∧
    (f.posted = [] → exec (.invalComplete fn) s = .next s)

/-- R70, R102, R103, R296, R415, R419, R420, R424, R425: the host writes a ring's TAIL and reaches device memory that its
function's decoder covers over the CXL link, a peer over a live port, each where its row of CONN lets it: a write lands at
the line's home, an atomic replaces the word, a read changes nothing; an uncorrectable error marks its line and is posted. R324, R325: a
two-step exchange over the port nearest the root sets the slew and counts towards LOCKED, on every die that follows a clock
(all alike: the model's reading, log entry 103); after 1 ms without one LOCKED is lost. R102, R419, R425: lost links are
reported, an access to a peer that no live port reaches is aborted after 10 µs. -/
def Obligations.HostAndLinks : Prop :=
  ∀ (s : State) (fn ring pa n d t1 t2 t3 t4 port g acc : Nat) (tail : DWord) (bs : List Byte) (op : AOp) (b c : Word)
    (a : Access) (q : Part),
    let put := fun (bs : List Byte) => (s.writePhys pa bs false none).repairLines (linesOf pa bs.length).contains
    let x := s.die d
    let ahead : Int := (((t4 : Int) - t3) - ((t2 : Int) - t1)) / 2
    (s.memOk = true → s.up = true → fn ≤ 64 → ring < 8 → ∃ t, exec (.ringDoorbell fn ring tail) s = .next t ∧
      Memory.read (t.fn fn).win (0x2018 + 64 * ring) 8 = tail.toNat ∧ t = { s with fns := t.fns } ∧
      ∀ k, k ≠ fn → t.fn k = s.fn k) ∧
    (∀ i host, (i = Instr.hostAccess ∧ host = true ∧ s.cxl = true ∨
        i = Instr.peerAccess ∧ host = false ∧ s.ports.any id = true) →
      s.up = true → s.homeDue (s.homeOf (.phys pa)) = false →
      let may := fun (n : Nat) (w : Bool) => if host then s.decodes s.site pa n && s.portReaches 16 pa n
        else s.portReaches 17 pa n && !s.peerClash pa n w
      (bs ≠ [] → inHbm pa bs.length = true → may bs.length true = true → s.metError pa bs.length true = none →
        exec (i (.write pa bs)) s = .next (put bs)) ∧
      (0 < n → inHbm pa n = true → may n false = true → s.metError pa n false = none →
        exec (i (.read pa n)) s = .next s) ∧
      (∀ l, 0 < n → inHbm pa n = true → may n false = true → s.metError pa n false = some l →
        exec (i (.read pa n)) s = .next ((s.markFailed l).postCheck (l * 128))) ∧
      (pa % 4 = 0 → inHbm pa 4 = true → may 4 true = true → s.metError pa 4 true = none →
        exec (i (.atomic pa op b c)) s =
          .next (put (bytesOf 4 (atomNew op (BitVec.ofNat 32 (Memory.read s.mem pa 4)) b c).toNat))) ∧
      (bs ≠ [] → inHbm pa bs.length = true → may bs.length true = false → exec (i (.write pa bs)) s = .next s)) ∧
    (s.cxl = false → exec (.hostAccess (.write pa bs)) s = .next s) ∧
    (s.ports.any id = false → exec (.peerAccess (.write pa bs)) s = .next s) ∧
    ((s.die 0).src = 2 → s.ports.getD port false = true → s.syncPort = some port →
      ∃ t, exec (.timeSyncExchange port (t1, t2) (t3, t4)) s = .next t ∧ t.groups = s.groups ∧
        ∀ e, e < 4 → (s.die e).src ≠ 0 → (t.die e).slew = ahead ∧ (t.die e).count = (s.die e).count ∧
          (t.die e).lastExchange = s.ticks e ∧
          (t.die e).offsets = (ahead.natAbs :: (s.die e).offsets).take 16 ∧
          (ahead.natAbs ≤ 256 → (t.die e).good = (s.die e).good + 1 ∧
            (t.die e).locked = ((s.die e).locked || decide (16 ≤ (s.die e).good + 1))) ∧
          (256 < ahead.natAbs → (t.die e).good = 0 ∧ (t.die e).locked = false)) ∧
    (s.syncPort ≠ some port → exec (.timeSyncExchange port (t1, t2) (t3, t4)) s = .next s) ∧
    (s.site = d → d < 4 → x.locked = true → x.lastExchange + 4000000 ≤ s.ticks d →
      ∃ t, exec .lockLossTimeout s = .next t ∧ (t.die d).locked = false ∧ t.eventSeq = s.eventSeq + 1) ∧
    (s.site = d → x.locked = false → exec .lockLossTimeout s = .next s) ∧
    (s.ports.getD port false = true → exec (.brynrikLinkDown port) s =
      .next ({ s with ports := s.ports.set port false }.post 0 evLink (2048 + port) 0 none)) ∧
    (s.cxl = true → (∀ k ∈ s.liveGroups, s.openPa k (fun pa => decide (paKind pa = 1)) = none) →
      exec .cxlLinkFailure s = .next ({ s with cxl := false }.post 0 evLink 4096 0 none)) ∧
    ((s.group g).access? acc = some a → a.parts.find? (Part.lost s g) = some q → q.loc = .phys pa → a.arrived = false →
      (a.issued + 40000 ≤ s.ticks (s.dieOf g) → a.kind ≠ .store → a.kind ≠ .pfet →
        exec (.peerAccessAbort g acc) s = .next (s.machineCheck (s.ctxOf g) pa)) ∧
      (a.issued + 40000 ≤ s.ticks (s.dieOf g) → a.kind = .store → exec (.peerAccessAbort g acc) s =
        .next (((s.putAccess g acc { a with
          parts := a.parts.map fun p => if Part.lost s g p then { p with dropped := true, back := true } else p
          }).finish g acc).post 0 evLink 2048 (s.ctxOf g) (some (BitVec.ofNat 64 pa)))) ∧
      (s.ticks (s.dieOf g) < a.issued + 40000 → exec (.peerAccessAbort g acc) s = .next s))

/-- R341, R428, R429: THROTTLE sets the clocks of the partition's cores; below 1.8 GHz it says so once, with THR on its dies
and F; at 1.8 GHz or above the 1 ms begins after which THROTTLE_END takes the mark back; a temperature limit lowers the
die's clocks, which throttles its partitions, the critical one kills every context and holds the cores until the host
restarts them through the mailbox; droop is reported; an error that the scrubber finds marks its line; a parity error is
the MACHINE_CHECK of the access's context. The clocks that the events set, F from the lowest of them and the 1 ms of the
device (log entry 73), HOST_RESTART without a code or an event (log entry 75), the posts of errors that belong to no
context (log entry 71) and that a parity error marks no line (log entry 76) are the model's choices. -/
def Obligations.Monitors : Prop :=
  ∀ (s : State) (p mhz d pa g since : Nat),
    ((s.part p).live = true → 0 < mhz → mhz < 1800 → (∃ c, c < 512 ∧ s.owns p (clusterOfCore c) = true) →
      ∃ t, exec (.throttle p mhz) s = .next t ∧ (t.part p).throttled = true ∧ (t.part p).f = mhz / 100 ∧
      (∀ c, c < 512 → (t.core c).mhz = if s.owns p (clusterOfCore c) then mhz else (s.core c).mhz) ∧
      (∀ e, e < 4 → (t.die e).thr = (decide (e ∈ s.diesOf p) || (s.die e).thr)) ∧
      t.eventSeq = (if (s.part p).throttled then s.eventSeq else s.eventSeq + 1) ∧ t.groups = s.groups) ∧
    ((s.part p).live = true → 1800 ≤ mhz → ∃ t, exec (.throttle p mhz) s = .next t ∧
      (t.part p).throttled = (s.part p).throttled ∧ t.eventSeq = s.eventSeq ∧
      ((s.part p).throttled = true → (t.part p).fastFrom = some ((s.part p).fastFrom.getD (s.ticks 0)) ∧
        (mhz ≤ 2400 → (∃ c, c < 512 ∧ s.owns p (clusterOfCore c) = true) → (t.part p).f = mhz / 100)) ∧
      (∀ c, c < 512 → (t.core c).mhz = if s.owns p (clusterOfCore c) then mhz else (s.core c).mhz) ∧
      t.groups = s.groups) ∧
    ((s.part p).live = false → exec (.throttle p mhz) s = .next s) ∧
    ((s.part p).throttled = true → (s.part p).fastFrom = some since → since + 4000000 ≤ s.ticks 0 →
      ∃ t, exec (.throttleEnd p) s = .next t ∧ (t.part p).throttled = false ∧ (t.part p).f = 18 ∧
        t.mem = s.mem ∧ t.groups = s.groups ∧ t.cores = s.cores) ∧
    ((s.part p).throttled = false ∨ (s.part p).fastFrom = none → exec (.throttleEnd p) s = .next s) ∧
    (d < 4 → 0 < mhz → ∃ t, exec (.tempThrottleLimit d mhz) s = .next t ∧
      (∀ c, c < 512 → (t.core c).mhz = if dieOfCore c = d then min (s.core c).mhz mhz else (s.core c).mhz) ∧
      ((∀ q, q < 8 → d ∈ s.diesOf q → (s.part q).live = false) → t.eventSeq = s.eventSeq + 1) ∧
      (∀ q, q < 8 → d ∈ s.diesOf q → (s.part q).live = true → mhz < 1800 → (t.part q).throttled = true) ∧
      t.groups = s.groups) ∧
    (∃ t, exec .tempCritical s = .next t ∧ t.resetHold = true ∧ ∀ c, (s.ctx c).live = true → (t.ctx c).killed = true) ∧
    (s.up = true → s.mbBusy 0 = false → exec .hostRestart s = .next ({ s with resetHold := false }.mbSet 0 1)) ∧
    exec .droop s = .next (s.post 0 evDroop (s.site * 256) 0 none) ∧
    (isHbm pa = true → exec (.patrolScrubError pa) s =
      .next ({ s with
        failedLines := pa / 128 :: s.failedLines.filter (· ≠ pa / 128)
        badLines := s.badLines.filter (· ≠ pa / 128) }.postCheck pa)) ∧
    ((s.group g).live = true → exec (.fabricParityError pa g) s = .next (s.machineCheck (s.ctxOf g) pa)) ∧
    ((s.group g).live = false → exec (.fabricParityError pa g) s = .next (s.postCheck pa))

/-! ### Admission, spans, ends -/

/-- R102, R336, R337, R350, R356: admission decides the oldest submission by its checks, in their order, and answers with
the code of the first that fails; a launch that passes all of them takes a table entry with the partition's next sequence
number. An uncorrectable error in what admission reads kills the context. (The submitter's register can take the status
now: no allocation comes before it, and its slots fit, R180.) -/
def Obligations.Admission : Prop :=
  ∀ (s : State) (x : Submission) (rest : List Submission) (p : Parsed) (pl : Placement) (pref : List Nat),
    let u := { s with submissions := rest }
    let early := fun c => exec (.admissionDecision pref) s = .next ((u.touchDescriptor x).answer x (.error c))
    let d := p.desc
    let rejects := fun c => exec (.admissionDecision pref) s =
      .next (((u.touchDescriptor x).touchRecords x d .read).answer x (.error c))
    let admits := ∃ t, exec (.admissionDecision pref) s = .next t ∧ t.launchNext = s.launchNext + 1 ∧
      (t.part x.part).seq = (s.part x.part).seq + 1 ∧ (t.launch s.launchNext).desc = d ∧
      (t.launch s.launchNext).part = x.part ∧ (t.launch s.launchNext).vdid = x.vdid ∧
      (t.launch s.launchNext).ctx = x.ctx ∧ (t.launch s.launchNext).release = x.release ∧
      (t.launch s.launchNext).seq = (s.part x.part).seq ∧ (t.launch s.launchNext).clusters = pl.clusters ∧
      (t.launch s.launchNext).place = pl.place ∧ (t.launch s.launchNext).ended = false ∧
      (t.launch s.launchNext).charged = 0
    let anytimeParent := ∃ l, x.parentOf = some l ∧ (s.launch l).desc.anytime = true
    let classOk := classAllowed (s.fn x.vdid).classMask d.cls = true ∧ (anytimeParent → d.anytime = true)
    let busy := ∃ pa, some pa ∈ p.hpa ∧ u.recordBusy pa = true
    s.submissions = x :: rest → (∀ r, s.answerStop x r = none) →
    (∀ pa, u.parseError x = some pa →
      exec (.admissionDecision pref) s = .next ((u.machineCheck x.ctx pa).answer x (.error .rejMalformed))) ∧
    (u.parseError x = none → u.parse x = none → early .rejMalformed) ∧
    (u.parseError x = none → u.parse x = some p →
      (¬classOk → early .rejClass) ∧
      (classOk → d.budget = 0 → early .rejBudgetZero) ∧
      (classOk → d.budget ≠ 0 → d.deadline ≤ x.release → early .rejDeadlinePast) ∧
      (classOk → d.budget ≠ 0 → x.release < d.deadline →
        (u.placement pref x d = none → rejects .rejResource) ∧
        (u.placement pref x d = some pl →
          (busy → rejects .rejResource) ∧
          (¬busy → 1024 ≤ (u.entries x.part).length → rejects .rejTableFull) ∧
          (¬busy → (u.entries x.part).length < 1024 →
            (d.cls ≠ .best → u.demandOk x d = false → rejects .rejCapacity) ∧
            (d.cls = .best ∨ u.demandOk x d = true → admits)))))

/-- R298 to R300, R321, R322, R334, R335, R339, R346, R359, R361, R364, R365, R376: a span starts with all its teams and
groups; a team ends, and its span with its last team; a launch ends once every span has; a deadline or a cut time cuts
an anytime launch and demotes a hard one; energy is added to the account; a written calendar takes over at slot 0; a pass
commits with the lowest quality of its seals once every team has arrived and what comes before its seals has been
performed, and a cut launch ends once its groups have halted. The energy grid of a launch on its first die (log entry 58),
the rounding of shares (log entry 117) and the dies whose time counts (log entry 127) are the model's choices. -/
def Obligations.SpansAndEnds : Prop :=
  ∀ (s : State) (l span tm h d pa n slots slotb : Nat) (u : CalUnit) (c : CutInfo),
    let x := s.launch l
    (s.spanReady l span = true → x.desc.tps ≤ 64 → x.desc.gpt ≤ 16 →
      (∀ p ∈ x.seats span, (s.core p.1).liveBank = p.2 ∧ (s.core p.1).castling = false) →
      ∃ t, exec (.spanStart l span) s = .next t ∧ (t.launch l).spanSt.get 0 span = 1 ∧ t.mem = s.mem ∧
        ∀ j p, (x.seats span)[j]? = some p →
          t.team (l * 512 + span * 64 + j) = { Team.absent with core := p.1, live := true } ∧
          ∀ i, i < x.desc.gpt → ∃ m, t.group ((l * 512 + span * 64 + j) * 16 + i) =
            { Group.initial x.desc.entry .live with gslot := m, overrun := x.trapsAs }) ∧
    (s.spanReady l span = false → exec (.spanStart l span) s = .next s) ∧
    ((s.team tm).live = true → s.teamDone tm = true → ∃ t, exec (.teamEnd tm) s = .next t ∧
      (t.team tm).live = false ∧ (t.team tm).regions = [] ∧ (∀ u, u ≠ tm → t.team u = s.team u) ∧ t.mem = s.mem ∧
      ((s.launch (tm / 512)).service = false → (∀ u ∈ s.teamsOf (tm / 512), u ≠ tm → spanOf u ≠ spanOf tm) →
        (t.launch (tm / 512)).spanSt.get 0 (spanOf tm) = 2)) ∧
    (s.teamDone tm = false → exec (.teamEnd tm) s = .next s) ∧
    (x.ended = false → x.service = false → x.cut = none →
      (∀ r ∈ s.replicas, ∀ b ∈ r.behind, launchOf b.group ≠ l) → s.commitsWait l = false → s.endMeets l = [] →
      ((∀ k, k < x.desc.spans → x.spanSt.get 0 k = 2) → ∃ t, exec (.launchEnd l) s = .next t ∧
        (t.launch l).ended = true ∧ (t.launch l).abnormal = false) ∧
      (n < x.desc.spans → x.spanSt.get 0 n ≠ 2 → exec (.launchEnd l) s = .next s)) ∧
    (x.ended = false → x.service = false → x.cut = none →
      (s.dieAt l x.desc.deadline = some d → x.overran = false →
        (x.desc.anytime = true → exec (.deadlineReached l) s =
          .next (s.setLaunch l { x with overran := true, cut := some ⟨1, s.time d⟩ })) ∧
        (x.desc.anytime = false → x.desc.cls = .soft → exec (.deadlineReached l) s =
          .next (s.setLaunch l { x with overran := true, demoted := true })) ∧
        (x.desc.anytime = false → x.desc.cls = .hard → ∃ t, exec (.deadlineReached l) s = .next t ∧
          t.launch l = { x with overran := true, demoted := true, trapsAs := some 1 } ∧
          ∀ g ∈ s.groupsOf l, t.group g = { s.group g with overrun := some 1 }) ∧
        (x.desc.anytime = false → x.desc.cls = .best → exec (.deadlineReached l) s =
          .next (s.setLaunch l { x with overran := true }))) ∧
      (s.dieAt l x.desc.cutt = some d → x.desc.cutt ≠ 0 → x.desc.anytime = true → exec (.cutTimeReached l) s =
        .next (s.setLaunch l { x with cut := some ⟨2, s.time d⟩ })) ∧
      (let t0 := (s.time (x.dies.headD 0)).toNat
       let total := x.energy + ((x.seen.zip (s.meters l)).map fun p => energyShare p.1 p.2).sum
       let y := { x with energy := total, updates := x.updates + 1, seen := s.meters l }
       (n ≠ x.updates + 1 ∨ t0 < x.release + 40000 * (x.updates + 1) → exec (.energyUpdate l n) s = .next s) ∧
       (x.release + 40000 * (x.updates + 1) ≤ t0 →
         (x.desc.energy = 0 ∨ total < x.desc.energy → exec (.energyUpdate l (x.updates + 1)) s = .next (s.setLaunch l y)) ∧
         (x.desc.energy ≠ 0 → x.desc.energy ≤ total → x.desc.anytime = true →
           ∃ t, exec (.energyUpdate l (x.updates + 1)) s = .next t ∧
             t.launch l = { y with cut := some ⟨3, s.time (x.dies.headD 0)⟩ })))) ∧
    (s.dieAt l x.desc.deadline = none → exec (.deadlineReached l) s = .next s) ∧
    (s.dieAt l x.desc.cutt = none → exec (.cutTimeReached l) s = .next s) ∧
    (s.slotOf u = 0 → exec (.calendarSwitch u) s = .next (s.setCalendar u.key (s.calendar u.key).switch)) ∧
    (s.slotOf u ≠ 0 → exec (.calendarSwitch u) s = .next s) ∧
    (x.desc.handles.getD h .undeclared = .produced slots slotb → x.hpa.getD h none = some pa →
      let mine := x.seals.filter fun e => decide (e.handle = h)
      (s.arrived l h = true → (s.vrec pa).st.opn = true → x.ended = false → s.failed (pa / 128) = false →
        ((∀ e ∈ mine, s.sealDone e = true) → exec (.passCommit l h) s =
          .next (((s.commitPass pa (mine.foldl (fun q e => min q e.quality) 65535) (mine.all (·.final))).setLaunch l
            { x with seals := x.seals.filter fun e => decide (e.handle ≠ h) }).softLeft x.ctx)) ∧
        ((∃ e ∈ mine, s.sealDone e = false) → exec (.passCommit l h) s = .next s)) ∧
      (s.arrived l h = false → exec (.passCommit l h) s = .next s)) ∧
    (x.cut = some c → x.ended = false → s.cutHalted l = true → s.commitsWait l = false → s.endMeets l = [] →
      ∃ t, exec (.cutRecordUpdate l) s = .next t ∧ (t.launch l).ended = true ∧ (t.launch l).abnormal = true) ∧
    (x.cut = none → exec (.cutRecordUpdate l) s = .next s)

/-- R179 to R182, R344, R347, R391 to R401: castling is asked for where the shadow bank holds better work; at the
preemptible points the banks and their groups exchange their roles; the fumarole saves the outgoing groups and loads a
launch's saved ones; a context that does not leave in time is halted, then killed; a zugzwang spill makes room for the
allocation that waits, which stays the core's next one until it is made, and leaves every register's value as it is; a save
area's shape codes give each register's in its four bits. The leave times count in base die 0's ticks (log entry 57, the
model's choice). -/
def Obligations.Castling : Prop :=
  ∀ (s : State) (c planes l ctx since g need n k : Nat) (gr : Group),
    (n < 64 → (gr.saveCodes.getD (n / 2) 0).toNat / 16 ^ (n % 2) % 16 = (gr.v n).saveCode) ∧
    (s.site = c →
      (let leaves := (s.groupsIn c .live).any fun k => s.ctxOut (s.ctxOf k)
       (s.castlingDue c = true ∨ leaves = true → ∃ t, exec .castlingRequest s = .next t ∧ t.groups = s.groups ∧
         (t.core c).castling = true) ∧
       (∀ p ∈ s.nestSpans c, ∀ n ∈ s.spanCores p.1 p.2, ∃ t, exec .castlingRequest s = .next t ∧
         (t.core n).castling = true) ∧
       (s.castlingDue c = false → leaves = false → s.nestSpans c = [] → exec .castlingRequest s = .next s)) ∧
      (let go := (s.groupsIn c .shadow).filter fun k => (s.core c).loaded.isNone || s.ctxOut (s.ctxOf k)
       ∃ t, exec .fumaroleSpill s = .next t ∧ t.mem = s.mem ∧
         (∀ k ∈ go, t.group k = { s.group k with bank := .saved }) ∧ (∀ k, k ∉ go → t.group k = s.group k) ∧
         ((∀ k ∈ s.groupsIn c .shadow, k ∈ go) → (t.core c).loaded = none)) ∧
      ((s.core c).requester = none → exec .zugzwangSpill s = .next s) ∧
      (s.asker c = some (g, need) →
        (s.hasRoom c need = false → ∃ t, exec .zugzwangSpill s = .next t ∧ t = { s with groups := t.groups } ∧
          ∀ k n, ((t.group k).v n).lanes = ((s.group k).v n).lanes) ∧
        (s.hasRoom c need = true → s.wants g = true → exec .zugzwangSpill s = .next s) ∧
        (s.hasRoom c need = true → s.wants g = false →
          exec .zugzwangSpill s = .next (s.setCore c { s.core c with requester := none })))) ∧
    ((s.core c).castling = true → s.atPoints c = true →
      let u := s.stopJob c planes
      ∃ t, exec (.castlingSwap c planes) s = .next t ∧ (t.core c).castling = false ∧
        (t.core c).liveBank = 1 - (u.core c).liveBank ∧ (t.core c).mx = (u.core c).mx ∧ t.mem = u.mem ∧
        (∀ k ∈ u.groupsIn c .live, t.group k = { u.group k with bank := .shadow }) ∧
        (∀ k ∈ u.groupsIn c .shadow, t.group k = { u.group k with bank := .live }) ∧
        ∀ k, k ∉ u.groupsIn c .live → k ∉ u.groupsIn c .shadow → t.group k = u.group k) ∧
    ((s.core c).castling = false → exec (.castlingSwap c planes) s = .next s) ∧
    (let gs := (s.groupsIn c .saved).filter fun k =>
       launchOf k == l && s.spanReturns l (spanOf (teamOf k)) && !s.ctxOut (s.ctxOf k)
     gs ≠ [] → (s.groupsIn c .shadow = [] ∨ (s.core c).loaded ≠ none) →
     (c, 1 - (s.core c).liveBank) ∈ (s.launch l).place →
     ∃ t, exec (.fumaroleLoad c l) s = .next t ∧ (t.core c).loaded = some l ∧ t.mem = s.mem ∧
       (∀ k ∈ gs, t.group k = { s.group k with bank := .shadow }) ∧ ∀ k, k ∉ gs → t.group k = s.group k) ∧
    (s.groupsIn c .saved = [] → exec (.fumaroleLoad c l) s = .next s) ∧
    ((s.ctx ctx).leaving = .soft since →
      (since + 800000 ≤ s.ticks 0 → exec (.leaveForcedHalt ctx) s = .next (s.castleOut ctx)) ∧
      (s.ticks 0 < since + 800000 → exec (.leaveForcedHalt ctx) s = .next s)) ∧
    ((s.ctx ctx).leaving = .out since →
      ((∀ k ∈ s.groupsOfCtx ctx, (s.group k).bank = .saved) → exec (.leaveKill ctx) s =
        .next (s.setCtx ctx { s.ctx ctx with leaving := .no, preq := false })) ∧
      (k ∈ s.groupsOfCtx ctx → (s.group k).bank ≠ .saved →
        (since + 40000000 ≤ s.ticks 0 → ∃ t, exec (.leaveKill ctx) s = .next t ∧ (t.ctx ctx).killed = true ∧
          ∀ k ∈ s.launchesOf ctx, (t.launch k).ended = true ∧ (t.launch k).abnormal = true) ∧
        (s.ticks 0 < since + 40000000 → exec (.leaveKill ctx) s = .next s)))

/-! ### The front end -/

/-- R413 to R415: the custom-0 instructions: RFET takes a ring's next packet into the core's hand or gives 0 where there
is none, and stores the new HEAD (with a store's faults), XBFX a field, SWAIT the signal's value once it is large enough, XDISP hands a record to admission; RING_FAULT,
FIELD_FAULT, SIGNAL_FAULT and DISPATCH_FAULT trap with the causes 24 to 27, an address that is not mapped with its page
fault. What a trap writes, and that a misaligned descriptor traps with cause 4, is RISC-V's (PRESUMED, log entries 91 and
120). -/
def Obligations.FrontEndInstructions : Prop :=
  ∀ (s : State) (d a b r pa at_ cause : Nat) (intr : Bool) (va least tval : DWord) (ps : List Nat),
    let fe := s.site
    let f := s.front fe
    let x := f.reg a
    let y := f.reg b
    let m := f.trap cause intr tval
    let ring := f.prologue.map (·.ring)
    (m.x = f.x ∧ m.f = f.f ∧ m.swait = none ∧
      (f.delegated cause intr = false → m.csrs.mepc = f.pc ∧ m.csrs.mcause = causeWord cause intr ∧
        m.csrs.mtval = tval ∧ m.pc = trapVector f.csrs.mtvec cause intr ∧ m.supervisor = false) ∧
      (f.delegated cause intr = true → m.csrs.sepc = f.pc ∧ m.csrs.scause = causeWord cause intr ∧
        m.csrs.stval = tval ∧ m.pc = trapVector f.csrs.stvec cause intr ∧ m.supervisor = true)) ∧
    (f.reg 0 = 0 ∧ (f.setReg 0 tval) = f ∧ (r ≠ 0 → (f.setReg r tval).reg r = tval)) ∧
    (let pos := y.toNat % 64
     let len := y.toNat / 64 % 64
     (pos + len ≤ 64 → exec (.xbfx d a b) s =
       .next (s.frontNext fe d (BitVec.ofNat 64 (x.toNat / 2 ^ pos % 2 ^ len)))) ∧
     (64 < pos + len → exec (.xbfx d a b) s = .next (s.frontTrap fe 25 y))) ∧
    (x.toNat % 64 ≠ 0 → exec (.rfet d a) s = .next (s.frontTrap fe 4 x)) ∧
    (x.toNat % 8 ≠ 0 → exec (.swait d a b) s = .next (s.frontTrap fe 26 x)) ∧
    (s.frontPlace fe x .load = .error cause →
      (x.toNat % 64 = 0 → exec (.rfet d a) s = .next (s.frontTrap fe cause x)) ∧
      (x.toNat % 8 = 0 → exec (.swait d a b) s = .next (s.frontTrap fe cause x))) ∧
    (s.frontPlace fe x .load = .ok pa → s.frontWaits pa = false →
      (x.toNat % 64 = 0 → s.frontOk fe pa 64 = true →
        let base := s.frontRead pa 8
        let log2n := s.frontRead (pa + 8) 4
        let head := s.frontRead (pa + 0x10) 8
        let tail := s.frontRead (pa + 0x18) 8
        let p := (base + 64 * (head % 2 ^ log2n)) % 2 ^ 64
        let bad := s.frontRead (pa + 0xC) 4 ≠ 0 ∨ s.frontRead (pa + 0x20) 32 ≠ 0 ∨ log2n = 0 ∨ 16 < log2n ∨
          2 ^ log2n < (tail + 2 ^ 64 - head) % 2 ^ 64
        (bad → exec (.rfet d a) s = .next (s.frontTrap fe 24 x)) ∧
        (¬bad → head = tail → exec (.rfet d a) s = .next (s.frontNext fe d 0)) ∧
        (¬bad → head ≠ tail →
          (s.frontPlace fe (x + 0x10) .store = .error cause →
            exec (.rfet d a) s = .next (s.frontTrap fe cause (x + 0x10))) ∧
          (s.frontPlace fe (x + 0x10) .store = .ok at_ → s.frontWaits at_ = false → s.frontOk fe at_ 8 = true →
            exec (.rfet d a) s =
              .next (((s.frontWrite at_ (bytesOf 8 ((head + 1) % 2 ^ 64))).modRing pa fun r =>
                { r with fetched := r.fetched ++ [(fe, p)] }).frontNext fe d (BitVec.ofNat 64 p))))) ∧
      (x.toNat % 8 = 0 → s.frontOk fe pa 8 = true →
        let v := s.frontRead pa 8
        (y.toNat ≤ v → exec (.swait d a b) s = .next (s.frontNext fe d (BitVec.ofNat 64 v))) ∧
        (v < y.toNat → exec (.swait d a b) s = .next (s.setFront fe { f with swait := some (d, x.toNat, y) })))) ∧
    (f.swait = some (d, va.toNat, least) → va.toNat % 8 = 0 → s.frontPlace fe va .load = .ok pa →
      s.frontWaits pa = false → s.frontOk fe pa 8 = true →
      (least.toNat ≤ s.frontRead pa 8 → exec .swaitWake s =
        .next ((s.setFront fe { f with swait := none }).frontNext fe d (BitVec.ofNat 64 (s.frontRead pa 8)))) ∧
      (s.frontRead pa 8 < least.toNat → ∃ t, exec .swaitWake s = .next t ∧ t.front fe = f ∧ t.mem = s.mem)) ∧
    (f.swait = none → exec .swaitWake s = .next s) ∧
    (s.recordPlaces fe x (List.range 4) = .error cause → exec (.xdisp d a) s = .next (s.frontTrap fe cause x)) ∧
    (s.recordPlaces fe x (List.range 4) = .ok ps →
      (x.toNat % 64 ≠ 0 ∨ (∃ q ∈ ps, inHbm q 64 = false) → exec (.xdisp d a) s = .next (s.frontTrap fe 27 x)) ∧
      (x.toNat % 64 = 0 →
        (∀ q ∈ ps, inHbm q 64 = true ∧ s.frontWaits q = false ∧ s.frontOk fe q 64 = true) →
        exec (.xdisp d a) s = .next ({ s with submissions := s.submissions ++
          [s.frontRecord fe ring (ps.flatMap fun q => Memory.bytes s.mem q 64) (.front fe d ring)] }.setFront fe
            { f with xdisp := true })))

/-- R416 to R418: what the packets of a ring do, in the ring's order: a LAUNCH submits its record, WAIT holds the ring until
its signal is large enough, SIGNAL stores its value once the ring's earlier launches have ended, BEGIN opens a batch that
COMMIT validates and admits as a whole, INDIRECT calls a prologue on a copy of its template, and the prologue's count
repeats or ends it; a malformed packet is answered with code 9. Which STATUS words are written (log entry 78), the clock of
the prologue's 20 µs (log entry 53), the ring loop as events (log entry 79) and where a prologue returns its count (log
entry 81) are the model's choices. -/
def Obligations.Packets : Prop :=
  ∀ (s : State) (fe addr k n b i c : Nat) (v : DWord) (ms : List Nat) (bad : Bool) (xs : List Submission) (x : Prologue),
    let p := s.packet addr
    let r := s.ring k
    let f := s.front fe
    let t := s.popPacket k
    let u := t.modRing k fun r => { r with batch := none }
    (s.ringAt fe addr = some k → s.packetOk fe addr = true →
      (r.batch = none → p.malformed = false →
        (s.takes addr 1 = true → isRecord p.a = true → s.frontOk fe p.a 256 = true → exec (.launchPacket fe addr) s =
          .next { t with submissions := s.submissions ++
            [s.frontRecord fe (some k) (Memory.bytes s.mem p.a 256) (.packet k addr)] }) ∧
        (s.takes addr 1 = true → isRecord p.a = false ∨ s.frontOk fe p.a 256 = false →
          exec (.launchPacket fe addr) s = .next (t.packetStatus addr 9 0)) ∧
        (s.takes addr 2 = true → exec (.beginPacket fe addr) s =
          .next (t.modRing k fun r => { r with batch := some (addr, [], false) })) ∧
        (s.takes addr 4 = true → p.a % 8 = 0 → s.frontOk fe p.a 8 = true →
          (p.b ≤ s.frontRead p.a 8 → s.frontWaits p.a = false → exec (.waitPacket fe addr) s = .next t) ∧
          (s.frontRead p.a 8 < p.b → exec (.waitPacket fe addr) s =
            .next (t.modRing k fun r => { r with hold := some (p.a, BitVec.ofNat 64 p.b) }))) ∧
        (s.takes addr 5 = true → p.a % 8 = 0 → s.frontMay fe p.a 8 = true → paKind p.a ≠ 3 → r.signals = [] →
          ((∀ l ∈ r.earlier, (s.launch l).ended = true ∧ s.launchSettled l = true) → s.metError p.a 8 true = none →
            ∃ w, exec (.signalPacket fe addr) s = .next w ∧ w.mem = Memory.put s.mem p.a (bytesOf 8 p.b) ∧
              (w.ring k).signals = []) ∧
          ((∃ l ∈ r.earlier, (s.launch l).ended = false ∨ s.launchSettled l = false) →
            ∃ w, exec (.signalPacket fe addr) s = .next w ∧ w.mem = s.mem ∧
              (w.ring k).signals = [(p.a, BitVec.ofNat 64 p.b, r.earlier)])) ∧
        (s.takes addr 6 = true → isRecord p.b = true → s.frontOk fe p.b 256 = true → inHbm f.buffer 256 = true →
          s.frontMay fe f.buffer 256 = true → ∃ w, exec (.indirectPacket fe addr) s = .next w ∧
            (w.front fe).pc.toNat = p.a ∧ ((w.front fe).reg 10).toNat = f.buffer ∧
            ((w.front fe).reg 11).toNat = p.c ∧ (w.front fe).reg 1 = f.pc ∧
            (w.front fe).prologue = some ⟨k, addr, 1, s.ticks 0, f.pc⟩)) ∧
      (r.batch = none → p.malformed = true → ∀ q ∈ [(1, Instr.launchPacket fe addr), (2, .beginPacket fe addr),
        (4, .waitPacket fe addr), (5, .signalPacket fe addr), (6, .indirectPacket fe addr)],
        s.takes addr q.1 = true → exec q.2 s = .next (t.packetStatus addr 9 0)) ∧
      (r.batch = none → s.takes addr 3 = true → exec (.commitPacket fe addr) s = .next (t.packetStatus addr 9 0)) ∧
      (r.batch = some (b, ms, bad) →
        (s.takes addr 1 = true → p.malformed = false → ms.length < 255 → exec (.launchPacket fe addr) s =
          .next (t.modRing k fun r => { r with batch := some (b, ms ++ [addr], bad) })) ∧
        (∀ q ∈ [(2, Instr.beginPacket fe addr), (4, .waitPacket fe addr), (5, .signalPacket fe addr),
          (6, .indirectPacket fe addr)], s.takes addr q.1 = true → exec q.2 s =
            .next (t.modRing k fun r => { r with batch := some (b, ms ++ [addr], true) })) ∧
        (s.takes addr 3 = true → p.malformed = false →
          (bad = true ∨ ms = [] → exec (.commitPacket fe addr) s = .next (u.packetStatus b 9 0)) ∧
          (bad = false → ms ≠ [] →
            (u.validate fe k ms 0 = .error (c, i) → exec (.commitPacket fe addr) s = .next (u.packetStatus b c i)) ∧
            (u.validate fe k ms 0 = .ok xs → u.admitBatch xs 0 = .error (c, i) →
              exec (.commitPacket fe addr) s = .next (u.packetStatus b c i)) ∧
            (∀ w ls, u.validate fe k ms 0 = .ok xs → u.admitBatch xs 0 = .ok (w, ls) →
              exec (.commitPacket fe addr) s = .next (ls.foldl (fun t l => t.ringLaunch k l)
                ((b :: ms).foldl (fun t a => t.packetStatus a 0 0) w))))))) ∧
    (k ∈ s.rings.map (·.1) → r.hold = some (b, v) → v.toNat ≤ s.frontRead b 8 → s.frontWaits b = false →
      ∃ j, (s.ring j).hold ≠ none ∧ exec .waitPacketRelease s = .next (s.modRing j fun r => { r with hold := none })) ∧
    ((∀ j ∈ s.rings.map (·.1), ∀ h, (s.ring j).hold = some h → s.frontRead h.1 8 < h.2.toNat) →
      exec .waitPacketRelease s = .next s) ∧
    (s.site = fe →
      (f.prologue = some x →
        (x.since + 80000 ≤ s.ticks 0 → exec .prologueTimeout s =
          .next ((s.endPrologue fe x.back).packetStatus x.packet 9 0)) ∧
        (s.ticks 0 < x.since + 80000 → exec .prologueTimeout s = .next s)) ∧
      (f.prologue = none → exec .prologueTimeout s = .next s)) ∧
    (f.prologue = some x → f.pc = x.back → f.reg 10 = BitVec.ofNat 64 n → f.swait = none → f.xdisp = false →
      (n ≤ 1 ∨ 64 ≤ x.calls → exec (.prologueReturn fe n) s = .next (s.endPrologue fe x.back)) ∧
      (1 < n → x.calls < 64 → inHbm f.buffer 256 = true → s.frontMay fe f.buffer 256 = true →
        ∃ w, exec (.prologueReturn fe n) s = .next w ∧
          (w.front fe).prologue = some { x with calls := x.calls + 1, since := s.ticks 0 } ∧
          (w.front fe).pc.toNat = (s.packet x.packet).a)) ∧
    (f.prologue = none → exec (.prologueReturn fe n) s = .next s)
end

