-- ==== Sys2Proof/Laws/State.lean ====
section
/-! SUPPORT. Tables and state updates: one lemma a field and update, and the lookups after them. -/

namespace Sys2Proof.Machine

open Sys2Proof

/-! ### Tables -/

/-- A table's value after one is set. -/
theorem tbl_get_set {α : Type} (t : Tbl α) (d a : α) (k j : Nat) : (t.set k a).get d j = if j = k then a else t.get d j := by
  induction t with
  | nil => simp only [Tbl.set, Tbl.get, eq_comm]
  | cons e r ih =>
    simp only [Tbl.set]
    split
    · rename_i h
      simp only [Tbl.get]
      by_cases hj : j = k
      · rw [if_pos hj.symm, if_pos hj]
      · rw [if_neg (Ne.symm hj), if_neg hj, if_neg (by omega)]
    · simp only [Tbl.get, ih]
      by_cases hj : j = k
      · subst hj; rename_i h; rw [if_neg h, if_pos rfl, if_pos rfl]
      · rw [if_neg hj, if_neg hj]

theorem tbl_get_set_same {α : Type} (t : Tbl α) (d a : α) (k : Nat) : (t.set k a).get d k = a := by
  rw [tbl_get_set, if_pos rfl]

theorem tbl_get_set_other {α : Type} (t : Tbl α) (d a : α) {k j : Nat} (h : j ≠ k) : (t.set k a).get d j = t.get d j := by
  rw [tbl_get_set, if_neg h]

/-! ### Fields after updates -/

@[simp] theorem State.setDie_mem (s : State) (n : Nat) (x : Die) : (s.setDie n x).mem = s.mem := rfl
@[simp] theorem State.setDie_failedLines (s : State) (n : Nat) (x : Die) : (s.setDie n x).failedLines = s.failedLines := rfl
@[simp] theorem State.setDie_badLines (s : State) (n : Nat) (x : Die) : (s.setDie n x).badLines = s.badLines := rfl
@[simp] theorem State.setDie_replicas (s : State) (n : Nat) (x : Die) : (s.setDie n x).replicas = s.replicas := rfl
@[simp] theorem State.setDie_cache (s : State) (n : Nat) (x : Die) : (s.setDie n x).cache = s.cache := rfl
@[simp] theorem State.setDie_boot (s : State) (n : Nat) (x : Die) : (s.setDie n x).boot = s.boot := rfl
@[simp] theorem State.setDie_img (s : State) (n : Nat) (x : Die) : (s.setDie n x).img = s.img := rfl
@[simp] theorem State.setDie_identity (s : State) (n : Nat) (x : Die) : (s.setDie n x).identity = s.identity := rfl
@[simp] theorem State.setDie_spdm (s : State) (n : Nat) (x : Die) : (s.setDie n x).spdm = s.spdm := rfl
@[simp] theorem State.setDie_eventSeq (s : State) (n : Nat) (x : Die) : (s.setDie n x).eventSeq = s.eventSeq := rfl
@[simp] theorem State.setDie_power (s : State) (n : Nat) (x : Die) : (s.setDie n x).power = s.power := rfl
@[simp] theorem State.setDie_resetHold (s : State) (n : Nat) (x : Die) : (s.setDie n x).resetHold = s.resetHold := rfl
@[simp] theorem State.setDie_ports (s : State) (n : Nat) (x : Die) : (s.setDie n x).ports = s.ports := rfl
@[simp] theorem State.setDie_syncPort (s : State) (n : Nat) (x : Die) : (s.setDie n x).syncPort = s.syncPort := rfl
@[simp] theorem State.setDie_cxl (s : State) (n : Nat) (x : Die) : (s.setDie n x).cxl = s.cxl := rfl
@[simp] theorem State.setDie_conn (s : State) (n : Nat) (x : Die) : (s.setDie n x).conn = s.conn := rfl
@[simp] theorem State.setDie_calendars (s : State) (n : Nat) (x : Die) : (s.setDie n x).calendars = s.calendars := rfl
@[simp] theorem State.setDie_holds (s : State) (n : Nat) (x : Die) : (s.setDie n x).holds = s.holds := rfl
@[simp] theorem State.setDie_heldSeq (s : State) (n : Nat) (x : Die) : (s.setDie n x).heldSeq = s.heldSeq := rfl
@[simp] theorem State.setDie_early (s : State) (n : Nat) (x : Die) : (s.setDie n x).early = s.early := rfl
@[simp] theorem State.setDie_submissions (s : State) (n : Nat) (x : Die) : (s.setDie n x).submissions = s.submissions := rfl
@[simp] theorem State.setDie_fns (s : State) (n : Nat) (x : Die) : (s.setDie n x).fns = s.fns := rfl
@[simp] theorem State.setDie_parts (s : State) (n : Nat) (x : Die) : (s.setDie n x).parts = s.parts := rfl
@[simp] theorem State.setDie_ctxs (s : State) (n : Nat) (x : Die) : (s.setDie n x).ctxs = s.ctxs := rfl
@[simp] theorem State.setDie_ctxNext (s : State) (n : Nat) (x : Die) : (s.setDie n x).ctxNext = s.ctxNext := rfl
@[simp] theorem State.setDie_launches (s : State) (n : Nat) (x : Die) : (s.setDie n x).launches = s.launches := rfl
@[simp] theorem State.setDie_launchNext (s : State) (n : Nat) (x : Die) : (s.setDie n x).launchNext = s.launchNext := rfl
@[simp] theorem State.setDie_teams (s : State) (n : Nat) (x : Die) : (s.setDie n x).teams = s.teams := rfl
@[simp] theorem State.setDie_groups (s : State) (n : Nat) (x : Die) : (s.setDie n x).groups = s.groups := rfl
@[simp] theorem State.setDie_cores (s : State) (n : Nat) (x : Die) : (s.setDie n x).cores = s.cores := rfl
@[simp] theorem State.setDie_fronts (s : State) (n : Nat) (x : Die) : (s.setDie n x).fronts = s.fronts := rfl
@[simp] theorem State.setDie_rings (s : State) (n : Nat) (x : Die) : (s.setDie n x).rings = s.rings := rfl
@[simp] theorem State.setDie_faults (s : State) (n : Nat) (x : Die) : (s.setDie n x).faults = s.faults := rfl
@[simp] theorem State.setDie_faultNext (s : State) (n : Nat) (x : Die) : (s.setDie n x).faultNext = s.faultNext := rfl
@[simp] theorem State.setDie_hostWaits (s : State) (n : Nat) (x : Die) : (s.setDie n x).hostWaits = s.hostWaits := rfl
@[simp] theorem State.setDie_agenda (s : State) (n : Nat) (x : Die) : (s.setDie n x).agenda = s.agenda := rfl
@[simp] theorem State.setDie_turn (s : State) (n : Nat) (x : Die) : (s.setDie n x).turn = s.turn := rfl
@[simp] theorem State.setDie_site (s : State) (n : Nat) (x : Die) : (s.setDie n x).site = s.site := rfl
@[simp] theorem State.setDie_cur (s : State) (n : Nat) (x : Die) : (s.setDie n x).cur = s.cur := rfl
@[simp] theorem State.setDie_oracle (s : State) (n : Nat) (x : Die) : (s.setDie n x).oracle = s.oracle := rfl
@[simp] theorem State.setDie_freeIx (s : State) (n : Nat) (x : Die) : (s.setDie n x).freeIx = s.freeIx := rfl

@[simp] theorem State.setFn_mem (s : State) (n : Nat) (x : Fn) : (s.setFn n x).mem = s.mem := rfl
@[simp] theorem State.setFn_failedLines (s : State) (n : Nat) (x : Fn) : (s.setFn n x).failedLines = s.failedLines := rfl
@[simp] theorem State.setFn_badLines (s : State) (n : Nat) (x : Fn) : (s.setFn n x).badLines = s.badLines := rfl
@[simp] theorem State.setFn_replicas (s : State) (n : Nat) (x : Fn) : (s.setFn n x).replicas = s.replicas := rfl
@[simp] theorem State.setFn_cache (s : State) (n : Nat) (x : Fn) : (s.setFn n x).cache = s.cache := rfl
@[simp] theorem State.setFn_boot (s : State) (n : Nat) (x : Fn) : (s.setFn n x).boot = s.boot := rfl
@[simp] theorem State.setFn_img (s : State) (n : Nat) (x : Fn) : (s.setFn n x).img = s.img := rfl
@[simp] theorem State.setFn_identity (s : State) (n : Nat) (x : Fn) : (s.setFn n x).identity = s.identity := rfl
@[simp] theorem State.setFn_spdm (s : State) (n : Nat) (x : Fn) : (s.setFn n x).spdm = s.spdm := rfl
@[simp] theorem State.setFn_eventSeq (s : State) (n : Nat) (x : Fn) : (s.setFn n x).eventSeq = s.eventSeq := rfl
@[simp] theorem State.setFn_power (s : State) (n : Nat) (x : Fn) : (s.setFn n x).power = s.power := rfl
@[simp] theorem State.setFn_resetHold (s : State) (n : Nat) (x : Fn) : (s.setFn n x).resetHold = s.resetHold := rfl
@[simp] theorem State.setFn_ports (s : State) (n : Nat) (x : Fn) : (s.setFn n x).ports = s.ports := rfl
@[simp] theorem State.setFn_syncPort (s : State) (n : Nat) (x : Fn) : (s.setFn n x).syncPort = s.syncPort := rfl
@[simp] theorem State.setFn_cxl (s : State) (n : Nat) (x : Fn) : (s.setFn n x).cxl = s.cxl := rfl
@[simp] theorem State.setFn_conn (s : State) (n : Nat) (x : Fn) : (s.setFn n x).conn = s.conn := rfl
@[simp] theorem State.setFn_calendars (s : State) (n : Nat) (x : Fn) : (s.setFn n x).calendars = s.calendars := rfl
@[simp] theorem State.setFn_holds (s : State) (n : Nat) (x : Fn) : (s.setFn n x).holds = s.holds := rfl
@[simp] theorem State.setFn_heldSeq (s : State) (n : Nat) (x : Fn) : (s.setFn n x).heldSeq = s.heldSeq := rfl
@[simp] theorem State.setFn_early (s : State) (n : Nat) (x : Fn) : (s.setFn n x).early = s.early := rfl
@[simp] theorem State.setFn_submissions (s : State) (n : Nat) (x : Fn) : (s.setFn n x).submissions = s.submissions := rfl
@[simp] theorem State.setFn_dies (s : State) (n : Nat) (x : Fn) : (s.setFn n x).dies = s.dies := rfl
@[simp] theorem State.setFn_parts (s : State) (n : Nat) (x : Fn) : (s.setFn n x).parts = s.parts := rfl
@[simp] theorem State.setFn_ctxs (s : State) (n : Nat) (x : Fn) : (s.setFn n x).ctxs = s.ctxs := rfl
@[simp] theorem State.setFn_ctxNext (s : State) (n : Nat) (x : Fn) : (s.setFn n x).ctxNext = s.ctxNext := rfl
@[simp] theorem State.setFn_launches (s : State) (n : Nat) (x : Fn) : (s.setFn n x).launches = s.launches := rfl
@[simp] theorem State.setFn_launchNext (s : State) (n : Nat) (x : Fn) : (s.setFn n x).launchNext = s.launchNext := rfl
@[simp] theorem State.setFn_teams (s : State) (n : Nat) (x : Fn) : (s.setFn n x).teams = s.teams := rfl
@[simp] theorem State.setFn_groups (s : State) (n : Nat) (x : Fn) : (s.setFn n x).groups = s.groups := rfl
@[simp] theorem State.setFn_cores (s : State) (n : Nat) (x : Fn) : (s.setFn n x).cores = s.cores := rfl
@[simp] theorem State.setFn_fronts (s : State) (n : Nat) (x : Fn) : (s.setFn n x).fronts = s.fronts := rfl
@[simp] theorem State.setFn_rings (s : State) (n : Nat) (x : Fn) : (s.setFn n x).rings = s.rings := rfl
@[simp] theorem State.setFn_faults (s : State) (n : Nat) (x : Fn) : (s.setFn n x).faults = s.faults := rfl
@[simp] theorem State.setFn_faultNext (s : State) (n : Nat) (x : Fn) : (s.setFn n x).faultNext = s.faultNext := rfl
@[simp] theorem State.setFn_hostWaits (s : State) (n : Nat) (x : Fn) : (s.setFn n x).hostWaits = s.hostWaits := rfl
@[simp] theorem State.setFn_agenda (s : State) (n : Nat) (x : Fn) : (s.setFn n x).agenda = s.agenda := rfl
@[simp] theorem State.setFn_turn (s : State) (n : Nat) (x : Fn) : (s.setFn n x).turn = s.turn := rfl
@[simp] theorem State.setFn_site (s : State) (n : Nat) (x : Fn) : (s.setFn n x).site = s.site := rfl
@[simp] theorem State.setFn_cur (s : State) (n : Nat) (x : Fn) : (s.setFn n x).cur = s.cur := rfl
@[simp] theorem State.setFn_oracle (s : State) (n : Nat) (x : Fn) : (s.setFn n x).oracle = s.oracle := rfl
@[simp] theorem State.setFn_freeIx (s : State) (n : Nat) (x : Fn) : (s.setFn n x).freeIx = s.freeIx := rfl

@[simp] theorem State.setPart_mem (s : State) (n : Nat) (x : Partition) : (s.setPart n x).mem = s.mem := rfl
@[simp] theorem State.setPart_failedLines (s : State) (n : Nat) (x : Partition) : (s.setPart n x).failedLines = s.failedLines := rfl
@[simp] theorem State.setPart_badLines (s : State) (n : Nat) (x : Partition) : (s.setPart n x).badLines = s.badLines := rfl
@[simp] theorem State.setPart_replicas (s : State) (n : Nat) (x : Partition) : (s.setPart n x).replicas = s.replicas := rfl
@[simp] theorem State.setPart_cache (s : State) (n : Nat) (x : Partition) : (s.setPart n x).cache = s.cache := rfl
@[simp] theorem State.setPart_boot (s : State) (n : Nat) (x : Partition) : (s.setPart n x).boot = s.boot := rfl
@[simp] theorem State.setPart_img (s : State) (n : Nat) (x : Partition) : (s.setPart n x).img = s.img := rfl
@[simp] theorem State.setPart_identity (s : State) (n : Nat) (x : Partition) : (s.setPart n x).identity = s.identity := rfl
@[simp] theorem State.setPart_spdm (s : State) (n : Nat) (x : Partition) : (s.setPart n x).spdm = s.spdm := rfl
@[simp] theorem State.setPart_eventSeq (s : State) (n : Nat) (x : Partition) : (s.setPart n x).eventSeq = s.eventSeq := rfl
@[simp] theorem State.setPart_power (s : State) (n : Nat) (x : Partition) : (s.setPart n x).power = s.power := rfl
@[simp] theorem State.setPart_resetHold (s : State) (n : Nat) (x : Partition) : (s.setPart n x).resetHold = s.resetHold := rfl
@[simp] theorem State.setPart_ports (s : State) (n : Nat) (x : Partition) : (s.setPart n x).ports = s.ports := rfl
@[simp] theorem State.setPart_syncPort (s : State) (n : Nat) (x : Partition) : (s.setPart n x).syncPort = s.syncPort := rfl
@[simp] theorem State.setPart_cxl (s : State) (n : Nat) (x : Partition) : (s.setPart n x).cxl = s.cxl := rfl
@[simp] theorem State.setPart_conn (s : State) (n : Nat) (x : Partition) : (s.setPart n x).conn = s.conn := rfl
@[simp] theorem State.setPart_calendars (s : State) (n : Nat) (x : Partition) : (s.setPart n x).calendars = s.calendars := rfl
@[simp] theorem State.setPart_holds (s : State) (n : Nat) (x : Partition) : (s.setPart n x).holds = s.holds := rfl
@[simp] theorem State.setPart_heldSeq (s : State) (n : Nat) (x : Partition) : (s.setPart n x).heldSeq = s.heldSeq := rfl
@[simp] theorem State.setPart_early (s : State) (n : Nat) (x : Partition) : (s.setPart n x).early = s.early := rfl
@[simp] theorem State.setPart_submissions (s : State) (n : Nat) (x : Partition) : (s.setPart n x).submissions = s.submissions := rfl
@[simp] theorem State.setPart_dies (s : State) (n : Nat) (x : Partition) : (s.setPart n x).dies = s.dies := rfl
@[simp] theorem State.setPart_fns (s : State) (n : Nat) (x : Partition) : (s.setPart n x).fns = s.fns := rfl
@[simp] theorem State.setPart_ctxs (s : State) (n : Nat) (x : Partition) : (s.setPart n x).ctxs = s.ctxs := rfl
@[simp] theorem State.setPart_ctxNext (s : State) (n : Nat) (x : Partition) : (s.setPart n x).ctxNext = s.ctxNext := rfl
@[simp] theorem State.setPart_launches (s : State) (n : Nat) (x : Partition) : (s.setPart n x).launches = s.launches := rfl
@[simp] theorem State.setPart_launchNext (s : State) (n : Nat) (x : Partition) : (s.setPart n x).launchNext = s.launchNext := rfl
@[simp] theorem State.setPart_teams (s : State) (n : Nat) (x : Partition) : (s.setPart n x).teams = s.teams := rfl
@[simp] theorem State.setPart_groups (s : State) (n : Nat) (x : Partition) : (s.setPart n x).groups = s.groups := rfl
@[simp] theorem State.setPart_cores (s : State) (n : Nat) (x : Partition) : (s.setPart n x).cores = s.cores := rfl
@[simp] theorem State.setPart_fronts (s : State) (n : Nat) (x : Partition) : (s.setPart n x).fronts = s.fronts := rfl
@[simp] theorem State.setPart_rings (s : State) (n : Nat) (x : Partition) : (s.setPart n x).rings = s.rings := rfl
@[simp] theorem State.setPart_faults (s : State) (n : Nat) (x : Partition) : (s.setPart n x).faults = s.faults := rfl
@[simp] theorem State.setPart_faultNext (s : State) (n : Nat) (x : Partition) : (s.setPart n x).faultNext = s.faultNext := rfl
@[simp] theorem State.setPart_hostWaits (s : State) (n : Nat) (x : Partition) : (s.setPart n x).hostWaits = s.hostWaits := rfl
@[simp] theorem State.setPart_agenda (s : State) (n : Nat) (x : Partition) : (s.setPart n x).agenda = s.agenda := rfl
@[simp] theorem State.setPart_turn (s : State) (n : Nat) (x : Partition) : (s.setPart n x).turn = s.turn := rfl
@[simp] theorem State.setPart_site (s : State) (n : Nat) (x : Partition) : (s.setPart n x).site = s.site := rfl
@[simp] theorem State.setPart_cur (s : State) (n : Nat) (x : Partition) : (s.setPart n x).cur = s.cur := rfl
@[simp] theorem State.setPart_oracle (s : State) (n : Nat) (x : Partition) : (s.setPart n x).oracle = s.oracle := rfl
@[simp] theorem State.setPart_freeIx (s : State) (n : Nat) (x : Partition) : (s.setPart n x).freeIx = s.freeIx := rfl

@[simp] theorem State.setCtx_mem (s : State) (n : Nat) (x : Context) : (s.setCtx n x).mem = s.mem := rfl
@[simp] theorem State.setCtx_failedLines (s : State) (n : Nat) (x : Context) : (s.setCtx n x).failedLines = s.failedLines := rfl
@[simp] theorem State.setCtx_badLines (s : State) (n : Nat) (x : Context) : (s.setCtx n x).badLines = s.badLines := rfl
@[simp] theorem State.setCtx_replicas (s : State) (n : Nat) (x : Context) : (s.setCtx n x).replicas = s.replicas := rfl
@[simp] theorem State.setCtx_cache (s : State) (n : Nat) (x : Context) : (s.setCtx n x).cache = s.cache := rfl
@[simp] theorem State.setCtx_boot (s : State) (n : Nat) (x : Context) : (s.setCtx n x).boot = s.boot := rfl
@[simp] theorem State.setCtx_img (s : State) (n : Nat) (x : Context) : (s.setCtx n x).img = s.img := rfl
@[simp] theorem State.setCtx_identity (s : State) (n : Nat) (x : Context) : (s.setCtx n x).identity = s.identity := rfl
@[simp] theorem State.setCtx_spdm (s : State) (n : Nat) (x : Context) : (s.setCtx n x).spdm = s.spdm := rfl
@[simp] theorem State.setCtx_eventSeq (s : State) (n : Nat) (x : Context) : (s.setCtx n x).eventSeq = s.eventSeq := rfl
@[simp] theorem State.setCtx_power (s : State) (n : Nat) (x : Context) : (s.setCtx n x).power = s.power := rfl
@[simp] theorem State.setCtx_resetHold (s : State) (n : Nat) (x : Context) : (s.setCtx n x).resetHold = s.resetHold := rfl
@[simp] theorem State.setCtx_ports (s : State) (n : Nat) (x : Context) : (s.setCtx n x).ports = s.ports := rfl
@[simp] theorem State.setCtx_syncPort (s : State) (n : Nat) (x : Context) : (s.setCtx n x).syncPort = s.syncPort := rfl
@[simp] theorem State.setCtx_cxl (s : State) (n : Nat) (x : Context) : (s.setCtx n x).cxl = s.cxl := rfl
@[simp] theorem State.setCtx_conn (s : State) (n : Nat) (x : Context) : (s.setCtx n x).conn = s.conn := rfl
@[simp] theorem State.setCtx_calendars (s : State) (n : Nat) (x : Context) : (s.setCtx n x).calendars = s.calendars := rfl
@[simp] theorem State.setCtx_holds (s : State) (n : Nat) (x : Context) : (s.setCtx n x).holds = s.holds := rfl
@[simp] theorem State.setCtx_heldSeq (s : State) (n : Nat) (x : Context) : (s.setCtx n x).heldSeq = s.heldSeq := rfl
@[simp] theorem State.setCtx_early (s : State) (n : Nat) (x : Context) : (s.setCtx n x).early = s.early := rfl
@[simp] theorem State.setCtx_submissions (s : State) (n : Nat) (x : Context) : (s.setCtx n x).submissions = s.submissions := rfl
@[simp] theorem State.setCtx_dies (s : State) (n : Nat) (x : Context) : (s.setCtx n x).dies = s.dies := rfl
@[simp] theorem State.setCtx_fns (s : State) (n : Nat) (x : Context) : (s.setCtx n x).fns = s.fns := rfl
@[simp] theorem State.setCtx_parts (s : State) (n : Nat) (x : Context) : (s.setCtx n x).parts = s.parts := rfl
@[simp] theorem State.setCtx_ctxNext (s : State) (n : Nat) (x : Context) : (s.setCtx n x).ctxNext = s.ctxNext := rfl
@[simp] theorem State.setCtx_launches (s : State) (n : Nat) (x : Context) : (s.setCtx n x).launches = s.launches := rfl
@[simp] theorem State.setCtx_launchNext (s : State) (n : Nat) (x : Context) : (s.setCtx n x).launchNext = s.launchNext := rfl
@[simp] theorem State.setCtx_teams (s : State) (n : Nat) (x : Context) : (s.setCtx n x).teams = s.teams := rfl
@[simp] theorem State.setCtx_groups (s : State) (n : Nat) (x : Context) : (s.setCtx n x).groups = s.groups := rfl
@[simp] theorem State.setCtx_cores (s : State) (n : Nat) (x : Context) : (s.setCtx n x).cores = s.cores := rfl
@[simp] theorem State.setCtx_fronts (s : State) (n : Nat) (x : Context) : (s.setCtx n x).fronts = s.fronts := rfl
@[simp] theorem State.setCtx_rings (s : State) (n : Nat) (x : Context) : (s.setCtx n x).rings = s.rings := rfl
@[simp] theorem State.setCtx_faults (s : State) (n : Nat) (x : Context) : (s.setCtx n x).faults = s.faults := rfl
@[simp] theorem State.setCtx_faultNext (s : State) (n : Nat) (x : Context) : (s.setCtx n x).faultNext = s.faultNext := rfl
@[simp] theorem State.setCtx_hostWaits (s : State) (n : Nat) (x : Context) : (s.setCtx n x).hostWaits = s.hostWaits := rfl
@[simp] theorem State.setCtx_agenda (s : State) (n : Nat) (x : Context) : (s.setCtx n x).agenda = s.agenda := rfl
@[simp] theorem State.setCtx_turn (s : State) (n : Nat) (x : Context) : (s.setCtx n x).turn = s.turn := rfl
@[simp] theorem State.setCtx_site (s : State) (n : Nat) (x : Context) : (s.setCtx n x).site = s.site := rfl
@[simp] theorem State.setCtx_cur (s : State) (n : Nat) (x : Context) : (s.setCtx n x).cur = s.cur := rfl
@[simp] theorem State.setCtx_oracle (s : State) (n : Nat) (x : Context) : (s.setCtx n x).oracle = s.oracle := rfl
@[simp] theorem State.setCtx_freeIx (s : State) (n : Nat) (x : Context) : (s.setCtx n x).freeIx = s.freeIx := rfl

@[simp] theorem State.setLaunch_mem (s : State) (n : Nat) (x : Launch) : (s.setLaunch n x).mem = s.mem := rfl
@[simp] theorem State.setLaunch_failedLines (s : State) (n : Nat) (x : Launch) : (s.setLaunch n x).failedLines = s.failedLines := rfl
@[simp] theorem State.setLaunch_badLines (s : State) (n : Nat) (x : Launch) : (s.setLaunch n x).badLines = s.badLines := rfl
@[simp] theorem State.setLaunch_replicas (s : State) (n : Nat) (x : Launch) : (s.setLaunch n x).replicas = s.replicas := rfl
@[simp] theorem State.setLaunch_cache (s : State) (n : Nat) (x : Launch) : (s.setLaunch n x).cache = s.cache := rfl
@[simp] theorem State.setLaunch_boot (s : State) (n : Nat) (x : Launch) : (s.setLaunch n x).boot = s.boot := rfl
@[simp] theorem State.setLaunch_img (s : State) (n : Nat) (x : Launch) : (s.setLaunch n x).img = s.img := rfl
@[simp] theorem State.setLaunch_identity (s : State) (n : Nat) (x : Launch) : (s.setLaunch n x).identity = s.identity := rfl
@[simp] theorem State.setLaunch_spdm (s : State) (n : Nat) (x : Launch) : (s.setLaunch n x).spdm = s.spdm := rfl
@[simp] theorem State.setLaunch_eventSeq (s : State) (n : Nat) (x : Launch) : (s.setLaunch n x).eventSeq = s.eventSeq := rfl
@[simp] theorem State.setLaunch_power (s : State) (n : Nat) (x : Launch) : (s.setLaunch n x).power = s.power := rfl
@[simp] theorem State.setLaunch_resetHold (s : State) (n : Nat) (x : Launch) : (s.setLaunch n x).resetHold = s.resetHold := rfl
@[simp] theorem State.setLaunch_ports (s : State) (n : Nat) (x : Launch) : (s.setLaunch n x).ports = s.ports := rfl
@[simp] theorem State.setLaunch_syncPort (s : State) (n : Nat) (x : Launch) : (s.setLaunch n x).syncPort = s.syncPort := rfl
@[simp] theorem State.setLaunch_cxl (s : State) (n : Nat) (x : Launch) : (s.setLaunch n x).cxl = s.cxl := rfl
@[simp] theorem State.setLaunch_conn (s : State) (n : Nat) (x : Launch) : (s.setLaunch n x).conn = s.conn := rfl
@[simp] theorem State.setLaunch_calendars (s : State) (n : Nat) (x : Launch) : (s.setLaunch n x).calendars = s.calendars := rfl
@[simp] theorem State.setLaunch_holds (s : State) (n : Nat) (x : Launch) : (s.setLaunch n x).holds = s.holds := rfl
@[simp] theorem State.setLaunch_heldSeq (s : State) (n : Nat) (x : Launch) : (s.setLaunch n x).heldSeq = s.heldSeq := rfl
@[simp] theorem State.setLaunch_early (s : State) (n : Nat) (x : Launch) : (s.setLaunch n x).early = s.early := rfl
@[simp] theorem State.setLaunch_submissions (s : State) (n : Nat) (x : Launch) : (s.setLaunch n x).submissions = s.submissions := rfl
@[simp] theorem State.setLaunch_dies (s : State) (n : Nat) (x : Launch) : (s.setLaunch n x).dies = s.dies := rfl
@[simp] theorem State.setLaunch_fns (s : State) (n : Nat) (x : Launch) : (s.setLaunch n x).fns = s.fns := rfl
@[simp] theorem State.setLaunch_parts (s : State) (n : Nat) (x : Launch) : (s.setLaunch n x).parts = s.parts := rfl
@[simp] theorem State.setLaunch_ctxs (s : State) (n : Nat) (x : Launch) : (s.setLaunch n x).ctxs = s.ctxs := rfl
@[simp] theorem State.setLaunch_ctxNext (s : State) (n : Nat) (x : Launch) : (s.setLaunch n x).ctxNext = s.ctxNext := rfl
@[simp] theorem State.setLaunch_launchNext (s : State) (n : Nat) (x : Launch) : (s.setLaunch n x).launchNext = s.launchNext := rfl
@[simp] theorem State.setLaunch_teams (s : State) (n : Nat) (x : Launch) : (s.setLaunch n x).teams = s.teams := rfl
@[simp] theorem State.setLaunch_groups (s : State) (n : Nat) (x : Launch) : (s.setLaunch n x).groups = s.groups := rfl
@[simp] theorem State.setLaunch_cores (s : State) (n : Nat) (x : Launch) : (s.setLaunch n x).cores = s.cores := rfl
@[simp] theorem State.setLaunch_fronts (s : State) (n : Nat) (x : Launch) : (s.setLaunch n x).fronts = s.fronts := rfl
@[simp] theorem State.setLaunch_rings (s : State) (n : Nat) (x : Launch) : (s.setLaunch n x).rings = s.rings := rfl
@[simp] theorem State.setLaunch_faults (s : State) (n : Nat) (x : Launch) : (s.setLaunch n x).faults = s.faults := rfl
@[simp] theorem State.setLaunch_faultNext (s : State) (n : Nat) (x : Launch) : (s.setLaunch n x).faultNext = s.faultNext := rfl
@[simp] theorem State.setLaunch_hostWaits (s : State) (n : Nat) (x : Launch) : (s.setLaunch n x).hostWaits = s.hostWaits := rfl
@[simp] theorem State.setLaunch_agenda (s : State) (n : Nat) (x : Launch) : (s.setLaunch n x).agenda = s.agenda := rfl
@[simp] theorem State.setLaunch_turn (s : State) (n : Nat) (x : Launch) : (s.setLaunch n x).turn = s.turn := rfl
@[simp] theorem State.setLaunch_site (s : State) (n : Nat) (x : Launch) : (s.setLaunch n x).site = s.site := rfl
@[simp] theorem State.setLaunch_cur (s : State) (n : Nat) (x : Launch) : (s.setLaunch n x).cur = s.cur := rfl
@[simp] theorem State.setLaunch_oracle (s : State) (n : Nat) (x : Launch) : (s.setLaunch n x).oracle = s.oracle := rfl
@[simp] theorem State.setLaunch_freeIx (s : State) (n : Nat) (x : Launch) : (s.setLaunch n x).freeIx = s.freeIx := rfl

@[simp] theorem State.setTeam_mem (s : State) (n : Nat) (x : Team) : (s.setTeam n x).mem = s.mem := rfl
@[simp] theorem State.setTeam_failedLines (s : State) (n : Nat) (x : Team) : (s.setTeam n x).failedLines = s.failedLines := rfl
@[simp] theorem State.setTeam_badLines (s : State) (n : Nat) (x : Team) : (s.setTeam n x).badLines = s.badLines := rfl
@[simp] theorem State.setTeam_replicas (s : State) (n : Nat) (x : Team) : (s.setTeam n x).replicas = s.replicas := rfl
@[simp] theorem State.setTeam_cache (s : State) (n : Nat) (x : Team) : (s.setTeam n x).cache = s.cache := rfl
@[simp] theorem State.setTeam_boot (s : State) (n : Nat) (x : Team) : (s.setTeam n x).boot = s.boot := rfl
@[simp] theorem State.setTeam_img (s : State) (n : Nat) (x : Team) : (s.setTeam n x).img = s.img := rfl
@[simp] theorem State.setTeam_identity (s : State) (n : Nat) (x : Team) : (s.setTeam n x).identity = s.identity := rfl
@[simp] theorem State.setTeam_spdm (s : State) (n : Nat) (x : Team) : (s.setTeam n x).spdm = s.spdm := rfl
@[simp] theorem State.setTeam_eventSeq (s : State) (n : Nat) (x : Team) : (s.setTeam n x).eventSeq = s.eventSeq := rfl
@[simp] theorem State.setTeam_power (s : State) (n : Nat) (x : Team) : (s.setTeam n x).power = s.power := rfl
@[simp] theorem State.setTeam_resetHold (s : State) (n : Nat) (x : Team) : (s.setTeam n x).resetHold = s.resetHold := rfl
@[simp] theorem State.setTeam_ports (s : State) (n : Nat) (x : Team) : (s.setTeam n x).ports = s.ports := rfl
@[simp] theorem State.setTeam_syncPort (s : State) (n : Nat) (x : Team) : (s.setTeam n x).syncPort = s.syncPort := rfl
@[simp] theorem State.setTeam_cxl (s : State) (n : Nat) (x : Team) : (s.setTeam n x).cxl = s.cxl := rfl
@[simp] theorem State.setTeam_conn (s : State) (n : Nat) (x : Team) : (s.setTeam n x).conn = s.conn := rfl
@[simp] theorem State.setTeam_calendars (s : State) (n : Nat) (x : Team) : (s.setTeam n x).calendars = s.calendars := rfl
@[simp] theorem State.setTeam_holds (s : State) (n : Nat) (x : Team) : (s.setTeam n x).holds = s.holds := rfl
@[simp] theorem State.setTeam_heldSeq (s : State) (n : Nat) (x : Team) : (s.setTeam n x).heldSeq = s.heldSeq := rfl
@[simp] theorem State.setTeam_early (s : State) (n : Nat) (x : Team) : (s.setTeam n x).early = s.early := rfl
@[simp] theorem State.setTeam_submissions (s : State) (n : Nat) (x : Team) : (s.setTeam n x).submissions = s.submissions := rfl
@[simp] theorem State.setTeam_dies (s : State) (n : Nat) (x : Team) : (s.setTeam n x).dies = s.dies := rfl
@[simp] theorem State.setTeam_fns (s : State) (n : Nat) (x : Team) : (s.setTeam n x).fns = s.fns := rfl
@[simp] theorem State.setTeam_parts (s : State) (n : Nat) (x : Team) : (s.setTeam n x).parts = s.parts := rfl
@[simp] theorem State.setTeam_ctxs (s : State) (n : Nat) (x : Team) : (s.setTeam n x).ctxs = s.ctxs := rfl
@[simp] theorem State.setTeam_ctxNext (s : State) (n : Nat) (x : Team) : (s.setTeam n x).ctxNext = s.ctxNext := rfl
@[simp] theorem State.setTeam_launches (s : State) (n : Nat) (x : Team) : (s.setTeam n x).launches = s.launches := rfl
@[simp] theorem State.setTeam_launchNext (s : State) (n : Nat) (x : Team) : (s.setTeam n x).launchNext = s.launchNext := rfl
@[simp] theorem State.setTeam_groups (s : State) (n : Nat) (x : Team) : (s.setTeam n x).groups = s.groups := rfl
@[simp] theorem State.setTeam_cores (s : State) (n : Nat) (x : Team) : (s.setTeam n x).cores = s.cores := rfl
@[simp] theorem State.setTeam_fronts (s : State) (n : Nat) (x : Team) : (s.setTeam n x).fronts = s.fronts := rfl
@[simp] theorem State.setTeam_rings (s : State) (n : Nat) (x : Team) : (s.setTeam n x).rings = s.rings := rfl
@[simp] theorem State.setTeam_faults (s : State) (n : Nat) (x : Team) : (s.setTeam n x).faults = s.faults := rfl
@[simp] theorem State.setTeam_faultNext (s : State) (n : Nat) (x : Team) : (s.setTeam n x).faultNext = s.faultNext := rfl
@[simp] theorem State.setTeam_hostWaits (s : State) (n : Nat) (x : Team) : (s.setTeam n x).hostWaits = s.hostWaits := rfl
@[simp] theorem State.setTeam_agenda (s : State) (n : Nat) (x : Team) : (s.setTeam n x).agenda = s.agenda := rfl
@[simp] theorem State.setTeam_turn (s : State) (n : Nat) (x : Team) : (s.setTeam n x).turn = s.turn := rfl
@[simp] theorem State.setTeam_site (s : State) (n : Nat) (x : Team) : (s.setTeam n x).site = s.site := rfl
@[simp] theorem State.setTeam_cur (s : State) (n : Nat) (x : Team) : (s.setTeam n x).cur = s.cur := rfl
@[simp] theorem State.setTeam_oracle (s : State) (n : Nat) (x : Team) : (s.setTeam n x).oracle = s.oracle := rfl
@[simp] theorem State.setTeam_freeIx (s : State) (n : Nat) (x : Team) : (s.setTeam n x).freeIx = s.freeIx := rfl

@[simp] theorem State.setGroup_mem (s : State) (n : Nat) (x : Group) : (s.setGroup n x).mem = s.mem := rfl
@[simp] theorem State.setGroup_failedLines (s : State) (n : Nat) (x : Group) : (s.setGroup n x).failedLines = s.failedLines := rfl
@[simp] theorem State.setGroup_badLines (s : State) (n : Nat) (x : Group) : (s.setGroup n x).badLines = s.badLines := rfl
@[simp] theorem State.setGroup_replicas (s : State) (n : Nat) (x : Group) : (s.setGroup n x).replicas = s.replicas := rfl
@[simp] theorem State.setGroup_cache (s : State) (n : Nat) (x : Group) : (s.setGroup n x).cache = s.cache := rfl
@[simp] theorem State.setGroup_boot (s : State) (n : Nat) (x : Group) : (s.setGroup n x).boot = s.boot := rfl
@[simp] theorem State.setGroup_img (s : State) (n : Nat) (x : Group) : (s.setGroup n x).img = s.img := rfl
@[simp] theorem State.setGroup_identity (s : State) (n : Nat) (x : Group) : (s.setGroup n x).identity = s.identity := rfl
@[simp] theorem State.setGroup_spdm (s : State) (n : Nat) (x : Group) : (s.setGroup n x).spdm = s.spdm := rfl
@[simp] theorem State.setGroup_eventSeq (s : State) (n : Nat) (x : Group) : (s.setGroup n x).eventSeq = s.eventSeq := rfl
@[simp] theorem State.setGroup_power (s : State) (n : Nat) (x : Group) : (s.setGroup n x).power = s.power := rfl
@[simp] theorem State.setGroup_resetHold (s : State) (n : Nat) (x : Group) : (s.setGroup n x).resetHold = s.resetHold := rfl
@[simp] theorem State.setGroup_ports (s : State) (n : Nat) (x : Group) : (s.setGroup n x).ports = s.ports := rfl
@[simp] theorem State.setGroup_syncPort (s : State) (n : Nat) (x : Group) : (s.setGroup n x).syncPort = s.syncPort := rfl
@[simp] theorem State.setGroup_cxl (s : State) (n : Nat) (x : Group) : (s.setGroup n x).cxl = s.cxl := rfl
@[simp] theorem State.setGroup_conn (s : State) (n : Nat) (x : Group) : (s.setGroup n x).conn = s.conn := rfl
@[simp] theorem State.setGroup_calendars (s : State) (n : Nat) (x : Group) : (s.setGroup n x).calendars = s.calendars := rfl
@[simp] theorem State.setGroup_holds (s : State) (n : Nat) (x : Group) : (s.setGroup n x).holds = s.holds := rfl
@[simp] theorem State.setGroup_heldSeq (s : State) (n : Nat) (x : Group) : (s.setGroup n x).heldSeq = s.heldSeq := rfl
@[simp] theorem State.setGroup_early (s : State) (n : Nat) (x : Group) : (s.setGroup n x).early = s.early := rfl
@[simp] theorem State.setGroup_submissions (s : State) (n : Nat) (x : Group) : (s.setGroup n x).submissions = s.submissions := rfl
@[simp] theorem State.setGroup_dies (s : State) (n : Nat) (x : Group) : (s.setGroup n x).dies = s.dies := rfl
@[simp] theorem State.setGroup_fns (s : State) (n : Nat) (x : Group) : (s.setGroup n x).fns = s.fns := rfl
@[simp] theorem State.setGroup_parts (s : State) (n : Nat) (x : Group) : (s.setGroup n x).parts = s.parts := rfl
@[simp] theorem State.setGroup_ctxs (s : State) (n : Nat) (x : Group) : (s.setGroup n x).ctxs = s.ctxs := rfl
@[simp] theorem State.setGroup_ctxNext (s : State) (n : Nat) (x : Group) : (s.setGroup n x).ctxNext = s.ctxNext := rfl
@[simp] theorem State.setGroup_launches (s : State) (n : Nat) (x : Group) : (s.setGroup n x).launches = s.launches := rfl
@[simp] theorem State.setGroup_launchNext (s : State) (n : Nat) (x : Group) : (s.setGroup n x).launchNext = s.launchNext := rfl
@[simp] theorem State.setGroup_teams (s : State) (n : Nat) (x : Group) : (s.setGroup n x).teams = s.teams := rfl
@[simp] theorem State.setGroup_cores (s : State) (n : Nat) (x : Group) : (s.setGroup n x).cores = s.cores := rfl
@[simp] theorem State.setGroup_fronts (s : State) (n : Nat) (x : Group) : (s.setGroup n x).fronts = s.fronts := rfl
@[simp] theorem State.setGroup_rings (s : State) (n : Nat) (x : Group) : (s.setGroup n x).rings = s.rings := rfl
@[simp] theorem State.setGroup_faults (s : State) (n : Nat) (x : Group) : (s.setGroup n x).faults = s.faults := rfl
@[simp] theorem State.setGroup_faultNext (s : State) (n : Nat) (x : Group) : (s.setGroup n x).faultNext = s.faultNext := rfl
@[simp] theorem State.setGroup_hostWaits (s : State) (n : Nat) (x : Group) : (s.setGroup n x).hostWaits = s.hostWaits := rfl
@[simp] theorem State.setGroup_agenda (s : State) (n : Nat) (x : Group) : (s.setGroup n x).agenda = s.agenda := rfl
@[simp] theorem State.setGroup_turn (s : State) (n : Nat) (x : Group) : (s.setGroup n x).turn = s.turn := rfl
@[simp] theorem State.setGroup_site (s : State) (n : Nat) (x : Group) : (s.setGroup n x).site = s.site := rfl
@[simp] theorem State.setGroup_cur (s : State) (n : Nat) (x : Group) : (s.setGroup n x).cur = s.cur := rfl
@[simp] theorem State.setGroup_oracle (s : State) (n : Nat) (x : Group) : (s.setGroup n x).oracle = s.oracle := rfl
@[simp] theorem State.setGroup_freeIx (s : State) (n : Nat) (x : Group) : (s.setGroup n x).freeIx = s.freeIx := rfl

@[simp] theorem State.setCore_mem (s : State) (n : Nat) (x : Core) : (s.setCore n x).mem = s.mem := rfl
@[simp] theorem State.setCore_failedLines (s : State) (n : Nat) (x : Core) : (s.setCore n x).failedLines = s.failedLines := rfl
@[simp] theorem State.setCore_badLines (s : State) (n : Nat) (x : Core) : (s.setCore n x).badLines = s.badLines := rfl
@[simp] theorem State.setCore_replicas (s : State) (n : Nat) (x : Core) : (s.setCore n x).replicas = s.replicas := rfl
@[simp] theorem State.setCore_cache (s : State) (n : Nat) (x : Core) : (s.setCore n x).cache = s.cache := rfl
@[simp] theorem State.setCore_boot (s : State) (n : Nat) (x : Core) : (s.setCore n x).boot = s.boot := rfl
@[simp] theorem State.setCore_img (s : State) (n : Nat) (x : Core) : (s.setCore n x).img = s.img := rfl
@[simp] theorem State.setCore_identity (s : State) (n : Nat) (x : Core) : (s.setCore n x).identity = s.identity := rfl
@[simp] theorem State.setCore_spdm (s : State) (n : Nat) (x : Core) : (s.setCore n x).spdm = s.spdm := rfl
@[simp] theorem State.setCore_eventSeq (s : State) (n : Nat) (x : Core) : (s.setCore n x).eventSeq = s.eventSeq := rfl
@[simp] theorem State.setCore_power (s : State) (n : Nat) (x : Core) : (s.setCore n x).power = s.power := rfl
@[simp] theorem State.setCore_resetHold (s : State) (n : Nat) (x : Core) : (s.setCore n x).resetHold = s.resetHold := rfl
@[simp] theorem State.setCore_ports (s : State) (n : Nat) (x : Core) : (s.setCore n x).ports = s.ports := rfl
@[simp] theorem State.setCore_syncPort (s : State) (n : Nat) (x : Core) : (s.setCore n x).syncPort = s.syncPort := rfl
@[simp] theorem State.setCore_cxl (s : State) (n : Nat) (x : Core) : (s.setCore n x).cxl = s.cxl := rfl
@[simp] theorem State.setCore_conn (s : State) (n : Nat) (x : Core) : (s.setCore n x).conn = s.conn := rfl
@[simp] theorem State.setCore_calendars (s : State) (n : Nat) (x : Core) : (s.setCore n x).calendars = s.calendars := rfl
@[simp] theorem State.setCore_holds (s : State) (n : Nat) (x : Core) : (s.setCore n x).holds = s.holds := rfl
@[simp] theorem State.setCore_heldSeq (s : State) (n : Nat) (x : Core) : (s.setCore n x).heldSeq = s.heldSeq := rfl
@[simp] theorem State.setCore_early (s : State) (n : Nat) (x : Core) : (s.setCore n x).early = s.early := rfl
@[simp] theorem State.setCore_submissions (s : State) (n : Nat) (x : Core) : (s.setCore n x).submissions = s.submissions := rfl
@[simp] theorem State.setCore_dies (s : State) (n : Nat) (x : Core) : (s.setCore n x).dies = s.dies := rfl
@[simp] theorem State.setCore_fns (s : State) (n : Nat) (x : Core) : (s.setCore n x).fns = s.fns := rfl
@[simp] theorem State.setCore_parts (s : State) (n : Nat) (x : Core) : (s.setCore n x).parts = s.parts := rfl
@[simp] theorem State.setCore_ctxs (s : State) (n : Nat) (x : Core) : (s.setCore n x).ctxs = s.ctxs := rfl
@[simp] theorem State.setCore_ctxNext (s : State) (n : Nat) (x : Core) : (s.setCore n x).ctxNext = s.ctxNext := rfl
@[simp] theorem State.setCore_launches (s : State) (n : Nat) (x : Core) : (s.setCore n x).launches = s.launches := rfl
@[simp] theorem State.setCore_launchNext (s : State) (n : Nat) (x : Core) : (s.setCore n x).launchNext = s.launchNext := rfl
@[simp] theorem State.setCore_teams (s : State) (n : Nat) (x : Core) : (s.setCore n x).teams = s.teams := rfl
@[simp] theorem State.setCore_groups (s : State) (n : Nat) (x : Core) : (s.setCore n x).groups = s.groups := rfl
@[simp] theorem State.setCore_fronts (s : State) (n : Nat) (x : Core) : (s.setCore n x).fronts = s.fronts := rfl
@[simp] theorem State.setCore_rings (s : State) (n : Nat) (x : Core) : (s.setCore n x).rings = s.rings := rfl
@[simp] theorem State.setCore_faults (s : State) (n : Nat) (x : Core) : (s.setCore n x).faults = s.faults := rfl
@[simp] theorem State.setCore_faultNext (s : State) (n : Nat) (x : Core) : (s.setCore n x).faultNext = s.faultNext := rfl
@[simp] theorem State.setCore_hostWaits (s : State) (n : Nat) (x : Core) : (s.setCore n x).hostWaits = s.hostWaits := rfl
@[simp] theorem State.setCore_agenda (s : State) (n : Nat) (x : Core) : (s.setCore n x).agenda = s.agenda := rfl
@[simp] theorem State.setCore_turn (s : State) (n : Nat) (x : Core) : (s.setCore n x).turn = s.turn := rfl
@[simp] theorem State.setCore_site (s : State) (n : Nat) (x : Core) : (s.setCore n x).site = s.site := rfl
@[simp] theorem State.setCore_cur (s : State) (n : Nat) (x : Core) : (s.setCore n x).cur = s.cur := rfl
@[simp] theorem State.setCore_oracle (s : State) (n : Nat) (x : Core) : (s.setCore n x).oracle = s.oracle := rfl
@[simp] theorem State.setCore_freeIx (s : State) (n : Nat) (x : Core) : (s.setCore n x).freeIx = s.freeIx := rfl

@[simp] theorem State.setFront_mem (s : State) (n : Nat) (x : Front) : (s.setFront n x).mem = s.mem := rfl
@[simp] theorem State.setFront_failedLines (s : State) (n : Nat) (x : Front) : (s.setFront n x).failedLines = s.failedLines := rfl
@[simp] theorem State.setFront_badLines (s : State) (n : Nat) (x : Front) : (s.setFront n x).badLines = s.badLines := rfl
@[simp] theorem State.setFront_replicas (s : State) (n : Nat) (x : Front) : (s.setFront n x).replicas = s.replicas := rfl
@[simp] theorem State.setFront_cache (s : State) (n : Nat) (x : Front) : (s.setFront n x).cache = s.cache := rfl
@[simp] theorem State.setFront_boot (s : State) (n : Nat) (x : Front) : (s.setFront n x).boot = s.boot := rfl
@[simp] theorem State.setFront_img (s : State) (n : Nat) (x : Front) : (s.setFront n x).img = s.img := rfl
@[simp] theorem State.setFront_identity (s : State) (n : Nat) (x : Front) : (s.setFront n x).identity = s.identity := rfl
@[simp] theorem State.setFront_spdm (s : State) (n : Nat) (x : Front) : (s.setFront n x).spdm = s.spdm := rfl
@[simp] theorem State.setFront_eventSeq (s : State) (n : Nat) (x : Front) : (s.setFront n x).eventSeq = s.eventSeq := rfl
@[simp] theorem State.setFront_power (s : State) (n : Nat) (x : Front) : (s.setFront n x).power = s.power := rfl
@[simp] theorem State.setFront_resetHold (s : State) (n : Nat) (x : Front) : (s.setFront n x).resetHold = s.resetHold := rfl
@[simp] theorem State.setFront_ports (s : State) (n : Nat) (x : Front) : (s.setFront n x).ports = s.ports := rfl
@[simp] theorem State.setFront_syncPort (s : State) (n : Nat) (x : Front) : (s.setFront n x).syncPort = s.syncPort := rfl
@[simp] theorem State.setFront_cxl (s : State) (n : Nat) (x : Front) : (s.setFront n x).cxl = s.cxl := rfl
@[simp] theorem State.setFront_conn (s : State) (n : Nat) (x : Front) : (s.setFront n x).conn = s.conn := rfl
@[simp] theorem State.setFront_calendars (s : State) (n : Nat) (x : Front) : (s.setFront n x).calendars = s.calendars := rfl
@[simp] theorem State.setFront_holds (s : State) (n : Nat) (x : Front) : (s.setFront n x).holds = s.holds := rfl
@[simp] theorem State.setFront_heldSeq (s : State) (n : Nat) (x : Front) : (s.setFront n x).heldSeq = s.heldSeq := rfl
@[simp] theorem State.setFront_early (s : State) (n : Nat) (x : Front) : (s.setFront n x).early = s.early := rfl
@[simp] theorem State.setFront_submissions (s : State) (n : Nat) (x : Front) : (s.setFront n x).submissions = s.submissions := rfl
@[simp] theorem State.setFront_dies (s : State) (n : Nat) (x : Front) : (s.setFront n x).dies = s.dies := rfl
@[simp] theorem State.setFront_fns (s : State) (n : Nat) (x : Front) : (s.setFront n x).fns = s.fns := rfl
@[simp] theorem State.setFront_parts (s : State) (n : Nat) (x : Front) : (s.setFront n x).parts = s.parts := rfl
@[simp] theorem State.setFront_ctxs (s : State) (n : Nat) (x : Front) : (s.setFront n x).ctxs = s.ctxs := rfl
@[simp] theorem State.setFront_ctxNext (s : State) (n : Nat) (x : Front) : (s.setFront n x).ctxNext = s.ctxNext := rfl
@[simp] theorem State.setFront_launches (s : State) (n : Nat) (x : Front) : (s.setFront n x).launches = s.launches := rfl
@[simp] theorem State.setFront_launchNext (s : State) (n : Nat) (x : Front) : (s.setFront n x).launchNext = s.launchNext := rfl
@[simp] theorem State.setFront_teams (s : State) (n : Nat) (x : Front) : (s.setFront n x).teams = s.teams := rfl
@[simp] theorem State.setFront_groups (s : State) (n : Nat) (x : Front) : (s.setFront n x).groups = s.groups := rfl
@[simp] theorem State.setFront_cores (s : State) (n : Nat) (x : Front) : (s.setFront n x).cores = s.cores := rfl
@[simp] theorem State.setFront_rings (s : State) (n : Nat) (x : Front) : (s.setFront n x).rings = s.rings := rfl
@[simp] theorem State.setFront_faults (s : State) (n : Nat) (x : Front) : (s.setFront n x).faults = s.faults := rfl
@[simp] theorem State.setFront_faultNext (s : State) (n : Nat) (x : Front) : (s.setFront n x).faultNext = s.faultNext := rfl
@[simp] theorem State.setFront_hostWaits (s : State) (n : Nat) (x : Front) : (s.setFront n x).hostWaits = s.hostWaits := rfl
@[simp] theorem State.setFront_agenda (s : State) (n : Nat) (x : Front) : (s.setFront n x).agenda = s.agenda := rfl
@[simp] theorem State.setFront_turn (s : State) (n : Nat) (x : Front) : (s.setFront n x).turn = s.turn := rfl
@[simp] theorem State.setFront_site (s : State) (n : Nat) (x : Front) : (s.setFront n x).site = s.site := rfl
@[simp] theorem State.setFront_cur (s : State) (n : Nat) (x : Front) : (s.setFront n x).cur = s.cur := rfl
@[simp] theorem State.setFront_oracle (s : State) (n : Nat) (x : Front) : (s.setFront n x).oracle = s.oracle := rfl
@[simp] theorem State.setFront_freeIx (s : State) (n : Nat) (x : Front) : (s.setFront n x).freeIx = s.freeIx := rfl

@[simp] theorem State.setRing_mem (s : State) (n : Nat) (x : Ring) : (s.setRing n x).mem = s.mem := rfl
@[simp] theorem State.setRing_failedLines (s : State) (n : Nat) (x : Ring) : (s.setRing n x).failedLines = s.failedLines := rfl
@[simp] theorem State.setRing_badLines (s : State) (n : Nat) (x : Ring) : (s.setRing n x).badLines = s.badLines := rfl
@[simp] theorem State.setRing_replicas (s : State) (n : Nat) (x : Ring) : (s.setRing n x).replicas = s.replicas := rfl
@[simp] theorem State.setRing_cache (s : State) (n : Nat) (x : Ring) : (s.setRing n x).cache = s.cache := rfl
@[simp] theorem State.setRing_boot (s : State) (n : Nat) (x : Ring) : (s.setRing n x).boot = s.boot := rfl
@[simp] theorem State.setRing_img (s : State) (n : Nat) (x : Ring) : (s.setRing n x).img = s.img := rfl
@[simp] theorem State.setRing_identity (s : State) (n : Nat) (x : Ring) : (s.setRing n x).identity = s.identity := rfl
@[simp] theorem State.setRing_spdm (s : State) (n : Nat) (x : Ring) : (s.setRing n x).spdm = s.spdm := rfl
@[simp] theorem State.setRing_eventSeq (s : State) (n : Nat) (x : Ring) : (s.setRing n x).eventSeq = s.eventSeq := rfl
@[simp] theorem State.setRing_power (s : State) (n : Nat) (x : Ring) : (s.setRing n x).power = s.power := rfl
@[simp] theorem State.setRing_resetHold (s : State) (n : Nat) (x : Ring) : (s.setRing n x).resetHold = s.resetHold := rfl
@[simp] theorem State.setRing_ports (s : State) (n : Nat) (x : Ring) : (s.setRing n x).ports = s.ports := rfl
@[simp] theorem State.setRing_syncPort (s : State) (n : Nat) (x : Ring) : (s.setRing n x).syncPort = s.syncPort := rfl
@[simp] theorem State.setRing_cxl (s : State) (n : Nat) (x : Ring) : (s.setRing n x).cxl = s.cxl := rfl
@[simp] theorem State.setRing_conn (s : State) (n : Nat) (x : Ring) : (s.setRing n x).conn = s.conn := rfl
@[simp] theorem State.setRing_calendars (s : State) (n : Nat) (x : Ring) : (s.setRing n x).calendars = s.calendars := rfl
@[simp] theorem State.setRing_holds (s : State) (n : Nat) (x : Ring) : (s.setRing n x).holds = s.holds := rfl
@[simp] theorem State.setRing_heldSeq (s : State) (n : Nat) (x : Ring) : (s.setRing n x).heldSeq = s.heldSeq := rfl
@[simp] theorem State.setRing_early (s : State) (n : Nat) (x : Ring) : (s.setRing n x).early = s.early := rfl
@[simp] theorem State.setRing_submissions (s : State) (n : Nat) (x : Ring) : (s.setRing n x).submissions = s.submissions := rfl
@[simp] theorem State.setRing_dies (s : State) (n : Nat) (x : Ring) : (s.setRing n x).dies = s.dies := rfl
@[simp] theorem State.setRing_fns (s : State) (n : Nat) (x : Ring) : (s.setRing n x).fns = s.fns := rfl
@[simp] theorem State.setRing_parts (s : State) (n : Nat) (x : Ring) : (s.setRing n x).parts = s.parts := rfl
@[simp] theorem State.setRing_ctxs (s : State) (n : Nat) (x : Ring) : (s.setRing n x).ctxs = s.ctxs := rfl
@[simp] theorem State.setRing_ctxNext (s : State) (n : Nat) (x : Ring) : (s.setRing n x).ctxNext = s.ctxNext := rfl
@[simp] theorem State.setRing_launches (s : State) (n : Nat) (x : Ring) : (s.setRing n x).launches = s.launches := rfl
@[simp] theorem State.setRing_launchNext (s : State) (n : Nat) (x : Ring) : (s.setRing n x).launchNext = s.launchNext := rfl
@[simp] theorem State.setRing_teams (s : State) (n : Nat) (x : Ring) : (s.setRing n x).teams = s.teams := rfl
@[simp] theorem State.setRing_groups (s : State) (n : Nat) (x : Ring) : (s.setRing n x).groups = s.groups := rfl
@[simp] theorem State.setRing_cores (s : State) (n : Nat) (x : Ring) : (s.setRing n x).cores = s.cores := rfl
@[simp] theorem State.setRing_fronts (s : State) (n : Nat) (x : Ring) : (s.setRing n x).fronts = s.fronts := rfl
@[simp] theorem State.setRing_faults (s : State) (n : Nat) (x : Ring) : (s.setRing n x).faults = s.faults := rfl
@[simp] theorem State.setRing_faultNext (s : State) (n : Nat) (x : Ring) : (s.setRing n x).faultNext = s.faultNext := rfl
@[simp] theorem State.setRing_hostWaits (s : State) (n : Nat) (x : Ring) : (s.setRing n x).hostWaits = s.hostWaits := rfl
@[simp] theorem State.setRing_agenda (s : State) (n : Nat) (x : Ring) : (s.setRing n x).agenda = s.agenda := rfl
@[simp] theorem State.setRing_turn (s : State) (n : Nat) (x : Ring) : (s.setRing n x).turn = s.turn := rfl
@[simp] theorem State.setRing_site (s : State) (n : Nat) (x : Ring) : (s.setRing n x).site = s.site := rfl
@[simp] theorem State.setRing_cur (s : State) (n : Nat) (x : Ring) : (s.setRing n x).cur = s.cur := rfl
@[simp] theorem State.setRing_oracle (s : State) (n : Nat) (x : Ring) : (s.setRing n x).oracle = s.oracle := rfl
@[simp] theorem State.setRing_freeIx (s : State) (n : Nat) (x : Ring) : (s.setRing n x).freeIx = s.freeIx := rfl

@[simp] theorem State.setCalendar_mem (s : State) (n : Nat) (x : Calendar) : (s.setCalendar n x).mem = s.mem := rfl
@[simp] theorem State.setCalendar_failedLines (s : State) (n : Nat) (x : Calendar) : (s.setCalendar n x).failedLines = s.failedLines := rfl
@[simp] theorem State.setCalendar_badLines (s : State) (n : Nat) (x : Calendar) : (s.setCalendar n x).badLines = s.badLines := rfl
@[simp] theorem State.setCalendar_replicas (s : State) (n : Nat) (x : Calendar) : (s.setCalendar n x).replicas = s.replicas := rfl
@[simp] theorem State.setCalendar_cache (s : State) (n : Nat) (x : Calendar) : (s.setCalendar n x).cache = s.cache := rfl
@[simp] theorem State.setCalendar_boot (s : State) (n : Nat) (x : Calendar) : (s.setCalendar n x).boot = s.boot := rfl
@[simp] theorem State.setCalendar_img (s : State) (n : Nat) (x : Calendar) : (s.setCalendar n x).img = s.img := rfl
@[simp] theorem State.setCalendar_identity (s : State) (n : Nat) (x : Calendar) : (s.setCalendar n x).identity = s.identity := rfl
@[simp] theorem State.setCalendar_spdm (s : State) (n : Nat) (x : Calendar) : (s.setCalendar n x).spdm = s.spdm := rfl
@[simp] theorem State.setCalendar_eventSeq (s : State) (n : Nat) (x : Calendar) : (s.setCalendar n x).eventSeq = s.eventSeq := rfl
@[simp] theorem State.setCalendar_power (s : State) (n : Nat) (x : Calendar) : (s.setCalendar n x).power = s.power := rfl
@[simp] theorem State.setCalendar_resetHold (s : State) (n : Nat) (x : Calendar) : (s.setCalendar n x).resetHold = s.resetHold := rfl
@[simp] theorem State.setCalendar_ports (s : State) (n : Nat) (x : Calendar) : (s.setCalendar n x).ports = s.ports := rfl
@[simp] theorem State.setCalendar_syncPort (s : State) (n : Nat) (x : Calendar) : (s.setCalendar n x).syncPort = s.syncPort := rfl
@[simp] theorem State.setCalendar_cxl (s : State) (n : Nat) (x : Calendar) : (s.setCalendar n x).cxl = s.cxl := rfl
@[simp] theorem State.setCalendar_conn (s : State) (n : Nat) (x : Calendar) : (s.setCalendar n x).conn = s.conn := rfl
@[simp] theorem State.setCalendar_holds (s : State) (n : Nat) (x : Calendar) : (s.setCalendar n x).holds = s.holds := rfl
@[simp] theorem State.setCalendar_heldSeq (s : State) (n : Nat) (x : Calendar) : (s.setCalendar n x).heldSeq = s.heldSeq := rfl
@[simp] theorem State.setCalendar_early (s : State) (n : Nat) (x : Calendar) : (s.setCalendar n x).early = s.early := rfl
@[simp] theorem State.setCalendar_submissions (s : State) (n : Nat) (x : Calendar) : (s.setCalendar n x).submissions = s.submissions := rfl
@[simp] theorem State.setCalendar_dies (s : State) (n : Nat) (x : Calendar) : (s.setCalendar n x).dies = s.dies := rfl
@[simp] theorem State.setCalendar_fns (s : State) (n : Nat) (x : Calendar) : (s.setCalendar n x).fns = s.fns := rfl
@[simp] theorem State.setCalendar_parts (s : State) (n : Nat) (x : Calendar) : (s.setCalendar n x).parts = s.parts := rfl
@[simp] theorem State.setCalendar_ctxs (s : State) (n : Nat) (x : Calendar) : (s.setCalendar n x).ctxs = s.ctxs := rfl
@[simp] theorem State.setCalendar_ctxNext (s : State) (n : Nat) (x : Calendar) : (s.setCalendar n x).ctxNext = s.ctxNext := rfl
@[simp] theorem State.setCalendar_launches (s : State) (n : Nat) (x : Calendar) : (s.setCalendar n x).launches = s.launches := rfl
@[simp] theorem State.setCalendar_launchNext (s : State) (n : Nat) (x : Calendar) : (s.setCalendar n x).launchNext = s.launchNext := rfl
@[simp] theorem State.setCalendar_teams (s : State) (n : Nat) (x : Calendar) : (s.setCalendar n x).teams = s.teams := rfl
@[simp] theorem State.setCalendar_groups (s : State) (n : Nat) (x : Calendar) : (s.setCalendar n x).groups = s.groups := rfl
@[simp] theorem State.setCalendar_cores (s : State) (n : Nat) (x : Calendar) : (s.setCalendar n x).cores = s.cores := rfl
@[simp] theorem State.setCalendar_fronts (s : State) (n : Nat) (x : Calendar) : (s.setCalendar n x).fronts = s.fronts := rfl
@[simp] theorem State.setCalendar_rings (s : State) (n : Nat) (x : Calendar) : (s.setCalendar n x).rings = s.rings := rfl
@[simp] theorem State.setCalendar_faults (s : State) (n : Nat) (x : Calendar) : (s.setCalendar n x).faults = s.faults := rfl
@[simp] theorem State.setCalendar_faultNext (s : State) (n : Nat) (x : Calendar) : (s.setCalendar n x).faultNext = s.faultNext := rfl
@[simp] theorem State.setCalendar_hostWaits (s : State) (n : Nat) (x : Calendar) : (s.setCalendar n x).hostWaits = s.hostWaits := rfl
@[simp] theorem State.setCalendar_agenda (s : State) (n : Nat) (x : Calendar) : (s.setCalendar n x).agenda = s.agenda := rfl
@[simp] theorem State.setCalendar_turn (s : State) (n : Nat) (x : Calendar) : (s.setCalendar n x).turn = s.turn := rfl
@[simp] theorem State.setCalendar_site (s : State) (n : Nat) (x : Calendar) : (s.setCalendar n x).site = s.site := rfl
@[simp] theorem State.setCalendar_cur (s : State) (n : Nat) (x : Calendar) : (s.setCalendar n x).cur = s.cur := rfl
@[simp] theorem State.setCalendar_oracle (s : State) (n : Nat) (x : Calendar) : (s.setCalendar n x).oracle = s.oracle := rfl
@[simp] theorem State.setCalendar_freeIx (s : State) (n : Nat) (x : Calendar) : (s.setCalendar n x).freeIx = s.freeIx := rfl

/-! ### Lookups after updates -/

theorem State.die_setDie (s : State) (n m : Nat) (x : Die) : (s.setDie n x).die m = if m = n then x else s.die m :=
  tbl_get_set _ _ _ _ _
@[simp] theorem State.die_setFn (s : State) (n m : Nat) (x : Fn) : (s.setFn n x).die m = s.die m := rfl
@[simp] theorem State.die_setPart (s : State) (n m : Nat) (x : Partition) : (s.setPart n x).die m = s.die m := rfl
@[simp] theorem State.die_setCtx (s : State) (n m : Nat) (x : Context) : (s.setCtx n x).die m = s.die m := rfl
@[simp] theorem State.die_setLaunch (s : State) (n m : Nat) (x : Launch) : (s.setLaunch n x).die m = s.die m := rfl
@[simp] theorem State.die_setTeam (s : State) (n m : Nat) (x : Team) : (s.setTeam n x).die m = s.die m := rfl
@[simp] theorem State.die_setGroup (s : State) (n m : Nat) (x : Group) : (s.setGroup n x).die m = s.die m := rfl
@[simp] theorem State.die_setCore (s : State) (n m : Nat) (x : Core) : (s.setCore n x).die m = s.die m := rfl
@[simp] theorem State.die_setFront (s : State) (n m : Nat) (x : Front) : (s.setFront n x).die m = s.die m := rfl
@[simp] theorem State.die_setRing (s : State) (n m : Nat) (x : Ring) : (s.setRing n x).die m = s.die m := rfl
@[simp] theorem State.die_setCalendar (s : State) (n m : Nat) (x : Calendar) : (s.setCalendar n x).die m = s.die m := rfl

theorem State.fn_setFn (s : State) (n m : Nat) (x : Fn) : (s.setFn n x).fn m = if m = n then x else s.fn m :=
  tbl_get_set _ _ _ _ _
@[simp] theorem State.fn_setDie (s : State) (n m : Nat) (x : Die) : (s.setDie n x).fn m = s.fn m := rfl
@[simp] theorem State.fn_setPart (s : State) (n m : Nat) (x : Partition) : (s.setPart n x).fn m = s.fn m := rfl
@[simp] theorem State.fn_setCtx (s : State) (n m : Nat) (x : Context) : (s.setCtx n x).fn m = s.fn m := rfl
@[simp] theorem State.fn_setLaunch (s : State) (n m : Nat) (x : Launch) : (s.setLaunch n x).fn m = s.fn m := rfl
@[simp] theorem State.fn_setTeam (s : State) (n m : Nat) (x : Team) : (s.setTeam n x).fn m = s.fn m := rfl
@[simp] theorem State.fn_setGroup (s : State) (n m : Nat) (x : Group) : (s.setGroup n x).fn m = s.fn m := rfl
@[simp] theorem State.fn_setCore (s : State) (n m : Nat) (x : Core) : (s.setCore n x).fn m = s.fn m := rfl
@[simp] theorem State.fn_setFront (s : State) (n m : Nat) (x : Front) : (s.setFront n x).fn m = s.fn m := rfl
@[simp] theorem State.fn_setRing (s : State) (n m : Nat) (x : Ring) : (s.setRing n x).fn m = s.fn m := rfl
@[simp] theorem State.fn_setCalendar (s : State) (n m : Nat) (x : Calendar) : (s.setCalendar n x).fn m = s.fn m := rfl

theorem State.part_setPart (s : State) (n m : Nat) (x : Partition) : (s.setPart n x).part m = if m = n then x else s.part m :=
  tbl_get_set _ _ _ _ _
@[simp] theorem State.part_setDie (s : State) (n m : Nat) (x : Die) : (s.setDie n x).part m = s.part m := rfl
@[simp] theorem State.part_setFn (s : State) (n m : Nat) (x : Fn) : (s.setFn n x).part m = s.part m := rfl
@[simp] theorem State.part_setCtx (s : State) (n m : Nat) (x : Context) : (s.setCtx n x).part m = s.part m := rfl
@[simp] theorem State.part_setLaunch (s : State) (n m : Nat) (x : Launch) : (s.setLaunch n x).part m = s.part m := rfl
@[simp] theorem State.part_setTeam (s : State) (n m : Nat) (x : Team) : (s.setTeam n x).part m = s.part m := rfl
@[simp] theorem State.part_setGroup (s : State) (n m : Nat) (x : Group) : (s.setGroup n x).part m = s.part m := rfl
@[simp] theorem State.part_setCore (s : State) (n m : Nat) (x : Core) : (s.setCore n x).part m = s.part m := rfl
@[simp] theorem State.part_setFront (s : State) (n m : Nat) (x : Front) : (s.setFront n x).part m = s.part m := rfl
@[simp] theorem State.part_setRing (s : State) (n m : Nat) (x : Ring) : (s.setRing n x).part m = s.part m := rfl
@[simp] theorem State.part_setCalendar (s : State) (n m : Nat) (x : Calendar) : (s.setCalendar n x).part m = s.part m := rfl

theorem State.ctx_setCtx (s : State) (n m : Nat) (x : Context) : (s.setCtx n x).ctx m = if m = n then x else s.ctx m :=
  tbl_get_set _ _ _ _ _
@[simp] theorem State.ctx_setDie (s : State) (n m : Nat) (x : Die) : (s.setDie n x).ctx m = s.ctx m := rfl
@[simp] theorem State.ctx_setFn (s : State) (n m : Nat) (x : Fn) : (s.setFn n x).ctx m = s.ctx m := rfl
@[simp] theorem State.ctx_setPart (s : State) (n m : Nat) (x : Partition) : (s.setPart n x).ctx m = s.ctx m := rfl
@[simp] theorem State.ctx_setLaunch (s : State) (n m : Nat) (x : Launch) : (s.setLaunch n x).ctx m = s.ctx m := rfl
@[simp] theorem State.ctx_setTeam (s : State) (n m : Nat) (x : Team) : (s.setTeam n x).ctx m = s.ctx m := rfl
@[simp] theorem State.ctx_setGroup (s : State) (n m : Nat) (x : Group) : (s.setGroup n x).ctx m = s.ctx m := rfl
@[simp] theorem State.ctx_setCore (s : State) (n m : Nat) (x : Core) : (s.setCore n x).ctx m = s.ctx m := rfl
@[simp] theorem State.ctx_setFront (s : State) (n m : Nat) (x : Front) : (s.setFront n x).ctx m = s.ctx m := rfl
@[simp] theorem State.ctx_setRing (s : State) (n m : Nat) (x : Ring) : (s.setRing n x).ctx m = s.ctx m := rfl
@[simp] theorem State.ctx_setCalendar (s : State) (n m : Nat) (x : Calendar) : (s.setCalendar n x).ctx m = s.ctx m := rfl

theorem State.launch_setLaunch (s : State) (n m : Nat) (x : Launch) : (s.setLaunch n x).launch m = if m = n then x else s.launch m :=
  tbl_get_set _ _ _ _ _
@[simp] theorem State.launch_setDie (s : State) (n m : Nat) (x : Die) : (s.setDie n x).launch m = s.launch m := rfl
@[simp] theorem State.launch_setFn (s : State) (n m : Nat) (x : Fn) : (s.setFn n x).launch m = s.launch m := rfl
@[simp] theorem State.launch_setPart (s : State) (n m : Nat) (x : Partition) : (s.setPart n x).launch m = s.launch m := rfl
@[simp] theorem State.launch_setCtx (s : State) (n m : Nat) (x : Context) : (s.setCtx n x).launch m = s.launch m := rfl
@[simp] theorem State.launch_setTeam (s : State) (n m : Nat) (x : Team) : (s.setTeam n x).launch m = s.launch m := rfl
@[simp] theorem State.launch_setGroup (s : State) (n m : Nat) (x : Group) : (s.setGroup n x).launch m = s.launch m := rfl
@[simp] theorem State.launch_setCore (s : State) (n m : Nat) (x : Core) : (s.setCore n x).launch m = s.launch m := rfl
@[simp] theorem State.launch_setFront (s : State) (n m : Nat) (x : Front) : (s.setFront n x).launch m = s.launch m := rfl
@[simp] theorem State.launch_setRing (s : State) (n m : Nat) (x : Ring) : (s.setRing n x).launch m = s.launch m := rfl
@[simp] theorem State.launch_setCalendar (s : State) (n m : Nat) (x : Calendar) : (s.setCalendar n x).launch m = s.launch m := rfl

theorem State.team_setTeam (s : State) (n m : Nat) (x : Team) : (s.setTeam n x).team m = if m = n then x else s.team m :=
  tbl_get_set _ _ _ _ _
@[simp] theorem State.team_setDie (s : State) (n m : Nat) (x : Die) : (s.setDie n x).team m = s.team m := rfl
@[simp] theorem State.team_setFn (s : State) (n m : Nat) (x : Fn) : (s.setFn n x).team m = s.team m := rfl
@[simp] theorem State.team_setPart (s : State) (n m : Nat) (x : Partition) : (s.setPart n x).team m = s.team m := rfl
@[simp] theorem State.team_setCtx (s : State) (n m : Nat) (x : Context) : (s.setCtx n x).team m = s.team m := rfl
@[simp] theorem State.team_setLaunch (s : State) (n m : Nat) (x : Launch) : (s.setLaunch n x).team m = s.team m := rfl
@[simp] theorem State.team_setGroup (s : State) (n m : Nat) (x : Group) : (s.setGroup n x).team m = s.team m := rfl
@[simp] theorem State.team_setCore (s : State) (n m : Nat) (x : Core) : (s.setCore n x).team m = s.team m := rfl
@[simp] theorem State.team_setFront (s : State) (n m : Nat) (x : Front) : (s.setFront n x).team m = s.team m := rfl
@[simp] theorem State.team_setRing (s : State) (n m : Nat) (x : Ring) : (s.setRing n x).team m = s.team m := rfl
@[simp] theorem State.team_setCalendar (s : State) (n m : Nat) (x : Calendar) : (s.setCalendar n x).team m = s.team m := rfl

theorem State.group_setGroup (s : State) (n m : Nat) (x : Group) : (s.setGroup n x).group m = if m = n then x else s.group m :=
  tbl_get_set _ _ _ _ _
@[simp] theorem State.group_setDie (s : State) (n m : Nat) (x : Die) : (s.setDie n x).group m = s.group m := rfl
@[simp] theorem State.group_setFn (s : State) (n m : Nat) (x : Fn) : (s.setFn n x).group m = s.group m := rfl
@[simp] theorem State.group_setPart (s : State) (n m : Nat) (x : Partition) : (s.setPart n x).group m = s.group m := rfl
@[simp] theorem State.group_setCtx (s : State) (n m : Nat) (x : Context) : (s.setCtx n x).group m = s.group m := rfl
@[simp] theorem State.group_setLaunch (s : State) (n m : Nat) (x : Launch) : (s.setLaunch n x).group m = s.group m := rfl
@[simp] theorem State.group_setTeam (s : State) (n m : Nat) (x : Team) : (s.setTeam n x).group m = s.group m := rfl
@[simp] theorem State.group_setCore (s : State) (n m : Nat) (x : Core) : (s.setCore n x).group m = s.group m := rfl
@[simp] theorem State.group_setFront (s : State) (n m : Nat) (x : Front) : (s.setFront n x).group m = s.group m := rfl
@[simp] theorem State.group_setRing (s : State) (n m : Nat) (x : Ring) : (s.setRing n x).group m = s.group m := rfl
@[simp] theorem State.group_setCalendar (s : State) (n m : Nat) (x : Calendar) : (s.setCalendar n x).group m = s.group m := rfl

theorem State.core_setCore (s : State) (n m : Nat) (x : Core) : (s.setCore n x).core m = if m = n then x else s.core m :=
  tbl_get_set _ _ _ _ _
@[simp] theorem State.core_setDie (s : State) (n m : Nat) (x : Die) : (s.setDie n x).core m = s.core m := rfl
@[simp] theorem State.core_setFn (s : State) (n m : Nat) (x : Fn) : (s.setFn n x).core m = s.core m := rfl
@[simp] theorem State.core_setPart (s : State) (n m : Nat) (x : Partition) : (s.setPart n x).core m = s.core m := rfl
@[simp] theorem State.core_setCtx (s : State) (n m : Nat) (x : Context) : (s.setCtx n x).core m = s.core m := rfl
@[simp] theorem State.core_setLaunch (s : State) (n m : Nat) (x : Launch) : (s.setLaunch n x).core m = s.core m := rfl
@[simp] theorem State.core_setTeam (s : State) (n m : Nat) (x : Team) : (s.setTeam n x).core m = s.core m := rfl
@[simp] theorem State.core_setGroup (s : State) (n m : Nat) (x : Group) : (s.setGroup n x).core m = s.core m := rfl
@[simp] theorem State.core_setFront (s : State) (n m : Nat) (x : Front) : (s.setFront n x).core m = s.core m := rfl
@[simp] theorem State.core_setRing (s : State) (n m : Nat) (x : Ring) : (s.setRing n x).core m = s.core m := rfl
@[simp] theorem State.core_setCalendar (s : State) (n m : Nat) (x : Calendar) : (s.setCalendar n x).core m = s.core m := rfl

theorem State.front_setFront (s : State) (n m : Nat) (x : Front) : (s.setFront n x).front m = if m = n then x else s.front m :=
  tbl_get_set _ _ _ _ _
@[simp] theorem State.front_setDie (s : State) (n m : Nat) (x : Die) : (s.setDie n x).front m = s.front m := rfl
@[simp] theorem State.front_setFn (s : State) (n m : Nat) (x : Fn) : (s.setFn n x).front m = s.front m := rfl
@[simp] theorem State.front_setPart (s : State) (n m : Nat) (x : Partition) : (s.setPart n x).front m = s.front m := rfl
@[simp] theorem State.front_setCtx (s : State) (n m : Nat) (x : Context) : (s.setCtx n x).front m = s.front m := rfl
@[simp] theorem State.front_setLaunch (s : State) (n m : Nat) (x : Launch) : (s.setLaunch n x).front m = s.front m := rfl
@[simp] theorem State.front_setTeam (s : State) (n m : Nat) (x : Team) : (s.setTeam n x).front m = s.front m := rfl
@[simp] theorem State.front_setGroup (s : State) (n m : Nat) (x : Group) : (s.setGroup n x).front m = s.front m := rfl
@[simp] theorem State.front_setCore (s : State) (n m : Nat) (x : Core) : (s.setCore n x).front m = s.front m := rfl
@[simp] theorem State.front_setRing (s : State) (n m : Nat) (x : Ring) : (s.setRing n x).front m = s.front m := rfl
@[simp] theorem State.front_setCalendar (s : State) (n m : Nat) (x : Calendar) : (s.setCalendar n x).front m = s.front m := rfl

theorem State.ring_setRing (s : State) (n m : Nat) (x : Ring) : (s.setRing n x).ring m = if m = n then x else s.ring m :=
  tbl_get_set _ _ _ _ _
@[simp] theorem State.ring_setDie (s : State) (n m : Nat) (x : Die) : (s.setDie n x).ring m = s.ring m := rfl
@[simp] theorem State.ring_setFn (s : State) (n m : Nat) (x : Fn) : (s.setFn n x).ring m = s.ring m := rfl
@[simp] theorem State.ring_setPart (s : State) (n m : Nat) (x : Partition) : (s.setPart n x).ring m = s.ring m := rfl
@[simp] theorem State.ring_setCtx (s : State) (n m : Nat) (x : Context) : (s.setCtx n x).ring m = s.ring m := rfl
@[simp] theorem State.ring_setLaunch (s : State) (n m : Nat) (x : Launch) : (s.setLaunch n x).ring m = s.ring m := rfl
@[simp] theorem State.ring_setTeam (s : State) (n m : Nat) (x : Team) : (s.setTeam n x).ring m = s.ring m := rfl
@[simp] theorem State.ring_setGroup (s : State) (n m : Nat) (x : Group) : (s.setGroup n x).ring m = s.ring m := rfl
@[simp] theorem State.ring_setCore (s : State) (n m : Nat) (x : Core) : (s.setCore n x).ring m = s.ring m := rfl
@[simp] theorem State.ring_setFront (s : State) (n m : Nat) (x : Front) : (s.setFront n x).ring m = s.ring m := rfl
@[simp] theorem State.ring_setCalendar (s : State) (n m : Nat) (x : Calendar) : (s.setCalendar n x).ring m = s.ring m := rfl

theorem State.calendar_setCalendar (s : State) (n m : Nat) (x : Calendar) : (s.setCalendar n x).calendar m = if m = n then x else s.calendar m :=
  tbl_get_set _ _ _ _ _
@[simp] theorem State.calendar_setDie (s : State) (n m : Nat) (x : Die) : (s.setDie n x).calendar m = s.calendar m := rfl
@[simp] theorem State.calendar_setFn (s : State) (n m : Nat) (x : Fn) : (s.setFn n x).calendar m = s.calendar m := rfl
@[simp] theorem State.calendar_setPart (s : State) (n m : Nat) (x : Partition) : (s.setPart n x).calendar m = s.calendar m := rfl
@[simp] theorem State.calendar_setCtx (s : State) (n m : Nat) (x : Context) : (s.setCtx n x).calendar m = s.calendar m := rfl
@[simp] theorem State.calendar_setLaunch (s : State) (n m : Nat) (x : Launch) : (s.setLaunch n x).calendar m = s.calendar m := rfl
@[simp] theorem State.calendar_setTeam (s : State) (n m : Nat) (x : Team) : (s.setTeam n x).calendar m = s.calendar m := rfl
@[simp] theorem State.calendar_setGroup (s : State) (n m : Nat) (x : Group) : (s.setGroup n x).calendar m = s.calendar m := rfl
@[simp] theorem State.calendar_setCore (s : State) (n m : Nat) (x : Core) : (s.setCore n x).calendar m = s.calendar m := rfl
@[simp] theorem State.calendar_setFront (s : State) (n m : Nat) (x : Front) : (s.setFront n x).calendar m = s.calendar m := rfl
@[simp] theorem State.calendar_setRing (s : State) (n m : Nat) (x : Ring) : (s.setRing n x).calendar m = s.calendar m := rfl

end Sys2Proof.Machine
end

