-- ==== Sys2Proof/Laws/Issue.lean ====
section
/-! SUPPORT. What issuing a unit of one instruction does, said once: it completes with its plan's change wherever
nothing holds it back, and what the steps around the change leave alone. -/

namespace Sys2Proof.Machine

open Sys2Proof

theorem word_or_zero (a : Word) : a ||| 0 = a := BitVec.or_zero

/-! ### States that differ in groups and launches only -/

/-- `t` is `s` but for the groups and the launches. -/
def Only (s t : State) : Prop := t = { s with groups := t.groups, launches := t.launches }

theorem Only.refl (s : State) : Only s s := rfl

theorem Only.trans {s t u : State} (h : Only s t) (k : Only t u) : Only s u := by
  rw [Only] at *
  rw [k, h]

theorem Only.cur {s t : State} (h : Only s t) : t.cur = s.cur := by rw [h]
theorem Only.teams {s t : State} (h : Only s t) : t.teams = s.teams := by rw [h]

theorem Only.coreOf {s t : State} (h : Only s t) (g : Nat) : t.coreOf g = s.coreOf g := by
  rw [State.coreOf, State.team, h.teams]; rfl

theorem Only.setGroup (s : State) (n : Nat) (x : Group) : Only s (s.setGroup n x) := rfl
theorem Only.setLaunch (s : State) (n : Nat) (x : Launch) : Only s (s.setLaunch n x) := rfl

theorem Only.foldl {α : Type} {f : State → α → State} (h : ∀ s x, Only s (f s x)) (l : List α) (s : State) :
    Only s (l.foldl f s) := by
  induction l generalizing s with
  | nil => exact Only.refl s
  | cons x r ih => exact (h s x).trans (ih _)

/-! ### Groups that differ in a pending OVERRUN only -/

/-- `b` is `a` but for a pending OVERRUN. -/
def Ov (a b : Group) : Prop := b = { a with overrun := b.overrun }

theorem Ov.refl (a : Group) : Ov a a := rfl

theorem Ov.trans {a b c : Group} (h : Ov a b) (k : Ov b c) : Ov a c := by
  rw [Ov] at *
  rw [k, h]

/-- Accounts have changed, and pending OVERRUNs. -/
def Accounts (s t : State) : Prop := Only s t ∧ ∀ n, Ov (s.group n) (t.group n)

theorem Accounts.refl (s : State) : Accounts s s := ⟨Only.refl s, fun _ => Ov.refl _⟩

theorem Accounts.trans {s t u : State} (h : Accounts s t) (k : Accounts t u) : Accounts s u :=
  ⟨h.1.trans k.1, fun n => (h.2 n).trans (k.2 n)⟩

theorem Accounts.setLaunch (s : State) (n : Nat) (x : Launch) : Accounts s (s.setLaunch n x) :=
  ⟨Only.setLaunch s n x, fun _ => Ov.refl _⟩

theorem Accounts.overruns (why : Nat) (gs : List Nat) (s : State) :
    Accounts s (gs.foldl (fun s g => s.setGroup g { s.group g with overrun := some why }) s) := by
  induction gs generalizing s with
  | nil => exact Accounts.refl s
  | cons g r ih =>
    refine Accounts.trans ⟨Only.setGroup s g _, fun n => ?_⟩ (ih _)
    rw [State.group_setGroup]
    split
    · rename_i h; subst h; exact rfl
    · exact Ov.refl _

theorem overrun_accounts (s : State) (l why d : Nat) : Accounts s (s.overrun l why d) := by
  simp only [State.overrun]
  split
  · exact Accounts.refl s
  · split
    · exact Accounts.setLaunch _ _ _
    · split
      · exact (Accounts.overruns why _ s).trans (Accounts.setLaunch _ _ _)
      · exact Accounts.setLaunch _ _ _
      · exact Accounts.setLaunch _ _ _

theorem reportCharge_accounts (s : State) (l c : Nat) : Accounts s (s.reportCharge l c) := by
  simp only [State.reportCharge]
  split
  · exact (Accounts.setLaunch _ _ _).trans (overrun_accounts _ _ _ _)
  · exact Accounts.setLaunch _ _ _

/-- A charge changes accounts, and may leave an OVERRUN pending (R334, R335). -/
theorem charge_accounts (s : State) (l c : Nat) (k : ChargeKind) (n : Nat) : Accounts s (s.charge l c k n) := by
  have key : ∀ x : Launch, Accounts s
      (if 1024 ≤ x.cyc.get 0 c then (s.setLaunch l x).reportCharge l c else s.setLaunch l x) := fun x => by
    split
    · exact (Accounts.setLaunch _ _ _).trans (reportCharge_accounts _ _ _)
    · exact Accounts.setLaunch _ _ _
  exact key _

/-! ### Splits of a group -/

theorem insertSplit_find (x : Split) (l : List Split) (n : Nat) :
    (insertSplit x l).find? (fun y => y.num == n) = if x.num = n then some x else l.find? fun y => y.num == n := by
  induction l with
  | nil =>
    by_cases h : x.num = n
    · simp [insertSplit, h]
    · have hb : (x.num == n) = false := by simpa using h
      simp [insertSplit, hb, h]
  | cons y r ih =>
    by_cases h : x.num = n
    · rw [if_pos h] at ih ⊢
      have hb : (x.num == n) = true := by simpa using h
      simp only [insertSplit]
      split
      · rw [List.find?_cons, hb]
      · split
        · rw [List.find?_cons, hb]
        · rename_i _ hy
          have hy' : (y.num == n) = false := by simpa [← h] using Ne.symm hy
          rw [List.find?_cons, hy', ih]
    · rw [if_neg h] at ih ⊢
      have hb : (x.num == n) = false := by simpa using h
      simp only [insertSplit]
      split
      · rw [List.find?_cons, hb]
      · split
        · rename_i _ hy
          have hy' : (y.num == n) = false := by rw [← hy]; exact hb
          rw [List.find?_cons, hb, List.find?_cons, hy']
        · rw [List.find?_cons, List.find?_cons, ih]

theorem split?_putSplit (g : Group) (x : Split) (n : Nat) :
    (g.putSplit x).split? n = if x.num = n then some x else g.split? n :=
  insertSplit_find x g.splits n

theorem split?_num {g : Group} {n : Nat} {x : Split} (h : g.split? n = some x) : x.num = n := by
  simpa using List.find?_some h

theorem split_of_split? {g : Group} {n : Nat} {x : Split} (h : g.split? n = some x) : g.split n = x := by
  rw [Group.split, h]; rfl

/-! ### What the steps around a change do to the executing group -/

/-- A register afterwards: the same value, or released where a last-use bit says so. -/
def VKept (p : Prop) (a b : VReg) : Prop :=
  b = a ∨ (∃ vals q r, a = .general vals q ∧ b = .general vals r) ∨ p ∧ b = .released

theorem VKept.trans {p : Prop} {a b c : VReg} (h : VKept p a b) (k : VKept p b c) : VKept p a c := by
  rcases h with rfl | ⟨vals, q, r, rfl, rfl⟩ | ⟨hp, rfl⟩
  · exact k
  · rcases k with rfl | ⟨v2, q2, r2, h2, rfl⟩ | k
    · exact .inr (.inl ⟨vals, q, r, rfl, rfl⟩)
    · cases h2; exact .inr (.inl ⟨vals, q, r2, rfl, rfl⟩)
    · exact .inr (.inr k)
  · rcases k with rfl | ⟨_, _, _, h2, _⟩ | k
    · exact .inr (.inr ⟨hp, rfl⟩)
    · cases h2
    · exact .inr (.inr k)

/-- From `a` to `b` registers are read, refilled, released and popped (`c` says how often a feed is), and split `n`
moves; nothing else changes. -/
structure Moves (i : Instr) (n : Nat) (c : Nat → Nat) (a b : Group) : Prop where
  rest : b = { a with vregs := b.vregs, feeds := b.feeds, splits := b.splits, gstat := b.gstat, overrun := b.overrun }
  v : ∀ k, VKept (k ∈ i.releases ∧ Dst.v k ∉ i.dests) (a.v k) (b.v k)
  gst : b.gstat = a.gstat ∨ b.gstat = a.gstat ||| 1
  feeds : ∀ k, b.feed k = (a.feed k).drop (c k)
  others : ∀ m, m ≠ n → b.split? m = a.split? m
  me : ∀ x, a.split? n = some x → ∃ y, b.split? n = some y ∧ y.mask = x.mask ∧ y.fmt = x.fmt ∧ y.rmode = x.rmode ∧
    y.l0 = x.l0 ∧ y.l1 = x.l1

theorem Moves.refl (i : Instr) (n : Nat) (a : Group) : Moves i n (fun _ => 0) a a :=
  ⟨rfl, fun _ => .inl rfl, .inl rfl, fun _ => rfl, fun _ _ => rfl, fun x h => ⟨x, h, rfl, rfl, rfl, rfl, rfl⟩⟩

theorem Moves.trans {i : Instr} {n : Nat} {c d : Nat → Nat} {x y z : Group} (h : Moves i n c x y)
    (k : Moves i n d y z) : Moves i n (fun m => c m + d m) x z := by
  refine ⟨?_, fun m => (h.v m).trans (k.v m), ?_, fun m => ?_, fun m hm => ?_, fun w hw => ?_⟩
  · rw [k.rest, h.rest]
  · rcases h.gst with h1 | h1 <;> rcases k.gst with k1 | k1 <;> rw [k1, h1]
    · exact .inl rfl
    · exact .inr rfl
    · exact .inr rfl
    · rw [BitVec.or_assoc, BitVec.or_self]; exact .inr rfl
  · rw [k.feeds, h.feeds, List.drop_drop]
  · rw [k.others m hm, h.others m hm]
  · obtain ⟨u, h0, h1, h2, h3, h4, h5⟩ := h.me w hw
    obtain ⟨v, k0, k1, k2, k3, k4, k5⟩ := k.me u h0
    exact ⟨v, k0, k1.trans h1, k2.trans h2, k3.trans h3, k4.trans h4, k5.trans h5⟩

theorem Moves.of_ov {i : Instr} {n : Nat} {a b : Group} (h : Ov a b) : Moves i n (fun _ => 0) a b := by
  rw [Ov] at h
  rw [h]
  exact ⟨rfl, fun _ => .inl rfl, .inl rfl, fun _ => rfl, fun _ _ => rfl, fun x h => ⟨x, h, rfl, rfl, rfl, rfl, rfl⟩⟩

/-- The same of two states. -/
def Around (i : Instr) (c : Nat → Nat) (s t : State) : Prop :=
  Only s t ∧ (∀ n, n ≠ s.cur.group → Ov (s.group n) (t.group n)) ∧ Moves i s.cur.split c s.g (s.in_ t)

theorem Around.refl (i : Instr) (s : State) : Around i (fun _ => 0) s s :=
  ⟨Only.refl s, fun _ _ => Ov.refl _, Moves.refl _ _ _⟩

theorem Around.trans {i : Instr} {c d : Nat → Nat} {s t u : State} (h : Around i c s t) (k : Around i d t u) :
    Around i (fun m => c m + d m) s u := by
  have hc := h.1.cur
  obtain ⟨k1, k2, k3⟩ := k
  rw [State.in_, State.g, hc] at k3
  rw [hc] at k2
  exact ⟨h.1.trans k1, fun n hn => (h.2.1 n hn).trans (k2 n hn), h.2.2.trans k3⟩

theorem Around.of_accounts {i : Instr} {s t : State} (h : Accounts s t) : Around i (fun _ => 0) s t :=
  ⟨h.1, fun n _ => h.2 n, Moves.of_ov (h.2 _)⟩

theorem modG_g (s : State) (f : Group → Group) : (s.modG f).g = f s.g := by
  show (s.setGroup s.cur.group (f s.g)).group s.cur.group = f s.g
  rw [State.group_setGroup, if_pos rfl]

/-- A change of the executing group commutes with naming another slot of its unit. -/
theorem modG_cur (u : State) (c : Cur) (f : Group → Group) (h : c.group = u.cur.group) :
    { u.modG f with cur := c } = State.modG { u with cur := c } f := by
  simp only [State.modG, State.g, h]
  rfl

theorem Around.modG {i : Instr} {c : Nat → Nat} {s : State} {f : Group → Group}
    (h : Moves i s.cur.split c s.g (f s.g)) : Around i c s (s.modG f) := by
  refine ⟨Only.setGroup s _ _, fun n hn => ?_, ?_⟩
  · rw [State.modG, State.group_setGroup, if_neg hn]; exact Ov.refl _
  · rw [State.in_, State.modG, State.group_setGroup, if_pos rfl]; exact h

theorem Around.foldl {α : Type} {i : Instr} {f : State → α → State} (l : List α) (s : State)
    (h : ∀ x ∈ l, ∀ s, Around i (fun _ => 0) s (f s x)) : Around i (fun _ => 0) s (l.foldl f s) := by
  induction l generalizing s with
  | nil => exact Around.refl i s
  | cons x r ih => exact (h x (by simp) s).trans (ih _ fun y hy => h y (by simp [hy]))

/-- A split that keeps its mask, its format, its rounding mode and its last results. -/
theorem Around.modSp {i : Instr} {s : State} {f : Split → Split} (hn : ∀ x, (f x).num = x.num)
    (hf : ∀ x, (f x).mask = x.mask ∧ (f x).fmt = x.fmt ∧ (f x).rmode = x.rmode ∧ (f x).l0 = x.l0 ∧ (f x).l1 = x.l1)
    (hs : (s.g.split? s.cur.split).isSome = true) : Around i (fun _ => 0) s (s.modSp f) := by
  obtain ⟨x, hx⟩ := Option.isSome_iff_exists.mp hs
  have hsp : s.sp = x := split_of_split? hx
  have hnum : (f x).num = s.cur.split := by rw [hn]; exact split?_num hx
  refine Around.modG ⟨rfl, fun _ => .inl rfl, .inl rfl, fun _ => rfl, fun m hm => ?_, fun y hy => ?_⟩
  · rw [split?_putSplit, hsp, if_neg (by rw [hnum]; exact Ne.symm hm)]
  · rw [hx] at hy
    cases hy
    refine ⟨f x, ?_, (hf x).1, (hf x).2.1, (hf x).2.2.1, (hf x).2.2.2.1, (hf x).2.2.2.2⟩
    rw [split?_putSplit, hsp, if_pos hnum]

/-- The executing split after its own change. -/
theorem sp_modSp {u : State} {f : Split → Split} (h : (f u.sp).num = u.cur.split) : (u.modSp f).sp = f u.sp := by
  show ((u.modG fun g => g.putSplit (f u.sp)).g).split u.cur.split = f u.sp
  rw [modG_g, Group.split, split?_putSplit, if_pos h, Option.getD_some]

theorem Around.split {i : Instr} {c : Nat → Nat} {s t : State} (h : Around i c s t)
    (hs : (s.g.split? s.cur.split).isSome = true) : (t.g.split? t.cur.split).isSome = true := by
  obtain ⟨x, hx⟩ := Option.isSome_iff_exists.mp hs
  obtain ⟨y, hy, -⟩ := h.2.2.me x hx
  rw [State.g, h.1.cur]
  exact Option.isSome_iff_exists.mpr ⟨y, hy⟩

theorem around_markReads (i : Instr) (s : State) : Around i (fun _ => 0) s (s.markReads i) := by
  rw [State.markReads]
  split
  · exact Around.modG ⟨rfl, fun _ => .inl rfl, .inr rfl, fun _ => rfl, fun _ _ => rfl,
      fun x h => ⟨x, h, rfl, rfl, rfl, rfl, rfl⟩⟩
  · exact Around.refl i s

theorem group_v_set (g : Group) (n k : Nat) (r : VReg) :
    Group.v { g with vregs := g.vregs.set n r } k = if k = n then r else g.v k :=
  tbl_get_set _ _ _ _ _

theorem around_refill (i : Instr) (s : State) : Around i (fun _ => 0) s (s.refill i) := by
  refine Around.foldl _ s fun n _ s => Around.modG ?_
  split
  · rename_i vals q h
    refine ⟨rfl, fun k => ?_, .inl rfl, fun _ => rfl, fun _ _ => rfl, fun x h => ⟨x, h, rfl, rfl, rfl, rfl, rfl⟩⟩
    rw [group_v_set]
    split
    · rename_i hk; subst hk; exact .inr (.inl ⟨vals, q, false, h, rfl⟩)
    · exact .inl rfl
  · exact Moves.refl _ _ _

theorem around_releases (b : Bool) (i : Instr) (s : State) : Around i (fun _ => 0) s (s.releases b i) := by
  rw [State.releases]
  split
  · refine Around.foldl _ s fun n hn s => Around.modG ?_
    simp only [List.mem_filter, Bool.not_eq_true', List.contains_eq_mem, decide_eq_false_iff_not] at hn
    rw [Group.release]
    split
    · refine ⟨rfl, fun k => ?_, .inl rfl, fun _ => rfl, fun _ _ => rfl, fun x h => ⟨x, h, rfl, rfl, rfl, rfl, rfl⟩⟩
      rw [group_v_set]
      split
      · rename_i hk; subst hk; exact .inr (.inr ⟨hn, rfl⟩)
      · exact .inl rfl
    · exact Moves.refl _ _ _
  · exact Around.refl i s

theorem popFeed_feed (g : Group) (n k m : Nat) : (g.popFeed n k).feed m = (g.feed m).drop (if m = n then k else 0) := by
  rw [Group.popFeed]
  split
  · rename_i h; subst h; simp
  · show (g.feeds.set n ((g.feed n).drop k)).get [] m = _
    rw [tbl_get_set]
    split
    · rename_i h; subst h; rfl
    · rfl

theorem around_popFeed (i : Instr) (n : Nat) (s : State) :
    Around i (fun m => if m = n then i.pops n else 0) s
      (if i.pops n = 0 then s else s.modG fun g => g.popFeed n (i.pops n)) := by
  split
  · rename_i h
    have : (fun m => if m = n then i.pops n else 0) = fun _ : Nat => 0 := by funext m; simp [h]
    rw [this]; exact Around.refl i s
  · refine Around.modG ⟨?_, fun k => .inl ?_, .inl ?_, fun k => popFeed_feed _ _ _ _, fun m hm => ?_, fun x h => ?_⟩
    · rw [Group.popFeed]; split <;> rfl
    · rw [Group.popFeed]; split <;> rfl
    · rw [Group.popFeed]; split <;> rfl
    · rw [Group.popFeed]; split <;> rfl
    · refine ⟨x, ?_, rfl, rfl, rfl, rfl, rfl⟩
      rw [Group.popFeed]; split <;> exact h

theorem around_popFeeds (i : Instr) (s : State) :
    Around i (fun m => if m < 4 then i.pops m else 0) s (s.popFeeds i) := by
  have h := (((around_popFeed i 0 s).trans (around_popFeed i 1 _)).trans (around_popFeed i 2 _)).trans
    (around_popFeed i 3 _)
  have e : (fun m => ((if m = 0 then i.pops 0 else 0) + (if m = 1 then i.pops 1 else 0) +
      (if m = 2 then i.pops 2 else 0)) + (if m = 3 then i.pops 3 else 0)) = fun m => if m < 4 then i.pops m else 0 := by
    funext m
    by_cases h0 : m = 0
    · subst h0; simp
    by_cases h1 : m = 1
    · subst h1; simp
    by_cases h2 : m = 2
    · subst h2; simp
    by_cases h3 : m = 3
    · subst h3; simp
    rw [if_neg h0, if_neg h1, if_neg h2, if_neg h3, if_neg (by omega)]
  rw [e] at h
  exact h

theorem around_chargePass {i : Instr} {s : State} (hs : (s.g.split? s.cur.split).isSome = true) :
    Around i (fun _ => 0) s s.chargePass := by
  rw [State.chargePass]
  split
  · exact Around.refl i s
  · have h : Around i (fun _ => 0) s (s.chargeG s.cur.group .bundle 1) := Around.of_accounts (charge_accounts _ _ _ _ _)
    exact h.trans (Around.modSp (f := fun x => { x with charged := true }) (fun _ => rfl)
      (fun _ => ⟨rfl, rfl, rfl, rfl, rfl⟩) (h.split hs))

theorem around_advance {i : Instr} {s : State} (hs : (s.g.split? s.cur.split).isSome = true) :
    Around i (fun _ => 0) s s.advance := by
  simp only [State.advance]
  split <;> exact Around.modSp (fun _ => rfl) (fun _ => ⟨rfl, rfl, rfl, rfl, rfl⟩) hs

theorem around_markUnit (i : Instr) (s : State) : Around i (fun _ => 0) s (s.markUnit (s.single i)) := by
  rw [State.markUnit]
  split
  · exact Around.refl i s
  · exact around_markReads i s

/-- The state once an instruction's operands are taken, before the charge and the move past it. -/
def State.taken (s : State) (i : Instr) : State :=
  (((s.markUnit (s.single i)).refill i).releases s.alone i).popFeeds i

theorem prepared_eq (s : State) (i : Instr) : s.prepared i = (s.taken i).chargePass.advance := rfl

theorem around_taken (i : Instr) (s : State) : Around i (fun m => if m < 4 then i.pops m else 0) s (s.taken i) := by
  have h := (((around_markUnit i s).trans (around_refill i _)).trans (around_releases s.alone i _)).trans
    (around_popFeeds i _)
  simp only [Nat.zero_add] at h
  exact h

theorem around_charged {i : Instr} {s : State} (hs : (s.g.split? s.cur.split).isSome = true) :
    Around i (fun m => if m < 4 then i.pops m else 0) s (s.taken i).chargePass := by
  have h := around_taken i s
  have h5 := h.trans (around_chargePass (h.split hs))
  simp only [Nat.add_zero] at h5
  exact h5

/-- What taking an instruction's operands and moving past it does. -/
theorem around_prepared {i : Instr} {s : State} (hs : (s.g.split? s.cur.split).isSome = true) :
    Around i (fun m => if m < 4 then i.pops m else 0) s (s.prepared i) := by
  have h5 := around_charged (i := i) hs
  have h6 := h5.trans (around_advance (h5.split hs))
  simp only [Nat.add_zero] at h6
  rw [prepared_eq]
  exact h6

/-- The executing split stands past the unit once its operands are taken. -/
theorem prepared_pc {i : Instr} {s : State} (hs : (s.g.split? s.cur.split).isSome = true) :
    ((s.in_ (s.prepared i)).split s.cur.split).pc = s.cur.slot + s.cur.len := by
  have h5 := around_charged (i := i) hs
  have key : ∀ u : State, u.cur = s.cur → (u.g.split? u.cur.split).isSome = true →
      ((s.in_ u.advance).split s.cur.split).pc = s.cur.slot + s.cur.len := by
    intro u hu hus
    obtain ⟨x, hx⟩ := Option.isSome_iff_exists.mp hus
    have hsp : u.sp = x := split_of_split? hx
    have hm : ∀ f : Split → Split, (f x).num = x.num → s.in_ (u.modSp f) = u.g.putSplit (f x) := by
      intro f _
      rw [State.in_, State.modSp, State.modG, hu, State.group_setGroup, if_pos rfl, hsp]
    have hp : ∀ y : Split, y.num = x.num → y.pc = s.cur.slot + s.cur.len →
        ((u.g.putSplit y).split s.cur.split).pc = s.cur.slot + s.cur.len := by
      intro y hy hpc
      have : (u.g.putSplit y).split? s.cur.split = some y := by
        rw [split?_putSplit, if_pos (by rw [hy, ← hu]; exact split?_num hx)]
      rw [split_of_split? this, hpc]
    simp only [State.advance]
    split
    · rw [hm _ rfl]; exact hp _ rfl (by rw [hu])
    · rw [hm _ rfl]; exact hp _ rfl (by rw [hu])
  rw [prepared_eq]
  exact key _ h5.1.cur (h5.split hs)

/-! ### Completing -/

theorem atMember_self (s : State) : s.atMember s.cur.slot = s := by
  simp only [State.atMember, Nat.add_sub_cancel_left]

theorem commits_one (s : State) (m : Member) (rs : List Report) (f : State → State) :
    s.commits [(m, rs, .ok f)] = { f (s.atMember m.slot) with cur := s.cur } := rfl

theorem changeOrder_one (p : Member × List Report × Except Stop (State → State)) : changeOrder [p] = [p] := by
  obtain ⟨⟨k, i, q⟩, rs, e⟩ := p
  cases i <;> rfl

theorem vreg_slots_le (r : VReg) : r.slots ≤ 4 := by
  cases r with
  | general v b =>
    cases b
    · simp only [VReg.slots, classSlots]
      split
      · decide
      · split <;> decide
    · exact Nat.zero_le _
  | _ => exact Nat.zero_le _

theorem slotsOf_sum (g : Group) (ds : List Dst) : (g.slotsOf ds).sum ≤ 4 * ds.length := by
  induction ds with
  | nil => exact Nat.le_refl _
  | cons d r ih =>
    simp only [Group.slotsOf, List.map_cons, List.sum_cons, List.length_cons] at ih ⊢
    cases d with
    | v n => have := vreg_slots_le (g.v n); dsimp only; omega
    | o n => dsimp only; omega
    | k n => dsimp only; omega

/-- Commits for whose new slots the bank has room fit, in whatever order they free the old ones (R174, R180). -/
theorem commitShort_none (base : Nat) (os ns : List Nat) (used : Nat) (h : used + ns.sum ≤ bankSlots) :
    commitShort base used (os.zip ns) = none := by
  induction os generalizing ns used with
  | nil => rfl
  | cons o os ih =>
    cases ns with
    | nil => rfl
    | cons n ns =>
      rw [List.sum_cons] at h
      rw [List.zip_cons_cons, commitShort, if_pos (.inr (by omega))]
      exact ih ns _ (by omega)

theorem destsOf_single (s : State) (i : Instr) : destsOf (s.single i) = i.dests := by
  simp only [destsOf, State.single, List.flatMap_cons, List.flatMap_nil, List.append_nil]

theorem ample_fits {s : State} {i : Instr} (f : State → State) (h : s.ample i = true) :
    s.unitNeed (s.single i) (s.prepared i, s.changed i f) = none := by
  simp only [State.ample, Bool.and_eq_true, Option.isNone_iff_eq_none, decide_eq_true_eq] at h
  have := slotsOf_sum (s.changed i f).g i.dests
  simp only [State.unitNeed, h.1.2, destsOf_single]
  split
  · exact commitShort_none _ _ _ _ (by omega)
  · rfl

/-- A unit whose members' plans all answer changes goes on to complete. -/
theorem issueUnit_ok {s : State} {ms : List Member} {ps : List (Member × List Report × Except Stop (State → State))}
    (h1 : ((ms.any fun m => s.interlocked m.instr) || s.feedsShort ms) = false) (h2 : s.reading.plans ms = ps)
    (h3 : winner (ps.flatMap fun p => p.2.1) = none) (h4 : firstStop ps = none) (h5 : cutAt ms = none) :
    s.issueUnit ms = s.complete ms ps := by
  simp only [State.issueUnit, h1, h2, h3, cutUnit, h5, h4, Bool.false_eq_true, if_false]

/-- A unit of one instruction is not cut. -/
theorem cutAt_single (s : State) (i : Instr) : cutAt (s.single i) = none := by
  simp only [cutAt, State.single, List.zipIdx_cons, List.zipIdx_nil, List.filterMap_cons, List.filterMap_nil,
    List.filter_cons, Nat.lt_irrefl, decide_false, Bool.false_and, Bool.false_eq_true, if_false, List.filter_nil]
  split <;> simp_all

/-- No allocation stands before those of an instruction with ample room. -/
theorem ample_first {s : State} {i : Instr} (h : s.ample i = true) : (s.core (s.coreOf s.cur.group)).requester = none := by
  simp only [State.ample, Bool.and_eq_true, Option.isNone_iff_eq_none] at h
  exact h.1.1

/-- Where nothing is asked for, no allocation comes first. -/
theorem afterAsker_none {s : State} {g : Nat} (h : (s.core (s.coreOf g)).requester = none) (b : Bool) :
    s.afterAsker g b = false := by
  simp only [State.afterAsker, State.asker, h, Option.filter_none, Option.any_none, Bool.and_false]

/-- Where a group has asked for nothing, there is nothing to take back. -/
theorem served_none {t s : State} {g : Nat} (h : (s.core (s.coreOf g)).requester = none) : t.served s g = t := by
  simp only [State.served, h]

/-- A unit whose allocations fit, with none before them, completes. -/
theorem complete_fits {s : State} {ms : List Member}
    {ps : List (Member × List Report × Except Stop (State → State))} {x y : State} (hq : s.unitChange ms ps = (x, y))
    (h : s.unitNeed ms (x, y) = none) (hr : (s.core (s.coreOf s.cur.group)).requester = none) :
    s.complete ms ps = (y.yieldOut s.yieldsAfter).retire := by
  simp only [State.complete, hq, h, State.unitAfter, afterAsker_none hr, served_none hr, Bool.false_eq_true, if_false]

/-- Nothing that the instruction names waits for a value, and no feed for an entry. -/
theorem single_free {s : State} {i : Instr} (hi : s.interlocked i = false) (hf : s.shortFeeds i = []) :
    (((s.single i).any fun m => s.interlocked m.instr) || s.feedsShort (s.single i)) = false := by
  have hs : ((List.range 4).any fun n => decide ((s.g.feed n).length < ((s.single i).map fun m => m.instr.pops n).sum)) =
      false := by
    rw [List.any_eq_false]
    intro n hn hd
    have hm : n ∈ s.shortFeeds i := by
      rw [State.shortFeeds, List.mem_filter]
      refine ⟨hn, ?_⟩
      simpa only [State.single, List.map_cons, List.map_nil, List.sum_cons, List.sum_nil, Nat.add_zero] using hd
    rw [hf] at hm
    cases hm
  simp only [State.feedsShort, hs, Bool.and_false, Bool.or_false]
  simp only [State.single, List.any_cons, List.any_nil, hi, Bool.or_false]

/-- A unit that does not wait reads the registers as they are. -/
theorem reading_self {s : State} (h : s.sp.wait = none) : s.reading = s := by
  simp only [State.reading, Split.heldNow, h, Option.isSome_none, Bool.false_eq_true, if_false]

/-- The cause that a plan's answer raises. -/
def causesOf : Except Stop (State → State) → List Report
  | .error (.raise x) => [x]
  | _ => []

/-- The answers of the plans of a unit of one instruction that nothing holds back. -/
theorem plans_single {s : State} {i : Instr} {p : Plan} {e : Except Stop (State → State)} (hp : planOf i = p)
    (hf : p s = e) (hc : s.clear i = true) :
    s.reading.plans (s.single i) = [(⟨s.cur.slot, i, p⟩, causesOf e, e)] := by
  subst hp
  simp only [State.clear, Bool.and_eq_true, List.isEmpty_iff, Option.isNone_iff_eq_none] at hc
  obtain ⟨⟨⟨⟨-, hw⟩, -⟩, hr⟩, hsf⟩ := hc
  rw [reading_self hw]
  simp only [State.single, State.plans, atMember_self, hsf, if_true, hw, Option.isSome_none, Bool.false_eq_true, if_false,
    hr, List.nil_append, hf]
  rcases e with e | f
  · cases e <;> rfl
  · rfl

/-- The interlock and the feeds of an instruction that nothing holds back. -/
theorem clear_free {s : State} {i : Instr} (hc : s.clear i = true) :
    (((s.single i).any fun m => s.interlocked m.instr) || s.feedsShort (s.single i)) = false := by
  simp only [State.clear, Bool.and_eq_true, List.isEmpty_iff, Bool.not_eq_true'] at hc
  exact single_free hc.1.1.2 hc.2

/-- The change of a unit of one instruction. -/
theorem unitChange_single {s : State} {i : Instr} {rs : List Report} (f : State → State)
    (hs : (s.g.split? s.cur.split).isSome = true) :
    s.unitChange (s.single i) [(⟨s.cur.slot, i, planOf i⟩, rs, .ok f)] = (s.prepared i, s.changed i f) := by
  have hcur : (s.prepared i).cur = s.cur := (around_prepared (i := i) hs).1.cur
  rw [State.unitChange, changeOrder_one, commits_one, State.changed, ← hcur]
  rfl

/-- An instruction that nothing holds back, whose plan answers the change `f` and whose allocations fit, completes. -/
theorem issue_done {s : State} {i : Instr} {p : Plan} {f : State → State} (hp : planOf i = p) (hf : p s = .ok f)
    (hc : s.clear i = true) (ha : s.ample i = true) : issue i p s = .next (s.done i f) := by
  have hs : (s.g.split? s.cur.split).isSome = true := by
    simp only [State.clear, Bool.and_eq_true] at hc
    exact hc.1.1.1.1
  have hpl := plans_single hp hf hc
  subst hp
  exact congrArg Host.Outcome.next ((issueUnit_ok (clear_free hc) hpl rfl rfl (cutAt_single _ _)).trans
    (complete_fits (unitChange_single f hs) (ample_fits f ha) (ample_first ha)))

/-- A waiting instruction whose plan answers the change `f` on what it read as it issued completes. -/
theorem issue_resumed {s : State} {i : Instr} {p : Plan} {f : State → State} (hp : planOf i = p)
    (hf : p s.reading = .ok f) (hc : s.goesOn i = true) (ha : s.ample i = true) : issue i p s = .next (s.done i f) := by
  subst hp
  simp only [State.goesOn, Bool.and_eq_true, List.isEmpty_iff, Bool.not_eq_true'] at hc
  obtain ⟨⟨⟨hs, hw⟩, hi⟩, hsf⟩ := hc
  have hr : ∀ (o : Option Held), o = s.sp.heldNow → s.reading.cur = s.cur ∧ s.reading.shortFeeds i = [] ∧
      s.reading.sp.wait.isSome = true := by
    intro o ho
    cases o with
    | none =>
      have : s.reading = s := by simp only [State.reading, ← ho]
      rw [this]
      exact ⟨rfl, hsf, hw⟩
    | some h =>
      have : s.reading = (s.modG fun g => { g with vregs := h.vregs, oregs := h.oregs, kregs := h.kregs }).modSp fun x =>
          { x with fmt := h.fmt, rmode := h.rmode, l0 := h.l0, l1 := h.l1 } := by
        simp only [State.reading, ← ho]
      have hu : ∀ f : Group → Group, (s.modG f).sp = (f s.g).split s.cur.split := fun f => by
        show (s.modG f).g.split s.cur.split = _
        rw [modG_g]
      obtain ⟨x, hx⟩ := Option.isSome_iff_exists.mp hs
      rw [this]
      refine ⟨rfl, ?_, ?_⟩
      · rw [← hsf]; simp only [State.shortFeeds, State.modSp, modG_g]; rfl
      · rw [sp_modSp, hu]
        · exact hw
        · rw [hu]
          show s.sp.num = s.cur.split
          rw [show s.sp = x from split_of_split? hx]
          exact split?_num hx
  obtain ⟨h1, h2, h3⟩ := hr _ rfl
  have hpl : s.reading.plans (s.single i) = [(⟨s.cur.slot, i, planOf i⟩, [], .ok f)] := by
    have ha : s.reading.atMember s.cur.slot = s.reading := by rw [← h1]; exact atMember_self _
    simp only [State.single, State.plans, ha, h2, if_true, hf, h3, List.append_nil]
  exact congrArg Host.Outcome.next ((issueUnit_ok (single_free hi hsf) hpl rfl rfl (cutAt_single _ _)).trans
    (complete_fits (unitChange_single f hs) (ample_fits f ha) (ample_first ha)))

/-! ### Not completing -/

/-- Such a unit takes its stop. -/
theorem issue_stop {s : State} {i : Instr} {p : Plan} {e : Stop} (hp : planOf i = p) (hf : p s = .error e)
    (hc : s.clear i = true) : issue i p s = .next (s.stopped i e) := by
  have hpl := plans_single hp hf hc
  have h := clear_free hc
  have hm : s.single i = [⟨s.cur.slot, i, p⟩] := by rw [State.single, hp]
  rw [hm] at hpl h
  have hcut : cutUnit (s.single i) [(⟨s.cur.slot, i, p⟩, causesOf (.error e), .error e)] =
      ([(⟨s.cur.slot, i, p⟩, causesOf (.error e), .error e)], s.single i, none) := by
    simp only [cutUnit, cutAt_single]
  rw [hm] at hcut
  simp only [issue, State.issueUnit, h, hpl, hcut]
  cases e with
  | raise r => simp only [State.stopped, hm]; rfl
  | wait w => simp only [State.stopped, hm]; rfl
  | act f => simp only [State.stopped, hm]; rfl
  | _ => rfl

/-- A cause of the instruction's own checks is raised. -/
theorem issue_raises {s : State} {i : Instr} {p : Plan} {r : Report} (he : exec i s = issue i p s) (hp : planOf i = p)
    (hf : p s = .error (.raise r)) (hc : s.clear i = true) : Raises s i r := he.trans (issue_stop hp hf hc)

/-- A slot's instruction issues as a unit of its own. -/
theorem exec_slot (i : Instr) (h : i.isSlot = true) (t : State) :
    exec i t = .next (t.issueUnit [⟨t.cur.slot, i, planOf i⟩]) := by
  cases i <;> first | exact absurd h Bool.false_ne_true | rfl

end Sys2Proof.Machine
end

