-- ==== Sys2Proof/Laws/Memory.lean ====
section
/-! SUPPORT. Byte memories: reading after writing, and that every operation keeps the canonical form. -/

namespace Sys2Proof.Machine

open Sys2Proof

/-- Raising the bound is the only use that the canonical form makes of it. -/
theorem Memory.wfAbove_mono {lo hi : Option Nat} {m : List Host.Cell}
    (h : ∀ c ∈ m.head?, ∀ l, lo = some l → l < c.1) (w : Memory.wfAbove hi m = true) : Memory.wfAbove lo m = true := by
  cases m with
  | nil => rfl
  | cons c r =>
    simp only [Memory.wfAbove, Bool.and_eq_true] at w ⊢
    refine ⟨⟨?_, w.1.2⟩, w.2⟩
    cases lo with
    | none => rfl
    | some l => simpa using h c (by simp) l rfl

theorem Memory.wfAbove_none {lo : Option Nat} {m : List Host.Cell} (w : Memory.wfAbove lo m = true) :
    Memory.wf m = true :=
  Memory.wfAbove_mono (fun _ _ _ h => by cases h) w

/-- An address at or below the bound of a canonical memory reads as blank. -/
theorem Memory.get_below {l a : Nat} {m : List Host.Cell} (w : Memory.wfAbove (some l) m = true) (h : a ≤ l) :
    Memory.get m a = Memory.blank := by
  cases m with
  | nil => rfl
  | cons c r =>
    simp only [Memory.wfAbove, Bool.and_eq_true, decide_eq_true_eq] at w
    have := w.1.1
    rw [Memory.get, if_neg (by omega), if_pos (by omega)]

theorem Memory.set_wfAbove {lo : Option Nat} {m : List Host.Cell} {a : Nat} {b : Byte} (h : ∀ l, lo = some l → l < a)
    (w : Memory.wfAbove lo m = true) : Memory.wfAbove lo (Memory.set m a b) = true := by
  induction m generalizing lo with
  | nil =>
    simp only [Memory.set]
    split
    · rfl
    · rename_i hb
      cases lo with
      | none => simp [Memory.wfAbove, hb]
      | some l => simp [Memory.wfAbove, hb, h l rfl]
  | cons c r ih =>
    simp only [Memory.wfAbove, Bool.and_eq_true] at w
    obtain ⟨⟨w1, w2⟩, w3⟩ := w
    have hl : ∀ l, lo = some l → l < c.1 := by
      rintro l rfl
      simpa using w1
    have w1' : ∀ x : Nat, c.1 ≤ x → (match lo with
        | none => true
        | some l => decide (l < x)) = true := by
      intro x hx
      cases lo with
      | none => rfl
      | some l =>
        have := hl l rfl
        exact decide_eq_true (by omega)
    simp only [Memory.set]
    split
    · rename_i hc
      split
      · exact Memory.wfAbove_mono (hi := some c.1) (fun d hd l hlo => by
          cases r with
          | nil => cases hd
          | cons d' r' =>
            simp only [List.head?_cons, Option.mem_def, Option.some.injEq] at hd
            subst hd
            simp only [Memory.wfAbove, Bool.and_eq_true, decide_eq_true_eq] at w3
            have := hl l hlo
            have := w3.1.1
            omega) w3
      · rename_i hb
        subst hc
        simp only [Memory.wfAbove, Bool.and_eq_true]
        exact ⟨⟨w1, by simpa using hb⟩, w3⟩
    · split
      · split
        · simp only [Memory.wfAbove, Bool.and_eq_true]
          exact ⟨⟨w1, w2⟩, w3⟩
        · rename_i hca hb
          simp only [Memory.wfAbove, Bool.and_eq_true, decide_eq_true_eq]
          refine ⟨⟨?_, by simpa using hb⟩, ⟨hca, w2⟩, w3⟩
          cases lo with
          | none => rfl
          | some l => exact decide_eq_true (h l rfl)
      · simp only [Memory.wfAbove, Bool.and_eq_true]
        exact ⟨⟨w1, w2⟩, ih (fun l hl' => by cases hl'; omega) w3⟩

/-- A write of one byte keeps the canonical form. -/
theorem Memory.set_wf {m : List Host.Cell} (a : Nat) (b : Byte) (w : Memory.wf m = true) :
    Memory.wf (Memory.set m a b) = true :=
  Memory.set_wfAbove (fun _ h => by cases h) w

/-- Writes of bytes keep the canonical form. -/
theorem Memory.put_wf {m : List Host.Cell} (a : Nat) (bs : List Byte) (w : Memory.wf m = true) :
    Memory.wf (Memory.put m a bs) = true := by
  induction bs generalizing m a with
  | nil => exact w
  | cons b r ih => exact ih (a + 1) (Memory.set_wf a b w)

/-- Writes of numbers keep the canonical form. -/
theorem Memory.write_wf {m : List Host.Cell} (a n v : Nat) (w : Memory.wf m = true) :
    Memory.wf (Memory.write m a n v) = true :=
  Memory.put_wf a _ w

theorem Memory.get_set_above {lo : Option Nat} {m : List Host.Cell} (a x : Nat) (b : Byte)
    (w : Memory.wfAbove lo m = true) : Memory.get (Memory.set m a b) x = if x = a then b else Memory.get m x := by
  induction m generalizing lo with
  | nil =>
    simp only [Memory.set]
    split
    · rename_i hb
      subst hb
      split <;> rfl
    · simp only [Memory.get]
      by_cases hx : x = a
      · rw [if_pos hx.symm, if_pos hx]
      · rw [if_neg (Ne.symm hx), if_neg hx]
        split <;> rfl
  | cons c r ih =>
    simp only [Memory.wfAbove, Bool.and_eq_true] at w
    simp only [Memory.set]
    split
    · rename_i hc
      split
      · rename_i hb
        subst hb
        by_cases hx : x = a
        · subst hx
          rw [if_pos rfl]
          exact Memory.get_below w.2 (by omega)
        · rw [if_neg hx, Memory.get, if_neg (by omega)]
          split
          · exact Memory.get_below w.2 (by omega)
          · rfl
      · by_cases hx : x = a
        · subst hx; simp [Memory.get]
        · subst hc
          rw [if_neg hx, Memory.get, Memory.get, if_neg (Ne.symm hx), if_neg (Ne.symm hx)]
    · split
      · split
        · rename_i hca hb
          subst hb
          by_cases hx : x = a
          · subst hx
            rw [if_pos rfl, Memory.get, if_neg (by omega), if_pos (by omega)]
          · rw [if_neg hx]
        · by_cases hx : x = a
          · subst hx; simp [Memory.get]
          · rw [if_neg hx, Memory.get, if_neg (by simpa using Ne.symm hx)]
            split
            · rename_i hca _ _
              rw [Memory.get, if_neg (by omega), if_pos (by omega)]
            · rfl
      · simp only [Memory.get, ih w.2]
        by_cases hx : x = a
        · subst hx
          rw [if_pos rfl, if_neg (by omega), if_neg (by omega), if_pos rfl]
        · simp only [if_neg hx]

/-- Reading a byte after a write of one. -/
theorem Memory.get_set {m : List Host.Cell} (a x : Nat) (b : Byte) (w : Memory.wf m = true) :
    Memory.get (Memory.set m a b) x = if x = a then b else Memory.get m x :=
  Memory.get_set_above a x b w

/-- Reading a byte after a write of several: the byte written there, else the byte before. -/
theorem Memory.get_put {m : List Host.Cell} (a x : Nat) (bs : List Byte) (w : Memory.wf m = true) :
    Memory.get (Memory.put m a bs) x =
      if a ≤ x ∧ x < a + bs.length then bs.getD (x - a) 0 else Memory.get m x := by
  induction bs generalizing m a with
  | nil => rw [if_neg (by simp)]; rfl
  | cons b r ih =>
    rw [Memory.put, ih (a + 1) (Memory.set_wf a b w), Memory.get_set a x b w]
    simp only [List.length_cons]
    by_cases h1 : a + 1 ≤ x ∧ x < a + 1 + r.length
    · rw [if_pos h1, if_pos (by omega)]
      obtain ⟨k, hk⟩ : ∃ k, x - a = k + 1 := ⟨x - a - 1, by omega⟩
      rw [hk, List.getD_cons_succ]
      congr 1
      omega
    · rw [if_neg h1]
      by_cases hx : x = a
      · subst hx; simp
      · rw [if_neg hx, if_neg (by omega)]

theorem bytesOf_length (n v : Nat) : (bytesOf n v).length = n := by
  induction n generalizing v with
  | zero => rfl
  | succ n ih => simp [bytesOf, ih]

/-- A write of a number leaves every byte outside it alone. -/
theorem Memory.get_write {m : List Host.Cell} (a n v x : Nat) (w : Memory.wf m = true) (h : x < a ∨ a + n ≤ x) :
    Memory.get (Memory.write m a n v) x = Memory.get m x := by
  rw [Memory.write, Memory.get_put a x _ w, if_neg (by rw [bytesOf_length]; omega)]

end Sys2Proof.Machine
end

