-- ==== Sys2Proof/Laws/Order.lean ====
section
/-! SUPPORT. What the operations around an access change: the record of what went early, a core's next allocation, and
performing one part at its home. -/

namespace Sys2Proof.Machine

open Sys2Proof

/-- Noting an early event changes the record of early events alone. -/
theorem noteEarly_only (s : State) (g acc : Nat) (a : Access) (es : List Scoped) (ls : List (Loc × Nat)) (c : Bool) :
    s.noteEarly g acc a es ls c = { s with early := (s.noteEarly g acc a es ls c).early } := by
  unfold State.noteEarly
  split <;> rfl

/-- An event that nothing of a scope stands before leaves no record. -/
theorem noteEarly_nil (s : State) (g acc : Nat) (a : Access) (ls : List (Loc × Nat)) (c : Bool) :
    s.noteEarly g acc a [] ls c = s := rfl

theorem noteAtOnce_only (s : State) (g acc : Nat) (a : Access) (ls : List (Loc × Nat)) :
    s.noteAtOnce g acc a ls = { s with early := (s.noteAtOnce g acc a ls).early } := noteEarly_only ..

theorem noteOwn_only (s : State) (k : XKind) (t : Target) :
    s.noteOwn k t = { s with early := (s.noteOwn k t).early } := noteAtOnce_only ..

/-- A stalled allocation changes the cores' requesters alone. -/
theorem askFor_only (s : State) (g need : Nat) : s.askFor g need = { s with cores := (s.askFor g need).cores } := rfl

theorem served_only (t s : State) (g : Nat) : t.served s g = { t with cores := (t.served s g).cores } := by
  simp only [State.served]
  split
  · split <;> rfl
  · rfl

theorem awaitRoom_only (s : State) (g : Nat) (n : Option Nat) :
    s.awaitRoom g n = { s with cores := (s.awaitRoom g n).cores } := by
  cases n <;> rfl

/-- A write at a home puts the bytes, and touches replicas and reservations. -/
theorem writePhys_only (s : State) (pa : Nat) (bs : List Byte) (p : Bool) (who : Option Behind) :
    s.writePhys pa bs p who = { s with
      mem := Memory.put s.mem pa bs
      replicas := (s.writePhys pa bs p who).replicas
      fronts := (s.writePhys pa bs p who).fronts } := rfl

/-- A write to a region puts the bytes into that team's scratchpad. -/
theorem writeScr_scratch (s : State) (t o : Nat) (bs : List Byte) :
    ((s.writeScr t o bs).team t).scratch = Memory.put (s.team t).scratch o bs := by
  simp only [State.writeScr]
  split <;> simp only [State.setTeam, State.team, tbl_get_set_same]

/-- It changes no other team, and nothing but teams. -/
theorem writeScr_only (s : State) (t o : Nat) (bs : List Byte) :
    s.writeScr t o bs = { s with teams := (s.writeScr t o bs).teams } ∧
      ∀ u, u ≠ t → (s.writeScr t o bs).team u = s.team u := by
  simp only [State.writeScr]
  split <;> exact ⟨rfl, fun u h => tbl_get_set_other _ _ _ h⟩

theorem writeLoc_groups (s : State) (who : Behind) (l : Loc) (n v : Nat) (p : Bool) :
    (s.writeLoc who l n v p).groups = s.groups := by
  cases l with
  | scr t o =>
    have h := congrArg State.groups (writeScr_only s t o (bytesOf n v)).1
    exact h
  | _ => rfl

/-- Noting a read and placing a replica leave memory, regions and groups as they are. -/
theorem replicate_rest (s : State) (d : Nat) (p : Part) : (s.replicate d p).mem = s.mem ∧ (s.replicate d p).teams = s.teams ∧
    (s.replicate d p).groups = s.groups := by
  unfold State.replicate
  split
  · split
    · simp only []
      split <;> exact ⟨rfl, rfl, rfl⟩
    · exact ⟨rfl, rfl, rfl⟩
  · exact ⟨rfl, rfl, rfl⟩

/-- A load's part leaves memory and the regions as they are. -/
theorem performPart_load (s : State) (who : Behind) (p : Part) :
    (s.performPart who .load p).1.mem = s.mem ∧ (s.performPart who .load p).1.teams = s.teams := by
  simp only [State.performPart]
  cases s.regionGone p.loc with
  | true => exact ⟨rfl, rfl⟩
  | false => exact ⟨(replicate_rest ..).1, (replicate_rest ..).2.1⟩

/-- No part changes a group. -/
theorem performPart_groups (s : State) (who : Behind) (k : AccKind) (p : Part) :
    (s.performPart who k p).1.groups = s.groups := by
  simp only [State.performPart]
  cases s.regionGone p.loc with
  | true => rfl
  | false =>
    cases k with
    | load => exact (replicate_rest ..).2.2
    | pfet => rfl
    | _ => exact writeLoc_groups ..

end Sys2Proof.Machine
end

