-- ==== Sys2Proof/Laws/Writes.lean ====
section
/-! SUPPORT. What an instruction that writes one vector result does, and what the arrivals after an instruction leave
alone. -/

namespace Sys2Proof.Machine

open Sys2Proof

/-! ### Arrivals -/

/-- `b` is `a` but for its splits and their stack. -/
def Settled (a b : Group) : Prop :=
  b = { a with splits := b.splits, stack := b.stack, saves := b.saves, know := b.know }

theorem Settled.refl (a : Group) : Settled a a := rfl

theorem Settled.trans {a b c : Group} (h : Settled a b) (k : Settled b c) : Settled a c := by
  rw [Settled] at *
  rw [k, h]

theorem settle_settled (g : Group) (x : Split) (used : Bool) (b : Nat) : Settled g (g.settle x used b).1 := by
  simp only [Group.settle]
  split
  · exact Settled.refl g
  · split
    · exact Settled.refl g
    · split
      · exact Settled.refl g
      · split
        · exact rfl
        · split
          · exact rfl
          · split
            · split <;> (split <;> exact rfl)
            · exact Settled.refl g

theorem arrive_settled (g : Group) (x : Split) : Settled g (g.arrive x) := by
  simp only [Group.arrive]
  split
  · exact Settled.refl g
  · refine Settled.trans ?_ (settle_settled _ _ _ _)
    exact rfl

theorem arrivals_settled (n : Nat) (g : Group) : Settled g (Group.arrivals n g) := by
  induction n generalizing g with
  | zero => exact Settled.refl g
  | succ n ih =>
    simp only [Group.arrivals]
    split
    · exact Settled.refl g
    · exact (arrive_settled _ _).trans (ih _)

theorem arriveAll_settled (g : Group) : Settled g g.arriveAll := arrivals_settled 200 g

/-- With an empty stack nothing arrives. -/
theorem arriveAll_empty {g : Group} (h : g.stack = []) : g.arriveAll = g := by
  have ha : g.splits.find? (fun x => x.wait.isNone && x.trap.isNone && g.arrives x) = none := by
    rw [List.find?_eq_none]
    intro x _
    simp [Group.arrives, Group.innermost, h]
  show Group.arrivals (199 + 1) g = g
  rw [Group.arrivals, ha]

/-! ### Lanes -/

theorem lanes_get_ofFn (f : Nat → Word) {k : Nat} (h : k < 32) : (Lanes.ofFn f).get k = f k := by
  simp [Lanes.get, Lanes.ofFn, h]

theorem lanes_get_splat (x : Word) {k : Nat} (h : k < 32) : (Lanes.splat x).get k = x := lanes_get_ofFn _ h

theorem laneIn_full {k : Nat} (h : k < 32) : laneIn fullMask k = true := by
  simp only [laneIn, fullMask]
  interval_cases k <;> rfl

/-- Lane values agree with a shape (R167). -/
def ShapeOk (sh : Sh) (v : Lanes) : Prop :=
  match sh with
  | .uniform => ∀ k, k < 32 → v.get k = v.get 0
  | .affine b st => ∀ k, k < 32 → v.get k = b + BitVec.ofNat 32 k * st
  | .general => True

/-- What the lanes of a committed v register read as (R168, R174). -/
theorem commitReg_lane {m : Word} {sh : Sh} {new : Lanes} (old : VReg) (hs : m = fullMask → ShapeOk sh new) {k : Nat} (hk : k < 32) :
    (commitReg m sh new old).lanes.get k = if laneIn m k then new.get k else old.lanes.get k := by
  unfold commitReg
  split
  · rename_i hm
    subst hm
    have h := hs rfl
    rw [if_pos (laneIn_full hk)]
    cases sh with
    | uniform => exact (lanes_get_splat _ hk).trans (h k hk).symm
    | affine b st => exact (lanes_get_ofFn _ hk).trans (h k hk).symm
    | general => rfl
  · exact lanes_get_ofFn _ hk

/-! ### One vector result -/

theorem commit_rest (g : Group) (m : Word) (d : Dst) (sh : Sh) (new : Lanes) :
    (g.commit m d sh new).1 = { g with
      vregs := (g.commit m d sh new).1.vregs
      oregs := (g.commit m d sh new).1.oregs
      kregs := (g.commit m d sh new).1.kregs } := by
  cases d <;> rfl

theorem commit_v (g : Group) (m : Word) (d : Dst) (sh : Sh) (new : Lanes) (n : Nat) :
    (g.commit m d sh new).1.v n = if Dst.v n = d then commitReg m sh new (g.v n) else g.v n := by
  cases d with
  | v j =>
    simp only [Group.commit, Dst.v.injEq]
    show (g.vregs.set j _).get .never n = _
    rw [tbl_get_set]
    split
    · rename_i h; subst h; rfl
    · rfl
  | o j => rw [if_neg (by simp)]; rfl
  | k j => rw [if_neg (by simp)]; rfl

theorem commit_o (g : Group) (m : Word) (d : Dst) (sh : Sh) (new : Lanes) (n : Nat) :
    (g.commit m d sh new).1.o n = if Dst.o n = d then mergeLanes m new (g.o n) else g.o n := by
  cases d with
  | o j =>
    simp only [Group.commit, Dst.o.injEq]
    show (g.oregs.set j _).get Lanes.zero n = _
    rw [tbl_get_set]
    split
    · rename_i h; subst h; rfl
    · rfl
  | v j => rw [if_neg (by simp)]; rfl
  | k j => rw [if_neg (by simp)]; rfl

theorem commit_k (g : Group) (m : Word) (d : Dst) (sh : Sh) (new : Lanes) (n : Nat) :
    (g.commit m d sh new).1.k n = if Dst.k n = d then new.get (lowestLane m) else g.k n := by
  cases d with
  | k j =>
    simp only [Group.commit, Dst.k.injEq]
    show (g.kregs.set j _).get 0 n = _
    rw [tbl_get_set]
    split
    · rename_i h; subst h; rfl
    · rfl
  | v j => rw [if_neg (by simp)]; rfl
  | o j => rw [if_neg (by simp)]; rfl

/-- A change that looks at no slot is made at the member's slot as anywhere. -/
theorem changed_eq {s : State} {i : Instr} {f : State → State} (hs : (s.g.split? s.cur.split).isSome = true)
    (hf : ∀ t k, { f (t.atMember k) with cur := t.cur } = f t) : s.changed i f = f (s.prepared i) := by
  rw [State.changed, ← (around_prepared (i := i) hs).1.cur]
  exact hf _ _

/-- The executing group after a vector result, before the arrivals. -/
def Group.result (g : Group) (n : Nat) (d : Dst) (sh : Sh) (new : Lanes) : Group :=
  let r := g.commit (g.split n).mask d sh new
  r.1.putSplit { r.1.split n with l1 := (r.1.split n).l0, l0 := r.2 }

theorem writeVec_eq (s : State) (d : Dst) (sh : Sh) (new : Lanes) :
    s.writeVec d sh new =
      (s.setGroup s.cur.group (s.g.commit s.mask d sh new).1).setGroup s.cur.group
        (s.g.result s.cur.split d sh new) := by
  simp only [State.writeVec, State.modSp]
  rw [State.modG, State.modG]
  have hg : (s.setGroup s.cur.group (s.g.commit s.mask d sh new).1).g = (s.g.commit s.mask d sh new).1 :=
    modG_g s fun _ => (s.g.commit s.mask d sh new).1
  rw [State.sp, hg]
  rfl

theorem writeVec_in (s : State) (d : Dst) (sh : Sh) (new : Lanes) :
    (s.writeVec d sh new).group s.cur.group = s.g.result s.cur.split d sh new := by
  rw [writeVec_eq, State.group_setGroup, if_pos rfl]

theorem writeVec_out (s : State) (d : Dst) (sh : Sh) (new : Lanes) {n : Nat} (h : n ≠ s.cur.group) :
    (s.writeVec d sh new).group n = s.group n := by
  rw [writeVec_eq, State.group_setGroup, if_neg h, State.group_setGroup, if_neg h]

theorem writeVec_only (s : State) (d : Dst) (sh : Sh) (new : Lanes) : Only s (s.writeVec d sh new) := by
  rw [writeVec_eq]; rfl

theorem done_group (s : State) (i : Instr) (f : State → State) (hc : (s.changed i f).cur = s.cur) :
    ∃ y, s.in_ (s.done i f) = { ({ s.in_ (s.changed i f) with yielded := y } : Group).arriveAll with
      seq := (s.in_ (s.changed i f)).seq + 1, stallBuf := none } := by
  have hg : (s.changed i f).g = s.in_ (s.changed i f) := by rw [State.g, hc]; rfl
  have hr : ∀ u : State, u.cur = s.cur →
      s.in_ u.retire = { (s.in_ u).arriveAll with seq := (s.in_ u).seq + 1, stallBuf := none } := by
    intro u hu
    rw [State.in_, State.retire, State.modG, hu, State.group_setGroup, if_pos rfl, State.g, hu]
    rfl
  rw [State.done, State.yieldOut]
  split
  · have hy : s.in_ ((s.changed i f).modG fun g => { g with yielded := true }) =
        { s.in_ (s.changed i f) with yielded := true } := by
      rw [State.in_, State.modG, hc, State.group_setGroup, if_pos rfl, hg]
    exact ⟨true, (hr ((s.changed i f).modG fun g => { g with yielded := true }) hc).trans (by rw [hy])⟩
  · exact ⟨(s.in_ (s.changed i f)).yielded, hr _ hc⟩

theorem done_other (s : State) (i : Instr) (f : State → State) (hc : (s.changed i f).cur = s.cur) {n : Nat}
    (h : n ≠ s.cur.group) : (s.done i f).group n = (s.changed i f).group n := by
  have hr : ∀ u : State, u.cur = s.cur → u.retire.group n = u.group n := by
    intro u hu
    rw [State.retire, State.modG, State.group_setGroup, if_neg (by rw [hu]; exact h)]
  rw [State.done, State.yieldOut]
  split
  · refine (hr ((s.changed i f).modG fun g => { g with yielded := true }) hc).trans ?_
    rw [State.modG, State.group_setGroup, if_neg (by rw [hc]; exact h)]
  · exact hr _ hc

theorem done_only (s : State) (i : Instr) (f : State → State) (h : Only s (s.changed i f)) : Only s (s.done i f) := by
  refine h.trans ?_
  rw [State.done, State.yieldOut]
  split <;> exact rfl

/-! ### A result and its frame -/

/-- From `a` to `b` the result of split `n` is written and FLAGS take `fl`; the split's place and modes stay. -/
structure Result (m : Word) (n : Nat) (d : Dst) (sh : Sh) (new : Lanes) (fl : Word) (a b : Group) : Prop where
  rest : b = { a with vregs := b.vregs, oregs := b.oregs, kregs := b.kregs, splits := b.splits, flags := b.flags }
  v : ∀ k, b.v k = if Dst.v k = d then commitReg m sh new (a.v k) else a.v k
  o : ∀ k, b.o k = if Dst.o k = d then mergeLanes m new (a.o k) else a.o k
  k : ∀ j, b.k j = if Dst.k j = d then new.get (lowestLane m) else a.k j
  flags : b.flags = a.flags ||| fl
  others : ∀ j, j ≠ n → b.split? j = a.split? j
  me : ∀ x, a.split? n = some x → ∃ y, b.split? n = some y ∧ y.mask = x.mask ∧ y.fmt = x.fmt ∧ y.rmode = x.rmode ∧
    y.pc = x.pc

theorem commit_split? (g : Group) (m : Word) (d : Dst) (sh : Sh) (new : Lanes) (n : Nat) :
    (g.commit m d sh new).1.split? n = g.split? n := by
  cases d <;> rfl

theorem result_result {g : Group} {n : Nat} (d : Dst) (sh : Sh) (new : Lanes) (hs : (g.split? n).isSome = true) :
    Result (g.split n).mask n d sh new 0 g (g.result n d sh new) := by
  obtain ⟨x, hx⟩ := Option.isSome_iff_exists.mp hs
  have hn := split?_num hx
  have hx' : (g.commit (g.split n).mask d sh new).1.split? n = some x := by rw [commit_split?]; exact hx
  have hr : (g.commit (g.split n).mask d sh new).1.split n = x := split_of_split? hx'
  refine ⟨?_, commit_v _ _ _ _ _, commit_o _ _ _ _ _, commit_k _ _ _ _ _, ?_, fun j hj => ?_, fun y hy => ?_⟩
  · rw [Group.result, Group.putSplit, commit_rest]
  · rw [word_or_zero, Group.result, Group.putSplit, commit_rest]
  · simp only [Group.result]
    rw [split?_putSplit, if_neg (by rw [hr, hn]; exact Ne.symm hj), commit_split?]
  · rw [hx] at hy
    cases hy
    refine ⟨{ x with l1 := x.l0, l0 := (g.commit (g.split n).mask d sh new).2 }, ?_, rfl, rfl, rfl, rfl⟩
    simp only [Group.result, hr]
    rw [split?_putSplit, if_pos hn]

/-- A change that writes one vector result under a mask. -/
structure Writes (f : State → State) (m : Word) (d : Dst) (sh : Sh) (new : Lanes) (fl : Word) : Prop where
  slot : ∀ t k, { f (t.atMember k) with cur := t.cur } = f t
  only : ∀ t, Only t (f t)
  out : ∀ t n, n ≠ t.cur.group → (f t).group n = t.group n
  at_ : ∀ t, t.mask = m → (t.g.split? t.cur.split).isSome = true →
    Result m t.cur.split d sh new fl t.g ((f t).group t.cur.group)

theorem writes_vec (m : Word) (d : Dst) (sh : Sh) (new : Lanes) : Writes (fun t => t.writeVec d sh new) m d sh new 0 :=
  ⟨fun _ _ => rfl, fun t => writeVec_only t d sh new, fun t _ h => writeVec_out t d sh new h, fun t hm h => by
    rw [writeVec_in, ← hm]
    exact result_result d sh new h⟩

theorem writes_vec_flags (m : Word) (d : Dst) (sh : Sh) (new : Lanes) (fl : Word) :
    Writes (fun t => (t.writeVec d sh new).orFlags fl) m d sh new fl := by
  have hcur : ∀ t : State, (t.writeVec d sh new).cur = t.cur := fun t => (writeVec_only t d sh new).cur
  refine ⟨fun t k => ?_, fun t => (writeVec_only t d sh new).trans (Only.setGroup _ _ _), fun t n h => ?_, fun t hm h => ?_⟩
  · show { ((t.atMember k).writeVec d sh new).modG fun g => { g with flags := g.flags ||| fl } with cur := t.cur } = _
    rw [modG_cur _ _ _ (by rw [hcur]; rfl), (writes_vec m d sh new).slot]
    rfl
  · show ((t.writeVec d sh new).modG fun g => { g with flags := g.flags ||| fl }).group n = _
    rw [State.modG, State.group_setGroup, if_neg (by rw [hcur]; exact h), writeVec_out t d sh new h]
  · have hr := result_result d sh new h
    have hg : ((t.writeVec d sh new).orFlags fl).group t.cur.group =
        { t.g.result t.cur.split d sh new with flags := (t.g.result t.cur.split d sh new).flags ||| fl } := by
      show ((t.writeVec d sh new).modG fun g => { g with flags := g.flags ||| fl }).group t.cur.group = _
      rw [State.modG, State.group_setGroup, if_pos (by rw [hcur]), State.g, hcur, writeVec_in]
    rw [hg, ← hm]
    refine ⟨?_, hr.v, hr.o, hr.k, ?_, hr.others, hr.me⟩
    · rw [hr.rest]
    · show (t.g.result t.cur.split d sh new).flags ||| fl = _
      rw [hr.flags, word_or_zero]

/-- The lanes that a uniform or general result leaves in a destination: a uniform result under a full mask is one
value, lane 0's, in a v register (R168, R174). -/
def settledLanes (m : Word) (d : Dst) (sh : Sh) (new : Lanes) : Lanes :=
  Lanes.ofFn fun k => new.get (if sh = .uniform ∧ m = fullMask ∧ d.isV = true then 0 else k)

theorem lanes_ext {a b : Lanes} (h : ∀ k, k < 32 → a.get k = b.get k) : a = b := by
  obtain ⟨u, hu⟩ := a
  obtain ⟨v, hv⟩ := b
  simp only [Lanes.mk.injEq]
  refine List.ext_getElem (by rw [hu, hv]) fun k h1 h2 => ?_
  have := h k (by omega)
  simpa [Lanes.get, List.getD_eq_getElem?_getD, h1, h2] using this

theorem settledLanes_get (m : Word) (d : Dst) (sh : Sh) (new : Lanes) {k : Nat} (h : k < 32) :
    (settledLanes m d sh new).get k = new.get (if sh = .uniform ∧ m = fullMask ∧ d.isV = true then 0 else k) :=
  lanes_get_ofFn _ h

theorem settledLanes_same {m : Word} {d : Dst} {sh : Sh} {new : Lanes}
    (h : ¬(sh = .uniform ∧ m = fullMask ∧ d.isV = true)) : settledLanes m d sh new = new :=
  lanes_ext fun k hk => by rw [settledLanes_get _ _ _ _ hk, if_neg h]

theorem settled_shape (m : Word) (d : Dst) {sh : Sh} (new : Lanes) (ha : sh = .uniform ∨ sh = .general)
    (hm : m = fullMask) (hd : d.isV = true) : ShapeOk sh (settledLanes m d sh new) := by
  rcases ha with rfl | rfl
  · intro k hk
    rw [settledLanes_get _ _ _ _ hk, settledLanes_get _ _ _ _ (by decide), if_pos ⟨rfl, hm, hd⟩, if_pos ⟨rfl, hm, hd⟩]
  · trivial

theorem settled_writes {f : State → State} {m : Word} {d : Dst} {sh : Sh} {new : Lanes} {fl : Word}
    (w : Writes f m d sh new fl) : Writes f m d sh (settledLanes m d sh new) fl := by
  refine ⟨w.slot, w.only, w.out, fun t hm hs => ?_⟩
  have r := w.at_ t hm hs
  by_cases h : sh = .uniform ∧ m = fullMask ∧ d.isV = true
  · obtain ⟨rfl, rfl, hd⟩ := h
    cases d with
    | v n =>
      have e : (settledLanes fullMask (.v n) .uniform new).get 0 = new.get 0 := by
        rw [settledLanes_get _ _ _ _ (by decide), if_pos ⟨rfl, rfl, hd⟩]
      refine ⟨r.rest, fun k => ?_, fun k => ?_, fun k => ?_, r.flags, r.others, r.me⟩
      · rw [r.v]; simp only [commitReg, if_true, e]
      · rw [r.o, if_neg (by simp), if_neg (by simp)]
      · rw [r.k, if_neg (by simp), if_neg (by simp)]
    | o n => cases hd
    | k n => cases hd
  · rw [settledLanes_same h]; exact r

/-- What an instruction whose change writes one vector result does and what it leaves alone. -/
theorem writes_kept {s : State} {i : Instr} {f : State → State} {d : Dst} {sh : Sh} {new : Lanes} {fl : Word}
    {F : Nat → Word} (w : Writes f s.mask d sh new fl) (hd : i.dests = [d])
    (hsh : s.mask = fullMask → d.isV = true → ShapeOk sh new) (hF : ∀ k, k < 32 → F k = new.get k) (hs : (s.g.split? s.cur.split).isSome = true) :
    Wrote s (s.done i f) d F ∧ Kept s (s.done i f) i fl := by
  obtain ⟨hO, hV, hM⟩ := around_prepared (i := i) hs
  have hcur := hO.cur
  obtain ⟨x, hx⟩ := Option.isSome_iff_exists.mp hs
  obtain ⟨y, hy, hmask, hfmt, hrm, -, -⟩ := hM.me x hx
  have hsp : s.sp = x := split_of_split? hx
  have hPg : (s.prepared i).g = s.in_ (s.prepared i) := by rw [State.g, hcur]; rfl
  have hPs : ((s.prepared i).g.split? (s.prepared i).cur.split).isSome = true := by
    rw [hPg, hcur, hy]; rfl
  have hm : (s.prepared i).mask = s.mask := by
    rw [State.mask, State.sp, hPg, hcur, split_of_split? hy, hmask, State.mask, hsp]
  have hch : s.changed i f = f (s.prepared i) := changed_eq hs w.slot
  have hcc : (s.changed i f).cur = s.cur := by rw [hch, (w.only _).cur, hcur]
  have hR : Result s.mask s.cur.split d sh new fl (s.in_ (s.prepared i)) (s.in_ (s.changed i f)) := by
    have h := w.at_ _ hm hPs
    rw [hPg, hcur, ← hch] at h
    exact h
  obtain ⟨z, hz⟩ := done_group s i f hcc
  have hS := arriveAll_settled { s.in_ (s.changed i f) with yielded := z }
  have hv : ∀ k, (s.in_ (s.done i f)).v k = (s.in_ (s.changed i f)).v k := fun k => by
    rw [hz, hS]; rfl
  have ho : ∀ k, (s.in_ (s.done i f)).o k = (s.in_ (s.changed i f)).o k := fun k => by
    rw [hz, hS]; rfl
  have hk : ∀ k, (s.in_ (s.done i f)).k k = (s.in_ (s.changed i f)).k k := fun k => by
    rw [hz, hS]; rfl
  have hlow : lowestLane s.mask < 32 := by
    rw [lowestLane]
    cases h : (List.range 32).find? fun i => laneIn s.mask i with
    | none => decide
    | some j => exact List.mem_range.mp (List.mem_of_find?_eq_some h)
  have hvl : ∀ n k, Dst.v n ∉ i.dests ∨ Dst.v n ∈ i.dests →
      Dst.v n ∈ i.dests → ((s.in_ (s.prepared i)).v n).lanes.get k = (s.g.v n).lanes.get k := by
    intro n k _ hn
    rcases hM.v n with h | ⟨vals, q, r, h1, h2⟩ | ⟨⟨_, h1⟩, _⟩
    · rw [h]
    · rw [h1, h2]; rfl
    · exact absurd hn h1
  refine ⟨?_, ⟨done_only s i f ?_, fun n hn => ?_⟩, ?_, ⟨fun n hn => ?_, fun n hn => ?_, fun n hn => ?_, fun n => ?_⟩,
    ?_, fun hst => ?_, ?_⟩
  · cases d with
    | v n =>
      intro k hk32
      show ((s.in_ (s.done i f)).v n).lanes.get k = _
      rw [hv, hR.v, if_pos rfl, commitReg_lane _ (fun h => hsh h rfl) hk32, hF k hk32]
      rw [hvl n k (.inr (by rw [hd]; simp)) (by rw [hd]; simp)]
      rfl
    | o n =>
      intro k hk32
      show ((s.in_ (s.done i f)).o n).get k = _
      rw [ho, hR.o, if_pos rfl, mergeLanes, lanes_get_ofFn _ hk32, hF k hk32]
      have : (s.in_ (s.prepared i)).o n = s.g.o n := by rw [hM.rest]; rfl
      rw [this]
      rfl
    | k n =>
      show (s.in_ (s.done i f)).k n = _
      rw [hk, hR.k, if_pos rfl, hF _ hlow]
  · rw [hch]; exact hO.trans (w.only _)
  · have h1 : (s.done i f).group n = (s.prepared i).group n := by
      rw [done_other s i f hcc hn, hch, w.out _ _ (by rw [hcur]; exact hn)]
    rw [h1]
    exact hV n hn
  · rw [GroupKept, hz, hS, hR.rest, hM.rest]
  · rw [hd, List.mem_singleton] at hn
    rw [hv, hR.v, if_neg hn]
    rcases hM.v n with h | ⟨vals, q, r, h1, h2⟩ | ⟨⟨h1, _⟩, h2⟩
    · exact .inl (by rw [h])
    · exact .inl (by rw [h1, h2]; rfl)
    · exact .inr ⟨h1, h2⟩
  · rw [hd, List.mem_singleton] at hn
    rw [ho, hR.o, if_neg hn, hM.rest]
    rfl
  · rw [hd, List.mem_singleton] at hn
    rw [hk, hR.k, if_neg hn, hM.rest]
    rfl
  · rw [← hM.feeds n, hz, hS, hR.rest]
    rfl
  · have : (s.in_ (s.done i f)).gstat = (s.in_ (s.prepared i)).gstat := by rw [hz, hS, hR.rest]
    rw [GstatKept, this]
    exact hM.gst
  · have hPst : (s.in_ (s.prepared i)).stack = [] := by rw [hM.rest]; exact hst
    have hRst : ({ s.in_ (s.changed i f) with yielded := z } : Group).stack = [] := by
      show (s.in_ (s.changed i f)).stack = []
      rw [hR.rest]; exact hPst
    rw [arriveAll_empty hRst] at hz
    obtain ⟨u, hu, hum, huf, hur, hup⟩ := hR.me y hy
    have hsplit : ∀ n, (s.in_ (s.done i f)).split? n = (s.in_ (s.changed i f)).split? n := fun n => by rw [hz]; rfl
    have hus : (s.in_ (s.done i f)).split s.cur.split = u := split_of_split? (by rw [hsplit, hu])
    have hpc := prepared_pc (i := i) hs
    rw [split_of_split? hy] at hpc
    rw [hus, hsp]
    refine ⟨by rw [hz]; exact hRst, ?_, hup.trans hpc, hum.trans hmask, huf.trans hfmt, hur.trans hrm, fun n hn => ?_⟩
    · rw [hz]
      show (s.in_ (s.changed i f)).saves = _
      rw [hR.rest, hM.rest]
    · rw [hsplit, hR.others n hn, hM.others n hn]
  · have : (s.in_ (s.done i f)).flags = (s.in_ (s.changed i f)).flags := by rw [hz, hS]
    rw [this, hR.flags, hM.rest]

end Sys2Proof.Machine
end

