-- ==== Sys2Proof/Laws/Shapes.lean ====
section
/-! SUPPORT. Shapes agree with lane values: of operands as read (R167, R170) and of results (R168); and the lemma by
which an instruction with one vector result computes it. -/

namespace Sys2Proof.Machine

open Sys2Proof

/-- A value with a shape that agrees with its lanes. -/
def Opnd.Ok (x : Opnd) : Prop := ShapeOk x.sh x.vals

theorem splat_ok (x : Word) : ShapeOk .uniform (Lanes.splat x) := fun k hk => by
  rw [lanes_get_splat x hk, lanes_get_splat x (by decide)]

theorem affine_ok (b s : Word) : ShapeOk (.affine b s) (VReg.affine b s).lanes := fun _ hk => lanes_get_ofFn _ hk

theorem vreg_opnd_ok (r : VReg) : r.opnd.Ok := by
  cases r with
  | never => exact splat_ok 0
  | released => exact splat_ok 0
  | uniform u => exact splat_ok u
  | affine b s => exact affine_ok b s
  | general v q => exact trivial

/-- An operand's shape agrees with its lanes. -/
theorem opnd_ok (s : State) (sp : Spec) (skip : Nat) : (s.opnd sp skip).Ok := by
  cases sp with
  | v n => exact vreg_opnd_ok _
  | o n => exact trivial
  | l n => exact trivial
  | f n => exact trivial
  | k n => exact splat_ok _
  | p n => exact splat_ok _
  | const n => exact splat_ok _
  | special x =>
    cases x with
    | lane => exact affine_ok 0 1
    | _ => exact splat_ok _

theorem rd_ok (s : State) (a : Src) : (s.rd a).Ok := opnd_ok _ _ _
theorem rd2_ok (s : State) (a b : Src) : (s.rd2 a b).Ok := opnd_ok _ _ _
theorem rdc_ok (s : State) (c : CSrc) : (s.rdc c).Ok := opnd_ok _ _ _

theorem uniform_get {x : Opnd} (h : x.Ok) (hu : x.sh = .uniform) {k : Nat} (hk : k < 32) : x.vals.get k = x.vals.get 0 := by
  rw [Opnd.Ok, hu] at h
  exact h k hk

/-! ### Result shapes (R168) -/

theorem shape1_ok {x : Opnd} (hx : x.Ok) (f : Word → Word) : ShapeOk (shape1 x) (map1 f x) := by
  simp only [shape1, shapeOf, List.all_cons, List.all_nil, Bool.and_true]
  split
  · rename_i h
    simp only [decide_eq_true_eq] at h
    intro k hk
    simp only [map1]
    rw [lanes_get_ofFn _ hk, lanes_get_ofFn _ (by decide : 0 < 32), uniform_get hx h hk]
  · trivial

theorem shape2_ok {x y : Opnd} (hx : x.Ok) (hy : y.Ok) (f : Word → Word → Word) : ShapeOk (shape2 x y) (map2 f x y) := by
  simp only [shape2, shapeOf, List.all_cons, List.all_nil, Bool.and_true]
  split
  · rename_i h
    simp only [Bool.and_eq_true, decide_eq_true_eq] at h
    intro k hk
    simp only [map2]
    rw [lanes_get_ofFn _ hk, lanes_get_ofFn _ (by decide : 0 < 32), uniform_get hx h.1 hk, uniform_get hy h.2 hk]
  · trivial

theorem shape3_ok {x y z : Opnd} (hx : x.Ok) (hy : y.Ok) (hz : z.Ok) (f : Word → Word → Word → Word) :
    ShapeOk (shapeOf [x, y, z]) (map3 f x y z) := by
  simp only [shapeOf, List.all_cons, List.all_nil, Bool.and_true]
  split
  · rename_i h
    simp only [Bool.and_eq_true, decide_eq_true_eq] at h
    intro k hk
    simp only [map3]
    rw [lanes_get_ofFn _ hk, lanes_get_ofFn _ (by decide : 0 < 32), uniform_get hx h.1 hk, uniform_get hy h.2.1 hk,
      uniform_get hz h.2.2 hk]
  · trivial

/-- What a shape says of a lane. -/
theorem sh_get {x : Opnd} (h : x.Ok) {k : Nat} (hk : k < 32) :
    match x.sh with
    | .uniform => x.vals.get k = x.vals.get 0
    | .affine b s => x.vals.get k = b + BitVec.ofNat 32 k * s
    | .general => True := by
  rw [Opnd.Ok] at h
  cases hs : x.sh with
  | uniform => rw [hs] at h; exact h k hk
  | affine b s => rw [hs] at h; exact h k hk
  | general => trivial

theorem shapeAdd_ok {x y : Opnd} (hx : x.Ok) (hy : y.Ok) : ShapeOk (shapeAdd x y) (map2 (· + ·) x y) := by
  have h : ∀ k, k < 32 → (map2 (· + ·) x y).get k = x.vals.get k + y.vals.get k := fun k hk => lanes_get_ofFn _ hk
  have a := fun k hk => sh_get (k := k) hx hk
  have b := fun k hk => sh_get (k := k) hy hk
  simp only [shapeAdd]
  cases hxs : x.sh <;> cases hys : y.sh <;> simp only [hxs, hys] at a b ⊢
  case uniform.uniform => intro k hk; rw [h k hk, h 0 (by decide), a k hk, b k hk]
  case uniform.affine => intro k hk; rw [h k hk, a k hk, b k hk, Opnd.u]; ring
  case affine.uniform => intro k hk; rw [h k hk, a k hk, b k hk, Opnd.u]; ring
  case affine.affine => intro k hk; rw [h k hk, a k hk, b k hk]; ring
  all_goals trivial

theorem shapeSub_ok {x y : Opnd} (hx : x.Ok) (hy : y.Ok) : ShapeOk (shapeSub x y) (map2 (· - ·) x y) := by
  have h : ∀ k, k < 32 → (map2 (· - ·) x y).get k = x.vals.get k - y.vals.get k := fun k hk => lanes_get_ofFn _ hk
  have a := fun k hk => sh_get (k := k) hx hk
  have b := fun k hk => sh_get (k := k) hy hk
  simp only [shapeSub]
  cases hxs : x.sh <;> cases hys : y.sh <;> simp only [hxs, hys] at a b ⊢
  case uniform.uniform => intro k hk; rw [h k hk, h 0 (by decide), a k hk, b k hk]
  case uniform.affine => intro k hk; rw [h k hk, a k hk, b k hk, Opnd.u]; ring
  case affine.uniform => intro k hk; rw [h k hk, a k hk, b k hk, Opnd.u]; ring
  case affine.affine => intro k hk; rw [h k hk, a k hk, b k hk]; ring
  all_goals trivial

theorem shapeMul_ok {x y : Opnd} (hx : x.Ok) (hy : y.Ok) : ShapeOk (shapeMul x y) (map2 (· * ·) x y) := by
  have h : ∀ k, k < 32 → (map2 (· * ·) x y).get k = x.vals.get k * y.vals.get k := fun k hk => lanes_get_ofFn _ hk
  have a := fun k hk => sh_get (k := k) hx hk
  have b := fun k hk => sh_get (k := k) hy hk
  simp only [shapeMul]
  cases hxs : x.sh <;> cases hys : y.sh <;> simp only [hxs, hys] at a b ⊢
  case uniform.uniform => intro k hk; rw [h k hk, h 0 (by decide), a k hk, b k hk]
  case uniform.affine => intro k hk; rw [h k hk, a k hk, b k hk, Opnd.u]; ring
  case affine.uniform => intro k hk; rw [h k hk, a k hk, b k hk, Opnd.u]; ring
  all_goals trivial

theorem word_shiftLeft (a : Word) (n : Nat) : a <<< n = a * BitVec.ofNat 32 (2 ^ n) := by
  apply BitVec.eq_of_toNat_eq
  rw [BitVec.toNat_shiftLeft, Nat.shiftLeft_eq, BitVec.toNat_mul, BitVec.toNat_ofNat, Nat.mul_mod_mod]

theorem shapeShl_ok {x y : Opnd} (hx : x.Ok) (hy : y.Ok) : ShapeOk (shapeShl x y) (map2 shlWord x y) := by
  have h : ∀ k, k < 32 → (map2 shlWord x y).get k = shlWord (x.vals.get k) (y.vals.get k) := fun k hk => lanes_get_ofFn _ hk
  have a := fun k hk => sh_get (k := k) hx hk
  have b := fun k hk => sh_get (k := k) hy hk
  simp only [shapeShl]
  cases hxs : x.sh <;> cases hys : y.sh <;> simp only [hxs, hys] at a b ⊢
  case uniform.uniform => intro k hk; rw [h k hk, h 0 (by decide), a k hk, b k hk]
  case affine.uniform =>
    intro k hk
    rw [h k hk, a k hk, b k hk, Opnd.u]
    simp only [shlWord]
    split
    · simp only [word_shiftLeft]; ring
    · simp
  all_goals trivial

theorem shapeNeg_ok {x : Opnd} (hx : x.Ok) : ShapeOk (shapeNeg x) (map1 (fun w => -w) x) := by
  have h : ∀ k, k < 32 → (map1 (fun w => -w) x).get k = -(x.vals.get k) := fun k hk => lanes_get_ofFn _ hk
  have a := fun k hk => sh_get (k := k) hx hk
  simp only [shapeNeg]
  cases hxs : x.sh <;> simp only [hxs] at a ⊢
  case uniform => intro k hk; rw [h k hk, h 0 (by decide), a k hk]
  case affine => intro k hk; rw [h k hk, a k hk]; ring
  case general => trivial

theorem mov_ok {x : Opnd} (hx : x.Ok) : ShapeOk x.sh (map1 (fun w => w) x) := by
  have h : ∀ k, k < 32 → (map1 (fun w => w) x).get k = x.vals.get k := fun k hk => lanes_get_ofFn _ hk
  have a := fun k hk => sh_get (k := k) hx hk
  cases hxs : x.sh <;> simp only [hxs] at a
  case uniform => intro k hk; rw [h k hk, h 0 (by decide), a k hk]
  case affine => intro k hk; rw [h k hk, a k hk]
  case general => trivial

/-! ### Results of one vector -/

/-- Rules 3 and 10 give a uniform or a general result. -/
theorem shapeOf_cases (xs : List Opnd) : shapeOf xs = .uniform ∨ shapeOf xs = .general := by
  rw [shapeOf]; split <;> simp

/-- A vector result is put where the destination admits it (R175). -/
theorem putVec_ok {s : State} {d : Dst} {sh : Sh} {v : Lanes} (h : d.isK = true → sh = .uniform) :
    s.putVec d sh v = .ok fun t => t.writeVec d sh v := by
  rw [State.putVec, if_neg]
  simp only [Bool.and_eq_true, decide_eq_true_eq, not_and, not_not]
  exact h

theorem putFl_ok {s : State} {d : Dst} {sh : Sh} {v : Lanes} {fl : Word} (h : d.isK = true → sh = .uniform) :
    s.putFl d sh v fl = .ok fun t => (t.writeVec d sh v).orFlags fl := by
  rw [State.putFl, if_neg]
  simp only [Bool.and_eq_true, decide_eq_true_eq, not_and, not_not]
  exact h

/-- A k destination takes no other than a uniform result (R175). -/
theorem putVec_k {s : State} {d : Dst} {sh : Sh} {v : Lanes} (hd : d.isK = true) (hs : sh ≠ .uniform) :
    s.putVec d sh v = s.stop .shapeMismatch := by
  rw [State.putVec, if_pos (by simp [hd, hs])]

/-- An instruction whose plan puts one vector result computes it. -/
theorem computes {s : State} {i : Instr} {p : Plan} {f : State → State} {d : Dst} {sh : Sh} {new : Lanes} {fl : Word}
    {F : Nat → Word} (he : exec i s = issue i p s) (hp : planOf i = p) (hf : p s = .ok f) (w : Writes f s.mask d sh new fl)
    (hd : i.dests = [d]) (hsh : s.mask = fullMask → d.isV = true → ShapeOk sh new)
    (hF : ∀ k, k < 32 → F k = new.get k) : Computes s i d F fl := by
  intro hc ha
  refine ⟨s.done i f, he.trans (issue_done hp hf hc ha), writes_kept w hd hsh hF ?_⟩
  simp only [State.clear, Bool.and_eq_true] at hc
  exact hc.1.1.1.1

theorem computes_vec {s : State} {i : Instr} {p : Plan} {d : Dst} {sh : Sh} {new : Lanes} {F : Nat → Word}
    (he : exec i s = issue i p s) (hp : planOf i = p) (hf : p s = s.putVec d sh new)
    (hk : d.isK = true → sh = .uniform) (hd : i.dests = [d]) (hsh : ShapeOk sh new)
    (hF : ∀ k, k < 32 → F k = new.get k) : Computes s i d F 0 :=
  computes he hp (hf.trans (putVec_ok hk)) (writes_vec _ d sh new) hd (fun _ _ => hsh) hF

/-- The same of a result that is uniform or general by rules 3 and 10, with its flags: a uniform one is lane 0's. -/
theorem computes_fl {s : State} {i : Instr} {p : Plan} {d : Dst} {xs : List Opnd} {new : Lanes} {fl : Word}
    {F : Nat → Word} (he : exec i s = issue i p s) (hp : planOf i = p) (hf : p s = s.putFl d (shapeOf xs) new fl)
    (hk : d.isK = true → shapeOf xs = .uniform) (hd : i.dests = [d])
    (hF : ∀ k, k < 32 → F k = new.get (s.resultLane d xs k)) : Computes s i d F fl :=
  computes he hp (hf.trans (putFl_ok hk)) (settled_writes (writes_vec_flags _ d _ new fl)) hd
    (fun hm hv => settled_shape _ _ _ (shapeOf_cases xs) hm hv) fun k h =>
      (hF k h).trans (settledLanes_get _ _ _ _ h).symm

/-- The same without flags. -/
theorem computes_u {s : State} {i : Instr} {p : Plan} {d : Dst} {xs : List Opnd} {new : Lanes} {F : Nat → Word}
    (he : exec i s = issue i p s) (hp : planOf i = p) (hf : p s = s.putVec d (shapeOf xs) new)
    (hk : d.isK = true → shapeOf xs = .uniform) (hd : i.dests = [d])
    (hF : ∀ k, k < 32 → F k = new.get (s.resultLane d xs k)) : Computes s i d F 0 :=
  computes he hp (hf.trans (putVec_ok hk)) (settled_writes (writes_vec _ d _ new)) hd
    (fun hm hv => settled_shape _ _ _ (shapeOf_cases xs) hm hv) fun k h =>
      (hF k h).trans (settledLanes_get _ _ _ _ h).symm

/-- The lane that a destination lane takes is one of the 32. -/
theorem resultLane_lt (s : State) (d : Dst) (xs : List Opnd) {k : Nat} (h : k < 32) : s.resultLane d xs k < 32 := by
  rw [State.resultLane]; split <;> omega

end Sys2Proof.Machine
end

