-- ==== Sys2Proof/Tests/Slice0.lean ====
section
/-! SUPPORT. The model's own tests: ill-formed terms, words of the spec's encodings, and for every statement with
hypotheses states and operands that meet them. -/

set_option maxRecDepth 100000

/-! ### Helpers -/

namespace Sys2Proof.Tests

open Sys2Proof Sys2Proof.Machine

/-- A v register as a source. -/
def src (n : Nat) : Src := ⟨.v n, false⟩

/-- Whether no instruction of a list is well formed. -/
def allIll (is : List Instr) : Bool := is.all fun i => !i.wf

/-- Whether each word decodes to its instruction, which is well formed and encodes to the word. -/
def allDecode (n : Nat) (ws : List (Nat × Instr)) : Bool :=
  ws.all fun x => decide (decodeTableWord n x.1 = some x.2) && x.2.wf && encode x.2 == x.1

/-! ### Ill-formed terms, one for each check of WellFormed -/

theorem test_ill_formed_sources : allIll [
    .mov (.v 3) ⟨.v 64, false⟩, .mov (.v 3) ⟨.o 8, false⟩, .mov (.v 3) ⟨.l 2, false⟩, .mov (.v 3) ⟨.f 4, false⟩,
    .mov (.v 3) ⟨.k 8, false⟩, .mov (.v 3) ⟨.p 16, false⟩, .mov (.v 3) ⟨.const 16, false⟩, .mov (.v 3) ⟨.k 1, true⟩,
    .imad (.v 1) (src 1) (src 2) ⟨64, false⟩] = true := by decide

theorem test_ill_formed_destinations : allIll [
    .mov (.v 64) (src 1), .mov (.o 8) (src 1), .mov (.k 8) (src 1), .mkaff (.k 1) (src 1) (src 2), .fltrd .lo (.k
    1), .fcmp .h2bf16 .lt (.k 1) (src 1) (src 2), .fadd .f32 .dflt (.v 64) (src 1) (src 2)] = true := by decide

theorem test_ill_formed_pairs : allIll [
    .twosum 63 (src 1) (src 2), .padd 12 (src 63) (src 2), .pnorm 12 ⟨.k 1, false⟩, .acvt (.v 1) (src 61) 0, .tnow
    63, .ld .w32 (.v 5) (src 63) 0, .ld .w32 (.v 5) ⟨.p 15, false⟩ 0, .ld .w32 (.v 5) ⟨.p 4, true⟩ 0, .join 12 (src
    63), .join 63 (src 1), .bleft 63, .vpin 61 0 (src 1), .spcast .loc .scr (.v 63) (src 1), .spcast .loc .clu (.o
    1) (src 1), .spcast .gen .loc (.v 1) (src 63), .rmap 8 (src 1) (src 2) ⟨63, false⟩] = true := by decide

theorem test_ill_formed_immediates : allIll [
    .bra 2097152, .bnz (src 1) (-2097153), .jpt (src 1) 0, .jpt (src 1) 129, .trap 16384, .bkpt 16384, .movi (.v 1)
    4194304, .limm (.v 1) (2 ^ 40), .bfe false (.v 1) (src 1) 30 3, .bfe true (.v 1) (src 1) 3 0, .acvt (.v 1) (src
    1) 64, .ld .w32 (.v 5) (src 6) 2048, .asum (src 6) (src 2) (-65), .srd (.v 1) 0x00A, .swr 0x025 (src 1)] = true := by decide

theorem test_ill_formed_modes : allIll [
    .sfmt (some 4) (src 0), .sfmt (some 1) (src 1), .srnd (some 6) (src 0), .srnd (some 1) (src 2), .sel (.v 1) (src
    1) (src 2) 8, .free 60 5, .free 60 0, .regq true (.v 1) 1, .regq false (.v 1) 64, .shape (.v 1) 64, .pack .b16
    (.v 1) (src 1) (src 2) ⟨3, false⟩, .lred .add true (.v 1) (src 1), .lred .fadd true (.v 63) (src 1), .lred .fadd
    true (.k 1) (src 1)] = true := by decide

theorem test_ill_formed_memory : allIll [
    .ld .w64 (.v 63) (src 6) 0, .ld .w64 (.o 1) (src 6) 0, .st .w128 61 (src 6) 0, .stRel .gen .w64 .dev (src 6)
    (src 63), .stRel .gen .w32 .dev (src 6) ⟨.o 1, false⟩, .ldNb .gen .w32 false (.v 5) (src 6) ⟨.k 1, false⟩, .atom
    .add (.v 1) (src 6) (src 2) ⟨3, false⟩, .atom .cas (.v 1) (src 6) (src 2) ⟨64, false⟩, .twait false (src 63),
    .rmap 64 (src 1) (src 2) ⟨4, false⟩] = true := by decide

theorem test_ill_formed_engines : allIll [
    .cpyFeed 4 (src 1), .cbatch 64, .cwait true (src 1), .bari (src 1) 0, .bari (src 1) 1025, .barx false (src 1)
    64, .barw 64 (src 1), .astart (src 63) 2, .astart (src 2) 64] = true := by decide

theorem test_ill_formed_matrix : allIll [
    .wld .s8 31 (src 1) 2, .wld .s8 0 (src 1) 0, .mmr .s8s8 false 0 0 9 (src 1) 0, .mmr .s8s8 true 0 0 1 (src 1) 0,
    .mmr .s8s4 false 0 0 5 (src 1) 0, .mmr .s4s4 false 0 0 1 (src 1) 4, .mmr .s8s8 false 0 31 2 (src 1) 0, .mmrHold
    .s8s8 false 0 0 1 (src 1) 0, .mmf .bf16 0 31 1 (src 1), .qzero 7 2, .qzero 0 0, .qdrain .pair .rtz false (src 2)
    0 1 2, .qdrain .f32 .dflt false (src 2) 0 1 64, .qscale true .colG64 8 (src 1), .qstat (.v 1) 8] = true := by decide

theorem test_ill_formed_versions : allIll [
    .vbegin 8 (src 1), .vslot false 63 0, .vseal 0 (src 1) 64, .vstat (.v 1) 0 32, .vwait 5 0 (src 1) (some (src
    63)), .vwait 64 0 (src 1) none, .vleft .e 63, .launch 64 (src 1), .dline true 63] = true := by decide

theorem test_ill_formed_events : allIll [
    .setepoch 65 0, .partdestroy 0 8, .connwrite 0 18 0, .calwrite 0 (.core 512) (List.replicate 64 0), .calwrite 0
    (.core 1) [], .getCertificate 8, .invStageWrite 0 0xFFF [0], .invStage1Range 0 65536 16 0, .invStage2Range 0 1
    64 0, .ringDoorbell 0 8 0, .timeSyncExchange 18 (0, 0) (0, 0), .brynrikLinkDown 18, .throttle 8 0, .patrolScrubError (2 ^
    56), .calendarSwitch (.core 512), .castlingSwap 512 0, .passCommit 0 8, .vbeginRetry 0 4, .faultHandlerLaunch 4
    0, .logReplay 0 8, .illegalOpcode 0, .illegalOpcode 1024, .replicaUpdate 4 0, .regionWriteback 0 8 0,
    .copyComplete 0 16 0, .launchPacket 8 0, .prologueReturn 8 0, .pfdoneReplay 32, .rfet 32 0, .xbfx 0 0 32,
    .challenge (2 ^ 256)] = true := by decide

/-! ### Words written out from the spec's encodings (R44 to R62): each decodes to its instruction and is its encoding -/

theorem test_decode_control_0 : allDecode 40 [
    (0x0000000000, .nop), (0x00403FFFFD, .bra (-3)), (0x00843FFFFB, .bnz ⟨.v 8, false⟩ (-5)), (0x00C2800007, .bz ⟨.v
    5, false⟩ 7), (0x0100000064, .bdv 100), (0x0140030003, .jpt ⟨.v 3, false⟩ 4), (0x0180040000, .bix ⟨.v 4,
    false⟩), (0x01C0000064, .call 100), (0x0200000000, .ret), (0x0240000000, .exit)] = true := by decide

theorem test_decode_control_1 : allDecode 40 [
    (0x0280000000, .yld), (0x02C0000000, .tsync)] = true := by decide

theorem test_decode_system_0 : allDecode 40 [
    (0x0400000005, .trap 5), (0x0440000001, .tret true), (0x0482800000, .srd (.v 5) 0), (0x04C0030000, .swr 0 ⟨.v 3,
    false⟩), (0x0500000000, .halt), (0x0540000001, .bkpt 1), (0x0584800002, .fltrd .cause (.v 9))] = true := by decide

theorem test_decode_integer_0 : allDecode 40 [
    (0x2001828400, .iadd (.v 3) ⟨.v 2, true⟩ ⟨.v 4, false⟩), (0x2042050600, .isub (.v 4) ⟨.v 5, false⟩ ⟨.v 6,
    false⟩), (0x2081810200, .iadds .s32 (.v 3) ⟨.v 1, false⟩ ⟨.v 2, false⟩), (0x2142050600, .isubs .u32 (.v 4) ⟨.v
    5, false⟩ ⟨.v 6, false⟩), (0x2182050600, .imul (.v 4) ⟨.v 5, false⟩ ⟨.v 6, false⟩), (0x2202050600, .imulh .u32
    (.v 4) ⟨.v 5, false⟩ ⟨.v 6, false⟩), (0x2242010206, .imad (.v 4) ⟨.v 1, false⟩ ⟨.v 2, false⟩ ⟨3, false⟩),
    (0x2282050600, .imin .s32 (.v 4) ⟨.v 5, false⟩ ⟨.v 6, false⟩), (0x2342050600, .imax .u32 (.v 4) ⟨.v 5, false⟩
    ⟨.v 6, false⟩), (0x2382050000, .iabs (.v 4) ⟨.v 5, false⟩)] = true := by decide

theorem test_decode_integer_1 : allDecode 40 [
    (0x23E1050000, .ineg (.o 2) ⟨.v 5, false⟩), (0x248205060F, .idot4 .s8u8 (.v 4) ⟨.v 5, false⟩ ⟨.v 6, false⟩ ⟨7,
    true⟩)] = true := by decide

theorem test_decode_logic_0 : allDecode 40 [
    (0x2502050600, .and (.v 4) ⟨.v 5, false⟩ ⟨.v 6, false⟩), (0x2542050600, .or (.v 4) ⟨.v 5, false⟩ ⟨.v 6, false⟩),
    (0x2582050600, .xor (.v 4) ⟨.v 5, false⟩ ⟨.v 6, false⟩), (0x25C2050600, .andn (.v 4) ⟨.v 5, false⟩ ⟨.v 6,
    false⟩), (0x2602050600, .shl (.v 4) ⟨.v 5, false⟩ ⟨.v 6, false⟩), (0x2642050600, .shr (.v 4) ⟨.v 5, false⟩ ⟨.v
    6, false⟩), (0x2682050600, .sar (.v 4) ⟨.v 5, false⟩ ⟨.v 6, false⟩), (0x26C2050600, .rotl (.v 4) ⟨.v 5, false⟩
    ⟨.v 6, false⟩), (0x2702810068, .bfe false (.v 5) ⟨.v 1, false⟩ 8 4), (0x278205060E, .bfi (.v 4) ⟨.v 5, false⟩
    ⟨.v 6, false⟩ ⟨7, false⟩)] = true := by decide

theorem test_decode_logic_1 : allDecode 40 [
    (0x27C2050000, .popc (.v 4) ⟨.v 5, false⟩), (0x2802050000, .clz (.v 4) ⟨.v 5, false⟩), (0x2842050000, .brev (.v
    4) ⟨.v 5, false⟩), (0x2927810200, .icmp .lts (.k 1) ⟨.v 1, false⟩ ⟨.v 2, false⟩), (0x2B03010201, .sel (.v 6) ⟨.v
    1, false⟩ ⟨.v 2, false⟩ 1), (0x2B43820000, .mov (.v 7) ⟨.v 2, false⟩), (0x2B83FFFFFB, .movi (.v 7) (-5))] = true := by decide

theorem test_decode_limm : decodeTableWord 80 0x123456782BC4800000 = some (.limm (.v 9) 0x12345678) := by decide

theorem test_decode_float_0 : allDecode 40 [
    (0x4804810202, .fadd .h2bf16 .rtz (.v 9) ⟨.v 1, false⟩ ⟨.v 2, false⟩), (0x4042050600, .fsub .f32 .dflt (.v 4)
    ⟨.v 5, false⟩ ⟨.v 6, false⟩), (0x5082050600, .fmul .h2fp16 .dflt (.v 4) ⟨.v 5, false⟩ ⟨.v 6, false⟩),
    (0x40C4010206, .ffma .f32 (.v 8) ⟨.v 1, false⟩ ⟨.v 2, false⟩ ⟨3, false⟩), (0x4102050600, .fmin .f32 (.v 4) ⟨.v
    5, false⟩ ⟨.v 6, false⟩), (0x4142050600, .fmax .f32 (.v 4) ⟨.v 5, false⟩ ⟨.v 6, false⟩), (0x4227850600, .fcmp
    .f32 .lt (.k 1) ⟨.v 5, false⟩ ⟨.v 6, false⟩), (0x4342050000, .fclass .f32 (.v 4) ⟨.v 5, false⟩), (0x4382050003,
    .fround .f32 .rup (.v 4) ⟨.v 5, false⟩), (0x43C2050600, .fdiv .f32 .dflt (.v 4) ⟨.v 5, false⟩ ⟨.v 6, false⟩)] = true := by decide

theorem test_decode_float_1 : allDecode 40 [
    (0x4402050000, .fsqrt .f32 .dflt (.v 4) ⟨.v 5, false⟩), (0x4442050000, .frcp .f32 .dflt (.v 4) ⟨.v 5, false⟩),
    (0x4482050000, .frsq .f32 .dflt (.v 4) ⟨.v 5, false⟩), (0x4502050000, .fexp2 .f32 .dflt (.v 4) ⟨.v 5, false⟩),
    (0x4542050000, .flog .f32 .dflt (.v 4) ⟨.v 5, false⟩), (0x4582050000, .flog2 .f32 .dflt (.v 4) ⟨.v 5, false⟩),
    (0x45C2050000, .fsin .f32 .dflt (.v 4) ⟨.v 5, false⟩), (0x4602050000, .fcos .f32 .dflt (.v 4) ⟨.v 5, false⟩),
    (0x4642050000, .ftanh .f32 .dflt (.v 4) ⟨.v 5, false⟩), (0x44C5010000, .fexp .f32 .dflt (.v 10) ⟨.v 1, false⟩)] = true := by decide

theorem test_decode_float_2 : allDecode 40 [
    (0x5806010200, .twosum 12 ⟨.v 1, false⟩ ⟨.v 2, false⟩), (0x5846020400, .twoprod 12 ⟨.v 2, false⟩ ⟨.v 4, false⟩),
    (0x5886020400, .padd 12 ⟨.v 2, false⟩ ⟨.v 4, false⟩), (0x58C6020000, .pnorm 12 ⟨.v 2, false⟩)] = true := by decide

theorem test_decode_conversion_0 : allDecode 40 [
    (0x6246810000, .cvtTo .bf16 .dflt (.v 13) ⟨.v 1, false⟩), (0x6382050000, .cvtFrom .s32 .dflt (.v 4) ⟨.v 5,
    false⟩), (0x650701021C, .qnt .s8 (.v 14) ⟨.v 1, false⟩ ⟨.v 2, false⟩ ⟨14, false⟩), (0x664205060E, .dqnt .s4 (.v
    4) ⟨.v 5, false⟩ ⟨.v 6, false⟩ ⟨7, false⟩), (0x674205060E, .pack .b8 (.v 4) ⟨.v 5, false⟩ ⟨.v 6, false⟩ ⟨7,
    false⟩), (0x68CB017C00, .unpk .s8 (.v 22) ⟨.v 1, false⟩ ⟨.const 12, false⟩), (0x6982050000, .rnse (.v 4) ⟨.v 5,
    false⟩), (0x69C2050000, .rnsd (.v 4) ⟨.v 5, false⟩), (0x6A09940070, .acvt (.v 19) ⟨.v 20, false⟩ (-16))] = true := by decide

theorem test_decode_lanes_0 : allDecode 40 [
    (0x6C47810206, .perm .b4 (.v 15) ⟨.v 1, false⟩ ⟨.v 2, false⟩ ⟨3, false⟩), (0x6D48017102, .shfl .xor (.v 16) ⟨.v
    1, false⟩ ⟨.const 1, false⟩ ⟨1, false⟩), (0x6D8B817000, .bcast (.v 23) ⟨.v 1, false⟩ ⟨.const 0, false⟩),
    (0x6E68010000, .vote .ballot (.k 2) ⟨.v 1, false⟩), (0x7089010001, .lred .fadd true (.v 18) ⟨.v 1, false⟩),
    (0x7142050001, .lscan .add true (.v 4) ⟨.v 5, false⟩), (0x7404830000, .shape (.v 9) 3), (0x7440D67100, .mkaff
    (.v 1) ⟨.p 0, false⟩ ⟨.const 1, false⟩), (0x7483038001, .mkuni true (.v 6) ⟨.v 3, true⟩), (0x74C00A0003, .free
    10 4)] = true := by decide

theorem test_decode_lanes_1 : allDecode 40 [
    (0x7506050000, .regq false (.v 12) 5), (0x7600000042, .sfmt (some 2) ⟨.v 0, false⟩), (0x7642000000, .gfmt (.v
    4)), (0x7680000041, .srnd (some 1) ⟨.v 0, false⟩), (0x76C2000000, .grnd (.v 4)), (0x7702000000, .flags (.v 4)),
    (0x770AF20001, .flagsClr (.v 21) ⟨.const 2, false⟩)] = true := by decide

theorem test_decode_memory_0 : allDecode 40 [
    (0x8002860004, .ld .w32 (.v 5) ⟨.v 6, false⟩ 0), (0x8041060014, .st .w32 2 ⟨.v 6, false⟩ 2), (0x8082090204, .lds
    .w32 (.v 4) ⟨.v 9, false⟩ 64), (0x80C1067FF9, .sts .s8 2 ⟨.v 6, false⟩ (-1)), (0x810206001D, .ldc .w64 (.v 4)
    ⟨.v 6, false⟩ 3), (0x8142060006, .stc .w128 4 ⟨.v 6, false⟩ 0), (0x81C206000A, .ldUni .loc .u16 (.v 4) ⟨.v 6,
    false⟩ 1), (0x8402865A04, .ldNb .gen .w32 false (.v 5) ⟨.v 6, false⟩ ⟨.p 4, false⟩), (0x84C1065A04, .stVa .gen
    .w32 false 2 ⟨.v 6, false⟩ ⟨.p 4, false⟩), (0x860286001C, .ldAcq .gen .w32 .dev (.v 5) ⟨.v 6, false⟩)] = true := by decide

theorem test_decode_memory_1 : allDecode 40 [
    (0x87400602AC, .stRel .clu .w32 .sys ⟨.v 6, false⟩ ⟨.v 2, true⟩), (0x8804860000, .sptest (.v 9) ⟨.v 6, false⟩),
    (0x8845060001, .spcast .gen .clu (.v 10) ⟨.v 6, false⟩), (0x8880060104, .pfet ⟨.v 6, false⟩ 32), (0x8E418A040A,
    .atom .cas (.v 3) ⟨.v 10, false⟩ ⟨.v 4, false⟩ ⟨5, false⟩), (0x9001890400, .atoms .add (.v 3) ⟨.v 9, false⟩ ⟨.v
    4, false⟩ ⟨0, false⟩), (0x9400060270, .asum ⟨.v 6, false⟩ ⟨.v 2, false⟩ (-16)), (0x9600000005, .fence .full
    .sys), (0x9804090A18, .rmap 8 ⟨.v 9, false⟩ ⟨.v 10, false⟩ ⟨12, false⟩), (0x9840080000, .rflush ⟨.v 8, false⟩)] = true := by decide

theorem test_decode_memory_2 : allDecode 40 [
    (0x9880080000, .rdrop ⟨.v 8, false⟩), (0x9A05000000, .tnow 10), (0x9A405A0000, .twait false ⟨.p 4, false⟩),
    (0x9A40030001, .twait true ⟨.v 3, false⟩)] = true := by decide

theorem test_decode_engines_0 : allDecode 40 [
    (0xA000090000, .cpy ⟨.v 9, false⟩), (0xA000090801, .cpyFeed 2 ⟨.v 9, false⟩), (0xA040090000, .cpyl ⟨.v 9,
    false⟩), (0xA085000000, .cbatch 10), (0xA0C00A0000, .cwait false ⟨.v 10, false⟩), (0xA200090003, .bari ⟨.v 9,
    false⟩ 4), (0xA242090001, .barx true ⟨.v 9, false⟩ 4), (0xA280090001, .bara true ⟨.v 9, false⟩), (0xA2C5890000,
    .barw 11 ⟨.v 9, false⟩), (0xA401140000, .astart ⟨.v 20, false⟩ 2)] = true := by decide

theorem test_decode_engines_1 : allDecode 40 [
    (0xA440000001, .astop true), (0xA486000000, .fstat (.v 12))] = true := by decide

theorem test_decode_matrix_0 : allDecode 40 [
    (0xC040080001, .wld .s4 0 ⟨.v 8, false⟩ 2), (0xC200090000, .mmr .s8s8 false 0 0 1 ⟨.v 9, false⟩ 0),
    (0xC300090200, .mmrHold .s8s8 false 0 0 1 ⟨.v 9, false⟩ 4), (0xC240090003, .mmr .s8s4 true 0 0 2 ⟨.v 9, false⟩
    0), (0xC4000A1022, .mmf .bf16 2 4 2 ⟨.v 10, false⟩), (0xC6000B0810, .mmc .s8s8 false 1 2 1 ⟨.v 11, false⟩ 0),
    (0xC7C0090080, .mmcHold .s4s8 false 0 0 1 ⟨.v 9, false⟩ 1), (0xC800000001, .qzero 0 2), (0xC841140000, .qdrain
    .f32 .dflt false ⟨.v 20, false⟩ 0 1 2), (0xC881140029, .qdrain .bf16 .rtz true ⟨.v 20, false⟩ 0 2 2)] = true := by decide

theorem test_decode_matrix_1 : allDecode 40 [
    (0xCA400C0002, .qscale true .colG64 0 ⟨.v 12, false⟩), (0xCA80140001, .qsave ⟨.v 20, false⟩ 0 2), (0xCAC0140001,
    .qload ⟨.v 20, false⟩ 0 2), (0xCB02800000, .qstat (.v 5) 0)] = true := by decide

theorem test_decode_versions_0 : allDecode 40 [
    (0xE000030000, .vbegin 0 ⟨.v 3, false⟩), (0xE04A000000, .vslot false 20 0), (0xE082030000, .vseal 0 ⟨.v 3,
    false⟩ 4), (0xE0C2030400, .vsealFinal 1 ⟨.v 3, false⟩ 4), (0xE104700000, .vpin 8 0 ⟨.const 0, false⟩),
    (0xE140000000, .vunpin 0), (0xE182860118, .vwait 5 0 ⟨.v 6, false⟩ (some ⟨.v 12, false⟩)), (0xE1C3800000, .vstat
    (.v 7) 0 0), (0xE208000001, .vleft .e 16), (0xE405090000, .launch 10 ⟨.v 9, false⟩)] = true := by decide

theorem test_decode_versions_1 : allDecode 40 [
    (0xE4460E0000, .join 12 ⟨.v 14, false⟩), (0xE488000000, .bleft 16), (0xE4C9000001, .dline true 18)] = true := by decide

theorem test_decode_front : allDecode 32 [
    (0x0005850B, .rfet 10 11), (0x00C5950B, .xbfx 10 11 12), (0x0073228B, .swait 5 6 7), (0x0005B50B, .xdisp 10 11)] = true := by decide

/-- Words of RV64GC, as the RISC-V manuals encode them: addi a0, a0, 1; ld a5, 8(sp); sd ra, 8(sp); beq a0, zero, 8;
jal ra, 16; lui a0, 0x12345; mul a0, a0, a1; amoadd.w a0, a1, (a2); fadd.d fa0, fa0, fa1; csrrw a0, mtvec, a1; mret; wfi. -/
theorem test_decode_rv64 :
    ([0x00150513, 0x00813783, 0x00113423, 0x00050463, 0x010000EF, 0x12345537, 0x02B50533, 0x00B6252F, 0x02B57553,
      0x30559573, 0x30200073, 0x10500073].map decodeRv = [Rv.aluImm .add false 10 10 1, .load 8 false 15 2 8, .store 8 2 1 8,
      .branch .eq 10 0 8, .jal 1 16, .lui 10 0x12345000, .alu .mul false 10 10 11, .amo .add 4 10 12 11, .fop .add true 7 10 10 11,
      .csr 1 0x305 10 11, .mret, .wfi].map some) := by decide

/-- Compressed words: c.li a0, 1; c.jr ra; c.addi sp, −16; c.ldsp ra, 8; c.mv a0, a1; the zero word is none. -/
theorem test_decode_compressed :
    [0x4505, 0x8082, 0x1141, 0x60A2, 0x852E, 0].map decodeC = [some (Rv.aluImm .add false 10 0 1), some (.jalr 0 1 0),
      some (.aluImm .add false 2 2 (-16)), some (.load 8 false 1 2 8), some (.alu .add false 10 0 11), none] := by decide

/-- IEEE 754 doubles: 1.5 + 0.1 and 1 / 3 to the nearest, and the quiet NaN of 0 / 0 with NV. -/
theorem test_rv64_floats :
    (RvFop.eval .add (.of true) .rne 0x3FF8000000000000 0x3FB999999999999A).1 = 0x3FF999999999999A ∧
    (RvFop.eval .div (.of true) .rne 0x3FF0000000000000 0x4008000000000000).1 = 0x3FD5555555555555 ∧
    RvFop.eval .div (.of true) .rne 0 0 = (0x7FF8000000000000, flNV) := by decide

/-- Refused: unassigned opcodes (0x00C, 0x0B0, 0x394, 0x3FF), a nonzero field of NOP, D7 = 72 (a source kind), a last-use
bit on an o register, SRND of mode 6, a reserved system register, a front-end funct7. -/
theorem test_refused_words :
    ([0x0300000000, 0x2C00000000, 0xE500000000, 0xFFC0000000, 0x0000000001, 0x2024028400, 0x2001C08400,
      0x7680000046, 0x048280000A].all fun w => (decodeTableWord 40 w).isNone) = true ∧
    decodeTableWord 32 0x0205850B = none := by decide

end Sys2Proof.Tests

namespace Sys2Proof.Tests

open Sys2Proof Sys2Proof.Machine

/-- One example of every slot’s instruction (CPY.f, which a group may not issue, apart). -/
def slotExamples : List Instr :=
  [.nop, .bra (-3), .bnz ⟨.v 8, false⟩ (-5), .bz ⟨.v 5, false⟩ 7, .bdv 100, .jpt ⟨.v 3, false⟩ 4, .bix ⟨.v 4,
    false⟩, .call 100, .ret, .exit, .yld, .tsync] ++
  [.trap 5, .tret true, .srd (.v 5) 0, .swr 0 ⟨.v 3, false⟩, .halt, .bkpt 1, .fltrd .cause (.v 9)] ++
  [.iadd (.v 3) ⟨.v 2, true⟩ ⟨.v 4, false⟩, .isub (.v 4) ⟨.v 5, false⟩ ⟨.v 6, false⟩, .iadds .s32 (.v 3) ⟨.v 1,
    false⟩ ⟨.v 2, false⟩, .isubs .u32 (.v 4) ⟨.v 5, false⟩ ⟨.v 6, false⟩, .imul (.v 4) ⟨.v 5, false⟩ ⟨.v 6, false⟩,
    .imulh .u32 (.v 4) ⟨.v 5, false⟩ ⟨.v 6, false⟩, .imad (.v 4) ⟨.v 1, false⟩ ⟨.v 2, false⟩ ⟨3, false⟩, .imin .s32
    (.v 4) ⟨.v 5, false⟩ ⟨.v 6, false⟩, .imax .u32 (.v 4) ⟨.v 5, false⟩ ⟨.v 6, false⟩, .iabs (.v 4) ⟨.v 5, false⟩,
    .ineg (.o 2) ⟨.v 5, false⟩, .idot4 .s8u8 (.v 4) ⟨.v 5, false⟩ ⟨.v 6, false⟩ ⟨7, true⟩] ++
  [.and (.v 4) ⟨.v 5, false⟩ ⟨.v 6, false⟩, .or (.v 4) ⟨.v 5, false⟩ ⟨.v 6, false⟩, .xor (.v 4) ⟨.v 5, false⟩ ⟨.v 6,
    false⟩, .andn (.v 4) ⟨.v 5, false⟩ ⟨.v 6, false⟩, .shl (.v 4) ⟨.v 5, false⟩ ⟨.v 6, false⟩, .shr (.v 4) ⟨.v 5,
    false⟩ ⟨.v 6, false⟩, .sar (.v 4) ⟨.v 5, false⟩ ⟨.v 6, false⟩, .rotl (.v 4) ⟨.v 5, false⟩ ⟨.v 6, false⟩, .bfe
    false (.v 5) ⟨.v 1, false⟩ 8 4, .bfi (.v 4) ⟨.v 5, false⟩ ⟨.v 6, false⟩ ⟨7, false⟩, .popc (.v 4) ⟨.v 5, false⟩,
    .clz (.v 4) ⟨.v 5, false⟩, .brev (.v 4) ⟨.v 5, false⟩, .icmp .lts (.k 1) ⟨.v 1, false⟩ ⟨.v 2, false⟩, .sel (.v
    6) ⟨.v 1, false⟩ ⟨.v 2, false⟩ 1, .mov (.v 7) ⟨.v 2, false⟩, .movi (.v 7) (-5), .limm (.v 9) 0x12345678] ++
  [.fadd .h2bf16 .rtz (.v 9) ⟨.v 1, false⟩ ⟨.v 2, false⟩, .fsub .f32 .dflt (.v 4) ⟨.v 5, false⟩ ⟨.v 6, false⟩, .fmul
    .h2fp16 .dflt (.v 4) ⟨.v 5, false⟩ ⟨.v 6, false⟩, .ffma .f32 (.v 8) ⟨.v 1, false⟩ ⟨.v 2, false⟩ ⟨3, false⟩,
    .fmin .f32 (.v 4) ⟨.v 5, false⟩ ⟨.v 6, false⟩, .fmax .f32 (.v 4) ⟨.v 5, false⟩ ⟨.v 6, false⟩, .fcmp .f32 .lt (.k
    1) ⟨.v 5, false⟩ ⟨.v 6, false⟩, .fclass .f32 (.v 4) ⟨.v 5, false⟩, .fround .f32 .rup (.v 4) ⟨.v 5, false⟩, .fdiv
    .f32 .dflt (.v 4) ⟨.v 5, false⟩ ⟨.v 6, false⟩, .fsqrt .f32 .dflt (.v 4) ⟨.v 5, false⟩, .frcp .f32 .dflt (.v 4)
    ⟨.v 5, false⟩, .frsq .f32 .dflt (.v 4) ⟨.v 5, false⟩, .fexp2 .f32 .dflt (.v 4) ⟨.v 5, false⟩, .flog .f32 .dflt
    (.v 4) ⟨.v 5, false⟩, .flog2 .f32 .dflt (.v 4) ⟨.v 5, false⟩, .fsin .f32 .dflt (.v 4) ⟨.v 5, false⟩, .fcos .f32
    .dflt (.v 4) ⟨.v 5, false⟩, .ftanh .f32 .dflt (.v 4) ⟨.v 5, false⟩, .fexp .f32 .dflt (.v 10) ⟨.v 1, false⟩,
    .twosum 12 ⟨.v 1, false⟩ ⟨.v 2, false⟩, .twoprod 12 ⟨.v 2, false⟩ ⟨.v 4, false⟩, .padd 12 ⟨.v 2, false⟩ ⟨.v 4,
    false⟩, .pnorm 12 ⟨.v 2, false⟩] ++
  [.cvtTo .bf16 .dflt (.v 13) ⟨.v 1, false⟩, .cvtFrom .s32 .dflt (.v 4) ⟨.v 5, false⟩, .qnt .s8 (.v 14) ⟨.v 1,
    false⟩ ⟨.v 2, false⟩ ⟨14, false⟩, .dqnt .s4 (.v 4) ⟨.v 5, false⟩ ⟨.v 6, false⟩ ⟨7, false⟩, .pack .b8 (.v 4) ⟨.v
    5, false⟩ ⟨.v 6, false⟩ ⟨7, false⟩, .unpk .s8 (.v 22) ⟨.v 1, false⟩ ⟨.const 12, false⟩, .rnse (.v 4) ⟨.v 5,
    false⟩, .rnsd (.v 4) ⟨.v 5, false⟩, .acvt (.v 19) ⟨.v 20, false⟩ (-16)] ++
  [.perm .b4 (.v 15) ⟨.v 1, false⟩ ⟨.v 2, false⟩ ⟨3, false⟩, .shfl .xor (.v 16) ⟨.v 1, false⟩ ⟨.const 1, false⟩ ⟨1,
    false⟩, .bcast (.v 23) ⟨.v 1, false⟩ ⟨.const 0, false⟩, .vote .ballot (.k 2) ⟨.v 1, false⟩, .lred .fadd true (.v
    18) ⟨.v 1, false⟩, .lscan .add true (.v 4) ⟨.v 5, false⟩, .shape (.v 9) 3, .mkaff (.v 1) ⟨.p 0, false⟩ ⟨.const
    1, false⟩, .mkuni true (.v 6) ⟨.v 3, true⟩, .free 10 4, .regq false (.v 12) 5, .sfmt (some 2) ⟨.v 0, false⟩,
    .gfmt (.v 4), .srnd (some 1) ⟨.v 0, false⟩, .grnd (.v 4), .flags (.v 4), .flagsClr (.v 21) ⟨.const 2, false⟩] ++
  [.ld .w32 (.v 5) ⟨.v 6, false⟩ 0, .st .w32 2 ⟨.v 6, false⟩ 2, .lds .w32 (.v 4) ⟨.v 9, false⟩ 64, .sts .s8 2 ⟨.v 6,
    false⟩ (-1), .ldc .w64 (.v 4) ⟨.v 6, false⟩ 3, .stc .w128 4 ⟨.v 6, false⟩ 0, .ldUni .loc .u16 (.v 4) ⟨.v 6,
    false⟩ 1, .ldNb .gen .w32 false (.v 5) ⟨.v 6, false⟩ ⟨.p 4, false⟩, .stVa .gen .w32 false 2 ⟨.v 6, false⟩ ⟨.p 4,
    false⟩, .ldAcq .gen .w32 .dev (.v 5) ⟨.v 6, false⟩, .stRel .clu .w32 .sys ⟨.v 6, false⟩ ⟨.v 2, true⟩, .sptest
    (.v 9) ⟨.v 6, false⟩, .spcast .gen .clu (.v 10) ⟨.v 6, false⟩, .pfet ⟨.v 6, false⟩ 32, .atom .cas (.v 3) ⟨.v 10,
    false⟩ ⟨.v 4, false⟩ ⟨5, false⟩, .atoms .add (.v 3) ⟨.v 9, false⟩ ⟨.v 4, false⟩ ⟨0, false⟩, .asum ⟨.v 6, false⟩
    ⟨.v 2, false⟩ (-16), .fence .full .sys, .rmap 8 ⟨.v 9, false⟩ ⟨.v 10, false⟩ ⟨12, false⟩, .rflush ⟨.v 8, false⟩,
    .rdrop ⟨.v 8, false⟩, .tnow 10, .twait false ⟨.p 4, false⟩, .twait true ⟨.v 3, false⟩] ++
  [.cpy ⟨.v 9, false⟩, .cpyl ⟨.v 9, false⟩, .cbatch 10, .cwait false ⟨.v 10, false⟩, .bari ⟨.v 9, false⟩ 4, .barx
    true ⟨.v 9, false⟩ 4, .bara true ⟨.v 9, false⟩, .barw 11 ⟨.v 9, false⟩, .astart ⟨.v 20, false⟩ 2, .astop true,
    .fstat (.v 12)] ++
  [.wld .s4 0 ⟨.v 8, false⟩ 2, .mmr .s8s8 false 0 0 1 ⟨.v 9, false⟩ 0, .mmrHold .s8s8 false 0 0 1 ⟨.v 9, false⟩ 4,
    .mmr .s8s4 true 0 0 2 ⟨.v 9, false⟩ 0, .mmf .bf16 2 4 2 ⟨.v 10, false⟩, .mmc .s8s8 false 1 2 1 ⟨.v 11, false⟩ 0,
    .mmcHold .s4s8 false 0 0 1 ⟨.v 9, false⟩ 1, .qzero 0 2, .qdrain .f32 .dflt false ⟨.v 20, false⟩ 0 1 2, .qdrain
    .bf16 .rtz true ⟨.v 20, false⟩ 0 2 2, .qscale true .colG64 0 ⟨.v 12, false⟩, .qsave ⟨.v 20, false⟩ 0 2, .qload
    ⟨.v 20, false⟩ 0 2, .qstat (.v 5) 0] ++
  [.vbegin 0 ⟨.v 3, false⟩, .vslot false 20 0, .vseal 0 ⟨.v 3, false⟩ 4, .vsealFinal 1 ⟨.v 3, false⟩ 4, .vpin 8 0
    ⟨.const 0, false⟩, .vunpin 0, .vwait 5 0 ⟨.v 6, false⟩ (some ⟨.v 12, false⟩), .vstat (.v 7) 0 0, .vleft .e 16,
    .launch 10 ⟨.v 9, false⟩, .join 12 ⟨.v 14, false⟩, .bleft 16, .dline true 18]

/-- A copy with nothing done yet. -/
def oneCopy : Copy :=
  { linear := true, sbase := 0, dbase := 0, srec := 0, drec := 0, len := 4, bar := 0xFFFFFFFF, rmode := 0, fmt := 0, batch := 1,
    order := 0, mask := fullMask, past := [], next := 0, flags := 0, priv := false, faulted := false, faultAt := 0, aborted := false, failed := none }

end Sys2Proof.Tests

/-! ### Small states -/

namespace Sys2Proof.Tests

open Sys2Proof Sys2Proof.Machine

/-- One group of 32 lanes on core 0, in a service context. -/
def s0 : State := State.reset.placeGroup

/-- The same group in a context whose splits are privileged, with its decode table open. -/
def sP : State := s0.setCtx 0 { s0.ctx 0 with mode := .recovery, lock := false }

/-- A state with its group 0 changed. -/
def withG (s : State) (f : Group → Group) : State := s.setGroup 0 (f (s.group 0))

/-- A group with a v register uniform. -/
def vU (n : Nat) (x : Word) (g : Group) : Group := { g with vregs := g.vregs.set n (.uniform x) }

/-- A group with a v register affine. -/
def vA (n : Nat) (b st : Word) (g : Group) : Group := { g with vregs := g.vregs.set n (.affine b st) }

/-- A group whose split 0 waits. -/
def waits (x : Wait) (g : Group) : Group := { g with splits := [{ Split.initial 0 with wait := some x }] }

/-- A stack entry of all lanes. -/
def entry (k : EKind) (rpt : Nat) : Entry :=
  { rpt := rpt, dtgt := 0, fmt := 0, rmode := 0, mask := fullMask, arr := 0, dmask := 0, djp := false, done := false, kind := k,
    fltcause := 0, fltlane := 0, fltaddr := 0, fltmask := 0, tctl := 1 }

/-- A group with a stack of `n` entries. -/
def stacked (k : EKind) (n : Nat) (g : Group) : Group := { g with stack := List.replicate n (entry k 1000) }

/-- A group with two splits. -/
def twoSplits (g : Group) : Group :=
  { g with splits := [{ Split.initial 0 with mask := 0xFFFF }, { Split.initial 9 with num := 1, mask := 0xFFFF0000 }] }

/-- Nothing holds an instruction back. -/
def free (s : State) (i : Instr) : Bool := s.clear i && s.ample i

/-! ### Witnesses: states and operands that meet a statement's hypotheses -/

/-- Every slot's instruction meets the premises of its completion at `s0` (IntegerArithmetic to ModesAndFlags and all
others that say Completes, Computes, Steers or Accesses); the hypothesis on a k destination holds there too. -/
theorem witness_completes : (slotExamples.all fun i => free s0 i) = true ∧
    (Dst.k 1).isK = true ∧ (∀ x ∈ [s0.rd (src 1), s0.rd2 (src 1) (src 2), s0.rdc ⟨3, false⟩], x.sh = .uniform) ∧
    (Dst.v 4).isK = false := by decide

theorem witness_MovesAndShapes :
    (∀ i, i < 32 → s0.active i = true → (s0.rd (src 3)).vals.get i = (s0.rd (src 3)).vals.get (lowestLane s0.mask)) ∧
    s0.clear (.mkaff (.k 1) (src 1) (src 2)) = true ∧ s0.clear (.sel (.k 1) (src 1) (src 2) 0) = true ∧
    (let s := withG s0 (vA 3 0 1)
     s.clear (.mkuni true (.v 6) (src 3)) = true ∧
     ∃ i, i < 32 ∧ s.active i = true ∧ (s.rd (src 3)).vals.get i ≠ (s.rd (src 3)).vals.get (lowestLane s.mask)) := by decide

theorem witness_ModesAndFlags :
    (s0.rd (src 1)).u.toNat % 8 < 6 ∧
    (let s := withG s0 (vU 1 6)
     6 ≤ (s.rd (src 1)).u.toNat % 8 ∧ s.clear (.srnd none (src 1)) = true) ∧
    s0.g.slow = [] ∧ (withG s0 twoSplits).g.splits.length ≠ 1 ∧ s0.g.splits.length = 1 ∧
    (∀ j, j < 4 → Dst.v (10 + j) ∉ s0.pending s0.cur.group) := by decide

theorem witness_Branches :
    s0.condLanes (src 8) = 0 ∧ s0.g.stack.length < 78 ∧
    (let s := withG s0 fun g => vA 8 0 1 (stacked .div 78 g)
     let nz := s.condLanes (src 8)
     nz ≠ 0 ∧ s.mask &&& ~~~nz ≠ 0 ∧ target s.cur.slot 5 ≠ s.after ∧ 78 ≤ s.g.stack.length ∧
     s.clear (.bnz (src 8) 5) = true ∧ s.clear (.bz (src 8) 5) = true ∧ s.clear (.bix (src 8)) = true ∧
     s.bixTarget (src 8) 1 ≠ s.bixTarget (src 8) 0 ∧ s.bixTarget (src 8) 0 ≠ s.cur.slot + 1 ∧
     s.clear (.call 5) = true) := by decide

theorem witness_Divergence :
    let g := Group.initial 7 .live
    (1 : Word) ≠ 0 ∧ (0xFFFFFFFE : Word) ≠ 0 ∧ g.stack.length < 78 ∧ g.splits.length < 4 ∧
    (g.split? g.freeSplit).isNone = true ∧ g.freeSplit ≠ (Split.initial 7).num ∧
    4 ≤ { g with splits := (List.range 4).map fun n => { Split.initial 7 with num := n } }.splits.length := by decide

theorem witness_TrapsAndReturns :
    (let s := withG s0 (stacked .call 1)
     s.g.ret s.sp ≠ none ∧ free s .ret = true) ∧
    (let s := withG s0 (stacked .trap 1)
     s.g.tret s.sp true ≠ none ∧ free s (.tret true) = true) ∧
    s0.g.ret s0.sp = none ∧ s0.clear .ret = true ∧ s0.g.tret s0.sp false = none ∧ s0.clear (.tret false) = true ∧
    s0.clear (.trap 5) = true ∧ s0.clear (.bkpt 16383) = true ∧ s0.clear (.illegalOpcode 0x394) = true := by decide

theorem witness_ExitSyncHalt :
    s0.g.exitReady = true ∧ s0.noJob 0 = true ∧ s0.g.copyFails = [] ∧
    (let s := withG s0 fun g => { g with copies := [(0, oneCopy)] }
     s.g.exitReady = false ∧ s.clear .exit = true) ∧
    (let s := withG s0 (waits .exit)
     s.sp.wait = some .exit ∧ s.reading.g.exitReady = true ∧ s.reading.noJob 0 = true ∧ s.reading.g.copyFails = [] ∧
     s.goesOn .exit = true ∧
     s.ample .exit = true) ∧
    s0.g.splits.length ≤ 1 ∧ s0.settled 0 = true ∧ s0.noStale 0 = true ∧ s0.clear .tsync = true ∧
    (let s := withG s0 (waits (.tsync 0))
     s.sp.wait = some (.tsync 0) ∧ s.reading.teamAt_ 0 0 = true ∧ s.goesOn .tsync = true ∧ s.ample .tsync = true) ∧
    (let s := withG s0 twoSplits
     1 < s.g.splits.length ∧ s.clear .tsync = true) ∧
    sP.priv = true ∧ sP.noJob 0 = true ∧ free sP .halt = true ∧ s0.priv = false ∧ s0.clear .halt = true := by decide

theorem witness_ExceptionEntry :
    let r := unitReport .trap 5 fullMask 0
    (s0.group 0).split? 0 = some (Split.initial 0) ∧ (s0.group 0).trapDepth < 4 ∧ (s0.group 0).stack.length < 80 ∧
    s0.deliver 0 0 r 0 1 ≠ s0 ∧
    (let s := withG s0 (stacked .trap 4)
     (s.group 0).split? 0 = some (Split.initial 0) ∧ 4 ≤ (s.group 0).trapDepth) := by decide

theorem witness_ExceptionReturn :
    let g := Group.initial 7 .live
    g.stack = [] ∧ g.split? (Split.initial 7).num = some (Split.initial 7) ∧ (Split.initial 7).mask ≠ 0 := by decide

theorem witness_SystemReads :
    s0.priv = false ∧
    (let s := withG s0 (stacked .trap 1)
     s.priv = true ∧ s.g.trapEntry s.sp = some (entry .trap 1000) ∧ free s (.fltrd .lo (.v 9)) = true) := by decide

theorem witness_SystemWrites :
    (privilegedReg 0x000 && !s0.priv || s0.locked 0x000 (s0.rd (src 3)).u) = false ∧
    (privilegedReg 0x006 && !s0.priv || s0.locked 0x006 (s0.rd (src 3)).u) = true ∧
    s0.clear (.swr 0x006 (src 3)) = true ∧
    sP.priv = true ∧ (∀ i, i < 32 → sP.active i = true → ((sP.rd (src 3)).vals.get i).toNat ≤ 1) ∧
    (let s := withG sP (vU 3 2)
     (∃ i, i < 32 ∧ s.active i = true ∧ 1 < ((s.rd (src 3)).vals.get i).toNat) ∧
     s.clear (.swr 0x008 (src 3)) = true) ∧
    free sP (.pfdoneReplay 3) = true ∧ free sP (.pfdoneAbort 3) = true ∧
    s0.priv = false ∧ (∀ i, i < 32 → s0.active i = true → ((s0.rd (src 3)).vals.get i).toNat ≤ 1) ∧
    s0.clear (.swr 0x008 (src 3)) = true ∧ s0.clear (.pfdoneReplay 0) = true ∧ s0.clear (.pfdoneAbort 31) = true ∧
    (privilegedReg 0x018 && !sP.priv || sP.locked 0x018 0) = false ∧ free sP (.mapidWrite 0) = true ∧
    (privilegedReg 0x018 && !s0.priv || s0.locked 0x018 0x10000) = true ∧ s0.clear (.mapidWrite 0x10000) = true ∧
    (privilegedReg 0x019 && !sP.priv || sP.locked 0x019 0) = false ∧ free sP (.dtdataWrite 0) = true ∧
    (privilegedReg 0x019 && !s0.priv || s0.locked 0x019 0) = true ∧ s0.clear (.dtdataWrite 0) = true := by decide


/-- The state that an instruction leaves. -/
def after (i : Instr) (s : State) : State :=
  match exec i s with
  | .next t => t
  | _ => s

/-- Tables that map addresses below 1 GiB to themselves, and v6 with 4 × lane. -/
def sT : State := withG (placedTables s0) (vA 6 0 4)

theorem witness_LoadsAndStores :
    (sT.admits (sT.loadReq .gen .w32 (.v 5) ⟨src 6, 0⟩) && free sT (.ld .w32 (.v 5) (src 6) 0) &&
      sT.admits (sT.storeReq .gen .w32 (sT.regData 2 .w32) ⟨src 6, 0⟩) && free sT (.st .w32 2 (src 6) 0) &&
      sT.admits { sT.loadReq .gen .w32 (.v 5) ⟨src 6, 0⟩ with acq := some .dev } &&
      sT.admits { sT.storeReq .gen .w32 (sT.srcData (src 6) (src 2) .w32) ⟨src 6, 0⟩ with rel := some .dev }) = true ∧
    (s0.admits (s0.loadReq .loc .w64 (.v 5) ⟨src 6, 8⟩) && s0.admits (s0.loadReq .clu .u8 (.v 5) ⟨src 6, 3⟩) &&
      s0.admits { s0.loadReq .loc .w32 (.k 1) ⟨src 6, 0⟩ with uni := true } && free s0 (.ldUni .loc .w32 (.k 1) (src 6) 0) &&
      s0.admits (s0.storeReq .loc .w128 (s0.regData 4 .w128) ⟨src 6, 0⟩) &&
      s0.admits (s0.storeReq .clu .s16 (s0.regData 4 .s16) ⟨src 6, 2⟩)) = true ∧
    s0.holdTime false (src 12) = some 0 ∧
    (s0.admits { s0.loadReq .loc .w32 (.v 5) ⟨src 6, 0⟩ with held := some 0 } &&
      s0.admits { s0.storeReq .loc .w32 (s0.regData 2 .w32) ⟨src 6, 0⟩ with held := some 0 }) = true ∧
    (let s := withG s0 (vU 12 0x800000)
     s.holdTime false (src 12) = none ∧ s.clear (.ldNb .loc .w32 false (.v 5) (src 6) (src 12)) = true ∧
     s.clear (.stVa .loc .w32 false 2 (src 6) (src 12)) = true) ∧
    (Dst.k 1).isK = true ∧ s0.clear (.ld .w32 (.k 1) (src 6) 0) = true ∧
    s0.clear (.ldNb .loc .w32 false (.k 1) (src 6) (src 12)) = true := by decide

theorem witness_Atomics :
    (s0.admits { s0.loadReq .loc .w32 (.v 3) ⟨src 6, 0⟩ with
      kind := .atomic .add, data := fun i => ((s0.rd2 (src 6) (src 4)).vals.get i).toNat, cmp := fun _ => 0,
      zeroOld := false, family := false } && free s0 (.atoms .add (.v 3) (src 6) (src 4) ⟨0, false⟩)) = true ∧
    (sT.admits { sT.loadReq .gen .w32 (.v 3) ⟨src 6, 0⟩ with
      kind := .atomic .cas, data := fun i => ((sT.rd2 (src 6) (src 4)).vals.get i).toNat, cmp := fun _ => 0,
      zeroOld := false, family := false } && free sT (.atom .cas (.v 3) (src 6) (src 4) ⟨8, false⟩)) = true ∧
    (let s := withG (placedTables s0) (vA 6 0 16)
     s.admits { s.storeReq .gen .w128 (fun i => (anchored (-16) ((s.rd2 (src 6) (src 2)).vals.get i)).1) ⟨src 6, 0⟩ with
       kind := .asum, family := false } = true ∧ free s (.asum (src 6) (src 2) (-16)) = true) ∧
    checkedPa ((lanesOf sT.mask).map fun i =>
      (i, sT.prefetchLane 0 i (sT.addrOf .gen ⟨src 6, 0⟩ 4 i) sT.priv sT.choice)) = none ∧ free sT (.pfet (src 6) 0) = true := by
  decide

/-- A store of the 32 lanes under way, every second word of two lines, and a load. -/
def sStore : State := after (.st .w32 2 (src 6) 0) (withG sT (vA 6 0 8))
def sLoad : State := after (.ld .w32 (.v 5) (src 6) 0) sT

theorem witness_AccessFrame :
    (let r := sT.reach (sT.storeReq .gen .w32 (sT.regData 2 .w32) ⟨src 6, 0⟩)
     (∀ x ∈ r, x.2.plain = true) ∧ r ≠ []) ∧
    (let r := s0.reach (s0.loadReq .loc .w32 (.v 5) ⟨src 6, 0⟩)
     (∀ x ∈ r, x.2.plain = true) ∧ r ≠ []) := by decide

theorem witness_StoreFrame :
    sStore.memOk = true ∧
    (((sStore.group 0).access? 0).any fun a =>
      a.kind.writes && a.held.isNone && sStore.mayPerform 0 0 a (a.closure (List.range 32)) &&
        (sStore.failedIn a.kind ((a.closure (List.range 32)).filterMap fun i => a.parts[i]?)).isNone &&
        decide (a.closure [3] = [3]) && (a.parts[3]?).any (fun p => decide (p.loc = .phys 24) &&
          (sStore.failedIn a.kind [p]).isNone) && sStore.mayPerform 0 0 a [3]) = true := by decide

theorem witness_LoadedLanes :
    sLoad.replicas = [] ∧ sLoad.oracle = [] ∧ sLoad.slotsUsed (sLoad.coreOf 0) + 4 ≤ bankSlots ∧
    (sLoad.core (sLoad.coreOf 0)).requester = none ∧
    (((sLoad.group 0).access? 0).any fun a =>
      decide (a.kind = .load) && a.held.isNone && !a.uni && decide (a.zeroMask = 0) && decide (a.ended = 0) && decide (a.late = 0) &&
        decide (a.dest = some (.v 5)) && decide (a.width.regs = 1) &&
        decide ((a.parts.map fun p => (p.lane, p.sub, p.size, p.loc)) =
          ((lanesOf a.mask).map fun i => (i, 0, a.width.bytes, Loc.phys (4 * i)))) &&
        (a.parts.all fun p => !p.performed && !p.dropped && !p.logged) &&
        sLoad.mayPerform 0 0 a (List.range a.parts.length) && (sLoad.failedIn .load a.parts).isNone) = true := by decide

theorem witness_FencesTimeAndWindows :
    s0.propagated 0 = true ∧ free s0 (.fence .full .dev) = true ∧ free sLoad (.fence .acq .sys) = true ∧
    (let s := withG { sT with replicas := [⟨1, 0, [], true, true, [⟨0, 0, fullMask, false, false⟩]⟩] } fun g => { g with seq := 1 }
     s.propagated 0 = false ∧ s.clear (.fence .full .sys) = true) ∧
    (let s := after (.ld .w32 (.v 5) (src 6) 8) (after (.fence .full .sys) sStore)
     (((s.group 0).access? 6).any fun x => ((s.group 0).access? 0).any fun e =>
       (s.group 0).fences.any fun f => decide (f.scope = .sys) && decide (0 < f.key) && decide (f.key < 6) &&
         f.between e.mask 0 6 x && f.kinds e.kind.reads x && e.held.isNone && e.open_ && poBefore e.mask 0 x.mask x.past) = true) ∧
    s0.timeOperand true (src 3) ≤ s0.gtime 0 ∧
    (let s := withG s0 (vU 3 5)
     s.gtime 0 < s.timeOperand true (src 3) ∧ s.clear (.twait true (src 3)) = true) ∧
    (let s := withG s0 (waits (.twait 0))
     s.sp.wait = some (.twait 0) ∧ (0 : DWord) ≤ s.reading.gtime 0 ∧ s.goesOn (.twait true (src 3)) = true ∧
     s.ample (.twait true (src 3)) = true) ∧
    CastTo.generic .loc = false ∧ CastTo.generic .scr = true ∧ free s0 (.spcast .loc .scr (.v 10) (src 6)) = true := by decide

/-- A team with region 2 mapped: one line at offset 256, DIRTY, of global line 8. -/
def sRegion : State := sT.setTeam 0 { sT.team 0 with regions := [(2, ⟨256, 1, 1024, 0, [(0, .dirty)]⟩)] }

theorem witness_MappedRegions :
    s0.mapCause 0 128 0 = none ∧ free s0 (.rmap 8 (src 9) (src 10) ⟨12, false⟩) = true ∧
    s0.mapCause 64 128 0 ≠ none ∧
    (let s := withG s0 (vU 9 64)
     s.clear (.rmap 8 (src 9) (src 10) ⟨12, false⟩) = true) ∧
    s0.sp.wait = none ∧ (s0.team 0).region? 1 = none ∧ sRegion.sp.wait = none ∧ sRegion.quiet 0 = true ∧
    (((sRegion.team 0).region? 2).any fun r => !r.dirty.isEmpty && r.dirty.all fun l =>
      (match sRegion.backLine 0 r l sRegion.priv sRegion.choice with
       | (.ok pa _ _, _) =>
         !sRegion.denied 0 pa ⟨0, 0, 128, .write, .gen, false, false, false⟩ sRegion.priv && sRegion.backOpen 0 pa
       | _ => false) && !sRegion.escapes 0 (r.glob + 128 * l) 128) = true := by decide

/-- A copy descriptor of 48 bytes in the team region that copies 16 bytes. -/
def sDesc : State :=
  s0.setTeam 0 { s0.team 0 with scratch := Memory.put [] 0 (bytesOf 8 0x100 ++ bytesOf 8 0x200 ++ bytesOf 8 16 ++ bytesOf 4 0xFFFFFFFF) }

def descBytes32 : List Byte := bytesOf 8 0x100 ++ bytesOf 8 0x200 ++ bytesOf 8 16 ++ bytesOf 4 0xFFFFFFFF ++ bytesOf 4 0

/-- The places of its first 32 bytes. -/
def descTargets : List Target := [0, 16].map fun o => ⟨[(0, 16, .scr 0 o)], Trail.none, [], false, false⟩

theorem witness_CopyInstructions :
    (sDesc.inRegion 0 32 16 ∧
      (∀ k : List Byte → List Target → Except Stop (State → State), sDesc.openLocal 0 32 k =
        (k descBytes32 descTargets).map fun f u => f (descTargets.foldl (fun u t => u.noteOwn .read t) u)) ∧
      badCopy true descBytes32 = false ∧
      (let c := copyOf true descBytes32 sDesc
       worstAt (sDesc.baseCauses c.sbase ++ sDesc.baseCauses c.dbase ++ sDesc.barCauses c.bar) = none ∧
       (windowOf c.dbase = .glob → sDesc.escapes 0 c.dbase.toNat 1 = false)) ∧ sDesc.g.copies.length < 16) ∧
    s0.sp.wait = none ∧ s0.g.batchDone s0.g.lastClosed = true ∧ s0.g.copyFails = [] ∧
    (let s := withG s0 fun g => { g with copies := [(0, oneCopy)], batchOpen := 2 }
     s.g.batchDone s.g.lastClosed = false ∧ s.clear (.cwait true (src 0)) = true) ∧
    (let s := withG s0 (waits (.cwait 0))
     s.sp.wait = some (.cwait 0) ∧ s.reading.g.batchDone 0 = true ∧ s.reading.g.copyFails = [] ∧
     s.goesOn (.cwait true (src 0)) = true) ∧
    s0.clear (.cpyFeed 2 (src 9)) = true := by
  refine ⟨⟨⟨by decide, by decide, by decide⟩, fun k => ?_, by decide, by decide, by decide⟩, by decide, by decide, by decide, by decide, by decide,
    by decide⟩
  show Except.map _ (Except.map _ (k descBytes32 descTargets)) = _
  cases k descBytes32 descTargets <;> rfl

/-- The same region with its line INVALID. -/
def sInvalid : State := sT.setTeam 0 { sT.team 0 with regions := [(2, ⟨256, 1, 1024, 0, []⟩)] }

theorem witness_BarrierInstructions :
    (let x : Bar := ⟨5, 5, 2, 2, false, true, false⟩
     x.arra = x.expa ∧ x.arrb = x.expb) ∧
    (let x : Bar := ⟨5, 4, 2, 2, false, true, false⟩
     x.arra ≠ x.expa ∨ x.arrb ≠ x.expb) ∧
    (∃ t, s0.reaches .loc 0 16 .atomic t ∧ s0.reaches (barForm true) 0 16 .atomic t) ∧
    (∃ t, s0.reaches .loc 0 16 .read t ∧ t.fills = [] ∧ ((s0.leaveTarget t).barAt t).phase ≠ ((1 : Word) &&& 1).getLsbD 0 ∧
      ((s0.leaveTarget t).barAt t).phase = ((0 : Word) &&& 1).getLsbD 0) ∧
    (∃ t, sInvalid.reaches .loc 256 16 .read t ∧ t.fills ≠ [] ∧
      ((sInvalid.leaveTarget t).barAt t).phase = ((0 : Word) &&& 1).getLsbD 0) ∧
    (s0.rdv 11).u &&& 1 = 0 ∧ s0.clear (.barw 11 (src 9)) = true ∧
    (let s := withG s0 (vU 11 1)
     (s.rdv 11).u &&& 1 = 1 ∧ free s (.barw 11 (src 9)) = true) ∧
    (s0.settled 0 && s0.noStale 0) = true ∧
    (∃ t, s0.checkLane 0 ⟨0, ({ oneCopy with bar := 0 } : Copy).bar.setWidth 64, 16, .atomic, .clu, false, false, true⟩ false false =
      .ok t ∧ s0.engMay 0 .asum t = true ∧ s0.copyLags 0 oneCopy = false ∧ s0.copyBytes 0 oneCopy false = .ok (some 4)) ∧
    (let s := withG s0 (waits (.barw 0 1))
     s.sp.wait = some (.barw 0 1) ∧ s.goesOn (.barw 11 (src 9)) = true ∧ s.ample (.barw 11 (src 9)) = true ∧
     s.reading.g.logClash .loc 0 16 = false ∧
     ∃ t, s.reading.checkLane 0 ⟨0, (0 : Word).setWidth 64, 16, .read, .loc, false, false, true⟩ s.reading.priv
         s.reading.choice = .ok t ∧ s.reading.clearOf .read t = true ∧
       ((s.reading.leaveTarget t).barAt t).phase ≠ (1 : Word).getLsbD 0) := by
  refine ⟨by decide, by decide, ⟨_, ⟨by decide, rfl, by decide⟩, ⟨by decide, rfl, by decide⟩⟩,
    ⟨_, ⟨by decide, rfl, by decide⟩, by decide, by decide, by decide⟩,
    ⟨_, ⟨by decide, rfl, by decide⟩, by decide, by decide⟩,
    by decide, by decide, by decide, by decide, ⟨_, rfl, by decide, by decide, rfl⟩,
    by decide, by decide, by decide, by decide, _, rfl, by decide, by decide⟩

theorem witness_BarrierObject :
    (let b : Bar := ⟨2 ^ 32 - 1, 2 ^ 32 - 8, 65535, 65535, true, false, true⟩
     b.expb < 2 ^ 32 ∧ b.arrb < 2 ^ 32 ∧ b.expa < 65536 ∧ b.arra < 65536 ∧ b.expa ≤ b.arra ∧ b.expb + 0 < 2 ^ 32 ∧
     2 ^ 32 ≤ b.expb + 1 ∧ b.arrb + 7 < 2 ^ 32 ∧ 2 ^ 32 ≤ b.arrb + 8) ∧
    (let b : Bar := ⟨0, 0, 65534, 65535, false, false, false⟩
     b.arra < b.expa) := by decide

theorem witness_AccessEngine :
    (s0.rdPair (src 20) 0).toNat % 16 = 0 ∧
    (let s := withG s0 (vU 20 8)
     (s.rdPair (src 20) 0).toNat % 16 ≠ 0 ∧ s.clear (.astart (src 20) 2) = true) ∧
    (s0.group 0).copy? 3 = none ∧
    (let s := withG s0 fun g => { g with copies := [(3, oneCopy)] }
     (s.group 0).copy? 3 = some oneCopy ∧ s.chosen.copyMay 0 oneCopy = true ∧ oneCopy.linear = true ∧ oneCopy.aborted = false) ∧
    (let c := { oneCopy with faulted := true }
     let s := withG s0 fun g => { g with copies := [(3, c)] }
     (s.group 0).copy? 3 = some c ∧ s.chosen.copyMay 0 c = false) ∧
    (let s := withG s0 fun g => { g with slice := { Slice.initial with st := .running } }
     (s.group 0).live = true ∧ (s.group 0).bank = .live ∧ (s.group 0).slice.st = .running ∧
       (s.group 0).halted = false ∧ (s.group 0).slice.faulted = false ∧ (s.group 0).slice.aborted = false ∧
       s.sliceOrdered 0 = true ∧ s.chosen.sliceBefore 0 = []) ∧
    (s0.group 0).slice.st ≠ .running := by decide


/-- A state whose team 0 holds four BF16 macros from macro 4 on. -/
def sMacros : State :=
  s0.setTeam 0 { s0.team 0 with macros := (List.range 4).map fun k => (4 + k, ⟨[], .bf16, none⟩) }

/-- MX of core 0 is busy. -/
def busy (s : State) : State := s.setCore 0 { s.core 0 with mx := some (s.newJob (.qzero 0 1) 0) }

theorem witness_MatrixIssue :
    (let s := busy s0
     s.mxFree = false ∧ s.clear (.wld .s8 0 (src 8) 2) = true ∧ s.clear (.qzero 0 2) = true) ∧
    s0.mxFree = true ∧
    s0.macrosOk 31 2 = false ∧ s0.clear (.wld .s8 31 (src 8) 2) = true ∧
    s0.tilesOk 7 2 = false ∧ s0.clear (.qzero 7 2) = true ∧
    s0.badLadder ⟨.s8s4, false, false, false, 0, 0, 1, 0⟩ (src 9) = true ∧
    s0.clear (.mmr .s8s4 false 0 0 1 (src 9) 0) = true ∧
    s0.macrosOk 30 2 = true ∧ s0.inRegion ((s0.rd (src 8)).u.setWidth 64) (8192 * 2) 16 ∧
    free s0 (.wld .s8 30 (src 8) 2) = true ∧
    s0.badLadder ⟨.s8s8, false, false, false, 0, 0, 1, 0⟩ (src 9) = false ∧
    s0.rowsInRegion ((s0.rd (src 9)).u.setWidth 64) MPair.s8s8.rowBytes ∧
    free s0 (.mmr .s8s8 false 0 0 1 (src 9) 0) = true ∧
    sMacros.mxFree = true ∧ sMacros.macrosOk 4 (2 * MFmt.bf16.perTile) = true ∧ sMacros.tilesOk 2 2 = true ∧
    (∀ k, k < 2 * MFmt.bf16.perTile → (sMacros.macroOf sMacros.cur.group (4 + k)).tag = MFmt.bf16.tag) ∧
    (∀ k, k < 2 → (sMacros.g.tile (2 + k)).st = .empty) ∧
    sMacros.rowsInRegion ((sMacros.rd (src 10)).u.setWidth 64) (128 * MFmt.bf16.bytes) ∧
    free sMacros (.mmf .bf16 2 2 4 (src 10)) = true ∧
    s0.tilesOk 6 2 = true ∧ free s0 (.qzero 6 2) = true ∧
    s0.tilesOk 7 1 = true ∧ s0.inRegion ((s0.rd (src 12)).u.setWidth 64) (ScaleT.colG64.count * 2) 2 ∧
    free s0 (.qscale true .colG64 7 (src 12)) = true ∧
    s0.inRegion ((s0.rd (src 20)).u.setWidth 64) (imageBytes * 2) 64 ∧ free s0 (.qsave (src 20) 0 2) = true ∧
    free s0 (.qstat (.v 5) 7) = true := by
  refine ⟨by decide, by decide, by decide, by decide, by decide, by decide, by decide, by decide, by decide,
    ⟨by decide, by decide, by decide⟩, by decide, by decide, ⟨by decide, by decide, by decide⟩, by decide, by decide, by decide,
    by decide, by decide, by decide, ⟨by decide, by decide, by decide⟩, by decide, by decide, by decide, by decide,
    ⟨by decide, by decide, by decide⟩, by decide, ⟨by decide, by decide, by decide⟩, by decide, by decide⟩

/-- An MMC's descriptor at 0x100, and its record at 0x1000: one affine dimension of four bytes, from 0x2000 on; one lane
executes. -/
def sConv : State :=
  let u := 0xF800000000000000
  let bytes := bytesOf 8 (u + 0x2000) ++ bytesOf 8 (u + 0x1000)
  let record := bytesOf 8 0x0101 ++ bytesOf 8 4
  let dim := bytesOf 4 4 ++ bytesOf 4 0 ++ bytesOf 8 1
  let mem := Memory.put (Memory.put (Memory.put (Memory.put [] 0x100 bytes) 0x1000 record) 0x1040 dim) 0x2000 [1, 2, 3, 4]
  let s := s0.setTeam 0 { s0.team 0 with scratch := mem }
  withG s fun g => { vU 11 0x100 g with splits := [{ Split.initial 0 with mask := 1 }] }

/-- One lane, with tables that map addresses below 1 GiB to themselves. -/
def sOne : State := withG (placedTables s0) fun g => { g with splits := [{ Split.initial 0 with mask := 1 }] }

theorem fieldAt_zeros (o n : Nat) (h : o + n ≤ imageBytes) : fieldAt (List.replicate imageBytes 0) o n = 0 := by
  have e : (List.drop o (List.replicate imageBytes (0 : Byte))).take n = List.replicate n 0 := by
    simp only [List.drop_replicate, List.take_replicate]
    congr 1
    omega
  rw [fieldAt, e]
  clear e h
  induction n with
  | zero => rfl
  | succ n h => simp_all [List.replicate_succ, natOfBytes]

theorem tile_of_zeros : (tileOfImage (List.replicate imageBytes 0)).isSome = true := by
  unfold tileOfImage
  rw [fieldAt_zeros _ 4 (by decide), fieldAt_zeros _ 4 (by decide), fieldAt_zeros _ 4 (by decide), fieldAt_zeros _ 52 (by decide)]
  rfl

theorem bytes_nil (a n : Nat) : Memory.bytes [] a n = List.replicate n 0 := by
  induction n generalizing a with
  | zero => rfl
  | succ n h => simp [Memory.bytes, List.replicate_succ, h, Memory.get, Memory.blank]

theorem witness_MatrixIssueReads :
    (let b := (sConv.rd (src 11)).u.setWidth 64
     let bytes := fun (u : State) => Memory.bytes (u.team 0).scratch b.toNat 32
     sConv.mxFree = true ∧ sConv.sp.wait = none ∧
     sConv.badLadder ⟨.s8s8, false, false, true, 0, 0, 1, 0⟩ (src 11) = false ∧ sConv.inRegion b 32 16 ∧
     sConv.settled 0 = true ∧ sConv.homeOpen 0 .load false (.scr 0 b.toNat) 32 = true ∧
     (match sConv.fillRange 0 b.toNat 32 sConv.priv sConv.choice with
      | .ok u =>
        (match (u.convRows 0 sConv.priv sConv.choice (bytes u) false sConv.mask).2 with
         | .ok rows => rows.all fun e => match e.2 with
           | .ok row => row.take 5 == [1, 2, 3, 4, 0]
           | .error _ => false
         | .error _ => false)
      | .error _ => false) = true ∧ free sConv (.mmc .s8s8 false 0 0 1 (src 11) 0) = true) ∧
    (let b := (s0.rd (src 20)).u.setWidth 64
     s0.mxFree = true ∧ s0.sp.wait = none ∧ s0.tilesOk 7 1 = true ∧ s0.inRegion b (imageBytes * 1) 64 ∧ s0.settled 0 = true ∧
     s0.homeOpen 0 .load false (.scr 0 b.toNat) (imageBytes * 1) = true ∧
     ∃ u, s0.fillRange 0 b.toNat (imageBytes * 1) s0.priv s0.choice = .ok u ∧
       (∀ k, k < 1 → (tileOfImage (((Memory.bytes (u.team 0).scratch b.toNat (imageBytes * 1)).drop (imageBytes * k)).take
         imageBytes)).isSome = true) ∧ free s0 (.qload (src 20) 7 1) = true) ∧
    (let d : Drain := ⟨.f32, .dflt, true, 0, 1, sOne.rdPair (src 20) 0, (sOne.rdv 2).u⟩
     sOne.mxFree = true ∧ sOne.sp.wait = none ∧ sOne.tilesOk 0 1 = true ∧ (∀ k, k < 1 → (sOne.g.tile (0 + k)).st = .empty) ∧
     (((lanesOf sOne.mask).map fun i => (i, sOne.drainRow 0 d sOne.priv sOne.choice i)).all fun row => row.2.all fun e =>
       e.2.2.2.good && !sOne.g.logClash .gen e.2.2.1 DFmt.f32.bytes) = true ∧
     free sOne (.qdrain .f32 .dflt true (src 20) 0 1 2) = true) := by
  refine ⟨⟨by decide, by decide, by decide, ⟨by decide, by decide, by decide⟩, by decide, by decide, by decide, by decide⟩,
    ⟨by decide, by decide, by decide, ⟨by decide, by decide, by decide⟩, by decide, by decide, s0, ?_, ?_, by decide⟩,
    by decide, by decide, by decide, by decide, by decide, by decide⟩
  · show s0.fillRange 0 _ _ s0.priv s0.choice = .ok s0
    unfold State.fillRange
    generalize lineStarts _ _ = l
    induction l with
    | nil => rfl
    | cons x l h => exact h
  · intro k hk
    obtain rfl : k = 0 := by omega
    have : (s0.team 0).scratch = [] := by decide
    rw [this, bytes_nil, Nat.mul_one, Nat.mul_zero, List.drop_zero, List.take_of_length_le (by simp)]
    exact tile_of_zeros


theorem witness_LadderIsExact :
    (0 < 8 ∧ 3 ≤ 8 ∧ 255 < 2 ^ 8 ∧ (∀ x ∈ [255, 128, 127], x < 2 ^ 8) ∧ [255, 128, 127].length = [(-128 : Int), 127, 5].length ∧
      [255, 128, 127].length ≤ 128 ∧ (∀ y ∈ [(-128 : Int), 127, 5], y.natAbs ≤ 128)) ∧
    (2097152 : Int).natAbs ≤ 2097152 ∧ (-2097152 : Int).natAbs ≤ 2097152 := by decide

/-- MX of core 0 holds a job. -/
def withJob (i : Instr) (started : Bool) : State :=
  s0.setCore 0 { s0.core 0 with mx := some { s0.newJob i 0 with started := started } }

theorem witness_MatrixEvents :
    (let j := s0.newJob (.wld .s8 0 (src 8) 1) 0
     let s := withJob j.instr false
     (s.core s.site).mx = some j ∧ j.started = false ∧ j.waiting = false ∧ (j.touches = true → s.earlierDone j = true ∧ s.jobOpen j = true)) ∧
    (let j := s0.newJob (.qzero 0 1) 0
     let s := withG s0 fun g => { g with suspended := some j }
     (s.core s.site).mx = none ∧ s.suspendedOn s.site = some 0 ∧ (s.group 0).suspended = some j) ∧
    (let j := { s0.newJob (.qzero 0 1) 0 with started := true }
     let s := withJob j.instr true
     (s.core s.site).mx = some j ∧ j.started = true ∧ j.waiting = false ∧
     (j.touchesLast = true → s.jobOpen j = true) ∧ j.drain? = none ∧ s.statStop j = none ∧ j.instr = .qzero 0 1) ∧
    (let j := { s0.newJob (.qdrain .f32 .dflt true (src 20) 0 1 2) 0 with started := true }
     let s := withJob j.instr true
     (s.core s.site).mx = some j ∧ j.started = true ∧ j.waiting = false ∧
     j.drain? = some ⟨.f32, .dflt, true, 0, 1, 0, 0⟩) ∧
    (s0.core s0.site).mx = none ∧
    (let x : Lad := ⟨.s8s8, false, true, false, 0, 0, 1, 0⟩
     let j := s0.newJob (.mmrHold .s8s8 false 0 0 1 (src 9) 0) 0
     j.instr.lad? = some x ∧ x.hold = true ∧ (x.set.map (·.1)).contains 0 = true) ∧
    (let x : Lad := ⟨.s8s8, false, false, false, 0, 0, 1, 0⟩
     let j := s0.newJob (.mmr .s8s8 false 0 0 1 (src 9) 0) 0
     j.instr.lad? = some x ∧ x.hold = false ∧ (x.set.map (·.1)).contains 0 = true) ∧
    (s0.newJob (.wld .s8 0 (src 8) 1) 0).instr = .wld .s8 0 (src 8) 1 ∧
    (s0.newJob (.qscale true .colG64 3 (src 12)) 0).instr = .qscale true .colG64 3 (src 12) := by decide

/-- A record at 0x1000 that handle 0 produces, handle 1 reads final and handle 2 early from quality 5 on: its STATUS, its
last pass, its open pass, and the pin counts of its two slots. -/
def sObj (st : Status) (pass opn p0 p1 : Nat) : State :=
  let m := bytesOf 4 st.toNat ++ bytesOf 4 pass
  let s := (placedTables s0).placeBytes 0x1000 m
  let s := ((s.placeBytes 0x1018 (bytesOf 4 128)).placeBytes 0x1028 (bytesOf 4 opn)).placeBytes 0x1030
    (bytesOf 4 p0 ++ bytesOf 4 p1)
  s.setLaunch 0 { s.launch 0 with
    desc := { placedRec with handles := [.produced 2 128, .final, .early 5], hrec := [0x1000, 0x1000, 0x1000] } }

/-- STATUS of a record without a version, with an open pass or without one. -/
def fresh (opn : Bool) : Status := ⟨0, true, opn, 0, 0, 0, 0⟩

/-- The split's registers for the version instructions: v6, a pass or a quality, and v7. -/
def ops (a b : Word) (s : State) : State := withG s fun g => vU 6 a (vU 7 b g)

theorem witness_Passes :
    (let s := ops 1 0 (sObj (fresh false) 0 0 0 0)
     s.sp.wait = none ∧ (s.handle 0).produces = true ∧ (s.rd (src 6)).u ≠ 0 ∧ (∃ tr, s.recordAt 0 .atomic 0x1000 tr) ∧
     (s.vrec 0x1000).begin 1 = .opens 0 ∧ free s (.vbegin 0 (src 6)) = true) ∧
    (let s := ops 1 0 (sObj (fresh true) 0 1 0 0)
     s.sp.wait = none ∧ (s.handle 0).produces = true ∧ (s.rd (src 6)).u ≠ 0 ∧ (∃ tr, s.recordAt 0 .atomic 0x1000 tr) ∧
     (s.vrec 0x1000).begin 1 = .join ∧ free s (.vbegin 0 (src 6)) = true) ∧
    (let s := ops 2 0 (sObj (fresh true) 0 1 0 0)
     s.sp.wait = none ∧ (s.handle 0).produces = true ∧ (s.rd (src 6)).u ≠ 0 ∧ (∃ tr, s.recordAt 0 .atomic 0x1000 tr) ∧
     (s.vrec 0x1000).begin 2 = .wait ∧ s.clear (.vbegin 0 (src 6)) = true) ∧
    (let s := ops 3 0 (sObj ⟨9, true, false, 0, 0, 1, 1⟩ 3 0 0 0)
     s.sp.wait = none ∧ (s.handle 0).produces = true ∧ (s.rd (src 6)).u ≠ 0 ∧ (∃ tr, s.recordAt 0 .atomic 0x1000 tr) ∧
     (s.vrec 0x1000).begin 3 = .order ∧ s.clear (.vbegin 0 (src 6)) = true) ∧
    (let s := sObj (fresh false) 0 0 0 0
     s.sp.wait = none ∧ (s.handle 0).produces = true ∧ (s.rd (src 6)).u = 0 ∧ s.clear (.vbegin 0 (src 6)) = true ∧
     (∃ tr, s.recordAt 0 .read 0x1000 tr) ∧ free s (.vslot true 10 0) = true) := by
  refine ⟨⟨by decide, by decide, by decide, ⟨_, ⟨_, _, rfl⟩, ?_⟩, by decide, by decide⟩,
    ⟨by decide, by decide, by decide, ⟨_, ⟨_, _, rfl⟩, ?_⟩, by decide, by decide⟩,
    ⟨by decide, by decide, by decide, ⟨_, ⟨_, _, rfl⟩, ?_⟩, by decide, by decide⟩,
    ⟨by decide, by decide, by decide, ⟨_, ⟨_, _, rfl⟩, ?_⟩, by decide, by decide⟩,
    by decide, by decide, by decide, by decide, ⟨_, ⟨_, _, rfl⟩, ?_⟩, by decide⟩ <;> decide

theorem witness_Seals :
    (let s := ops 1 7 (sObj (fresh true) 0 1 0 0)
     s.sp.wait = none ∧ (s.handle 0).produces = true ∧ (s.rd (src 6)).u ≠ 0 ∧ (∃ tr, s.recordAt 0 .atomic 0x1000 tr) ∧
     (s.vrec 0x1000).st.opn = true ∧ (s.rd (src 6)).u.toNat = (s.vrec 0x1000).openPass ∧ (s.launch 0).seals = [] ∧
     (s.vrec 0x1000).st.quality ≤ min (s.rdv 7).u.toNat 65535 ∧ s.quiet 0 = true ∧ s.noStale 0 = true ∧
     free s (.vseal 0 (src 6) 7) = true ∧ free s (.vsealFinal 0 (src 6) 7) = true) ∧
    (let s := ops 1 7 (sObj ⟨9, true, true, 0, 0, 1, 1⟩ 0 1 0 0)
     s.sp.wait = none ∧ (s.handle 0).produces = true ∧ (s.rd (src 6)).u ≠ 0 ∧ (∃ tr, s.recordAt 0 .atomic 0x1000 tr) ∧
     min (s.rdv 7).u.toNat 65535 < (s.vrec 0x1000).st.quality ∧ s.clear (.vseal 0 (src 6) 7) = true) := by
  refine ⟨⟨by decide, by decide, by decide, ⟨_, ⟨_, _, rfl⟩, ?_⟩, by decide, by decide, by decide, by decide, by decide, by decide,
    by decide, by decide⟩, by decide, by decide, by decide, ⟨_, ⟨_, _, rfl⟩, ?_⟩, by decide, by decide⟩ <;> decide

theorem witness_Readers :
    (let v : VRec := ⟨⟨5, false, false, 0, 0, 1, 2⟩, 4, 128, 0, []⟩
     v.st.st = 2 ∨ v.st.st = 3) ∧
    (let v : VRec := ⟨⟨5, true, false, 0, 0, 1, 1⟩, 4, 128, 0, []⟩
     v.st.st = 1 ∧ max 3 5 ≤ v.st.quality) ∧
    (let v : VRec := ⟨fresh true, 0, 128, 1, []⟩
     v.st.st = 0 ∨ 4 ≤ v.st.st) ∧
    (let s := ops 3 0 (sObj ⟨9, true, false, 0, 0, 1, 1⟩ 3 0 0 0)
     s.sp.wait = none ∧ (s.handle 2).reads = true ∧ (∃ tr, s.recordAt 2 .atomic 0x1000 tr) ∧
     (s.g.pins.has 2 = true → s.readsDone 0 = true) ∧ free s (.vpin 12 2 (src 6)) = true ∧ s.quiet 0 = true ∧
     s.noStale 0 = true ∧ free s (.vunpin 2) = true ∧ (∃ tr, s.recordAt 2 .read 0x1000 tr) ∧
     (s.vrec 0x1000).qualifies (s.handle 2).minimum (s.rd (src 6)).u.toNat = true ∧
     free s (.vwait 5 2 (src 6) none) = true ∧ s.handle 0 ≠ .undeclared ∧ free s (.vstat (.v 9) 0 3) = true) ∧
    (let s := ops 3 0 (sObj ⟨9, true, false, 0, 0, 1, 1⟩ 3 0 0 0)
     s.sp.wait = none ∧ (s.handle 1).reads = true ∧ (∃ tr, s.recordAt 1 .read 0x1000 tr) ∧
     (decide (2 ≤ (s.vrec 0x1000).st.st) ||
       (s.vrec 0x1000).qualifies (s.handle 1).minimum (s.rd (src 6)).u.toNat) = false ∧
     s.clear (.vwait 5 1 (src 6) none) = true) := by
  refine ⟨by decide, by decide, by decide, ⟨by decide, by decide, ⟨_, ⟨_, _, rfl⟩, ?_⟩, by decide, by decide, by decide, by decide,
    by decide, ⟨_, ⟨_, _, rfl⟩, ?_⟩, by decide, by decide, by decide, by decide⟩, by decide, by decide, ⟨_, ⟨_, _, rfl⟩, ?_⟩, by decide,
    by decide⟩ <;> decide

theorem witness_PassRules :
    (⟨⟨9, true, false, 0, 0, 0, 1⟩, 3, 128, 0, [1, 0]⟩ : VRec).begin 4 = .opens 1 ∧
    (⟨fresh true, 0, 128, 5, []⟩ : VRec).begin 5 = .join ∧
    ((⟨⟨9, true, false, 0, 0, 0, 1⟩, 3, 128, 0, []⟩ : VRec).st.st = 2 ∨ 3 ≤ 3) ∧
    (let s := sObj (fresh false) 0 0 0 0
     (s.handle 1).produces = false ∧
     (∀ i ∈ [Instr.vbegin 1 (src 6), .vslot true 10 1, .vseal 1 (src 6) 7, .vsealFinal 1 (src 6) 7], s.clear i = true) ∧
     (s.handle 0).reads = false ∧
     (∀ i ∈ [Instr.vpin 12 0 (src 6), .vunpin 0, .vwait 5 0 (src 6) none], s.clear i = true) ∧
     s.handle 7 = .undeclared ∧ s.clear (.vstat (.v 9) 7 0) = true) := by decide

theorem witness_LaunchInstructions :
    (let b := (s0.rd (src 12)).u.setWidth 64
     s0.sp.wait = none ∧ s0.inRegion b 256 64 ∧ s0.settled 0 = true ∧
     s0.homeOpen 0 .load false (.scr 0 b.toNat) 256 = true ∧ s0.noStale 0 = true ∧
     ∃ u, s0.fillRange 0 b.toNat 256 s0.priv s0.choice = .ok u ∧
       s0.foreignObject 0 (Memory.bytes (u.team 0).scratch b.toNat 256) = false ∧ free s0 (.launch 4 (src 12)) = true) ∧
    (let s := withG s0 fun g => vU 6 1 { g with children := [(0, 7)] }
     (∀ n ∈ slotsOf (s.rdPair (src 6) 0), s.childEnded 0 n = true) ∧ free s (.join 10 (src 6)) = true ∧
     (let t := s.setLaunch 7 { s.launch 7 with ended := false }
      (∃ n ∈ slotsOf (t.rdPair (src 6) 0), t.childEnded 0 n = false) ∧ t.clear (.join 10 (src 6)) = true) ∧
     (let t := withG s fun g => waits (.join 1) g
      t.sp.wait = some (.join 1) ∧ (∀ n ∈ slotsOf 1, t.reading.childEnded 0 n = true) ∧ t.goesOn (.join 10 (src 6)) = true ∧
      t.ample (.join 10 (src 6)) = true)) := by
  refine ⟨⟨by decide, ⟨by decide, by decide, by decide⟩, by decide, by decide, by decide, _, rfl, by decide, by decide⟩, by decide⟩


theorem witness_ResetState : (5 : Nat) < 32 := by decide

theorem witness_RoundTrip :
    (Instr.iadd (.v 3) (src 2) (src 4)).wf = true ∧ (Instr.iadd (.v 3) (src 2) (src 4)).isSlot = true ∧
    (Instr.rfet 10 11).wf = true ∧ (Instr.rfet 10 11).isFront = true := by decide

/-- A state in which the next step fetches the slot word `w`. -/
def placed (w : Nat) : State := State.reset.withFetchWord 40 w

/-- The split of a placed program. -/
def sp0 (s : State) : Split := (s.group 0).split 0

/-- What a core's turn that enters a bundle needs: the group and the split are next, and the unit has the members. -/
def enters (s : State) (p : IssueUnit → Bool) : Bool :=
  let x := sp0 s
  let t := s.chosenGroup 0 0 x
  s.agenda.isEmpty && s.turn == .core 0 && s.selectGroup 0 == some 0 && s.nextSplit 0 == some x && x.trap.isNone &&
    !(t.group 0).asyncDue x && x.entered.isNone &&
    match t.fetch 0 x.pc (t.privileged 0 x.mask) t.choice with
    | .ok n _ =>
      (match decodeUnit (t.view (t.ctx (t.ctxOf 0))) (bundleOfNat n) (x.pc % 3) with
       | .ok u => p u
       | .error _ => false)
    | _ => false

/-- What a turn in an entered bundle needs. -/
def inside (s : State) (p : IssueUnit → Bool) : Bool :=
  let x := sp0 s
  let t := s.chosenGroup 0 0 x
  s.agenda.isEmpty && s.turn == .core 0 && s.selectGroup 0 == some 0 && s.nextSplit 0 == some x && x.trap.isNone &&
    !(t.group 0).asyncDue x &&
    match x.entered with
    | some e =>
      (match e.pos[x.pc % 3]? with
       | some (.unit u) => p u
       | _ => false)
    | none => false

/-- The state after one step. -/
def next (s : State) : State :=
  match step s with
  | .next t => t
  | _ => s

/-- Whether a fetch or a parse gives a value. -/
def gives {ε α : Type} [BEq α] (e : Except ε α) (x : α) : Bool :=
  match e with
  | .ok y => y == x
  | .error _ => false

/-- A bundle whose first two slots are a chain: IADD v3, v2, v4; IADD v5, v6, v4. -/
def chained : State :=
  let n := 0x20 + 0x2001820400 * 2 ^ 8 + 0x2002860400 * 2 ^ 48
  (placedTables State.reset.placeGroup).placeBytes 0 (bytesOf 16 n)

theorem witness_StepRunsDecoded :
    enters (placed 0x2001820400) (fun u => u.members == [(0, .iadd (.v 3) (src 2) (src 4))]) = true ∧
    inside (next (placed 0x2001820400)) (fun u => u.members == [(1, .nop)]) = true ∧
    enters chained (fun u => decide (2 ≤ u.members.length)) = true ∧
    (let s := State.reset.withFetchWord 32 0x0005850B
     s.agenda = [] ∧ s.turn = .front 0 ∧ s.frontStill 0 = false ∧ (s.front 0).interrupt = none ∧
     (s.front 0).wfi = false ∧ (s.front 0).swait = none ∧ gives (s.frontFetch 0) (0x0005850B, 4) = true ∧
     decodeFront 0x0005850B = some (.rfet 10 11)) ∧
    (let s := State.reset.withFetchWord 32 0x00150513
     s.frontStill 0 = false ∧ gives (s.frontFetch 0) (0x00150513, 4) = true ∧ decodeFront 0x00150513 = none ∧
     decodeRv 0x00150513 = some (.aluImm .add false 10 10 1)) ∧
    (let s := State.reset.withFetchWord 32 0x4505
     s.frontStill 0 = false ∧ gives (s.frontFetch 0) (0x4505, 2) = true ∧ (decodeC 0x4505).isSome = true) ∧
    (let s := State.reset.withFetchWord 32 0
     let s := s.setFront 0 { s.front 0 with csrs := { (s.front 0).csrs with mie := 0x800, mip := 0x800, mstatus := 8 } }
     s.frontStill 0 = false ∧ (s.front 0).interrupt = some 11) ∧
    (Instr.sliceStep 0).isEvent = true := by decide

theorem test_reset_memOk : State.reset.memOk = true := by decide

theorem witness_MemoryInvariant :
    State.reset.memOk = true ∧ (match step State.reset with | .next _ => true | _ => false) = true ∧
    (placed 0x2001820400).memOk = true ∧ (match step (placed 0x2001820400) with | .next _ => true | _ => false) = true := by
  decide

/-- A placed instruction's split waits, and may issue: its unit is the instruction, which nothing else holds back, and
the state on its operands has the property. -/
def wakesIn (s : State) (w : Nat) (i : Instr) (wt : Wait) (ok : State → Bool) : Bool :=
  let s := withG (s.placeBytes 0 (bytesOf 16 (w * 2 ^ 8))) (waits wt)
  let x := sp0 s
  (s.group 0).split? 0 == some x && s.mayIssue 0 && s.readySplit 0 x && x.wait == some wt &&
    match s.look 0 x with
    | .unit u e tr =>
      let v := s.entering 0 x u.len e tr
      u.members == [(x.pc % 3, i)] && v.goesOn i && v.ample i && ok v.reading
    | _ => false

/-- Whether a handle's record at 0x1000 can be reached. -/
def recordIs (s : State) (h : Nat) (k : XKind) : Bool :=
  let a := s.handleAddr h
  let q := s.translate (s.coreOf s.cur.group) (s.ctx (s.ctxOf s.cur.group)) (a.toNat % 2 ^ 57) k s.priv s.choice
  (match q.1 with
   | .ok pa _ _ => decide (pa = 0x1000)
   | _ => false) &&
  decide (windowOf a = .glob) && decide (a.toNat % 128 = 0) &&
  !s.denied s.cur.group 0x1000 ⟨0, a, 128, k, .gen, false, false, true⟩ s.priv && !s.failed (0x1000 / 128) &&
  !s.g.logClash .gen a 128 && s.clearOf k (recordTarget 0x1000 q.2)

/-- The same with no record. -/
def wakes (w : Nat) (i : Instr) (wt : Wait) (ok : State → Bool) : Bool := wakesIn (placed w) w i wt ok

/-- A late cause that waits in group 0. -/
def aLate (n : Nat) : Late := ⟨n, unitReport .feedDrained 0 fullMask 0⟩

theorem witness_WakesAndDeliveries :
    wakes 0xA0C00A0000 (.cwait false (src 10)) (.cwait 0) (fun z => z.g.batchDone 0 && z.g.copyFails.isEmpty) = true ∧
    wakes 0xA2C5890000 (.barw 11 (src 9)) (.barw 0 1) (fun z =>
      (match z.checkLane 0 ⟨0, (0 : Word).setWidth 64, 16, .read, .loc, false, false, true⟩ z.priv z.choice with
       | .ok t => !z.g.logClash .loc 0 16 && z.clearOf .read t && ((z.leaveTarget t).barAt t).phase != (1 : Word).getLsbD 0
       | _ => false)) = true ∧
    wakes 0x02C0000000 .tsync (.tsync 0) (fun z => z.teamAt_ 0 0) = true ∧
    wakes 0xE4460E0000 (.join 12 (src 14)) (.join 3) (fun z => (slotsOf 3).all fun j => z.childEnded 0 j) = true ∧
    wakes 0x9A40030001 (.twait true (src 3)) (.twait 0) (fun z => decide ((0 : DWord) ≤ z.gtime 0)) = true ∧
    wakes 0x0240000000 .exit .exit (fun z => z.g.exitReady && z.noJob 0 && z.g.copyFails.isEmpty) = true ∧
    wakesIn (sObj (fresh false) 0 0 0 0) 0xE000030000 (.vbegin 0 (src 3)) (.vbegin 0 1) (fun z =>
      (z.handle 0).produces && recordIs z 0 .atomic && decide ((z.vrec 0x1000).begin 1 = .opens 0)) = true ∧
    wakesIn (sObj (fresh true) 0 1 0 0) 0xE000030000 (.vbegin 0 (src 3)) (.vbegin 0 1) (fun z =>
      (z.handle 0).produces && recordIs z 0 .atomic && decide ((z.vrec 0x1000).begin 1 = .join)) = true ∧
    wakesIn (sObj ⟨9, true, false, 0, 0, 1, 1⟩ 3 0 0 0) (encode (.vwait 5 2 (src 6) (some (src 12)))) (.vwait 5 2 (src 6) (some (src 12)))
      (.vwait 2 9 none) (fun z =>
      (z.handle 2).reads && recordIs z 2 .read && (z.vrec 0x1000).qualifies (z.handle 2).minimum 9) = true ∧
    wakesIn (sObj (fresh false) 0 0 0 0) (encode (.vwait 5 2 (src 6) (some (src 12))))
      (.vwait 5 2 (src 6) (some (src 12))) (.vwait 2 9 (some 0)) (fun z =>
      (z.handle 2).reads && recordIs z 2 .read && decide ((0 : DWord) ≤ z.gtime 0)) = true ∧
    (s0.group 0).split? 0 = some (sp0 s0) ∧ (sp0 s0).wait = none ∧
    (let r := unitReport .trap 5 fullMask 0
     let x := { Split.initial 0 with trap := some (r, 0, 1) }
     let s := withG s0 fun g => { g with splits := [x] }
     (s.group 0).split? 0 = some x ∧ s.mayIssue 0 = true ∧ x.trap = some (r, 0, 1) ∧ (s.group 0).log = [] ∧
     (let s := withG s fun g => { g with log := [(0, ⟨.retry, 0, 0, 1, 0, 0, 0, []⟩)] }
      s.mayIssue 0 = true ∧ (s.group 0).log ≠ [])) ∧
    (let s := withG s0 fun g => { g with lates := [aLate 4, aLate 2] }
     let x := sp0 s
     s.mayIssue 0 = true ∧ x.fetchFault = false ∧ x.trap = none ∧ x.wait = none ∧
     ((s.group 0).asyncCause x.mask).any (fun y => decide (y.2.log = []) && decide (y.2.lates = [aLate 4])) = true ∧
     aLate 2 ∈ (s.group 0).lates ∧ (s.group 0).overrun = none) ∧
    (let sl : SlowResult := ⟨0, fullMask, .v 4, .uniform 7, 1, 0⟩
     let s := withG s0 fun g => { g with slow := [(0, sl)], overrun := some 3 }
     (s.group 0).live = true ∧ s.slotsUsed (s.coreOf 0) + 4 ≤ bankSlots ∧ (s.core (s.coreOf 0)).requester = none ∧ (s.group 0).slow.find? (fun y => y.1 == 0) = some (0, sl) ∧ sl.dest = .v 4 ∧
     (s.group 0).overrun = some 3) := by decide

/-- A store held until time 100, before and after it has arrived, and once its time has come. -/
def sHeld : State := after (.stVa .loc .w32 false 2 (src 6) (src 12)) (withG s0 fun g => vU 12 100 (vA 6 0 4 g))
def sQueue : State := after (.heldArrival 0 0) sHeld
def atTime (n : DWord) (s : State) : State := s.setDie 0 { s.die 0 with count := n, raw := n.toNat }

theorem witness_HeldAccesses :
    (((sHeld.group 0).access? 0).any fun a =>
      decide (a.held = some 100) && decide (sHeld.homesLeft 0 0 a = [16]) && sHeld.mayPerform 0 0 a (sHeld.partsAt a 16) &&
        !sHeld.tooLate 16 100) = true ∧
    (let s := atTime 200 sHeld
     ((s.group 0).access? 0).any fun a =>
      decide (a.held = some 100) && decide (s.homesLeft 0 0 a = [16]) && s.mayPerform 0 0 a (s.partsAt a 16) &&
        s.tooLate 16 100 && !s.homeDue 16 && decide (a.kind = .store)) = true ∧
    (let s := atTime 200 sQueue
     (s.firstHeld (s.releasable 16)).any (fun x => s.heldOpen x && decide (x ∈ s.holds)) = true) ∧
    sQueue.releasable 16 = [] ∧
    (((sRegion.team 0).region? 2).any fun r =>
      (sRegion.team 0).live && decide (r.state.get .invalid 0 = .dirty) &&
        !sRegion.escapes (teamGroup 0) (r.glob + 128 * 0) 128 &&
        (match sRegion.backLine 0 r 0 (sRegion.privileged (teamGroup 0) fullMask) sRegion.choice with
         | (.ok pa _ _, _) =>
           !sRegion.denied (teamGroup 0) pa ⟨0, 0, 128, .write, .gen, false, false, false⟩ false &&
             sRegion.backOpen (teamGroup 0) pa
         | _ => false)) = true := by decide


/-- A page fault of group 0's lane 0, in log entry 0. -/
def aFault (st : FaultSt) : FaultRec := ⟨0, .data 0 0, 0x5000, 0, 0, 0, 0, 0, some 0, st⟩

/-- A log entry of group 0. -/
def logged (w : LogWhat) (waiting aborted : Word) : State :=
  withG s0 fun g => { g with log := [(3, ⟨w, 0, 0, waiting, aborted, 0, 0, []⟩)] }

/-- The partition's fault-service launch holds core 1, and the die buffers one fault. -/
def sFault : State :=
  let s := s0.setPart 0 { Partition.absent with live := true, service := 1 }
  let s := s.setLaunch 1 { Launch.absent with desc := placedRec, place := [(1, 0)], service := true, ended := false }
  { atTime 4000 s with faults := [(0, aFault .buffered)], faultNext := 1 }

/-- A matrix instruction's entry is replayed, its fault completed in one of the two ways. -/
def replays (ab : Word) : Bool :=
  let j := s0.newJob (.wld .s8 0 (src 8) 1) 0
  let s := (logged .matrix 0 ab).setCore 0 { s0.core 0 with mx := some j }
  let t := s.setGroup 0 { s.group 0 with log := (s.group 0).log.del 3 }
  ((s.group 0).log.find? fun x => x.1 == 3).any (fun x =>
    decide (x = (3, ⟨.matrix, 0, 0, 0, ab, 0, 0, []⟩)) && decide (x.2.waiting = 0) && decide (x.2.what = .matrix)) &&
    decide ((s.group 0).bank = .live) && (s.group 0).live && (t.jobOf 0).isSome

theorem replays_all : (replays 0 && replays 1) = true := by rfl

theorem handler_due : sFault.handlerDue 0 0 = true := by rfl

theorem witness_FaultService :
    (let e : LogEntry := ⟨.retry, 0, 0, 1, 0, 0, 0, []⟩
     let s := logged .retry 1 0
     (s.group 0).log.find? (fun x => x.1 == 3) = some (3, e) ∧ e.waiting ≠ 0) ∧
    (let e : LogEntry := ⟨.access 5, 0, 0, 0, 0, 0, 0, []⟩
     let s := logged (.access 5) 0 0
     (s.group 0).log.find? (fun x => x.1 == 3) = some (3, e) ∧ e.waiting = 0 ∧ (s.group 0).bank = .live ∧
     (s.group 0).live = true ∧ e.what = .access 5) ∧
    (let e : LogEntry := ⟨.retry, 0, 0, 0, 0, 0, 0, []⟩
     let s := logged .retry 0 0
     (s.group 0).log.find? (fun x => x.1 == 3) = some (3, e) ∧ e.waiting = 0 ∧ (s.group 0).bank = .live ∧
     (s.group 0).live = true ∧ e.what = .retry ∧ e.aborted = 0) ∧
    (replays 0 && replays 1) = true ∧
    (sFault.partOfCtx 0 = 0 ∧ (sFault.part 0).service = 1 ∧ sFault.handlerPlace 1 0 = some (1, 0) ∧
      sFault.handlerDue 0 0 = true ∧ (sFault.team (1 * 512 + 0)).live = false ∧ (sFault.core 1).liveBank = 0 ∧
      (sFault.launch 1).ended = false ∧ (∀ y ∈ sFault.liveGroups, teamOf y ≠ 1 * 512 + 0) ∧
      (sFault.bufferedOf 0 0)[0]? = some (0, aFault .buffered)) ∧
    s0.handlerDue 0 0 = false ∧
    (let s := { s0 with faults := [(2, aFault .stage2)] }
     s.faults.find? (fun y => decide (y.2.st = .stage2) && decide (y.2.tag = 0)) = some (2, aFault .stage2) ∧
     s.faults.find? (fun y => y.1 == 2) = some (2, aFault .stage2)) := by
  refine ⟨by decide, by decide, by decide, replays_all, ?_, by decide, by decide⟩
  exact ⟨by decide, by decide, by decide, handler_due, by decide, by decide, by decide, by decide, by decide⟩

/-- The device after boot. -/
def sUp : State := { State.reset with boot := .booted }

theorem witness_BootAndAttestation :
    State.reset.boot = .off ∧ sUp.boot ≠ .off ∧ sUp.up = true ∧ State.reset.up = false ∧ (0 : Nat) < 4 ∧ (511 : Nat) < 512 ∧
    (17 : Nat) < 18 ∧ (7 : Nat) < 8 ∧ sUp.mbBusy 0 = false ∧
    (let s := { State.reset with boot := .failed }
     s.boot = .failed ∧ s.mbBusy 0 = false) := by decide

theorem witness_DeviceCommands :
    sUp.up = true ∧ sUp.mbBusy 0 = false ∧ (∀ d, d < 4 → (sUp.die d).epoch = false) ∧
    (let s := sUp.setDie 3 { sUp.die 3 with epoch := true, src := 1 }
     s.up = true ∧ s.mbBusy 0 = false ∧ (∃ d, d < 4 ∧ (s.die d).epoch = true) ∧ (s.die 3).src = 1 ∧
     (((256 : DWord).toNat : Int) + (0 : DWord).toNat - (s.time 0).toNat).natAbs ≤ 256 ∧
     256 < (((256 : DWord).toNat : Int) + (1 : DWord).toNat - (s.time 0).toNat).natAbs) ∧
    (let s := (sUp.setDie 0 { sUp.die 0 with src := 1 })
     s.followsHost = true ∧ (s.die 0).src ≠ 0 ∧ (s.die 1).src = 0) ∧
    sUp.followsHost = false ∧
    (let s := sUp.setPart 2 { Partition.absent with live := true, service := 5 }
     s.up = true ∧ s.mbBusy 0 = false ∧ (s.part 2).live = true) ∧
    (sUp.part 2).live = false ∧
    (List.replicate 64 (192 : Byte)).length = 64 ∧
    (∀ b ∈ List.replicate 64 (192 : Byte), b = 0 ∨ 128 ≤ b.toNat ∧ b.toNat ≤ 192) ∧
    (17 ≤ 17 ∧ (65535 : Word).toNat < 65536) ∧
    (let s := { s0 with boot := .booted }
     s.up = true ∧ s.mbBusy 0 = false ∧ (s.ctx 0).live = true ∧ 0 ∈ s.launchesOf 0 ∧ 0 ∈ s.liveGroups ∧ s.ctxOf 0 = 0) ∧
    (sUp.ctx 3).live = false := by decide

/-- A fault-service record at 0x10000 with its descriptor at 0x20000. -/
def sService : State := (sUp.placeBytes 0x10000 (bytesOf 8 0x20000)).placeBytes 0x2000C (bytesOf 2 64)

theorem witness_CreatingCommands :
    (sService.memOk && sService.up && !sService.mbBusy 0 && sService.memOk) = true ∧
    (let args : List DWord := [0x7 * 2 ^ 32 + 0x01FFFF03, 0x10000, 1151, 0]
     let w := argAt args 0
     w < 2 ^ 35 ∧ argAt args 2 ≤ 1151 ∧ (∀ k, k < 8 → (sService.part k).live = false) ∧
     (match sService.serviceRec (sService.serviceBytes (w / 2 ^ 32 % 8) (argAt args 1)) with
      | some d => (sService.servicePlaces (BitVec.ofNat 32 (w % 256)) d.footprint).isSome
      | none => false) = true ∧
     (let s := sUp.setPart 7 { Partition.absent with live := true }
      s.memOk = true ∧ s.up = true ∧ s.mbBusy 0 = false ∧ (s.part (w / 2 ^ 32 % 8)).live = true)) ∧
    (let args : List DWord := [64, 0x40000000, 0x8000]
     let w := argAt args 0
     w < 1024 ∧ w % 128 ≤ 64 ∧ argAt args 1 < 2 ^ 56 ∧ argAt args 1 % 4096 = 0 ∧ argAt args 2 ≠ 0 ∧
     sUp.memOk = true ∧ sUp.up = true ∧ sUp.mbBusy 64 = false ∧ w % 128 = 64 ∧
     sUp.modePermitted (sUp.fn (w % 128)).part (w / 256 % 4) = true) ∧
    (let w := argAt [0x100] 0
     w < 1024 ∧ w % 128 ≤ 64 ∧ w % 128 = 0 ∧ sUp.modePermitted (sUp.fn (w % 128)).part (w / 256 % 4) = false) ∧
    (let args : List DWord := [0x3A01, 0x50000000, 0x202000]
     let w := argAt args 0
     let q := argAt args 2
     let s := sUp.setPart 2 { Partition.absent with live := true }
     s.memOk = true ∧ s.up = true ∧ s.mbBusy 0 = false ∧ w < 2 ^ 14 ∧ w % 128 ≤ 64 ∧ (s.part (w / 256 % 8)).live = true ∧
     q < 2 ^ 22 ∧ q % 2 ^ 14 ≤ 8192 ∧ q / 2 ^ 14 % 4 = 0 ∧ 1 ≤ q / 2 ^ 16 % 64 ∧ q / 2 ^ 16 % 64 ≤ 32 ∧
     argAt args 1 < 2 ^ 56 ∧ argAt args 1 % 4096 = 0) ∧
    ((3 : Nat) ≠ 0 ∧ (5 : Nat) % 128 ≠ 3 ∧ sUp.mbBusy 3 = false) ∧
    (let s := { sUp with hostWaits := [(3, 9)] }
     s.memOk = true ∧ s.up = true ∧ s.mbBusy 3 = true) := by decide

theorem witness_Invalidation :
    sUp.up = true ∧ (0 = 0 ∧ 64 ≤ 64) ∧ (3 ≠ 0 ∨ 64 < 65) ∧
    (16 ≤ 16 ∧ 16 ≤ 57 ∧ (0x30000 : DWord).toNat % 2 ^ 16 = 0) ∧ ¬(16 ≤ 16 ∧ 16 ≤ 57 ∧ (0x31000 : DWord).toNat % 2 ^ 16 = 0) ∧
    (0 = 0 ∧ 64 < 65) ∧
    (0x1000 ≤ 0x1008 ∧ 0x1008 + (bytesOf 4 0).length < 0x1010) ∧ (0x1000 ≤ 0x1008 ∧ 0x1008 + (bytesOf 8 0).length = 0x1010) ∧
    (let p : Posted := ⟨1, 0, 0, 0, 0, [.access 0 0]⟩
     let s := sUp.setFn 0 { sUp.fn 0 with posted := [p] }
     (s.fn 0).posted = p :: [] ∧ (∀ y ∈ p.fences, s.pendingOpen y = false) ∧ s.noConcern p = true) ∧
    (let p : Posted := ⟨1, 0, 0, 0, 0, []⟩
     let s := sStore.setFn 0 { sStore.fn 0 with posted := [p] }
     (s.fn 0).posted = p :: [] ∧ s.noConcern p = false ∧ s.pendingOpen (.access 0 0) = true) ∧
    (sUp.fn 0).posted = [] := by decide

/-- A load of lane 0 whose peer port is lost. -/
def sLost (k : AccKind) : State × Access :=
  let p : Part := ⟨0, 0, 0, .phys (2 * 2 ^ 52), 4, 0, 0, false, false, 0, false, false, false, false⟩
  let a : Access := ⟨k, 0, 1, .w32, .gen, false, none, 0, none, none, none, false, 0, 0, false, true, [], [], none, 5, [p]⟩
  ({ withG s0 fun g => { g with inflight := [(0, a)] } with ports := List.replicate 18 false }, a)

theorem witness_HostAndLinks :
    (sUp.memOk = true ∧ sUp.up = true ∧ 64 ≤ 64 ∧ 7 < 8) ∧
    (let s := { sUp with conn := [(16, 0xFFFF), (17, 0xFFFF)] }
     s.cxl = true ∧ s.up = true ∧ s.ports.any id = true ∧ s.homeDue (s.homeOf (.phys 0x1000)) = false ∧
      bytesOf 4 7 ≠ [] ∧ inHbm 0x1000 (bytesOf 4 7).length = true ∧ s.decodes s.site 0x1000 4 = true ∧
      s.portReaches 16 0x1000 4 = true ∧ s.portReaches 17 0x1000 4 = true ∧ s.peerClash 0x1000 4 true = false ∧
      s.peerClash 0x1000 4 false = false ∧ s.metError 0x1000 4 true = none ∧
      s.metError 0x1000 4 false = none ∧ 0x1000 % 4 = 0 ∧
      ({ s with failedLines := [32] } : State).metError 0x1000 4 false = some 32) ∧
    (sUp.portReaches 16 0x1000 4 = false ∧ sUp.portReaches 17 0x1000 4 = false) ∧
    (let s := { sUp with cxl := false, ports := List.replicate 18 false }
     s.cxl = false ∧ s.ports.any id = false) ∧
    (let s := { sUp.setDie 0 { sUp.die 0 with src := 2 } with syncPort := some 17 }
     (s.die 0).src = 2 ∧ s.ports.getD 17 false = true ∧ s.syncPort = some 17 ∧ s.syncPort ≠ some 3) ∧
    ((((4 : Int) - 3) - ((2 : Int) - 1)) / 2).natAbs ≤ 256 ∧ 256 < ((((4000 : Int) - 3) - ((2 : Int) - 1)) / 2).natAbs ∧
    (let s := { atTime 4000000 sUp with site := 0 }
     let s := s.setDie 0 { s.die 0 with locked := true }
     s.site = 0 ∧ (s.die 0).locked = true ∧ (s.die 0).lastExchange + 4000000 ≤ s.ticks 0) ∧
    (sUp.die sUp.site).locked = false ∧ sUp.ports.getD 17 false = true ∧
    (s0.cxl = true ∧ ∀ k ∈ s0.liveGroups, s0.openPa k (fun pa => decide (paKind pa = 1)) = none) ∧
    (∀ k ∈ [AccKind.load, .store],
      let s := atTime 40005 (sLost k).1
      let a := (sLost k).2
      a.issued + 40000 ≤ s.ticks (s.dieOf 0) ∧ (sLost k).1.ticks 0 < a.issued + 40000 ∧ (s.group 0).access? 0 = some a ∧ a.arrived = false ∧
      (a.parts.find? (Part.lost s 0)).any (fun q => decide (q.loc = .phys (2 * 2 ^ 52))) = true) := by decide

theorem witness_Monitors :
    (let s := sUp.setPart 1 { Partition.absent with live := true, clusters := 2 }
     (s.part 1).live = true ∧ 0 < 1799 ∧ 1799 < 1800 ∧ 64 < 512 ∧ s.owns 1 (clusterOfCore 64) = true ∧
     (∀ q, q < 8 → 3 ∈ s.diesOf q → (s.part q).live = false) ∧ 0 ∈ s.diesOf 1) ∧
    (1800 ≤ 1800) ∧
    (let s := sUp.setPart 1 { Partition.absent with live := true, throttled := true, f := 9, fastFrom := some 0 }
     let s := atTime 4000000 s
     (s.part 1).throttled = true ∧ (s.part 1).fastFrom = some 0 ∧ 0 + 4000000 ≤ s.ticks 0) ∧
    (sUp.part 1).throttled = false ∧ (3 < 4 ∧ 0 < 1200) ∧ (s0.ctx 0).live = true ∧ isHbm 0x1000 = true ∧
    (s0.group 0).live = true ∧ (s0.group 9).live = false := by decide


/-- A launch record (one group, one team, one span) whose handle 0 is an object at 0x30000, or is undeclared. -/
def recordBytes (cls deadline budget : Nat) (obj : Bool) : List Byte :=
  bytesOf 8 0x20000 ++ bytesOf 8 deadline ++ bytesOf 8 0 ++ bytesOf 4 budget ++ bytesOf 4 cls ++ bytesOf 4 0x010101 ++
    bytesOf 44 0 ++ bytesOf 8 (if obj then 0x30000 else 0) ++ bytesOf 168 0

/-- Its descriptor: 16 registers, 1 KiB, and for handle 0 two slots of 128 bytes. -/
def descBytes (obj : Bool) : List Byte :=
  bytesOf 12 0 ++ bytesOf 4 16 ++ bytesOf 16 1024 ++ bytesOf 8 (if obj then 2 ^ 62 + 128 else 0) ++ bytesOf 56 0

/-- The submission, at time 10. -/
def aSub (bytes : List Byte) : Submission := ⟨bytes, 0, 0, 0, 10, .packet 0 0x8000⟩

/-- A device with one partition: its clusters, the classes of tenant 0, the calendar of core 0; the object's record is
live or not. -/
def sAdmit (clusters mask : Word) (cal : List Byte) (obj live : Bool) : State :=
  let s := ((placedTables s0).placeBytes 0x20000 (descBytes obj)).placeBytes 0x30000 (bytesOf 4 (if live then 0x800 else 0))
  let s := s.setPart 0 { Partition.absent with live := true, clusters := clusters }
  (s.setFn 0 { s.fn 0 with classMask := mask }).setCalendar 0 ⟨cal, none⟩

/-- A submission of the record parses, and what admission reads has the property. -/
def reads (s : State) (cls deadline budget : Nat) (obj : Bool) (ok : Parsed → Bool) : Bool :=
  (s.parseError (aSub (recordBytes cls deadline budget obj))).isNone &&
  match s.parse (aSub (recordBytes cls deadline budget obj)) with
  | some p => ok p
  | none => false

/-- Checks 1 to 4 pass. -/
def early (s : State) (p : Parsed) : Bool :=
  classAllowed (s.fn 0).classMask p.desc.cls && decide (p.desc.budget ≠ 0) && decide (10 < p.desc.deadline)

/-- Check 5 passes: the launch has a place, and no record of it is busy. -/
def placed5 (s : State) (p : Parsed) : Bool :=
  early s p && (s.placement [] (aSub (recordBytes 0 11 1 false)) p.desc).isSome &&
    (p.hpa.all fun a => match a with
      | some pa => !s.recordBusy pa
      | none => true) && decide ((s.entries 0).length < 1024)

theorem witness_Admission :
    (({ sAdmit 1 7 [] false false with failedLines := [0x20000 / 128] } : State).parseError
      (aSub (recordBytes 0 11 1 false))).isSome = true ∧
    (∀ r, sUp.answerStop (aSub []) r = none) ∧ sUp.parseError (aSub []) = none ∧ sUp.parse (aSub []) = none ∧
    reads (sAdmit 1 6 [] false false) 0 11 1 false (fun p => !classAllowed 6 p.desc.cls) = true ∧
    reads (sAdmit 1 7 [] false false) 0 11 0 false (fun p => classAllowed 7 p.desc.cls && decide (p.desc.budget = 0)) = true ∧
    reads (sAdmit 1 7 [] false false) 0 10 1 false (fun p => classAllowed 7 p.desc.cls && decide (p.desc.budget ≠ 0) &&
      decide (p.desc.deadline ≤ 10)) = true ∧
    (let s := sAdmit 0 7 [] false false
     reads s 0 11 1 false (fun p => early s p && (s.placement [] (aSub (recordBytes 0 11 1 false)) p.desc).isNone) = true) ∧
    (let s := sAdmit 1 7 [] true true
     reads s 0 11 1 true (fun p => early s p && (s.placement [] (aSub (recordBytes 0 11 1 true)) p.desc).isSome &&
       decide (some 0x30000 ∈ p.hpa) && s.recordBusy 0x30000) = true) ∧
    (let s := sAdmit 1 7 [] false false
     reads s 2 11 1 false (fun p => placed5 s p && decide (p.desc.cls = .best)) = true) ∧
    (let s := sAdmit 1 7 [] false false
     reads s 0 11 1 false (fun p => placed5 s p && decide (p.desc.cls ≠ .best) &&
       !s.demandOk (aSub (recordBytes 0 11 1 false)) p.desc) = true) ∧
    (let s := sAdmit 1 7 (List.replicate 64 128) true false
     reads s 0 1000000 1 true (fun p => placed5 s p && decide (p.desc.cls ≠ .best) &&
       s.demandOk (aSub (recordBytes 0 1000000 1 true)) p.desc) = true) := by
  refine ⟨?_, fun _ => ?_, ?_, ?_, ?_, ?_, ?_, ?_, ?_, ?_, ?_, ?_⟩ <;> rfl

/-- 1,024 launches hold the partition's table entries. -/
def sFull : State := { s0 with launches := (List.range 1024).map fun n => (n, { Launch.absent with ended := false }) }

theorem get_same {α : Type} (x d : α) (ns : List Nat) (n : Nat) (h : n ∈ ns) : Tbl.get (ns.map fun n => (n, x)) d n = x := by
  induction ns with
  | nil => simp at h
  | cons m r ih =>
    by_cases e : m = n
    · simp [Tbl.get, e]
    · simp only [List.map_cons, Tbl.get, e, if_false]
      exact ih (by simpa [Ne.symm e] using h)

theorem length_mono : ∀ (l m : List Nat), l.Nodup → l ⊆ m → l.length ≤ m.length
  | [], _, _, _ => Nat.zero_le _
  | a :: r, m, h, s => by
    have n := List.nodup_cons.mp h
    have ih := length_mono r (m.erase a) n.2 fun x hx =>
      (List.mem_erase_of_ne (fun e : x = a => n.1 (e ▸ hx))).mpr (s (List.mem_cons_of_mem a hx))
    have e := List.length_erase_of_mem (s List.mem_cons_self)
    have p := List.length_pos_of_mem (s List.mem_cons_self)
    simp only [List.length_cons]
    omega

/-- The clause of the full table (Admission). -/
theorem witness_Admission_full : 1024 ≤ (sFull.entries 0).length := by
  have h : List.range 1024 ⊆ sFull.entries 0 := by
    intro n hn
    have g : sFull.launch n = { Launch.absent with ended := false } := get_same _ _ _ _ hn
    simp only [State.entries, List.mem_filter, List.mem_eraseDups, g]
    refine ⟨?_, rfl⟩
    simpa only [sFull, List.map_map, Function.comp_def, List.map_id'] using hn
  simpa using length_mono _ _ List.nodup_range h

/-- Launch 0 with a descriptor changed. -/
def withRec (f : Rec → Rec) (s : State) : State := s.setLaunch 0 { s.launch 0 with desc := f (s.launch 0).desc }

/-- Launch 0 with its span waiting. -/
def sSpan : State := s0.setLaunch 0 { s0.launch 0 with spanSt := [] }

theorem witness_SpansAndEnds :
    (let x := sSpan.launch 0
     sSpan.spanReady 0 0 = true ∧ x.desc.tps ≤ 64 ∧ x.desc.gpt ≤ 16 ∧
     (∀ p ∈ x.seats 0, (sSpan.core p.1).liveBank = p.2 ∧ (sSpan.core p.1).castling = false) ∧ (x.seats 0)[0]? = some (0, 0)) ∧
    s0.spanReady 0 0 = false ∧
    (let s := withG s0 fun g => { g with live := false }
     (s.team 0).live = true ∧ s.teamDone 0 = true ∧ (s.launch 0).service = false ∧
     (∀ u ∈ s.teamsOf 0, u ≠ 0 → spanOf u ≠ spanOf 0)) ∧
    s0.teamDone 0 = false ∧
    (let s := s0.setLaunch 0 { s0.launch 0 with spanSt := [(0, 2)] }
     let x := s.launch 0
     x.ended = false ∧ x.service = false ∧ x.cut = none ∧
     (∀ r ∈ s.replicas, ∀ b ∈ r.behind, launchOf b.group ≠ 0) ∧ s.commitsWait 0 = false ∧ s.endMeets 0 = [] ∧
     (∀ k, k < x.desc.spans → x.spanSt.get 0 k = 2)) ∧
    (0 < (s0.launch 0).desc.spans ∧ (s0.launch 0).spanSt.get 0 0 ≠ 2) ∧
    (let s := withRec (fun d => { d with deadline := 100, anytime := true, cutt := 100, energy := 50 }) (atTime 100 s0)
     let x := s.launch 0
     x.ended = false ∧ x.service = false ∧ x.cut = none ∧ s.dieAt 0 x.desc.deadline = some 0 ∧ x.overran = false ∧
     x.desc.anytime = true ∧ s.dieAt 0 x.desc.cutt = some 0 ∧ x.desc.cutt ≠ 0) ∧
    (∀ c ∈ [Class.soft, .hard, .best],
      let s := withRec (fun d => { d with deadline := 100, cls := c }) (atTime 100 s0)
      let x := s.launch 0
      x.ended = false ∧ x.service = false ∧ x.cut = none ∧ s.dieAt 0 x.desc.deadline = some 0 ∧ x.overran = false ∧
      x.desc.anytime = false ∧ x.desc.cls = c ∧ 0 ∈ s.groupsOf 0) ∧
    (∀ c ∈ [(39999, 50), (40000, 50), (40000, 49)],
      let s := withRec (fun d => { d with anytime := true, energy := 50 }) (atTime (BitVec.ofNat 64 c.1) s0)
      let s := (s.setDie 0 { s.die 0 with energy := c.2 * 4 }).setLaunch 0 { s.launch 0 with
        seen := List.replicate 4 (0, 0, 0), dieCycles := [(0, 8)], ended := true }
      let s := (s.setLaunch 0 { s.launch 0 with ended := false }).setLaunch 9 { Launch.absent with dieCycles := [(0, 24)] }
      let x := s.launch 0
      x.ended = false ∧ x.service = false ∧ x.cut = none ∧ x.desc.energy ≠ 0 ∧ x.desc.anytime = true ∧
      decide ((s.time (x.dies.headD 0)).toNat < x.release + 40000 * (x.updates + 1)) = decide (c.1 = 39999) ∧
      x.energy + ((x.seen.zip (s.meters 0)).map fun p => energyShare p.1 p.2).sum = c.2) ∧
    (let s := withRec (fun d => { d with deadline := 101, cutt := 101 }) (atTime 100 s0)
     s.dieAt 0 (s.launch 0).desc.deadline = none ∧ s.dieAt 0 (s.launch 0).desc.cutt = none) ∧
    s0.slotOf (.core 0) = 0 ∧
    (let s := s0.setCore 0 { s0.core 0 with cycles := 128000 }
     s.slotOf (.core 0) ≠ 0) ∧
    (let s := sObj (fresh true) 0 1 0 0
     let s := s.setLaunch 0 { s.launch 0 with hpa := [some 0x1000], seals := [⟨0, 0, 7, true, 9, fullMask, []⟩] }
     let x := s.launch 0
     x.desc.handles.getD 0 .undeclared = .produced 2 128 ∧ x.hpa.getD 0 none = some 0x1000 ∧ s.arrived 0 0 = true ∧
     (s.vrec 0x1000).st.opn = true ∧ x.ended = false ∧ s.failed (0x1000 / 128) = false ∧ (∀ e ∈ x.seals, s.sealDone e = true) ∧
     (let a := (sHeld.group 0).inflight
      let t := withG s fun g => { g with inflight := a }
      t.arrived 0 0 = true ∧ (t.vrec 0x1000).st.opn = true ∧ ∃ e ∈ x.seals, t.sealDone e = false)) ∧
    (let s := sObj (fresh true) 0 1 0 0
     let s := s.setLaunch 0 { s.launch 0 with hpa := [some 0x1000] }
     s.arrived 0 0 = false) ∧
    (let s := withG s0 fun g => { g with splits := [] }
     let s := s.setLaunch 0 { s.launch 0 with cut := some ⟨1, 0⟩ }
     (s.launch 0).cut = some ⟨1, 0⟩ ∧ (s.launch 0).ended = false ∧ s.cutHalted 0 = true ∧
       s.commitsWait 0 = false ∧ s.endMeets 0 = []) ∧
    (s0.launch 0).cut = none := by
  refine ⟨?_, ?_, ?_, ?_, ?_, ?_, ?_, ?_, ?_, ?_, ?_, ?_, ?_, ?_, ?_, ?_⟩ <;> decide


/-- Group 0 in a bank of its core. -/
def inBank (b : Bank) : State := withG s0 fun g => { g with bank := b }

/-- A context on its way out. -/
def leaves (x : Leaving) (s : State) : State := s.setCtx 0 { s.ctx 0 with leaving := x }

theorem witness_Castling :
    (63 < 64) ∧
    (s0.site = 0 ∧ s0.castlingDue 0 = false ∧ s0.nestSpans 0 = [] ∧
      ((s0.groupsIn 0 .live).any fun k => s0.ctxOut (s0.ctxOf k)) = false) ∧
    ((leaves (.out 0) s0).groupsIn 0 .live).any (fun k => (leaves (.out 0) s0).ctxOut ((leaves (.out 0) s0).ctxOf k)) = true ∧
    (let s := withG s0 (waits (.join 1))
     let s := s.setLaunch 1 { Launch.absent with desc := placedRec, nested := some 0, ended := false, clusters := 1, place := [(0, 0)] }
     s.nestSpans 0 = [(0, 0)] ∧ s.spanCores 0 0 = [0]) ∧
    ((inBank .shadow).core 0).loaded = none ∧ 0 ∈ (inBank .shadow).groupsIn 0 .shadow ∧
    (let s := withG s0 fun g => { g with splits := [] }
     let s := s.setCore 0 { s.core 0 with requester := some (0, 64) }
     s.asker 0 = some (0, 64) ∧ s.hasRoom 0 64 = true ∧ s.wants 0 = false) ∧
    (let s := s0.setCore 0 { s0.core 0 with requester := some (0, bankSlots + 1) }
     s.asker 0 = some (0, bankSlots + 1) ∧ s.hasRoom 0 (bankSlots + 1) = false) ∧
    (let s := withG s0 fun g => { g with splits := [], slow := [(0, ⟨0, fullMask, .v 4, .uniform 7, 1, 0⟩)] }
     let s := s.setCore 0 { s.core 0 with requester := some (0, 64) }
     s.asker 0 = some (0, 64) ∧ s.hasRoom 0 64 = true ∧ s.wants 0 = true) ∧
    (s0.core 0).requester = none ∧
    (let s := s0.setCore 0 { s0.core 0 with castling := true }
     (s.core 0).castling = true ∧ s.atPoints 0 = true ∧ 0 ∈ (s.stopJob 0 2).groupsIn 0 .live) ∧
    (s0.core 0).castling = false ∧
    (let s := inBank .saved
     let s := s.setLaunch 0 { s.launch 0 with place := [(0, 1)] }
     (s.groupsIn 0 .saved).filter (fun k => launchOf k == 0 && s.spanReturns 0 (spanOf (teamOf k)) &&
       !s.ctxOut (s.ctxOf k)) ≠ [] ∧ s.groupsIn 0 .shadow = [] ∧ (0, 1 - (s.core 0).liveBank) ∈ (s.launch 0).place) ∧
    s0.groupsIn 0 .saved = [] ∧
    (let s := atTime 800005 (leaves (.soft 5) s0)
     (s.ctx 0).leaving = .soft 5 ∧ 5 + 800000 ≤ s.ticks 0) ∧
    (let s := atTime 800004 (leaves (.soft 5) s0)
     s.ticks 0 < 5 + 800000) ∧
    (let s := atTime 40000005 (leaves (.out 5) s0)
     (s.ctx 0).leaving = .out 5 ∧ 5 + 40000000 ≤ s.ticks 0 ∧ 0 ∈ s.launchesOf 0 ∧ 0 ∈ s.groupsOfCtx 0 ∧
       (s.group 0).bank ≠ .saved) ∧
    (let s := leaves (.out 5) (inBank .saved)
     (s.ctx 0).leaving = .out 5 ∧ ∀ k ∈ s.groupsOfCtx 0, (s.group k).bank = .saved) ∧
    (let s := atTime 40000004 (leaves (.out 5) s0)
     s.ticks 0 < 5 + 40000000) := by
  refine ⟨?_, ?_, ?_, ?_, ?_, ?_, ?_, ?_, ?_, ?_, ?_, ?_, ?_, ?_, ?_, ?_, ?_, ?_⟩ <;> decide

/-- Front-end core 0 with registers x5 and x6, at the word of address 0. -/
def sFront (x y : DWord) : State :=
  let s := State.reset.placeFront
  s.setFront 0 ((s.front 0).setReg 5 x |>.setReg 6 y)

/-- A ring descriptor at 0x1000: the base 0x2000, 2 to the power `n` packets, HEAD and TAIL. -/
def sRing (n head tail : Nat) : State :=
  (sFront 0x1000 0).placeBytes 0x1000 (bytesOf 8 0x2000 ++ bytesOf 8 n ++ bytesOf 8 head ++ bytesOf 8 tail)

/-- Register x5 of front-end core 0 is an address that is mapped to itself, with a property of its reads. -/
def at5 (s : State) (n : Nat) (ok : Nat → Bool) : Bool :=
  let x := (s.front 0).reg 5
  s.site == 0 && x.toNat % n == 0 && gives (s.frontPlace 0 x .load) x.toNat && !s.frontWaits x.toNat &&
    s.frontOk 0 x.toNat n && ok x.toNat

/-- A front-end core in supervisor mode with Sv39 on, whose root table at 0x5000 is empty. -/
def sPaged : State :=
  let s := sFront 0x1000 0
  s.setFront 0 { s.front 0 with supervisor := true, csrs := { (s.front 0).csrs with satp := 2 ^ 63 + 5, medeleg := 0x2000 } }

/-- The same with one page of 1 GiB, readable and never written, and a ring at 0x1000. -/
def sReadOnly : State :=
  let s := (sRing 4 3 4).placeBytes 0x5000 (bytesOf 8 0x43)
  s.setFront 0 { s.front 0 with supervisor := true, csrs := { (s.front 0).csrs with satp := 2 ^ 63 + 5 } }

theorem witness_FrontEndInstructions :
    (sFront 0 0 |>.front 0).delegated 13 false = false ∧ (sPaged.front 0).delegated 13 false = true ∧
    (let y := (sFront 7 (60 + 4 * 64)).front 0 |>.reg 6
     y.toNat % 64 + y.toNat / 64 % 64 ≤ 64) ∧
    (let y := (sFront 7 (60 + 5 * 64)).front 0 |>.reg 6
     64 < y.toNat % 64 + y.toNat / 64 % 64) ∧
    ((sFront 0x1004 0).front 0 |>.reg 5).toNat % 64 ≠ 0 ∧ ((sFront 0x1004 0).front 0 |>.reg 5).toNat % 8 ≠ 0 ∧
    (match sPaged.frontPlace 0 ((sPaged.front 0).reg 5) .load with
     | .error c => c == 13
     | .ok _ => false) = true ∧
    ([0, 1, 16, 17].all fun n => let s := sRing n 3 4
      at5 s 64 fun x => s.frontRead (x + 8) 4 == n && s.frontRead (x + 0xC) 4 == 0 && s.frontRead (x + 0x20) 32 == 0 &&
        s.frontRead (x + 0x10) 8 == 3 && s.frontRead (x + 0x18) 8 == 4) = true ∧
    (let s := sRing 4 3 4
     gives (s.frontPlace 0 ((s.front 0).reg 5 + 0x10) .store) 0x1010 && !s.frontWaits 0x1010 && s.frontOk 0 0x1010 8) = true ∧
    (at5 sReadOnly 64 fun x => sReadOnly.frontRead (x + 8) 4 == 4 && sReadOnly.frontRead (x + 0x10) 8 == 3) = true ∧
    (match sReadOnly.frontPlace 0 ((sReadOnly.front 0).reg 5 + 0x10) .store with
     | .error c => c == 15
     | .ok _ => false) = true ∧
    (let s := sRing 4 3 3
     at5 s 64 fun x => s.frontRead (x + 0x10) 8 == s.frontRead (x + 0x18) 8) = true ∧
    ([(7 : DWord), 8].all fun v => let s := (sFront 0x1000 v).placeBytes 0x1000 (bytesOf 8 7)
      at5 s 8 fun x => s.frontRead x 8 == 7 && (s.front 0).reg 6 == v) = true ∧
    ([(7 : DWord), 8].all fun v => let s := (sFront 0x1000 0).placeBytes 0x1000 (bytesOf 8 7)
      let s := s.setFront 0 { s.front 0 with swait := some (6, 0x1000, v) }
      at5 s 8 fun x => (s.front 0).swait == some (6, x, v) && s.frontRead x 8 == 7) = true ∧
    ((sFront 0 0).front 0).swait = none ∧
    (match sPaged.recordPlaces 0 ((sPaged.front 0).reg 5) (List.range 4) with
     | .error c => c == 13
     | .ok _ => false) = true ∧
    (let s := sFront 0x1000 0
     let ps := [0x1000, 0x1040, 0x1080, 0x10C0]
     gives (s.recordPlaces 0 ((s.front 0).reg 5) (List.range 4)) ps &&
       ps.all fun q => inHbm q 64 && !s.frontWaits q && s.frontOk 0 q 64) = true ∧
    ((sFront 0x1020 0).front 0 |>.reg 5).toNat % 64 ≠ 0 := by
  refine ⟨?_, ?_, ?_, ?_, ?_, ?_, ?_, ?_, ?_, ?_, ?_, ?_, ?_, ?_, ?_, ?_, ?_, ?_⟩ <;> first | rfl | decide

/-- A packet at 0x2000 of the ring at 0x1000, in the hand of front-end core 0. -/
def sPacket (type a b c : Nat) : State :=
  ((sFront 0 0).placeBytes 0x2000 (bytesOf 8 type ++ bytesOf 8 a ++ bytesOf 8 b ++ bytesOf 8 c)).modRing 0x1000 fun r =>
    { r with fetched := [(0, 0x2000)] }

/-- That ring changed. -/
def withRing (f : Ring → Ring) (s : State) : State := s.modRing 0x1000 f

/-- The packet is the ring's next, can be read and written, and is one for the event of a type. -/
def offered (s : State) (type : Nat) : Bool :=
  s.ringAt 0 0x2000 == some 0x1000 && s.packetOk 0 0x2000 && s.takes 0x2000 type

/-- It is well formed, outside a batch. -/
def taken (s : State) (type : Nat) : Bool :=
  offered s type && (s.ring 0x1000).batch.isNone && !(s.packet 0x2000).malformed

/-- Front-end core 0 with a prologue of 64 calls, at tick `t`, back in its ring loop with the count `n`. -/
def sPrologue (t : DWord) (calls n : Nat) : State :=
  let s := atTime t (sPacket 6 0x4000 0x3000 5)
  s.setFront 0 { (s.front 0).setReg 10 (BitVec.ofNat 64 n) with
    pc := 8, buffer := 0x6000, prologue := some ⟨0x1000, 0x2000, calls, 0, 8⟩ }

theorem witness_Packets :
    (let s := sPacket 1 0x3000 0 0
     taken s 1 && isRecord (s.packet 0x2000).a && s.frontOk 0 (s.packet 0x2000).a 256) = true ∧
    (let s := sPacket 1 0x3020 0 0
     taken s 1 && !isRecord (s.packet 0x2000).a) = true ∧
    taken (sPacket 2 0 0 0) 2 = true ∧
    ([7, 8].all fun b => let s := (sPacket 4 0x3000 b 0).placeBytes 0x3000 (bytesOf 8 7)
      taken s 4 && decide ((s.packet 0x2000).a % 8 = 0 ∧ s.frontOk 0 (s.packet 0x2000).a 8 = true ∧
      s.frontRead (s.packet 0x2000).a 8 = 7 ∧ (s.packet 0x2000).b = b ∧ s.frontWaits (s.packet 0x2000).a = false)) = true ∧
    (let s := sPacket 5 0x3000 9 0
     let r := s.ring 0x1000
     taken s 5 && decide ((s.packet 0x2000).a % 8 = 0 ∧ s.frontMay 0 (s.packet 0x2000).a 8 = true ∧
       paKind (s.packet 0x2000).a ≠ 3 ∧ r.signals = [] ∧ r.earlier = [] ∧ s.metError (s.packet 0x2000).a 8 true = none) &&
     (let t := withRing (fun r => { r with earlier := [0] }) (s.setLaunch 0 { Launch.absent with ended := false })
      taken t 5 && decide (0 ∈ (t.ring 0x1000).earlier ∧ (t.launch 0).ended = false))) = true ∧
    (let s := sPacket 6 0x4000 0x3000 5
     let s := s.setFront 0 { s.front 0 with buffer := 0x6000 }
     taken s 6 && isRecord (s.packet 0x2000).b && s.frontOk 0 (s.packet 0x2000).b 256 && inHbm (s.front 0).buffer 256 &&
       s.frontMay 0 (s.front 0).buffer 256) = true ∧
    ([(1 : Nat), 2, 3, 4, 5, 6].all fun n => let s := sPacket 7 0 0 0
      (s.ring 0x1000).batch.isNone && (s.packet 0x2000).malformed && offered s n) = true ∧
    taken (sPacket 3 0 0 0) 3 = true ∧
    ([(1 : Nat), 2, 3, 4, 5, 6].all fun n => let s := withRing (fun r => { r with batch := some (0x5000, [], false) }) (sPacket n 0x3000 0 0)
      (s.ring 0x1000).batch == some (0x5000, [], false) && offered s n && !(s.packet 0x2000).malformed) = true ∧
    (let s := withRing (fun r => { r with batch := some (0x5000, [0x5040], false) }) (sPacket 3 0 0 0)
     let u := (s.popPacket 0x1000).modRing 0x1000 fun r => { r with batch := none }
     offered s 3 && !(s.packet 0x2000).malformed && (match u.validate 0 0x1000 [0x5040] 0 with
      | .error e => e == (8, 0)
      | .ok _ => false)) = true ∧
    ([(1 : Word), 0].all fun clusters =>
      let s := (((sAdmit clusters 7 [] false false).placeFront).placeBytes 0x8000 (recordBytes 2 11 1 false)).placeBytes 0x5040
        (bytesOf 8 1 ++ bytesOf 8 0x8000)
      let u := s.modRing 0x1000 fun r => { r with batch := none }
      match u.validate 0 0x1000 [0x5040] 0 with
      | .ok xs => (match u.admitBatch xs 0 with
        | .ok (_, ls) => ls.length == 1 && clusters == 1
        | .error e => e == (6, 0) && clusters == 0)
      | .error _ => false) = true ∧
    (let s := withRing (fun r => { r with hold := some (0x3000, 7) }) ((sFront 0 0).placeBytes 0x3000 (bytesOf 8 7))
     (s.rings.map (·.1)).contains 0x1000 && (s.ring 0x1000).hold == some (0x3000, 7) && s.frontRead 0x3000 8 == 7 &&
       !s.frontWaits 0x3000) = true ∧
    (let s := withRing (fun r => { r with hold := some (0x3000, 8) }) ((sFront 0 0).placeBytes 0x3000 (bytesOf 8 7))
     (s.rings.map (·.1)).all fun j => (s.ring j).hold.all fun h => decide (s.frontRead h.1 8 < h.2.toNat)) = true ∧
    ([(80000 : DWord), 79999].all fun t => let s := sPrologue t 64 2
      s.site == 0 && (s.front 0).prologue == some ⟨0x1000, 0x2000, 64, 0, 8⟩ && s.ticks 0 == t.toNat) = true ∧
    ((sFront 0 0).front 0).prologue = none ∧
    ([(63, 2), (64, 2), (1, 0)].all fun c => let s := sPrologue 5 c.1 c.2
      let f := s.front 0
      f.prologue == some ⟨0x1000, 0x2000, c.1, 0, 8⟩ && f.pc == 8 && f.reg 10 == BitVec.ofNat 64 c.2 && f.swait.isNone &&
        !f.xdisp && inHbm f.buffer 256 && s.frontMay 0 f.buffer 256) = true := by
  refine ⟨?_, ?_, ?_, ?_, ?_, ?_, ?_, ?_, ?_, ?_, ?_, ?_, ?_, ?_, ?_, ?_⟩ <;> first | rfl | decide


/-- A k destination fits uniform operands, a v destination fits any (IntegerArithmetic to LaneOperations); every slot's
instruction is free to complete at `s0` (witness_completes). -/
theorem fits_k : kFits (.k 1) [s0.rd (src 1), s0.rd2 (src 1) (src 2), s0.rdc ⟨3, false⟩] := fun _ => by decide
theorem fits_v (n : Nat) (xs : List Opnd) : kFits (.v n) xs := fun h => nomatch h

theorem witness_IntegerArithmetic : kFits (.v 4) [s0.rd (src 1), s0.rd2 (src 1) (src 2)] ∧
    free s0 (.iadd (.v 4) (src 1) (src 2)) = true ∧ kFits (.v 4) [s0.rd (src 1)] ∧ free s0 (.iabs (.v 4) (src 1)) = true :=
  ⟨fits_v _ _, by decide, fits_v _ _, by decide⟩

theorem witness_LogicAndShifts : kFits (.k 1) [s0.rd (src 1), s0.rd2 (src 1) (src 2)] ∧
    free s0 (.sar (.k 1) (src 1) (src 2)) = true ∧ kFits (.v 4) [s0.rd (src 1)] ∧ free s0 (.brev (.v 4) (src 1)) = true :=
  ⟨fun _ => by decide, by decide, fits_v _ _, by decide⟩

theorem witness_CompareSelectDot : kFits (.k 1) [s0.rd (src 1), s0.rd2 (src 1) (src 2), s0.rdc ⟨3, false⟩] ∧
    free s0 (.imad (.k 1) (src 1) (src 2) ⟨3, false⟩) = true ∧ free s0 (.icmp .eq (.k 1) (src 1) (src 2)) = true ∧
    (Dst.v 4).isK = false ∧ free s0 (.sel (.v 4) (src 1) (src 2) 1) = true :=
  ⟨fits_k, by decide, by decide, by decide, by decide⟩

theorem witness_FloatArithmetic : kFits (.v 4) [s0.rd (src 1), s0.rd2 (src 1) (src 2), s0.rdc ⟨3, false⟩] ∧
    free s0 (.ffma .f32 (.v 4) (src 1) (src 2) ⟨3, false⟩) = true ∧ free s0 (.fadd .h2bf16 .rtz (.v 4) (src 1) (src 2)) = true :=
  ⟨fits_v _ _, by decide, by decide⟩

theorem witness_FloatComparisons : FBlk.h2bf16 ≠ .f32 ∧ (Dst.v 4).isK = false ∧
    free s0 (.fcmp .h2bf16 .eq (.v 4) (src 1) (src 2)) = true ∧ kFits (.k 1) [s0.rd (src 1)] ∧
    free s0 (.fround .f32 .dflt (.k 1) (src 1)) = true :=
  ⟨by decide, by decide, by decide, fun _ => by decide, by decide⟩

theorem witness_SlowFloat : kFits (.v 4) [s0.rd (src 1), s0.rd2 (src 1) (src 2)] ∧
    free s0 (.fdiv .f32 .dflt (.v 4) (src 1) (src 2)) = true ∧ free s0 (.fsin .f32 .dflt (.v 4) (src 1)) = true :=
  ⟨fits_v _ _, by decide, by decide⟩

theorem witness_PairOperations : free s0 (.padd 4 (src 10) (src 12)) = true ∧ free s0 (.pnorm 4 (src 10)) = true := by decide

theorem witness_RoundingConversions : kFits (.v 4) [s0.rd (src 1), s0.rd2 (src 1) (src 2), s0.rdc ⟨3, false⟩] ∧
    free s0 (.acvt (.v 4) (src 8) (-16)) = true ∧ kFits (.v 4) [s0.rd (src 1)] := ⟨fits_v _ _, by decide, fits_v _ _⟩

theorem witness_ElementMoves : PackW.b4 ≠ .b16 ∧ kFits (.v 4) [s0.rd (src 1), s0.rd2 (src 1) (src 2), s0.rdc ⟨3, false⟩] ∧
    free s0 (.pack .b4 (.v 4) (src 1) (src 2) ⟨3, false⟩) = true ∧ free s0 (.rnsd (.v 4) (src 1)) = true :=
  ⟨by decide, fits_v _ _, by decide, by decide⟩

theorem witness_LaneOperations : kFits (.v 4) [s0.rd (src 1), s0.rd2 (src 1) (src 2), s0.rdc ⟨3, false⟩] ∧
    free s0 (.shfl .xor (.v 4) (src 1) (src 2) ⟨3, false⟩) = true ∧ (Dst.v 4).isK = false ∧
    free s0 (.lscan .add true (.v 4) (src 1)) = true := ⟨fits_v _ _, by decide, by decide, by decide⟩

theorem witness_StraightControl : free s0 .nop = true ∧ free s0 (.jpt (src 1) 3) = true := by decide


/-- The group of the spec's preempted matrix program at its castling: its registers, its copy, its tile. -/
def savedK : State :=
  let rs : List (Nat × Word) := [(2, 0x100), (3, 0), (6, 0xC), (9, 0x2000), (11, 1), (12, 0x3000), (13, 0x4010), (14, 0),
    (15, 1), (16, 4), (17, 0), (18, 0xFFFFFFFF), (19, 0xD), (20, 0x801000), (21, 0), (22, 0x3000), (23, 0xF8000000),
    (24, 0x1000), (25, 0), (26, 0x4010), (27, 0), (28, 0x900000), (29, 0), (30, 0x4100), (32, 1), (33, 0x4000), (40, 0x2000)]
  let c := { oneCopy with sbase := 0x801000, dbase := 0xF800000000003000, len := 0x1000, bar := 0x4010, batch := 2, next := 1536 }
  withG (withRec (fun d => { d with accum := 1 }) s0) fun g => { g with
    vregs := rs.map fun r => (r.1, .uniform r.2), splits := [{ Split.initial 41 with num := 0 }], copies := [(0, c)]
    batchOpen := 2, bank := .saved }

/-- The word at an offset of the save area. -/
def savedWord (o : Nat) : Option Nat :=
  let bs := (List.range 4).map fun i => savedK.saveArea 0 (o + i)
  if bs.all Option.isSome then some (natOfBytes (bs.map fun b => b.getD 0)) else none

/-- What the save area holds (the worked program's table: its header, shape codes, split, scalars, payload and copy). -/
theorem test_save_area :
    ([0x00, 0x04, 0x08, 0x0C, 0x10, 0x40, 0x44, 0x48, 0x4C, 0x50, 0x54, 0x58].map savedWord =
      [0, 0, 0, 1, 0x6C, 0x02002200, 0x22222020, 0x22222222, 0x02222222, 0x22, 2, 0].map some) ∧
    ([0x80, 0x88, 0x8C, 0x98, 0x9C, 0xA0, 0x1AC, 0x1B0].map savedWord =
      [41, 0xFFFFFFFF, 1, 0xFFFFFFFF, 0xFFFFFFFF, 0, 2, 1].map some) ∧
    ([0x5700, 0x5704, 0x5708, 0x570C, 0x5768].map savedWord = [0x100, 0, 0xC, 0x2000, 0x2000].map some) ∧
    ([0x3200, 0x3208, 0x320C, 0x3210, 0x3218, 0x3230, 0x3234, 0x3238, 0x323C].map savedWord =
      [0x801000, 0x3000, 0xF8000000, 0x1000, 0x4010, 0x600, 0x100, 0, 0].map some) ∧
    savedWord 0xE00 = none ∧
    { Tile.initial with st := .intr, next := 2, addr := 0x2000, mask := fullMask }.qctl = 0x48000000 := by
  refine ⟨?_, ?_, ?_, ?_, ?_, ?_⟩ <;> decide


end Sys2Proof.Tests
end

section
/-! SUPPORT. The system registers: what a read gives, what a write changes and leaves alone, and PFDONE (R4, R65, R66,
R98, R381, R402, R403, R407). -/

namespace Sys2Proof.Machine

open Sys2Proof

/-! ### Results that do not shift the last-result pair (R177) -/

theorem writeDst_in (s : State) (d : Dst) (sh : Sh) (new : Lanes) :
    (s.writeDst d sh new).group s.cur.group = (s.g.commit s.mask d sh new).1 := by
  rw [State.writeDst, State.modG, State.group_setGroup, if_pos rfl]

theorem writeDst_out (s : State) (d : Dst) (sh : Sh) (new : Lanes) {n : Nat} (h : n ≠ s.cur.group) :
    (s.writeDst d sh new).group n = s.group n := by
  rw [State.writeDst, State.modG, State.group_setGroup, if_neg h]

theorem commit_result {g : Group} (m : Word) (n : Nat) (d : Dst) (sh : Sh) (new : Lanes) :
    Result m n d sh new 0 g (g.commit m d sh new).1 := by
  refine ⟨?_, commit_v _ _ _ _ _, commit_o _ _ _ _ _, commit_k _ _ _ _ _, ?_, fun j _ => commit_split? _ _ _ _ _ _,
    fun x hx => ⟨x, (commit_split? _ _ _ _ _ _).trans hx, rfl, rfl, rfl, rfl⟩⟩
  · rw [commit_rest]
  · rw [word_or_zero, commit_rest]

theorem writes_dst (m : Word) (d : Dst) (sh : Sh) (new : Lanes) : Writes (fun t => t.writeDst d sh new) m d sh new 0 :=
  ⟨fun _ _ => rfl, fun _ => Only.setGroup _ _ _, fun t _ h => writeDst_out t d sh new h, fun t hm _ => by
    rw [writeDst_in, hm]
    exact commit_result m _ d sh new⟩

/-! ### Reads -/

/-- SRD writes the register's word to every lane in use. -/
theorem srd_computes (s : State) (d : Dst) (reg : Nat) : Computes s (.srd d reg) d (fun _ => s.readSys reg) 0 :=
  computes rfl rfl rfl (writes_dst s.mask d .uniform _) rfl (fun _ _ => splat_ok _) fun _ h => (lanes_get_splat _ h).symm

/-- The trap entry's words read as zero in a split without privilege. -/
theorem trapWord_unprivileged {s : State} (h : s.priv = false) (f : Entry → Word) : s.trapWord f = 0 := by
  simp only [State.trapWord, h]

/-- The registers that only a privileged split reads. -/
theorem readSys_unprivileged {s : State} (h : s.priv = false) {reg : Nat}
    (hr : reg ∈ [0x001, 0x002, 0x003, 0x004, 0x005, 0x006, 0x007, 0x019, 0x021, 0x022]) : s.readSys reg = 0 := by
  simp only [List.mem_cons, List.not_mem_nil, or_false] at hr
  rcases hr with rfl | rfl | rfl | rfl | rfl | rfl | rfl | rfl | rfl | rfl <;>
    simp only [State.readSys, trapWord_unprivileged h, h, Bool.false_eq_true, if_false]

/-- The word of a lane's record that FLTRD names (R387, R407). -/
def TrapSave.laneWord (v : TrapSave) (f : FltK) (i : Nat) : Word :=
  match f with
  | .lo => loWord (v.addrs.getD i 0)
  | .hi => hiWord (v.addrs.getD i 0)
  | .cause => (v.codes.getD i 0).setWidth 32

/-- FLTRD of a privileged split whose trap entry has a record. -/
theorem planFltrd_record {s : State} {e : Entry} (hp : s.priv = true) (he : s.g.trapEntry s.sp = some e) (f : FltK)
    (d : Dst) : planFltrd f d s = .ok fun t => t.writeDst d .general
      (Lanes.ofFn ((s.g.saves.get ⟨Lanes.zero, Lanes.zero, [], []⟩ (tctlSave e.tctl)).laneWord f)) := by
  simp only [planFltrd, hp, he]
  cases f <;> rfl

/-- FLTRD of a split without privilege. -/
theorem planFltrd_unprivileged {s : State} (hp : s.priv = false) (f : FltK) (d : Dst) :
    planFltrd f d s = .ok fun t => t.writeDst d .general Lanes.zero := by
  simp only [planFltrd, hp]

theorem fltrd_computes_record {s : State} {e : Entry} (hp : s.priv = true) (he : s.g.trapEntry s.sp = some e) (f : FltK)
    (d : Dst) : Computes s (.fltrd f d) d
      ((s.g.saves.get ⟨Lanes.zero, Lanes.zero, [], []⟩ (tctlSave e.tctl)).laneWord f) 0 :=
  computes rfl rfl (planFltrd_record hp he f d) (writes_dst s.mask d .general _) rfl (fun _ _ => trivial) fun _ h =>
    (lanes_get_ofFn _ h).symm

theorem fltrd_computes_zero {s : State} (hp : s.priv = false) (f : FltK) (d : Dst) :
    Computes s (.fltrd f d) d (fun _ => 0) 0 :=
  computes rfl rfl (planFltrd_unprivileged hp f d) (writes_dst s.mask d .general _) rfl (fun _ _ => trivial) fun _ h =>
    (lanes_get_splat 0 h).symm

/-! ### Writes -/

/-- A permitted write has its effect. -/
theorem sysWrite_permitted {s : State} {reg : Nat} {w : Word}
    (h : ((privilegedReg reg && !s.priv) || s.locked reg w) = false) :
    s.sysWrite reg w = .ok fun t => t.writeSys reg w := by
  simp only [State.sysWrite, h, Bool.false_eq_true, if_false]

/-- A refused write raises PERMISSION. -/
theorem sysWrite_refused {s : State} {reg : Nat} {w : Word}
    (h : ((privilegedReg reg && !s.priv) || s.locked reg w) = true) :
    s.sysWrite reg w = .error (.raise (s.uniReport .permission 0 0)) := by
  simp only [State.sysWrite, h, if_true, State.uniStop]

theorem planSwr_other {reg : Nat} (h : reg ≠ 0x008) (a : Src) (s : State) :
    planSwr reg a s = s.sysWrite reg (s.rd a).u := by
  simp only [planSwr, h, if_false]

/-- A lane in use is one of the 32 that the mask holds. -/
theorem mem_lanesOf {s : State} {i : Nat} : i ∈ lanesOf s.mask ↔ i < 32 ∧ s.active i = true := by
  rw [lanesOf, List.mem_filter, List.mem_range, State.active]

/-- Whether some lane in use writes PFDONE a word above 1. -/
theorem pfdone_above (s : State) (x : Nat → Word) :
    ((lanesOf s.mask).any fun i => decide (1 < (x i).toNat)) = true ↔
      ∃ i, i < 32 ∧ s.active i = true ∧ 1 < (x i).toNat := by
  simp only [List.any_eq_true, mem_lanesOf, decide_eq_true_eq, and_assoc]

theorem pfdone_within {s : State} {x : Nat → Word} (h : ∀ i, i < 32 → s.active i = true → (x i).toNat ≤ 1) :
    ((lanesOf s.mask).any fun i => decide (1 < (x i).toNat)) = false := by
  rw [Bool.eq_false_iff, Ne, pfdone_above]
  rintro ⟨i, hi, ha, hx⟩
  exact absurd (h i hi ha) (by omega)

/-- A word above 1 raises ILLEGAL_OPERAND, whatever the split's privilege (R382). -/
theorem pfdone_illegal {s : State} {x : Nat → Word} (h : ∃ i, i < 32 ∧ s.active i = true ∧ 1 < (x i).toNat) :
    s.pfdone x = .error (.raise (s.unit .illegalOperand 0)) := by
  rw [State.pfdone, if_pos ((pfdone_above s x).mpr h)]
  rfl

theorem pfdone_unprivileged {s : State} {x : Nat → Word} (hp : s.priv = false)
    (h : ∀ i, i < 32 → s.active i = true → (x i).toNat ≤ 1) :
    s.pfdone x = .error (.raise (s.uniReport .permission 0 0)) := by
  simp only [State.pfdone, pfdone_within h, hp, Bool.false_eq_true, if_false, Bool.not_false, if_true, State.uniStop]

theorem pfdone_privileged {s : State} {x : Nat → Word} (hp : s.priv = true)
    (h : ∀ i, i < 32 → s.active i = true → (x i).toNat ≤ 1) :
    s.pfdone x = .ok fun t => (lanesOf s.mask).foldl (fun t i => t.laneDone t.cur.group i (decide (x i = 1))) t := by
  simp only [State.pfdone, pfdone_within h, hp, Bool.false_eq_true, if_false, Bool.not_true]

/-- PFDONE of one lane in a privileged split, and in another. -/
theorem planPfdoneReplay_privileged {s : State} (hp : s.priv = true) (lane : Nat) :
    planPfdoneReplay lane s = .ok fun t => t.laneDone t.cur.group lane false := by
  simp only [planPfdoneReplay, hp, Bool.not_true, Bool.false_eq_true, if_false]

theorem planPfdoneAbort_privileged {s : State} (hp : s.priv = true) (lane : Nat) :
    planPfdoneAbort lane s = .ok fun t => t.laneDone t.cur.group lane true := by
  simp only [planPfdoneAbort, hp, Bool.not_true, Bool.false_eq_true, if_false]

theorem planPfdoneReplay_unprivileged {s : State} (hp : s.priv = false) (lane : Nat) :
    planPfdoneReplay lane s = .error (.raise (s.uniReport .permission 0 0)) := by
  simp only [planPfdoneReplay, hp, Bool.not_false, if_true, State.uniStop]

theorem planPfdoneAbort_unprivileged {s : State} (hp : s.priv = false) (lane : Nat) :
    planPfdoneAbort lane s = .error (.raise (s.uniReport .permission 0 0)) := by
  simp only [planPfdoneAbort, hp, Bool.not_false, if_true, State.uniStop]

/-- An instruction whose plan answers a change completes with it. -/
theorem completes_of_plan {s : State} {i : Instr} {p : Plan} {f : State → State} (he : exec i s = issue i p s)
    (hp : planOf i = p) (hf : p s = .ok f) : Completes s i f :=
  fun hc ha => he.trans (issue_done hp hf hc ha)

/-! ### What a write changes and leaves alone -/

theorem modCx_cx (s : State) (f : Context → Context) : (s.modCx f).cx = f s.cx := by
  show (s.setCtx (s.ctxOf s.cur.group) (f s.cx)).ctx (s.ctxOf s.cur.group) = f s.cx
  rw [State.ctx_setCtx, if_pos rfl]

/-- From `s` to `t` memory and the teams stay, and the groups and contexts other than the executing group and its own. -/
def OwnChanged (s t : State) : Prop :=
  t.mem = s.mem ∧ t.teams = s.teams ∧ (∀ n, n ≠ s.cur.group → t.group n = s.group n) ∧
    ∀ c, c ≠ s.ctxOf s.cur.group → t.ctx c = s.ctx c

theorem ownChanged_refl (s : State) : OwnChanged s s := ⟨rfl, rfl, fun _ _ => rfl, fun _ _ => rfl⟩

theorem modG_ownChanged (s : State) (f : Group → Group) : OwnChanged s (s.modG f) :=
  ⟨rfl, rfl, fun _ h => by rw [State.modG, State.group_setGroup, if_neg h], fun _ _ => rfl⟩

theorem modCx_ownChanged (s : State) (f : Context → Context) : OwnChanged s (s.modCx f) :=
  ⟨rfl, rfl, fun _ _ => rfl, fun _ h => by rw [State.modCx, State.ctx_setCtx, if_neg h]⟩

theorem modTrap_ownChanged (s : State) (f : Entry → Entry) : OwnChanged s (s.modTrap f) := by
  unfold State.modTrap
  split
  · exact modG_ownChanged s _
  · exact ownChanged_refl s

/-- A write of a system register changes its group, its context, or nothing. -/
theorem writeSys_ownChanged (s : State) (reg : Nat) (w : Word) : OwnChanged s (s.writeSys reg w) := by
  unfold State.writeSys
  split
  case h_1 => exact modG_ownChanged s _
  case h_9 => exact modCx_ownChanged s _
  case h_7 | h_8 | h_10 | h_11 | h_12 => exact modCx_ownChanged s _
  case h_13 => exact ownChanged_refl s
  all_goals exact modTrap_ownChanged s _

end Sys2Proof.Machine

open Sys2Proof Sys2Proof.Machine

/-- Settles O20: each read is a plan that writes one result; the fields for privileged splits are zero by the model's
own case split on the privilege. -/
theorem systemReads : Obligations.SystemReads := by
  intro s d reg f
  exact ⟨srd_computes s d reg, fun hp hr => readSys_unprivileged hp hr, fun _ hp he => fltrd_computes_record hp he f d,
    fun hp => fltrd_computes_zero hp f d⟩

/-- Settles O21: the plan of each write answers its change or its cause, and `writeSys` touches the executing group and
its context alone. -/
theorem systemWrites : Obligations.SystemWrites := by
  intro s reg lane a w
  refine ⟨fun hr h => ?_, fun hr h hc => ?_, fun hp h => ?_, fun h hc => ?_, fun hp => ⟨?_, ?_⟩,
    fun hp => ⟨fun h hc => ?_, fun hc => ?_, fun hc => ?_⟩, fun h => ?_, fun h hc => ?_, fun h => ?_, fun h hc => ?_,
    ?_, ?_, ?_, ?_, ?_, fun r => writeSys_ownChanged s r w⟩
  · exact completes_of_plan rfl rfl ((planSwr_other hr a s).trans (sysWrite_permitted h))
  · exact issue_raises rfl rfl ((planSwr_other hr a s).trans (sysWrite_refused h)) hc
  · exact completes_of_plan rfl rfl (pfdone_privileged hp h)
  · exact issue_raises rfl rfl (pfdone_illegal h) hc
  · exact completes_of_plan rfl rfl (planPfdoneReplay_privileged hp lane)
  · exact completes_of_plan rfl rfl (planPfdoneAbort_privileged hp lane)
  · exact issue_raises rfl rfl (pfdone_unprivileged hp h) hc
  · exact issue_raises rfl rfl (planPfdoneReplay_unprivileged hp lane) hc
  · exact issue_raises rfl rfl (planPfdoneAbort_unprivileged hp lane) hc
  · exact completes_of_plan rfl rfl (sysWrite_permitted h)
  · exact issue_raises rfl rfl (sysWrite_refused h) hc
  · exact completes_of_plan rfl rfl (sysWrite_permitted h)
  · exact issue_raises rfl rfl (sysWrite_refused h) hc
  · exact congrArg Group.gstat (modG_g s _)
  · exact congrArg Context.hvec (modCx_cx s _)
  · exact congrArg Context.hvec (modCx_cx s _)
  · exact congrArg Context.xlroot1 (modCx_cx s _)
  · exact congrArg Context.xlroot1 (modCx_cx s _)

/-- Settles O42: every field at reset and of a started group is the default that the tables name. -/
theorem resetState : Obligations.ResetState := by
  refine ⟨rfl, fun _ => rfl, fun _ => ⟨rfl, rfl, rfl⟩, fun _ => ⟨rfl, rfl, rfl⟩, rfl, rfl, fun pc b n k hk => ?_⟩
  refine ⟨?_, ?_, rfl, rfl, rfl, rfl, rfl, rfl, rfl, rfl, rfl, rfl, rfl⟩
  · exact lanes_get_splat 0 hk
  · exact lanes_get_splat 0 hk
end

section
/-! SUPPORT. The byte memories' canonical form (R1, R322): what it says of a state's parts, and that the state's setters
and the shared operations keep it. -/

namespace Sys2Proof.Machine

open Sys2Proof

/-! ### The parts of the invariant -/

/-- Every scratchpad of a table of teams is canonical. -/
def teamsOk (ts : Tbl Team) : Bool := ts.all fun t => Memory.wf t.2.scratch

/-- Every window and staging buffer of a table of functions is canonical. -/
def fnsOk (fs : Tbl Fn) : Bool := fs.all fun f => Memory.wf f.2.win && Memory.wf f.2.invBuf

@[simp] theorem memOk_fields (s : State) : (Memory.wf s.mem && teamsOk s.teams && fnsOk s.fns) = s.memOk := rfl

@[simp] theorem memOk_mk {mem x1 x2 x3 x4 x5 x6 x7 x8 x9 x10 x11 x12 x13 x14 x15 x16 x17 x18 x19 x20 x21 fns x22 x23 x24
    x25 x26 teams x27 x28 x29 x30 x31 x32 x33 x34 x35 x36 x37 x38 x39} :
    State.memOk (State.mk mem x1 x2 x3 x4 x5 x6 x7 x8 x9 x10 x11 x12 x13 x14 x15 x16 x17 x18 x19 x20 x21 fns x22 x23 x24
      x25 x26 teams x27 x28 x29 x30 x31 x32 x33 x34 x35 x36 x37 x38 x39) =
    (Memory.wf mem && teamsOk teams && fnsOk fns) := rfl

/-- States with the same bytes are canonical together. -/
theorem memOk_congr {s t : State} (hm : t.mem = s.mem) (ht : t.teams = s.teams) (hf : t.fns = s.fns) :
    t.memOk = s.memOk := by
  rw [State.memOk, hm, ht, hf, State.memOk]

theorem tbl_get_of_all {α : Type} {p : α → Bool} {t : Tbl α} {d : α} (hd : p d = true)
    (h : (t.all fun x => p x.2) = true) (n : Nat) : p (t.get d n) = true := by
  induction t with
  | nil => exact hd
  | cons e r ih =>
    simp only [List.all_cons, Bool.and_eq_true] at h
    simp only [Tbl.get]
    split
    · exact h.1
    · exact ih h.2

theorem tbl_all_set {α : Type} {p : α → Bool} {t : Tbl α} {a : α} (ha : p a = true)
    (h : (t.all fun x => p x.2) = true) (n : Nat) : ((t.set n a).all fun x => p x.2) = true := by
  induction t with
  | nil => simpa [Tbl.set] using ha
  | cons e r ih =>
    simp only [List.all_cons, Bool.and_eq_true] at h
    simp only [Tbl.set]
    split
    · simp [ha, h.2]
    · simp [h.1, ih h.2]

section
variable {s : State} (h : s.memOk = true)
include h

@[simp] theorem memOk_mem : Memory.wf s.mem = true := by
  simp only [State.memOk, Bool.and_eq_true] at h
  exact h.1.1

@[simp] theorem memOk_teams : teamsOk s.teams = true := by
  simp only [State.memOk, Bool.and_eq_true] at h
  exact h.1.2

@[simp] theorem memOk_fns : fnsOk s.fns = true := by
  simp only [State.memOk, Bool.and_eq_true] at h
  exact h.2

@[simp] theorem memOk_scratch (n : Nat) : Memory.wf (s.team n).scratch = true :=
  tbl_get_of_all (p := fun t : Team => Memory.wf t.scratch) rfl (memOk_teams h) n

theorem memOk_window (n : Nat) : (Memory.wf (s.fn n).win && Memory.wf (s.fn n).invBuf) = true :=
  tbl_get_of_all (p := fun f : Fn => Memory.wf f.win && Memory.wf f.invBuf) rfl (memOk_fns h) n

@[simp] theorem memOk_win (n : Nat) : Memory.wf (s.fn n).win = true := by
  have := memOk_window h n
  simp only [Bool.and_eq_true] at this
  exact this.1

@[simp] theorem memOk_invBuf (n : Nat) : Memory.wf (s.fn n).invBuf = true := by
  have := memOk_window h n
  simp only [Bool.and_eq_true] at this
  exact this.2

@[simp] theorem memOk_setTeam {x : Team} (n : Nat) (hx : Memory.wf x.scratch = true) :
    (s.setTeam n x).memOk = true := by
  have ht : teamsOk (s.teams.set n x) = true :=
    tbl_all_set (p := fun t : Team => Memory.wf t.scratch) hx (memOk_teams h) n
  simp [State.setTeam, h, ht]

@[simp] theorem memOk_setFn {x : Fn} (n : Nat) (hw : Memory.wf x.win = true) (hb : Memory.wf x.invBuf = true) :
    (s.setFn n x).memOk = true := by
  have hf : fnsOk (s.fns.set n x) = true :=
    tbl_all_set (p := fun f : Fn => Memory.wf f.win && Memory.wf f.invBuf) (by simp [hw, hb]) (memOk_fns h) n
  simp [State.setFn, h, hf]

/-- A fold of steps that keep it keeps it. -/
theorem memOk_foldl {α : Type} {f : State → α → State} (hf : ∀ s x, s.memOk = true → (f s x).memOk = true)
    (l : List α) : (l.foldl f s).memOk = true :=
  List.foldlRecOn l f h fun s hs x _ => hf s x hs

/-- The same where the fold carries something beside the state. -/
theorem memOk_foldl_fst {α β : Type} {f : State × β → α → State × β}
    (hf : ∀ q x, q.1.memOk = true → (f q x).1.memOk = true) (l : List α) (b : β) :
    (l.foldl f (s, b)).1.memOk = true :=
  List.foldlRecOn (motive := fun q => q.1.memOk = true) l f h fun q hq x _ => hf q x hq

end

@[simp] theorem memOk_ite (c : Prop) [Decidable c] (s t : State) :
    (if c then s else t).memOk = if c then s.memOk else t.memOk := apply_ite State.memOk c s t

/-- A fold of steps that leave the byte memories alone leaves them alone. -/
@[simp] theorem memOk_foldl_frame {α : Type} {f : State → α → State} (hf : ∀ s x, (f s x).memOk = s.memOk) (l : List α)
    (s : State) : (l.foldl f s).memOk = s.memOk :=
  List.foldlRecOn (motive := fun t => t.memOk = s.memOk) l f rfl fun t ht x _ => (hf t x).trans ht

/-- A fold of writes keeps one memory's canonical form. -/
theorem wf_foldl {α : Type} {f : List Host.Cell → α → List Host.Cell}
    (hf : ∀ m x, Memory.wf m = true → Memory.wf (f m x) = true) {m : List Host.Cell} (h : Memory.wf m = true)
    (l : List α) : Memory.wf (l.foldl f m) = true :=
  List.foldlRecOn l f h fun m hm x _ => hf m x hm

/-! ### Setters and folds over them leave the byte memories alone -/

section
variable (s : State)

@[simp] theorem memOk_setDie (n : Nat) (x : Die) : (s.setDie n x).memOk = s.memOk := memOk_congr rfl rfl rfl
@[simp] theorem memOk_setPart (n : Nat) (x : Partition) : (s.setPart n x).memOk = s.memOk := memOk_congr rfl rfl rfl
@[simp] theorem memOk_setCtx (n : Nat) (x : Context) : (s.setCtx n x).memOk = s.memOk := memOk_congr rfl rfl rfl
@[simp] theorem memOk_setLaunch (n : Nat) (x : Launch) : (s.setLaunch n x).memOk = s.memOk := memOk_congr rfl rfl rfl
@[simp] theorem memOk_setGroup (n : Nat) (x : Group) : (s.setGroup n x).memOk = s.memOk := memOk_congr rfl rfl rfl
@[simp] theorem memOk_setCore (n : Nat) (x : Core) : (s.setCore n x).memOk = s.memOk := memOk_congr rfl rfl rfl
@[simp] theorem memOk_setFront (n : Nat) (x : Front) : (s.setFront n x).memOk = s.memOk := memOk_congr rfl rfl rfl
@[simp] theorem memOk_setRing (n : Nat) (x : Ring) : (s.setRing n x).memOk = s.memOk := memOk_congr rfl rfl rfl
@[simp] theorem memOk_setCalendar (n : Nat) (x : Calendar) : (s.setCalendar n x).memOk = s.memOk := memOk_congr rfl rfl rfl
@[simp] theorem memOk_modG (f : Group → Group) : (s.modG f).memOk = s.memOk := memOk_congr rfl rfl rfl
@[simp] theorem memOk_modSp (f : Split → Split) : (s.modSp f).memOk = s.memOk := memOk_congr rfl rfl rfl
@[simp] theorem memOk_sweep (pas : List Nat) : (s.sweep pas).memOk = s.memOk := memOk_congr rfl rfl rfl
@[simp] theorem memOk_markFailed (line : Nat) : (s.markFailed line).memOk = s.memOk := memOk_congr rfl rfl rfl
@[simp] theorem memOk_repairLines (p : Nat → Bool) : (s.repairLines p).memOk = s.memOk := memOk_congr rfl rfl rfl
@[simp] theorem memOk_arriveFaults (die : Nat) : (s.arriveFaults die).memOk = s.memOk := memOk_congr rfl rfl rfl
@[simp] theorem memOk_arriveDies : s.arriveDies.memOk = s.memOk := by simp [State.arriveDies]
@[simp] theorem memOk_chosen : s.chosen.memOk = s.memOk := memOk_congr rfl rfl rfl
@[simp] theorem memOk_fresh : s.fresh.2.memOk = s.memOk := memOk_congr rfl rfl rfl
@[simp] theorem memOk_leaveCached (tr : Trail) : (s.leaveCached tr).memOk = s.memOk := memOk_congr rfl rfl rfl

@[simp] theorem memOk_leaveDone (c : Nat) : (s.leaveDone c).memOk = s.memOk := by
  unfold State.leaveDone
  split <;> simp

@[simp] theorem memOk_castleOut (c : Nat) : (s.castleOut c).memOk = s.memOk := by simp [State.castleOut]

@[simp] theorem memOk_softLeft (c : Nat) : (s.softLeft c).memOk = s.memOk := by
  unfold State.softLeft
  split <;> simp

@[simp] theorem memOk_overrun (l why d : Nat) : (s.overrun l why d).memOk = s.memOk := by
  simp only [State.overrun]
  split
  · rfl
  · split
    · simp
    · split <;> simp

@[simp] theorem memOk_reportCharge (l c : Nat) : (s.reportCharge l c).memOk = s.memOk := by simp [State.reportCharge]
@[simp] theorem memOk_charge (l c : Nat) (k : ChargeKind) (n : Nat) : (s.charge l c k n).memOk = s.memOk := by
  simp [State.charge]
@[simp] theorem memOk_chargeG (g : Nat) (k : ChargeKind) (n : Nat) : (s.chargeG g k n).memOk = s.memOk := by
  simp [State.chargeG]
end

end Sys2Proof.Machine
end

section
/-! SUPPORT. Events, ends of launches, exceptions and the steps around an instruction's change keep the byte memories in
canonical form. -/

namespace Sys2Proof.Machine

open Sys2Proof

/-! ### Table-entry marks, event records, ends of launches -/

theorem wf_markEntry {m : List Host.Cell} (h : Memory.wf m = true) (ea bits : Nat) :
    Memory.wf (markEntry m ea bits) = true :=
  Memory.set_wf _ _ h

theorem wf_endRecord {m : List Host.Cell} (h : Memory.wf m = true) (pa reason : Nat) (t : DWord) (always : Bool) :
    Memory.wf (endRecord m pa reason t always) = true := by
  simp only [endRecord]
  apply Memory.write_wf
  split
  · exact Memory.write_wf _ _ _ (Memory.write_wf _ _ _ h)
  · exact Memory.write_wf _ _ _ (Memory.write_wf _ _ _ (Memory.write_wf _ _ _ h))

theorem wf_releasePins {m : List Host.Cell} (h : Memory.wf m = true) (s : State) (g : Group) :
    Memory.wf (s.releasePins m g) = true :=
  wf_foldl (fun _ _ hm => Memory.write_wf _ _ _ hm) h _

theorem teamsOk_map {ts : Tbl Team} (f : Nat × Team → Nat × Team) (hf : ∀ t, (f t).2.scratch = t.2.scratch)
    (h : teamsOk ts = true) : teamsOk (ts.map f) = true := by
  simp only [teamsOk, List.all_map, List.all_eq_true] at h ⊢
  intro t ht
  simpa only [Function.comp_apply, hf] using h t ht

section
variable {s : State} (h : s.memOk = true)
include h

/-- A state with other bytes of physical memory. -/
theorem memOk_withMem {m : List Host.Cell} (hm : Memory.wf m = true) : State.memOk { s with mem := m } = true := by
  simp [h, hm]

@[simp] theorem memOk_mark (ms : List (Nat × Nat)) : (s.mark ms).memOk = true :=
  memOk_withMem (s := s.sweep _) (by simp [h]) (wf_foldl (fun _ _ hm => wf_markEntry hm _ _) (memOk_mem h) _)

@[simp] theorem memOk_enqueue (fn off org : Nat) (bytes : List Byte) : (s.enqueue fn off org bytes).memOk = true := by
  simp only [State.enqueue]
  split
  · exact memOk_setFn (memOk_withMem (s := s.sweep _) (by simp [h]) (Memory.put_wf _ _ (memOk_mem h))) _
      (Memory.write_wf _ _ _ (memOk_win h fn)) (memOk_invBuf h fn)
  · exact h

@[simp] theorem memOk_post (fn code unit ctx : Nat) (data : Option DWord) :
    (s.post fn code unit ctx data).memOk = true := by
  have he : ∀ n off org bs, (State.enqueue { s with eventSeq := n } fn off org bs).memOk = true := by simp [h]
  simp [State.post, he]

@[simp] theorem memOk_discardLaunch (l : Nat) : (s.discardLaunch l).memOk = true := by
  unfold State.discardLaunch
  extract_lets gs s1 s2 s3 s4
  have h2 : s2.memOk = true := memOk_withMem (s := s1) (by simp [s1, h])
    (wf_foldl (fun _ _ hm => wf_releasePins hm _ _) (memOk_mem h) gs)
  have h3 : s3.memOk = true := by simp [s3, h2]
  have ht : teamsOk s4.teams = true := teamsOk_map _ (fun t => by split <;> rfl) (memOk_teams h3)
  simp [s4, ht, h3]

end

end Sys2Proof.Machine
end

section
/-! SUPPORT. Kills and ends, exceptions, an instruction's results and the issue of a unit keep the byte memories canonical;
what that asks of a plan's answer. -/

namespace Sys2Proof.Machine

open Sys2Proof

section
variable {s : State} (h : s.memOk = true)
include h

@[simp] theorem memOk_endLaunch (l reason : Nat) (abnormal cut : Bool) (t : Option DWord) :
    (s.endLaunch l reason abnormal cut t).memOk = true := by
  unfold State.endLaunch
  extract_lets x s1 s2 m
  have h1 : s1.memOk = true := by simp [s1, h]
  have h2 : s2.memOk = true := memOk_discardLaunch h1 l
  have h3 : State.memOk { s2.sweep x.producedPas with mem := m } = true := memOk_withMem (s := s2.sweep _) (by simp [h2])
    (wf_foldl (fun _ _ hm => wf_endRecord hm _ _ _ _) (memOk_mem h2) _)
  rw [memOk_leaveDone, memOk_setLaunch, h3]

@[simp] theorem memOk_killCtx (c code : Nat) (data : Option DWord) : (s.killCtx c code data).memOk = true := by
  unfold State.killCtx
  extract_lets s1 hs s2 s3
  have h1 : s1.memOk = true := memOk_foldl h (fun _ _ hs => memOk_endLaunch hs _ _ _ _ _) _
  have h3 : s3.memOk = true := by simp [s3, s2, h1]
  exact memOk_post (by simp [h3]) _ _ _ _ _

@[simp] theorem memOk_machineCheck (c pa : Nat) : (s.machineCheck c pa).memOk = true :=
  memOk_killCtx (by simp [h]) _ _ _

/-! ### Exceptions -/

@[simp] theorem memOk_deliver (g sp : Nat) (r : Report) (slot len : Nat) : (s.deliver g sp r slot len).memOk = true := by
  simp [State.deliver, h]

@[simp] theorem memOk_raise (r : Report) : (s.raise r).memOk = true := by
  simp [State.raise, h]

end

section
variable (s : State)

@[simp] theorem memOk_completeFault (n : Nat) (abort : Bool) : (s.completeFault n abort).memOk = s.memOk := by
  unfold State.completeFault
  split <;> simp

@[simp] theorem memOk_stage2Answer (tag : Word) (abort : Bool) : (s.stage2Answer tag abort).memOk = s.memOk := by
  unfold State.stage2Answer
  split <;> simp

/-! ### The steps around an instruction's change -/

@[simp] theorem memOk_writeDst (d : Dst) (sh : Sh) (new : Lanes) : (s.writeDst d sh new).memOk = s.memOk := by
  simp [State.writeDst]
@[simp] theorem memOk_writeVec (d : Dst) (sh : Sh) (new : Lanes) : (s.writeVec d sh new).memOk = s.memOk := by
  simp [State.writeVec]
@[simp] theorem memOk_writeUni (d : Dst) (x : Word) : (s.writeUni d x).memOk = s.memOk := by simp [State.writeUni]
@[simp] theorem memOk_writePair (d : Nat) (x : DWord) : (s.writePair d x).memOk = s.memOk := by simp [State.writePair]
@[simp] theorem memOk_orFlags (f : Word) : (s.orFlags f).memOk = s.memOk := by simp [State.orFlags]
@[simp] theorem memOk_slowVec (d : Dst) (sh : Sh) (v : Lanes) (fl : Word) : (s.slowVec d sh v fl).memOk = s.memOk := by
  simp [State.slowVec]

@[simp] theorem memOk_markReads (i : Instr) : (s.markReads i).memOk = s.memOk := by simp [State.markReads]
@[simp] theorem memOk_popFeeds (i : Instr) : (s.popFeeds i).memOk = s.memOk := by simp [State.popFeeds]
@[simp] theorem memOk_reading : s.reading.memOk = s.memOk := by
  unfold State.reading
  split <;> simp
@[simp] theorem memOk_releases (alone : Bool) (i : Instr) : (s.releases alone i).memOk = s.memOk := by
  simp [State.releases]
@[simp] theorem memOk_refill (i : Instr) : (s.refill i).memOk = s.memOk := by simp [State.refill]
@[simp] theorem memOk_chargePass : s.chargePass.memOk = s.memOk := by simp [State.chargePass]
@[simp] theorem memOk_advance : s.advance.memOk = s.memOk := by simp [State.advance]
@[simp] theorem memOk_yieldOut (asked : Bool) : (s.yieldOut asked).memOk = s.memOk := by simp [State.yieldOut]
@[simp] theorem memOk_retire : s.retire.memOk = s.memOk := by simp [State.retire]
@[simp] theorem memOk_atMember (slot : Nat) : (s.atMember slot).memOk = s.memOk := by simp [State.atMember]
@[simp] theorem memOk_markUnit (ms : List Member) : (s.markUnit ms).memOk = s.memOk := by simp [State.markUnit]
@[simp] theorem memOk_beginWait (ms : List Member) : (s.beginWait ms).memOk = s.memOk := by simp [State.beginWait]
@[simp] theorem memOk_take (ms : List Member) : (s.take ms).memOk = s.memOk := by simp [State.take]
@[simp] theorem memOk_prepare (ms : List Member) : (s.prepare ms).memOk = s.memOk := by simp [State.prepare]
@[simp] theorem memOk_askFor (g need : Nat) : (s.askFor g need).memOk = s.memOk := by simp [State.askFor]
@[simp] theorem memOk_askRoom (need : Nat) : (s.askRoom need).memOk = s.memOk := by simp [State.askRoom]
@[simp] theorem memOk_served (t : State) (g : Nat) : (s.served t g).memOk = s.memOk := by
  simp only [State.served]
  split <;> simp
@[simp] theorem memOk_awaitRoom (g : Nat) (n : Option Nat) : (s.awaitRoom g n).memOk = s.memOk := by
  unfold State.awaitRoom
  split <;> simp

end

/-! ### Answers of plans -/

/-- A change of the state that keeps the byte memories canonical. -/
def Keeps (f : State → State) : Prop := ∀ s, s.memOk = true → (f s).memOk = true

/-- A plan's answer whose change, if it makes one, keeps them. -/
def AnswerKeeps : Except Stop (State → State) → Prop
  | .ok f => Keeps f
  | .error (.act f) => Keeps f
  | .error _ => True

/-- A plan that answers such changes alone. -/
def PlanKeeps (p : Plan) : Prop := ∀ s, AnswerKeeps (p s)

theorem keeps_frame {f : State → State} (hf : ∀ s, (f s).memOk = s.memOk) : Keeps f := fun s h => (hf s).trans h

theorem keeps_id : Keeps id := fun _ h => h

theorem answerKeeps_stop (s : State) (c : Cause) : AnswerKeeps (s.stop c) := trivial

theorem answerKeeps_ite {c : Prop} [Decidable c] {a b : Except Stop (State → State)} (ha : AnswerKeeps a)
    (hb : AnswerKeeps b) : AnswerKeeps (if c then a else b) := by
  split <;> assumption

/-! ### Issuing -/

theorem answerKeeps_held {q : Except Stop (State → State)} (h : AnswerKeeps q) : AnswerKeeps (heldAnswer q) := by
  unfold heldAnswer
  split <;> trivial

/-- The answers of a unit whose plans keep the byte memories keep them. -/
theorem plans_keep (s : State) (ms : List Member) (hp : ∀ m ∈ ms, PlanKeeps m.plan) :
    ∀ p ∈ s.plans ms, AnswerKeeps p.2.2 := by
  induction ms generalizing s with
  | nil => intro p hp'; cases hp'
  | cons m r ih =>
    intro p hmem
    simp only [State.plans, List.mem_cons] at hmem
    rcases hmem with rfl | hmem
    · have hm := hp m (by simp) (s.atMember m.slot)
      dsimp only
      split
      · exact hm
      · exact answerKeeps_held hm
    · exact ih _ (fun m' hm' => hp m' (by simp [hm'])) p hmem

/-- Changes that keep the byte memories keep them together. -/
theorem memOk_commits {s : State} (h : s.memOk = true) {ps : List (Member × List Report × Except Stop (State → State))}
    (hp : ∀ p ∈ ps, AnswerKeeps p.2.2) : (s.commits ps).memOk = true := by
  induction ps generalizing s with
  | nil => exact h
  | cons p r ih =>
    have hr : ∀ p ∈ r, AnswerKeeps p.2.2 := fun q hq => hp q (by simp [hq])
    obtain ⟨m, rs, e⟩ := p
    cases e with
    | error e => exact ih h hr
    | ok f =>
      have hf : Keeps f := hp (m, rs, .ok f) (by simp)
      refine ih ?_ hr
      have := hf (s.atMember m.slot) (by simp [h])
      simp [this]

theorem mem_changeOrder {ps : List (Member × List Report × Except Stop (State → State))}
    {p : Member × List Report × Except Stop (State → State)} (h : p ∈ changeOrder ps) : p ∈ ps := by
  simp only [changeOrder, List.mem_append, List.mem_filter] at h
  tauto

/-- The first stop of some answers is one of them. -/
theorem firstStop_mem {ps : List (Member × List Report × Except Stop (State → State))} {e : Stop}
    (h : firstStop ps = some e) : ∃ p ∈ ps, p.2.2 = .error e := by
  induction ps with
  | nil => cases h
  | cons p r ih =>
    obtain ⟨m, rs, q⟩ := p
    have hr : firstStop r = some e → ∃ p ∈ (m, rs, q) :: r, p.2.2 = .error e := fun hf => by
      obtain ⟨p, hp, he⟩ := ih hf
      exact ⟨p, by simp [hp], he⟩
    rcases q with q | f
    · cases q with
      | raise r => exact hr h
      | _ => cases h; exact ⟨_, List.mem_cons_self, rfl⟩
    · exact hr h

section
variable {s : State} (h : s.memOk = true) {ms : List Member}
  {ps : List (Member × List Report × Except Stop (State → State))} (hp : ∀ p ∈ ps, AnswerKeeps p.2.2)
include h hp

theorem memOk_complete : (s.complete ms ps).memOk = true := by
  have hc : (s.unitChange ms ps).2.memOk = true :=
    memOk_commits (by simp [h]) fun p hm => hp p (mem_changeOrder hm)
  simp only [State.complete]
  split
  · exact h
  · split
    · simp [hc]
    · simp [h]

theorem memOk_completePart (next : Nat) : (s.completePart ms ps next).memOk = true := by
  have hc : (s.partChange ms ps).2.memOk = true :=
    memOk_commits (by simp [h]) fun p hm => hp p (mem_changeOrder hm)
  simp only [State.completePart]
  split
  · exact h
  · split
    · simp [hc]
    · simp [h]

end

theorem cutUnit_mem {ms : List Member} {ps : List (Member × List Report × Except Stop (State → State))}
    {p : Member × List Report × Except Stop (State → State)} (h : p ∈ (cutUnit ms ps).1) : p ∈ ps := by
  unfold cutUnit at h
  split at h
  · exact h
  · exact List.mem_of_mem_take h

/-- A unit whose members' plans keep the byte memories keeps them as it issues. -/
theorem memOk_issueUnit {s : State} (h : s.memOk = true) {ms : List Member} (hp : ∀ m ∈ ms, PlanKeeps m.plan) :
    (s.issueUnit ms).memOk = true := by
  have hq : ∀ p ∈ s.reading.plans ms, AnswerKeeps p.2.2 := plans_keep _ ms hp
  have hu : ∀ p ∈ (cutUnit ms (s.reading.plans ms)).1, AnswerKeeps p.2.2 := fun p hm => hq p (cutUnit_mem hm)
  have hb : (s.beginWait ms).chargePass.memOk = true := by simp [h]
  simp only [State.issueUnit]
  split
  · exact h
  · split
    · exact memOk_raise (by simp [h]) _
    · split
      · simp [h]
      · rename_i f hf
        obtain ⟨p, hm, he⟩ := firstStop_mem hf
        have hk := hu p hm
        rw [he] at hk
        exact hk _ hb
      · simp [h]
      · exact h
      · split
        · exact memOk_complete h hq
        · exact memOk_completePart h hu _

end Sys2Proof.Machine
end

section
/-! SUPPORT. Translation, admission, time, the mailbox and the invalidation port keep the byte memories canonical. -/

namespace Sys2Proof.Machine

open Sys2Proof

/-! ### What a translation leaves, admission -/

section
variable {s : State} (h : s.memOk = true)
include h

@[simp] theorem memOk_leave (tr : Trail) : (s.leave tr).memOk = true := memOk_mark (by simp [h]) _
@[simp] theorem memOk_leaveWalk (tr : Trail) : (s.leaveWalk tr).memOk = true := memOk_mark (by simp [h]) _

@[simp] theorem memOk_admitLaunch (x : Submission) (p : Parsed) (pl : Placement) :
    (s.admitLaunch x p pl).1.memOk = true := by
  unfold State.admitLaunch
  extract_lets part l m s1 s2 s3 seen
  have hm : Memory.wf m = true := wf_foldl (fun m x hm => by
    split
    · exact Memory.put_wf _ _ hm
    · exact hm) (memOk_mem h) _
  have h2 : s2.memOk = true := by simp [s2, s1, hm, h]
  simp [s3, h2]

@[simp] theorem memOk_touch (c va : Nat) (k : XKind) : (s.touch c va k).memOk = true := memOk_leave h _

@[simp] theorem memOk_touchDescriptor (x : Submission) : (s.touchDescriptor x).memOk = true := by
  simp only [State.touchDescriptor]
  split
  · exact h
  · exact memOk_touch (memOk_touch (memOk_touch h _ _ _) _ _ _) _ _ _

@[simp] theorem memOk_touchRecords (x : Submission) (d : Rec) (k : XKind) : (s.touchRecords x d k).memOk = true :=
  memOk_foldl h (fun _ _ hs => memOk_touch hs _ _ _) _

@[simp] theorem memOk_tryAdmit (pref : List Nat) (x : Submission) : (s.tryAdmit pref x).1.memOk = true := by
  have hd := memOk_touchDescriptor h x
  have hr := fun d k => memOk_touchRecords hd x d k
  unfold State.tryAdmit
  split
  · simp [h]
  · split
    · exact hd
    · split
      · exact hr _ _
      · exact memOk_admitLaunch (hr _ _) _ _ _

/-! ### Time discipline -/

@[simp] theorem memOk_exchange (ahead : Int) : (s.exchange ahead).memOk = true :=
  memOk_foldl h (fun s d hs => by
    simp only
    split
    · exact hs
    · split
      · exact memOk_post (by simp [hs]) _ _ _ _ _
      · simp [hs]) _

end

@[simp] theorem memOk_setThr (s : State) (ds : List Nat) (on : Bool) : (s.setThr ds on).memOk = s.memOk := by
  simp [State.setThr]

@[simp] theorem memOk_unthrottle (s : State) (part : Nat) : (s.unthrottle part).memOk = s.memOk := by
  simp [State.unthrottle]

theorem wf_putArgs {m : List Host.Cell} (hm : Memory.wf m = true) (o : Nat) (ws : List DWord) :
    Memory.wf (putArgs m o ws) = true := by
  induction ws generalizing m o with
  | nil => exact hm
  | cons w r ih => exact ih (Memory.write_wf _ _ _ hm) _

section
variable {s : State} (h : s.memOk = true)
include h

@[simp] theorem memOk_afterClocks (part : Nat) : (s.afterClocks part).memOk = true := by
  simp only [State.afterClocks]
  split
  · exact h
  · split
    · split
      · simp [h]
      · exact memOk_post (by simp [h]) _ _ _ _ _
    · split <;> simp [h]

/-! ### The mailbox -/

@[simp] theorem memOk_mbSet (fn : Nat) (v : DWord) : (s.mbSet fn v).memOk = true :=
  memOk_setFn h _ (memOk_win h fn) (memOk_invBuf h fn)

@[simp] theorem memOk_mbResult (fn v : Nat) : (s.mbResult fn v).memOk = true :=
  memOk_setFn h _ (Memory.write_wf _ _ _ (memOk_win h fn)) (memOk_invBuf h fn)

end

/-- A command's result: the state that it leaves, if it has an effect, is canonical. -/
def ResultOk : Except MbError State → Prop
  | .ok t => t.memOk = true
  | .error _ => True

/-- A command that keeps the byte memories canonical. -/
def CommandKeeps (f : Command) : Prop := ∀ s, s.memOk = true → ResultOk (f s)

theorem pfOnly_keeps (fn : Nat) {f : Command} (hf : CommandKeeps f) : CommandKeeps (pfOnly fn f) := by
  intro s h
  simp only [pfOnly]
  split
  · trivial
  · exact hf s h

theorem malformed_keeps : CommandKeeps fun _ => .error .malformed := fun _ _ => trivial

theorem cmdSetEpoch_keeps (t : DWord) : CommandKeeps (cmdSetEpoch t) := by
  intro s h
  simp only [cmdSetEpoch]
  split
  · trivial
  · simp [ResultOk, h]

theorem cmdTimePost_keeps (t delay : DWord) : CommandKeeps (cmdTimePost t delay) := by
  intro s h
  simp [cmdTimePost, ResultOk, h]

theorem cmdPartCreate_keeps (args : List DWord) : CommandKeeps (cmdPartCreate args) := by
  intro s h
  simp only [cmdPartCreate]
  split
  · trivial
  · split
    · trivial
    · split
      · trivial
      · split
        · trivial
        · exact memOk_afterClocks (by simp [h]) _

theorem cmdPartDestroy_keeps (part : Nat) : CommandKeeps (cmdPartDestroy part) := by
  intro s h
  simp only [cmdPartDestroy]
  split
  · trivial
  · simp [ResultOk, h]

theorem cmdCalWrite_keeps (u : Nat) (entries : List Byte) : CommandKeeps (cmdCalWrite u entries) := by
  intro s h
  simp only [cmdCalWrite]
  split
  · simp [ResultOk, h]
  · trivial

theorem cmdConnWrite_keeps (port : Nat) (stks : Word) : CommandKeeps (cmdConnWrite port stks) := by
  intro s h
  simp only [cmdConnWrite]
  split
  · simp [ResultOk, h]
  · trivial

theorem cmdCtxKill_keeps (c : Nat) : CommandKeeps (cmdCtxKill c) := by
  intro s h
  simp only [cmdCtxKill]
  split
  · exact memOk_killCtx h _ _ _
  · trivial

theorem cmdCtxLeave_keeps (c : Nat) : CommandKeeps (cmdCtxLeave c) := by
  intro s h
  simp only [cmdCtxLeave]
  split
  · simp [ResultOk, h]
  · trivial

theorem cmdCtxResume_keeps (c : Nat) : CommandKeeps (cmdCtxResume c) := by
  intro s h
  simp only [cmdCtxResume]
  split
  · simp [ResultOk, h]
  · trivial

theorem cmdCtxCreate_keeps (fn : Nat) (args : List DWord) : CommandKeeps (cmdCtxCreate fn args) := by
  intro s h
  simp only [cmdCtxCreate]
  split
  · trivial
  · split
    · trivial
    · split
      · trivial
      · exact memOk_mbResult (by simp [h]) _ _

theorem cmdVdSetup_keeps (args : List DWord) : CommandKeeps (cmdVdSetup args) := by
  intro s h
  simp only [cmdVdSetup]
  split
  · trivial
  · exact memOk_setFn h _ (memOk_win h _) (memOk_invBuf h _)

section
variable {s : State} (h : s.memOk = true)
include h

theorem memOk_command (fn : Nat) {f : Command} (hf : CommandKeeps f) : (s.command fn f).memOk = true := by
  simp only [State.command]
  split
  · exact h
  · split
    · exact memOk_mbSet h _ _
    · split
      · rename_i t ht
        have ht' : ResultOk (if s.up then f s else .error .noResources) := by
          split
          · exact hf s h
          · trivial
        rw [ht] at ht'
        exact memOk_mbSet ht' _ _
      · exact memOk_mbSet h _ _

@[simp] theorem memOk_pageRequest (fn arg : Nat) : (s.pageRequest fn arg).memOk = true := by
  simp [State.pageRequest, h]

@[simp] theorem memOk_pageAnswer (fn : Nat) (ans : List DWord) : (s.pageAnswer fn ans).memOk = true := by
  unfold State.pageAnswer
  split
  · extract_lets s1 f s2
    have h1 : s1.memOk = true := by simp [s1, h]
    have h2 : s2.memOk = true := memOk_setFn h1 _ (wf_putArgs (memOk_win h1 fn) _ _) (memOk_invBuf h1 fn)
    exact memOk_mbSet h2 _ _
  · exact h

theorem memOk_runCommand (fn code : Nat) : (s.runCommand fn code).memOk = true := by
  unfold State.runCommand
  extract_lets a w
  split
  · exact memOk_command h _ (pfOnly_keeps _ (cmdSetEpoch_keeps _))
  · exact memOk_command h _ (pfOnly_keeps _ (cmdTimePost_keeps _ _))
  · exact memOk_command h _ (pfOnly_keeps _ (cmdPartCreate_keeps _))
  · exact memOk_command h _ (pfOnly_keeps _ (cmdPartDestroy_keeps _))
  · refine memOk_command h _ (pfOnly_keeps _ ?_)
    intro t ht
    dsimp only
    split
    · exact cmdCalWrite_keeps _ _ t ht
    · trivial
  · exact memOk_command h _ (pfOnly_keeps _ (cmdConnWrite_keeps _ _))
  · exact memOk_command h _ (pfOnly_keeps _ (cmdCtxKill_keeps _))
  · exact memOk_command h _ (pfOnly_keeps _ (cmdCtxLeave_keeps _))
  · exact memOk_command h _ (pfOnly_keeps _ (cmdCtxResume_keeps _))
  · exact memOk_command h _ (cmdCtxCreate_keeps _ _)
  · exact memOk_command h _ (pfOnly_keeps _ (cmdVdSetup_keeps _))
  · exact memOk_pageRequest h _ _
  · exact memOk_command h _ malformed_keeps

/-! ### The invalidation port and the register window -/

@[simp] theorem memOk_postInv (fn : Nat) (d : InvDesc) (poster : Option Nat) : (s.postInv fn d poster).memOk = true := by
  simp only [State.postInv]
  split <;> exact memOk_setFn h _ (memOk_win h fn) (memOk_invBuf h fn)

@[simp] theorem memOk_stageInv (fn off : Nat) (bytes : List Byte) (poster : Option Nat) :
    (s.stageInv fn off bytes poster).memOk = true := by
  simp only [State.stageInv]
  split
  · refine memOk_postInv (memOk_setFn h _ ?_ ?_) _ _ _
    · exact memOk_win h fn
    · rfl
  · exact memOk_setFn h _ (memOk_win h fn) (Memory.put_wf _ _ (memOk_invBuf h fn))

theorem memOk_putWindow (fn off : Nat) (bytes : List Byte) :
    (s.setFn fn { s.fn fn with win := Memory.put (s.fn fn).win off bytes }).memOk = true :=
  memOk_setFn h _ (Memory.put_wf _ _ (memOk_win h fn)) (memOk_invBuf h fn)

@[simp] theorem memOk_writeStage2 (off : Nat) (bytes : List Byte) : (s.writeStage2 off bytes).memOk = true := by
  have hp := memOk_putWindow h 0 off bytes
  simp [State.writeStage2, hp]

@[simp] theorem memOk_writeWindow (fn off : Nat) (bytes : List Byte) (poster : Option Nat) :
    (s.writeWindow fn off bytes poster).memOk = true := by
  have hp := memOk_putWindow h fn off bytes
  have hr := fun code => memOk_runCommand hp fn code
  have he : (s.setFn fn { s.fn fn with invErr := false }).memOk = true :=
    memOk_setFn h _ (memOk_win h fn) (memOk_invBuf h fn)
  simp [State.writeWindow, h, hp, hr, he]

end

end Sys2Proof.Machine
end

section
/-! SUPPORT. Faults, region fills, accesses as they are performed and brought back, and accesses at issue keep the byte
memories canonical. -/

namespace Sys2Proof.Machine

open Sys2Proof

/-! ### Faults and fills -/

section
variable {s : State} (h : s.memOk = true)
include h

@[simp] theorem memOk_addFault (g : Nat) (src : FaultSrc) (f : FaultInfo) : (s.addFault g src f).memOk = true := by
  unfold State.addFault
  extract_lets c tag r s1
  have h1 : s1.memOk = true := by simp [s1, h]
  split
  · exact h1
  · rw [memOk_setPart]
    exact memOk_enqueue h1 _ _ _ _

@[simp] theorem memOk_fill (f : Fill) : (s.fill f).memOk = true := by
  have hl := memOk_leave h f.trail
  simp only [State.fill]
  split
  · exact hl
  · split
    · exact hl
    · refine memOk_setTeam hl _ ?_
      dsimp only
      exact Memory.put_wf _ _ (memOk_scratch hl _)

@[simp] theorem memOk_fills (fs : List Fill) : (fs.foldl State.fill s).memOk = true :=
  memOk_foldl h (fun _ _ hs => memOk_fill hs _) fs

end

/-! ### Writes at a home -/

section
variable (s : State)

@[simp] theorem memOk_noteEarly (g acc : Nat) (a : Access) (es : List Scoped) (ls : List (Loc × Nat)) (c : Bool) :
    (s.noteEarly g acc a es ls c).memOk = s.memOk := by
  rw [noteEarly_only]
  exact memOk_congr rfl rfl rfl

@[simp] theorem memOk_noteAtOnce (g acc : Nat) (a : Access) (ls : List (Loc × Nat)) :
    (s.noteAtOnce g acc a ls).memOk = s.memOk := memOk_noteEarly ..

@[simp] theorem memOk_collect (ls : List (Loc × Nat)) : (s.collect ls).memOk = s.memOk := memOk_congr rfl rfl rfl
@[simp] theorem memOk_collected : s.collected.memOk = s.memOk := memOk_congr rfl rfl rfl

@[simp] theorem memOk_replicate (die : Nat) (p : Part) : (s.replicate die p).memOk = s.memOk := by
  unfold State.replicate
  split
  · simp
  · rfl

@[simp] theorem memOk_noteRead (who : Behind) (l : Loc) : (s.noteRead who l).memOk = s.memOk := memOk_congr rfl rfl rfl
@[simp] theorem memOk_repair (ps : List Part) : (s.repair ps).memOk = s.memOk := by simp [State.repair]
@[simp] theorem memOk_putAccess (g acc : Nat) (a : Access) : (s.putAccess g acc a).memOk = s.memOk := by
  simp [State.putAccess]

@[simp] theorem memOk_logAgain (g acc : Nat) (a : Access) (bad : List Nat) :
    (s.logAgain g acc a bad).memOk = s.memOk := by
  unfold State.logAgain
  extract_lets gr
  split <;> simp

@[simp] theorem memOk_lateVis (g : Nat) (a : Access) : (s.lateVis g a).memOk = s.memOk := by simp [State.lateVis]

@[simp] theorem memOk_finish (g acc : Nat) : (s.finish g acc).memOk = s.memOk := by
  simp only [State.finish]
  split
  · rfl
  · split
    · split <;> simp
    · rfl

@[simp] theorem memOk_bringBack (g acc : Nat) (ids : List Nat) : (s.bringBack g acc ids).memOk = s.memOk := by
  unfold State.bringBack
  split <;> simp

end

section
variable {s : State} (h : s.memOk = true)
include h

@[simp] theorem memOk_lostStore (g pa : Nat) : (s.lostStore g pa).memOk = true := by simp [State.lostStore, h]

@[simp] theorem memOk_writePhys (pa : Nat) (bytes : List Byte) (prop01 : Bool) (who : Option Behind) :
    (s.writePhys pa bytes prop01 who).memOk = true := by
  have hm := Memory.put_wf pa bytes (memOk_mem h)
  simp [State.writePhys, hm, h]

@[simp] theorem memOk_writeScr (t o : Nat) (bytes : List Byte) : (s.writeScr t o bytes).memOk = true := by
  have hw := Memory.put_wf o bytes (memOk_scratch h t)
  simp only [State.writeScr]
  split <;> exact memOk_setTeam h _ hw

@[simp] theorem memOk_writeLoc (who : Behind) (l : Loc) (n v : Nat) (prop01 : Bool) :
    (s.writeLoc who l n v prop01).memOk = true := by
  unfold State.writeLoc
  split
  · exact memOk_writePhys h _ _ _ _
  · exact memOk_writeScr h _ _ _
  · exact h

/-! ### A group's own cached lines -/

@[simp] theorem memOk_writeBack (g : Nat) (p : PLine) : (s.writeBack g p).memOk = true := by
  have hl := memOk_leave h ⟨p.marks, [], []⟩
  have hw := memOk_writePhys hl p.pa p.bytes false none
  simp [State.writeBack, h, hw]

@[simp] theorem memOk_bringLine (g line : Nat) (k : XKind) (priv use : Bool) :
    (s.bringLine g line k priv use).memOk = true := by
  simp only [State.bringLine]
  split
  · simp [h]
  · split
    · split <;> simp [h]
    · exact h

@[simp] theorem memOk_performPrivate (g : Nat) (k : AccKind) (priv use : Bool) (ps : List Part) :
    (s.performPrivate g k priv use ps).1.memOk = true := by
  unfold State.performPrivate
  extract_lets xk va step q
  have hq : q.1.memOk = true := memOk_foldl_fst h (fun q p hq => memOk_bringLine hq _ _ _ _ _) ps 0
  split
  · exact hq
  · dsimp only
    split
    · exact memOk_foldl hq (fun s p hs => by simp [hs]) _
    · exact hq

/-! ### Performing parts -/

@[simp] theorem memOk_performPart (who : Behind) (k : AccKind) (p : Part) : (s.performPart who k p).1.memOk = true := by
  simp only [State.performPart]
  split
  · exact h
  · split
    · simp [h]
    · exact h
    · exact memOk_writeLoc h _ _ _ _ _

@[simp] theorem memOk_performNow (g acc : Nat) (ids : List Nat) : (s.performNow g acc ids).memOk = true := by
  unfold State.performNow
  split
  · exact h
  · extract_lets ps
    split
    · exact memOk_machineCheck h _ _
    · rename_i s1 q met _ _
      have h1 : s1.memOk = true := by simp [s1, h]
      have hq : q.1.memOk = true := memOk_foldl_fst h1 (fun q p hq => by
        dsimp only
        split
        · exact memOk_performPart hq _ _ _
        · exact hq) _ []
      rw [memOk_putAccess, hq]

@[simp] theorem memOk_performParts (g acc : Nat) (ids : List Nat) : (s.performParts g acc ids).memOk = true := by
  unfold State.performParts
  split
  · exact h
  · simp [h]

@[simp] theorem memOk_performIn (g acc : Nat) (a : Access) (todo : List Nat) :
    (s.performIn g acc a todo).memOk = true := by
  simp [State.performIn, h]

@[simp] theorem memOk_loadReturn (g acc : Nat) (ids : List Nat) : (s.loadReturn g acc ids).memOk = true := by
  unfold State.loadReturn
  split
  · exact h
  · rw [memOk_finish, memOk_bringBack]
    split
    · exact memOk_performIn h _ _ _ _
    · exact h

@[simp] theorem memOk_writePerformed (g acc : Nat) (ids : List Nat) : (s.writePerformed g acc ids).memOk = true := by
  unfold State.writePerformed
  split <;> simp [h]

/-! ### Accesses at issue -/

@[simp] theorem memOk_leaveLanes (rs : List (Nat × LaneRes)) : (s.leaveLanes rs).memOk = true :=
  memOk_foldl h (fun s r hs => by
    split
    · exact memOk_fills (memOk_leave hs _) _
    · exact memOk_leaveWalk hs _
    · exact hs) rs

@[simp] theorem memOk_logFaults (g entry : Nat) (rs : List (Nat × LaneRes)) : (s.logFaults g entry rs).memOk = true :=
  memOk_foldl h (fun s r hs => by
    split
    · exact memOk_addFault hs _ _ _
    · exact hs) rs

@[simp] theorem memOk_performWindow (g : Nat) (k : AccKind) (p : Part) : (s.performWindow g k p).1.memOk = true := by
  unfold State.performWindow
  split
  · split
    · exact h
    · exact memOk_writeWindow h _ _ _ _
  · exact h

@[simp] theorem memOk_immediate (g acc : Nat) (priv use : Bool) : (s.immediate g acc priv use).memOk = true := by
  unfold State.immediate
  split
  · exact h
  · rw [memOk_finish]
    refine memOk_foldl h (fun s i hs => ?_) _
    split
    · exact hs
    · dsimp only
      split
      · exact hs
      · simp only [memOk_ite, memOk_putAccess, ite_self]
        split
        · exact memOk_performWindow hs _ _ _
        · exact memOk_performPrivate hs _ _ _ _ _

@[simp] theorem memOk_startAccess (q : Req) (rs : List (Nat × LaneRes)) (key slot : Nat) (m : Word) (priv use : Bool)
    (entry : Option Nat) : (s.startAccess q rs key slot m priv use entry).memOk = true := by
  unfold State.startAccess
  extract_lets g ws s1 s2 gr fl a gr1 gr2 gr3 s3 s4
  have h1 : s1.memOk = true := by simp [s1, h]
  have h3 : s3.memOk = true := by simp [s3, s2, h1]
  refine memOk_immediate ?_ _ _ _ _
  unfold s4
  split
  · exact memOk_logFaults h3 _ _ _
  · exact h3

end

theorem answerKeeps_machineCheck (g pa : Nat) : AnswerKeeps (.ok fun t => t.machineCheck (t.ctxOf g) pa) :=
  fun _ h => memOk_machineCheck h _ _

theorem answerKeeps_access (s : State) (q : Req) : AnswerKeeps (s.access q) := by
  simp only [State.access]
  split
  · trivial
  · split
    · exact answerKeeps_machineCheck _ _
    · split
      · trivial
      · split
        · trivial
        · exact fun t h => memOk_startAccess h _ _ _ _ _ _ _ _

theorem answerKeeps_accessTo (s : State) (d : Dst) (q : Req) : AnswerKeeps (s.accessTo d q) := by
  simp only [State.accessTo]
  split
  · trivial
  · exact answerKeeps_access s q

end Sys2Proof.Machine
end

section
/-! SUPPORT. Prefetches, mapped regions, control flow and system registers keep the byte memories canonical. -/

namespace Sys2Proof.Machine

open Sys2Proof

/-! ### Prefetches, fences, mapped regions -/

section
variable {s : State} (h : s.memOk = true)
include h

@[simp] theorem memOk_prefetch (g : Nat) (r : LaneRes) (priv use : Bool) : (s.prefetch g r priv use).memOk = true := by
  unfold State.prefetch
  split
  · exact memOk_foldl h (fun s p hs => by
      split
      · exact memOk_bringLine hs _ _ _ _ _
      · exact memOk_leave hs _) _
  · exact h

@[simp] theorem memOk_mapRegion (d o n gl : Nat) : (s.mapRegion d o n gl).memOk = true := by
  simp only [State.mapRegion]
  split
  · simp [h]
  · split
    · simp [h]
    · rw [memOk_writeUni]
      exact memOk_setTeam h _ (memOk_scratch h _)

@[simp] theorem memOk_putBack (k i line pa : Nat) (tr : Trail) (prop01 : Bool) (g : Nat) :
    (s.putBack k i line pa tr prop01 g).memOk = true := by
  have hl := memOk_leave h tr
  simp only [State.putBack]
  split
  · exact hl
  · refine memOk_setTeam ?_ _ (memOk_scratch hl _)
    split
    · rw [memOk_repairLines]
      exact memOk_writePhys hl _ _ _ _
    · exact memOk_lostStore hl _ _

@[simp] theorem memOk_waitLogged (e : Nat) (f : FaultInfo) (a : DWord) (covers : List (Nat × Nat × Nat)) (w : Wait) :
    (s.waitLogged e f a covers w).memOk = true :=
  memOk_addFault (by simp [h]) _ _ _

@[simp] theorem memOk_blur (k o n : Nat) : (s.blur k o n).memOk = true := by
  simp only [State.blur]
  refine memOk_setTeam (by simp [h]) _ ?_
  dsimp only
  exact Memory.put_wf _ _ (memOk_scratch h k)

@[simp] theorem memOk_dropRegion (k i : Nat) : (s.dropRegion k i).memOk = true := by
  simp only [State.dropRegion]
  split
  · exact h
  · refine memOk_blur (memOk_setTeam h _ ?_) _ _ _
    exact memOk_scratch h k

end

@[simp] theorem memOk_addFence (s : State) (k : FenceK) (sc : Scope) : (s.addFence k sc).memOk = s.memOk := by
  simp [State.addFence]

theorem answerKeeps_flush (s : State) (n : Word) : AnswerKeeps (s.flush n) := by
  simp only [State.flush]
  split
  · exact keeps_id
  · split
    · trivial
    · split
      · trivial
      · split
        · exact answerKeeps_machineCheck _ _
        · split
          · trivial
          · exact fun t h => memOk_waitLogged (memOk_foldl h (fun _ _ hs => memOk_leaveWalk hs _) _) _ _ _ _ _
        · split
          · trivial
          · refine fun t h => memOk_foldl (by simp [h]) (fun t l ht => ?_) _
            split
            · exact memOk_putBack ht _ _ _ _ _ _ _
            · exact ht

/-! ### Control flow -/

section
variable (s : State)

@[simp] theorem memOk_goto (pc : Nat) : (s.goto pc).memOk = s.memOk := by simp [State.goto]

end

section
variable {s : State} (h : s.memOk = true)
include h

@[simp] theorem memOk_reportFail (c : CopyFail) (slot len : Nat) : (s.reportFail c slot len).memOk = true :=
  memOk_raise (by simp [h]) _

@[simp] theorem memOk_endIfDone (g : Nat) : (s.endIfDone g).memOk = true := by
  have hm := wf_releasePins (memOk_mem h) s (s.group g)
  simp only [State.endIfDone]
  split
  · split
    · exact memOk_machineCheck h _ _
    · rw [memOk_setGroup]
      exact memOk_withMem (s := s.sweep _) (by simp [h]) hm
  · exact h

@[simp] theorem memOk_leaveLanesOut : s.leaveLanesOut.memOk = true := memOk_endIfDone (by simp [h]) _

end

theorem answerKeeps_failFirst (fs : List CopyFail) {k : Except Stop (State → State)} (hk : AnswerKeeps k) :
    AnswerKeeps (failFirst fs k) := by
  unfold failFirst
  split
  · exact hk
  · exact fun t h => memOk_reportFail h _ _ _

theorem planKeeps_diverge (taken : State → Word) (t f j : State → Nat) (bix : Bool) :
    PlanKeeps (divergePlan taken t f j bix) := by
  intro s
  simp only [divergePlan]
  split
  · trivial
  · exact keeps_frame fun _ => memOk_modG _ _

theorem planKeeps_halt : PlanKeeps planHalt := by
  intro s
  simp only [planHalt]
  split
  · trivial
  · split
    · trivial
    · exact fun t h => memOk_post (by simp [h]) _ _ _ _ _

/-! ### System registers -/

section
variable (s : State)

@[simp] theorem memOk_modCx (f : Context → Context) : (s.modCx f).memOk = s.memOk := by simp [State.modCx]

@[simp] theorem memOk_laneDone (g lane : Nat) (abort : Bool) : (s.laneDone g lane abort).memOk = s.memOk := by
  unfold State.laneDone
  split <;> simp

@[simp] theorem memOk_modTrap (f : Entry → Entry) : (s.modTrap f).memOk = s.memOk := by
  unfold State.modTrap
  split <;> simp

@[simp] theorem memOk_writeSys (reg : Nat) (w : Word) : (s.writeSys reg w).memOk = s.memOk := by
  unfold State.writeSys
  split <;> simp [State.writeTable, State.writeEntry]

end

theorem answerKeeps_sysWrite (s : State) (reg : Nat) (w : Word) : AnswerKeeps (s.sysWrite reg w) := by
  unfold State.sysWrite
  split
  · trivial
  · exact keeps_frame fun _ => memOk_writeSys _ _ _

theorem answerKeeps_pfdone (s : State) (x : Nat → Word) : AnswerKeeps (s.pfdone x) := by
  unfold State.pfdone
  split
  · trivial
  · split
    · trivial
    · exact keeps_frame fun t => by simp

end Sys2Proof.Machine
end

section
/-! SUPPORT. The engines' element accesses, shape records, copies and barrier objects keep the byte memories canonical. -/

namespace Sys2Proof.Machine

open Sys2Proof

/-! ### Element accesses -/

section
variable {s : State} (h : s.memOk = true)
include h

@[simp] theorem memOk_leaveTarget (t : Target) : (s.leaveTarget t).memOk = true := memOk_fills (memOk_leave h _) _

@[simp] theorem memOk_leaveTargets (ts : List Target) : (s.leaveTargets ts).memOk = true :=
  memOk_foldl h (fun _ _ hs => memOk_leaveTarget hs _) ts

@[simp] theorem memOk_engGet (g : Nat) (q : Except EngStop Target) : (s.engGet g q).1.memOk = true := by
  unfold State.engGet
  split
  · exact h
  · split
    · exact h
    · split
      · exact h
      · simp [h]

@[simp] theorem memOk_engWalked (g : Nat) (priv use : Bool) (addr : DWord) (size : Nat) (k : XKind) :
    (s.engWalked g priv use addr size k).memOk = true := memOk_mark h _

@[simp] theorem memOk_engRead (g : Nat) (priv use : Bool) (addr : DWord) (size : Nat) :
    (s.engRead g priv use addr size).1.memOk = true := by
  unfold State.engRead
  split
  · exact memOk_engWalked h _ _ _ _ _ _
  · exact memOk_engGet h _ _

@[simp] theorem memOk_engWrite (who : Behind) (priv use : Bool) (addr : DWord) (size : Nat) (f : Nat → Nat) :
    (s.engWrite who priv use addr size f).1.memOk = true := by
  simp only [State.engWrite]
  split
  · exact memOk_engWalked h _ _ _ _ _ _
  · split
    · split
      · exact h
      · exact memOk_lostStore h _ _
    · exact h
    · split
      · exact h
      · exact memOk_foldl (memOk_leaveTarget h _) (fun _ _ hs => memOk_writeLoc hs _ _ _ _ _) _

/-! ### Shape records and the walk -/

@[simp] theorem memOk_engRead64 (g : Nat) (priv use : Bool) (addr : DWord) :
    (s.engRead64 g priv use addr).1.memOk = true :=
  memOk_foldl_fst h (fun q j hq => by
    split
    · exact hq
    · have hr := memOk_engRead hq g priv use (addr + BitVec.ofNat 64 (8 * j)) 8
      dsimp only
      split <;> exact hr) _ _

@[simp] theorem memOk_readPieces (g : Nat) (priv use : Bool) (addr : DWord) (n : Nat) (bs : List Byte) :
    (s.readPieces g priv use addr n bs).1.memOk = true := by
  induction n generalizing s bs with
  | zero => exact h
  | succ n ih =>
    have hr := memOk_engRead64 h g priv use (addr + BitVec.ofNat 64 bs.length)
    simp only [State.readPieces]
    split
    · exact hr
    · exact ih hr _

@[simp] theorem memOk_readRec (g : Nat) (priv use : Bool) (addr : DWord) : (s.readRec g priv use addr).1.memOk = true := by
  have hr := memOk_engRead64 h g priv use addr
  simp only [State.readRec]
  split
  · exact hr
  · split
    · exact hr
    · exact memOk_readPieces hr _ _ _ _ _ _

@[simp] theorem memOk_readShape (g : Nat) (priv use : Bool) (addr : DWord) :
    (s.readShape g priv use addr).1.memOk = true := by
  have hr := memOk_readRec h g priv use addr
  simp only [State.readShape]
  split
  · exact h
  · split
    · exact h
    · split
      · exact hr
      · split <;> exact hr

omit h in
/-- A walk keeps what its reads of index tables keep. -/
theorem memOk_walkDims {rd : State → Nat → State × Except EngStop Nat}
    (hrd : ∀ s a, s.memOk = true → (rd s a).1.memOk = true) (tables : List Nat) {s : State} (h : s.memOk = true)
    (ds : List Dim) (is : List Nat) (off : Int) : (s.walkDims rd tables ds is off).1.memOk = true := by
  induction ds generalizing s is off with
  | nil => exact h
  | cons d r ih =>
    simp only [State.walkDims]
    split
    · exact ih h _ _
    · have hq := hrd s (tables.getD d.slot 0 + 4 *
        ((if (d.rowed && decide (r ≠ [])) = true then (is.drop 1).headD 0 else 0) * d.extent + is.headD 0)) h
      split
      · exact hq
      · split
        · exact hq
        · exact ih hq _ _
    · split <;> split
      · exact h
      · exact ih h _ _
      · exact h
      · exact ih h _ _

@[simp] theorem memOk_walkElement (g : Nat) (priv use : Bool) (r : ShapeRec) (i : Nat) :
    (s.walkElement g priv use r i).1.memOk = true :=
  memOk_walkDims (fun _ _ hs => memOk_engRead hs _ _ _ _ _) _ h _ _ _

end

/-! ### Instructions that read as they issue -/

@[simp] theorem memOk_noteOwn (s : State) (k : XKind) (t : Target) : (s.noteOwn k t).memOk = s.memOk :=
  memOk_noteAtOnce ..

/-- An answer whose change is made after the instruction's own reads are noted. -/
theorem answerKeeps_map {e : Except Stop (State → State)} (he : AnswerKeeps e) (k : XKind) (t : Target) :
    AnswerKeeps (e.map fun f u => f (u.noteOwn k t)) := by
  rcases e with e | f
  · exact he
  · exact fun s h => he _ (by simp [h])

theorem answerKeeps_openPiece (s : State) (form : AForm) (addr : DWord) (size : Nat) (base : DWord) (len : Nat)
    (k : XKind) (ops : List DWord) {cont : Target → Except Stop (State → State)} (hc : ∀ t, AnswerKeeps (cont t)) :
    AnswerKeeps (s.openPiece form addr size base len k ops cont) := by
  simp only [State.openPiece]
  split
  · trivial
  · exact answerKeeps_machineCheck _ _
  · trivial
  · split
    · trivial
    · exact fun t h => memOk_waitLogged (memOk_leaveWalk h _) _ _ _ _ _
  · split
    · exact answerKeeps_map (hc _) _ _
    · trivial

theorem answerKeeps_openAt (s : State) (form : AForm) (addr : DWord) (size : Nat) (k : XKind) (ops : List DWord)
    {cont : Target → Except Stop (State → State)} (hc : ∀ t, AnswerKeeps (cont t)) :
    AnswerKeeps (s.openAt form addr size k ops cont) := answerKeeps_openPiece s _ _ _ _ _ _ _ hc

theorem answerKeeps_openLocal (s : State) (addr : DWord) (n : Nat)
    {cont : List Byte → List Target → Except Stop (State → State)} (hc : ∀ bs ts, AnswerKeeps (cont bs ts)) :
    AnswerKeeps (s.openLocal addr n cont) := by
  have go : ∀ k o bs ts, AnswerKeeps (State.openLocal.go s addr n cont s.cur.group k o bs ts) := by
    intro k
    induction k with
    | zero => exact fun o bs ts => hc bs ts
    | succ k ih => exact fun o bs ts => answerKeeps_openPiece s _ _ _ _ _ _ _ fun t => ih _ _ _
  exact go _ _ _ _

theorem answerKeeps_afterFault (s : State) {k : Except Stop (State → State)} (hk : AnswerKeeps k) :
    AnswerKeeps (s.afterFault k) := by
  unfold State.afterFault
  split
  · exact keeps_id
  · split
    · trivial
    · exact hk
  · exact hk

/-! ### Barrier objects and copies at issue -/

section
variable {s : State} (h : s.memOk = true)
include h

@[simp] theorem memOk_updateBar (t : Target) (f : Bar → Bar) : (s.updateBar t f).memOk = true :=
  memOk_foldl (memOk_leaveTarget h t) (fun s p hs => by
    split
    · exact memOk_writeScr hs _ _ _
    · exact hs) _

end

theorem planKeeps_bar (form : AForm) (addr : State → DWord) (publish : Bool) (f : State → Bar → Bar) :
    PlanKeeps (barPlan form addr publish f) := by
  intro s
  refine answerKeeps_afterFault s (answerKeeps_openAt s _ _ _ _ _ fun t => ?_)
  split
  · trivial
  · exact fun v hv => memOk_updateBar hv _ _

theorem planKeeps_copy (linear : Bool) (a : Src) : PlanKeeps (copyPlan linear a) := by
  intro s
  simp only [copyPlan]
  refine answerKeeps_afterFault s ?_
  split
  · trivial
  · refine answerKeeps_openLocal s _ _ fun bs ts => ?_
    split
    · trivial
    · split
      · trivial
      · split
        · trivial
        · exact fun t ht => by simp [ht]

/-! ### Copies as they move -/

@[simp] theorem memOk_freeBytes (s : State) (n v : Nat) (p : Nat → Bool) : (s.freeBytes n v p).2.memOk = s.memOk := by
  unfold State.freeBytes
  split <;> simp

@[simp] theorem memOk_putCopy (s : State) (g n : Nat) (c : Copy) : (s.putCopy g n c).memOk = s.memOk := by
  simp [State.putCopy]

@[simp] theorem memOk_copyEnd (s : State) (g n : Nat) (c : Copy) (fail : Option (Cause × DWord)) :
    (s.copyEnd g n c fail).memOk = s.memOk := by
  simp [State.copyEnd]

section
variable {s : State} (h : s.memOk = true)
include h

@[simp] theorem memOk_dstPos (g : Nat) (c : Copy) (x : CopyShape) (use : Bool) (i : Nat) :
    (s.dstPos g c x use i).1.memOk = true := by
  unfold State.dstPos
  split
  · exact h
  · exact memOk_walkElement h _ _ _ _ _

@[simp] theorem memOk_copyShape (g : Nat) (c : Copy) (use : Bool) : (s.copyShape g c use).1.memOk = true := by
  have hq := memOk_readShape h g c.priv use c.srec
  have hp := memOk_readShape hq g c.priv use c.drec
  simp only [State.copyShape]
  split
  · exact hq
  · split
    · exact hq
    · split
      · exact hp
      · split <;> exact hp

@[simp] theorem memOk_copyRead (g : Nat) (c : Copy) (x : CopyShape) (use : Bool) (a : DWord) (n : Nat) :
    (s.copyRead g c x use a n).1.memOk = true := by
  have hr := memOk_engRead h g c.priv use a n
  simp only [State.copyRead]
  split <;> simp [hr]

@[simp] theorem memOk_copyWalk (g : Nat) (c : Copy) (x : CopyShape) (use : Bool) (r : ShapeRec) (i : Nat) :
    (s.copyWalk g c x use r i).1.memOk = true :=
  memOk_walkDims (fun _ _ hs => memOk_copyRead hs _ _ _ _ _ _) _ h _ _ _

@[simp] theorem memOk_copyDst (g : Nat) (c : Copy) (x : CopyShape) (use : Bool) (i : Nat) :
    (s.copyDst g c x use i).1.memOk = true := by
  unfold State.copyDst
  split
  · exact h
  · exact memOk_copyWalk h _ _ _ _ _ _

theorem memOk_moveElement (g : Nat) (c : Copy) (x : CopyShape) (use : Bool) (i : Nat) :
    (s.moveElement g c x use i).1.memOk = true := by
  have hq := memOk_copyWalk h g c x use x.src i
  have hr := fun a n => memOk_copyRead hq g c x use a n
  unfold State.moveElement
  extract_lets q
  split
  · exact hq
  · extract_lets v d
    have hv : v.1.memOk = true := by
      unfold v
      split
      · exact hq
      · exact hq
      · exact hr _ _
    have hd : d.1.memOk = true := memOk_copyDst hv _ _ _ _ _
    split
    · exact hv
    · split
      · exact hd
      · exact memOk_engWrite (by simp [hd]) _ _ _ _ _ _
      · exact hd

theorem memOk_linearByte (g : Nat) (c : Copy) (use : Bool) (i : Nat) : (s.linearByte g c use i).1.memOk = true := by
  have hr := memOk_engRead h g c.priv use (c.sbase + BitVec.ofNat 64 i) 1
  simp only [State.linearByte]
  split <;> simp [hr]

theorem memOk_linearBytes (g : Nat) (c : Copy) (use : Bool) (i n : Nat) :
    (s.linearBytes g c use i n).1.memOk = true := by
  induction n generalizing s i with
  | zero => exact h
  | succ n ih =>
    have hq := memOk_linearByte h g c use i
    simp only [State.linearBytes]
    split
    · exact hq
    · exact ih hq _

theorem memOk_moveByte (g : Nat) (c : Copy) (use : Bool) (i : Nat) : (s.moveByte g c use i).1.memOk = true := by
  have hr := memOk_linearByte h g c use i
  simp only [State.moveByte]
  split
  · exact hr
  · exact memOk_engWrite hr _ _ _ _ _ _

theorem memOk_moveLinear (g : Nat) (c : Copy) (use : Bool) (i : Nat) : (s.moveLinear g c use i).1.memOk = true := by
  have hr := memOk_linearBytes h g c use i 128
  have hb := memOk_moveByte h g c use i
  simp only [State.moveLinear]
  split
  · exact hb
  · split
    · exact hb
    · exact hr
    · split
      · exact h
      · rw [memOk_repairLines]
        exact memOk_writePhys (memOk_leaveTarget hr _) _ _ _ _

@[simp] theorem memOk_copyStop (g n : Nat) (c : Copy) (e : EngStop) : (s.copyStop g n c e).memOk = true := by
  unfold State.copyStop
  split
  · exact h
  · exact memOk_machineCheck h _ _
  · exact memOk_addFault (by simp [h]) _ _ _
  · simp [h]

@[simp] theorem memOk_moveSome (g n : Nat) (x : Option CopyShape) (use : Bool) (k : Nat) :
    (s.moveSome g n x use k).memOk = true := by
  induction k generalizing s with
  | zero => exact h
  | succ k ih =>
    unfold State.moveSome
    split
    · exact h
    · split
      · exact h
      · extract_lets m
        have hm : m.1.memOk = true := by
          unfold m
          split
          · exact memOk_moveElement h _ _ _ _ _
          · exact memOk_moveLinear h _ _ _ _
        split
        · exact memOk_copyStop hm _ _ _ _
        · exact ih (by simp [hm])

@[simp] theorem memOk_copyFinish (g n : Nat) (c : Copy) (use : Bool) : (s.copyFinish g n c use).memOk = true := by
  simp only [State.copyFinish]
  split
  · exact h
  · split
    · simp [h]
    · split
      · split
        · exact h
        · split
          · rw [memOk_copyEnd]
            exact memOk_updateBar h _ _
          · exact memOk_copyStop h _ _ _ _
      · exact h
      · exact memOk_machineCheck h _ _
      · split
        · simp [h]
        · exact memOk_copyStop h _ _ _ _
      · simp [h]

@[simp] theorem memOk_copyRun (g n k : Nat) (x : Option CopyShape) (use : Bool) : (s.copyRun g n k x use).memOk = true := by
  have hm := memOk_moveSome h g n x use k
  simp only [State.copyRun]
  split
  · exact hm
  · split
    · exact memOk_copyFinish hm _ _ _ _
    · exact hm

@[simp] theorem memOk_copyStep (g n k : Nat) : (s.copyStep g n k).memOk = true := by
  have hc : s.chosen.memOk = true := by simp [h]
  have hq := fun c use => memOk_copyShape hc g c use
  simp only [State.copyStep]
  split
  · exact h
  · split
    · exact hc
    · split
      · exact memOk_copyRun (by simp [hc]) _ _ _ _ _
      · split
        · exact memOk_copyRun hc _ _ _ _ _
        · split
          · exact memOk_copyRun (hq _ _) _ _ _ _ _
          · exact memOk_copyRun (memOk_copyStop (hq _ _) _ _ _ _) _ _ _ _ _

end

end Sys2Proof.Machine
end

section
/-! SUPPORT. The matrix engine's jobs and the matrix instructions as they issue keep the byte memories canonical. -/

namespace Sys2Proof.Machine

open Sys2Proof

/-! ### Jobs, tiles and macros -/

section
variable (s : State)

@[simp] theorem memOk_modJob (g : Nat) (f : Job → Option Job) : (s.modJob g f).memOk = s.memOk := by
  simp only [State.modJob]
  split
  · split <;> simp
  · simp

@[simp] theorem memOk_clearTiles (g : Nat) (ns : List Nat) : (s.clearTiles g ns).memOk = s.memOk := by
  simp [State.clearTiles]

@[simp] theorem memOk_dropJob (j : Job) : (s.dropJob j).memOk = s.memOk := by
  simp only [State.dropJob]
  split <;> simp

@[simp] theorem memOk_lateJob (j : Job) (c : Cause) (addr : DWord) : (s.lateJob j c addr).memOk = s.memOk := by
  simp [State.lateJob]

@[simp] theorem memOk_ladderPlanes (j : Job) (x : Lad) (hi n : Nat) : (s.ladderPlanes j x hi n).memOk = s.memOk := by
  simp [State.ladderPlanes]

@[simp] theorem memOk_recordLadder (j : Job) (x : Lad) (st : TState) (next : Nat) :
    (s.recordLadder j x st next).memOk = s.memOk := by
  simp [State.recordLadder]

@[simp] theorem memOk_addFlags (g : Nat) (f : Word) : (s.addFlags g f).memOk = s.memOk := by simp [State.addFlags]

@[simp] theorem memOk_finishLadder (j : Job) (x : Lad) : (s.finishLadder j x).memOk = s.memOk := by
  simp [State.finishLadder]

@[simp] theorem memOk_runLadder (j : Job) (x : Lad) : (s.runLadder j x).memOk = s.memOk := by
  simp only [State.runLadder]
  split <;> simp

@[simp] theorem memOk_mmfSteps (j : Job) (f : MFmt) (q m c k0 k1 : Nat) :
    (s.mmfSteps j f q m c k0 k1).1.memOk = s.memOk := by
  simp [State.mmfSteps]

@[simp] theorem memOk_runMmf (j : Job) (f : MFmt) (q m c : Nat) : (s.runMmf j f q m c).memOk = s.memOk := by
  simp [State.runMmf]

@[simp] theorem memOk_putStat (j : Job) (q : Nat) : (s.putStat j q).memOk = s.memOk := by simp [State.putStat]

@[simp] theorem memOk_stopLadder (j : Job) (x : Lad) (n : Nat) : (s.stopLadder j x n).1.memOk = s.memOk := by
  simp only [State.stopLadder]
  split <;> simp

@[simp] theorem memOk_stopMmf (j : Job) (f : MFmt) (q m c n : Nat) : (s.stopMmf j f q m c n).1.memOk = s.memOk := by
  simp only [State.stopMmf]
  split <;> simp

end

/-! ### Fetching -/

theorem memOk_fst_ite {α : Type} {c : Prop} [Decidable c] {p q : State × α} (hp : p.1.memOk = true)
    (hq : q.1.memOk = true) : (if c then p else q).1.memOk = true := by
  split <;> assumption

/-- Fills that end in a state keep the byte memories. -/
def FilledKeeps : Except EngStop State → Prop
  | .ok t => t.memOk = true
  | .error _ => True

theorem FilledKeeps.ok {q : Except EngStop State} {t : State} (hq : FilledKeeps q) (e : q = .ok t) : t.memOk = true := by
  rw [e] at hq
  exact hq

section
variable {s : State} (h : s.memOk = true)
include h

@[simp] theorem memOk_loadMacro (g n : Nat) (tag : WTag) (o : Nat) : (s.loadMacro g n tag o).memOk = true :=
  memOk_setTeam h _ (memOk_scratch h _)

@[simp] theorem memOk_reloadMacros (g : Nat) : (s.reloadMacros g).memOk = true := by
  simp only [State.reloadMacros]
  split
  · exact memOk_setTeam h _ (memOk_scratch h _)
  · exact h

theorem filledKeeps_fillRange (g o n : Nat) (priv use : Bool) : FilledKeeps (s.fillRange g o n priv use) := by
  refine List.foldlRecOn (motive := FilledKeeps) _ _ h fun q hq x _ => ?_
  split
  · trivial
  · split
    · exact memOk_fills hq _
    all_goals trivial

theorem filledKeeps_fillRanges (g : Nat) (priv use : Bool) (rs : List (Nat × Nat)) :
    FilledKeeps (s.fillRanges g priv use rs) := by
  refine List.foldlRecOn (motive := FilledKeeps) _ _ h fun q hq x _ => ?_
  split
  · trivial
  · exact filledKeeps_fillRange hq _ _ _ _ _

@[simp] theorem memOk_ownTable (g : Nat) (priv use : Bool) (a : Nat) : (s.ownTable g priv use a).1.memOk = true := by
  have hr := memOk_engRead h g priv use (BitVec.ofNat 64 a) 4
  simp only [State.ownTable]
  split
  · exact h
  · split <;> exact hr

@[simp] theorem memOk_convElem (g : Nat) (priv use : Bool) (r : ShapeRec) (base : DWord) (e : Nat) :
    (s.convElem g priv use r base e).1.memOk = true := by
  have hq := memOk_walkDims (rd := fun s a => s.ownTable g priv use a) (fun _ a hs => memOk_ownTable hs g priv use a) r.tables h r.dims (indicesOf r.dims e) 0
  simp only [State.convElem]
  split
  · exact h
  · split
    · exact hq
    · exact hq
    · exact hq
    · exact hq
    · split
      · exact hq
      · have hv := fun a => memOk_engRead hq g priv use a 1
        split <;> exact hv _

@[simp] theorem memOk_convRow (g : Nat) (priv use : Bool) (r : ShapeRec) (base : DWord) (e0 : Nat) :
    (s.convRow g priv use r base e0).1.memOk = true :=
  memOk_foldl_fst h (fun q k hq => by
    have hv := memOk_convElem hq g priv use r base (e0 + k)
    split
    · exact hq
    · exact hq
    · dsimp only
      split <;> exact hv) _ _

@[simp] theorem memOk_convRows (g : Nat) (priv use : Bool) (desc : List Byte) (nib : Bool) (m : Word) :
    (s.convRows g priv use desc nib m).1.memOk = true := by
  have hr := memOk_readShape h g priv use (BitVec.ofNat 64 (fieldAt desc 8 8))
  simp only [State.convRows]
  split
  · exact h
  · split
    · exact hr
    · exact hr
    · refine memOk_fst_ite hr (memOk_foldl_fst hr (fun q i hq => ?_) _ _)
      split
      · exact hq
      · split <;> simp [hq]

@[simp] theorem memOk_fetchRows (j : Job) (use : Bool) : (s.fetchRows j use).1.memOk = true := by
  have hf := filledKeeps_fillRanges h j.group j.priv use j.ranges
  have hc := fun nib => memOk_convRows h j.group j.priv use j.desc nib j.mask
  simp only [State.fetchRows]
  split
  · split
    · split
      · exact hc _
      · split <;> exact hc _
    · split
      · exact hf.ok ‹_›
      · exact h
  · split
    · exact hf.ok ‹_›
    · exact h

@[simp] theorem memOk_fetchJob (j : Job) (use : Bool) : (s.fetchJob j use).memOk = true := by
  have hq := memOk_fetchRows h j use
  simp only [State.fetchJob]
  split
  · simp [hq]
  · split
    · exact h
    · exact memOk_addFault (by simp [h]) _ _ _
  · exact memOk_machineCheck h _ _
  · exact h
  all_goals simp [h]

@[simp] theorem memOk_startJob (c : Nat) : (s.startJob c).memOk = true := by
  unfold State.startJob
  split
  · exact h
  · split
    · exact h
    · exact memOk_fetchJob (memOk_reloadMacros (by simp [h]) _) _ _

@[simp] theorem memOk_resumeJob (c : Nat) : (s.resumeJob c).memOk = true := by
  unfold State.resumeJob
  split
  · exact h
  · split
    · exact h
    · split
      · exact h
      · exact memOk_startJob (by simp [h]) _

/-! ### Completion -/

@[simp] theorem memOk_runDrain (j : Job) (d : Drain) (use : Bool) : (s.runDrain j d use).memOk = true := by
  unfold State.runDrain
  extract_lets g rows all faulted entry
  split
  · exact memOk_machineCheck h _ _
  · split
    · exact h
    · rename_i gr s1 fl parts fm a s2 gr2 gr3 gr4 s3 s4 s5 _ _ _
      have h1 : s1.memOk = true := memOk_foldl h (fun s r hs => by
        split
        · exact memOk_leaveTarget hs _
        · exact memOk_leaveWalk hs _
        · exact hs) _
      have h3 : s3.memOk = true := by simp [s3, s2, h1]
      have h4 : s4.memOk = true := memOk_foldl h3 (fun s r hs => by
        split
        · simp [hs]
        · exact hs) _
      have h5 : s5.memOk = true := by
        unfold s5
        clear_value entry
        split
        · exact memOk_foldl h4 (fun s r hs => by
            split
            · exact memOk_addFault hs _ _ _
            · exact hs) _
        · exact h4
      simp [h5]

@[simp] theorem memOk_writeImage (g o : Nat) (bs : List Byte) : (s.writeImage g o bs).memOk = true :=
  memOk_foldl h (fun _ _ hs => memOk_writeScr hs _ _ _) _

@[simp] theorem memOk_finishJob (j : Job) : (s.finishJob j).memOk = true := by
  simp only [State.finishJob]
  split
  · rw [memOk_chargeG]
    exact memOk_foldl h (fun _ _ hs => memOk_loadMacro hs _ _ _ _) _
  · simp [h]
  · simp [h]
  · simp [h]
  · rw [memOk_chargeG]
    exact memOk_foldl h (fun _ _ hs => memOk_writeImage hs _ _ _) _
  · simp [h]
  · simp [h]
  · split
    · simp [h]
    · exact h

@[simp] theorem memOk_completeJob (c : Nat) : (s.completeJob c).memOk = true := by
  unfold State.completeJob
  split
  · exact h
  · split
    · exact h
    · split
      · exact memOk_runDrain (by simp [h]) _ _ _
      · simp [h]
      · simp [h]

@[simp] theorem memOk_stopJob (c n : Nat) : (s.stopJob c n).memOk = true := by
  unfold State.stopJob
  split
  · exact h
  · rename_i j _
    extract_lets park r
    have hp : ∀ t j, (park t j).memOk = t.memOk := by simp [park]
    have hr : r.1.memOk = true := by
      unfold r
      split
      · simp [h]
      · simp [h]
      · simp [h]
      · split <;> simp [h]
      · split <;> simp [h]
    split
    · simp [hp, h]
    · split
      · simp [hp, hr]
      · simp [hr]

end

/-! ### The matrix instructions as they issue -/

section
variable (s : State)

theorem answerKeeps_localChecks (a : DWord) (rs : List (Nat × LaneRes)) {k : Except Stop (State → State)}
    (hk : AnswerKeeps k) : AnswerKeeps (s.localChecks a rs k) := by
  unfold State.localChecks
  split
  · trivial
  · exact hk

theorem answerKeeps_wholeChecks (a : DWord) (n al : Nat) {k : Except Stop (State → State)} (hk : AnswerKeeps k) :
    AnswerKeeps (s.wholeChecks a n al k) := answerKeeps_localChecks s _ _ hk

theorem answerKeeps_rowChecks (a : DWord) (n : Nat) {k : Except Stop (State → State)} (hk : AnswerKeeps k) :
    AnswerKeeps (s.rowChecks a n k) := answerKeeps_localChecks s _ _ hk

omit s in
theorem answerKeeps_giveJob (j : Job) : AnswerKeeps (giveJob j) := fun t ht => by simp [ht]

theorem answerKeeps_engStop (a : DWord) (covers : List (Nat × Nat × Nat)) (e : EngStop) :
    AnswerKeeps (s.engStop a covers e) := by
  simp only [State.engStop]
  split
  · trivial
  · exact answerKeeps_machineCheck _ _
  · trivial
  · split
    · trivial
    · exact fun t ht => memOk_waitLogged ht _ _ _ _ _

theorem answerKeeps_openRange (o n : Nat) {k : State → List Byte → Except Stop (State → State)}
    (hk : ∀ t bs, AnswerKeeps (k t bs)) : AnswerKeeps (s.openRange o n k) := by
  simp only [State.openRange]
  split
  · trivial
  · split
    · exact answerKeeps_engStop s _ _ _
    · exact hk _ _

end

/-- The two checks that come before every matrix instruction's own part: MX is free, and the operands are good. -/
theorem answerKeeps_mxChecks {c d : Prop} [Decidable c] [Decidable d] (s : State) (z : Cause)
    {k : Except Stop (State → State)} (hk : AnswerKeeps k) :
    AnswerKeeps (if c then .error .stall else if d then s.stop z else k) :=
  answerKeeps_ite trivial (answerKeeps_ite (answerKeeps_stop s z) hk)

theorem planKeeps_mmr (i : Instr) (x : Lad) (a : Src) : PlanKeeps (mmrPlan i x a) := fun s =>
  answerKeeps_mxChecks s _ (answerKeeps_rowChecks s _ _ (answerKeeps_giveJob _))

theorem planKeeps_mmc (i : Instr) (x : Lad) (a : Src) : PlanKeeps (mmcPlan i x a) := fun s =>
  answerKeeps_afterFault s <| answerKeeps_mxChecks s _ <| answerKeeps_wholeChecks s _ _ _ <|
    answerKeeps_openRange s _ _ fun t desc => by
      dsimp only
      split
      · trivial
      · trivial
      · exact answerKeeps_engStop s _ _ _
      · trivial
      · split
        · trivial
        · exact fun u hu => by simp [hu]

theorem planKeeps_drain (i : Instr) (f : DFmt) (r : RSel) (z : Bool) (a : Src) (q c sv : Nat) :
    PlanKeeps (drainPlan i f r z a q c sv) := fun s =>
  answerKeeps_mxChecks s _ <| by
    dsimp only
    split
    · trivial
    · split
      · exact answerKeeps_machineCheck _ _
      · exact answerKeeps_ite trivial (answerKeeps_ite trivial (answerKeeps_giveJob _))

theorem planKeeps_wld (tag : WTag) (m : Nat) (a : Src) (c : Nat) : PlanKeeps (planWld tag m a c) := fun s =>
  answerKeeps_mxChecks s _ (answerKeeps_wholeChecks s _ _ _ (answerKeeps_giveJob _))

theorem planKeeps_mmf (f : MFmt) (q m c : Nat) (a : Src) : PlanKeeps (planMmf f q m c a) := fun s =>
  answerKeeps_mxChecks s _ (answerKeeps_rowChecks s _ _ (answerKeeps_giveJob _))

theorem planKeeps_qzero (q c : Nat) : PlanKeeps (planQzero q c) := fun s =>
  answerKeeps_mxChecks s _ (answerKeeps_giveJob _)

theorem planKeeps_qscale (bf16 : Bool) (t : ScaleT) (q : Nat) (a : Src) : PlanKeeps (planQscale bf16 t q a) := fun s =>
  answerKeeps_mxChecks s _ (answerKeeps_wholeChecks s _ _ _ (answerKeeps_giveJob _))

theorem planKeeps_qsave (a : Src) (q c : Nat) : PlanKeeps (planQsave a q c) := fun s =>
  answerKeeps_mxChecks s _ (answerKeeps_wholeChecks s _ _ _ (answerKeeps_giveJob _))

theorem planKeeps_qload (a : Src) (q c : Nat) : PlanKeeps (planQload a q c) := fun s =>
  answerKeeps_afterFault s <| answerKeeps_mxChecks s _ <| answerKeeps_wholeChecks s _ _ _ <|
    answerKeeps_openRange s _ _ fun t bs => answerKeeps_ite (answerKeeps_stop s _) fun u hu => by
      simp only [memOk_setCore]
      split
      · exact (filledKeeps_fillRange hu _ _ _ _ _).ok ‹_›
      · exact hu

theorem planKeeps_qstat (d : Dst) (q : Nat) : PlanKeeps (planQstat d q) := fun s =>
  answerKeeps_mxChecks s _ (keeps_frame fun t => by simp)

end Sys2Proof.Machine
end

section
/-! SUPPORT. The version instructions, the commits of passes, the ends of launches and the decision of admission keep the
byte memories canonical. -/

namespace Sys2Proof.Machine

open Sys2Proof

/-! ### Records of result objects -/

section
variable {s : State} (h : s.memOk = true)
include h

@[simp] theorem memOk_putWords (pa : Nat) (ws : List (Nat × Nat × Nat)) : (s.putWords pa ws).memOk = true :=
  memOk_withMem (s := s.sweep _) (by simp [h]) (wf_foldl (fun _ _ hm => Memory.write_wf _ _ _ hm) (memOk_mem h) _)

@[simp] theorem memOk_openPass (pa k slot : Nat) : (s.openPass pa k slot).memOk = true := memOk_putWords h _ _

@[simp] theorem memOk_commitPass (pa q : Nat) (final : Bool) : (s.commitPass pa q final).memOk = true :=
  memOk_putWords h _ _

@[simp] theorem memOk_pinCount (pa slot : Nat) (f : Nat → Nat) : (s.pinCount pa slot f).memOk = true :=
  memOk_putWords h _ _

@[simp] theorem memOk_unpin (g n : Nat) : (s.unpin g n).memOk = true := by
  unfold State.unpin
  split
  · simp [h]
  · exact h

@[simp] theorem memOk_pin (g n pa slot : Nat) : (s.pin g n pa slot).memOk = true := by simp [State.pin, h]

@[simp] theorem memOk_commitHandle (l n : Nat) : (s.commitHandle l n).memOk = true := by
  unfold State.commitHandle
  extract_lets x
  split
  · exact h
  · split
    · exact h
    · split
      · exact memOk_machineCheck h _ _
      · simp [h]

@[simp] theorem memOk_commitAll (l : Nat) : (s.commitAll l).memOk = true :=
  memOk_foldl h (fun _ _ hs => memOk_commitHandle hs _ _) _

@[simp] theorem memOk_cutUpdate (l : Nat) : (s.cutUpdate l).memOk = true := by
  unfold State.cutUpdate
  extract_lets x
  split
  · exact h
  · split
    · exact h
    · split
      · exact memOk_machineCheck h _ _
      · have he := fun r t => memOk_endLaunch (memOk_commitAll h l) l r true true t
        have hp := fun r t fn code unit ctx d => memOk_post (he r t) fn code unit ctx d
        dsimp only
        split
        · simp [hp]
        · exact hp _ _ _ _ _ _ _

end

@[simp] theorem memOk_recordSeal (s : State) (g n : Nat) (k : Word) (q : Nat) (final : Bool) :
    (s.recordSeal g n k q final).memOk = s.memOk := by
  simp only [State.recordSeal]
  split <;> simp

/-! ### The version instructions -/

theorem answerKeeps_withRecord (s : State) (n : Nat) (k : XKind) (ops : List DWord)
    {cont : Nat → Except Stop (State → State)} (hc : ∀ pa, AnswerKeeps (cont pa)) :
    AnswerKeeps (s.withRecord n k ops cont) := by
  simp only [State.withRecord]
  refine answerKeeps_afterFault s ?_
  split
  · trivial
  · split
    · rename_i pa _ _ _
      split
      · exact answerKeeps_machineCheck _ _
      · split
        · trivial
        · have hk := hc pa
          split
          · rename_i f e
            rw [e] at hk
            exact fun t ht => hk _ (memOk_leave (by simp [ht]) _)
          · rename_i e
            rw [e] at hk
            exact hk
    · exact answerKeeps_machineCheck _ _
    · split
      · exact fun t ht => memOk_waitLogged (memOk_leaveWalk ht _) _ _ _ _ _
      · trivial
      · trivial

theorem planKeeps_seal (n : Nat) (a : Src) (b : Nat) (final : Bool) : PlanKeeps (sealPlan n a b final) := fun s =>
  answerKeeps_ite (answerKeeps_stop s _) <| answerKeeps_ite (answerKeeps_stop s _) <|
    answerKeeps_withRecord s _ _ _ fun _ => answerKeeps_ite (answerKeeps_stop s _) <|
      answerKeeps_ite trivial <| keeps_frame fun t => by simp

theorem planKeeps_vbegin (n : Nat) (a : Src) : PlanKeeps (planVbegin n a) := fun s =>
  answerKeeps_ite (answerKeeps_stop s _) <| answerKeeps_ite (answerKeeps_stop s _) <|
    answerKeeps_withRecord s _ _ _ fun _ => by
      split
      · trivial
      · exact keeps_id
      · trivial
      · exact fun t ht => memOk_openPass ht _ _ _

theorem planKeeps_vslot (prev : Bool) (d n : Nat) : PlanKeeps (planVslot prev d n) := fun s =>
  answerKeeps_ite (answerKeeps_stop s _) <| answerKeeps_withRecord s _ _ _ fun _ => keeps_frame fun t => by simp

theorem planKeeps_vpin (d n : Nat) (a : Src) : PlanKeeps (planVpin d n a) := fun s =>
  answerKeeps_ite (answerKeeps_stop s _) <| answerKeeps_withRecord s _ _ _ fun _ =>
    answerKeeps_ite trivial fun t ht => by
      have hu := memOk_unpin ht s.cur.group n
      simp only [memOk_writeUni, memOk_writePair]
      split
      · exact memOk_pin hu _ _ _ _
      · exact hu

theorem planKeeps_vunpin (n : Nat) : PlanKeeps (planVunpin n) := fun s =>
  answerKeeps_ite (answerKeeps_stop s _) <| answerKeeps_withRecord s _ _ _ fun _ =>
    answerKeeps_ite trivial fun _ ht => memOk_unpin ht _ _

theorem planKeeps_vwait (d n : Nat) (a : Src) (t : Option Src) : PlanKeeps (planVwait d n a t) := fun s =>
  answerKeeps_ite (answerKeeps_stop s _) <| answerKeeps_withRecord s _ _ _ fun _ =>
    answerKeeps_ite (keeps_frame fun t => by simp) trivial

theorem planKeeps_vstat (d : Dst) (n w : Nat) : PlanKeeps (planVstat d n w) := fun s =>
  answerKeeps_ite (answerKeeps_stop s _) <| answerKeeps_withRecord s _ _ _ fun _ => keeps_frame fun t => by simp

theorem planKeeps_vleft (k : LeftK) (d : Nat) : PlanKeeps (planVleft k d) := fun s => keeps_frame fun t => by simp

/-! ### LAUNCH, JOIN, BLEFT and DLINE -/

@[simp] theorem memOk_submit (s : State) (g : Nat) (bs : List Byte) (m : Word) (d : Nat) :
    (s.submit g bs m d).memOk = s.memOk := by
  simp [State.submit]

theorem planKeeps_launch (d : Nat) (a : Src) : PlanKeeps (planLaunch d a) := fun s =>
  answerKeeps_afterFault s <| answerKeeps_wholeChecks s _ _ _ <| answerKeeps_openRange s _ _ fun _ _ => by
    refine answerKeeps_ite (show AnswerKeeps (s.uniStop _ _) from trivial) (answerKeeps_ite trivial fun t ht => ?_)
    simp only [memOk_ite, memOk_writeUni, memOk_submit, ite_self]
    split
    · rw [memOk_chosen]
      exact (filledKeeps_fillRange ht _ _ _ _ _).ok ‹_›
    · exact ht

theorem planKeeps_join (d : Nat) (a : Src) : PlanKeeps (planJoin d a) := fun s =>
  answerKeeps_ite trivial <| keeps_frame fun t => by simp

theorem planKeeps_bleft (d : Nat) : PlanKeeps (planBleft d) := fun s => keeps_frame fun t => by simp

theorem planKeeps_dline (rel : Bool) (d : Nat) : PlanKeeps (planDline rel d) := fun s => keeps_frame fun t => by simp

/-! ### Accesses of agents that run in no context, and the decision of admission -/

section
variable (s : State)

@[simp] theorem memOk_launchStatus (g : Nat) (m : Word) (d : Nat) (w : Word) :
    (s.launchStatus g m d w).memOk = s.memOk := by
  unfold State.launchStatus
  split <;> simp

@[simp] theorem memOk_dispatched (fe rd : Nat) (w : Word) : (s.dispatched fe rd w).memOk = s.memOk := by
  simp only [State.dispatched]
  split <;> simp

@[simp] theorem memOk_ringLaunch (ring l : Nat) : (s.ringLaunch ring l).memOk = s.memOk := by simp [State.ringLaunch]

@[simp] theorem memOk_frontLaunch (ring : Option Nat) (l : Nat) : (s.frontLaunch ring l).memOk = s.memOk := by
  unfold State.frontLaunch
  split <;> simp

end

section
variable {s : State} (h : s.memOk = true)
include h

@[simp] theorem memOk_postCheck (pa : Nat) : (s.postCheck pa).memOk = true := memOk_post h _ _ _ _ _

@[simp] theorem memOk_outerWrite (pa : Nat) (bytes : List Byte) : (s.outerWrite pa bytes).memOk = true := by
  unfold State.outerWrite
  split
  · exact memOk_postCheck (by simp [h]) _
  · rw [memOk_repairLines]
    exact memOk_writePhys h _ _ _ _

@[simp] theorem memOk_packetStatus (addr code index : Nat) : (s.packetStatus addr code index).memOk = true :=
  memOk_outerWrite h _ _

@[simp] theorem memOk_answer (x : Submission) (r : Except AdmitCode Nat) : (s.answer x r).memOk = true := by
  unfold State.answer
  split
  · split
    · simp [h]
    · split <;> simp [h]
  · split <;> simp [h]
  · split <;> simp [h]
  · split <;> simp [h]

@[simp] theorem memOk_decide (pref : List Nat) : (s.decide_ pref).memOk = true := by
  unfold State.decide_
  split
  · exact h
  · rename_i x rest _
    have hq : State.memOk (State.tryAdmit { s with submissions := rest } pref x).1 = true :=
      memOk_tryAdmit (by simp [h]) pref x
    dsimp only
    split
    · simp [h]
    · exact memOk_answer hq _ _

end

end Sys2Proof.Machine
end

section
/-! SUPPORT. Fault service, the replay of the operand log, held accesses, slow-path results and the access slice keep the
byte memories canonical. -/

namespace Sys2Proof.Machine

open Sys2Proof

/-! ### Handler groups and slow-path results -/

section
variable {s : State} (h : s.memOk = true)
include h

@[simp] theorem memOk_launchHandler (die ctx : Nat) : (s.launchHandler die ctx).memOk = true := by
  simp only [State.launchHandler]
  split
  · exact h
  · split
    · exact h
    · rw [memOk_arriveFaults]
      exact memOk_setTeam h _ rfl

/-! ### The replay of the operand log -/

@[simp] theorem memOk_replayAccess (g n : Nat) (e : LogEntry) (acc : Nat) : (s.replayAccess g n e acc).memOk = true := by
  unfold State.replayAccess
  split
  · simp [h]
  · extract_lets use rs go lanes
    split
    · exact memOk_machineCheck h _ _
    · split
      · exact h
      · rename_i s1 s2 a' fm e' s3 gr gr1 s4 s5 _ _ _
        have h1 : s1.memOk = true := by
          unfold s1
          split <;> simp [h]
        have h3 : s3.memOk = true := by
          have := memOk_leaveLanes (s := s1.chosen) (by simp [h1]) lanes
          simpa [s3, s2] using this
        split
        · exact memOk_immediate (by simp [h3]) _ _ _ _
        · have h4 : s4.memOk = true := by simp [s4, h3]
          refine memOk_immediate (memOk_foldl h4 (fun s i hs => ?_) _) _ _ _ _
          split
          · exact memOk_addFault hs _ _ _
          · exact hs

@[simp] theorem memOk_replayMatrix (g n : Nat) (e : LogEntry) : (s.replayMatrix g n e).memOk = true := by
  simp only [State.replayMatrix]
  split
  · simp [h]
  · split <;> simp [h]

@[simp] theorem memOk_replayWait (g n : Nat) (e : LogEntry) : (s.replayWait g n e).memOk = true := by
  simp only [State.replayWait]
  split <;> simp [h]

@[simp] theorem memOk_replay (g n : Nat) : (s.replay g n).memOk = true := by
  unfold State.replay
  extract_lets gr
  split
  · exact h
  · split
    · exact h
    · split
      · exact memOk_replayAccess h _ _ _ _
      · exact memOk_replayMatrix h _ _ _
      · exact memOk_replayWait h _ _ _

/-! ### Held accesses -/

@[simp] theorem memOk_performHome (g acc home : Nat) : (s.performHome g acc home).memOk = true := by
  unfold State.performHome
  split
  · exact h
  · simp [h]

@[simp] theorem memOk_arriveAt (g acc : Nat) (v : DWord) (home : Nat) : (s.arriveAt g acc v home).memOk = true := by
  simp only [State.arriveAt]
  split
  · exact h
  · split
    · exact h
    · split
      · split
        · exact h
        · exact memOk_performHome (by simp [h]) _ _ _
      · simp [h]

@[simp] theorem memOk_heldArrive (g acc : Nat) : (s.heldArrive g acc).memOk = true := by
  unfold State.heldArrive
  split
  · exact h
  · split
    · exact h
    · exact memOk_foldl h (fun _ _ hs => memOk_arriveAt hs _ _ _ _) _

@[simp] theorem memOk_release (home : Nat) : (s.release home).memOk = true := by
  unfold State.release
  split
  · exact h
  · split
    · exact h
    · exact memOk_performHome (by simp [h]) _ _ _

end

@[simp] theorem memOk_slowDone (s : State) (g i : Nat) : (s.slowDone g i).memOk = s.memOk := by
  simp only [State.slowDone]
  split
  · split <;> simp
  · rfl

/-! ### The access slice -/

section
variable (s : State)

@[simp] theorem memOk_modSlice (g : Nat) (f : Slice → Slice) : (s.modSlice g f).memOk = s.memOk := by
  simp [State.modSlice]

@[simp] theorem memOk_sliceCause (g : Nat) (c : Cause) (info : Nat) (addr : DWord) :
    (s.sliceCause g c info addr).memOk = s.memOk := by
  simp [State.sliceCause]

@[simp] theorem memOk_slicePut (g pc : Nat) (d : Dst) (sh : Sh) (vals : Lanes) :
    (s.slicePut g pc d sh vals).memOk = s.memOk := by
  unfold State.slicePut
  split <;> simp

@[simp] theorem memOk_slice2 (g pc : Nat) (d : Dst) (a b : Src) (sh : Opnd → Opnd → Sh) (f : Word → Word → Word) :
    (s.slice2 g pc d a b sh f).memOk = s.memOk := by
  simp [State.slice2]

@[simp] theorem memOk_sliceBranch (g here next : Nat) (a : Src) (off : Int) (nonzero : Bool) :
    (s.sliceBranch g here next a off nonzero).memOk = s.memOk := by
  simp only [State.sliceBranch]
  split <;> simp

@[simp] theorem memOk_push (g f : Nat) (v : Lanes) : (s.push g f v).memOk = s.memOk := by simp [State.push]

end

section
variable {s : State} (h : s.memOk = true)
include h

@[simp] theorem memOk_sliceStop (g : Nat) (e : EngStop) : (s.sliceStop g e).memOk = true := by
  unfold State.sliceStop
  split
  · exact h
  · exact memOk_machineCheck h _ _
  · exact memOk_addFault (by simp [h]) _ _ _
  · simp [h]

@[simp] theorem memOk_sliceRead (g : Nat) (priv use : Bool) (t : Target) : (s.sliceRead g priv use t).1.memOk = true :=
  memOk_foldl_fst (by simp [h]) (fun q p hq => by
    split
    · exact memOk_bringLine hq _ _ _ _ _
    · exact hq) _ _

@[simp] theorem memOk_feedLoad (g next : Nat) (fm : AForm) (w : Width) (f : Nat) (a : Src) (off : Int) (priv use : Bool) :
    (s.feedLoad g next fm w f a off priv use).memOk = true := by
  simp only [State.feedLoad]
  split
  · exact h
  · split
    · rw [memOk_sliceCause]
      exact memOk_mark h _
    · split
      · exact memOk_machineCheck h _ _
      · split
        · exact memOk_sliceStop (memOk_leaveWalk h _) _ _
        · split
          · exact memOk_machineCheck h _ _
          · split
            · exact h
            · rw [memOk_modSlice, memOk_push]
              refine memOk_foldl_fst h (fun q t hq => ?_) _ _
              exact memOk_sliceRead hq _ _ _ _

@[simp] theorem memOk_walkWords (g : Nat) (priv use : Bool) (r : ShapeRec) (base : DWord) (n i : Nat) (ws : List Word) :
    (s.walkWords g priv use r base n i ws).1.memOk = true := by
  induction n generalizing s i ws with
  | zero => exact h
  | succ n ih =>
    have hq := memOk_walkElement h g priv use r i
    simp only [State.walkWords]
    split
    · exact ih h _ _
    · split
      · exact hq
      · exact ih hq _ _
      · exact ih hq _ _
      · have hv := fun a m => memOk_engRead hq g priv use a m
        split
        · exact hv _ _
        · exact ih (hv _ _) _ _

@[simp] theorem memOk_walkStep (g : Nat) (w : Walk) (priv use : Bool) : (s.walkStep g w priv use).memOk = true := by
  have hq := memOk_readShape h g priv use w.srec
  simp only [State.walkStep]
  split
  · exact h
  · split
    · exact memOk_sliceStop hq _ _
    · split
      · simp [hq]
      · split
        · exact memOk_sliceStop (memOk_walkWords hq _ _ _ _ _ _ _ _) _ _
        · split <;> simp [hq]

@[simp] theorem memOk_startWalk (g f : Nat) (a : Src) (priv use : Bool) : (s.startWalk g f a priv use).memOk = true := by
  unfold State.startWalk
  extract_lets x addr
  split
  · simp [h]
  · split
    · simp [h]
    · split
      · simp [h]
      · split
        · simp [h]
        · rename_i q _ _ _ _
          have hq : q.1.memOk = true := memOk_foldl_fst h (fun q j hq => by
            split
            · exact hq
            · exact memOk_engGet hq _ _) _ _
          split
          · exact memOk_sliceStop hq _ _
          · split <;> simp [hq]

@[simp] theorem memOk_sliceInstr (g here next : Nat) (i : Instr) (priv use : Bool) :
    (s.sliceInstr g here next i priv use).memOk = true := by
  unfold State.sliceInstr
  split <;> simp [h]

@[simp] theorem memOk_sliceGo (g : Nat) (use : Bool) : (s.sliceGo g use).memOk = true := by
  unfold State.sliceGo
  extract_lets x
  split
  · exact memOk_walkStep h _ _ _ _
  · split
    · rw [memOk_sliceCause]
      exact memOk_leaveWalk h _
    · exact memOk_sliceStop (memOk_leaveWalk h _) _ _
    · exact memOk_machineCheck h _ _
    · rename_i tr _
      have hl := memOk_leave h tr
      dsimp only
      split
      · rw [memOk_sliceCause]
        exact hl
      · exact memOk_feedLoad hl _ _ _ _ _ _ _ _ _
      · exact memOk_sliceInstr hl _ _ _ _ _ _

theorem memOk_sliceEarly {f : State → State} (hf : Keeps f) (g : Nat) : (s.sliceEarly g f).memOk = true := by
  unfold State.sliceEarly
  split
  · exact hf _ h
  · rw [memOk_collected]
    exact hf _ (by simp [h])

@[simp] theorem memOk_sliceStep (g : Nat) : (s.sliceStep g).memOk = true := by
  simp only [State.sliceStep]
  split
  · exact h
  · split
    · simp [h]
    · exact memOk_sliceEarly (by simp [h]) (fun _ ht => memOk_sliceGo ht _ _) _

end

end Sys2Proof.Machine
end

section
/-! SUPPORT. Every instruction's plan answers a change that keeps the byte memories canonical, so every unit
keeps them as it issues. -/

namespace Sys2Proof.Machine

open Sys2Proof

/-! ### Results of lane-wise instructions -/

theorem answerKeeps_putVec (s : State) (d : Dst) (sh : Sh) (v : Lanes) : AnswerKeeps (s.putVec d sh v) :=
  answerKeeps_ite (answerKeeps_stop s _) (keeps_frame fun t => by simp)

theorem answerKeeps_putFl (s : State) (d : Dst) (sh : Sh) (v : Lanes) (fl : Word) : AnswerKeeps (s.putFl d sh v fl) :=
  answerKeeps_ite (answerKeeps_stop s _) (keeps_frame fun t => by simp)

theorem answerKeeps_putSlow (s : State) (d : Dst) (sh : Sh) (v : Lanes) (fl : Word) :
    AnswerKeeps (s.putSlow d sh v fl) :=
  answerKeeps_ite (answerKeeps_stop s _) (keeps_frame fun t => by simp)

theorem answerKeeps_putCompare (s : State) (d : Dst) (sh : Sh) (p : Nat → Bool) : AnswerKeeps (s.putCompare d sh p) :=
  answerKeeps_ite (answerKeeps_putVec s _ _ _) (answerKeeps_putVec s _ _ _)

theorem answerKeeps_putPair (d : Nat) (sh : Sh) (f : Nat → Pair × Word) (m : Word) :
    AnswerKeeps (State.putPair d sh f m) := keeps_frame fun t => by simp

theorem answerKeeps_putUni (d : Dst) (x : Word) : AnswerKeeps (State.putUni d x) := keeps_frame fun t => by simp

/-! ### Plans with more than one answer -/

theorem planKeeps_fcmp (f : FBlk) (cc : FCc) (d : Dst) (a b : Src) : PlanKeeps (planFcmp f cc d a b) := fun s =>
  answerKeeps_ite (answerKeeps_putCompare s _ _ _) (answerKeeps_putVec s _ _ _)

theorem planKeeps_lred (op : LOp) (pair : Bool) (d : Dst) (a : Src) : PlanKeeps (planLred op pair d a) := fun s => by
  refine answerKeeps_ite ?_ (answerKeeps_putFl s _ _ _ _)
  split
  · exact answerKeeps_putPair _ _ _ _
  · exact answerKeeps_stop s _

theorem planKeeps_mkaff (d : Dst) (a b : Src) : PlanKeeps (planMkaff d a b) := fun s =>
  answerKeeps_ite (answerKeeps_stop s _) (answerKeeps_putVec s _ _ _)

theorem planKeeps_mkuni (chk : Bool) (d : Dst) (a : Src) : PlanKeeps (planMkuni chk d a) := fun s =>
  answerKeeps_ite (answerKeeps_stop s _) (answerKeeps_putVec s _ _ _)

theorem planKeeps_free (a n : Nat) : PlanKeeps (planFree a n) := fun s =>
  answerKeeps_ite (keeps_frame fun t => rfl) (answerKeeps_ite trivial (keeps_frame fun t => by simp))

theorem planKeeps_srnd (imm : Option Nat) (a : Src) : PlanKeeps (planSrnd imm a) := fun s => by
  unfold planSrnd
  split
  · exact keeps_frame fun t => by simp
  · exact answerKeeps_ite (answerKeeps_stop s _) (keeps_frame fun t => by simp)

theorem planKeeps_flags (d : Dst) : PlanKeeps (planFlags d) := fun _ =>
  answerKeeps_ite trivial (answerKeeps_putUni _ _)

theorem planKeeps_flagsClr (d : Dst) (a : Src) : PlanKeeps (planFlagsClr d a) := fun s =>
  answerKeeps_ite trivial (keeps_frame fun t => by simp)

theorem planKeeps_call (off : Int) : PlanKeeps (planCall off) := fun s =>
  answerKeeps_ite (answerKeeps_stop s _) (keeps_frame fun t => by simp)

theorem planKeeps_ret : PlanKeeps planRet := fun s =>
  answerKeeps_ite (answerKeeps_stop s _) (keeps_frame fun t => by simp)

theorem planKeeps_tret (next : Bool) : PlanKeeps (planTret next) := fun s =>
  answerKeeps_ite (answerKeeps_stop s _) (keeps_frame fun t => by simp)

theorem planKeeps_exit : PlanKeeps planExit := fun _ =>
  answerKeeps_ite trivial (answerKeeps_failFirst _ fun _ ht => memOk_leaveLanesOut ht)

theorem planKeeps_tsync : PlanKeeps planTsync := fun s => by
  unfold planTsync
  split
  · exact answerKeeps_ite keeps_id trivial
  · exact answerKeeps_ite (answerKeeps_stop s _) (answerKeeps_ite trivial (keeps_frame fun t => by simp))

theorem planKeeps_twait (rel : Bool) (a : Src) : PlanKeeps (planTwait rel a) := fun _ =>
  answerKeeps_ite keeps_id trivial

theorem planKeeps_cwait (all : Bool) (a : Src) : PlanKeeps (planCwait all a) := fun _ =>
  answerKeeps_ite trivial (answerKeeps_failFirst _ keeps_id)

theorem planKeeps_barw (d : Nat) (b : Src) : PlanKeeps (planBarw d b) := fun s =>
  answerKeeps_afterFault s <| answerKeeps_openAt s _ _ _ _ _ fun t =>
    answerKeeps_ite (answerKeeps_ite trivial fun u hu => by simp [hu]) fun u hu => by simp [hu]

theorem planKeeps_astart (a : Src) (x : Nat) : PlanKeeps (planAstart a x) := fun s =>
  answerKeeps_ite (show AnswerKeeps (s.uniStop _ _) from trivial) (keeps_frame fun t => by simp)

theorem planKeeps_swr (reg : Nat) (a : Src) : PlanKeeps (planSwr reg a) := fun s =>
  answerKeeps_ite (answerKeeps_pfdone s _) (answerKeeps_sysWrite s _ _)

theorem planKeeps_pfdoneReplay (lane : Nat) : PlanKeeps (planPfdoneReplay lane) := fun s =>
  answerKeeps_ite (show AnswerKeeps (s.uniStop _ _) from trivial) (keeps_frame fun t => by simp)

theorem planKeeps_pfdoneAbort (lane : Nat) : PlanKeeps (planPfdoneAbort lane) := fun s =>
  answerKeeps_ite (show AnswerKeeps (s.uniStop _ _) from trivial) (keeps_frame fun t => by simp)

/-! ### Memory and region plans -/

theorem planKeeps_ldNb (fm : AForm) (w : Width) (rel : Bool) (d : Dst) (a t : Src) : PlanKeeps (planLdNb fm w rel d a t) :=
  fun s => by
    refine answerKeeps_ite (answerKeeps_stop s _) ?_
    split
    · exact answerKeeps_stop s _
    · exact answerKeeps_access s _

/-- ST.va's plan, written out between functions: the kernel's check of an unfolding at a state would evaluate the sum of
2^22 in the horizon test. -/
theorem planStVa_eq (fm : AForm) (w : Width) (rel : Bool) (x : Nat) (a t : Src) : planStVa fm w rel x a t = fun s =>
    match s.holdTime rel t with
    | none => s.stop .timeHorizon
    | some v => s.access { s.storeReq fm w (s.regData x w) (Off.imm a 0) with held := some v } := rfl

theorem planKeeps_stVa (fm : AForm) (w : Width) (rel : Bool) (x : Nat) (a t : Src) :
    PlanKeeps (planStVa fm w rel x a t) := by
  rw [planStVa_eq]
  intro s
  beta_reduce
  split
  · exact answerKeeps_stop s _
  · exact answerKeeps_access s _

theorem planKeeps_spcast (fr : CastFrom) (tgt : CastTo) (d : Dst) (a : Src) : PlanKeeps (planSpcast fr tgt d a) :=
  fun s => answerKeeps_ite (keeps_frame fun t => by simp) (answerKeeps_putVec s _ _ _)

theorem planKeeps_pfet (a : Src) (off : Int) : PlanKeeps (planPfet a off) := fun s => by
  simp only [planPfet]
  split
  · exact answerKeeps_machineCheck _ _
  · exact fun t ht => memOk_foldl (by simp [ht]) (fun _ _ hs => memOk_prefetch hs _ _ _ _) _

theorem planKeeps_asum (a x : Src) (anchor : Int) : PlanKeeps (planAsum a x anchor) := fun s => by
  simp only [planAsum]
  split
  · rename_i e
    exact e ▸ answerKeeps_access s _
  · rename_i f e
    have hf : AnswerKeeps (.ok f) := e ▸ answerKeeps_access s _
    exact fun t ht => by simp [hf t ht]

theorem planKeeps_fence (k : FenceK) (sc : Scope) : PlanKeeps (planFence k sc) := fun s =>
  answerKeeps_ite (keeps_frame fun t => by simp) trivial

theorem planKeeps_rmap (d : Nat) (a b : Src) (c : CSrc) : PlanKeeps (planRmap d a b c) := fun s => by
  simp only [planRmap]
  split
  · trivial
  · exact fun t ht => memOk_mapRegion ht _ _ _ _

theorem planKeeps_rflush (n : Src) : PlanKeeps (planRflush n) := fun s => by
  refine answerKeeps_ite keeps_id ?_
  split
  · exact answerKeeps_ite trivial (answerKeeps_flush s _)
  · exact answerKeeps_flush s _

theorem planKeeps_rdrop (n : Src) : PlanKeeps (planRdrop n) := fun _ _ ht => memOk_dropRegion ht _ _

/-! ### Every instruction -/

theorem planKeeps_planOf (i : Instr) : PlanKeeps (planOf i) := by
  cases i
  case iadd | isub | iadds | isubs | imul | imulh | imad | imin | imax | iabs | ineg | idot4 | and | or | xor | andn |
      shl | shr | sar | rotl | bfe | bfi | popc | clz | brev | sel | mov | movi | limm | fmin | fmax | fclass | fround |
      pack | unpk | rnse | rnsd | perm | shfl | bcast | vote | sptest | shape | regq =>
    exact fun s => answerKeeps_putVec s _ _ _
  case fadd | fsub | fmul | ffma | cvtTo | cvtFrom | qnt | dqnt | acvt | lscan =>
    exact fun s => answerKeeps_putFl s _ _ _ _
  case fdiv | fsqrt | frcp | frsq | fexp | fexp2 | flog | flog2 | fsin | fcos | ftanh =>
    exact fun s => answerKeeps_putSlow s _ _ _ _
  case twosum | twoprod | padd | pnorm => exact fun s => answerKeeps_putPair _ _ _ _
  case icmp => exact fun s => answerKeeps_putCompare s _ _ _
  case gfmt | grnd | srd | fstat => exact fun s => answerKeeps_putUni _ _
  case bra | bdv | jpt | yld | sfmt | cbatch | astop | tnow | fltrd => exact fun s => keeps_frame fun t => by simp
  case nop => exact fun s => keeps_id
  case fcmp => exact planKeeps_fcmp _ _ _ _ _
  case lred => exact planKeeps_lred _ _ _ _
  case mkaff => exact planKeeps_mkaff _ _ _
  case mkuni => exact planKeeps_mkuni _ _ _
  case free => exact planKeeps_free _ _
  case srnd => exact planKeeps_srnd _ _
  case flags => exact planKeeps_flags _
  case flagsClr => exact planKeeps_flagsClr _ _
  case bnz | bz | bix => exact planKeeps_diverge _ _ _ _ _
  case call => exact planKeeps_call _
  case ret => exact planKeeps_ret
  case tret => exact planKeeps_tret _
  case exit => exact planKeeps_exit
  case halt => exact planKeeps_halt
  case tsync => exact planKeeps_tsync
  case twait => exact planKeeps_twait _ _
  case cwait => exact planKeeps_cwait _ _
  case bari | barx | bara => exact planKeeps_bar _ _ _ _
  case barw => exact planKeeps_barw _ _
  case astart => exact planKeeps_astart _ _
  case swr => exact planKeeps_swr _ _
  case mapidWrite | dtdataWrite => exact fun s => answerKeeps_sysWrite s _ _
  case pfdoneReplay => exact planKeeps_pfdoneReplay _
  case pfdoneAbort => exact planKeeps_pfdoneAbort _
  case ld | lds | ldc | ldAcq | atom | atoms => exact fun s => answerKeeps_accessTo s _ _
  case st | sts | stc | ldUni | stRel => exact fun s => answerKeeps_access s _
  case ldNb => exact planKeeps_ldNb _ _ _ _ _ _
  case stVa => exact planKeeps_stVa _ _ _ _ _ _
  case spcast => exact planKeeps_spcast _ _ _ _
  case pfet => exact planKeeps_pfet _ _
  case asum => exact planKeeps_asum _ _ _
  case fence => exact planKeeps_fence _ _
  case rmap => exact planKeeps_rmap _ _ _ _
  case rflush => exact planKeeps_rflush _
  case rdrop => exact planKeeps_rdrop _
  case cpy | cpyl => exact planKeeps_copy _ _
  case wld => exact planKeeps_wld _ _ _ _
  case mmr | mmrHold => exact planKeeps_mmr _ _ _
  case mmc | mmcHold => exact planKeeps_mmc _ _ _
  case mmf => exact planKeeps_mmf _ _ _ _ _
  case qzero => exact planKeeps_qzero _ _
  case qdrain => exact planKeeps_drain _ _ _ _ _ _ _ _
  case qscale => exact planKeeps_qscale _ _ _ _
  case qsave => exact planKeeps_qsave _ _ _
  case qload => exact planKeeps_qload _ _ _
  case qstat => exact planKeeps_qstat _ _
  case vbegin => exact planKeeps_vbegin _ _
  case vslot => exact planKeeps_vslot _ _ _
  case vseal | vsealFinal => exact planKeeps_seal _ _ _ _
  case vpin => exact planKeeps_vpin _ _ _
  case vunpin => exact planKeeps_vunpin _
  case vwait => exact planKeeps_vwait _ _ _ _
  case vstat => exact planKeeps_vstat _ _ _
  case vleft => exact planKeeps_vleft _ _
  case launch => exact planKeeps_launch _ _
  case join => exact planKeeps_join _ _
  case bleft => exact planKeeps_bleft _
  case dline => exact planKeeps_dline _ _
  -- What is left raises a cause whatever the state is (TRAP, BKPT, CPY.f in a group, an unassigned opcode), or is an event.
  all_goals exact fun s => trivial

theorem memOk_membersAt {s : State} (h : s.memOk = true) (slot : Nat) (u : IssueUnit) :
    (s.issueUnit (membersAt slot u)).memOk = true :=
  memOk_issueUnit h fun m hm => by
    obtain ⟨x, -, rfl⟩ := List.mem_map.mp hm
    exact planKeeps_planOf _

end Sys2Proof.Machine
end

section
/-! SUPPORT. A core's turn, the ends of waits and the scheduler's events keep the byte memories canonical. -/

namespace Sys2Proof.Machine

open Sys2Proof

/-! ### A core's turn -/

/-- A turn that ends in a state, or in an instruction at a state, whose byte memories are canonical. -/
def TurnKeeps : Turn → Prop
  | .idle => True
  | .exec _ t => t.memOk = true
  | .done t => t.memOk = true

@[simp] theorem memOk_executing (s : State) (g sp slot len : Nat) : (s.executing g sp slot len).memOk = s.memOk :=
  memOk_congr rfl rfl rfl

@[simp] theorem memOk_chosenGroup (s : State) (c g : Nat) (x : Split) : (s.chosenGroup c g x).memOk = s.memOk := by
  simp only [State.chosenGroup, memOk_setGroup, memOk_setCore]
  split <;> simp

section
variable {s : State} (h : s.memOk = true)
include h

@[simp] theorem memOk_entering (g : Nat) (x : Split) (len : Nat) (e : Entered) (tr : Trail) :
    (s.entering g x len e tr).memOk = true := by
  simp only [State.entering]
  split
  · simp [h]
  · rw [memOk_modSp]
    exact memOk_leave (by simp [h]) _

@[simp] theorem memOk_deliverAsync (g : Nat) (x : Split) (len : Nat) : (s.deliverAsync g x len).memOk = true := by
  unfold State.deliverAsync
  split
  · split <;> simp [h]
  · exact h

@[simp] theorem memOk_deliverTrap (g : Nat) (x : Split) : (s.deliverTrap g x).memOk = true := by
  unfold State.deliverTrap
  split
  · split <;> simp [h]
  · exact h

theorem turnKeeps_turnOf (g : Nat) (x : Split) : TurnKeeps (s.turnOf g x) := by
  unfold State.turnOf
  split
  · exact memOk_deliverTrap h _ _
  · split
    · rename_i tr _
      have hl := memOk_leaveWalk h tr
      exact memOk_raise (by simp [hl]) _
    · rename_i tr _
      have hl := memOk_leaveWalk (s := s.chosen) (by simp [h]) tr
      exact memOk_addFault (by simp [hl]) _ _ _
    · exact memOk_machineCheck h _ _
    · rename_i len e tr _
      have he := memOk_entering h g x len e tr
      split
      · exact memOk_deliverAsync h _ _ _
      · dsimp only
        split
        · exact (memOk_congr rfl rfl rfl).trans he
        · refine memOk_raise ?_ _
          rw [memOk_chargePass]
          exact (memOk_congr rfl rfl rfl).trans he
    · rename_i u e tr _
      have he := memOk_entering h g x u.len e tr
      split
      · exact memOk_deliverAsync h _ _ _
      · split
        · exact he
        · exact memOk_membersAt he _ _

theorem turnKeeps_coreTurn (c : Nat) : TurnKeeps (s.coreTurn c) := by
  unfold State.coreTurn
  split
  · trivial
  · split
    · trivial
    · exact turnKeeps_turnOf (by simp [h]) _ _

/-! ### The ends of waits -/

@[simp] theorem memOk_wake (g sp : Nat) (p : Wait → Bool) : (s.wake g sp p).memOk = true := by
  unfold State.wake
  split
  · exact h
  · split
    · split
      · exact memOk_membersAt (memOk_entering h _ _ _ _ _) _ _
      · exact h
    · exact h

/-! ### Spans, write-backs and ends -/

@[simp] theorem memOk_startTeam (l span j c : Nat) : (s.startTeam l span j c).memOk = true :=
  memOk_foldl (memOk_setTeam h _ rfl) (fun _ _ hs => by simp [hs]) _

@[simp] theorem memOk_startSpan (l span : Nat) : (s.startSpan l span).memOk = true := by
  simp only [State.startSpan]
  split
  · rw [memOk_setLaunch]
    exact memOk_foldl h (fun _ _ hs => memOk_startTeam hs _ _ _ _) _
  · exact h

@[simp] theorem memOk_writeBackLine (t i line : Nat) : (s.writeBackLine t i line).memOk = true := by
  simp only [State.writeBackLine]
  split
  · exact h
  · split
    · exact h
    · split
      · split
        · exact h
        · exact memOk_putBack (by simp [h]) _ _ _ _ _ _ _
      · exact memOk_machineCheck h _ _
      · exact h

@[simp] theorem memOk_endTeam (t : Nat) : (s.endTeam t).memOk = true := by
  have hs : (s.setTeam t { s.team t with live := false, regions := [] }).memOk = true :=
    memOk_setTeam h t (memOk_scratch h t)
  simp only [State.endTeam]
  split
  · exact h
  · simp [hs]

@[simp] theorem memOk_ringSignals (ring : Nat) : (s.ringSignals ring).memOk = true := by
  simp only [State.ringSignals, memOk_setRing]
  exact memOk_foldl h (fun _ _ hs => memOk_outerWrite hs _ _) _

@[simp] theorem memOk_allSignals : s.allSignals.memOk = true := memOk_foldl h (fun _ _ hs => memOk_ringSignals hs _) _

@[simp] theorem memOk_finishLaunch (l : Nat) : (s.finishLaunch l).memOk = true := by
  unfold State.finishLaunch
  extract_lets x
  split
  · exact h
  · split
    · exact memOk_machineCheck h _ _
    · exact memOk_allSignals (memOk_endLaunch (memOk_commitAll h l) _ _ _ _ _)

end

/-! ### Cuts, calendars, castling and spills -/

section
variable (s : State)

@[simp] theorem memOk_cutFor (l reason d : Nat) : (s.cutFor l reason d).memOk = s.memOk := by
  simp only [State.cutFor]
  split <;> simp

@[simp] theorem memOk_addEnergy (l n : Nat) : (s.addEnergy l n).memOk = s.memOk := by
  simp only [State.addEnergy]
  split
  · rfl
  · split <;> simp

@[simp] theorem memOk_askCastling (cs : List Nat) : (s.askCastling cs).memOk = s.memOk := by simp [State.askCastling]

@[simp] theorem memOk_requestCastling (c : Nat) : (s.requestCastling c).memOk = s.memOk := by
  simp [State.requestCastling]

@[simp] theorem memOk_reclaim (k : Nat) : (s.reclaim k).memOk = s.memOk := by simp [State.reclaim]

@[simp] theorem memOk_spillOut (c : Nat) : (s.spillOut c).memOk = s.memOk := by simp [State.spillOut]

@[simp] theorem memOk_loadIn (c l : Nat) : (s.loadIn c l).memOk = s.memOk := by
  simp only [State.loadIn]
  split <;> simp

@[simp] theorem memOk_spillOne (c : Nat) : (s.spillOne c).memOk = s.memOk := by
  unfold State.spillOne
  split
  · rfl
  · split <;> simp

@[simp] theorem memOk_spillUntil (c need k : Nat) : (s.spillUntil c need k).memOk = s.memOk := by
  induction k generalizing s with
  | zero => rfl
  | succ k ih =>
    unfold State.spillUntil
    split
    · rfl
    · rw [ih, memOk_spillOne]

@[simp] theorem memOk_zugzwang (c : Nat) : (s.zugzwang c).memOk = s.memOk := by
  unfold State.zugzwang
  split
  · split <;> simp
  · split
    · simp
    · split <;> simp

end

section
variable {s : State} (h : s.memOk = true)
include h

@[simp] theorem memOk_swapBanks (c : Nat) : (s.swapBanks c).memOk = true := by
  simp only [State.swapBanks, memOk_setCore]
  refine memOk_foldl ?_ (fun s t hs => ?_) _
  · simp [h]
  · exact memOk_setTeam hs t (memOk_scratch hs t)

@[simp] theorem memOk_castle (c planes : Nat) : (s.castle c planes).memOk = true := by
  unfold State.castle
  split
  · exact h
  · exact memOk_swapBanks (memOk_stopJob h _ _) _

end

end Sys2Proof.Machine
end

section
/-! SUPPORT. What comes from outside the cores keeps the byte memories canonical. -/

namespace Sys2Proof.Machine

open Sys2Proof

section
variable (s : State)

@[simp] theorem memOk_elapse (n : Nat) : (s.elapse n).memOk = s.memOk := memOk_congr rfl rfl rfl
@[simp] theorem memOk_configure (i : Image) : (s.configure i).memOk = s.memOk := memOk_congr rfl rfl rfl

@[simp] theorem memOk_respond (r : Spdm) : (s.respond r).memOk = s.memOk := by
  unfold State.respond
  split <;> simp

@[simp] theorem memOk_setClocks (cs : List Nat) (f : Nat → Nat) : (s.setClocks cs f).memOk = s.memOk := by
  simp [State.setClocks]

@[simp] theorem memOk_throttleEnd (part : Nat) : (s.throttleEnd part).memOk = s.memOk := by
  simp only [State.throttleEnd]
  split <;> simp

end

section
variable {s : State} (h : s.memOk = true)
include h

/-! ### Boot, invalidation and outer accesses -/

@[simp] theorem memOk_powerOn (i : Image) (ok : Bool) : (s.powerOn i ok).memOk = true := by
  unfold State.powerOn
  split
  · exact h
  · split
    · simp [h]
    · exact memOk_mbSet (by simp [h]) _ _

@[simp] theorem memOk_hostPost (fn : Nat) (d : InvDesc) : (s.hostPost fn d).memOk = true := by
  unfold State.hostPost
  split <;> simp [h]

@[simp] theorem memOk_dropPrivate (p : Posted) (g : Nat) : (s.dropPrivate p g).memOk = true := by
  simp only [State.dropPrivate, memOk_setGroup]
  exact memOk_foldl h (fun _ _ hs => memOk_writeBack hs _ _) _

@[simp] theorem memOk_dropLines (p : Posted) : (s.dropLines p).memOk = true :=
  memOk_foldl h (fun _ _ hs => memOk_dropPrivate hs _ _) _

@[simp] theorem memOk_completeInv (fn : Nat) : (s.completeInv fn).memOk = true := by
  simp only [State.completeInv]
  split
  · exact h
  · split
    · exact h
    · have hd := fun p => memOk_dropLines h p
      exact memOk_setFn (by simp [hd]) _ (memOk_win (hd _) _) (memOk_invBuf (hd _) _)

@[simp] theorem memOk_outerRead (pa n : Nat) : (s.outerRead pa n).memOk = true := by
  unfold State.outerRead
  split
  · exact memOk_postCheck (by simp [h]) _
  · exact h

@[simp] theorem memOk_outerAccess (may : Nat → Nat → Bool → Bool) (a : ExtAcc) : (s.outerAccess may a).memOk = true := by
  unfold State.outerAccess
  extract_lets served
  clear_value served
  split <;> split
  · exact memOk_outerRead h _ _
  · exact h
  · exact memOk_outerWrite h _ _
  · exact h
  · exact memOk_outerWrite h _ _
  · exact h

@[simp] theorem memOk_hostAccess (fn : Nat) (a : ExtAcc) : (s.hostAccess fn a).memOk = true := by
  have ho := fun may => memOk_outerAccess h may a
  simp only [State.hostAccess]
  split
  · split
    · split
      · exact memOk_writeWindow h _ _ _ _
      · exact h
    · split
      · exact ho _
      · exact h
  · split
    · exact ho _
    · exact h

/-! ### Time, links and monitors -/

@[simp] theorem memOk_lockLoss (d : Nat) : (s.lockLoss d).memOk = true := by
  simp only [State.lockLoss]
  split
  · exact memOk_post (by simp [h]) _ _ _ _ _
  · exact h

@[simp] theorem memOk_cxlFails : s.cxlFails.memOk = true := by
  simp only [State.cxlFails]
  refine memOk_foldl ?_ (fun s g hs => ?_) _
  · split
    · exact memOk_post (by simp [h]) _ _ _ _ _
    · exact h
  · split
    · exact memOk_machineCheck hs _ _
    · exact hs

@[simp] theorem memOk_abortPeer (g acc : Nat) : (s.abortPeer g acc).memOk = true := by
  unfold State.abortPeer
  split
  · exact h
  · split
    · exact h
    · extract_lets pa
      split
      · exact h
      · split
        · rename_i ps t _ _
          have ht : t.memOk = true := by simp [t, h]
          split
          · exact memOk_post ht _ _ _ _ _
          · exact ht
        · exact memOk_machineCheck h _ _

@[simp] theorem memOk_throttle (part mhz : Nat) : (s.throttle part mhz).memOk = true := by
  unfold State.throttle
  split
  · exact h
  · exact memOk_afterClocks (by simp [h]) _

@[simp] theorem memOk_tooWarm (die mhz : Nat) : (s.tooWarm die mhz).memOk = true :=
  memOk_foldl (memOk_post (by simp [h]) _ _ _ _ _) (fun _ _ hs => memOk_afterClocks hs _) _

@[simp] theorem memOk_critical (d : Nat) : (s.critical d).memOk = true := by
  unfold State.critical
  extract_lets s1 cs s2
  have hk : s2.memOk = true :=
    memOk_foldl (memOk_post h _ _ _ _ _) (fun _ _ hs => memOk_killCtx hs _ _ _) _
  simp [hk]

@[simp] theorem memOk_happens (e : Incident) : (s.happens e).memOk = true := by
  unfold State.happens
  split
  · split <;> simp [h]
  · split <;> simp [h]
  all_goals simp [h]

end

end Sys2Proof.Machine
end

section
/-! SUPPORT. The front-end cores, their extension and the packets of the rings keep the byte memories canonical. -/

namespace Sys2Proof.Machine

open Sys2Proof

/-! ### Registers, traps and rings -/

section
variable (s : State)

@[simp] theorem memOk_frontTrap (fe cause : Nat) (tval : DWord) : (s.frontTrap fe cause tval).memOk = s.memOk :=
  memOk_setFront ..

@[simp] theorem memOk_frontDone (fe len : Nat) (g : Front → Front) : (s.frontDone fe len g).memOk = s.memOk :=
  memOk_setFront ..

@[simp] theorem memOk_frontNext (fe d : Nat) (v : DWord) : (s.frontNext fe d v).memOk = s.memOk := memOk_frontDone ..

@[simp] theorem memOk_frontCsr (fe len w f3 num d src : Nat) : (s.frontCsr fe len w f3 num d src).memOk = s.memOk := by
  simp only [State.frontCsr]
  split
  · simp
  · split <;> simp

@[simp] theorem memOk_frontFloat (fe len w rm : Nat) (k : RMode → Front → Front) :
    (s.frontFloat fe len w rm k).memOk = s.memOk := by
  simp only [State.frontFloat]
  split
  · split <;> simp
  · simp

@[simp] theorem memOk_rvSys (fe len w : Nat) (i : Rv) : (s.rvSys fe len w i).memOk = s.memOk := by
  simp only [State.rvSys]
  split <;> simp

@[simp] theorem memOk_modRing (k : Nat) (f : Ring → Ring) : (s.modRing k f).memOk = s.memOk := memOk_setRing ..

@[simp] theorem memOk_popPacket (k : Nat) : (s.popPacket k).memOk = s.memOk := memOk_modRing ..

@[simp] theorem memOk_endPrologue (fe : Nat) (back : DWord) : (s.endPrologue fe back).memOk = s.memOk := by
  simp [State.endPrologue]

end

/-! ### Loads and stores of a front-end core -/

section
variable {s : State} (h : s.memOk = true)
include h

@[simp] theorem memOk_frontWrite (pa : Nat) (bytes : List Byte) : (s.frontWrite pa bytes).memOk = true := by
  unfold State.frontWrite
  split
  · exact memOk_writeWindow h _ _ _ _
  · exact memOk_outerWrite h _ _

@[simp] theorem memOk_frontFault (fe pa n cause : Nat) (va : DWord) : (s.frontFault fe pa n cause va).memOk = true := by
  simp only [State.frontFault, memOk_frontTrap]
  split
  · split
    · exact memOk_postCheck (by simp [h]) _
    · exact h
  · exact h

theorem memOk_frontLoad (fe : Nat) (va : DWord) (n : Nat) {k : Nat → Nat → State}
    (hk : ∀ pa v, (k pa v).memOk = true) : (s.frontLoad fe va n k).memOk = true := by
  unfold State.frontLoad
  split
  · simp [h]
  · split
    · simp [h]
    · split
      · exact h
      · split
        · exact memOk_frontFault h _ _ _ _ _
        · exact hk _ _

theorem memOk_frontStore (fe : Nat) (va : DWord) (n : Nat) (atomic : Bool) {k : Nat → State}
    (hk : ∀ pa, (k pa).memOk = true) : (s.frontStore fe va n atomic k).memOk = true := by
  unfold State.frontStore
  split
  · simp [h]
  · split
    · simp [h]
    · split
      · exact h
      · split
        · simp [h]
        · split
          · exact memOk_frontFault h _ _ _ _ _
          · exact hk _

@[simp] theorem memOk_frontSc (fe len d : Nat) (va : DWord) (n : Nat) (v : DWord) :
    (s.frontSc fe len d va n v).memOk = true :=
  memOk_frontStore h _ _ _ _ fun _ => by simp [h]

@[simp] theorem memOk_frontAmo (fe len : Nat) (op : Amo) (n d : Nat) (va v : DWord) :
    (s.frontAmo fe len op n d va v).memOk = true :=
  memOk_frontStore h _ _ _ _ fun _ => by simp [h]

@[simp] theorem memOk_rvInt (fe len w : Nat) (i : Rv) : (s.rvInt fe len w i).memOk = true := by
  unfold State.rvInt
  extract_lets f x
  split
  case h_5 => split <;> simp [h]
  case h_6 => exact memOk_frontLoad h _ _ _ fun _ _ => by simp [h]
  case h_7 => exact memOk_frontStore h _ _ _ _ fun _ => by simp [h]
  case h_10 => exact memOk_frontLoad h _ _ _ fun _ _ => by simp [h]
  all_goals simp [h]

@[simp] theorem memOk_rvFlt (fe len w : Nat) (i : Rv) : (s.rvFlt fe len w i).memOk = true := by
  simp only [State.rvFlt]
  split
  · split
    · simp [h]
    · exact memOk_frontLoad h _ _ _ fun _ _ => by simp [h]
  · split
    · simp [h]
    · exact memOk_frontStore h _ _ _ _ fun _ => by simp [h]
  all_goals simp [h]

@[simp] theorem memOk_rvExec (fe len w : Nat) (i : Rv) : (s.rvExec fe len w i).memOk = true := by
  unfold State.rvExec
  split <;> simp [h]

/-! ### The extension -/

@[simp] theorem memOk_rfet (fe d : Nat) (va : DWord) : (s.rfet fe d va).memOk = true :=
  memOk_frontLoad h _ _ _ fun pa _ => by
    dsimp only
    split
    · simp [h]
    · split
      · simp [h]
      · exact memOk_frontStore h _ _ _ _ fun _ => by simp [h]

@[simp] theorem memOk_swait (fe d : Nat) (va least : DWord) : (s.swait_ fe d va least).memOk = true := by
  unfold State.swait_
  split
  · simp [h]
  · exact memOk_frontLoad h _ _ _ fun _ _ => by simp [h]

@[simp] theorem memOk_xdisp (fe d : Nat) (va : DWord) : (s.xdisp_ fe d va).memOk = true := by
  unfold State.xdisp_
  split
  · simp [h]
  · split
    · simp [h]
    · split
      · exact h
      · split
        · exact memOk_frontFault h _ _ _ _ _
        · simp [h]

end

/-! ### A front-end core's turn -/

/-- A front-end core's turn whose byte memories are canonical. -/
def FrontTurnKeeps : FrontTurn → Prop
  | .done t => t.memOk = true
  | .exec _ t => t.memOk = true

/-- A batch from its first member on. The decision of admission is generalised before the recursion is unfolded: the
elaborator would evaluate it. -/
theorem admitBatch_cons (s : State) (x : Submission) (r : List Submission) (i : Nat) :
    s.admitBatch (x :: r) i =
      match s.tryAdmit [] x with
      | (_, .error c) => .error (c.code, i)
      | (t, .ok l) =>
        match State.admitBatch t r (i + 1) with
        | .error e => .error e
        | .ok (u, ls) => .ok (u, l :: ls) := by
  delta State.admitBatch State.admitBatch._f
  generalize State.tryAdmit = f
  rfl

/-- A batch that, where it is admitted, ends in a state whose byte memories are canonical. -/
def BatchKeeps : Except (Nat × Nat) (State × List Nat) → Prop
  | .ok q => q.1.memOk = true
  | .error _ => True

section
variable {s : State} (h : s.memOk = true)
include h

theorem frontTurnKeeps_frontWord (fe len w : Nat) : FrontTurnKeeps (s.frontWord fe len w) := by
  simp only [State.frontWord]
  split
  · exact (memOk_congr rfl rfl rfl).trans h
  · split
    · exact memOk_rvExec h _ _ _ _
    · exact (memOk_frontTrap ..).trans h

theorem frontTurnKeeps_frontTurn (fe : Nat) : FrontTurnKeeps (s.frontTurn fe) := by
  simp only [State.frontTurn]
  split
  · exact h
  · split
    · exact (memOk_setFront ..).trans h
    · split
      · simp [FrontTurnKeeps, h]
      · split
        · exact h
        · split
          · exact frontTurnKeeps_frontWord h _ _ _
          · simp [FrontTurnKeeps, h]

/-! ### Packets -/

theorem memOk_takePacket (fe addr type : Nat) {f : State → Nat → Packet → State}
    (hf : ∀ t k p, t.memOk = true → (f t k p).memOk = true) : (s.takePacket fe addr type f).memOk = true := by
  have ht : ∀ k, (s.popPacket k).memOk = true := by simp [h]
  unfold State.takePacket
  split
  · exact h
  · extract_lets p t
    split
    · exact h
    · split
      · exact ht _
      · split
        · exact (memOk_modRing ..).trans (ht _)
        · split
          · exact memOk_packetStatus (ht _) _ _ _
          · exact hf _ _ _ (ht _)

theorem batchKeeps_admitBatch (xs : List Submission) (i : Nat) : BatchKeeps (s.admitBatch xs i) := by
  induction xs generalizing s i with
  | nil => exact h
  | cons x r ih =>
    have hx := memOk_tryAdmit h [] x
    rw [admitBatch_cons]
    generalize s.tryAdmit [] x = q at hx ⊢
    obtain ⟨u, c | l⟩ := q
    · trivial
    · have hr := ih hx (i + 1)
      dsimp only
      generalize u.admitBatch r (i + 1) = q at hr ⊢
      obtain e | q := q
      · trivial
      · exact hr

@[simp] theorem memOk_commitBatch (fe k b : Nat) (ms : List Nat) (bad : Bool) :
    (s.commitBatch fe k b ms bad).memOk = true := by
  have hr : ∀ f, (s.modRing k f).memOk = true := by simp [h]
  simp only [State.commitBatch]
  split
  · exact memOk_packetStatus (hr _) _ _ _
  · split
    · exact memOk_packetStatus (hr _) _ _ _
    · split
      · exact memOk_packetStatus (hr _) _ _ _
      · rename_i xs _ _ t ls e
        have hb := batchKeeps_admitBatch (hr fun r => { r with batch := none }) xs 0
        rw [e] at hb
        rw [memOk_foldl_frame fun _ _ => by simp]
        exact memOk_foldl hb (fun _ _ hs => memOk_packetStatus hs _ _ _) _

@[simp] theorem memOk_takeCommit (fe addr : Nat) : (s.takeCommit fe addr).memOk = true := by
  have ht : ∀ k, (s.popPacket k).memOk = true := by simp [h]
  unfold State.takeCommit
  split
  · exact h
  · extract_lets p t
    split
    · exact h
    · split
      · exact ht _
      · split
        · exact memOk_packetStatus (ht _) _ _ _
        · split
          · exact (memOk_modRing ..).trans (ht _)
          · exact memOk_commitBatch (ht _) _ _ _ _ _

@[simp] theorem memOk_callPrologue (fe : Nat) (x : Prologue) : (s.callPrologue fe x).memOk = true := by
  simp only [State.callPrologue]
  split
  · simp [h]
  · simp [h]

@[simp] theorem memOk_prologueReturn (fe n : Nat) : (s.prologueReturn fe n).memOk = true := by
  simp only [State.prologueReturn]
  split
  · split
    · exact h
    · split <;> simp [h]
  · exact h

end

end Sys2Proof.Machine
end

section
/-! SUPPORT. Every instruction and event, and so every step, keeps the byte memories canonical. -/

namespace Sys2Proof.Machine

open Sys2Proof

/-- An outcome that, where the machine goes on, leaves the byte memories canonical. -/
def OutcomeKeeps : Host.Outcome State Fault Refusal → Prop
  | .next t => t.memOk = true
  | _ => True

section
variable {s : State} (h : s.memOk = true)
include h

/-! ### Instructions that are not a slot's -/

theorem outcomeKeeps_issue {p : Plan} (hp : PlanKeeps p) (i : Instr) : OutcomeKeeps (issue i p s) :=
  memOk_issueUnit h fun m hm => by
    rw [List.mem_singleton.mp hm]
    exact hp

theorem outcomeKeeps_slot (i : Instr) (hi : i.isSlot = true) : OutcomeKeeps (exec i s) := by
  rw [exec_slot i hi]
  exact outcomeKeeps_issue h (planKeeps_planOf i) i

/-! ### Events whose change their meaning writes out -/

theorem outcomeKeeps_mailbox (fn : Nat) {f : Command} (hf : CommandKeeps f) : OutcomeKeeps (.next (s.command fn f)) :=
  memOk_command h fn hf

theorem outcomeKeeps_powerStateChange (tgt : Power) : OutcomeKeeps (execPowerStateChange tgt s) :=
  outcomeKeeps_mailbox h 0 fun t ht => by
    simp only [ResultOk]
    split
    · exact ht
    · exact memOk_post (by simp [ht]) _ _ _ _ _

theorem outcomeKeeps_hostRestart : OutcomeKeeps (execHostRestart s) :=
  outcomeKeeps_mailbox h 0 fun t ht => by simp [ResultOk, ht]

theorem outcomeKeeps_pagereq (fn : Nat) (args : List DWord) (answer : Option (List DWord)) :
    OutcomeKeeps (execPagereq fn args answer s) := by
  cases answer with
  | none => exact memOk_pageRequest h _ _
  | some a => exact memOk_pageAnswer h _ _

theorem outcomeKeeps_invStageWrite (fn off : Nat) (bytes : List Byte) :
    OutcomeKeeps (execInvStageWrite fn off bytes s) := by
  simp [execInvStageWrite, OutcomeKeeps, h]

theorem outcomeKeeps_ringDoorbell (fn ring : Nat) (tail : DWord) : OutcomeKeeps (execRingDoorbell fn ring tail s) := by
  simp [execRingDoorbell, OutcomeKeeps, h]

theorem outcomeKeeps_hostAccess (a : ExtAcc) : OutcomeKeeps (execHostAccess a s) := by
  simp [execHostAccess, OutcomeKeeps, h]

theorem outcomeKeeps_peerAccess (a : ExtAcc) : OutcomeKeeps (execPeerAccess a s) := by
  simp [execPeerAccess, OutcomeKeeps, h]

theorem outcomeKeeps_timeSyncExchange (port : Nat) (sync delay : Nat × Nat) :
    OutcomeKeeps (execTimeSyncExchange port sync delay s) := by
  simp [execTimeSyncExchange, OutcomeKeeps, h]

theorem outcomeKeeps_brynrikLinkDown (port : Nat) : OutcomeKeeps (execBrynrikLinkDown port s) := by
  simp [execBrynrikLinkDown, OutcomeKeeps, h]

theorem outcomeKeeps_patrolScrubError (pa : Nat) : OutcomeKeeps (execPatrolScrubError pa s) := by
  simp [execPatrolScrubError, OutcomeKeeps, h]

theorem outcomeKeeps_fabricParityError (pa g : Nat) : OutcomeKeeps (execFabricParityError pa g s) := by
  simp [execFabricParityError, OutcomeKeeps, h]

theorem outcomeKeeps_tempThrottleLimit (die mhz : Nat) : OutcomeKeeps (execTempThrottleLimit die mhz s) := by
  simp [execTempThrottleLimit, OutcomeKeeps, h]

theorem outcomeKeeps_calendarSwitch (u : CalUnit) : OutcomeKeeps (execCalendarSwitch u s) := by
  simp [execCalendarSwitch, OutcomeKeeps, h]

theorem outcomeKeeps_leaveForcedHalt (ctx : Nat) : OutcomeKeeps (execLeaveForcedHalt ctx s) := by
  simp only [execLeaveForcedHalt, OutcomeKeeps]
  split
  · simp [h]
  · exact h

theorem outcomeKeeps_leaveKill (ctx : Nat) : OutcomeKeeps (execLeaveKill ctx s) := by
  simp only [execLeaveKill, OutcomeKeeps]
  split
  · simp [h]
  · exact h

theorem outcomeKeeps_deadlineReached (l : Nat) : OutcomeKeeps (execDeadlineReached l s) := by
  simp only [execDeadlineReached, OutcomeKeeps]
  split
  · simp [h]
  · exact h

theorem outcomeKeeps_cutTimeReached (l : Nat) : OutcomeKeeps (execCutTimeReached l s) := by
  simp only [execCutTimeReached, OutcomeKeeps]
  split
  · simp [h]
  · exact h

theorem outcomeKeeps_trapDelivery (g sp : Nat) : OutcomeKeeps (execTrapDelivery g sp s) := by
  simp only [execTrapDelivery, OutcomeKeeps]
  split
  · simp [h]
  · exact h

theorem outcomeKeeps_lateCauseDelivery (g sp : Nat) : OutcomeKeeps (execLateCauseDelivery g sp s) := by
  simp only [execLateCauseDelivery, OutcomeKeeps]
  split
  · simp [h]
  · exact h

theorem outcomeKeeps_replicaUpdate (die line : Nat) : OutcomeKeeps (execReplicaUpdate die line s) :=
  (memOk_congr rfl rfl rfl).trans h

theorem outcomeKeeps_launchPacket (fe addr : Nat) : OutcomeKeeps (execLaunchPacket fe addr s) :=
  memOk_takePacket h _ _ _ fun t k p ht => by
    split
    · simp [ht]
    · exact memOk_packetStatus ht _ _ _

theorem outcomeKeeps_beginPacket (fe addr : Nat) : OutcomeKeeps (execBeginPacket fe addr s) :=
  memOk_takePacket h _ _ _ fun t k p ht => by simp [ht]

theorem outcomeKeeps_waitPacket (fe addr : Nat) : OutcomeKeeps (execWaitPacket fe addr s) :=
  memOk_takePacket h _ _ _ fun t k p ht => by simp [ht]

theorem outcomeKeeps_signalPacket (fe addr : Nat) : OutcomeKeeps (execSignalPacket fe addr s) :=
  memOk_takePacket h _ _ _ fun t k p ht => by simp [ht]

theorem outcomeKeeps_indirectPacket (fe addr : Nat) : OutcomeKeeps (execIndirectPacket fe addr s) :=
  memOk_takePacket h _ _ _ fun t k p ht => by simp [ht]

theorem outcomeKeeps_waitPacketRelease : OutcomeKeeps (execWaitPacketRelease s) := by
  simp only [execWaitPacketRelease, OutcomeKeeps]
  split
  · simp [h]
  · exact h

theorem outcomeKeeps_prologueTimeout : OutcomeKeeps (execPrologueTimeout s) := by
  simp only [execPrologueTimeout, OutcomeKeeps]
  split
  · split
    · exact memOk_packetStatus (by simp [h]) _ _ _
    · exact h
  · exact h

theorem outcomeKeeps_xbfx (d a b : Nat) : OutcomeKeeps (execXbfx d a b s) := by
  simp only [execXbfx, OutcomeKeeps]
  split <;> simp [h]

theorem outcomeKeeps_swaitWake : OutcomeKeeps (execSwaitWake s) := by
  simp only [execSwaitWake, OutcomeKeeps]
  split
  · exact h
  · exact memOk_swait (by simp [h]) _ _ _ _

/-! ### Every instruction and event -/

theorem outcomeKeeps_exec (i : Instr) : OutcomeKeeps (exec i s) := by
  by_cases hs : i.isSlot = true
  · exact outcomeKeeps_slot h i hs
  cases i
  -- Instructions that no slot holds.
  case pfdoneReplay => exact outcomeKeeps_issue h (planKeeps_pfdoneReplay _) _
  case pfdoneAbort => exact outcomeKeeps_issue h (planKeeps_pfdoneAbort _) _
  case mapidWrite | dtdataWrite => exact outcomeKeeps_issue h (fun t => answerKeeps_sysWrite t _ _) _
  case illegalOpcode => exact outcomeKeeps_issue h (fun t => answerKeeps_stop t _) _
  case rfet => exact memOk_rfet h _ _ _
  case xbfx => exact outcomeKeeps_xbfx h _ _ _
  case swait => exact memOk_swait h _ _ _ _
  case xdisp => exact memOk_xdisp h _ _ _
  -- The mailbox and what comes from outside.
  case powerOnBoot => exact memOk_powerOn h _ _
  case negotiateAlgorithms | getCertificate | challenge | getVersion | getCapabilities | getDigests | getMeasurements =>
    exact (memOk_respond ..).trans h
  case setepoch => exact outcomeKeeps_mailbox h _ (pfOnly_keeps _ (cmdSetEpoch_keeps _))
  case timepost => exact outcomeKeeps_mailbox h _ (pfOnly_keeps _ (cmdTimePost_keeps _ _))
  case partcreate => exact outcomeKeeps_mailbox h _ (pfOnly_keeps _ (cmdPartCreate_keeps _))
  case partdestroy => exact outcomeKeeps_mailbox h _ (pfOnly_keeps _ (cmdPartDestroy_keeps _))
  case calwrite => exact outcomeKeeps_mailbox h _ (pfOnly_keeps _ (cmdCalWrite_keeps _ _))
  case connwrite => exact outcomeKeeps_mailbox h _ (pfOnly_keeps _ (cmdConnWrite_keeps _ _))
  case ctxkill => exact outcomeKeeps_mailbox h _ (pfOnly_keeps _ (cmdCtxKill_keeps _))
  case ctxleave => exact outcomeKeeps_mailbox h _ (pfOnly_keeps _ (cmdCtxLeave_keeps _))
  case ctxresume => exact outcomeKeeps_mailbox h _ (pfOnly_keeps _ (cmdCtxResume_keeps _))
  case ctxcreate => exact outcomeKeeps_mailbox h _ (cmdCtxCreate_keeps _ _)
  case vdsetup => exact outcomeKeeps_mailbox h _ (pfOnly_keeps _ (cmdVdSetup_keeps _))
  case pagereq => exact outcomeKeeps_pagereq h _ _ _
  case powerStateChange => exact outcomeKeeps_powerStateChange h _
  case hostRestart => exact outcomeKeeps_hostRestart h
  case invStageWrite => exact outcomeKeeps_invStageWrite h _ _ _
  case invAllVdid | invStage1Range | invStage2Range | invEveryVdid => exact memOk_hostPost h _ _
  case invalComplete => exact memOk_completeInv h _
  case stage2Retry | stage2Fatal => exact (memOk_stage2Answer ..).trans h
  case ringDoorbell => exact outcomeKeeps_ringDoorbell h _ _ _
  case hostAccess => exact outcomeKeeps_hostAccess h _
  case peerAccess => exact outcomeKeeps_peerAccess h _
  case timeSyncExchange => exact outcomeKeeps_timeSyncExchange h _ _ _
  case lockLossTimeout => exact memOk_lockLoss h _
  case brynrikLinkDown => exact outcomeKeeps_brynrikLinkDown h _
  case cxlLinkFailure => exact memOk_cxlFails h
  case peerAccessAbort => exact memOk_abortPeer h _ _
  case throttle => exact memOk_throttle h _ _
  case throttleEnd => exact (memOk_throttleEnd ..).trans h
  case tempThrottleLimit => exact outcomeKeeps_tempThrottleLimit h _ _
  case tempCritical => exact memOk_critical h _
  case droop => exact memOk_post h _ _ _ _ _
  case patrolScrubError => exact outcomeKeeps_patrolScrubError h _
  case fabricParityError => exact outcomeKeeps_fabricParityError h _ _
  -- The scheduler, results and waits.
  case admissionDecision => exact memOk_decide h _
  case spanStart => exact memOk_startSpan h _ _
  case teamEnd => exact memOk_endTeam h _
  case launchEnd => exact memOk_finishLaunch h _
  case calendarSwitch => exact outcomeKeeps_calendarSwitch h _
  case castlingRequest => exact (memOk_requestCastling ..).trans h
  case castlingSwap => exact memOk_castle h _ _
  case fumaroleSpill => exact (memOk_spillOut ..).trans h
  case fumaroleLoad => exact (memOk_loadIn ..).trans h
  case zugzwangSpill => exact (memOk_zugzwang ..).trans h
  case leaveForcedHalt => exact outcomeKeeps_leaveForcedHalt h _
  case leaveKill => exact outcomeKeeps_leaveKill h _
  case deadlineReached => exact outcomeKeeps_deadlineReached h _
  case cutTimeReached => exact outcomeKeeps_cutTimeReached h _
  case energyUpdate => exact (memOk_addEnergy ..).trans h
  case cutRecordUpdate => exact memOk_cutUpdate h _
  case passCommit => exact memOk_commitHandle h _ _
  case cwaitWake | barwWake | tsyncWake | joinWake | twaitExpiry | exitComplete | vbeginRetry | vwaitWake =>
    exact memOk_wake h _ _ _
  case trapDelivery => exact outcomeKeeps_trapDelivery h _ _
  case lateCauseDelivery => exact outcomeKeeps_lateCauseDelivery h _ _
  -- Accesses, faults, engines.
  case faultHandlerLaunch => exact memOk_launchHandler h _ _
  case logReplay => exact memOk_replay h _ _
  case heldArrival => exact memOk_heldArrive h _ _
  case holdRelease => exact memOk_release h _
  case loadReturn => exact memOk_loadReturn h _ _ _
  case writePerformed => exact memOk_writePerformed h _ _ _
  case replicaUpdate => exact outcomeKeeps_replicaUpdate h _ _
  case regionWriteback => exact memOk_writeBackLine h _ _ _
  case copyComplete => exact memOk_copyStep h _ _ _
  case slowPathCommit => exact (memOk_slowDone ..).trans h
  case sliceStep => exact memOk_sliceStep h _
  case matrixStart => exact memOk_startJob h _
  case matrixResume => exact memOk_resumeJob h _
  case matrixComplete => exact memOk_completeJob h _
  -- Packets and prologues.
  case launchPacket fe addr => exact outcomeKeeps_launchPacket h fe addr
  case beginPacket => exact outcomeKeeps_beginPacket h _ _
  case commitPacket => exact memOk_takeCommit h _ _
  case waitPacket => exact outcomeKeeps_waitPacket h _ _
  case waitPacketRelease => exact outcomeKeeps_waitPacketRelease h
  case signalPacket => exact outcomeKeeps_signalPacket h _ _
  case indirectPacket => exact outcomeKeeps_indirectPacket h _ _
  case prologueReturn => exact memOk_prologueReturn h _ _
  case prologueTimeout => exact outcomeKeeps_prologueTimeout h
  case swaitWake => exact outcomeKeeps_swaitWake h
  all_goals exact absurd rfl hs

/-! ### Every step -/

theorem outcomeKeeps_act (a : Agent) : OutcomeKeeps (s.act a) := by
  cases a with
  | core n =>
    have hc := turnKeeps_coreTurn h n
    simp only [State.act]
    split
    · trivial
    · generalize s.coreTurn n = q at hc ⊢
      cases q with
      | idle => exact h
      | exec i t => exact outcomeKeeps_exec hc i
      | done t => exact hc
  | front n =>
    have hf := frontTurnKeeps_frontTurn h n
    simp only [State.act]
    split
    · trivial
    · generalize s.frontTurn n = q at hf ⊢
      cases q with
      | done t => exact hf
      | exec i t => exact outcomeKeeps_exec hf i

theorem outcomeKeeps_step : OutcomeKeeps (step s) := by
  have ha : ∀ r, State.memOk { s with agenda := r } = true := by simp [h]
  unfold step
  split
  · exact outcomeKeeps_act h _
  · exact (memOk_elapse ..).trans (ha _)
  · simp [OutcomeKeeps, h]
  · exact memOk_happens (ha _) _
  · split
    · rename_i site r _ _
      exact outcomeKeeps_exec (s := { s with agenda := r, site := site }) (by simp [h]) _
    · exact ha _

end

end Sys2Proof.Machine

open Sys2Proof Sys2Proof.Machine

/-- Settles O46: it holds. Every function of the model that writes a byte memory, a scratchpad or a window writes it through
the operations of `Memory`, which keep the canonical form; so each instruction's plan, each event and each turn does. -/
theorem memoryInvariant : Obligations.MemoryInvariant := by
  unfold Obligations.MemoryInvariant
  intro s t h ht
  have hk := outcomeKeeps_step h
  rw [ht] at hk
  exact hk

end

section
/-! SUPPORT. The round trip of words, gathered from the instructions' own (R38 to R62, R414). -/

namespace Sys2Proof

/-- Encoding and decoding agree for every instruction; an event has no word. -/
theorem Laws.WordRoundTrip.every (i : Instr) : Statement i := by
  cases i with
  -- Control and system (R55)
  | nop => exact nop | bra => exact bra _ | bnz => exact bnz _ _ | bz => exact bz _ _ | bdv => exact bdv _
  | jpt => exact jpt _ _ | bix => exact bix _ | call => exact call _ | ret => exact ret | exit => exact exit
  | yld => exact yld | tsync => exact tsync | trap => exact trap _ | tret => exact tret _ | srd => exact srd _ _
  | swr => exact swr _ _ | halt => exact halt | bkpt => exact bkpt _ | fltrd => exact fltrd _ _
  -- Integer and logic (R56)
  | iadd => exact iadd _ _ _ | isub => exact isub _ _ _ | iadds => exact iadds _ _ _ _ | isubs => exact isubs _ _ _ _
  | imul => exact imul _ _ _ | imulh => exact imulh _ _ _ _ | imad => exact imad _ _ _ _ | imin => exact imin _ _ _ _
  | imax => exact imax _ _ _ _ | iabs => exact iabs _ _ | ineg => exact ineg _ _ | idot4 => exact idot4 _ _ _ _ _
  | and => exact and _ _ _ | or => exact or _ _ _ | xor => exact xor _ _ _ | andn => exact andn _ _ _
  | shl => exact shl _ _ _ | shr => exact shr _ _ _ | sar => exact sar _ _ _ | rotl => exact rotl _ _ _
  | bfe => exact bfe _ _ _ _ _ | bfi => exact bfi _ _ _ _ | popc => exact popc _ _ | clz => exact clz _ _
  | brev => exact brev _ _ | icmp => exact icmp _ _ _ _ | sel => exact sel _ _ _ _ | mov => exact mov _ _
  | movi => exact movi _ _ | limm => exact limm _ _
  -- Float and pairs (R57)
  | fadd => exact fadd _ _ _ _ _ | fsub => exact fsub _ _ _ _ _ | fmul => exact fmul _ _ _ _ _
  | ffma => exact ffma _ _ _ _ _ | fmin => exact fmin _ _ _ _ | fmax => exact fmax _ _ _ _
  | fcmp => exact fcmp _ _ _ _ _ | fclass => exact fclass _ _ _ | fround => exact fround _ _ _ _
  | fdiv => exact fdiv _ _ _ _ _ | fsqrt => exact fsqrt _ _ _ _ | frcp => exact frcp _ _ _ _
  | frsq => exact frsq _ _ _ _ | fexp => exact fexp _ _ _ _ | fexp2 => exact fexp2 _ _ _ _
  | flog => exact flog _ _ _ _ | flog2 => exact flog2 _ _ _ _ | fsin => exact fsin _ _ _ _
  | fcos => exact fcos _ _ _ _ | ftanh => exact ftanh _ _ _ _ | twosum => exact twosum _ _ _
  | twoprod => exact twoprod _ _ _ | padd => exact padd _ _ _ | pnorm => exact pnorm _ _
  -- Conversion, lane, shape and format (R58)
  | cvtTo => exact cvtTo _ _ _ _ | cvtFrom => exact cvtFrom _ _ _ _ | qnt => exact qnt _ _ _ _ _
  | dqnt => exact dqnt _ _ _ _ _ | pack => exact pack _ _ _ _ _ | unpk => exact unpk _ _ _ _ | rnse => exact rnse _ _
  | rnsd => exact rnsd _ _ | acvt => exact acvt _ _ _ | perm => exact perm _ _ _ _ _ | shfl => exact shfl _ _ _ _ _
  | bcast => exact bcast _ _ _ | vote => exact vote _ _ _ | lred => exact lred _ _ _ _ | lscan => exact lscan _ _ _ _
  | shape => exact shape _ _ | mkaff => exact mkaff _ _ _ | mkuni => exact mkuni _ _ _ | free => exact free _ _
  | regq => exact regq _ _ _ | sfmt => exact sfmt _ _ | gfmt => exact gfmt _ | srnd => exact srnd _ _
  | grnd => exact grnd _ | flags => exact flags _ | flagsClr => exact flagsClr _ _
  -- Memory, atomics and time (R59)
  | ld => exact ld _ _ _ _ | st => exact st _ _ _ _ | lds => exact lds _ _ _ _ | sts => exact sts _ _ _ _
  | ldc => exact ldc _ _ _ _ | stc => exact stc _ _ _ _ | ldUni => exact ldUni _ _ _ _ _
  | ldNb => exact ldNb _ _ _ _ _ _ | stVa => exact stVa _ _ _ _ _ _ | ldAcq => exact ldAcq _ _ _ _ _
  | stRel => exact stRel _ _ _ _ _ | sptest => exact sptest _ _ | spcast => exact spcast _ _ _ _
  | pfet => exact pfet _ _ | atom => exact atom _ _ _ _ _ | atoms => exact atoms _ _ _ _ _ | asum => exact asum _ _ _
  | fence => exact fence _ _ | rmap => exact rmap _ _ _ _ | rflush => exact rflush _ | rdrop => exact rdrop _
  | tnow => exact tnow _ | twait => exact twait _ _
  -- Copies, barrier objects and the access engine (R60)
  | cpy => exact cpy _ | cpyFeed => exact cpyFeed _ _ | cpyl => exact cpyl _ | cbatch => exact cbatch _
  | cwait => exact cwait _ _ | bari => exact bari _ _ | barx => exact barx _ _ _ | bara => exact bara _ _
  | barw => exact barw _ _ | astart => exact astart _ _ | astop => exact astop _ | fstat => exact fstat _
  -- Matrix (R61)
  | wld => exact wld _ _ _ _ | mmr => exact mmr _ _ _ _ _ _ _ | mmrHold => exact mmrHold _ _ _ _ _ _ _
  | mmf => exact mmf _ _ _ _ _ | mmc => exact mmc _ _ _ _ _ _ _ | mmcHold => exact mmcHold _ _ _ _ _ _ _
  | qzero => exact qzero _ _ | qdrain => exact qdrain _ _ _ _ _ _ _ | qscale => exact qscale _ _ _ _
  | qsave => exact qsave _ _ _ | qload => exact qload _ _ _ | qstat => exact qstat _ _
  -- Versions and launches (R62)
  | vbegin => exact vbegin _ _ | vslot => exact vslot _ _ _ | vseal => exact vseal _ _ _
  | vsealFinal => exact vsealFinal _ _ _ | vpin => exact vpin _ _ _ | vunpin => exact vunpin _
  | vwait => exact vwait _ _ _ _ | vstat => exact vstat _ _ _ | vleft => exact vleft _ _ | launch => exact launch _ _
  | join => exact join _ _ | bleft => exact bleft _ | dline => exact dline _ _
  -- The front end's extension (R414)
  | rfet => exact rfet _ _ | xbfx => exact xbfx _ _ _ | swait => exact swait _ _ _ | xdisp => exact xdisp _ _
  | _ => exact roundTrip_event rfl rfl

end Sys2Proof

open Sys2Proof

/-- Settles O44: it holds, constructor by constructor, by the lemmas of `Laws.WordRoundTrip`. -/
theorem roundTrip : Obligations.RoundTrip := Laws.WordRoundTrip.every

/-- Settles O43: the decoder evaluates on each of the words. -/
theorem decodeWords : Obligations.DecodeWords := by
  unfold Obligations.DecodeWords
  decide

end

section
/-! SUPPORT. Moves, constants, shapes and uniform values (R53, R183 to R188, R217, R221): what their plans answer. -/

namespace Sys2Proof.Machine

open Sys2Proof

/-- An instruction whose plan puts one word in every lane computes it. -/
theorem computes_splat {s : State} {i : Instr} {p : Plan} {d : Dst} {x : Word} (he : exec i s = issue i p s)
    (hp : planOf i = p) (hf : p s = s.putVec d .uniform (Lanes.splat x)) (hd : i.dests = [d]) :
    Computes s i d (fun _ => x) 0 :=
  computes_vec he hp hf (fun _ => rfl) hd (splat_ok x) fun _ hk => (lanes_get_splat x hk).symm

/-- MOV gives its source's lanes, in its source's shape. -/
theorem mov_computes {s : State} {d : Dst} {a : Src} (h : kFits d [s.rd a]) :
    Computes s (.mov d a) d (fun k => (s.rd a).vals.get k) 0 :=
  computes_vec rfl rfl rfl (fun hk => h hk _ (List.mem_singleton_self _)) rfl (mov_ok (rd_ok s a))
    fun _ hk => (lanes_get_ofFn _ hk).symm

/-- MKAFF puts base and stride where the destination holds an affine value (R185). -/
theorem planMkaff_lanes {d : Dst} (h : d.isK = false) (a b : Src) (s : State) :
    planMkaff d a b s = s.putVec d (.affine (s.rd a).u (s.rd2 a b).u) (VReg.affine (s.rd a).u (s.rd2 a b).u).lanes :=
  if_neg (by simp [h])

theorem mkaff_computes {d : Dst} (h : d.isK = false) (a b : Src) (s : State) :
    Computes s (.mkaff d a b) d (fun k => (s.rd a).u + BitVec.ofNat 32 k * (s.rd2 a b).u) 0 :=
  computes_vec rfl rfl (planMkaff_lanes h a b s) (fun hk => absurd hk (by simp [h])) rfl (affine_ok _ _)
    fun _ hk => (affine_ok _ _ _ hk).symm

/-- What MKUNI.chk looks for: a lane in use that differs from the lowest one (R186). -/
theorem lanesDiffer_iff {s : State} {x : Lanes} {v : Word} :
    ((lanesOf s.mask).any fun i => x.get i != v) = true ↔ ∃ i, i < 32 ∧ s.active i = true ∧ x.get i ≠ v := by
  simp only [List.any_eq_true, mem_lanesOf, bne_iff_ne, and_assoc]

theorem planMkuni_uniform {s : State} {chk : Bool} {a : Src}
    (h : chk = true → ∀ i, s.active i = true → i < 32 → (s.rd a).vals.get i = (s.rd a).vals.get (lowestLane s.mask))
    (d : Dst) : planMkuni chk d a s = s.putVec d .uniform (Lanes.splat ((s.rd a).vals.get (lowestLane s.mask))) := by
  refine if_neg fun hb => ?_
  obtain ⟨hc, hl⟩ := Bool.and_eq_true_iff.mp hb
  obtain ⟨i, hi, ha, hne⟩ := lanesDiffer_iff.mp hl
  exact hne (h hc i ha hi)

theorem planMkuni_differ {s : State} {a : Src}
    (h : ∃ i, i < 32 ∧ s.active i = true ∧ (s.rd a).vals.get i ≠ (s.rd a).vals.get (lowestLane s.mask)) (d : Dst) :
    planMkuni true d a s = s.stop .shapeMismatch :=
  if_pos (lanesDiffer_iff.mpr h)

end Sys2Proof.Machine

open Sys2Proof Sys2Proof.Machine

/-- Settles O4: every result but MOV's and MKAFF's is one word in all lanes; the refusals are the plans' own checks. -/
theorem movesAndShapes : Obligations.MovesAndShapes := by
  intro s d a b e lit n kn chk grp
  refine ⟨mov_computes, computes_splat rfl rfl rfl rfl, computes_splat rfl rfl rfl rfl, computes_splat rfl rfl rfl rfl,
    fun h => mkaff_computes h a b s, fun h => computes_splat rfl rfl (planMkuni_uniform h d) rfl,
    computes_splat rfl rfl rfl rfl, fun hc => ?_, fun hc => ?_, fun hc h => ?_⟩
  · exact issue_raises rfl rfl rfl hc
  · exact issue_raises rfl rfl (putVec_k rfl (by simp)) hc
  · exact issue_raises rfl rfl (planMkuni_differ h d) hc

end

section
/-! SUPPORT. Instructions that only move splits (R302 to R306, R313 to R319, R405): what their changes leave alone. -/

namespace Sys2Proof.Machine

open Sys2Proof

/-! ### Changes of splits and their stack -/

/-- `b` is `a` but for its splits, their stack and its yield. -/
def Redirected (a b : Group) : Prop :=
  b = { a with splits := b.splits, stack := b.stack, saves := b.saves, know := b.know, yielded := b.yielded }

theorem Redirected.refl (a : Group) : Redirected a a := rfl

theorem Redirected.trans {a b c : Group} (h : Redirected a b) (k : Redirected b c) : Redirected a c := by
  rw [Redirected] at *
  rw [k, h]

theorem Settled.redirected {a b : Group} (h : Settled a b) : Redirected a b := by
  rw [Settled] at h
  rw [h]
  rfl

/-- A change that moves the executing group's splits, whatever slot the state names. -/
structure Redirects (f : State → State) : Prop where
  slot : ∀ t k, { f (t.atMember k) with cur := t.cur } = f t
  only : ∀ t, Only t (f t)
  out : ∀ t n, n ≠ t.cur.group → (f t).group n = t.group n
  at_ : ∀ t, Redirected t.g ((f t).group t.cur.group)

theorem redirects_id : Redirects fun t => t :=
  ⟨fun _ _ => rfl, Only.refl, fun _ _ _ => rfl, fun _ => Redirected.refl _⟩

/-- A change of the executing group that looks at its executing split alone. -/
theorem redirects_modG {F : Split → Group → Group} (h : ∀ x g, Redirected g (F x g)) :
    Redirects fun t => t.modG (F t.sp) := by
  refine ⟨fun _ _ => rfl, fun t => Only.setGroup t _ _, fun t n hn => ?_, fun t => ?_⟩
  · rw [State.modG, State.group_setGroup, if_neg hn]
  · rw [State.modG, State.group_setGroup, if_pos rfl]
    exact h _ _

theorem redirects_modSp (f : Split → Split) : Redirects fun t => t.modSp f :=
  redirects_modG (F := fun x g => g.putSplit (f x)) fun _ _ => rfl

/-! ### The frame -/

theorem clear_split {s : State} {i : Instr} (hc : s.clear i = true) : (s.g.split? s.cur.split).isSome = true := by
  simp only [State.clear, Bool.and_eq_true] at hc
  exact hc.1.1.1.1

/-- What an instruction whose change moves splits leaves alone. -/
theorem redirects_steered {s : State} {i : Instr} {f : State → State} (w : Redirects f)
    (hs : (s.g.split? s.cur.split).isSome = true) : Steered s (s.done i f) i := by
  obtain ⟨hO, hV, hM⟩ := around_prepared (i := i) hs
  have hcur := hO.cur
  have hch : s.changed i f = f (s.prepared i) := changed_eq hs w.slot
  have hcc : (s.changed i f).cur = s.cur := by rw [hch, (w.only _).cur, hcur]
  have hR : Redirected (s.in_ (s.prepared i)) (s.in_ (s.changed i f)) := by
    have h := w.at_ (s.prepared i)
    rw [State.g, hcur, ← hch] at h
    exact h
  obtain ⟨z, hz⟩ := done_group s i f hcc
  have hS := arriveAll_settled { s.in_ (s.changed i f) with yielded := z }
  have hD : s.in_ (s.done i f) = { s.in_ (s.prepared i) with
      splits := (s.in_ (s.done i f)).splits, stack := (s.in_ (s.done i f)).stack, saves := (s.in_ (s.done i f)).saves
      know := (s.in_ (s.done i f)).know, yielded := (s.in_ (s.done i f)).yielded, seq := (s.in_ (s.done i f)).seq
      stallBuf := none } := by
    rw [hz, hS, hR]
  refine ⟨⟨done_only s i f (by rw [hch]; exact hO.trans (w.only _)), fun n hn => ?_⟩, ?_,
    ⟨fun n hn => ?_, fun n _ => ?_, fun n _ => ?_, fun n => ?_⟩, ?_, ?_⟩
  · rw [done_other s i f hcc hn, hch, w.out _ _ (by rw [hcur]; exact hn)]
    exact hV n hn
  · rw [GroupKept, hD, hM.rest]
  · have hv : (s.in_ (s.done i f)).v n = (s.in_ (s.prepared i)).v n := by rw [hD]; rfl
    rw [hv]
    rcases hM.v n with h | ⟨vals, q, r, h1, h2⟩ | ⟨⟨h1, _⟩, h2⟩
    · exact .inl (by rw [h])
    · exact .inl (by rw [h1, h2]; rfl)
    · exact .inr ⟨h1, h2⟩
  · rw [hD, hM.rest]; rfl
  · rw [hD, hM.rest]; rfl
  · rw [← hM.feeds n, hD]; rfl
  · rw [GstatKept, hD]; exact hM.gst
  · rw [hD, hM.rest]

/-- An instruction whose plan answers a change of splits steers. -/
theorem steers_of_plan {s : State} {i : Instr} {p : Plan} {f : State → State} (he : exec i s = issue i p s)
    (hp : planOf i = p) (hf : p s = .ok f) (w : Redirects f) : Steers s i f := fun hc ha =>
  ⟨he.trans (issue_done hp hf hc ha), redirects_steered w (clear_split hc)⟩

end Sys2Proof.Machine

open Sys2Proof Sys2Proof.Machine

/-- Settles O13: each plan answers a change of the executing split, or of its group's yield. -/
theorem straightControl : Obligations.StraightControl := by
  intro s a off n
  exact ⟨steers_of_plan rfl rfl rfl redirects_id, steers_of_plan rfl rfl rfl (redirects_modSp _),
    steers_of_plan rfl rfl rfl (redirects_modSp _), steers_of_plan rfl rfl rfl (redirects_modSp _),
    steers_of_plan rfl rfl rfl (redirects_modG (F := fun _ g => { g with yielded := true }) fun _ _ => rfl)⟩

end

section
/-! SUPPORT. RET and TRET move splits and their stack (R306, R317, R405), and what their plans answer. -/

namespace Sys2Proof.Machine

open Sys2Proof

theorem settleAll_settled (g : Group) (x : Split) (used : Bool) (bs : List Nat) :
    Settled g (g.settleAll x used bs) := by
  induction bs generalizing g used with
  | nil => exact Settled.refl g
  | cons b r ih => exact (settle_settled g x used b).trans (ih _ _)

theorem returnTo_settled (g : Group) (x : Split) (i : Nat) : Settled g (g.returnTo x i) := by
  refine Settled.trans ?_ ((settleAll_settled _ x false _).trans (arriveAll_settled _))
  exact rfl

theorem ret_settled {g g' : Group} {x : Split} (h : g.ret x = some g') : Settled g g' := by
  simp only [Group.ret] at h
  split at h
  · cases h
  · split at h
    · split at h
      · cases h; exact returnTo_settled _ _ _
      · cases h
    · cases h

theorem tret_settled {g g' : Group} {x : Split} {next : Bool} (h : g.tret x next = some g') : Settled g g' := by
  simp only [Group.tret] at h
  split at h
  · cases h
  · split at h
    · split at h
      · cases h
        refine Settled.trans ?_ (returnTo_settled _ _ _)
        split <;> exact rfl
      · cases h
    · cases h

/-- A move that may fail leaves the group where it does. -/
theorem redirected_getD {o : Option Group} {g : Group} (h : ∀ g', o = some g' → Settled g g') :
    Redirected g (o.getD g) := by
  cases o with
  | none => exact Redirected.refl g
  | some g' => exact (h g' rfl).redirected

theorem planRet_returns {s : State} (h : s.g.ret s.sp ≠ none) :
    planRet s = .ok fun u => u.modG fun g => (g.ret u.sp).getD g :=
  if_neg (by simpa using h)

theorem planRet_refused {s : State} (h : s.g.ret s.sp = none) : planRet s = s.stop .illegalOperand :=
  if_pos (by simp [h])

theorem planTret_returns {s : State} {next : Bool} (h : s.g.tret s.sp next ≠ none) :
    planTret next s = .ok fun u => u.modG fun g => (g.tret u.sp next).getD g :=
  if_neg (by simpa using h)

theorem planTret_refused {s : State} {next : Bool} (h : s.g.tret s.sp next = none) :
    planTret next s = s.stop .illegalOperand :=
  if_pos (by simp [h])

end Sys2Proof.Machine

open Sys2Proof Sys2Proof.Machine

/-- Settles O16: the returns answer a move of splits or ILLEGAL_OPERAND by the model's own search for the entry, and the
other plans answer nothing but their cause. -/
theorem trapsAndReturns : Obligations.TrapsAndReturns := by
  intro s next n op
  refine ⟨fun h => ?_, fun h => ?_, fun h hc => ?_, fun h hc => ?_, fun hc => ?_, fun hc => ?_, fun hc => ?_⟩
  · exact steers_of_plan rfl rfl (planRet_returns h)
      (redirects_modG (F := fun x g => (g.ret x).getD g) fun _ _ => redirected_getD fun _ => ret_settled)
  · exact steers_of_plan rfl rfl (planTret_returns h)
      (redirects_modG (F := fun x g => (g.tret x next).getD g) fun _ _ => redirected_getD fun _ => tret_settled)
  · exact issue_raises rfl rfl (planRet_refused h) hc
  · exact issue_raises rfl rfl (planTret_refused h) hc
  · exact issue_raises rfl rfl rfl hc
  · exact issue_raises rfl rfl rfl hc
  · exact issue_raises rfl rfl rfl hc

end

section
/-! SUPPORT. Boot, attestation and power states (R426, R427, R430): what a verified image configures, what a failed check
leaves, and what a command of the physical function does. -/

namespace Sys2Proof.Machine

open Sys2Proof

/-! ### Tables that are built whole -/

section
variable {α : Type} {key : Nat → Nat} {f : Nat → α} {l : List Nat} {d : α}

theorem tbl_get_append (t u : Tbl α) (d : α) (k : Nat) : Tbl.get (t ++ u) d k = t.get (u.get d k) k := by
  induction t with
  | nil => rfl
  | cons e r ih => simp only [List.cons_append, Tbl.get, ih]

/-- A key that a built table lists stands for its own value, where no two keys are the same. -/
theorem tbl_get_map (hk : Function.Injective key) {j : Nat} (hj : j ∈ l) :
    Tbl.get (l.map fun j => (key j, f j)) d (key j) = f j := by
  induction l with
  | nil => cases hj
  | cons a r ih =>
    by_cases ha : a = j
    · subst ha; simp only [List.map_cons, Tbl.get, if_true]
    · simp only [List.map_cons, Tbl.get, if_neg fun h => ha (hk h)]
      exact ih ((List.mem_cons.mp hj).resolve_left (Ne.symm ha))

theorem tbl_get_map_range (hk : Function.Injective key) {n j : Nat} (hj : j < n) :
    Tbl.get ((List.range n).map fun j => (key j, f j)) d (key j) = f j :=
  tbl_get_map hk (List.mem_range.mpr hj)

theorem tbl_get_map_not {k : Nat} (h : ∀ j ∈ l, key j ≠ k) : Tbl.get (l.map fun j => (key j, f j)) d k = d := by
  induction l with
  | nil => rfl
  | cons a r ih =>
    simp only [List.map_cons, Tbl.get, if_neg (h a (by simp))]
    exact ih fun j hj => h j (by simp [hj])

end

/-! ### Boot (R426) -/

theorem add_injective (o : Nat) : Function.Injective (o + ·) := fun _ _ => Nat.add_left_cancel

section
variable (im : Image) (s : State)

/-- The calendars of the cores, the ports and the channels that an image gives (R339). -/
theorem imageCalendars_core {n : Nat} (h : n < 512) : (imageCalendars im).get Calendar.initial n = ⟨im.coreCal, none⟩ := by
  rw [imageCalendars, List.append_assoc, tbl_get_append]
  exact tbl_get_map_range (key := fun j => j) (α := Calendar) (f := fun _ => ⟨im.coreCal, none⟩) Function.injective_id h

theorem imageCalendars_port {p : Nat} (h : p < 18) :
    (imageCalendars im).get Calendar.initial (1024 + p) = ⟨im.portCal, none⟩ := by
  rw [imageCalendars, List.append_assoc, tbl_get_append, tbl_get_append,
    tbl_get_map_not (key := fun j => j) (α := Calendar) (f := fun _ => ⟨im.coreCal, none⟩)]
  · exact tbl_get_map_range (α := Calendar) (f := fun _ => ⟨im.portCal, none⟩) (add_injective 1024) h
  · intro j hj
    have := List.mem_range.mp hj
    omega

theorem imageCalendars_channel {n : Nat} (h : n < 512) :
    (imageCalendars im).get Calendar.initial (2048 + n) = ⟨im.chanCal, none⟩ := by
  rw [imageCalendars, List.append_assoc, tbl_get_append, tbl_get_append,
    tbl_get_map_not (key := fun j => j) (α := Calendar) (f := fun _ => ⟨im.coreCal, none⟩),
    tbl_get_map_not (key := (1024 + ·)) (α := Calendar) (f := fun _ => ⟨im.portCal, none⟩)]
  · exact tbl_get_map_range (α := Calendar) (f := fun _ => ⟨im.chanCal, none⟩) (add_injective 2048) h
  · intro j hj
    have := List.mem_range.mp hj
    omega
  · intro j hj
    have := List.mem_range.mp hj
    omega

theorem configure_die {d : Nat} (h : d < 4) : (s.configure im).die d =
    { s.die d with memmode := im.memmode.getD d .interleaved, pool := im.replicaPool.getD d 0, src := im.src } :=
  tbl_get_map_range (key := fun j => j) Function.injective_id h

theorem configure_conn {p : Nat} (h : p < 18) : (s.configure im).conn.get 0 p = im.conn.getD p 0 &&& 0xFFFF :=
  tbl_get_map_range (key := fun j => j) Function.injective_id h

theorem configure_front {f : Nat} (h : f < 8) :
    (s.configure im).front f = { s.front f with part := frontPart im f, buffer := im.buffers.getD f 0 } :=
  tbl_get_map_range (key := fun j => j) Function.injective_id h

end

/-- Bits [31:16] of a mailbox status after a failed check (R426). -/
theorem failedStatus (v : DWord) : (v &&& 0xFFFFFFFF0000FFFF ||| 0xBAD10000).toNat / 2 ^ 16 % 2 ^ 16 = 0xBAD1 := by
  have h : (v &&& 0xFFFFFFFF0000FFFF ||| 0xBAD10000).extractLsb' 16 16 = 0xBAD1#16 := by
    rw [BitVec.extractLsb'_or, BitVec.extractLsb'_and,
      show (0xFFFFFFFF0000FFFF : DWord).extractLsb' 16 16 = 0#16 from by decide, BitVec.and_zero, BitVec.zero_or]
    decide
  have h' := congrArg BitVec.toNat h
  rwa [BitVec.extractLsb'_toNat, Nat.shiftRight_eq_div_pow] at h'

theorem powerOn_again {s : State} (h : s.boot ≠ .off) (im : Image) (ok : Bool) : s.powerOn im ok = s := if_pos h

theorem powerOn_verified {s : State} (h : s.boot = .off) (im : Image) : s.powerOn im true = s.configure im := by
  simp only [State.powerOn, h, ne_eq, not_true_eq_false, if_false, if_true]

theorem powerOn_failed {s : State} (h : s.boot = .off) (im : Image) : s.powerOn im false =
    { s with boot := .failed }.mbSet 0 ((s.fn 0).mbStatus &&& 0xFFFFFFFF0000FFFF ||| 0xBAD10000) := by
  simp only [State.powerOn, h, ne_eq, not_true_eq_false, if_false, Bool.false_eq_true]

/-! ### The mailbox (R421) -/

section
variable {s : State}

theorem up_iff : s.up = true ↔ s.boot = .booted := decide_eq_true_iff

/-- The status that a device which is no failed one takes. -/
theorem mbStatus_mbSet (h : s.boot ≠ .failed) (n : Nat) (v : DWord) : ((s.mbSet n v).fn n).mbStatus = v := by
  simp only [State.mbSet, State.fn_setFn, if_true, if_neg h]

theorem mbStatus_mbSet_failed (h : s.boot = .failed) (n : Nat) (v : DWord) :
    ((s.mbSet n v).fn n).mbStatus = v &&& 0xFFFFFFFF0000FFFF ||| 0xBAD10000 := by
  simp only [State.mbSet, State.fn_setFn, if_true, if_pos h]

/-- A command that the device carries out. -/
theorem command_done {fn : Nat} {f : Command} {t : State} (hu : s.up = true) (hn : fn ≤ 64) (hb : s.mbBusy fn = false)
    (hf : f s = .ok t) : s.command fn f = t.mbSet fn 1 := by
  simp only [State.command, State.mbAlive, up_iff.mp hu, hb, hu, hf, if_true, Nat.not_lt.mpr hn]
  rfl

/-- A command after a failed check ends with error 3 (log entry 104). -/
theorem command_failed {fn : Nat} (hs : s.boot = .failed) (hn : fn ≤ 64) (hb : s.mbBusy fn = false) (f : Command) :
    s.command fn f = s.mbSet fn 0x301 := by
  simp only [State.command, State.mbAlive, State.up, hs, hb, Nat.not_lt.mpr hn]
  rfl

/-- A command before boot is ignored (log entry 30). -/
theorem command_off (hs : s.boot = .off) (fn : Nat) (f : Command) : s.command fn f = s := by
  simp only [State.command, State.mbAlive, hs]
  rfl

/-! ### Event records (R428) -/

theorem enqueue_only (fn off org : Nat) (bytes : List Byte) : ∃ m rs fs ns,
    s.enqueue fn off org bytes = { s with mem := m, replicas := rs, fronts := fs, fns := ns } := by
  simp only [State.enqueue]
  split
  · exact ⟨_, _, _, _, rfl⟩
  · exact ⟨s.mem, s.replicas, s.fronts, s.fns, rfl⟩

/-- Posting a record counts it, and touches nothing but memory, the functions and what stands on the lines written. -/
theorem post_only (fn code unit ctx : Nat) (data : Option DWord) : ∃ m rs fs ns,
    s.post fn code unit ctx data =
      { s with eventSeq := s.eventSeq + 1, mem := m, replicas := rs, fronts := fs, fns := ns } := by
  simp only [State.post]
  obtain ⟨m, rs, fs, ns, h⟩ := enqueue_only (s := { s with eventSeq := s.eventSeq + 1 }) fn 0x3000 0 _
  rw [h]
  exact ⟨_, _, _, _, rfl⟩

end

/-! ### Power states and requests (R427, R430) -/

section
variable {s : State}

/-- The power state taken, with a record of a change (R430). -/
def State.repowered (s : State) (tgt : Power) : State :=
  if s.power = tgt then s else { s with power := tgt }.post 0 Config.powerCode 0 0 none

theorem repowered_fields (s : State) (tgt : Power) : (s.repowered tgt).power = tgt ∧ (s.repowered tgt).boot = s.boot ∧
    (s.repowered tgt).eventSeq = (if s.power = tgt then s.eventSeq else s.eventSeq + 1) ∧
    (s.repowered tgt).groups = s.groups ∧ (s.repowered tgt).dies = s.dies := by
  simp only [State.repowered]
  split
  · rename_i h
    exact ⟨h, rfl, rfl, rfl, rfl⟩
  · obtain ⟨m, rs, fs, ns, h⟩ := post_only (s := { s with power := tgt }) 0 Config.powerCode 0 0 none
    rw [h]
    exact ⟨rfl, rfl, rfl, rfl, rfl⟩

/-- POWER_STATE_CHANGE is a command of the physical function. -/
theorem exec_powerStateChange (tgt : Power) (s : State) :
    exec (.powerStateChange tgt) s = .next (s.command 0 fun t => .ok (t.repowered tgt)) := rfl

theorem respond_up (h : s.up = true) (r : Spdm) : s.respond r = { s with spdm := r } := if_pos h

theorem respond_down (h : s.up = false) (r : Spdm) : s.respond r = s := if_neg (by simp [h])

/-- The requests of attestation do nothing before boot. -/
theorem attestation_down (h : s.up = false) (ec sh : Bool) (slot nonce : Nat) : ∀ i ∈ [Instr.getVersion, .getCapabilities,
    .negotiateAlgorithms ec sh, .getDigests, .getCertificate slot, .challenge nonce, .getMeasurements],
    exec i s = .next s := by
  have hr : ∀ r, (.next (s.respond r) : Host.Outcome State Fault Refusal) = .next s := fun r => by rw [respond_down h]
  simp only [List.forall_mem_cons]
  exact ⟨hr _, hr _, hr _, hr _, hr _, hr _, hr _, fun _ h => nomatch h⟩

end

end Sys2Proof.Machine

open Sys2Proof Sys2Proof.Machine

/-- Settles O50: a boot configures the tables that the image gives, key by key; a request answers over the device's own key
and measurements; a power state goes through the mailbox. -/
theorem bootAndAttestation : Obligations.BootAndAttestation := by
  intro s im tgt ec sh slot nonce
  refine ⟨fun h => ⟨s.configure im, ?_, rfl, rfl, rfl, rfl, rfl, fun _ => configure_die im s,
      fun n hn => ⟨imageCalendars_core im hn, imageCalendars_channel im hn⟩,
      fun p hp => ⟨imageCalendars_port im hp, configure_conn im s hp⟩, fun _ => configure_front im s⟩,
    fun h => ⟨_, congrArg Host.Outcome.next (powerOn_failed h im), rfl, ?_, rfl, rfl⟩,
    fun h ok => congrArg Host.Outcome.next (powerOn_again h im ok),
    fun h => ?_, fun h => attestation_down h ec sh slot nonce, fun hu hb => ?_, fun h hb => ?_, fun h => ?_⟩
  · exact congrArg Host.Outcome.next (powerOn_verified h im)
  · rw [mbStatus_mbSet_failed rfl]
    exact failedStatus _
  · have hr : ∀ r, (.next (s.respond r) : Host.Outcome State Fault Refusal) = .next { s with spdm := r } := fun r => by
      rw [respond_up h]
    exact ⟨hr _, hr _, hr _, hr _, hr _, hr _, hr _⟩
  · obtain ⟨hp, hboot, hseq, hg, hd⟩ := repowered_fields s tgt
    have hs : (s.repowered tgt).boot ≠ .failed := by rw [hboot, up_iff.mp hu]; simp
    refine ⟨(s.repowered tgt).mbSet 0 1, ?_, hp, mbStatus_mbSet hs 0 1, hseq, hg, hd⟩
    rw [exec_powerStateChange, command_done (t := s.repowered tgt) hu (by decide) hb rfl]
  · rw [exec_powerStateChange, command_failed h (by decide) hb]
  · rw [exec_powerStateChange, command_off h]

end

section
/-! SUPPORT. What a step runs (R40, R68, R309, R413, R414): the turns of a core and of a front-end core, case by case. -/

namespace Sys2Proof.Machine

open Sys2Proof

/-! ### A core's turn -/

section
variable {s : State} {c g : Nat} {x : Split} {i : Instr} {t : State}

theorem step_core_exec (ha : s.agenda = []) (ht : s.turn = .core c) (hc : c < 512) (hg : s.selectGroup c = some g)
    (hx : s.nextSplit g = some x) (h : (s.chosenGroup c g x).turnOf g x = .exec i t) : step s = exec i t := by
  simp only [step, ha, ht, State.act, State.coreTurn, hg, hx, h, Nat.not_le.mpr hc, if_false]

theorem step_core_done (ha : s.agenda = []) (ht : s.turn = .core c) (hc : c < 512) (hg : s.selectGroup c = some g)
    (hx : s.nextSplit g = some x) (h : (s.chosenGroup c g x).turnOf g x = .done t) : step s = .next t := by
  simp only [step, ha, ht, State.act, State.coreTurn, hg, hx, h, Nat.not_le.mpr hc, if_false]

end

section
variable {t : State} {g n k : Nat} {x : Split} {u : IssueUnit} {e : Entered} {tr : Trail} {i : Instr}

/-- A unit of one instruction runs it. -/
theorem turnOf_single (hl : t.look g x = .unit u e tr) (ht : x.trap = none) (hd : (t.group g).asyncDue x = false)
    (hm : u.members = [(k, i)]) : t.turnOf g x = .exec i (t.entering g x u.len e tr) := by
  simp only [State.turnOf, ht, hl, hd, hm, Option.isSome_none, Bool.false_eq_true, if_false]

/-- A chain issues its members together. -/
theorem turnOf_chain (hl : t.look g x = .unit u e tr) (ht : x.trap = none) (hd : (t.group g).asyncDue x = false)
    (hm : 2 ≤ u.members.length) :
    t.turnOf g x = .done ((t.entering g x u.len e tr).issueUnit (membersAt x.pc u)) := by
  simp only [State.turnOf, ht, hl, hd, Option.isSome_none, Bool.false_eq_true, if_false]
  split
  · rename_i h
    simp [h] at hm
  · rfl

/-- The unit decoded from the bundle that is fetched now (R68). -/
theorem look_fetched (he : x.entered = none) (hf : t.fetch g x.pc (t.privileged g x.mask) t.choice = .ok n tr)
    (hu : decodeUnit (t.view (t.ctx (t.ctxOf g))) (bundleOfNat n) (x.pc % 3) = .ok u) :
    t.look g x = .unit u (enterBundle (t.view (t.ctx (t.ctxOf g))) n) tr := by
  have hp : (enterBundle (t.view (t.ctx (t.ctxOf g))) n).pos[x.pc % 3]? = some (.unit u) := by
    simp [enterBundle, Nat.mod_lt, hu]
  simp only [State.look, he, hf, Entered.look, hp]

/-- The unit of the bundle that the split has entered. -/
theorem look_entered (he : x.entered = some e) (hp : e.pos[x.pc % 3]? = some (.unit u)) :
    t.look g x = .unit u e Trail.none := by
  simp only [State.look, he, Entered.look, hp]

theorem entering_entered (he : x.entered = some e) (len : Nat) (tr : Trail) :
    t.entering g x len e tr = t.executing g x.num x.pc len := by
  simp only [State.entering, he, Option.isSome_some, if_true]

end

/-! ### A front-end core's turn -/

section
variable {s t : State} {fe n w len : Nat} {i : Instr} {v : Rv}

theorem step_front_exec (ha : s.agenda = []) (ht : s.turn = .front fe) (hf : fe < 8) (h : s.frontTurn fe = .exec i t) :
    step s = exec i t := by
  simp only [step, ha, ht, State.act, h, Nat.not_le.mpr hf, if_false]

theorem step_front_done (ha : s.agenda = []) (ht : s.turn = .front fe) (hf : fe < 8) (h : s.frontTurn fe = .done t) :
    step s = .next t := by
  simp only [step, ha, ht, State.act, h, Nat.not_le.mpr hf, if_false]

theorem frontTurn_interrupt (hs : s.frontStill fe = false) (hi : (s.front fe).interrupt = some n) :
    s.frontTurn fe = .done (s.setFront fe ((s.front fe).trap n true 0)) := by
  simp only [State.frontTurn, hs, hi, Bool.false_eq_true, if_false]

/-- Where no interrupt comes first and the core does not wait, what stands at its pc. -/
theorem frontTurn_word (hs : s.frontStill fe = false) (hi : (s.front fe).interrupt = none)
    (hw : (s.front fe).wfi = false) (hq : (s.front fe).swait = none) (hf : s.frontFetch fe = .ok (w, len)) :
    s.frontTurn fe = s.frontWord fe len w := by
  simp only [State.frontTurn, hs, hi, hw, hq, hf, Option.isSome_none, Bool.false_eq_true, if_false]

theorem frontWord_ext (h : decodeFront w = some i) : s.frontWord fe 4 w = .exec i { s with site := fe } := by
  simp only [State.frontWord, h, if_true]

theorem frontWord_rv (h : decodeFront w = none) (hv : decodeRv w = some v) :
    s.frontWord fe 4 w = .done (s.rvExec fe 4 w v) := by
  simp only [State.frontWord, h, hv, if_true]

theorem frontWord_compressed (hv : decodeC w = some v) : s.frontWord fe 2 w = .done (s.rvExec fe 2 w v) := by
  simp [State.frontWord, hv]

end

end Sys2Proof.Machine

open Sys2Proof Sys2Proof.Machine

/-- Settles O45: the unit at the pc is the one that the turn looks up, and each case of the turn and of the agenda is a
branch of the step. -/
theorem stepRunsDecoded : Obligations.StepRunsDecoded := by
  intro s c g fe n k w len x i v u e tr r a o
  refine ⟨fun ha ht hc hg hx hq hd => ⟨fun he hf hu => ?_, fun he hp => ?_⟩,
    fun ha ht hf hs => ⟨fun hi => ?_, fun hi hw hq hfe => ⟨?_, ?_, ?_⟩⟩, fun h => ?_, fun h hi => ?_, fun h => ?_, fun h => ?_⟩
  · have hl := look_fetched he hf hu
    exact ⟨fun hm => step_core_exec ha ht hc hg hx (turnOf_single hl hq hd hm),
      fun hm => step_core_done ha ht hc hg hx (turnOf_chain hl hq hd hm)⟩
  · have hl := look_entered (t := s.chosenGroup c g x) (g := g) he hp
    rw [← entering_entered he u.len Trail.none]
    exact ⟨fun hm => step_core_exec ha ht hc hg hx (turnOf_single hl hq hd hm),
      fun hm => step_core_done ha ht hc hg hx (turnOf_chain hl hq hd hm)⟩
  · exact step_front_done ha ht hf (frontTurn_interrupt hs hi)
  · rintro rfl hx
    exact step_front_exec ha ht hf ((frontTurn_word hs hi hw hq hfe).trans (frontWord_ext hx))
  · rintro rfl hx hv
    exact step_front_done ha ht hf ((frontTurn_word hs hi hw hq hfe).trans (frontWord_rv hx hv))
  · rintro rfl hv
    exact step_front_done ha ht hf ((frontTurn_word hs hi hw hq hfe).trans (frontWord_compressed hv))
  · simp only [step, h]
  · simp only [step, h, hi, if_true]
  · simp only [step, h]
  · simp only [step, h]

end

section
/-! SUPPORT. The invalidation port (R88, R89): which descriptors it accepts, what a post and a completion do. -/

namespace Sys2Proof.Machine

open Sys2Proof

/-! ### Posting (R88) -/

/-- The range of a descriptor: 2^size bytes, 16 to 57, at a multiple of that. -/
def Ranged (size : Nat) (addr : DWord) : Prop := 16 ≤ size ∧ size ≤ 57 ∧ addr.toNat % 2 ^ size = 0

section
variable {fn vdid size : Nat} {addr : DWord}

theorem accepted_all : (InvDesc.accepted ⟨0, vdid, 0, 0⟩ fn = true) ↔ fn = 0 ∧ vdid ≤ 64 := by
  by_cases h : fn = 0 <;> simp [InvDesc.accepted, h]

theorem accepted_stage1 :
    (InvDesc.accepted ⟨1, vdid, size, addr⟩ fn = true) ↔ (fn = 0 → vdid ≤ 64) ∧ Ranged size addr := by
  by_cases h : fn = 0 <;> simp [InvDesc.accepted, Ranged, h, and_assoc]

theorem accepted_stage2 :
    (InvDesc.accepted ⟨2, vdid, size, addr⟩ fn = true) ↔ fn = 0 ∧ vdid ≤ 64 ∧ Ranged size addr := by
  by_cases h : fn = 0 <;> simp [InvDesc.accepted, Ranged, h, and_assoc]

theorem accepted_every : (InvDesc.accepted ⟨3, 0, 0, 0⟩ fn = true) ↔ fn = 0 := by
  by_cases h : fn = 0 <;> simp [InvDesc.accepted, h]

end

section
variable {s : State} {fn : Nat} {d : InvDesc}

theorem hostPost_up (hu : s.up = true) (hf : fn ≤ 64) : s.hostPost fn d = s.postInv fn d none := if_pos ⟨hu, hf⟩

/-- An accepted descriptor of the host's takes the next INVSEQ, with nothing to wait for. -/
theorem postInv_accepted (h : d.accepted fn = true) : s.postInv fn d none = s.setFn fn { s.fn fn with
    invSeq := (s.fn fn).invSeq + 1
    posted := (s.fn fn).posted ++
      [⟨(s.fn fn).invSeq + 1, d.kind, if fn = 0 then d.vdid else fn, d.size, d.addr, []⟩] } := by
  simp only [State.postInv, h, if_true, State.fencesOf]

theorem postInv_refused (h : ¬ d.accepted fn = true) : s.postInv fn d none = s.setFn fn { s.fn fn with invErr := true } := by
  simp only [State.postInv, if_neg h]

/-- A post counts or sets INVERR, and leaves the staging buffer alone. -/
theorem postInv_answers : ((s.postInv fn d none).fn fn).invBuf = (s.fn fn).invBuf ∧
    (((s.postInv fn d none).fn fn).invSeq = (s.fn fn).invSeq + 1 ∨ ((s.postInv fn d none).fn fn).invErr = true) := by
  by_cases h : d.accepted fn = true
  · rw [postInv_accepted h, State.fn_setFn, if_pos rfl]
    exact ⟨rfl, .inl rfl⟩
  · rw [postInv_refused h, State.fn_setFn, if_pos rfl]
    exact ⟨rfl, .inr rfl⟩

end

/-! ### Staging (R88) -/

section
variable {s : State} {fn off : Nat} {bs : List Byte}

theorem execInvStageWrite_stages (hu : s.up = true) (hf : fn ≤ 64) (ho : 0x1000 ≤ off) (hl : off + bs.length ≤ 0x1010) :
    exec (.invStageWrite fn off bs) s = .next (s.stageInv fn off bs none) :=
  congrArg Host.Outcome.next (if_pos ⟨hu, hf, ho, hl⟩)

theorem stageInv_keeps (ho : 0x1000 ≤ off) (hl : off + bs.length < 0x1010) : s.stageInv fn off bs none =
    s.setFn fn { s.fn fn with invBuf := Memory.put (s.fn fn).invBuf (off - 0x1000) bs } := by
  simp only [State.stageInv, if_neg (show ¬ 16 ≤ off - 0x1000 + bs.length by omega)]

theorem stageInv_posts (ho : 0x1000 ≤ off) (hl : off + bs.length = 0x1010) : s.stageInv fn off bs none =
    (s.setFn fn { s.fn fn with invBuf := [] }).postInv fn
      (invDescOf (Memory.bytes (Memory.put (s.fn fn).invBuf (off - 0x1000) bs) 0 16)) none := by
  simp only [State.stageInv, if_pos (show 16 ≤ off - 0x1000 + bs.length by omega)]

end

/-! ### Completion (R89) -/

section
variable {s : State} {fn : Nat} {p : Posted} {r : List Posted}

theorem completeInv_none (h : (s.fn fn).posted = []) : s.completeInv fn = s := by
  simp only [State.completeInv, h]

theorem completeInv_ready (h : (s.fn fn).posted = p :: r) (hf : ∀ y ∈ p.fences, s.pendingOpen y = false)
    (hc : s.noConcern p = true) : s.completeInv fn =
      { s.dropLines p with cache := (s.dropLines p).cache.filter fun c => !p.drops c }.setFn fn
        { (s.dropLines p).fn fn with posted := r, invDone := p.seq } := by
  have hn : (p.fences.any s.pendingOpen || !s.noConcern p) = false := by simpa [hc] using hf
  simp only [State.completeInv, h, hn, Bool.false_eq_true, if_false]

theorem completeInv_waits (h : (s.fn fn).posted = p :: r)
    (hw : s.noConcern p = false ∨ ∃ y ∈ p.fences, s.pendingOpen y = true) : s.completeInv fn = s := by
  have hn : (p.fences.any s.pendingOpen || !s.noConcern p) = true := by simpa [or_comm] using hw
  simp only [State.completeInv, h, hn, if_true]

end

end Sys2Proof.Machine

open Sys2Proof Sys2Proof.Machine

/-- Settles O53: each descriptor is accepted exactly under the conditions stated, and the oldest one waits for its fences and
for the accesses that it concerns. -/
theorem invalidation : Obligations.Invalidation := by
  intro s fn vdid size off addr bs p r
  refine ⟨fun hu hf => ?_, fun h hy hc => congrArg Host.Outcome.next (completeInv_ready h hy hc),
    fun h hw => congrArg Host.Outcome.next (completeInv_waits h hw), fun h => congrArg Host.Outcome.next (completeInv_none h)⟩
  have post : ∀ d : InvDesc, d.accepted fn = true → (.next (s.hostPost fn d) : Host.Outcome State Fault Refusal) = _ :=
    fun d h => by rw [hostPost_up hu hf, postInv_accepted h]
  have err : ∀ d : InvDesc, ¬ d.accepted fn = true → (.next (s.hostPost fn d) : Host.Outcome State Fault Refusal) = _ :=
    fun d h => by rw [hostPost_up hu hf, postInv_refused h]
  refine ⟨fun h hv => post _ (accepted_all.mpr ⟨h, hv⟩), fun hv hr => post _ (accepted_stage1.mpr ⟨hv, hr⟩),
    fun h hv hr => post _ (accepted_stage2.mpr ⟨h, hv, hr⟩), fun h => ?_,
    fun h => err _ ?_, fun h => err _ ?_, fun h => err _ ?_, fun h => err _ (mt accepted_every.mp h),
    fun ho hl => ?_, fun ho hl => ?_⟩
  · exact (post ⟨3, 0, 0, 0⟩ (accepted_every.mpr h)).trans (by simp only [h, if_true])
  · rw [accepted_all]; omega
  · rw [accepted_stage1]
    rintro ⟨hv, hr⟩
    exact h.elim (fun ⟨h0, h1⟩ => absurd (hv h0) (by omega)) (fun hn => hn hr)
  · rw [accepted_stage2]
    rintro ⟨h0, hv, hr⟩
    exact h.elim (fun hn => hn h0) fun h => h.elim (fun hl => absurd hv (by omega)) fun hn => hn hr
  · rw [execInvStageWrite_stages hu hf ho (by omega), stageInv_keeps ho hl]
  · refine ⟨_, execInvStageWrite_stages hu hf ho (by omega), ?_⟩
    rw [stageInv_posts ho hl]
    obtain ⟨hb, hs⟩ := postInv_answers (s := s.setFn fn { s.fn fn with invBuf := [] }) (fn := fn)
      (d := invDescOf (Memory.bytes (Memory.put (s.fn fn).invBuf (off - 0x1000) bs) 0 16))
    rw [State.fn_setFn, if_pos rfl] at hb hs
    exact ⟨hb, hs⟩

end

section
/-! SUPPORT. The host, peers, links and the exchange of time (R70, R102, R103, R296, R324, R325, R415, R419, R420, R424,
R425): what an access of theirs does at a line's home, and what each event does where its condition holds. -/

namespace Sys2Proof.Machine

open Sys2Proof

/-! ### Bytes read after they are written -/

theorem Memory.bytes_put {m : List Host.Cell} (a : Nat) (bs : List Byte) (w : Memory.wf m = true) :
    Memory.bytes (Memory.put m a bs) a bs.length = bs := by
  induction bs generalizing m a with
  | nil => rfl
  | cons b r ih =>
    have hb : Memory.get (Memory.put m a (b :: r)) a = b := by
      rw [Memory.get_put a a _ w, if_pos ⟨le_rfl, by simp⟩, Nat.sub_self, List.getD_cons_zero]
    rw [List.length_cons, Memory.bytes, hb, Memory.put, ih (a + 1) (Memory.set_wf a b w)]

theorem natOfBytes_bytesOf (n v : Nat) : natOfBytes (bytesOf n v) = v % 256 ^ n := by
  induction n generalizing v with
  | zero => simp [bytesOf, natOfBytes, Nat.mod_one]
  | succ n ih =>
    rw [bytesOf, natOfBytes, ih, BitVec.toNat_ofNat, Nat.pow_succ' (m := 256), Nat.mod_mul]

/-- A number is read back as it was written, modulo the width. -/
theorem Memory.read_put_bytesOf {m : List Host.Cell} (a n v : Nat) (w : Memory.wf m = true) :
    Memory.read (Memory.put m a (bytesOf n v)) a n = v % 256 ^ n := by
  have h := Memory.bytes_put a (bytesOf n v) w
  rw [bytesOf_length] at h
  rw [Memory.read, h, natOfBytes_bytesOf]

/-! ### The host's ring doorbell (R415, R420) -/

section
variable {s : State} {fn ring : Nat}

theorem execRingDoorbell_up (tail : DWord) (hu : s.up = true) (hf : fn ≤ 64) (hr : ring < 8) :
    exec (.ringDoorbell fn ring tail) s = .next (s.setFn fn { s.fn fn with
      win := Memory.put (s.fn fn).win (0x2018 + 64 * ring) (bytesOf 8 tail.toNat) }) := by
  have ho : 0x2000 + 64 * ring + 0x18 = 0x2018 + 64 * ring := by omega
  have hw : ∀ off, 0x2000 ≤ off → off < 0x2200 → s.writeWindow fn off (bytesOf 8 tail.toNat) none =
      s.setFn fn { s.fn fn with win := Memory.put (s.fn fn).win off (bytesOf 8 tail.toNat) } := fun off h1 h2 => by
    simp only [State.writeWindow]
    rw [if_neg (by omega), if_neg (by omega), if_neg (by omega), if_neg (by omega), if_pos ⟨h1, h2⟩]
  rw [← hw _ (by omega) (by omega), ← ho]
  exact congrArg Host.Outcome.next (if_pos ⟨hu, hf, hr⟩)

end

/-! ### Accesses from outside (R102, R103, R296, R419, R424) -/

/-- What the host's function and its row of CONN, or a peer's row and the accesses that went early, let through. -/
def State.outerMay (s : State) (host : Bool) (pa n : Nat) (w : Bool) : Bool :=
  if host then s.decodes s.site pa n && s.portReaches 16 pa n else s.portReaches 17 pa n && !s.peerClash pa n w

theorem paKind_hbm {pa : Nat} (h : isHbm pa = true) : paKind pa = 0 := by
  have h : pa < 0x14000000000 := of_decide_eq_true h
  rw [paKind, Nat.div_eq_of_lt (by omega), Nat.zero_mod]

section
variable {s : State} {pa n : Nat} {may : Nat → Nat → Bool → Bool} {bs : List Byte} {i : ExtAcc → Instr} {host : Bool}

theorem inHbm_start (h : inHbm pa n = true) : isHbm pa = true := (Bool.and_eq_true _ _ ▸ h : _ ∧ _).1

/-- A live link and no register window: the access is one to device memory. -/
theorem exec_outer {a : ExtAcc} (hi : i = Instr.hostAccess ∧ host = true ∧ s.cxl = true ∨
      i = Instr.peerAccess ∧ host = false ∧ s.ports.any id = true)
    (hu : s.up = true) (ha : ∀ pa bs, a = .write pa bs → isHbm pa = true) :
    exec (i a) s = .next (s.outerAccess (s.outerMay host) a) := by
  obtain ⟨rfl, rfl, hc⟩ | ⟨rfl, rfl, hp⟩ := hi
  · refine (congrArg Host.Outcome.next (if_pos hc)).trans (congrArg Host.Outcome.next ?_)
    simp only [State.hostAccess, hu, if_true]
    cases a with
    | write pa bs =>
      have hk : ¬ (paKind pa = 3 ∧ (windowAt pa).1 ≤ 64) := by simp [paKind_hbm (ha pa bs rfl)]
      simp only [if_neg hk]
      rfl
    | read | atomic => rfl
  · have hp : (s.up && s.ports.any id) = true := by simp only [hu, hp, Bool.and_self]
    exact congrArg Host.Outcome.next (if_pos hp)

theorem outerWrite_clean (h : s.metError pa bs.length true = none) : s.outerWrite pa bs =
    (s.writePhys pa bs false none).repairLines (linesOf pa bs.length).contains := by
  simp only [State.outerWrite, h]

section
variable (hd : s.homeDue (s.homeOf (.phys pa)) = false)
include hd

theorem outerAccess_write (hb : bs ≠ []) (hh : inHbm pa bs.length = true) (hm : may pa bs.length true = true) :
    s.outerAccess may (.write pa bs) = s.outerWrite pa bs := by
  simp [State.outerAccess, hb, hh, hm, hd]

theorem outerAccess_read (h0 : 0 < n) (hh : inHbm pa n = true) (hm : may pa n false = true) :
    s.outerAccess may (.read pa n) = s.outerRead pa n := by
  simp [State.outerAccess, Nat.ne_of_gt h0, hh, hm, hd]

theorem outerAccess_atomic {op : AOp} {b c : Word} (h4 : pa % 4 = 0) (hh : inHbm pa 4 = true)
    (hm : may pa 4 true = true) : s.outerAccess may (.atomic pa op b c) =
      s.outerWrite pa (bytesOf 4 (atomNew op (BitVec.ofNat 32 (Memory.read s.mem pa 4)) b c).toNat) := by
  simp [State.outerAccess, h4, hh, hm, hd]

end

theorem outerAccess_refused (hm : may pa bs.length true = false) : s.outerAccess may (.write pa bs) = s := by
  simp [State.outerAccess, hm]

theorem outerRead_clean (h : s.metError pa n false = none) : s.outerRead pa n = s := by
  simp only [State.outerRead, h]

theorem outerRead_failed {l : Nat} (h : s.metError pa n false = some l) :
    s.outerRead pa n = (s.markFailed l).postCheck (l * 128) := by
  simp only [State.outerRead, h]

end

/-! ### Exchanges of time (R324, R325) -/

/-- What an exchange does on one die: nothing where it has no clock to follow. -/
def State.exchangeOn (ahead : Int) (s : State) (d : Nat) : State :=
  let x := s.die d
  if x.src = 0 then s
  else
    let y := x.exchange ahead.natAbs ahead
    let s := s.setDie d y
    if x.locked && !y.locked then s.post 0 evSkew (d * 256) 0 none else s

theorem exchange_eq (s : State) (ahead : Int) : s.exchange ahead = (List.range 4).foldl (State.exchangeOn ahead) s := rfl

section
variable (s : State) (ahead : Int)

@[simp] theorem post_groups (fn code unit ctx : Nat) (data : Option DWord) :
    (s.post fn code unit ctx data).groups = s.groups := by
  obtain ⟨m, rs, fs, ns, h⟩ := post_only (s := s) fn code unit ctx data
  rw [h]

@[simp] theorem post_die (fn code unit ctx : Nat) (data : Option DWord) (d : Nat) :
    (s.post fn code unit ctx data).die d = s.die d := by
  obtain ⟨m, rs, fs, ns, h⟩ := post_only (s := s) fn code unit ctx data
  rw [h]
  rfl

@[simp] theorem post_eventSeq (fn code unit ctx : Nat) (data : Option DWord) :
    (s.post fn code unit ctx data).eventSeq = s.eventSeq + 1 := by
  obtain ⟨m, rs, fs, ns, h⟩ := post_only (s := s) fn code unit ctx data
  rw [h]

theorem exchangeOn_groups (d : Nat) : (s.exchangeOn ahead d).groups = s.groups := by
  simp only [State.exchangeOn]
  split
  · rfl
  · split
    · exact post_groups _ _ _ _ _ _
    · rfl

theorem exchangeOn_die (d e : Nat) : (s.exchangeOn ahead d).die e =
    if e = d ∧ (s.die e).src ≠ 0 then (s.die e).exchange ahead.natAbs ahead else s.die e := by
  simp only [State.exchangeOn]
  split
  · next h => rw [if_neg (by rintro ⟨rfl, hn⟩; exact hn h)]
  · next h =>
    have hd : (s.setDie d ((s.die d).exchange ahead.natAbs ahead)).die e =
        if e = d ∧ (s.die e).src ≠ 0 then (s.die e).exchange ahead.natAbs ahead else s.die e := by
      rw [State.die_setDie]
      by_cases he : e = d
      · subst he; simp only [h, if_true, true_and, ne_eq, not_false_eq_true]
      · simp only [he, if_false, false_and]
    split
    · rw [post_die, hd]
    · exact hd

theorem exchangeOn_foldl {l : List Nat} (hl : l.Nodup) (e : Nat) : (l.foldl (State.exchangeOn ahead) s).die e =
    if e ∈ l ∧ (s.die e).src ≠ 0 then (s.die e).exchange ahead.natAbs ahead else s.die e := by
  induction l generalizing s with
  | nil => simp
  | cons d r ih =>
    obtain ⟨hd, hr⟩ := List.nodup_cons.mp hl
    rw [List.foldl_cons, ih _ hr, exchangeOn_die]
    by_cases he : e = d
    · subst he; simp [hd]
    · simp [he]

/-- An exchange is taken by every die that follows a clock. -/
theorem exchange_die {e : Nat} (he : e < 4) (hs : (s.die e).src ≠ 0) :
    (s.exchange ahead).die e = (s.die e).exchange ahead.natAbs ahead := by
  rw [exchange_eq, exchangeOn_foldl _ _ List.nodup_range, if_pos ⟨List.mem_range.mpr he, hs⟩]

theorem exchange_groups : (s.exchange ahead).groups = s.groups :=
  List.foldlRecOn (motive := fun t => t.groups = s.groups) _ _ rfl
    fun t ht d _ => (exchangeOn_groups t ahead d).trans ht

end

theorem exchange_good {x : Die} {o : Nat} (h : o ≤ 256) (a : Int) : (x.exchange o a).good = x.good + 1 ∧
    (x.exchange o a).locked = (x.locked || decide (16 ≤ x.good + 1)) := by
  simp [Die.exchange, domainBound, h]

theorem exchange_bad {x : Die} {o : Nat} (h : 256 < o) (a : Int) : (x.exchange o a).good = 0 ∧
    (x.exchange o a).locked = false := by
  simp [Die.exchange, domainBound, Nat.not_le.mpr h]

/-- A fold of steps that leave the start as it is. -/
theorem foldl_kept {α β : Type} {f : β → α → β} {b : β} {l : List α} (h : ∀ x ∈ l, f b x = b) : l.foldl f b = b :=
  List.foldlRecOn (motive := fun t => t = b) l f rfl fun _ ht x hx => ht ▸ h x hx

/-! ### Lost locks and links (R102, R325, R419, R425) -/

section
variable {s : State} {d g acc : Nat} {a : Access} {q : Part} {pa : Nat}

theorem lockLoss_due (hd : d < 4) (hl : (s.die d).locked = true) (ht : (s.die d).lastExchange + 4000000 ≤ s.ticks d) :
    s.lockLoss d = (s.setDie d { s.die d with locked := false, good := 0 }).post 0 evSkew (d * 256) 0 none :=
  if_pos ⟨hd, hl, ht⟩

theorem lockLoss_unlocked (hl : (s.die d).locked = false) : s.lockLoss d = s := if_neg (by simp [hl])

/-- Where no access to host memory is open, a failure of the CXL link is reported, and kills nothing. -/
theorem cxlFails_idle (hc : s.cxl = true)
    (hk : ∀ k ∈ s.liveGroups, s.openPa k (fun pa => decide (paKind pa = 1)) = none) :
    s.cxlFails = { s with cxl := false }.post 0 evLink 4096 0 none := by
  have hg := post_groups { s with cxl := false } 0 evLink 4096 0 none
  simp only [State.cxlFails, hc, if_true]
  refine foldl_kept fun k hm => ?_
  simp only [State.liveGroups, State.group, hg] at hm
  have ho : (State.post { s with cxl := false } 0 evLink 4096 0 none).openPa k (fun pa => decide (paKind pa = 1)) = none := by
    simpa only [State.openPa, State.group, hg] using hk k hm
  simp only [ho]

section
variable (ha : (s.group g).access? acc = some a) (hq : a.parts.find? (Part.lost s g) = some q) (hl : q.loc = .phys pa)
include ha hq

omit hl in
theorem abortPeer_waits (ht : s.ticks (s.dieOf g) < a.issued + 40000) : s.abortPeer g acc = s := by
  simp [State.abortPeer, ha, hq, ht]

include hl
variable (hr : a.arrived = false) (ht : a.issued + 40000 ≤ s.ticks (s.dieOf g))
include hr ht

/-- A load or an atomic that no link reaches is an uncorrectable error of its context. -/
theorem abortPeer_kills (hs : a.kind ≠ .store) (hp : a.kind ≠ .pfet) :
    s.abortPeer g acc = s.machineCheck (s.ctxOf g) pa := by
  simp [State.abortPeer, ha, hq, hl, hr, ht, hs, hp]

/-- The parts of a store that no link reaches are dropped, with a record. -/
theorem abortPeer_drops (hs : a.kind = .store) : s.abortPeer g acc = ((s.putAccess g acc { a with
      parts := a.parts.map fun p => if Part.lost s g p then { p with dropped := true, back := true } else p
      }).finish g acc).post 0 evLink 2048 (s.ctxOf g) (some (BitVec.ofNat 64 pa)) := by
  simp [State.abortPeer, ha, hq, hl, hr, ht, hs]

end

end

end Sys2Proof.Machine

open Sys2Proof Sys2Proof.Machine

/-- Settles O54: the outer accesses are served where their port may reach the line and no held access is due at its home,
and each event's condition is the one stated. -/
theorem hostAndLinks : Obligations.HostAndLinks := by
  intro s fn ring pa n d t1 t2 t3 t4 port g acc tail bs op b c a q
  refine ⟨fun hm hu hf hr => ⟨_, execRingDoorbell_up tail hu hf hr, ?_, rfl, fun k hk => ?_⟩, fun i host hi hu hd => ?_,
    fun h => congrArg Host.Outcome.next (if_neg (by simp [h])), fun h => congrArg Host.Outcome.next (if_neg (by simp [h])),
    fun hs hp hy => ?_, fun h => congrArg Host.Outcome.next (if_neg fun hc => h hc.2.2), ?_, ?_,
    fun h => congrArg Host.Outcome.next (if_pos h), fun hc hk => congrArg Host.Outcome.next (cxlFails_idle hc hk),
    fun ha hq hl hr => ⟨fun ht hs hp => congrArg Host.Outcome.next (abortPeer_kills ha hq hl hr ht hs hp),
      fun ht hs => congrArg Host.Outcome.next (abortPeer_drops ha hq hl hr ht hs),
      fun ht => congrArg Host.Outcome.next (abortPeer_waits ha hq ht)⟩⟩
  · rw [State.fn_setFn, if_pos rfl, Memory.read_put_bytesOf _ _ _ (memOk_win hm fn)]
    exact Nat.mod_eq_of_lt tail.isLt
  · rw [State.fn_setFn, if_neg hk]
  · refine ⟨fun hb hh hm he => ?_, fun h0 hh hm he => ?_, fun l h0 hh hm he => ?_, fun h4 hh hm he => ?_,
      fun hb hh hm => ?_⟩
    · rw [exec_outer hi hu (by rintro _ _ ⟨⟩; exact inHbm_start hh), outerAccess_write hd hb hh hm, outerWrite_clean he]
    · rw [exec_outer (a := .read pa n) hi hu nofun, outerAccess_read hd h0 hh hm, outerRead_clean he]
    · rw [exec_outer (a := .read pa n) hi hu nofun, outerAccess_read hd h0 hh hm, outerRead_failed he]
    · rw [exec_outer (a := .atomic pa op b c) hi hu nofun, outerAccess_atomic hd h4 hh hm,
        outerWrite_clean (by rwa [bytesOf_length])]
    · rw [exec_outer hi hu (by rintro _ _ ⟨⟩; exact inHbm_start hh), outerAccess_refused hm]
  · refine ⟨_, congrArg Host.Outcome.next (if_pos ⟨hs, hp, hy⟩), exchange_groups s _, fun e he hn => ?_⟩
    rw [exchange_die s _ he hn]
    exact ⟨rfl, rfl, rfl, rfl, fun h => exchange_good h _, fun h => exchange_bad h _⟩
  · rintro rfl hd hl ht
    refine ⟨_, congrArg Host.Outcome.next (lockLoss_due hd hl ht), ?_, post_eventSeq _ _ _ _ _ _⟩
    rw [post_die, State.die_setDie, if_pos rfl]
  · rintro rfl hl
    exact congrArg Host.Outcome.next (lockLoss_unlocked hl)

end

section
/-! SUPPORT. Faults and the operand log (R93, R96 to R98, R100, R256, R368, R390, R431): what the replay of an entry does by
what the entry is for, the handler group of a buffer's faults, and the host's answer. -/

namespace Sys2Proof.Machine

open Sys2Proof

/-! ### The replay of an entry (R93, R256, R368, R390) -/

section
variable {s : State} {g n : Nat} {e : LogEntry} (he : (s.group g).log.find? (fun x => x.1 == n) = some (n, e))
include he

/-- An entry with a fault that is not completed stays. -/
theorem replay_waits (hw : e.waiting ≠ 0) : s.replay g n = s := by
  simp only [State.replay, he, hw, ne_eq, not_false_eq_true, true_or, if_true]

section
variable (hw : e.waiting = 0) (hb : (s.group g).bank = .live) (hl : (s.group g).live = true)
include hw hb hl

theorem replay_access {acc : Nat} (h : e.what = .access acc) : s.replay g n = s.replayAccess g n e acc := by
  simp [State.replay, he, hw, hb, hl, h]

theorem replay_matrix (h : e.what = .matrix) : s.replay g n = s.replayMatrix g n e := by
  simp [State.replay, he, hw, hb, hl, h]

theorem replay_retry (h : e.what = .retry) : s.replay g n = s.replayWait g n e := by
  simp [State.replay, he, hw, hb, hl, h]

end

end

section
variable {s : State} {g n : Nat} {e : LogEntry} {j : Job}

theorem replayWait_done (ha : e.aborted = 0) :
    s.replayWait g n e = s.setGroup g { s.group g with log := (s.group g).log.del n } := if_pos ha

section
variable (hj : (s.setGroup g { s.group g with log := (s.group g).log.del n }).jobOf g = some j)
include hj

theorem replayMatrix_goes (ha : e.aborted = 0) : s.replayMatrix g n e =
    (s.setGroup g { s.group g with log := (s.group g).log.del n }).modJob g fun j => some { j with waiting := false } := by
  simp only [State.replayMatrix, hj, ha, if_true]

theorem replayMatrix_aborts (ha : e.aborted ≠ 0) : s.replayMatrix g n e =
    ((s.setGroup g { s.group g with log := (s.group g).log.del n }).dropJob j).lateJob j .translationAbort e.addr := by
  simp only [State.replayMatrix, hj, ha, if_false]

end

end

/-! ### Handler groups (R96, R97, R431) -/

section
variable {fs : List (Nat × FaultRec)} {k n : Nat} {f : FaultRec}

theorem handlerReg_get (hf : fs[k]? = some (n, f)) (hk : k < 32) (val : FaultRec → Word) :
    (handlerReg fs val).lanes.get k = val f := by
  rw [handlerReg, VReg.lanes, lanes_get_ofFn _ hk, hf]

theorem handlerGroup_fault (hf : fs[k]? = some (n, f)) (hk : k < 32) (entry gslot ctx : Nat) :
    (handlerGroup entry gslot ctx fs).faultOfLane k = some n := by
  simp [handlerGroup, Group.faultOfLane, List.getD_eq_getElem?_getD, hk, hf]

/-- Lane `k` of a handler group holds the `k`-th fault's tag, address and fault word (R431). -/
theorem handlerGroup_lane (hf : fs[k]? = some (n, f)) (hk : k < 32) (entry gslot ctx : Nat) :
    let h := handlerGroup entry gslot ctx fs
    (h.v 0).lanes.get k = f.tag ∧ (h.v 1).lanes.get k = loWord f.va ∧ (h.v 2).lanes.get k = hiWord f.va ∧
      (h.v 3).lanes.get k = f.word :=
  ⟨handlerReg_get hf hk (·.tag), handlerReg_get hf hk fun f => loWord f.va, handlerReg_get hf hk fun f => hiWord f.va,
    handlerReg_get hf hk (·.word)⟩

end

section
variable {s : State} {die ctx c b : Nat}

/-- The handler group of a die's oldest faults of a context. -/
def State.handlerOf (s : State) (die ctx c : Nat) : Group :=
  handlerGroup (s.launch (s.part (s.partOfCtx ctx)).service).desc.entry (s.freeGslot c) ctx
    ((s.bufferedOf die ctx).take 32)

theorem launchHandler_idle (h : s.handlerDue die ctx = false) : s.launchHandler die ctx = s := by
  simp only [State.launchHandler, h]
  split
  · rfl
  · simp

/-- Where the buffer has a handler due and its footprint is free, the group starts, in a team of its own. -/
theorem launchHandler_due {tm : Nat} (ht : tm = (s.part (s.partOfCtx ctx)).service * 512 + die)
    (hp : s.handlerPlace (s.part (s.partOfCtx ctx)).service die = some (c, b))
    (hd : s.handlerDue die ctx = true) (hl : (s.team tm).live = false) (hb : (s.core c).liveBank = b)
    (he : (s.launch (s.part (s.partOfCtx ctx)).service).ended = false) (hg : ∀ y ∈ s.liveGroups, teamOf y ≠ tm) :
    ∃ fs, s.launchHandler die ctx =
      { (s.setTeam tm { Team.absent with core := c, live := true }).setGroup (tm * 16) (s.handlerOf die ctx c) with
        faults := fs } := by
  subst ht
  have hn : (s.liveGroups.any fun g => teamOf g == (s.part (s.partOfCtx ctx)).service * 512 + die) = false := by
    simpa using hg
  simp only [State.launchHandler, hp, hd, hl, hb, he, hn, ne_eq, not_true_eq_false, decide_false, Bool.not_true,
    Bool.or_self, Bool.false_eq_true, if_false]
  exact ⟨_, rfl⟩

end

/-! ### The host's answer (R100) -/

theorem stage2Answer_found {s : State} {tag : Word} {n : Nat} {f : FaultRec}
    (hf : s.faults.find? (fun y => decide (y.2.st = .stage2) && decide (y.2.tag = tag)) = some (n, f))
    (hn : s.faults.find? (fun y => y.1 == n) = some (n, f)) (abort : Bool) : s.stage2Answer tag abort =
      { s with faults := s.faults.del n }.setGroup f.group ((s.group f.group).faultDone f abort) := by
  simp only [State.stage2Answer, hf, State.completeFault, hn]

end Sys2Proof.Machine

open Sys2Proof Sys2Proof.Machine

/-- Settles O49: the replay by what the entry is for, the handler group by its registers' lanes, and the host's answer. -/
theorem faultService : Obligations.FaultService := by
  intro s g n die ctx c b k e j f tag
  refine ⟨fun he => ⟨fun hw => congrArg Host.Outcome.next (replay_waits he hw), fun hw hb hl =>
      ⟨fun acc h => congrArg Host.Outcome.next (replay_access he hw hb hl h),
        fun h ha => congrArg Host.Outcome.next ((replay_retry he hw hb hl h).trans (replayWait_done ha)),
        fun h ha hj => congrArg Host.Outcome.next ((replay_matrix he hw hb hl h).trans (replayMatrix_goes hj ha)),
        fun h ha hj => congrArg Host.Outcome.next ((replay_matrix he hw hb hl h).trans (replayMatrix_aborts hj ha))⟩⟩,
    fun hp hd hl hb he hg => ?_, fun h => congrArg Host.Outcome.next (launchHandler_idle h),
    fun hf hn => ⟨congrArg Host.Outcome.next (stage2Answer_found hf hn false),
      congrArg Host.Outcome.next (stage2Answer_found hf hn true)⟩⟩
  obtain ⟨fs, ht⟩ := launchHandler_due rfl hp hd hl hb he hg
  refine ⟨_, congrArg Host.Outcome.next ht, rfl, ?_, ?_⟩
  · exact congrArg Team.live (tbl_get_set_same _ _ _ _)
  · have hh : ({ (s.setTeam ((s.part (s.partOfCtx ctx)).service * 512 + die)
        { Team.absent with core := c, live := true }).setGroup (((s.part (s.partOfCtx ctx)).service * 512 + die) * 16)
          (s.handlerOf die ctx c) with faults := fs } : State).group
        (((s.part (s.partOfCtx ctx)).service * 512 + die) * 16) = s.handlerOf die ctx c := tbl_get_set_same _ _ _ _
    rw [hh]
    refine ⟨rfl, rfl, fun hk h32 => ?_⟩
    have hk : ((s.bufferedOf die ctx).take 32)[k]? = some (n, f) := by rw [List.getElem?_take_of_lt h32, hk]
    obtain ⟨h0, h1, h2, h3⟩ := handlerGroup_lane hk h32 (s.launch (s.part (s.partOfCtx ctx)).service).desc.entry
      (s.freeGslot c) ctx
    exact ⟨h0, h1, h2, h3, handlerGroup_fault hk h32 _ _ _⟩

end

section
/-! SUPPORT. Held accesses at their homes (R126, R128, R282, R293 to R295), replicas (R84, R293) and the write-back of a
region's line (R113): what each event does where its condition holds. -/

namespace Sys2Proof.Machine

open Sys2Proof

/-! ### Arrivals (R126, R294) -/

section
variable {s : State} {g acc h : Nat} {a : Access} {v : DWord} (ha : (s.group g).access? acc = some a)
include ha

theorem heldArrive_one (hv : a.held = some v) (hh : s.homesLeft g acc a = [h]) :
    s.heldArrive g acc = s.arriveAt g acc v h := by
  simp only [State.heldArrive, ha, hv, hh, List.foldl_cons, List.foldl_nil]

section
variable (hm : s.mayPerform g acc a (s.partsAt a h) = true)
include hm

/-- An access that comes in time takes its place in its home's queue. -/
theorem arriveAt_queued (ht : s.tooLate h v = false) : s.arriveAt g acc v h =
    { s.putAccess g acc { a with arrived := true } with
      holds := s.holds ++ [⟨h, g, acc, s.heldSeq⟩], heldSeq := s.heldSeq + 1 } := by
  simp only [State.arriveAt, ha, hm, ht, Bool.not_true, Bool.false_eq_true, if_false]
  rfl

/-- A store that comes too late is performed at once, with its lanes marked. -/
theorem arriveAt_late (ht : s.tooLate h v = true) (hd : s.homeDue h = false) (hk : a.kind ≠ .load) :
    s.arriveAt g acc v h = (s.putAccess g acc { a with
      arrived := true
      late := ((s.partsAt a h).filterMap fun i => a.parts[i]?).foldl
        (fun (m : Word) p => m ||| ((1 : Word) <<< p.lane)) a.late }).performHome g acc h := by
  simp only [State.arriveAt, ha, hm, ht, hd, hk, Bool.not_true, Bool.false_eq_true, if_true, if_false]

end

end

/-! ### The order of a queue (R126) -/

theorem keyBefore_iff (a b : Nat × Nat × Nat) : keyBefore a b = true ↔
    a.1 < b.1 ∨ a.1 = b.1 ∧ (a.2.1 < b.2.1 ∨ a.2.1 = b.2.1 ∧ a.2.2 < b.2.2) := by
  simp only [keyBefore, Bool.or_eq_true, Bool.and_eq_true, decide_eq_true_eq]

theorem keyBefore_asymm {a b : Nat × Nat × Nat} (h : keyBefore a b = true) : keyBefore b a = false := by
  rw [← Bool.not_eq_true, keyBefore_iff]
  rw [keyBefore_iff] at h
  omega

/-- Not to come before is transitive. -/
theorem keyBefore_trans_not {a b c : Nat × Nat × Nat} (h : keyBefore a b = false) (k : keyBefore b c = false) :
    keyBefore a c = false := by
  rw [← Bool.not_eq_true, keyBefore_iff] at *
  omega

section
variable {s : State}

theorem firstHeld_eq_none {hs : List HeldRec} (h : s.firstHeld hs = none) : hs = [] := by
  cases hs with
  | nil => rfl
  | cons y r =>
    simp only [State.firstHeld] at h
    split at h
    · cases h
    · split at h <;> cases h

/-- The first of some held accesses is one of them, and none comes before it. -/
theorem firstHeld_least {hs : List HeldRec} {x : HeldRec} (h : s.firstHeld hs = some x) :
    x ∈ hs ∧ ∀ y ∈ hs, keyBefore (s.releaseKey y) (s.releaseKey x) = false := by
  induction hs generalizing x with
  | nil => cases h
  | cons z r ih =>
    have hself : ∀ y, keyBefore (s.releaseKey y) (s.releaseKey y) = false := fun y =>
      Bool.eq_false_iff.mpr fun hy => by simp [keyBefore_asymm hy] at hy
    simp only [State.firstHeld] at h
    split at h
    · next hr =>
      cases h
      simp [firstHeld_eq_none hr, hself]
    · next k hr =>
      obtain ⟨hk, hle⟩ := ih hr
      split at h
      · next hb =>
        cases h
        exact ⟨.tail _ hk, List.forall_mem_cons.mpr ⟨keyBefore_asymm hb, hle⟩⟩
      · next hb =>
        cases h
        exact ⟨.head _, List.forall_mem_cons.mpr
          ⟨hself z, fun y hy => keyBefore_trans_not (hle y hy) (Bool.eq_false_iff.mpr hb)⟩⟩

/-! ### Releases (R126, R128) -/

theorem release_first {h : Nat} {x : HeldRec} (hf : s.firstHeld (s.releasable h) = some x) (ho : s.heldOpen x = true) :
    s.release h = { s with holds := s.holds.filter fun y => y != x }.performHome x.group x.acc h := by
  simp only [State.release, hf, ho, Bool.not_true, Bool.false_eq_true, if_false]

theorem release_idle {h : Nat} (hr : s.releasable h = []) : s.release h = s := by
  simp only [State.release, hr, State.firstHeld]

end

/-! ### Replicas (R84, R293) -/

/-- A replica after the update of a line on a die. -/
def Replica.updated (s : State) (die line : Nat) (r : Replica) : Replica :=
  if r.die = die ∧ r.line = line ∧ r.stale = true then
    { r with bytes := Memory.bytes s.mem (line * 128) 128, stale := false, behind := [] }
  else r

section
variable {s : State} {die line : Nat} {y : Replica}

theorem execReplicaUpdate_eq (s : State) (die line : Nat) : exec (.replicaUpdate die line) s =
    .next { s with replicas := s.replicas.map (Replica.updated s die line) } := rfl

theorem updated_stale (hd : y.die = die) (hl : y.line = line) (hs : y.stale = true) : y.updated s die line =
    { y with bytes := Memory.bytes s.mem (line * 128) 128, stale := false, behind := [] } := if_pos ⟨hd, hl, hs⟩

theorem updated_other (h : y.die ≠ die ∨ y.line ≠ line) : y.updated s die line = y :=
  if_neg fun ⟨hd, hl, _⟩ => h.elim (· hd) (· hl)

/-- No replica of the line on the die is behind after its update. -/
theorem updated_fresh (hd : (y.updated s die line).die = die) (hl : (y.updated s die line).line = line) :
    (y.updated s die line).stale = false := by
  by_cases h : y.die = die ∧ y.line = line ∧ y.stale = true
  · simp only [Replica.updated, if_pos h]
  · simp only [Replica.updated, if_neg h] at hd hl ⊢
    exact Bool.eq_false_iff.mpr fun hs => h ⟨hd, hl, hs⟩

end

/-! ### A region's dirty line (R113) -/

theorem writeBackLine_dirty {s : State} {tm i line pa : Nat} {p01 rm : Bool} {tr : Trail} {r : Region}
    (hr : (s.team tm).region? i = some r) (hl : (s.team tm).live = true) (hd : r.state.get .invalid line = .dirty)
    (he : s.escapes (teamGroup tm) (r.glob + 128 * line) 128 = false)
    (hb : s.backLine (s.coreOf (teamGroup tm)) r line (s.privileged (teamGroup tm) fullMask) s.choice =
      (.ok pa p01 rm, tr))
    (hn : s.denied (teamGroup tm) pa ⟨0, 0, 128, .write, .gen, false, false, false⟩ false = false)
    (ho : s.backOpen (teamGroup tm) pa = true) :
    s.writeBackLine tm i line = s.chosen.putBack tm i line pa tr p01 (teamGroup tm) := by
  simp only [State.writeBackLine, hr, hl, hd, he, hb, hn, ho, ne_eq, not_true_eq_false, decide_false, Bool.not_true,
    Bool.or_self, Bool.false_eq_true, if_false]

end Sys2Proof.Machine

open Sys2Proof Sys2Proof.Machine

/-- Settles O48: an arrival by its time, a queue's first by the order of its keys, a replica by its line's bytes. -/
theorem heldAccesses : Obligations.HeldAccesses := by
  intro s g acc h die line tm i a v x hs r pa p01 rm tr
  refine ⟨fun ha hv hh hm =>
      ⟨fun ht => congrArg Host.Outcome.next ((heldArrive_one ha hv hh).trans (arriveAt_queued ha hm ht)),
        fun ht hd hk => congrArg Host.Outcome.next ((heldArrive_one ha hv hh).trans (arriveAt_late ha hm ht hd hk))⟩,
    fun hf ho => congrArg Host.Outcome.next (release_first hf ho), fun hr => congrArg Host.Outcome.next (release_idle hr),
    firstHeld_least, ⟨_, execReplicaUpdate_eq s die line, rfl, ?_, ?_, ?_⟩,
    fun hr hl hd he hb hn ho => congrArg Host.Outcome.next (writeBackLine_dirty hr hl hd he hb hn ho)⟩
  · exact List.forall_mem_map.mpr fun _ _ => updated_fresh
  · exact fun y hy hd hl hst => List.mem_map.mpr ⟨y, hy, updated_stale hd hl hst⟩
  · exact fun y hy ho => List.mem_map.mpr ⟨y, hy, updated_other ho⟩

end

section
/-! SUPPORT. The ends of waits (R92, R148, R151, R152, R158, R318, R320, R346, R349, R351, R358, R373, R396), pending causes
(R385, R389, R390) and slow-path results (R177, R180, R214). -/

namespace Sys2Proof.Machine

open Sys2Proof

/-! ### A unit that waits, as its split enters it again -/

section
variable {s : State} {g sp len : Nat} {x : Split} {e : Entered} {tr : Trail}

/-- A split's unit executes at the split's own slot, with its wait. -/
theorem entering_sp (hx : (s.group g).split? sp = some x) : (s.entering g x len e tr).cur = ⟨g, x.num, x.pc, len⟩ ∧
    (s.entering g x len e tr).sp.wait = x.wait := by
  have hn : x.num = sp := split?_num hx
  subst hn
  simp only [State.entering]
  split
  · exact ⟨rfl, congrArg Split.wait (split_of_split? hx)⟩
  · refine ⟨rfl, ?_⟩
    have hu : (((s.executing g x.num x.pc len).chosen).leave tr).sp = x := split_of_split? hx
    rw [sp_modSp (by rw [hu]; rfl), hu]

/-- What the unit read as it issued does not touch where it executes or what it waits for. -/
theorem reading_sp (hs : (s.g.split? s.cur.split).isSome = true) :
    s.reading.cur = s.cur ∧ s.reading.sp.wait = s.sp.wait := by
  simp only [State.reading]
  split
  · next h _ =>
    obtain ⟨y, hy⟩ := Option.isSome_iff_exists.mp hs
    have hu : (s.modG fun g => { g with vregs := h.vregs, oregs := h.oregs, kregs := h.kregs }).sp = s.sp := by
      show (s.modG _).g.split s.cur.split = _
      rw [modG_g]
      rfl
    have hn : s.sp.num = s.cur.split := by
      rw [show s.sp = y from split_of_split? hy]
      exact split?_num hy
    exact ⟨rfl, by rw [sp_modSp (by rw [hu]; exact hn), hu]⟩
  · exact ⟨rfl, rfl⟩

end

section
variable {s : State} {g sp : Nat} {x : Split} {u : IssueUnit} {e : Entered} {tr : Trail} {i : Instr} {p : Wait → Bool}
  {f : State → State} (hx : (s.group g).split? sp = some x)
include hx

/-- What the plan of a waiting unit's instruction sees. -/
theorem resumed_sees (hc : (s.entering g x u.len e tr).goesOn i = true) :
    (s.entering g x u.len e tr).reading.cur.group = g ∧ (s.entering g x u.len e tr).reading.sp.wait = x.wait := by
  obtain ⟨hcur, hw⟩ := entering_sp (len := u.len) (e := e) (tr := tr) hx
  simp only [State.goesOn, Bool.and_eq_true] at hc
  obtain ⟨hr, hwr⟩ := reading_sp hc.1.1.1
  exact ⟨by rw [hr, hcur], by rw [hwr, hw]⟩

/-- A waiting unit of one instruction, whose plan answers a change on what it read as it issued, completes with it. -/
theorem wake_resumes (hm : s.mayIssue g = true) (hr : s.readySplit g x = true) (hl : s.look g x = .unit u e tr)
    (hp : x.wait.any p = true) (hu : u.members = [(x.pc % 3, i)]) (hc : (s.entering g x u.len e tr).goesOn i = true)
    (ha : (s.entering g x u.len e tr).ample i = true) (hf : planOf i (s.entering g x u.len e tr).reading = .ok f) :
    (.next (s.wake g sp p) : Host.Outcome State Fault Refusal) = .next ((s.entering g x u.len e tr).done i f) := by
  have hmem : membersAt x.pc u = [⟨(s.entering g x u.len e tr).cur.slot, i, planOf i⟩] := by
    rw [(entering_sp hx).1]
    simp only [membersAt, hu, List.map_cons, List.map_nil, Nat.div_add_mod']
  have hb : (x.wait.any p && s.mayIssue g && s.readySplit g x) = true := by rw [hp, hm, hr]; rfl
  simp only [State.wake, hx, hb, if_true, hl, hmem]
  exact issue_resumed rfl hf hc ha

theorem wake_none (hw : x.wait = none) (p : Wait → Bool) : s.wake g sp p = s := by
  have hb : (x.wait.any p && s.mayIssue g && s.readySplit g x) = false := by rw [hw]; rfl
  simp only [State.wake, hx, hb, Bool.false_eq_true, if_false]

/-- Where a split waits for nothing, no end of a wait does anything. -/
theorem wakes_idle (hw : x.wait = none) : ∀ i ∈ [Instr.cwaitWake g sp, .barwWake g sp, .tsyncWake g sp, .joinWake g sp,
    .twaitExpiry g sp, .exitComplete g sp, .vbeginRetry g sp, .vwaitWake g sp], exec i s = .next s := by
  have h : ∀ p, (.next (s.wake g sp p) : Host.Outcome State Fault Refusal) = .next s := fun p => by rw [wake_none hx hw]
  simp only [List.forall_mem_cons]
  exact ⟨h _, h _, h _, h _, h _, h _, h _, h _, fun _ h => nomatch h⟩

end

/-! ### What a waiting instruction's plan answers -/

section
variable {s : State} {w : Wait}

/-- A wait that is for no fault of the instruction's own goes on. -/
theorem afterFault_other (hw : s.sp.wait = some w) (ha : w ≠ .aborted) (he : w.entry? = none)
    (k : Except Stop (State → State)) : s.afterFault k = k := by
  have ho : s.g.ownFault s.sp = false := by simp only [Group.ownFault, hw, Option.bind_some, he, Option.any_none]
  simp only [State.afterFault, hw, ho, Bool.false_eq_true, if_false]

/-- An instruction's own access that no cause stops, and that nothing earlier stands before, is made. -/
theorem openAt_ok {form : AForm} {a : DWord} {n : Nat} {k : XKind} {t : Target} {ops : List DWord}
    {cont : Target → Except Stop (State → State)}
    (ht : s.checkLane s.cur.group ⟨0, a, n, k, form, false, false, true⟩ s.priv s.choice = .ok t)
    (hl : s.g.logClash form a n = false) (hc : s.clearOf k t = true) :
    s.openAt form a n k ops cont = (cont t).map fun f u => f (u.noteOwn k t) := by
  simp only [State.openAt, State.openPiece, ht, hl, hc, Bool.not_false, Bool.and_self, if_true]

/-- A version instruction reaches the record that its handle names. -/
theorem withRecord_at {h pa : Nat} {k : XKind} {tr : Trail} {ops : List DWord} {cont : Nat → Except Stop (State → State)}
    {f : State → State} (hw : s.sp.wait = some w) (ha : w ≠ .aborted) (he : w.entry? = none)
    (hr : s.recordAt h k pa tr) (hf : cont pa = .ok f) :
    s.withRecord h k ops cont = .ok fun t => f (t.atRecord k pa tr) := by
  obtain ⟨⟨p01, rm, ht⟩, hg, hal, hh, hd, hfl, hlc, hcl⟩ := hr
  have hcl : s.clearOf k ⟨[(0, 128, .phys pa)], tr, [], false, false⟩ = true := hcl
  simp only [State.withRecord, afterFault_other hw ha he, ht, hg, hal, hh, hd, hfl, hlc, hcl, hf, worstAt]
  rfl

end

section
variable {s : State}

theorem planCwait_resumes {all : Bool} {a : Src} {w : Word} (hw : s.sp.wait = some (.cwait w))
    (hb : s.g.batchDone w = true) (hf : ∀ f ∈ s.g.copyFails, atOrBelow f.batch w = false) :
    planCwait all a s = .ok id := by
  have hn : (s.g.copyFails.filter fun c => atOrBelow c.batch w) = [] :=
    List.filter_eq_nil_iff.mpr fun f h => by simp [hf f h]
  simp only [planCwait, hw, hb, hn, Bool.not_true, Bool.false_eq_true, if_false]
  rfl

theorem planBarw_resumes {d : Nat} {b : Src} {w p : Word} {t : Target} (hw : s.sp.wait = some (.barw w p))
    (ht : s.checkLane s.cur.group ⟨0, w.setWidth 64, 16, .read, .loc, false, false, true⟩ s.priv s.choice = .ok t)
    (hl : s.g.logClash .loc (w.setWidth 64) 16 = false) (hc : s.clearOf .read t = true)
    (hp : ((s.leaveTarget t).barAt t).phase ≠ p.getLsbD 0) :
    planBarw d b s = .ok fun c => ((c.noteOwn .read t).leaveTarget t).writeUni (.v d)
      (BitVec.ofNat 32 (((s.leaveTarget t).barAt t).lasterr.toNat * 2 + ((s.leaveTarget t).barAt t).phase.toNat)) := by
  simp only [planBarw, hw, afterFault_other hw (by simp) rfl, openAt_ok ht hl hc, hp, decide_false, Bool.false_eq_true,
    if_false]
  rfl

theorem planTsync_resumes {n : Word} (hw : s.sp.wait = some (.tsync n)) (ht : s.teamAt_ s.cur.group n = true) :
    planTsync s = .ok id := by
  simp only [planTsync, hw, ht, if_true]

theorem planJoin_resumes {g d : Nat} {a : Src} {m : DWord} (hg : s.cur.group = g) (hw : s.sp.wait = some (.join m))
    (he : ∀ j ∈ slotsOf m, s.childEnded g j = true) : planJoin d a s = .ok fun c =>
      (c.modG fun gr => { gr with children := gr.children.filter fun y => !(slotsOf m).contains y.1 }).writePair d
        (s.joinMask g m) := by
  subst hg
  have ha : ((slotsOf m).all fun n => s.childEnded s.cur.group n) = true := List.all_eq_true.mpr he
  simp only [planJoin, hw, ha, Bool.not_true, Bool.false_eq_true, if_false]

theorem planTwait_resumes {rel : Bool} {a : Src} {m : DWord} (hw : s.sp.wait = some (.twait m))
    (ht : m ≤ s.gtime s.cur.group) : planTwait rel a s = .ok id := by
  simp only [planTwait, hw, ht, if_true]

theorem planExit_resumes (hr : s.g.exitReady = true) (hj : s.noJob s.cur.group = true) (hf : s.g.copyFails = []) :
    planExit s = .ok State.leaveLanesOut := by
  simp only [planExit, hr, hj, hf, Bool.and_self, Bool.not_true, Bool.false_eq_true, if_false]
  rfl

section
variable {h k pa : Nat} {a : Src} {w : Word} {tr : Trail} (hw : s.sp.wait = some (.vbegin k w))
  (hp : (s.handle h).produces = true) (h0 : w ≠ 0) (hr : s.recordAt h .atomic pa tr)
include hw hp h0 hr

theorem planVbegin_opens {slot : Nat} (hb : (s.vrec pa).begin w.toNat = .opens slot) : planVbegin h a s =
    .ok fun c => (c.atRecord .atomic pa tr).openPass pa w.toNat slot := by
  simp only [planVbegin, hw, hp, h0, Bool.not_true, Bool.false_eq_true, if_false]
  exact withRecord_at (f := fun t => t.openPass pa w.toNat slot) hw (by simp) rfl hr (by simp only [hb])

theorem planVbegin_joins (hb : (s.vrec pa).begin w.toNat = .join) :
    planVbegin h a s = .ok fun c => c.atRecord .atomic pa tr := by
  simp only [planVbegin, hw, hp, h0, Bool.not_true, Bool.false_eq_true, if_false]
  exact withRecord_at (f := id) hw (by simp) rfl hr (by simp only [hb])

end

theorem planVwait_resumes {d h k pa : Nat} {a : Src} {b : Option Src} {w : Word} {q : Option DWord} {tr : Trail}
    (hw : s.sp.wait = some (.vwait k w q)) (hp : (s.handle h).reads = true) (hr : s.recordAt h .read pa tr)
    (hf : (decide (2 ≤ (s.vrec pa).st.st) || (s.vrec pa).qualifies (s.handle h).minimum w.toNat ||
      q.any fun c => decide (c ≤ s.gtime s.cur.group)) = true) :
    planVwait d h a b s = .ok fun c => (c.atRecord .read pa tr).writeUni (.v d) ((s.vrec pa).vsw
      (!(decide (2 ≤ (s.vrec pa).st.st) || (s.vrec pa).qualifies (s.handle h).minimum w.toNat)) false) := by
  simp only [planVwait, hw, hp, Bool.not_true, Bool.false_eq_true, if_false]
  refine withRecord_at (f := fun u => u.writeUni (.v d) _) hw (by simp) rfl hr ?_
  cases q with
  | none => exact if_pos hf
  | some c => exact if_pos hf

end

/-! ### Pending causes (R385, R389, R390) -/

section
variable {s : State} {g : Nat} {x : Split} {r : Report} {gr : Group}

theorem deliverTrap_empty {slot len : Nat} (ht : x.trap = some (r, slot, len)) (hl : (s.group g).log = []) :
    s.deliverTrap g x = s.deliver g x.num r slot len := by
  simp only [State.deliverTrap, ht, hl, if_true]

theorem deliverTrap_waits {slot len : Nat} (ht : x.trap = some (r, slot, len)) (hl : (s.group g).log ≠ []) :
    s.deliverTrap g x = s := by
  simp only [State.deliverTrap, ht, hl, if_false]

theorem deliverAsync_empty {len : Nat} (ha : (s.group g).asyncCause x.mask = some (r, gr)) (hl : gr.log = []) :
    s.deliverAsync g x len = (s.setGroup g gr).deliver g x.num r x.pc len := by
  simp only [State.deliverAsync, ha, hl, if_true]

theorem asyncDue_of_cause (hw : x.wait = none) (ha : (s.group g).asyncCause x.mask = some (r, gr)) :
    (s.group g).asyncDue x = true := by
  simp only [Group.asyncDue, hw, ha, Option.isNone_none, Option.isSome_some, Bool.and_self]

section
variable {sp : Nat} (hx : (s.group g).split? sp = some x) (hm : s.mayIssue g = true)
include hx hm

theorem execTrapDelivery_delivers : exec (.trapDelivery g sp) s = .next (s.deliverTrap g x) := by
  refine congrArg Host.Outcome.next ?_
  simp only [hx, hm, if_true]

theorem execLateCauseDelivery_delivers (hf : x.fetchFault = false) (ht : x.trap = none)
    (hd : (s.group g).asyncDue x = true) :
    exec (.lateCauseDelivery g sp) s = .next (s.deliverAsync g x (s.look g x).len) := by
  refine congrArg Host.Outcome.next ?_
  simp only [hx, hm, hf, ht, hd, Bool.not_false, Option.isNone_none, Bool.and_self, if_true]

end

theorem asyncCause_overrun {why : Nat} (h : gr.overrun = some why) (m : Word) :
    gr.asyncCause m = some (unitReport .overrun why m 0, { gr with overrun := none }) := by
  simp only [Group.asyncCause, h]

/-- Of some late causes, the first is the earliest. -/
theorem firstLate_least {ls : List Late} : ∀ l ∈ ls, ∃ l', firstLate ls = some l' ∧ l' ∈ ls ∧ l'.order ≤ l.order := by
  induction ls with
  | nil => exact fun _ h => nomatch h
  | cons z r ih =>
    simp only [firstLate]
    cases hk : firstLate r with
    | none =>
      intro l hl
      rcases List.mem_cons.mp hl with rfl | hr
      · exact ⟨l, rfl, .head _, le_rfl⟩
      · obtain ⟨l', h', -⟩ := ih l hr
        rw [hk] at h'
        cases h'
    | some k =>
      have hle : ∀ l ∈ r, k ∈ r ∧ k.order ≤ l.order := fun l hl => by
        obtain ⟨l', h', hm, ho⟩ := ih l hl
        rw [hk] at h'
        cases h'
        exact ⟨hm, ho⟩
      have hkr : k ∈ r := by
        cases r with
        | nil => cases hk
        | cons y _ => exact (hle y (.head _)).1
      intro l hl
      simp only
      split
      · next hb =>
        refine ⟨k, rfl, .tail _ hkr, ?_⟩
        rcases List.mem_cons.mp hl with rfl | hr
        · omega
        · exact (hle l hr).2
      · next hb =>
        refine ⟨z, rfl, .head _, ?_⟩
        rcases List.mem_cons.mp hl with rfl | hr
        · exact le_rfl
        · have := (hle l hr).2
          omega

theorem asyncCause_late (ho : gr.overrun = none) (m : Word) : ∀ l ∈ gr.lates, ∃ l' y,
    gr.asyncCause m = some (l'.report, y) ∧ l' ∈ gr.lates ∧ l'.order ≤ l.order := by
  intro l hl
  obtain ⟨l', h', hm, hle⟩ := firstLate_least l hl
  exact ⟨l', _, by simp only [Group.asyncCause, ho, h']; rfl, hm, hle⟩

end

/-! ### Slow-path results (R177, R180, R214) -/

section
variable {s : State} {g k n : Nat} {sl : SlowResult}

/-- A commit of one register into a bank that has room for it, with no allocation before it. -/
theorem commitStop_fits {gr : Group} (hu : s.slotsUsed (s.coreOf g) + 4 ≤ bankSlots)
    (hr : (s.core (s.coreOf g)).requester = none) (n : Nat) : s.commitStop g gr [.v n] = none := by
  have hs := vreg_slots_le (gr.v n)
  have hn : s.commitNeed g gr [.v n] = none := by
    simp only [State.commitNeed]
    split
    · exact if_pos (.inr ((Nat.add_le_add_left hs _).trans hu))
    · rfl
  simp only [State.commitStop, afterAsker_none hr, hn, Bool.and_false, Bool.false_eq_true, if_false, Option.map_none]

theorem slowCommit_v {gr : Group} (hf : gr.slow.find? (fun y => y.1 == k) = some (k, sl)) (hd : sl.dest = .v n) :
    gr.slowCommit k = { gr with
      slow := gr.slow.del k, flags := gr.flags ||| sl.flags, vregs := gr.vregs.set n sl.reg } := by
  simp only [Group.slowCommit, hf, hd]

theorem slowDone_v (hl : (s.group g).live = true) (hu : s.slotsUsed (s.coreOf g) + 4 ≤ bankSlots)
    (hr : (s.core (s.coreOf g)).requester = none)
    (hf : (s.group g).slow.find? (fun y => y.1 == k) = some (k, sl)) (hd : sl.dest = .v n) :
    s.slowDone g k = s.setGroup g ((s.group g).slowCommit k) := by
  simp only [State.slowDone, hl, hf, hd, Option.map_some, Option.toList_some, commitStop_fits hu hr, served_none hr,
    if_true]

end

end Sys2Proof.Machine

open Sys2Proof Sys2Proof.Machine

/-- Settles O47: a wake issues the waiting unit on what it read as it issued, where its plan answers the change stated. -/
theorem wakesAndDeliveries : Obligations.WakesAndDeliveries := by
  intro s g sp k n h d slot len pa x a b rel all u e tr tr' w p m q r gr sl t v z y finis late now hx
  refine ⟨fun hm hr hl => ⟨?_, ?_, ?_, ?_, ?_, ?_, ?_, ?_⟩, wakes_idle hx,
    fun hm ht hlog => ?_, fun hm ht hlog => ?_, fun hm hf ht hw ha hlog => ?_,
    fun why ho => ⟨_, asyncCause_overrun ho _⟩, fun l hl ho => asyncCause_late ho _ l hl, fun hl hu hr hf hd => ?_⟩
  · intro hw hu hc ha hb hf
    obtain ⟨-, hz⟩ := resumed_sees hx hc
    exact wake_resumes hx hm hr hl (by rw [hw]; rfl) hu hc ha (planCwait_resumes (hz.trans hw) hb hf)
  · intro hw hu hc ha ht hlc hcl hp
    obtain ⟨hg, hz⟩ := resumed_sees hx hc
    exact wake_resumes hx hm hr hl (by rw [hw]; rfl) hu hc ha
      (planBarw_resumes (hz.trans hw) (by rw [hg]; exact ht) hlc hcl hp)
  · intro hw hu hc ha ht
    obtain ⟨hg, hz⟩ := resumed_sees hx hc
    exact wake_resumes hx hm hr hl (by rw [hw]; rfl) hu hc ha (planTsync_resumes (hz.trans hw) (by rw [hg]; exact ht))
  · intro hw hu hc ha he
    obtain ⟨hg, hz⟩ := resumed_sees hx hc
    exact wake_resumes hx hm hr hl (by rw [hw]; rfl) hu hc ha (planJoin_resumes hg (hz.trans hw) he)
  · intro hw hu hc ha ht
    obtain ⟨hg, hz⟩ := resumed_sees hx hc
    exact wake_resumes hx hm hr hl (by rw [hw]; rfl) hu hc ha (planTwait_resumes (hz.trans hw) (by rw [hg]; exact ht))
  · intro hw hu hc ha he hj hf
    obtain ⟨hg, -⟩ := resumed_sees hx hc
    exact wake_resumes hx hm hr hl (by rw [hw]; rfl) hu hc ha (planExit_resumes he (by rw [hg]; exact hj) hf)
  · intro hw hu hc ha hp h0 hrec
    obtain ⟨-, hz⟩ := resumed_sees hx hc
    exact ⟨fun hb => wake_resumes hx hm hr hl (by rw [hw]; rfl) hu hc ha (planVbegin_opens (hz.trans hw) hp h0 hrec hb),
      fun hb => wake_resumes hx hm hr hl (by rw [hw]; rfl) hu hc ha (planVbegin_joins (hz.trans hw) hp h0 hrec hb)⟩
  · intro hw hu hc ha hp hrec hf
    obtain ⟨hg, hz⟩ := resumed_sees hx hc
    exact wake_resumes hx hm hr hl (by rw [hw]; rfl) hu hc ha
      (planVwait_resumes (hz.trans hw) hp hrec (by rw [hg]; exact hf))
  · rw [execTrapDelivery_delivers hx hm, deliverTrap_empty ht hlog]
  · rw [execTrapDelivery_delivers hx hm, deliverTrap_waits ht hlog]
  · rw [execLateCauseDelivery_delivers hx hm hf ht (asyncDue_of_cause hw ha), deliverAsync_empty ha hlog]
  · refine ⟨_, congrArg Host.Outcome.next (slowDone_v hl hu hr hf hd), ?_, ?_, fun m hm => ?_, ?_⟩ <;>
      simp only [State.group_setGroup, if_true, slowCommit_v hf hd]
    · exact tbl_get_set_same _ _ _ _
    · exact tbl_get_set_other _ _ _ hm

end

section
/-! SUPPORT. Loads and stores at issue (R91, R118 to R125, R127, R129): where every lane reaches its bytes, an access starts. -/

namespace Sys2Proof.Machine

open Sys2Proof

/-! ### Lanes that all reach their bytes -/

section
variable {rs : List (Nat × LaneRes)} (h : ∀ r ∈ rs, r.2.good = true)
include h

theorem good_ok {r : Nat × LaneRes} (hr : r ∈ rs) : ∃ t, r.2 = .ok t := by
  have hg := h r hr
  cases hq : r.2 <;> rw [hq] at hg
  case ok t => exact ⟨t, rfl⟩
  all_goals cases hg

theorem winningCause_good : winningCause rs = none := by
  have hn : (rs.filterMap fun r => match r.2 with
      | .bad c _ => some (true, c)
      | _ => none) = [] := List.filterMap_eq_nil_iff.mpr fun r hr => by
    obtain ⟨t, ht⟩ := good_ok h hr
    rw [ht]
  exact congrArg worstOf hn

theorem checkedPa_good : checkedPa rs = none := List.findSome?_eq_none_iff.mpr fun r hr => by
  obtain ⟨t, ht⟩ := good_ok h hr
  rw [ht]

theorem away_good : (rs.any fun r => decide (r.2 = .away)) = false := List.any_eq_false.mpr fun r hr => by
  obtain ⟨t, ht⟩ := good_ok h hr
  simp [ht]

theorem faultLanes_good : faultLanes rs = 0 := List.foldlRecOn (motive := fun m => m = 0) _ _ rfl fun m hm r hr => by
  obtain ⟨t, ht⟩ := good_ok h hr
  simp only [ht, hm]

end

section
variable {s : State} {q : Req} {i : Instr} {d : Dst}

/-- An access that nothing stops starts. -/
theorem access_admitted (h : s.admits q = true) : s.access q = .ok (s.started q) := by
  simp only [State.admits, Bool.and_eq_true, Bool.not_eq_true', List.all_eq_true] at h
  obtain ⟨⟨⟨hg, hc⟩, hh⟩, hw⟩ := h
  have hr : (q.lanes s.mask).map (fun i => (i, s.checkLane s.cur.group (q.want i) s.priv s.choice)) = s.reach q := rfl
  have hheld : (q.held.isSome && !s.heldRoom (s.reach q)) = false := by
    rw [Bool.or_eq_true, Option.isNone_iff_eq_none] at hh
    rcases hh with hh | hh <;> simp [hh]
  simp only [State.access, hr, winningCause_good hg, checkedPa_good hg, hc, away_good hg, hheld, hw, faultLanes_good hg,
    Bool.not_true, Bool.or_self, Bool.false_eq_true, if_false, ne_eq, not_true_eq_false, false_and, if_true]
  rfl

/-- An instruction whose plan is an access completes by starting it. -/
theorem accesses_of_plan (he : exec i s = issue i (planOf i) s) (hp : planOf i s = s.access q) : Accesses s i q :=
  fun h hc ha => he.trans (issue_done rfl (hp.trans (access_admitted h)) hc ha)

theorem accessTo_vector (hd : d.isK = false) : s.accessTo d q = s.access q := if_neg (by simp [hd])

theorem accessTo_k (hd : d.isK = true) (hu : q.uni = false) : s.accessTo d q = s.stop .shapeMismatch :=
  if_pos (by simp [hd, hu])

end

/-! ### Held accesses (R125, R127) -/

section
variable {s : State} {fm : AForm} {w : Width} {rel : Bool} {a t : Src}

theorem planLdNb_held {d : Dst} {v : DWord} (hd : d.isK = false) (ht : s.holdTime rel t = some v) :
    planLdNb fm w rel d a t s = s.access { s.loadReq fm w d ⟨a, 0⟩ with held := some v } := by
  simp only [planLdNb, hd, ht, Bool.false_eq_true, if_false]
  rfl

theorem planLdNb_beyond {d : Dst} (hd : d.isK = false) (ht : s.holdTime rel t = none) :
    planLdNb fm w rel d a t s = s.stop .timeHorizon := by
  simp only [planLdNb, hd, ht, Bool.false_eq_true, if_false]

theorem planStVa_held {x : Nat} {v : DWord} (ht : s.holdTime rel t = some v) :
    planStVa fm w rel x a t s = s.access { s.storeReq fm w (s.regData x w) ⟨a, 0⟩ with held := some v } := by
  rw [planStVa_eq]
  simp only [ht]
  rfl

theorem planStVa_beyond {x : Nat} (ht : s.holdTime rel t = none) : planStVa fm w rel x a t s = s.stop .timeHorizon := by
  rw [planStVa_eq]
  simp only [ht]

end

end Sys2Proof.Machine

open Sys2Proof Sys2Proof.Machine

/-- Settles O22: each form's plan is the access of its request, but for a k register's shape and a time beyond the horizon. -/
theorem loadsAndStores : Obligations.LoadsAndStores := by
  intro s w d x a t y off fm rel sc v
  refine ⟨fun hd => ⟨accesses_of_plan rfl (accessTo_vector hd), accesses_of_plan rfl (accessTo_vector hd),
      accesses_of_plan rfl (accessTo_vector hd), fun ht => accesses_of_plan rfl (planLdNb_held hd ht),
      accesses_of_plan rfl (accessTo_vector hd)⟩,
    accesses_of_plan rfl rfl, fun hd ht hc => issue_raises rfl rfl (planLdNb_beyond hd ht) hc,
    fun hd hc => issue_raises rfl rfl (if_pos hd) hc, fun hd hc => issue_raises rfl rfl (accessTo_k hd rfl) hc,
    accesses_of_plan rfl rfl, accesses_of_plan rfl rfl, accesses_of_plan rfl rfl,
    fun ht => accesses_of_plan rfl (planStVa_held ht), accesses_of_plan rfl rfl,
    fun ht hc => issue_raises rfl rfl (planStVa_beyond ht) hc⟩

end

section
/-! SUPPORT. An access as it starts (R78, R91, R276, R280): what the trails of its translations touch, the destinations that
it reserves, and the access that stands in flight. -/

namespace Sys2Proof.Machine

open Sys2Proof

/-! ### Tables and accesses in flight -/

theorem tbl_find?_set {α : Type} (t : Tbl α) (k j : Nat) (a : α) : (t.set k a).find? (fun e => e.1 == j) =
    if j = k then some (k, a) else t.find? fun e => e.1 == j := by
  induction t with
  | nil =>
    by_cases h : j = k
    · simp [Tbl.set, h]
    · simp [Tbl.set, h, Ne.symm h]
  | cons e r ih =>
    simp only [Tbl.set]
    split
    · next he =>
      by_cases h : j = k
      · simp [h]
      · simp [he, h, Ne.symm h]
    · next he =>
      by_cases h : e.1 = j
      · have hj : ¬ j = k := fun hk => he (h.trans hk)
        rw [if_neg hj, List.find?_cons_of_pos (by simpa using h), List.find?_cons_of_pos (by simpa using h)]
      · rw [List.find?_cons_of_neg (by simpa using h), ih, List.find?_cons_of_neg (by simpa using h)]

theorem access?_set (x : Group) (l : Tbl Access) (k j : Nat) (a : Access) :
    ({ x with inflight := l.set k a } : Group).access? j =
      if j = k then some a else ({ x with inflight := l } : Group).access? j := by
  simp only [Group.access?, tbl_find?_set]
  split <;> rfl

/-! ### What translations leave (R78) -/

/-- States that differ in the caches, memory, replicas and reservations alone. -/
def Walks (s t : State) : Prop :=
  t = { s with cache := t.cache, mem := t.mem, replicas := t.replicas, fronts := t.fronts }

theorem Walks.refl (s : State) : Walks s s := rfl

theorem Walks.trans {s t u : State} (h : Walks s t) (k : Walks t u) : Walks s u := by
  rw [Walks] at h k ⊢
  rw [k, h]

theorem Walks.rest {s t : State} (h : Walks s t) : t.groups = s.groups ∧ t.teams = s.teams ∧ t.ctxs = s.ctxs ∧
    t.fns = s.fns ∧ t.launches = s.launches := by
  have hf : ∀ {α : Type} (f : State → α), f t =
      f { s with cache := t.cache, mem := t.mem, replicas := t.replicas, fronts := t.fronts } := fun f => congrArg f h
  exact ⟨hf State.groups, hf State.teams, hf State.ctxs, hf State.fns, hf State.launches⟩

theorem leave_walks (s : State) (tr : Trail) : Walks s (s.leave tr) := rfl

/-- The marks of a trail change the bytes of the entries that they name alone. -/
theorem marks_get {m : List Host.Cell} (ms : List (Nat × Nat)) {x : Nat} (h : ∀ y ∈ ms, x ≠ y.1 + 7)
    (w : Memory.wf m = true) : Memory.wf (ms.foldl (fun m x => markEntry m x.1 x.2) m) = true ∧
      Memory.get (ms.foldl (fun m x => markEntry m x.1 x.2) m) x = Memory.get m x :=
  List.foldlRecOn (motive := fun k => Memory.wf k = true ∧ Memory.get k x = Memory.get m x) _ _ ⟨w, rfl⟩
    fun k hk y hy => by
      obtain ⟨hw, hg⟩ := hk
      exact ⟨Memory.set_wf _ _ hw, by rw [markEntry, Memory.get_set _ _ _ hw, if_neg (h y hy), hg]⟩

theorem marks_of_not {t : Target} {x : Nat} (h : x ∉ (LaneRes.ok t).marks) :
    ∀ y ∈ t.trail.walked.map (fun a => (a, 1)) ++ t.trail.marks, x ≠ y.1 + 7 := by
  intro y hy he
  refine h ?_
  simp only [LaneRes.marks, List.mem_map, List.mem_append] at hy ⊢
  rcases hy with ⟨z, hz, rfl⟩ | hy
  · exact ⟨z, .inl hz, he.symm⟩
  · exact ⟨y.1, .inr ⟨y, hy, rfl⟩, he.symm⟩

/-! ### Lanes that reach memory and scratchpads alone -/

section
variable {rs : List (Nat × LaneRes)} (h : ∀ r ∈ rs, r.2.plain = true)
include h

/-- What such a lane reaches: no line to fill, at least one piece, and every piece in memory or a scratchpad. -/
theorem plain_ok {r : Nat × LaneRes} (hr : r ∈ rs) : ∃ t, r.2 = .ok t ∧ t.fills = [] ∧ t.pieces ≠ [] ∧
    ∀ p ∈ t.pieces, (∃ pa, p.2.2 = .phys pa) ∨ ∃ u o, p.2.2 = .scr u o := by
  have hp := h r hr
  cases hq : r.2 <;> rw [hq] at hp
  case ok t =>
    simp only [LaneRes.plain, Bool.and_eq_true, List.isEmpty_iff, List.all_eq_true, Bool.not_eq_true',
      List.isEmpty_eq_false_iff] at hp
    obtain ⟨⟨hf, hn⟩, ha⟩ := hp
    refine ⟨t, rfl, hf, hn, fun p hm => ?_⟩
    have hl := ha p hm
    cases hc : p.2.2 <;> rw [hc] at hl
    case phys pa => exact .inl ⟨pa, rfl⟩
    case scr u o => exact .inr ⟨u, o, rfl⟩
    all_goals cases hl
  all_goals cases hp

theorem plain_good : ∀ r ∈ rs, r.2.good = true := fun r hr => by
  obtain ⟨t, ht, -⟩ := plain_ok h hr
  rw [ht]
  rfl

theorem windowPieces_plain : windowPieces rs = [] := List.flatMap_eq_nil_iff.mpr fun r hr => by
  obtain ⟨t, ht, -, -, hp⟩ := plain_ok h hr
  rw [ht]
  refine List.filterMap_eq_nil_iff.mpr fun p hm => ?_
  rcases hp p hm with ⟨pa, hl⟩ | ⟨u, o, hl⟩ <;> rw [hl]

/-- The lanes leave the marks of their trails alone. -/
theorem leaveLanes_plain (s : State) (w : Memory.wf s.mem = true) : Walks s (s.leaveLanes rs) ∧
    ∀ x, (∀ r ∈ rs, x ∉ r.2.marks) → Memory.get (s.leaveLanes rs).mem x = Memory.get s.mem x := by
  have hk : Walks s (s.leaveLanes rs) ∧ Memory.wf (s.leaveLanes rs).mem = true ∧
      ∀ x, (∀ r ∈ rs, x ∉ r.2.marks) → Memory.get (s.leaveLanes rs).mem x = Memory.get s.mem x := by
    refine List.foldlRecOn (motive := fun t => Walks s t ∧ Memory.wf t.mem = true ∧
      ∀ x, (∀ r ∈ rs, x ∉ r.2.marks) → Memory.get t.mem x = Memory.get s.mem x) _ _
      ⟨.refl s, w, fun _ _ => rfl⟩ fun t ht r hr => ?_
    obtain ⟨hs, hw, hg⟩ := ht
    obtain ⟨l, hl, hf, -⟩ := plain_ok h hr
    simp only [hl, hf, List.foldl_nil]
    refine ⟨hs.trans (leave_walks t l.trail), wf_foldl (fun m x hm => Memory.set_wf _ _ hm) hw _, fun x hx => ?_⟩
    have hx' : x ∉ (LaneRes.ok l).marks := hl ▸ hx r hr
    exact (marks_get (m := t.mem) _ (marks_of_not hx') hw).2.trans (hg x hx)
  exact ⟨hk.1, hk.2.2⟩

/-- The parts of such lanes are there, and none of them is performed as it starts. -/
theorem plain_parts (q : Req) : ∀ p ∈ rs.flatMap fun r => q.partsOf r.1 r.2,
    p.atOnce = false ∧ p.performed = false ∧ p.dropped = false := by
  intro p hp
  obtain ⟨r, hr, hp⟩ := List.mem_flatMap.mp hp
  obtain ⟨t, ht, -, -, hl⟩ := plain_ok h hr
  rw [ht] at hp
  obtain ⟨x, hx, rfl⟩ := List.mem_map.mp hp
  refine ⟨?_, rfl, rfl⟩
  rcases hl x hx with ⟨pa, he⟩ | ⟨u, o, he⟩ <;> simp only [Part.atOnce, partAt, he]

theorem plain_parts_ne (q : Req) (hn : rs ≠ []) : (rs.flatMap fun r => q.partsOf r.1 r.2) ≠ [] := by
  obtain ⟨r, hr⟩ := List.exists_mem_of_ne_nil _ hn
  obtain ⟨t, ht, -, hp, -⟩ := plain_ok h hr
  intro he
  have := List.flatMap_eq_nil_iff.mp he r hr
  rw [ht] at this
  exact hp (List.map_eq_nil_iff.mp this)

end

/-! ### The destinations (R91) -/

section
variable (g : Group) (d : Option Dst) (w : Width) (u : Bool)

/-- A reservation touches the v registers alone. -/
theorem reserve_only : g.reserve d w u = { g with vregs := (g.reserve d w u).vregs } := by
  unfold Group.reserve
  split
  · exact List.foldlRecOn (motive := fun k : Group => k = { g with vregs := k.vregs }) _ _ rfl fun k hk j _ => by
      rw [hk]
  · rfl

theorem reserve_v {n : Nat} (h : ∀ j, j < w.regs → d ≠ some (.v (n - j)) ∨ n < j) : (g.reserve d w u).v n = g.v n := by
  unfold Group.reserve
  split
  · next m =>
    refine List.foldlRecOn (motive := fun k : Group => k.v n = g.v n) _ _ rfl fun k hk j hj => ?_
    have hn : n ≠ m + j := by
      rintro rfl
      rcases h j (List.mem_range.mp hj) with hd | hl
      · exact hd (by rw [Nat.add_sub_cancel])
      · omega
    exact (tbl_get_set_other _ _ _ hn).trans hk
  · rfl

end

/-! ### The access in flight -/

section
variable {s : State} {g key : Nat} {a : Access}

theorem finish_open (ha : (s.group g).access? key = some a) (hf : a.finished = false) : s.finish g key = s := by
  simp only [State.finish, ha, hf, Bool.false_eq_true, if_false]

/-- An access without a part that is performed as it starts stays as it is. -/
theorem immediate_none (ha : (s.group g).access? key = some a) (hp : ∀ p ∈ a.parts, p.atOnce = false)
    (hf : a.finished = false) (priv use : Bool) : s.immediate g key priv use = s := by
  have hn : a.parts.filter Part.atOnce = [] := List.filter_eq_nil_iff.mpr fun p hm => by simp [hp p hm]
  simp only [State.immediate, ha, hn, List.map_nil, List.eraseDups_nil, List.foldl_nil]
  exact finish_open ha hf

theorem immediate_started (x : Group) (l : Tbl Access) (hp : ∀ p ∈ a.parts, p.atOnce = false) (hf : a.finished = false)
    (priv use : Bool) : (s.setGroup g { x with inflight := l.set key a }).immediate g key priv use =
      s.setGroup g { x with inflight := l.set key a } :=
  immediate_none (by rw [State.group_setGroup, if_pos rfl, access?_set, if_pos rfl]) hp hf priv use

end

/-- An access whose lanes reach memory and scratchpads alone: its destinations are reserved, and it stands in flight. -/
theorem startAccess_plain {s : State} {q : Req} {rs : List (Nat × LaneRes)} (h : ∀ r ∈ rs, r.2.plain = true) (hn : rs ≠ [])
    (hw : Walks s.chosen (s.chosen.leaveLanes rs)) (key slot : Nat) (m : Word) (priv use : Bool) : ∃ a u,
    (a.kind = q.kind ∧ a.dest = q.dest ∧ a.held = q.held ∧ a.acq = q.acq ∧ a.rel = q.rel ∧ a.mask = m ∧
      a.width = q.width ∧ a.slot = slot ∧ a.parts = rs.flatMap fun r => q.partsOf r.1 r.2) ∧
    s.startAccess q rs key slot m priv use none = (s.chosen.leaveLanes rs).setGroup s.cur.group
      { (s.group s.cur.group).reserve q.dest q.width u with
        inflight := (s.group s.cur.group).inflight.set key a } := by
  have hr : ∀ k, (s.chosen.leaveLanes rs).group k = s.group k := fun k => by rw [hw]; rfl
  have hf : ∀ a : Access, (a.parts = rs.flatMap fun r => q.partsOf r.1 r.2) → a.finished = false := fun a ha => by
    obtain ⟨p, hp⟩ := List.exists_mem_of_ne_nil _ (plain_parts_ne h q hn)
    obtain ⟨-, h1, h2⟩ := plain_parts h q p hp
    exact List.all_eq_false.mpr ⟨p, ha ▸ hp, by simp [h1, h2]⟩
  simp only [State.startAccess, windowPieces_plain h, faultLanes_good (plain_good h), List.isEmpty_nil, if_true, hr]
  exact ⟨_, _, ⟨rfl, rfl, rfl, rfl, rfl, rfl, rfl, rfl, rfl⟩,
    immediate_started _ _ (fun p hp => (plain_parts h q p hp).1) (hf _ rfl) priv use⟩

end Sys2Proof.Machine

open Sys2Proof Sys2Proof.Machine

/-- Settles O24: the translations leave their marks alone, the access reserves its destinations alone, and none of its parts
is performed as it starts. -/
theorem accessFrame : Obligations.AccessFrame := by
  intro s q m key slot priv use g t hp hn hm
  obtain ⟨hw, hg⟩ := leaveLanes_plain hp s.chosen (memOk_mem hm)
  obtain ⟨a, u, ⟨hk, hd, hh, haq, hrl, hma, hwd, hsl, hpt⟩, ht⟩ :=
    startAccess_plain hp hn hw key slot m priv use
  have ht : t = _ := ht
  obtain ⟨-, hteams, hctxs, hfns, hlaunches⟩ := hw.rest
  have hgr : ∀ k, t.group k = if k = g then { (s.group g).reserve q.dest q.width u with
      inflight := (s.group g).inflight.set key a } else s.group k := fun k => by
    rw [ht, State.group_setGroup, hw]
    rfl
  have hme := (hgr g).trans (if_pos rfl)
  rw [hme, reserve_only, ht]
  exact ⟨hg, hteams, hctxs, hfns, hlaunches, fun k hk => ht ▸ (hgr k).trans (if_neg hk),
    ⟨a, (access?_set _ _ _ _ _).trans (if_pos rfl), hk, hd, hh, haq, hrl, hma, hwd, hsl, hpt⟩,
    fun k hk => (access?_set _ _ _ _ _).trans (if_neg hk), fun k hk => reserve_v _ _ _ _ hk, fun k => ⟨rfl, rfl⟩, rfl, rfl,
    rfl⟩

end

section
/-! SUPPORT. A load that comes back as a whole (R92, R120, R123, R180): its parts as they are performed, the access as it is
retired, and the lanes of its destination. -/

namespace Sys2Proof.Machine

open Sys2Proof

/-! ### Lists with their places -/

section
variable {α β γ : Type}

theorem filterMap_getElem?_range (l : List α) : ((List.range l.length).filterMap fun i => l[i]?) = l := by
  induction l with
  | nil => rfl
  | cons x r ih =>
    rw [List.length_cons, List.range_succ_eq_map, List.filterMap_cons_some (b := x) (by simp), List.filterMap_map]
    exact congrArg (x :: ·) (by simpa [Function.comp_def] using ih)

/-- A map of a list with its places that does not depend on the places. -/
theorem zipIdx_map_eq {l : List α} {f : α × Nat → β} {g : α → β} (h : ∀ x ∈ l.zipIdx, f x = g x.1) :
    l.zipIdx.map f = l.map g := by
  rw [List.map_congr_left h, ← Function.comp_def g Prod.fst, ← List.map_map, List.zipIdx_map_fst]

/-- A fold that keeps its state and collects a value for each element. -/
theorem foldl_collect {f : β × List γ → α → β × List γ} {g : α → γ} {b : β} {l : List α}
    (h : ∀ x ∈ l, ∀ c, f (b, c) x = (b, c ++ [g x])) (c : List γ) : l.foldl f (b, c) = (b, c ++ l.map g) := by
  induction l generalizing c with
  | nil => simp
  | cons x r ih =>
    rw [List.foldl_cons, h x (.head _), ih fun y hy => h y (.tail _ hy)]
    simp

end

/-! ### One part (R84, R92) -/

/-- A part once it has read its place. -/
def Part.loaded (s : State) (die : Nat) (p : Part) : Part := { p with performed := true, value := s.readLoc die p.loc p.size }

section
variable {s : State} (hr : s.replicas = []) (ho : s.oracle = [])
include hr ho

/-- A load's part reads its place, and changes nothing where there is no replica and none is placed. -/
theorem performPart_idle (who : Behind) {p : Part} {pa : Nat} (hp : p.loc = .phys pa) :
    s.performPart who .load p = (s, p.loaded s (s.dieOf who.group)) := by
  have hg : s.regionGone p.loc = false := by rw [hp]; rfl
  have hn : s.noteRead who p.loc = s := by
    simp only [State.noteRead, hr, List.map_nil]
    rw [← hr]
  have hc : s.chosen = s := by
    simp only [State.chosen, ho, List.drop_nil]
    rw [← ho]
  have hch : s.choice = false := by simp only [State.choice, ho, List.headD_nil]
  have hrep : s.replicate (s.dieOf who.group) p = s := by
    simp only [State.replicate, hp, hch, hc, Bool.false_and, Bool.false_eq_true, if_false, ite_self]
  simp only [State.performPart, hg, Bool.false_eq_true, if_false, hn, hrep]
  rfl

end

theorem readLoc_phys {s : State} (hr : s.replicas = []) (die pa n : Nat) :
    s.readLoc die (.phys pa) n = Memory.read s.mem pa n := by
  simp only [State.readLoc, hr, List.find?_nil]

/-! ### All parts of a load -/

section
variable {a : Access}

theorem closure_all (hk : a.kind = .load) (hp : ∀ p ∈ a.parts, p.performed = false ∧ p.dropped = false ∧ p.logged = false) :
    a.closure (List.range a.parts.length) = List.range a.parts.length := by
  have hf : (a.parts.zipIdx.filter fun p => (List.range a.parts.length).contains p.2 && p.1.open_ && !p.1.logged) =
      a.parts.zipIdx := List.filter_eq_self.mpr fun x hx => by
    obtain ⟨h1, h2, h3⟩ := hp _ (List.fst_mem_of_mem_zipIdx hx)
    have hlt : x.2 < a.parts.length := List.snd_lt_of_mem_zipIdx hx
    simp [Part.open_, h1, h2, h3, hlt]
  simp only [Access.closure, hk, hf]
  exact (List.zipIdx_map_snd 0 a.parts).trans List.range_eq_range'.symm

section
variable {s : State} {g acc : Nat} (ha : (s.group g).access? acc = some a) (hk : a.kind = .load) (he : a.ended = 0)
  (hr : s.replicas = []) (ho : s.oracle = []) (hl : ∀ p ∈ a.parts, ∃ pa, p.loc = .phys pa)
  (hd : ∀ p ∈ a.parts, p.dropped = false) (hf : s.failedIn .load a.parts = none)
include ha hk he hr ho hl hd hf

theorem performNow_all : s.performNow g acc (List.range a.parts.length) =
    s.putAccess g acc { a with parts := a.parts.map (Part.loaded s (s.dieOf g)) } := by
  have hin : ∀ x ∈ a.parts.zipIdx, (List.range a.parts.length).contains x.2 = true := fun x hx => by
    have hlt : x.2 < a.parts.length := List.snd_lt_of_mem_zipIdx hx
    simpa using hlt
  have hq : ∀ c, a.parts.zipIdx.foldl (fun (q : State × List Part) p =>
      if (List.range a.parts.length).contains p.2 then
        ((q.1.performPart (a.behind g acc) .load p.1).1, q.2 ++ [(q.1.performPart (a.behind g acc) .load p.1).2])
      else (q.1, q.2 ++ [p.1])) (s, c) = (s, c ++ a.parts.map (Part.loaded s (s.dieOf g))) := fun c => by
    rw [foldl_collect (g := fun x => Part.loaded s (s.dieOf g) x.1), zipIdx_map_eq fun _ _ => rfl]
    intro x hx c
    obtain ⟨pa, hp⟩ := hl _ (List.fst_mem_of_mem_zipIdx hx)
    rw [if_pos (hin x hx), performPart_idle hr ho _ hp]
    rfl
  have hmet : (a.parts.map (Part.loaded s (s.dieOf g))).zipIdx.foldl (fun (m : Word) p =>
      if (List.range a.parts.length).contains p.2 && p.1.dropped then m ||| ((1 : Word) <<< p.1.lane) else m) 0 = 0 :=
    foldl_kept fun x hx => by
      obtain ⟨p, hp, hx⟩ := List.mem_map.mp (List.fst_mem_of_mem_zipIdx hx)
      have hdr : x.1.dropped = false := hx ▸ hd p hp
      simp [hdr]
  simp only [State.performNow, ha, filterMap_getElem?_range, hk, hf, reduceCtorEq, if_false, hq, List.nil_append, hmet,
    he, word_or_zero]

end

end

/-! ### Coming back -/

theorem tbl_set_set {α : Type} (t : Tbl α) (k : Nat) (a b : α) : (t.set k a).set k b = t.set k b := by
  induction t with
  | nil => simp [Tbl.set]
  | cons e r ih =>
    simp only [Tbl.set]
    split
    · simp [Tbl.set]
    · next he => simp [Tbl.set, he, ih]

theorem setGroup_setGroup (s : State) (g : Nat) (x y : Group) : (s.setGroup g x).setGroup g y = s.setGroup g y := by
  simp only [State.setGroup, tbl_set_set]

theorem putAccess_putAccess (s : State) (g acc : Nat) (a b : Access) :
    (s.putAccess g acc a).putAccess g acc b = s.putAccess g acc b := by
  simp only [State.putAccess, State.group_setGroup, if_true, tbl_set_set, setGroup_setGroup]

theorem access?_putAccess (s : State) (g acc : Nat) (a : Access) :
    ((s.putAccess g acc a).group g).access? acc = some a := by
  rw [State.putAccess, State.group_setGroup, if_pos rfl, access?_set, if_pos rfl]

theorem noteEarly_early (s : State) (g acc : Nat) (a : Access) (es : List Scoped) (ls : List (Loc × Nat)) (c : Bool) :
    ∃ e, s.noteEarly g acc a es ls c = { s with early := e } := ⟨_, noteEarly_only s g acc a es ls c⟩

/-- A part that is performed and has come back. -/
def Part.returned (s : State) (die : Nat) (p : Part) : Part := { p.loaded s die with back := true }

/-- The access with all of its parts back. -/
def Access.returned (a : Access) (s : State) (die : Nat) : Access := { a with parts := a.parts.map (Part.returned s die) }

section
variable {s : State} {g acc : Nat} {a : Access} (ha : (s.group g).access? acc = some a) (hk : a.kind = .load)
  (hh : a.held = none) (he : a.ended = 0) (hr : s.replicas = []) (ho : s.oracle = [])
  (hl : ∀ p ∈ a.parts, ∃ pa, p.loc = .phys pa)
  (hp : ∀ p ∈ a.parts, p.performed = false ∧ p.dropped = false ∧ p.logged = false)
  (hm : s.mayPerform g acc a (List.range a.parts.length) = true) (hf : s.failedIn .load a.parts = none)
include ha hk hh he hr ho hl hp hm hf

/-- All parts are performed: what they overtake is noted, and each reads its place. -/
theorem performIn_all : ∃ e, s.performIn g acc a (List.range a.parts.length) =
    { s with early := e }.putAccess g acc { a with parts := a.parts.map (Part.loaded s (s.dieOf g)) } := by
  have hb : (a.free && s.mayPerform g acc a (List.range a.parts.length)) = true := by simp [Access.free, hh, hm]
  obtain ⟨e, hn⟩ := noteEarly_early s g acc a (if a.parts.isEmpty then [] else s.scopedBefore g acc a)
    (a.parts.map fun p => (p.loc, p.size)) false
  refine ⟨e, ?_⟩
  simp only [State.performIn, hb, if_true, filterMap_getElem?_range, hn]
  have ha : (({ s with early := e } : State).group g).access? acc = some a := ha
  have hu : ((List.range a.parts.length).filter fun i => (a.parts[i]?).any { s with early := e }.unfilled) = [] :=
    List.filter_eq_nil_iff.mpr fun i hi => by
      cases hpi : a.parts[i]? with
      | none => simp
      | some p =>
        obtain ⟨pa, hpa⟩ := hl p (List.mem_of_getElem? hpi)
        simp [State.unfilled, hpa]
  simp only [State.performParts, ha, hu, List.isEmpty_nil, if_true]
  exact performNow_all (s := { s with early := e }) ha hk he hr ho hl (fun p hm => (hp p hm).2.1) hf

/-- The whole load stands in flight with its parts back, before it is retired. -/
theorem loadReturn_all : ∃ e, s.loadReturn g acc (List.range a.parts.length) =
    ({ s with early := e }.putAccess g acc (a.returned s (s.dieOf g))).finish g acc := by
  obtain ⟨e, hq⟩ := performIn_all ha hk hh he hr ho hl hp hm hf
  refine ⟨e, ?_⟩
  have hb : (a.parts.map (Part.loaded s (s.dieOf g))).zipIdx.map (fun p =>
      if (List.range a.parts.length).contains p.2 && p.1.performed then { p.1 with back := true } else p.1) =
      a.parts.map (Part.returned s (s.dieOf g)) := by
    rw [zipIdx_map_eq (g := fun p => { p with back := true }), List.map_map]
    · rfl
    · intro x hx
      have hlt : x.2 < a.parts.length := by simpa using List.snd_lt_of_mem_zipIdx hx
      obtain ⟨p, -, hpx⟩ := List.mem_map.mp (List.fst_mem_of_mem_zipIdx hx)
      have hper : x.1.performed = true := by rw [← hpx]; rfl
      simp [hlt, hper]
  simp only [State.loadReturn, ha, hk, closure_all hk hp, hq, State.bringBack, access?_putAccess, hb, putAccess_putAccess,
    Access.returned]

end

/-! ### Retiring (R174, R180) -/

section
variable {s : State} {g acc n : Nat} {a : Access}

/-- A finished access whose destination finds room, and that met nothing late, is written and leaves. -/
theorem finish_retires (ha : (s.group g).access? acc = some a) (hf : a.finished = true)
    (hc : s.commitStop g ((s.group g).writeBack a) (a.dest.elim [] fun d => d.regs a.width.regs) = none)
    (he : a.ended = 0) (hl : a.late = 0) (hr : (s.core (s.coreOf g)).requester = none) :
    s.finish g acc = s.setGroup g { (s.group g).writeBack a with
      inflight := ((s.group g).writeBack a).inflight.del acc } := by
  simp only [State.finish, ha, hf, hc, he, hl, State.lateVis, served_none hr, if_true, ite_self]

theorem access?_del {x : Group} {l : Tbl Access} (h : x.inflight = l.del acc) : x.access? acc = none := by
  simp [Group.access?, h, Tbl.del, List.find?_eq_none]

/-- A load of one register into v registers writes the lanes that take part. -/
theorem writeBack_load (x : Group) (hd : a.dest = some (.v n)) (hu : a.uni = false) (hz : a.zeroMask = 0)
    (hw : a.width.regs = 1) (hp : ∀ p ∈ a.parts, p.dropped = false) : x.writeBack a = { x with
      vregs := x.vregs.set n (.general (mergeLanes a.mask (Lanes.ofFn fun i => a.width.word (a.valueOf i) 0)
        (x.v n).lanes) false) } := by
  have hl : a.lanes (fun p => p.dropped) = 0 := foldl_kept fun p hm => by simp [hp p hm]
  have hm : a.mask &&& ~~~(0 : Word) = a.mask := by
    rw [show ~~~(0 : Word) = BitVec.allOnes 32 from rfl, BitVec.and_allOnes]
  have h0 : ∀ i, laneIn 0 i = false := fun i => by simp [laneIn]
  simp only [Group.writeBack, hd, hu, hz, hw, hl, hm, h0, Bool.false_eq_true, if_false, List.range_one, List.foldl_cons,
    List.foldl_nil]
  rfl

end

/-! ### Slots in use -/

section
variable {α : Type} {t : Tbl α} {k : Nat}

theorem tbl_set_keys (h : k ∈ t.map (·.1)) (a : α) : (t.set k a).map (·.1) = t.map (·.1) := by
  induction t with
  | nil => cases h
  | cons e r ih =>
    simp only [Tbl.set]
    split
    · next he => simp [he]
    · next he =>
      have hk : k ∈ r.map (·.1) := by simpa [Ne.symm he] using h
      simp [ih hk]

theorem tbl_get_unlisted (h : k ∉ t.map (·.1)) (d : α) : t.get d k = d := by
  induction t with
  | nil => rfl
  | cons e r ih =>
    rw [List.map_cons, List.mem_cons, not_or] at h
    simp only [Tbl.get, if_neg (Ne.symm h.1), ih h.2]

end

section
variable {s : State} {g : Nat}

/-- A group with an access in flight is one that the state lists. -/
theorem group_listed {acc : Nat} {a : Access} (ha : (s.group g).access? acc = some a) : g ∈ s.groups.map (·.1) := by
  by_contra h
  rw [State.group, tbl_get_unlisted h] at ha
  cases ha

/-- The slots in use are those of the groups' v registers. -/
theorem slotsUsed_setGroup (h : g ∈ s.groups.map (·.1)) {x : Group} (hv : x.vregs = (s.group g).vregs)
    (hl : x.live = (s.group g).live) (hb : x.bank = (s.group g).bank) (c : Nat) :
    (s.setGroup g x).slotsUsed c = s.slotsUsed c := by
  have hk : ((s.setGroup g x).groups.map (·.1)) = s.groups.map (·.1) := tbl_set_keys h x
  have hg : ∀ n, ((s.setGroup g x).group n).live = (s.group n).live ∧
      ((s.setGroup g x).group n).bank = (s.group n).bank ∧
      ((s.setGroup g x).group n).slots = (s.group n).slots := fun n => by
    rw [State.group_setGroup]
    by_cases hn : n = g
    · subst hn
      simp only [if_true]
      exact ⟨hl, hb, by simp only [Group.slots, hv]⟩
    · simp only [if_neg hn, and_self]
  simp only [State.slotsUsed, State.bankGroups, State.liveGroups, hk, (hg _).1, (hg _).2.1, (hg _).2.2]
  rfl

end

/-! ### The value of a lane (R120) -/

/-- What a lane's value is put together from: each part's lane, its place in the lane, and its bytes. -/
def Access.pieces (a : Access) : List (Nat × Nat × Nat) := a.parts.map fun p => (p.lane, p.sub, p.value)

theorem valueOf_pieces (a : Access) (i : Nat) : a.valueOf i =
    (a.pieces.filter fun x => x.1 == i).foldl (fun v x => v + x.2.2 * 2 ^ (8 * x.2.1)) 0 := by
  rw [Access.pieces, List.filter_map, List.foldl_map]
  rfl

theorem lanesOf_nodup (m : Word) : (lanesOf m).Nodup := List.nodup_range.filter _

/-- Where each active lane has one part, from the first byte on, its value is that part's. -/
theorem valueOf_single {a : Access} {m : Word} {val : Nat → Nat} (h : a.pieces = (lanesOf m).map fun i => (i, 0, val i))
    {k : Nat} (hk : k ∈ lanesOf m) : a.valueOf k = val k := by
  have hf : ((lanesOf m).filter fun i => i == k) = [k] := by
    rw [List.filter_beq, List.count_eq_one_of_mem (lanesOf_nodup m) hk]
    rfl
  rw [valueOf_pieces, h, List.filter_map, Function.comp_def]
  simp [hf]

section
variable {s : State} {a : Access} {at_ : Nat → Nat} (hr : s.replicas = [])
  (hl : (a.parts.map fun p => (p.lane, p.sub, p.size, p.loc)) =
    (lanesOf a.mask).map fun i => (i, 0, a.width.bytes, Loc.phys (at_ i)))
include hl

theorem parts_phys : ∀ p ∈ a.parts, ∃ pa, p.loc = .phys pa := fun p hp => by
  have hm := List.mem_map_of_mem (f := fun p : Part => (p.lane, p.sub, p.size, p.loc)) hp
  rw [hl] at hm
  obtain ⟨i, -, he⟩ := List.mem_map.mp hm
  exact ⟨at_ i, (congrArg (fun x => x.2.2.2) he).symm⟩

include hr in
/-- The pieces of a load that is back are the bytes at its lanes' places. -/
theorem returned_pieces (die : Nat) : (a.returned s die).pieces =
    (lanesOf a.mask).map fun i => (i, 0, Memory.read s.mem (at_ i) a.width.bytes) := by
  have h := congrArg (List.map fun x : Nat × Nat × Nat × Loc => (x.1, x.2.1, s.readLoc die x.2.2.2 x.2.2.1)) hl
  simp only [List.map_map, Function.comp_def, readLoc_phys hr] at h
  rw [← h]
  simp only [Access.pieces, Access.returned, List.map_map]
  rfl

end

/-! ### The whole load -/

section
variable {s : State} {g acc n : Nat} {a : Access}

/-- A load that is back as a whole is written to the lanes that take part, and leaves. -/
theorem finish_returned (e : List Early) (hg : g ∈ s.groups.map (·.1)) (hd : a.dest = some (.v n)) (hu : a.uni = false)
    (hz : a.zeroMask = 0) (hw : a.width.regs = 1) (he : a.ended = 0) (hlate : a.late = 0)
    (hroom : s.slotsUsed (s.coreOf g) + 4 ≤ bankSlots) (hreq : (s.core (s.coreOf g)).requester = none)
    (hp : ∀ p ∈ a.parts, p.dropped = false ∧ p.logged = false) (die : Nat) :
    ({ s with early := e }.putAccess g acc (a.returned s die)).finish g acc =
      { s with early := e }.setGroup g { s.group g with
        vregs := (s.group g).vregs.set n (.general (mergeLanes a.mask
          (Lanes.ofFn fun i => a.width.word ((a.returned s die).valueOf i) 0) ((s.group g).v n).lanes) false)
        inflight := ((s.group g).inflight.set acc (a.returned s die)).del acc } := by
  let u := { s with early := e }.putAccess g acc (a.returned s die)
  have hback : ∀ p ∈ (a.returned s die).parts, p.performed = true ∧ p.back = true ∧ p.logged = false ∧
      p.dropped = false := List.forall_mem_map.mpr fun p hm => ⟨rfl, rfl, (hp p hm).2, (hp p hm).1⟩
  have hfin : (a.returned s die).finished = true := List.all_eq_true.mpr fun p hm => by
    obtain ⟨h1, h2, h3, h4⟩ := hback p hm
    simp [h1, h2, h3, h4]
  have hslots : u.slotsUsed (u.coreOf g) = s.slotsUsed (s.coreOf g) :=
    slotsUsed_setGroup (s := { s with early := e })
      (x := { s.group g with inflight := (s.group g).inflight.set acc (a.returned s die) }) hg rfl rfl rfl _
  have hstop : u.commitStop g ((u.group g).writeBack (a.returned s die))
      ((a.returned s die).dest.elim [] fun d => d.regs (a.returned s die).width.regs) = none := by
    rw [show (a.returned s die).dest = some (.v n) from hd, show (a.returned s die).width.regs = 1 from hw]
    exact commitStop_fits (s := u) (by rw [hslots]; exact hroom) hreq n
  have hwb := writeBack_load (a := a.returned s die) (n := n) (u.group g) hd hu hz hw fun p hm => (hback p hm).2.2.2
  rw [finish_retires (access?_putAccess _ _ _ _) hfin hstop he hlate hreq, hwb,
    show u.group g = { s.group g with inflight := (s.group g).inflight.set acc (a.returned s die) } from
      (State.group_setGroup _ _ _ _).trans (if_pos rfl)]
  exact setGroup_setGroup _ _ _ _

end

end Sys2Proof.Machine

open Sys2Proof Sys2Proof.Machine

/-- Settles O26: the load's parts read their places with nothing changed, come back together, and are written to the lanes
that take part. -/
theorem loadedLanes : Obligations.LoadedLanes := by
  intro s g acc n a at_ ids ha hk hh hu hz he hlate hd hw hr ho hroom hreq hl hp hm hf
  obtain ⟨e, hq⟩ := loadReturn_all ha hk hh he hr ho (parts_phys hl) hp hm hf
  have hfinish := finish_returned (acc := acc) e (group_listed ha) hd hu hz hw he hlate hroom hreq
    (fun p hm => (hp p hm).2) (s.dieOf g)
  refine ⟨_, congrArg Host.Outcome.next (hq.trans hfinish), rfl, rfl, ?_, fun k hk32 => ?_, fun k hkn => ?_,
    fun k hkg => (State.group_setGroup _ _ _ _).trans (if_neg hkg)⟩
  all_goals rw [State.group_setGroup, if_pos rfl]
  · exact access?_del rfl
  · rw [Group.v, tbl_get_set_same, VReg.lanes, mergeLanes, lanes_get_ofFn _ hk32]
    split
    · next hin =>
      have hmem : k ∈ lanesOf a.mask := List.mem_filter.mpr ⟨List.mem_range.mpr hk32, hin⟩
      rw [lanes_get_ofFn _ hk32, valueOf_single (returned_pieces hr hl _) hmem]
    · rfl
  · exact tbl_get_set_other _ _ _ hkn

end

section
/-! SUPPORT. Atomics, anchored sums and prefetch (R117, R132, R133, R135): the results of the atomic operations, and
what the plans answer. -/

namespace Sys2Proof.Machine

open Sys2Proof

/-! ### Results of the atomic operations (R133) -/

section
variable (old v w : Word)

theorem atomNew_mins : (atomNew .mins old v w).toInt = min old.toInt v.toInt :=
  (apply_ite BitVec.toInt _ _ _).trans (min_def _ _).symm

theorem atomNew_maxs : (atomNew .maxs old v w).toInt = max old.toInt v.toInt :=
  (apply_ite BitVec.toInt _ _ _).trans (max_def _ _).symm

theorem atomNew_minu : (atomNew .minu old v w).toNat = min old.toNat v.toNat :=
  (apply_ite BitVec.toNat _ _ _).trans (min_def _ _).symm

theorem atomNew_maxu : (atomNew .maxu old v w).toNat = max old.toNat v.toNat :=
  (apply_ite BitVec.toNat _ _ _).trans (max_def _ _).symm

end

/-! ### Anchored sums and prefetch (R117, R132) -/

section
variable {s : State} {a x : Src}

/-- The request of an anchored sum: the addends as integers modulo 2^128 at the lanes' addresses. -/
def State.asumReq (s : State) (a x : Src) (anchor : Int) : Req :=
  { s.storeReq .gen .w128 (fun i => (anchored anchor ((s.rd2 a x).vals.get i)).1) ⟨a, 0⟩ with
    kind := .asum, family := false }

theorem planAsum_starts {anchor : Int} (h : s.admits (s.asumReq a x anchor) = true) : planAsum a x anchor s =
    .ok fun t => ((s.started (s.asumReq a x anchor) t).orFlags
      (if (lanesOf s.mask).any fun i => (anchored anchor ((s.rd2 a x).vals.get i)).2.1 then flNV else 0)).modG fun g =>
        { g with gstat := if (lanesOf s.mask).any fun i => (anchored anchor ((s.rd2 a x).vals.get i)).2.2 then g.gstat ||| 4
          else g.gstat } := by
  have ha := access_admitted h
  simp only [State.asumReq] at ha
  simp only [planAsum, Off.imm, ha]
  rfl

theorem planPfet_brings {off : Int} (h : checkedPa ((lanesOf s.mask).map fun i =>
      (i, s.prefetchLane s.cur.group i (s.addrOf .gen ⟨a, off⟩ 4 i) s.priv s.choice)) = none) : planPfet a off s =
    .ok fun t => ((lanesOf s.mask).map fun i =>
      (i, s.prefetchLane s.cur.group i (s.addrOf .gen ⟨a, off⟩ 4 i) s.priv s.choice)).foldl
        (fun t r => t.prefetch s.cur.group r.2 s.priv s.choice) t.chosen := by
  simp only [planPfet, Off.imm, h]

end

end Sys2Proof.Machine

open Sys2Proof Sys2Proof.Machine

/-- Settles O23: each plan is the access of its request, with an anchored sum's flags, or the lanes' prefetches; the
operations' results are their definitions, a minimum and a maximum by the order that chooses them. -/
theorem atomics : Obligations.Atomics := by
  intro s op d a b x c anchor off old v w y z req n rs sum
  exact ⟨fun hd => ⟨accesses_of_plan rfl (accessTo_vector hd), accesses_of_plan rfl (accessTo_vector hd)⟩,
    fun h hc ha => issue_done rfl (planAsum_starts h) hc ha, fun h hc ha => issue_done rfl (planPfet_brings h) hc ha,
    rfl, rfl, rfl, rfl, rfl, atomNew_mins old v w, atomNew_maxs old v w, atomNew_minu old v w, atomNew_maxu old v w,
    fun h => if_pos h, fun h => if_neg h, rfl⟩

end

section
/-! SUPPORT. Performing a store, an atomic or a sum at its homes (R121, R133, R276, R280, R282): the bytes that its parts
hold, and what they leave there. -/

namespace Sys2Proof.Machine

open Sys2Proof

/-! ### States with the same bytes and the same other groups -/

/-- `t` has the bytes of `s`, and its groups but for group `g`. -/
structure SameBytes (g : Nat) (s t : State) : Prop where
  mem : t.mem = s.mem
  teams : t.teams = s.teams
  fns : t.fns = s.fns
  groups : ∀ n, n ≠ g → t.group n = s.group n

section
variable {g : Nat} {s t u : State}

theorem SameBytes.refl : SameBytes g s s := ⟨rfl, rfl, rfl, fun _ _ => rfl⟩

theorem SameBytes.trans (h : SameBytes g s t) (k : SameBytes g t u) : SameBytes g s u :=
  ⟨k.mem.trans h.mem, k.teams.trans h.teams, k.fns.trans h.fns, fun n hn => (k.groups n hn).trans (h.groups n hn)⟩

theorem SameBytes.memOk (h : SameBytes g s t) : t.memOk = s.memOk := memOk_congr h.mem h.teams h.fns

theorem sameBytes_setGroup (x : Group) : SameBytes g s (s.setGroup g x) :=
  ⟨rfl, rfl, rfl, fun _ hn => (State.group_setGroup _ _ _ _).trans (if_neg hn)⟩

theorem sameBytes_cores {cs : Tbl Core} : SameBytes g s { s with cores := cs } := ⟨rfl, rfl, rfl, fun _ _ => rfl⟩

theorem sameBytes_repair (ps : List Part) : SameBytes g s (s.repair ps) := ⟨rfl, rfl, rfl, fun _ _ => rfl⟩

theorem sameBytes_noteEarly (acc : Nat) (a : Access) (es : List Scoped) (ls : List (Loc × Nat)) (c : Bool) :
    SameBytes g s (s.noteEarly g acc a es ls c) := by
  rw [noteEarly_only]
  exact ⟨rfl, rfl, rfl, fun _ _ => rfl⟩

theorem sameBytes_lateVis (a : Access) : SameBytes g s (s.lateVis g a) := by
  simp only [State.lateVis]
  split
  · exact .refl
  · split <;> exact sameBytes_setGroup _

/-- An access that is retired, or that waits for room, changes its own group alone. -/
theorem sameBytes_finish (acc : Nat) : SameBytes g s (s.finish g acc) := by
  simp only [State.finish]
  split
  · exact .refl
  · split
    · split
      · rw [awaitRoom_only]
        exact sameBytes_cores
      · have h : ∀ x a, SameBytes g s ((s.setGroup g x).lateVis g a) := fun x a =>
          (sameBytes_setGroup x).trans (sameBytes_lateVis a)
        split
        · exact h _ _
        · rw [served_only]
          exact (h _ _).trans sameBytes_cores
    · exact .refl

end

/-! ### What some parts hold -/

/-- From `s` to `t` no byte of memory or of a scratchpad has changed but those that the parts hold, and no group but
`g`. -/
structure Stored (g : Nat) (ps : List Part) (s t : State) : Prop where
  memOk : t.memOk = true
  mem : ∀ x, (∀ p ∈ ps, p.hasPa x = false) → Memory.get t.mem x = Memory.get s.mem x
  scr : ∀ u x, (∀ p ∈ ps, p.hasScr u x = false) → Memory.get (t.team u).scratch x = Memory.get (s.team u).scratch x
  groups : ∀ n, n ≠ g → t.group n = s.group n

section
variable {g : Nat} {ps : List Part} {s t u : State}

theorem Stored.trans (h : Stored g ps s t) (k : Stored g ps t u) : Stored g ps s u :=
  ⟨k.memOk, fun x hx => (k.mem x hx).trans (h.mem x hx), fun v x hx => (k.scr v x hx).trans (h.scr v x hx),
    fun n hn => (k.groups n hn).trans (h.groups n hn)⟩

theorem SameBytes.stored (h : SameBytes g s t) (hm : s.memOk = true) : Stored g ps s t :=
  ⟨h.memOk.trans hm, fun _ _ => by rw [h.mem], fun _ _ _ => by rw [State.team, h.teams]; rfl, h.groups⟩

/-- Parts of a larger choice hold more. -/
theorem Stored.mono {qs : List Part} (h : Stored g ps s t) (hs : ps ⊆ qs) : Stored g qs s t :=
  ⟨h.memOk, fun x hx => h.mem x fun p hp => hx p (hs hp), fun u x hx => h.scr u x fun p hp => hx p (hs hp), h.groups⟩

end

/-! ### One part at its home (R84, R113, R133) -/

theorem writeScr_mem (s : State) (t o : Nat) (bs : List Byte) : (s.writeScr t o bs).mem = s.mem := by
  have h := congrArg State.mem (writeScr_only s t o bs).1
  exact h

section
variable {s : State} (h : s.memOk = true)
include h

/-- A write leaves every byte outside its place alone. -/
theorem writeLoc_stored (g : Nat) (who : Behind) (p : Part) (v : Nat) :
    Stored g [p] s (s.writeLoc who p.loc p.size v p.prop01) := by
  have hg : ∀ n, (s.writeLoc who p.loc p.size v p.prop01).group n = s.group n := fun n => by
    rw [State.group, writeLoc_groups]
    rfl
  refine ⟨memOk_writeLoc h _ _ _ _ _, fun x hx => ?_, fun u x hx => ?_, fun n _ => hg n⟩
  · have hp := hx p (.head _)
    cases hl : p.loc with
    | phys pa =>
      simp only [Part.hasPa, hl, Bool.and_eq_false_iff, decide_eq_false_iff_not] at hp
      exact Memory.get_write _ _ _ _ (memOk_mem h) (by omega)
    | scr t o => exact congrArg (Memory.get · x) (writeScr_mem s t o _)
    | _ => rfl
  · have hp := hx p (.head _)
    cases hl : p.loc with
    | scr t o =>
      simp only [Part.hasScr, hl, Bool.and_eq_false_iff, decide_eq_false_iff_not] at hp
      by_cases hu : u = t
      · subst hu
        exact (congrArg (Memory.get · x) (writeScr_scratch s u o _)).trans
          (Memory.get_write _ _ _ _ (memOk_scratch h u) (by omega))
      · exact congrArg (fun y : Team => Memory.get y.scratch x) ((writeScr_only s t o _).2 u hu)
    | _ => rfl

/-- A part that is performed leaves every byte outside its place alone. -/
theorem performPart_stored (g : Nat) (who : Behind) (k : AccKind) (p : Part) :
    Stored g [p] s (s.performPart who k p).1 := by
  simp only [State.performPart]
  split
  · exact SameBytes.refl.stored h
  · cases k with
    | load =>
      obtain ⟨hm, ht, hg⟩ := replicate_rest (s.noteRead who p.loc) (s.dieOf who.group) p
      exact ⟨by simp [h], fun _ _ => by rw [hm]; rfl, fun _ _ _ => by rw [State.team, ht]; rfl,
        fun _ _ => by rw [State.group, hg]; rfl⟩
    | pfet => exact SameBytes.refl.stored h
    | _ => exact writeLoc_stored h g who p _

/-- Parts that are performed one after the other. -/
theorem performAll_stored (g : Nat) (who : Behind) (k : AccKind) (ps : List Part) :
    Stored g ps s (ps.foldl (fun s p => (s.performPart who k p).1) s) := by
  induction ps generalizing s with
  | nil => exact SameBytes.refl.stored h
  | cons p r ih =>
    have hp := performPart_stored h g who k p
    exact (hp.mono (by simp)).trans ((ih hp.memOk).mono (List.subset_cons_self _ _))

end

/-- What a write leaves at its place in physical memory (R121, R133). -/
theorem performPart_phys {s : State} {k : AccKind} {p : Part} {pa : Nat} (hk : k.writes = true) (hp : p.loc = .phys pa)
    (who : Behind) : (s.performPart who k p).1.mem = Memory.put s.mem pa
      (bytesOf p.size (k.new (Memory.read s.mem pa p.size) p.data p.cmp % 2 ^ (8 * p.size))) := by
  simp only [State.performPart, hp]
  cases k with
  | load => cases hk
  | pfet => cases hk
  | _ => rfl

/-! ### The chosen parts of an access -/

/-- The parts of an access at some places of its list, as the places are named. -/
abbrev Access.named (a : Access) (ids : List Nat) : List Part := ids.filterMap fun i => a.parts[i]?

/-- The same parts in the list's order. -/
def Access.picked (a : Access) (ids : List Nat) : List Part :=
  (a.parts.zipIdx.filter fun p => ids.contains p.2).map (·.1)

theorem picked_subset (a : Access) (ids : List Nat) : a.picked ids ⊆ a.named ids := by
  intro p hp
  obtain ⟨x, hx, rfl⟩ := List.mem_map.mp hp
  obtain ⟨hm, hi⟩ := List.mem_filter.mp hx
  exact List.mem_filterMap.mpr ⟨x.2, by simpa using hi, List.mem_zipIdx_iff_getElem?.mp hm⟩

/-- A list's element of one place, by the numbers of its places. -/
theorem zipIdx_filter_place {α : Type} (l : List α) (k i : Nat) :
    (l.zipIdx k).filter (fun x => x.2 == k + i) = (l[i]?).toList.map fun x => (x, k + i) := by
  induction l generalizing k i with
  | nil => rfl
  | cons y r ih =>
    cases i with
    | zero =>
      have hr : (r.zipIdx (k + 1)).filter (fun x => x.2 == k + 0) = [] := List.filter_eq_nil_iff.mpr fun x hx => by
        have := List.le_snd_of_mem_zipIdx hx
        simp only [beq_iff_eq]
        omega
      rw [List.zipIdx_cons, List.filter_cons_of_pos (by simp), hr]
      rfl
    | succ i =>
      have hi := ih (k + 1) i
      rw [show k + 1 + i = k + (i + 1) from by omega] at hi
      rw [List.zipIdx_cons, List.filter_cons_of_neg (by simp), hi]
      rfl

theorem picked_one {a : Access} {i : Nat} {p : Part} (h : a.parts[i]? = some p) : a.picked [i] = [p] := by
  have hf := zipIdx_filter_place a.parts 0 i
  simp only [Nat.zero_add, h] at hf
  have hc : (fun x : Part × Nat => [i].contains x.2) = fun x => x.2 == i := funext fun x => by
    simp [beq_eq_decide]
  rw [Access.picked, hc, hf]
  rfl

/-- What the chosen parts of a list leave, where the others are passed over. -/
theorem foldl_chosen {α β γ : Type} (ids : List Nat) (f : β → α → β × γ) (e : α → γ) (l : List (α × Nat))
    (q : β × List γ) : (l.foldl (fun (q : β × List γ) x =>
      if ids.contains x.2 then ((f q.1 x.1).1, q.2 ++ [(f q.1 x.1).2]) else (q.1, q.2 ++ [e x.1])) q).1 =
    ((l.filter fun x => ids.contains x.2).map (·.1)).foldl (fun b x => (f b x).1) q.1 := by
  induction l generalizing q with
  | nil => rfl
  | cons x r ih =>
    rw [List.foldl_cons, ih]
    by_cases hx : ids.contains x.2 = true
    · rw [List.filter_cons_of_pos (p := fun x : α × Nat => ids.contains x.2) hx, if_pos hx]
      rfl
    · rw [List.filter_cons_of_neg (p := fun x : α × Nat => ids.contains x.2) hx, if_neg hx]

section
variable {s : State} {g acc : Nat} {a : Access} {ids : List Nat}

/-- The lines that a store's parts cover whole are good again before the parts are performed (R103). -/
def State.mended (s : State) (k : AccKind) (ps : List Part) : State := if k = .store then s.repair ps else s

/-- Parts that meet no failed line are performed one after the other, and the access goes back in flight. -/
theorem performNow_eq (ha : (s.group g).access? acc = some a)
    (hf : s.failedIn a.kind (a.named ids) = none) : ∃ a', s.performNow g acc ids =
      ((a.picked ids).foldl (fun s p => (s.performPart (a.behind g acc) a.kind p).1)
        (s.mended a.kind (a.named ids))).putAccess g acc a' := by
  have hq := foldl_chosen ids (fun s p => State.performPart s (a.behind g acc) a.kind p) (fun p => p) a.parts.zipIdx
    (s.mended a.kind (a.named ids), [])
  simp only [State.mended] at hq ⊢
  simp only [State.performNow, ha, hf, hq]
  exact ⟨_, rfl⟩

theorem sameBytes_mended (k : AccKind) (ps : List Part) : SameBytes g s (s.mended k ps) := by
  unfold State.mended
  split
  · exact sameBytes_repair ps
  · exact .refl

theorem performNow_stored (h : s.memOk = true) (ha : (s.group g).access? acc = some a)
    (hf : s.failedIn a.kind (a.named ids) = none) :
    Stored g (a.named ids) s (s.performNow g acc ids) := by
  obtain ⟨a', hq⟩ := performNow_eq ha hf
  have hr : Stored g (a.named ids) s
      (s.mended a.kind (a.named ids)) := (sameBytes_mended _ _).stored h
  have hp := (performAll_stored hr.memOk g (a.behind g acc) a.kind (a.picked ids)).mono (picked_subset a ids)
  rw [hq]
  exact (hr.trans hp).trans ((sameBytes_setGroup _).stored hp.memOk)

/-- A write to physical memory that is performed alone leaves its value at its place. -/
theorem performNow_phys {i pa : Nat} {p : Part} (h : s.memOk = true) (ha : (s.group g).access? acc = some a)
    (hk : a.kind.writes = true) (hi : a.parts[i]? = some p) (hp : p.loc = .phys pa)
    (hf : s.failedIn a.kind [p] = none) : Memory.read (s.performNow g acc [i]).mem pa p.size =
      a.kind.new (Memory.read s.mem pa p.size) p.data p.cmp % 2 ^ (8 * p.size) := by
  have hn : a.named [i] = [p] := by rw [Access.named, List.filterMap_cons_some hi]; rfl
  obtain ⟨a', hq⟩ := performNow_eq ha (ids := [i]) (by rw [hn]; exact hf)
  have hr := sameBytes_mended (s := s) (g := g) a.kind [p]
  have hmem : (s.performNow g acc [i]).mem = Memory.put s.mem pa (bytesOf p.size
      (a.kind.new (Memory.read s.mem pa p.size) p.data p.cmp % 2 ^ (8 * p.size))) := by
    rw [hq, picked_one hi, hn, ← hr.mem]
    exact performPart_phys hk hp _
  rw [hmem, Memory.read_put_bytesOf _ _ _ (memOk_mem h), show (256 : Nat) = 2 ^ 8 from rfl, ← Nat.pow_mul,
    Nat.mod_mod]

end

/-! ### Parts that meet an INVALID line (R113) -/

/-- A part's place in physical memory. -/
def Part.physPlace? (p : Part) : Option (Nat × Nat) :=
  match p.loc with
  | .phys pa => some (pa, p.size)
  | _ => none

/-- The first of some places whose line has failed and is not covered whole by a store (R102, R103). -/
def State.failedAt (s : State) (k : AccKind) (pas : List (Nat × Nat)) : Option Nat :=
  let covers := fun (line : Nat) =>
    decide (k = .store) && (List.range 128).all fun i =>
      pas.any fun x => decide (x.1 ≤ line * 128 + i) && decide (line * 128 + i < x.1 + x.2)
  (pas.find? fun x => s.failed (x.1 / 128) && !covers (x.1 / 128)).map (·.1)

/-- The failed line that some parts meet depends on their places in physical memory alone. -/
theorem failedIn_places (s : State) (k : AccKind) (ps : List Part) :
    s.failedIn k ps = s.failedAt k (ps.filterMap Part.physPlace?) := rfl

section
variable {s : State} {g acc : Nat} {a : Access}

theorem unfilled_phys {p : Part} {pa : Nat} (h : p.loc = .phys pa) : s.unfilled p = false := by
  simp only [State.unfilled, h]

/-- A part that meets an INVALID line lies in a scratchpad. -/
theorem unfilled_place {p : Part} (h : s.unfilled p = true) : p.physPlace? = none := by
  cases hl : p.loc with
  | phys pa => rw [unfilled_phys hl] at h; cases h
  | _ => simp only [Part.physPlace?, hl]

/-- Parts that are left out because they meet an INVALID line meet no failed line. -/
theorem failedIn_filled {ids : List Nat} {p : Nat → Bool}
    (hp : ∀ i ∈ ids, p i = false → (a.parts[i]?).any s.unfilled = true) (k : AccKind) :
    s.failedIn k (a.named (ids.filter p)) = s.failedIn k (a.named ids) := by
  rw [failedIn_places, failedIn_places, List.filterMap_filterMap, List.filterMap_filterMap, List.filterMap_filter]
  refine congrArg _ (List.filterMap_congr fun i hi => ?_)
  cases h : p i with
  | true => rfl
  | false =>
    obtain ⟨x, hx, hu⟩ := (Option.any_eq_true _ _).mp (hp i hi h)
    simp [hx, unfilled_place hu]

/-- An access whose parts at some places have gone to log entry `e`. -/
def Access.loggedAt (a : Access) (e : Nat) (bad : List Nat) : Access :=
  { a with parts := a.parts.zipIdx.map fun p => if bad.contains p.2 then { p.1 with logged := true } else p.1
           entry := some e }

theorem loggedAt_other {e i : Nat} {bad : List Nat} (h : i ∉ bad) : (a.loggedAt e bad).parts[i]? = a.parts[i]? := by
  cases hp : a.parts[i]? <;> simp [Access.loggedAt, hp, h]

theorem access?_of_inflight {x : Group} {l : Tbl Access} (h : x.inflight = l.set acc a) : x.access? acc = some a := by
  simp only [Group.access?, h, tbl_find?_set, if_true, Option.map_some]

/-- Parts that go to the operand log are marked there; the others, and their access, stay. -/
theorem logAgain_access (ha : (s.group g).access? acc = some a) (bad : List Nat) : ∃ a',
    ((s.logAgain g acc a bad).group g).access? acc = some a' ∧ a'.kind = a.kind ∧
      ∀ i, i ∉ bad → a'.parts[i]? = a.parts[i]? := by
  simp only [State.logAgain]
  split
  · exact ⟨a, ha, rfl, fun _ _ => rfl⟩
  · next e _ =>
    refine ⟨a.loggedAt e bad, ?_, rfl, fun _ => loggedAt_other⟩
    rw [State.group_setGroup, if_pos rfl]
    split <;> exact access?_of_inflight rfl

theorem sameBytes_logAgain (bad : List Nat) : SameBytes g s (s.logAgain g acc a bad) := by
  simp only [State.logAgain]
  split
  · exact .refl
  · exact sameBytes_setGroup _

theorem failedIn_logAgain (bad : List Nat) (k : AccKind) (ps : List Part) :
    (s.logAgain g acc a bad).failedIn k ps = s.failedIn k ps := by
  simp only [State.logAgain]
  split <;> rfl

/-- The parts that meet an INVALID line go to the operand log, the others are performed. -/
theorem performParts_stored {ids : List Nat} (h : s.memOk = true) (ha : (s.group g).access? acc = some a)
    (hf : s.failedIn a.kind (a.named ids) = none) :
    Stored g (a.named ids) s (s.performParts g acc ids) := by
  simp only [State.performParts, ha]
  split
  · exact performNow_stored h ha hf
  · generalize hb : (ids.filter fun i => (a.parts[i]?).any s.unfilled) = bad
    have hbad : ∀ i, i ∈ bad → (a.parts[i]?).any s.unfilled = true := fun i hi => by
      rw [← hb] at hi
      exact (List.mem_filter.mp hi).2
    obtain ⟨a', ha', hk, hp⟩ := logAgain_access ha bad
    have hps : a'.named (ids.filter fun i => !bad.contains i) = a.named (ids.filter fun i => !bad.contains i) :=
      List.filterMap_congr fun i hi => hp i (by simpa using (List.mem_filter.mp hi).2)
    have hs : SameBytes g s (s.logAgain g acc a bad) := sameBytes_logAgain bad
    have hn := performNow_stored (ids := ids.filter fun i => !bad.contains i) (hs.memOk.trans h) ha' (by
      rw [failedIn_logAgain, hps, hk, failedIn_filled fun i _ hi => hbad i (by simpa using hi), hf])
    rw [hps] at hn
    exact (hs.stored h).trans (hn.mono (List.filterMap_subset _ (List.filter_subset_self _)))

end

/-! ### The whole event -/

section
variable {s : State} {g acc : Nat} {a : Access} {ids : List Nat} (ha : (s.group g).access? acc = some a)
  (hw : a.kind.writes = true) (hh : a.held = none) (hm : s.mayPerform g acc a (a.closure ids) = true)
include ha hw hh hm

/-- Parts that may be performed are performed, once what they overtake is noted, and the access is retired if it is
done. -/
theorem writePerformed_eq : ∃ e, s.writePerformed g acc ids =
    (({ s with early := e } : State).performParts g acc (a.closure ids)).finish g acc := by
  obtain ⟨e, he⟩ := noteEarly_early s g acc a
    (if (a.named (a.closure ids)).isEmpty then [] else s.scopedBefore g acc a)
    ((a.named (a.closure ids)).map fun p => (p.loc, p.size)) false
  refine ⟨e, ?_⟩
  simp only [State.writePerformed, ha, hw, State.performIn, Access.free, hh, hm, he, Option.isNone_none, Bool.and_self,
    if_true]

theorem writePerformed_stored (h : s.memOk = true)
    (hf : s.failedIn a.kind (a.named (a.closure ids)) = none) :
    Stored g (a.named (a.closure ids)) s (s.writePerformed g acc ids) := by
  obtain ⟨e, he⟩ := writePerformed_eq ha hw hh hm
  have hs : SameBytes g s { s with early := e } := ⟨rfl, rfl, rfl, fun _ _ => rfl⟩
  have hp := performParts_stored (s := { s with early := e }) h ha hf
  rw [he]
  exact ((hs.stored h).trans hp).trans ((sameBytes_finish acc).stored hp.memOk)

/-- A part in physical memory that is performed alone leaves its value at its place. -/
theorem writePerformed_phys {i pa : Nat} {p : Part} (h : s.memOk = true) (hc : a.closure ids = [i])
    (hi : a.parts[i]? = some p) (hp : p.loc = .phys pa) (hf : s.failedIn a.kind [p] = none) :
    Memory.read (s.writePerformed g acc ids).mem pa p.size =
      a.kind.new (Memory.read s.mem pa p.size) p.data p.cmp % 2 ^ (8 * p.size) := by
  obtain ⟨e, he⟩ := writePerformed_eq ha hw hh hm
  have hu : ([i].filter fun j => (a.parts[j]?).any ({ s with early := e } : State).unfilled) = [] := by
    simp [hi, unfilled_phys hp]
  have hn : ({ s with early := e } : State).performParts g acc [i] =
      ({ s with early := e } : State).performNow g acc [i] := by
    have ha : (({ s with early := e } : State).group g).access? acc = some a := ha
    simp only [State.performParts, ha, hu, List.isEmpty_nil, if_true]
  rw [he, (sameBytes_finish (g := g) acc).mem, hc, hn]
  exact performNow_phys (s := { s with early := e }) h ha hw hi hp hf

end

end Sys2Proof.Machine

open Sys2Proof Sys2Proof.Machine

/-- Settles O25: each part that is performed writes its own place, and what is noted, logged or retired around it writes
none. -/
theorem storeFrame : Obligations.StoreFrame := by
  intro s g acc i ids a p pa todo ps ha hw hh hm
  refine ⟨fun hmay hf => ?_, fun hc hi hp hmay hf => ?_⟩
  · obtain ⟨-, hmem, hscr, hg⟩ := writePerformed_stored ha hw hh hmay hm hf
    exact ⟨_, rfl, hmem, hscr, hg⟩
  · exact ⟨_, rfl, writePerformed_phys ha hw hh (hc.symm ▸ hmay) hm hc hi hp hf⟩

end

section
/-! SUPPORT. Fences, time, and casts of addresses (R130, R131, R136, R280, R293, R348, R349). -/

namespace Sys2Proof.Machine

open Sys2Proof

/-! ### Fences (R136, R280, R293) -/

section
variable {s : State}

theorem planFence_goes {k : FenceK} (h : k = .acq ∨ s.propagated s.cur.group = true) (sc : Scope) :
    planFence k sc s = .ok fun t => t.addFence k sc := by
  rcases h with h | h <;> simp only [planFence, h, decide_true, Bool.true_or, Bool.or_true, if_true]

theorem planFence_stalls {k : FenceK} (hk : k ≠ .acq) (h : s.propagated s.cur.group = false) (sc : Scope) :
    planFence k sc s = .error .stall := by
  simp only [planFence, hk, h, decide_false, Bool.or_self, Bool.false_eq_true, if_false]

/-- A FENCE changes the list of its group's FENCEs alone. -/
theorem addFence_only (k : FenceK) (sc : Scope) :
    s.addFence k sc = s.setGroup s.cur.group { s.g with fences := (s.addFence k sc).g.fences } := by
  conv_rhs => rw [State.addFence, modG_g]
  rfl

end

/-! ### The order that a FENCE of the whole system keeps (R280) -/

/-- The whole system is the widest scope. -/
theorem widest_sys {l : List Scope} (h : .sys ∈ l) : Scope.widest l = some .sys := by
  induction l with
  | nil => cases h
  | cons a r ih =>
    rcases List.mem_cons.mp h with rfl | hr
    · simp only [Scope.widest]
      cases Scope.widest r with
      | none => rfl
      | some b => cases b <;> rfl
    · simp only [Scope.widest, ih hr]
      cases a <;> rfl

/-- An access does not overtake what the whole system's order puts before it. -/
theorem mayOvertake_sys {s : State} {es : List Scoped} {e : Scoped} (he : e ∈ es) (hs : e.scope = .sys) (g : Nat)
    (a : Access) : s.mayOvertake g a es = false := by
  have hw := widest_sys (hs ▸ List.mem_map_of_mem (f := Scoped.scope) he)
  simp [State.mayOvertake, hw, Scope.code]

section
variable {g : Group} {f : FenceRec} {e x : Access} {n acc : Nat} (hf : f ∈ g.fences) (hs : f.scope = .sys)
  (hb : f.between e.mask n acc x = true) (hk : f.kinds e.kind.reads x = true)
include hf hs hb hk

/-- What stands before such a FENCE is ordered before what stands behind it, in the scope of the whole system. -/
theorem scopeOf_sys (acq : Option Scope) : g.scopeOf e.mask n acq e.kind.reads acc x = some .sys := by
  refine widest_sys (List.mem_append_right _ (List.mem_map.mpr ⟨f, List.mem_filter.mpr ⟨hf, ?_⟩, hs⟩))
  rw [hb, hk]
  rfl

theorem scopedBefore_sys (hi : (n, e) ∈ g.inflight) (hh : e.held = none) (ho : e.open_ = true)
    (hp : poBefore e.mask n x.mask x.past = true) : ∃ r ∈ g.scopedBefore acc x, r.scope = .sys := by
  have hlt : n < acc := by
    simp only [FenceRec.between, Bool.and_eq_true, decide_eq_true_eq] at hb
    omega
  refine ⟨⟨n, .sys, e.parts.any (·.logged)⟩, List.mem_filterMap.mpr ⟨(n, e), List.mem_filter.mpr ⟨hi, ?_⟩, ?_⟩, rfl⟩
  · simp [hlt, hh, ho, hp]
  · rw [scopeOf_sys hf hs hb hk]
    rfl

end

/-! ### Pointer tests and casts (R130, R131) -/

section
variable {s : State} {a : Src}

/-- Lanes of a shape by rules 3 and 10 agree with it where uniform sources give one value. -/
theorem shapeOf_ok {xs : List Opnd} {f : Nat → Word}
    (h : (∀ x ∈ xs, x.sh = .uniform) → ∀ k, k < 32 → f k = f 0) : ShapeOk (shapeOf xs) (Lanes.ofFn f) := by
  rw [shapeOf]
  split
  · next hu =>
    intro k hk
    rw [lanes_get_ofFn _ hk, lanes_get_ofFn _ (by decide), h (fun x hx => by simpa using List.all_eq_true.mp hu x hx) k hk]
  · trivial

theorem rdPair_uniform (h : ∀ x ∈ [s.rd a, s.rd (a.next 1)], x.sh = .uniform) {k : Nat} (hk : k < 32) :
    s.rdPair a k = s.rdPair a 0 := by
  have h0 := h _ (.head _)
  have h1 := h _ (.tail _ (.head _))
  rw [State.rdPair, uniform_get (rd_ok s a) h0 hk, uniform_get (rd_ok s (a.next 1)) h1 hk, State.rdPair]

theorem castFrom_uniform {fr : CastFrom}
    (h : ∀ x ∈ (if fr = .gen then [s.rd a, s.rd (a.next 1)] else [s.rd a]), x.sh = .uniform) {k : Nat} (hk : k < 32) :
    s.castFrom fr a k = s.castFrom fr a 0 := by
  cases fr with
  | gen => simp only [State.castFrom, rdPair_uniform h hk]
  | loc => simp only [State.castFrom, uniform_get (rd_ok s a) (h _ (List.mem_singleton_self _)) hk]
  | c32 => simp only [State.castFrom, uniform_get (rd_ok s a) (h _ (List.mem_singleton_self _)) hk]

/-- SPTEST's code of each lane's address. -/
theorem sptest_computes {d : Dst} (hd : d.isK = false) :
    Computes s (.sptest d a) d (fun k => BitVec.ofNat 32 (s.windowCode (s.rdPair a k))) 0 :=
  computes_vec rfl rfl rfl (fun hk => absurd hk (by simp [hd])) rfl
    (shapeOf_ok fun h k hk => by rw [rdPair_uniform h hk]) fun _ hk => by rw [lanes_get_ofFn _ hk]

/-- The shape of a cast's result is that of the registers that it reads. -/
theorem castShape (fr : CastFrom) : (if fr = .gen then s.pairShape a else shape1 (s.rd a)) =
    shapeOf (if fr = .gen then [s.rd a, s.rd (a.next 1)] else [s.rd a]) :=
  (apply_ite shapeOf _ _ _).symm

variable {fr : CastFrom} {tgt : CastTo}

/-- A cast to a form of 32 bits. -/
theorem planSpcast_one (ht : tgt.generic = false) (d : Dst) : planSpcast fr tgt d a s =
    s.putVec d (shapeOf (if fr = .gen then [s.rd a, s.rd (a.next 1)] else [s.rd a]))
      (Lanes.ofFn fun i => (castTo tgt (s.logicalCore s.cur.group) (s.castFrom fr a i)).setWidth 32) := by
  simp only [planSpcast, ht, castShape, Bool.false_eq_true, if_false]

theorem dests_spcast (ht : tgt.generic = false) (d : Dst) : (Instr.spcast fr tgt d a).dests = [d] := by
  cases tgt with
  | scr => cases ht
  | clu => cases ht
  | loc => rfl
  | c32 => rfl

theorem spcast_computes {d : Dst} (hd : d.isK = false) (ht : tgt.generic = false) : Computes s (.spcast fr tgt d a) d
    (fun k => (castTo tgt (s.logicalCore s.cur.group) (s.castFrom fr a k)).setWidth 32) 0 :=
  computes_vec rfl rfl (planSpcast_one ht d) (fun hk => absurd hk (by simp [hd])) (dests_spcast ht d)
    (shapeOf_ok fun h k hk => by rw [castFrom_uniform h hk]) fun _ hk => by rw [lanes_get_ofFn _ hk]

/-- A cast to a generic form writes a pair. -/
theorem planSpcast_pair (ht : tgt.generic = true) (d : Dst) : planSpcast fr tgt d a s = .ok fun t =>
    (t.writeVec d (if fr = .gen then s.pairShape a else shapeOf [s.rd a])
      (Lanes.ofFn fun i => (castTo tgt (s.logicalCore s.cur.group) (s.castFrom fr a i)).setWidth 32)).writeDst (d.plus 1)
      (if fr = .gen then s.pairShape a else shapeOf [s.rd a])
      (Lanes.ofFn fun i => (castTo tgt (s.logicalCore s.cur.group) (s.castFrom fr a i) >>> 32).setWidth 32) :=
  if_pos ht

end

/-! ### Time (R348, R349) -/

section
variable {s : State} {rel : Bool} {a : Src}

theorem clear_waits {i : Instr} (hc : s.clear i = true) : s.sp.wait = none := by
  simp only [State.clear, Bool.and_eq_true, Option.isNone_iff_eq_none] at hc
  exact hc.1.1.1.2

theorem planTwait_reached (hw : s.sp.wait = none) (ht : s.timeOperand rel a ≤ s.gtime s.cur.group) :
    planTwait rel a s = .ok fun t => t := by
  simp only [planTwait, hw, ht, if_true]
  rfl

theorem planTwait_early (hw : s.sp.wait = none) (ht : s.gtime s.cur.group < s.timeOperand rel a) :
    planTwait rel a s = .error (.wait (.twait (s.timeOperand rel a))) := by
  simp only [planTwait, hw, if_neg (BitVec.not_le.mpr ht)]

theorem twait_steers (ht : s.timeOperand rel a ≤ s.gtime s.cur.group) : Steers s (.twait rel a) fun t => t :=
  fun hc ha => steers_of_plan rfl rfl (planTwait_reached (clear_waits hc) ht) redirects_id hc ha

theorem twait_stops (ht : s.gtime s.cur.group < s.timeOperand rel a) (hc : s.clear (.twait rel a) = true) :
    Stops s (.twait rel a) (.wait (.twait (s.timeOperand rel a))) :=
  issue_stop rfl (planTwait_early (clear_waits hc) ht) hc

/-- A wait that goes on looks at the time that it kept. -/
theorem twait_resumes {v : DWord} (hw : s.sp.wait = some (.twait v)) (ht : v ≤ s.reading.gtime s.cur.group) :
    Resumes s (.twait rel a) fun t => t := fun hc ha => by
  have hs := hc
  simp only [State.goesOn, Bool.and_eq_true] at hs
  obtain ⟨hr, hwr⟩ := reading_sp hs.1.1.1
  exact issue_resumed rfl (planTwait_resumes (hwr.trans hw) (hr ▸ ht)) hc ha

end

end Sys2Proof.Machine

open Sys2Proof Sys2Proof.Machine

/-- Settles O27: a FENCE's plan adds its record or stalls; one of the whole system is an order that no access overtakes;
the other plans answer their result, and TWAIT its wait. -/
theorem fencesTimeAndWindows : Obligations.FencesTimeAndWindows := by
  intro s k sc rel a d v w fr tgt f e x h n acc ids g val sh
  refine ⟨fun hk hc ha => issue_done rfl (planFence_goes hk sc) hc ha,
    fun hk hp hc => issue_stop (p := planFence k sc) rfl (planFence_stalls hk hp sc) hc, addFence_only k sc,
    fun hf hs hb hk hi hh ho hp => ?_, fun hc ha => issue_done rfl rfl hc ha, twait_steers, twait_stops, twait_resumes,
    sptest_computes, spcast_computes, fun ht hc ha => issue_done rfl (planSpcast_pair ht w) hc ha⟩
  obtain ⟨r, hr, hrs⟩ := scopedBefore_sys hf hs hb hk hi hh ho hp
  have ho : s.mayOvertake h x (s.scopedBefore h acc x) = false := mayOvertake_sys (List.mem_append_left _ hr) hrs h x
  simp only [State.mayPerform, ho, Bool.and_false, Bool.false_and]

end

section
/-! SUPPORT. Mapped regions (R113, R114, R137, R138): what the plans of RMAP and RFLUSH answer. -/

namespace Sys2Proof.Machine

open Sys2Proof

section
variable {s : State}

theorem planRmap_maps {d : Nat} {a b : Src} {c : CSrc}
    (h : s.mapCause (s.rd a).u.toNat (s.rd2 a b).u.toNat (pair64 (s.rdc c).u (s.rdv (c.n + 1)).u) = none) :
    planRmap d a b c s = .ok fun t => t.mapRegion d (s.rd a).u.toNat (s.rd2 a b).u.toNat
      (pair64 (s.rdc c).u (s.rdv (c.n + 1)).u).toNat := by
  simp only [planRmap, h]

theorem planRmap_refused {d : Nat} {a b : Src} {c : CSrc} {q : Cause × DWord}
    (h : s.mapCause (s.rd a).u.toNat (s.rd2 a b).u.toNat (pair64 (s.rdc c).u (s.rdv (c.n + 1)).u) = some q) :
    planRmap d a b c s = .error (.raise (s.uniReport q.1 q.2 0)) := by
  simp only [planRmap, h, State.uniStop]

/-- A flush that does not wait does its work at once. -/
theorem planRflush_first (h : s.sp.wait = none) (n : Src) : planRflush n s = s.flush (s.rd n).u := by
  simp only [planRflush, h, reduceCtorEq, if_false]

/-- An entry number above 7, or one that no region has, leaves nothing to write back. -/
theorem flush_unmapped {n : Word} (h : 8 ≤ n.toNat ∨ (s.team (teamOf s.cur.group)).region? n.toNat = none) :
    s.flush n = .ok id := by
  have hr : (if n.toNat < 8 then (s.team (teamOf s.cur.group)).region? n.toNat else none) = none := by
    rcases h with h | h
    · exact if_neg (Nat.not_lt.mpr h)
    · rw [h, ite_self]
  simp only [State.flush, hr]

end

/-! ### The write-back of a region's lines (R114) -/

/-- Region `r`'s line `l` can be written back now: its translation names a home that the core may reach, and that takes
it. -/
def State.backGoes (s : State) (r : Region) (l : Nat) : Prop :=
  ∃ pa p01 rm tr, s.backLine (s.coreOf s.cur.group) r l s.priv s.choice = (.ok pa p01 rm, tr) ∧
    s.denied s.cur.group pa ⟨0, 0, 128, .write, .gen, false, false, false⟩ s.priv = false ∧
    s.backOpen s.cur.group pa = true

section
variable {s : State} {r : Region} (h : ∀ l ∈ r.dirty, s.backGoes r l)
include h

/-- Every line that a flush can write back comes with its place. -/
theorem flushable_goes : ∀ x ∈ s.flushable r s.priv s.choice, x.1 ∈ r.dirty ∧ ∃ pa p01 rm, x.2.1 = .ok pa p01 rm ∧
    s.denied s.cur.group pa ⟨0, 0, 128, .write, .gen, false, false, false⟩ s.priv = false ∧
    s.backOpen s.cur.group pa = true := by
  intro x hx
  obtain ⟨l, hl, rfl⟩ := List.mem_map.mp hx
  obtain ⟨pa, p01, rm, tr, hb, hd, ho⟩ := h l hl
  exact ⟨hl, pa, p01, rm, congrArg Prod.fst hb, hd, ho⟩

/-- A flush whose lines can all be written back, after everything before it, writes them back one after the other. -/
theorem flush_writes {n : Word} (hn : n.toNat < 8) (hr : (s.team (teamOf s.cur.group)).region? n.toNat = some r)
    (he : ∀ l ∈ r.dirty, s.escapes s.cur.group (r.glob + 128 * l) 128 = false) (hq : s.quiet s.cur.group = true) :
    s.flush n = .ok fun t => (s.flushable r s.priv s.choice).foldl (fun t l =>
      match l.2.1 with
      | .ok pa p01 _ => t.putBack (teamOf s.cur.group) n.toNat l.1 pa l.2.2 p01 s.cur.group
      | _ => t) t.chosen := by
  have hg := flushable_goes h
  simp only [State.flush, if_pos hn, hr]
  rw [List.find?_eq_none.mpr, List.find?_eq_none.mpr, List.findSome?_eq_none_iff.mpr, List.findSome?_eq_none_iff.mpr,
    List.any_eq_false.mpr]
  · exact if_neg (by simp only [hq, Bool.not_true, Bool.or_self, Bool.false_eq_true, not_false_eq_true])
  all_goals
    intro x hx
    obtain ⟨hl, pa, p01, rm, hok, hd, ho⟩ := hg x hx
  -- its home takes it
  · simp [hok, ho]
  -- its translation does not fault, and meets no uncorrectable error
  · simp only [hok, faultOf]
  · simp only [hok]
  -- it is not outside what an anytime launch may write, and it is permitted
  · simp [he x.1 hl]
  · simp only [hok, hd, Bool.false_eq_true, not_false_eq_true]

end

end Sys2Proof.Machine

open Sys2Proof Sys2Proof.Machine

/-- Settles O28: RMAP answers its effect or the cause that its checks find, and RFLUSH the write-back of every line, where
each has its place. -/
theorem mappedRegions : Obligations.MappedRegions := by
  intro s d a b n c o len gl k e
  refine ⟨fun h hc ha => issue_done rfl (planRmap_maps h) hc ha, fun q h hc => issue_raises rfl rfl (planRmap_refused h) hc,
    fun hw h hc ha => issue_done rfl ((planRflush_first hw n).trans (flush_unmapped h)) hc ha,
    fun r hw he hr hb hs hq hc ha =>
      (issue_done rfl ((planRflush_first hw n).trans (flush_writes hb he hr hs hq)) hc ha),
    fun hc ha => issue_done rfl rfl hc ha⟩

end

section
/-! SUPPORT. Barrier objects (R152 to R158): their words read back, and what the plans of the barrier instructions and a
copy's arrival do to them. -/

namespace Sys2Proof.Machine

open Sys2Proof

/-! ### The object's words (R152, R154) -/

/-- The three bits of the object's last word, each read back from it. -/
theorem barFlags_read (l e p : Bool) : l.toNat * 4 + e.toNat * 2 + p.toNat < 8 ∧
    bitOf (l.toNat * 4 + e.toNat * 2 + p.toNat) 2 = l ∧ bitOf (l.toNat * 4 + e.toNat * 2 + p.toNat) 1 = e ∧
    bitOf (l.toNat * 4 + e.toNat * 2 + p.toNat) 0 = p := by
  revert l e p
  decide

/-- An object whose fields fit reads back as it was written. -/
theorem bar_ofNat_toNat {b : Bar} (hx : b.expb < 2 ^ 32) (hr : b.arrb < 2 ^ 32) (he : b.expa < 65536)
    (ha : b.arra < 65536) : Bar.ofNat b.toNat = b := by
  obtain ⟨expb, arrb, arra, expa, l, e, p⟩ := b
  obtain ⟨hf, hl, hm, hp⟩ := barFlags_read l e p
  simp only at hx hr he ha
  simp only [Bar.ofNat, Bar.toNat]
  generalize l.toNat * 4 + e.toNat * 2 + p.toNat = w at hf hl hm hp ⊢
  have hw : (expb + arrb * 2 ^ 32 + (expa + arra * 65536) * 2 ^ 64 + w * 2 ^ 96) / 2 ^ 96 = w := by omega
  rw [hw, hl, hm, hp, Bar.mk.injEq]
  exact ⟨by omega, by omega, by omega, by omega, rfl, rfl, rfl⟩

theorem satAdd_fits {a n : Nat} (h : a + n < 2 ^ 32) : satAdd a n = (a + n, false) := if_neg (Nat.not_le.mpr h)

theorem satAdd_over {a n : Nat} (h : 2 ^ 32 ≤ a + n) : satAdd a n = (2 ^ 32 - 1, true) := if_pos h

/-! ### The completion test (R153) -/

theorem settle_completes {b : Bar} (ha : b.arra = b.expa) (hb : b.arrb = b.expb) : b.settle =
    { expb := 0, arrb := 0, arra := 0, expa := b.expa, lasterr := b.err, err := false, phase := !b.phase } :=
  if_pos ⟨ha, hb⟩

theorem settle_open {b : Bar} (h : b.arra ≠ b.expa ∨ b.arrb ≠ b.expb) : b.settle = b :=
  if_neg (not_and_or.mpr h)

/-! ### Plans of the barrier instructions (R156 to R158) -/

section
variable {s : State} {t : Target}

/-- An instruction that does not wait has no fault of its own. -/
theorem afterFault_none (hw : s.sp.wait = none) (k : Except Stop (State → State)) : s.afterFault k = k := by
  simp only [State.afterFault, hw]

/-- An instruction that reaches its object goes on from there. -/
theorem openAt_reaches {form : AForm} {a : DWord} {n : Nat} {k : XKind} (h : s.reaches form a n k t) (ops : List DWord)
    (cont : Target → Except Stop (State → State)) :
    s.afterFault (s.openAt form a n k ops cont) = (cont t).map fun f u => f (u.noteOwn k t) := by
  obtain ⟨hw, ht, hl, hc⟩ := h
  rw [afterFault_none hw, openAt_ok ht hl hc]

/-- A barrier instruction that reaches its object updates it, once what it publishes has been performed. -/
theorem barPlan_updates {form : AForm} {addr : State → DWord} {publish : Bool} (f : State → Bar → Bar)
    (h : s.reaches form (addr s) 16 .atomic t)
    (hp : publish = true → (s.settled s.cur.group && s.noStale s.cur.group) = true) :
    barPlan form addr publish f s = .ok fun v => (v.noteOwn .atomic t).updateBar t (f s) := by
  have hg : (publish && !(s.settled s.cur.group && s.noStale s.cur.group)) = false := by
    cases publish with
    | false => rfl
    | true => simp only [hp rfl, Bool.not_true, Bool.and_false]
  simp only [barPlan, openAt_reaches h, hg, Bool.false_eq_true, if_false]
  rfl

variable {d : Nat} {b : Src} (h : s.reaches .loc ((s.rd b).u.setWidth 64) 16 .read t)
include h

/-- BARW past its phase. -/
theorem planBarw_passed (hp : ((s.leaveTarget t).barAt t).phase ≠ ((s.rdv d).u &&& 1).getLsbD 0) :
    planBarw d b s = .ok fun u => ((u.noteOwn .read t).leaveTarget t).writeUni (.v d)
      (BitVec.ofNat 32 (((s.leaveTarget t).barAt t).lasterr.toNat * 2 + ((s.leaveTarget t).barAt t).phase.toNat)) := by
  simp only [planBarw, h.1, openAt_reaches h, hp, decide_false, Bool.false_eq_true, if_false]
  rfl

/-- BARW before its phase waits, and fills an INVALID line of its object first (R113). -/
theorem planBarw_waits (hp : ((s.leaveTarget t).barAt t).phase = ((s.rdv d).u &&& 1).getLsbD 0) :
    planBarw d b s = .error (if t.fills = [] then .wait (.barw (s.rd b).u ((s.rdv d).u &&& 1))
      else .act fun u => (u.leaveTarget t).modSp fun y =>
        { y with wait := some (.barw (s.rd b).u ((s.rdv d).u &&& 1)) }) := by
  simp only [planBarw, h.1, openAt_reaches h, hp, decide_true, if_true, List.isEmpty_iff]
  split <;> rfl

end

/-- A waiting instruction that goes on has its split. -/
theorem goesOn_split {s : State} {i : Instr} (h : s.goesOn i = true) : (s.g.split? s.cur.split).isSome = true := by
  simp only [State.goesOn, Bool.and_eq_true] at h
  exact h.1.1.1

/-- BARW goes on on the object and the parity that it kept. -/
theorem barw_resumes {s : State} {t : Target} {d : Nat} {b : Src} {w p : Word} (hw : s.sp.wait = some (.barw w p))
    (ht : s.reading.checkLane s.cur.group ⟨0, w.setWidth 64, 16, .read, .loc, false, false, true⟩ s.reading.priv
      s.reading.choice = .ok t)
    (hl : s.reading.g.logClash .loc (w.setWidth 64) 16 = false) (hc : s.reading.clearOf .read t = true)
    (hp : ((s.reading.leaveTarget t).barAt t).phase ≠ p.getLsbD 0) :
    Resumes s (.barw d b) fun u => ((u.noteOwn .read t).leaveTarget t).writeUni (.v d)
      (BitVec.ofNat 32 (((s.reading.leaveTarget t).barAt t).lasterr.toNat * 2 +
        ((s.reading.leaveTarget t).barAt t).phase.toNat)) := fun hg ha => by
  obtain ⟨hr, hwr⟩ := reading_sp (goesOn_split hg)
  exact issue_resumed rfl (planBarw_resumes (hwr.trans hw) (hr ▸ ht) hl hc hp) hg ha

/-! ### A copy's arrival (R153, R154) -/

/-- A copy whose object and byte count are known arrives, and leaves its slot. -/
theorem copyFinish_arrives {s : State} {g n : Nat} {c : Copy} {use : Bool} {t : Target} {cnt : Option Nat}
    (hb : c.bar ≠ 0xFFFFFFFF)
    (ht : s.checkLane g ⟨0, c.bar.setWidth 64, 16, .atomic, .clu, false, false, true⟩ c.priv use = .ok t)
    (hm : s.engMay g .asum t = true) (hl : s.copyLags g c = false) (hc : s.copyBytes g c use = .ok cnt) :
    s.copyFinish g n c use = (s.updateBar t fun x => (x.land cnt c.failed.isSome).settle).copyEnd g n c
      (c.failed.map fun f => (f.1, f.2.1)) := by
  simp only [State.copyFinish, hl, hb, ht, hm, hc, Bool.not_true, Bool.false_eq_true, if_false, Option.isSome_map]

end Sys2Proof.Machine

open Sys2Proof Sys2Proof.Machine

/-- Settles O31: the words of an object lie apart, and each rule is one case of its sum or its comparison. -/
theorem barrierObject : Obligations.BarrierObject := by
  intro b n
  refine ⟨bar_ofNat_toNat, fun h => if_pos h, fun h => if_neg (Nat.not_lt.mpr h), fun h => ?_, fun h => ?_,
    fun h => ⟨?_, ?_⟩, fun h failed => ?_, fun failed => rfl⟩
  · simp only [Bar.expect, satAdd_fits h, Bool.or_false]
  · simp only [Bar.expect, satAdd_over h, Bool.or_true]
  · simp only [Bar.land, satAdd_fits h, Bool.or_false]
  · simp only [Bar.land, satAdd_fits h, Bool.or_true]
  · simp only [Bar.land, satAdd_over h, Bool.or_true, Bool.true_or]

/-- Settles O30: a barrier instruction that reaches its object, and a copy that may arrive, update it and settle it in one
change; BARW's plan answers its result or its wait. -/
theorem barrierInstructions : Obligations.BarrierInstructions := by
  intro s b n c d g slot c32 use t x y cnt w p addr par done now then_
  exact ⟨settle_completes, settle_open, copyFinish_arrives,
    fun h hc ha => issue_done rfl (barPlan_updates _ h nofun) hc ha,
    fun h hd => ⟨fun hc ha => issue_done rfl (barPlan_updates _ h fun _ => hd) hc ha,
      fun hc ha => issue_done rfl (barPlan_updates _ h fun _ => hd) hc ha⟩,
    fun h => ⟨fun hp hc ha => issue_done rfl (planBarw_passed h hp) hc ha,
      fun hp hc => issue_stop (p := planBarw d b) rfl (planBarw_waits h hp) hc⟩,
    barw_resumes⟩

end

section
/-! SUPPORT. The copy instructions at issue (R143, R147 to R151): which copy the plan of CPY and CPYL adds, and when CWAIT's
goes on. -/

namespace Sys2Proof.Machine

open Sys2Proof

/-! ### Adding a copy (R143, R149) -/

/-- Checks that all pass leave no cause. -/
theorem worstAt_pass {cs : List (Bool × Cause × Nat × DWord)} (h : ∀ c ∈ cs, c.1 = false) : worstAt cs = none := by
  rw [worstAt, List.filter_eq_nil_iff.mpr fun c hc => by simp [h c hc]]
  rfl

/-- One more check that passes leaves the worst cause as it is. -/
theorem worstAt_append_pass (cs : List (Bool × Cause × Nat × DWord)) (q : Cause × Nat × DWord) :
    worstAt (cs ++ [(false, q)]) = worstAt cs := by
  rw [worstAt, List.filter_append, List.filter_cons_of_neg Bool.false_ne_true, List.filter_nil, List.append_nil]
  rfl

section
variable {s : State} {linear : Bool} {a : Src}

/-- The checks of a descriptor's address pass inside the team region (R149). -/
theorem descriptor_inRegion {addr : DWord} {n : Nat} (h : s.inRegion addr n 16) :
    worstAt [(decide (2 ^ 22 ≤ addr.toNat), .spaceInvalid, 0, addr), (decide (addr.toNat % 16 ≠ 0), .misaligned, 0, addr),
      (decide (addr.toNat < 2 ^ 22) && decide (s.regionBytes (teamOf s.cur.group) < addr.toNat + n), .permission, 0,
        addr)] = none := by
  obtain ⟨hs, hn, ha⟩ := h
  refine worstAt_pass ?_
  simp only [List.forall_mem_cons]
  exact ⟨decide_eq_false (by omega), decide_eq_false (by omega), by simp [Nat.not_lt.mpr hn], fun _ h => nomatch h⟩

/-- CPY and CPYL whose descriptor is read and passes its checks add the copy that it describes. -/
theorem copyPlan_adds {bs : List Byte} {ts : List Target} (hw : s.sp.wait = none)
    (hr : s.inRegion ((s.rd a).u.setWidth 64) (if linear then 32 else 48) 16)
    (ho : ∀ k : List Byte → List Target → Except Stop (State → State),
      s.openLocal ((s.rd a).u.setWidth 64) (if linear then 32 else 48) k =
        (k bs ts).map fun f u => f (ts.foldl (fun u t => u.noteOwn .read t) u))
    (hb : badCopy linear bs = false)
    (hc : worstAt (s.baseCauses (copyOf linear bs s).sbase ++ s.baseCauses (copyOf linear bs s).dbase ++
      s.barCauses (copyOf linear bs s).bar) = none)
    (he : windowOf (copyOf linear bs s).dbase = .glob →
      s.escapes s.cur.group (copyOf linear bs s).dbase.toNat 1 = false)
    (hn : s.g.copies.length < 16) :
    copyPlan linear a s = .ok fun t => ((ts.foldl (fun u t => u.noteOwn .read t) t).leaveTargets ts).modG fun g =>
      g.addCopy (copyOf linear bs s) := by
  have hesc : (decide (windowOf (copyOf linear bs s).dbase = .glob) &&
      s.escapes s.cur.group (copyOf linear bs s).dbase.toNat 1) = false := by
    rw [Bool.and_eq_false_imp, decide_eq_true_eq]
    exact he
  simp only [copyPlan, afterFault_none hw, descriptor_inRegion hr, ho, hb, hesc, worstAt_append_pass, hc,
    if_neg (Nat.not_le.mpr hn), Bool.false_eq_true, if_false]
  rfl

end

/-! ### CWAIT (R148, R151) -/

section
variable {s : State} {all : Bool} {a : Src} {w : Word}

/-- The batch that a CWAIT takes as it issues. -/
def State.cwaitBatch (s : State) (all : Bool) (a : Src) : Word :=
  if all then s.g.lastClosed else s.g.waitBatch (s.rd a).u

theorem planCwait_complete (hw : s.sp.wait = none) (hb : s.g.batchDone (s.cwaitBatch all a) = true)
    (hf : ∀ f ∈ s.g.copyFails, atOrBelow f.batch (s.cwaitBatch all a) = false) : planCwait all a s = .ok id := by
  have hn : (s.g.copyFails.filter fun c => atOrBelow c.batch (s.cwaitBatch all a)) = [] :=
    List.filter_eq_nil_iff.mpr fun f h => by simp [hf f h]
  simp only [State.cwaitBatch] at hb hn
  simp only [planCwait, hw, hb, hn, Bool.not_true, Bool.false_eq_true, if_false]
  rfl

theorem planCwait_waits (hw : s.sp.wait = none) (hb : s.g.batchDone (s.cwaitBatch all a) = false) :
    planCwait all a s = .error (.wait (.cwait (s.cwaitBatch all a))) := by
  simp only [State.cwaitBatch] at hb ⊢
  simp only [planCwait, hw, hb, Bool.not_false, if_true]

theorem cwait_steers (hb : s.g.batchDone (s.cwaitBatch all a) = true)
    (hf : ∀ f ∈ s.g.copyFails, atOrBelow f.batch (s.cwaitBatch all a) = false) : Steers s (.cwait all a) id :=
  fun hc ha => steers_of_plan rfl rfl (planCwait_complete (clear_waits hc) hb hf) redirects_id hc ha

theorem cwait_stops (hb : s.g.batchDone (s.cwaitBatch all a) = false) (hc : s.clear (.cwait all a) = true) :
    Stops s (.cwait all a) (.wait (.cwait (s.cwaitBatch all a))) :=
  issue_stop rfl (planCwait_waits (clear_waits hc) hb) hc

/-- CWAIT goes on on the batch that it kept. -/
theorem cwait_resumes (hw : s.sp.wait = some (.cwait w)) (hb : s.reading.g.batchDone w = true)
    (hf : ∀ f ∈ s.reading.g.copyFails, atOrBelow f.batch w = false) : Resumes s (.cwait all a) id := fun hg ha => by
  obtain ⟨-, hwr⟩ := reading_sp (goesOn_split hg)
  exact issue_resumed rfl (planCwait_resumes (hwr.trans hw) hb hf) hg ha

end

end Sys2Proof.Machine

open Sys2Proof Sys2Proof.Machine

/-- Settles O29: the plan of CPY and CPYL adds the copy that the descriptor's bytes describe, CBATCH's counts the batch, and
CWAIT's goes on or waits by the batches' copies. -/
theorem copyInstructions : Obligations.CopyInstructions := by
  intro s a d n all linear bs ts w i addr c upto
  refine ⟨fun hw hr ho hb hc he hn hcl ha => ?_, fun hc ha => issue_done rfl rfl hc ha, cwait_steers, cwait_stops,
    cwait_resumes, issue_raises rfl rfl rfl⟩
  have hp := copyPlan_adds hw hr ho hb hc he hn
  cases linear with
  | false => exact issue_done rfl hp hcl ha
  | true => exact issue_done rfl hp hcl ha

end

section
/-! SUPPORT. The engines' steps and the instructions of the access slice (R144 to R148, R159 to R165, R280, R406): when a copy
or a slice moves, and when it stands still. -/

namespace Sys2Proof.Machine

open Sys2Proof

/-! ### Steps of a copy (R144 to R148, R406) -/

section
variable {s : State} {g slot : Nat} {c : Copy}

/-- An empty copy slot has no step. -/
theorem copyStep_absent (h : (s.group g).copy? slot = none) (n : Nat) : s.copyStep g slot n = s := by
  simp only [State.copyStep, h]

/-- A copy that may not move uses up the step's choice alone. -/
theorem copyStep_still (h : (s.group g).copy? slot = some c) (hm : s.chosen.copyMay g c = false) (n : Nat) :
    s.copyStep g slot n = s.chosen := by
  simp only [State.copyStep, h, hm, Bool.not_false, if_true]

/-- A linear copy that may move runs on without a record. -/
theorem copyStep_linear (h : (s.group g).copy? slot = some c) (hm : s.chosen.copyMay g c = true)
    (hl : c.linear = true) (ha : c.aborted = false) (n : Nat) :
    s.copyStep g slot n = s.chosen.copyRun g slot n none s.choice := by
  simp only [State.copyStep, h, hm, hl, ha, Bool.not_true, Bool.false_and, Bool.or_true, Bool.false_eq_true, if_false,
    if_true]

end

/-! ### Steps of a slice (R159 to R162, R280, R406) -/

/-- What a group with a slice at work is. -/
theorem slices_iff (gr : Group) : gr.slices = true ↔ gr.live = true ∧ gr.bank = .live ∧ gr.halted = false ∧
    gr.slice.st = .running ∧ gr.slice.faulted = false := by
  simp only [Group.slices, Bool.and_eq_true, Bool.not_eq_true', decide_eq_true_eq, and_assoc]

section
variable {s : State} {g : Nat}

/-- With nothing before its start ordered before it, a slice's step notes nothing. -/
theorem sliceEarly_nil (h : s.sliceBefore g = []) (f : State → State) : s.sliceEarly g f = f s := by
  simp only [State.sliceEarly, h]

/-- A slice at work takes its step, where no fault of it has been aborted. -/
theorem sliceStep_goes (hs : (s.group g).slices = true) (ho : s.sliceOrdered g = true)
    (ha : (s.group g).slice.aborted = false) :
    s.sliceStep g = s.chosen.sliceEarly g fun t => t.sliceGo g s.choice := by
  simp only [State.sliceStep, hs, ho, ha, Bool.not_true, Bool.or_self, Bool.false_eq_true, if_false]

/-- A slice that is not at work, or that something stands before, takes none. -/
theorem sliceStep_still (h : (s.group g).slices = false ∨ s.sliceOrdered g = false) : s.sliceStep g = s := by
  rcases h with h | h <;> simp only [State.sliceStep, h, Bool.not_false, Bool.true_or, Bool.or_true, if_true]

end

/-! ### ASTART and FSTAT (R163, R165) -/

section
variable {s : State} {a : Src}

theorem planAstart_misaligned (h : (s.rdPair a 0).toNat % 16 ≠ 0) (x : Nat) :
    planAstart a x s = .error (.raise (s.uniReport .misaligned (s.rdPair a 0) 0)) := if_pos h

/-- FSTAT writes the word of the feeds and the slice to every lane in use. -/
theorem fstat_computes (s : State) (d : Dst) : Computes s (.fstat d) d (fun _ => s.g.fstat) 0 :=
  computes rfl rfl rfl (writes_dst s.mask d .uniform _) rfl (fun _ _ => splat_ok _) fun _ h => (lanes_get_splat _ h).symm

end

end Sys2Proof.Machine

open Sys2Proof Sys2Proof.Machine

/-- Settles O32: the plans of ASTART, ASTOP and FSTAT answer their changes, and the steps of a copy and of a slice move them
exactly where each is at work. -/
theorem accessEngine : Obligations.AccessEngine := by
  intro s a x g slot n discard d c
  refine ⟨fun h hc ha => issue_done rfl (if_neg (not_not.mpr h)) hc ha,
    fun h hc => issue_raises rfl rfl (planAstart_misaligned h x) hc, fun hc ha => issue_done rfl rfl hc ha,
    fstat_computes s d, rfl, fun h => copyStep_absent h n, fun h hm => copyStep_still h hm n,
    fun h hm hl ha => copyStep_linear h hm hl ha n, fun hl hb hh hr hf ha ho => ?_, fun h => ?_⟩
  · have hg := sliceStep_goes ((slices_iff _).mpr ⟨hl, hb, hh, hr, hf⟩) ho ha
    exact ⟨congrArg Host.Outcome.next hg, fun he => congrArg Host.Outcome.next (hg.trans (sliceEarly_nil he _))⟩
  · refine congrArg Host.Outcome.next (sliceStep_still ?_)
    rw [← Bool.not_eq_true, slices_iff]
    simp only [← Bool.not_eq_true] at h ⊢
    tauto

end

section
/-! SUPPORT. Lane-wise results (R222 to R227, R229 to R232, R236): a plan that puts one value a lane, with or without
flags, computes it. -/

namespace Sys2Proof.Machine

open Sys2Proof

section
variable {s : State} {i : Instr} {p : Plan} {d : Dst}

/-- Uniform sources, as a k destination takes, have a uniform result. -/
theorem kFits.uniform {xs : List Opnd} (h : kFits d xs) (hd : d.isK = true) : shapeOf xs = .uniform :=
  if_pos (List.all_eq_true.mpr fun x hx => decide_eq_true (h hd x hx))

/-- A destination that is no k register takes every result. -/
theorem kFits_of_not_isK (h : d.isK = false) (xs : List Opnd) : kFits d xs := fun hk => absurd hk (by simp [h])

/-- A plan that puts a value and flags a lane: a uniform result in a v register is the one of lane 0. -/
theorem computes_lanesFl {xs : List Opnd} (f : Nat → Word × Word) (he : exec i s = issue i p s) (hp : planOf i = p)
    (hf : p s = s.putFl d (shapeOf xs) (lanesFl s.mask f).1 (lanesFl s.mask f).2) (hk : kFits d xs) (hd : i.dests = [d]) :
    Computes s i d (fun k => (f (s.resultLane d xs k)).1) (laneFlags s.mask fun k => (f k).2) :=
  computes_fl he hp hf hk.uniform hd fun _ h => (lanes_get_ofFn (fun k => (f k).1) (resultLane_lt s d xs h)).symm

/-- A plan that puts a value a lane, without flags. -/
theorem computes_ofFn {xs : List Opnd} (f : Nat → Word) (he : exec i s = issue i p s) (hp : planOf i = p)
    (hf : p s = s.putVec d (shapeOf xs) (Lanes.ofFn f)) (hk : kFits d xs) (hd : i.dests = [d]) :
    Computes s i d (fun k => f (s.resultLane d xs k)) 0 :=
  computes_u he hp hf hk.uniform hd fun _ h => (lanes_get_ofFn f (resultLane_lt s d xs h)).symm

/-- A plan that puts a function of one source's lanes: where the source is uniform, every lane is lane 0's anyway. -/
theorem computes_map1 {a : Src} (f : Word → Word) (he : exec i s = issue i p s) (hp : planOf i = p)
    (hf : p s = s.putVec d (shape1 (s.rd a)) (map1 f (s.rd a))) (hk : kFits d [s.rd a]) (hd : i.dests = [d]) :
    Computes s i d (fun k => f ((s.rd a).vals.get k)) 0 :=
  computes_vec he hp hf hk.uniform hd (shape1_ok (rd_ok s a) f) fun _ h =>
    (lanes_get_ofFn (fun k => f ((s.rd a).vals.get k)) h).symm

/-- The same of two sources. -/
theorem computes_map2 {a b : Src} (f : Word → Word → Word) (he : exec i s = issue i p s) (hp : planOf i = p)
    (hf : p s = s.putVec d (shape2 (s.rd a) (s.rd2 a b)) (map2 f (s.rd a) (s.rd2 a b)))
    (hk : kFits d [s.rd a, s.rd2 a b]) (hd : i.dests = [d]) :
    Computes s i d (fun k => f ((s.rd a).vals.get k) ((s.rd2 a b).vals.get k)) 0 :=
  computes_vec he hp hf hk.uniform hd (shape2_ok (rd_ok s a) (rd2_ok s a b) f) fun _ h =>
    (lanes_get_ofFn (fun k => f ((s.rd a).vals.get k) ((s.rd2 a b).vals.get k)) h).symm

/-- A float operation of two sources rounds each element's value once (R222, R223). -/
theorem computes_float2 {f : FBlk} {r : RSel} {a b : Src} (op : Ctx → Val → Val → Val × Word)
    (he : exec i s = issue i p s) (hp : planOf i = p) (hf : p = float2 State.putFl f r op d a b)
    (hk : kFits d [s.rd a, s.rd2 a b]) (hd : i.dests = [d]) :
    Computes s i d
      (fun k => (s.floatLane f r (fun c v w _ => op c v w) (s.rd a) (s.rd2 a b) (s.rd2 a b)
        (s.resultLane d [s.rd a, s.rd2 a b] k)).1)
      (laneFlags s.mask fun k => (s.floatLane f r (fun c v w _ => op c v w) (s.rd a) (s.rd2 a b) (s.rd2 a b) k).2) :=
  computes_lanesFl _ he hp (congrFun hf s) hk hd

end

/-! ### Comparisons (R225) -/

section
variable {d : Dst} (s : State) (cc : FCc) (a b : Src)

/-- FCMP of FP32 words into a k register puts the ballot of the lanes in use. -/
theorem planFcmp_ballot (h : d.isK = true) : planFcmp .f32 cc d a b s = s.putVec d .uniform
    (Lanes.splat (maskOf fun i =>
      s.active i && fcmpHolds cc (f32 ((s.rd a).vals.get i)) (f32 ((s.rd2 a b).vals.get i)))) := by
  simp only [planFcmp, State.putCompare, h, if_true]
  rfl

/-- FCMP of FP32 words into another register puts a word of ones or zeros a lane. -/
theorem planFcmp_words (h : d.isK = false) : planFcmp .f32 cc d a b s = s.putVec d (shape2 (s.rd a) (s.rd2 a b))
    (map2 (fun x y => truth (fcmpHolds cc (f32 x) (f32 y))) (s.rd a) (s.rd2 a b)) := by
  simp only [planFcmp, State.putCompare, h, if_true, Bool.false_eq_true, if_false]
  rfl

/-- FCMP of packed elements puts ones or zeros an element. -/
theorem planFcmp_packed {f : FBlk} (h : f ≠ .f32) : planFcmp f cc d a b s = s.putVec d (shape2 (s.rd a) (s.rd2 a b))
    (map2 (fun x y => (f.build fun j =>
      (if fcmpHolds cc (f.fmt.value (f.elem x j)) (f.fmt.value (f.elem y j)) then 0xFFFF else 0, 0)).1)
      (s.rd a) (s.rd2 a b)) :=
  if_neg h

end

theorem fcmp_computes (s : State) (cc : FCc) (d : Dst) (a b : Src) :
    Computes s (.fcmp .f32 cc d a b) d (fun k =>
      if d.isK then maskOf fun i => s.active i && fcmpHolds cc (f32 ((s.rd a).vals.get i)) (f32 ((s.rd2 a b).vals.get i))
      else if fcmpHolds cc (f32 ((s.rd a).vals.get k)) (f32 ((s.rd2 a b).vals.get k)) then 0xFFFFFFFF else 0) 0 := by
  cases h : d.isK with
  | true => exact computes_splat (p := planFcmp .f32 cc d a b) rfl rfl (planFcmp_ballot s cc a b h) rfl
  | false =>
    exact computes_map2 (p := planFcmp .f32 cc d a b) _ rfl rfl (planFcmp_words s cc a b h) (kFits_of_not_isK h _) rfl

end Sys2Proof.Machine

open Sys2Proof Sys2Proof.Machine

/-- Settles O5: each plan puts one rounded value and its flags a lane. -/
theorem floatArithmetic : Obligations.FloatArithmetic := by
  intro s f r d a b c
  refine ⟨fun h => ⟨?_, ?_, ?_⟩, fun h => ?_⟩
  · exact computes_float2 (fun c x y => addVal c.down x y) rfl rfl rfl h rfl
  · exact computes_float2 (fun c x y => addVal c.down x y.negate) rfl rfl rfl h rfl
  · exact computes_float2 (fun _ x y => mulVal x y) rfl rfl rfl h rfl
  · exact computes_lanesFl
      (s.floatLane f .dflt (fun q x y z => fmaVal q.down x y z) (s.rd a) (s.rd2 a b) (s.rdc c)) rfl rfl rfl h rfl

/-- Settles O6: each plan puts one pattern a lane, without flags; FROUND's alone depends on the lane's place. -/
theorem floatComparisons : Obligations.FloatComparisons := by
  intro s f r cc d a b
  refine ⟨fun h => ⟨?_, ?_⟩, fcmp_computes s cc d a b, fun hf hd => ?_, fun h => ⟨?_, ?_⟩⟩
  · exact computes_map2 (fun x y => (f.build fun j => (minMax f.fmt true (f.elem x j) (f.elem y j), 0)).1)
      rfl rfl rfl h rfl
  · exact computes_map2 (fun x y => (f.build fun j => (minMax f.fmt false (f.elem x j) (f.elem y j), 0)).1)
      rfl rfl rfl h rfl
  · exact computes_map2 (p := planFcmp f cc d a b) _ rfl rfl (planFcmp_packed s cc a b hf) (kFits_of_not_isK hd _) rfl
  · exact computes_map1 (fun w => (f.build fun j => (2 ^ classBit f.fmt (f.elem w j), 0)).1) rfl rfl rfl h rfl
  · exact computes_ofFn
      (fun k => (f.build fun j =>
        (roundIntegral f.fmt (s.ctxAt r (k * f.count + j)) (f.elem ((s.rd a).vals.get k) j), 0)).1)
      rfl rfl rfl h rfl

/-- Settles O9: each plan puts one rounded value and its flags a lane. -/
theorem roundingConversions : Obligations.RoundingConversions := by
  intro s t q r d a b c anchor x y z w to_ from_ qn dq ac a1 a3 a4
  refine ⟨fun h => ⟨?_, ?_⟩, fun h => ⟨?_, ?_⟩, fun h => ?_⟩
  · exact computes_lanesFl to_ rfl rfl rfl h rfl
  · exact computes_lanesFl from_ rfl rfl rfl h rfl
  · exact computes_lanesFl qn rfl rfl rfl h rfl
  · exact computes_lanesFl dq rfl rfl rfl h rfl
  · exact computes_lanesFl ac rfl rfl rfl h rfl

end

section
/-! SUPPORT. Lanes (R238 to R242): results that are one word, and the general result of a scan, with their flags. -/

namespace Sys2Proof.Machine

open Sys2Proof

variable {s : State} {i : Instr} {p : Plan} {d : Dst}

/-- An instruction whose plan puts one word in every lane, with flags, computes it. -/
theorem computes_splatFl {x fl : Word} (he : exec i s = issue i p s) (hp : planOf i = p)
    (hf : p s = s.putFl d .uniform (Lanes.splat x) fl) (hd : i.dests = [d]) : Computes s i d (fun _ => x) fl :=
  computes he hp (hf.trans (putFl_ok fun _ => rfl)) (writes_vec_flags s.mask d .uniform _ fl) hd (fun _ _ => splat_ok x)
    fun _ h => (lanes_get_splat x h).symm

/-- An instruction whose plan puts a general result, with flags, computes it in a register that takes one. -/
theorem computes_generalFl (f : Nat → Word) {fl : Word} (he : exec i s = issue i p s) (hp : planOf i = p)
    (hf : p s = s.putFl d .general (Lanes.ofFn f) fl) (hk : d.isK = false) (hd : i.dests = [d]) : Computes s i d f fl :=
  computes he hp (hf.trans (putFl_ok fun h => absurd h (by simp [hk]))) (writes_vec_flags s.mask d .general _ fl) hd
    (fun _ _ => trivial) fun _ h => (lanes_get_ofFn f h).symm

end Sys2Proof.Machine

open Sys2Proof Sys2Proof.Machine

/-- Settles O11: a shuffle puts one value a lane; broadcast, vote and fold put one word, and a scan each lane's own. -/
theorem laneOperations : Obligations.LaneOperations := by
  intro s m v op ex d n a b c x tr fin seen
  refine ⟨fun h => ?_, computes_splat rfl rfl rfl rfl, ?_, computes_splatFl rfl rfl rfl rfl,
    completes_of_plan rfl rfl rfl, fun hd => computes_generalFl _ rfl rfl rfl hd rfl⟩
  · exact computes_ofFn
      (fun k => match shflLane m k ((s.rd2 a b).vals.get k) with
        | some t => x t
        | none => (s.rdc c).vals.get k) rfl rfl rfl h rfl
  · cases v <;> exact computes_splat rfl rfl rfl rfl

end

section
/-! SUPPORT. Split modes, FLAGS and FREE (R187, R207, R243, R244): what their plans answer. -/

namespace Sys2Proof.Machine

open Sys2Proof

variable {s : State} {i : Instr} {a : Src}

/-- An instruction whose plan puts one word, and no last result, computes it. -/
theorem computes_uni {p : Plan} {d : Dst} {x : Word} (he : exec i s = issue i p s) (hp : planOf i = p)
    (hf : p s = State.putUni d x) (hd : i.dests = [d]) : Computes s i d (fun _ => x) 0 :=
  computes he hp hf (writes_dst s.mask d .uniform _) hd (fun _ _ => splat_ok x) fun _ h => (lanes_get_splat x h).symm

/-- A source that an instruction takes uniform alone is so, where nothing holds the instruction back (R171). -/
theorem clear_uniform (hc : s.clear i = true) {sp : Spec} (h : sp ∈ i.uniformOnly) : s.isUniform sp = true := by
  simp only [State.clear, Bool.and_eq_true, List.isEmpty_iff] at hc
  obtain ⟨⟨-, hr⟩, -⟩ := hc
  simp only [State.readCauses, List.append_eq_nil_iff, ite_eq_right_iff, List.cons_ne_nil, imp_false, List.any_eq_true,
    Bool.not_eq_true', not_exists, not_and, Bool.not_eq_false] at hr
  exact hr.1.2 sp h

/-- SRND of a mode that is not reserved, and of one that is. -/
theorem planSrnd_mode (h : (s.rd a).u.toNat % 8 < 6) :
    planSrnd none a s = .ok fun t => t.modSp fun p => { p with rmode := rmodeOf (s.rd a).u } :=
  if_neg (by simp [h])

theorem planSrnd_reserved (hu : s.isUniform a.spec = true) (h : 6 ≤ (s.rd a).u.toNat % 8) :
    planSrnd none a s = s.stop .illegalOperand :=
  if_pos (by simp [h, hu])

/-- FLAGS and FLAGS.clr with no slow result open (R244). -/
theorem planFlags_settled (h : s.g.slow = []) (d : Dst) : planFlags d s = State.putUni d s.g.flags :=
  if_neg (not_not.mpr h)

theorem planFlagsClr_settled (h : s.g.slow = []) (d : Dst) (a : Src) :
    planFlagsClr d a s = .ok fun t => (t.writeUni d s.g.flags).modG fun g =>
      { g with flags := g.flags &&& ~~~((s.rd a).u &&& 31) } :=
  if_neg (not_not.mpr h)

/-- FREE in a diverged group, and in a group of one split with no register of the range pending (R187). -/
theorem planFree_diverged (h : s.g.splits.length ≠ 1) (n r : Nat) : planFree n r s = .ok fun t => t := if_pos h

theorem planFree_alone {n r : Nat} (h : s.g.splits.length = 1)
    (hp : ∀ j, j < r → Dst.v (n + j) ∉ s.pending s.cur.group) :
    planFree n r s = .ok fun t => ((List.range r).map (n + ·)).foldl (fun t j => t.modG fun g => g.release j) t := by
  have hn : (((List.range r).map (n + ·)).any fun j => (s.pending s.cur.group).contains (Dst.v j)) = false := by
    simpa using hp
  exact (if_neg (not_not.mpr h)).trans (if_neg (by rw [hn]; exact Bool.false_ne_true))

end Sys2Proof.Machine

open Sys2Proof Sys2Proof.Machine

/-- Settles O12: SFMT and SRND change the executing split alone, the reads put one word, and FREE's plan answers the
releases where it is the group's only split. -/
theorem modesAndFlags : Obligations.ModesAndFlags := by
  intro s d a n m r
  refine ⟨steers_of_plan rfl rfl rfl (redirects_modSp _), steers_of_plan rfl rfl rfl (redirects_modSp _),
    steers_of_plan rfl rfl rfl (redirects_modSp _), fun h => steers_of_plan rfl rfl (planSrnd_mode h) (redirects_modSp _),
    fun h hc => ?_, computes_uni rfl rfl rfl rfl, computes_uni rfl rfl rfl rfl, fun h => ⟨?_, ?_⟩, fun h => ?_,
    fun h hp => ?_⟩
  · exact issue_raises rfl rfl (planSrnd_reserved (clear_uniform hc (List.mem_singleton_self _)) h) hc
  · exact computes_uni rfl rfl (planFlags_settled h d) rfl
  · exact completes_of_plan rfl rfl (planFlagsClr_settled h d a)
  · exact steers_of_plan rfl rfl (planFree_diverged h n r) redirects_id
  · exact completes_of_plan rfl rfl (planFree_alone h hp)

end

section
/-! SUPPORT. Castling, the fumarole, contexts that leave, and zugzwang (R179 to R182, R344, R347, R391 to R401): what the
scheduler's steps write, and the branches in which they do nothing. -/

namespace Sys2Proof.Machine

open Sys2Proof

/-! ### Groups that change banks (R393, R397) -/

/-- Some groups change to a bank. -/
def State.toBank (b : Bank) (gs : List Nat) (s : State) : State :=
  gs.foldl (fun s g => s.setGroup g { s.group g with bank := b }) s

section
variable (b : Bank) (gs : List Nat) (s : State)

theorem toBank_only : s.toBank b gs = { s with groups := (s.toBank b gs).groups } := by
  induction gs generalizing s with
  | nil => rfl
  | cons g r ih => exact ih (s.setGroup g { s.group g with bank := b })

@[simp] theorem toBank_mem : (s.toBank b gs).mem = s.mem := by rw [toBank_only]
@[simp] theorem toBank_teams : (s.toBank b gs).teams = s.teams := by rw [toBank_only]
@[simp] theorem toBank_core (c : Nat) : (s.toBank b gs).core c = s.core c := by rw [toBank_only]; rfl

theorem toBank_group (k : Nat) :
    (s.toBank b gs).group k = if k ∈ gs then { s.group k with bank := b } else s.group k := by
  induction gs generalizing s with
  | nil => rfl
  | cons g r ih =>
    refine (ih (s.setGroup g { s.group g with bank := b })).trans ?_
    rw [State.group_setGroup]
    by_cases hk : k = g
    · subst hk; simp
    · simp [hk]

end

section
variable {s : State} {c k : Nat} {b : Bank}

/-- A live group is one that the state lists. -/
theorem mem_liveGroups : k ∈ s.liveGroups ↔ (s.group k).live = true := by
  refine ⟨fun h => (List.mem_filter.mp h).2, fun h => List.mem_filter.mpr ⟨List.mem_eraseDups.mpr ?_, h⟩⟩
  by_contra hn
  rw [State.group, tbl_get_unlisted hn] at h
  cases h

theorem mem_groupsIn : k ∈ s.groupsIn c b ↔ (s.group k).live = true ∧ s.coreOf k = c ∧ (s.group k).bank = b := by
  simp only [State.groupsIn, List.mem_filter, mem_liveGroups, Bool.and_eq_true, beq_iff_eq, decide_eq_true_eq]

/-- A bank whose groups all go to another is empty. -/
theorem groupsIn_toBank {gs : List Nat} {b' : Bank} (hb : b' ≠ b) (h : ∀ k ∈ s.groupsIn c b, k ∈ gs) :
    (s.toBank b' gs).groupsIn c b = [] := by
  refine List.eq_nil_iff_forall_not_mem.mpr fun k hk => ?_
  rw [mem_groupsIn, toBank_group, State.coreOf, State.team, toBank_teams] at hk
  split at hk
  · exact hb hk.2.2
  · next hn => exact hn (h k (mem_groupsIn.mpr hk))

end

/-! ### Asking for a castling (R344, R347) -/

section
variable (s : State) (cs : List Nat)

theorem askCastling_groups : (s.askCastling cs).groups = s.groups :=
  List.foldlRecOn (motive := fun t : State => t.groups = s.groups) cs _ rfl fun _ h _ _ => h

theorem askCastling_core (n : Nat) :
    (s.askCastling cs).core n = if n ∈ cs then { s.core n with castling := true } else s.core n := by
  induction cs generalizing s with
  | nil => rfl
  | cons c r ih =>
    refine (ih (s.setCore c { s.core c with castling := true })).trans ?_
    rw [State.core_setCore]
    by_cases hn : n = c
    · subst hn; simp
    · simp [hn]

end

section
variable {s : State} {c : Nat}

/-- A core is asked on which better work waits, or a context leaves. -/
theorem requestCastling_due
    (h : s.castlingDue c = true ∨ ((s.groupsIn c .live).any fun k => s.ctxOut (s.ctxOf k)) = true) :
    ((s.requestCastling c).core c).castling = true := by
  have hd : (s.castlingDue c || (s.groupsIn c .live).any fun k => s.ctxOut (s.ctxOf k)) = true :=
    Bool.or_eq_true_iff.mpr h
  simp only [State.requestCastling, askCastling_core, hd, if_true, List.singleton_append, List.mem_cons, true_or]

/-- Every core is asked of a span that a nested child needs. -/
theorem requestCastling_nest {p : Nat × Nat} (hp : p ∈ s.nestSpans c) {n : Nat} (hn : n ∈ s.spanCores p.1 p.2) :
    ((s.requestCastling c).core n).castling = true := by
  rw [State.requestCastling, askCastling_core, if_pos]
  exact List.mem_append_right _ (List.mem_flatMap.mpr ⟨p, hp, hn⟩)

theorem requestCastling_none (hd : s.castlingDue c = false)
    (hl : ((s.groupsIn c .live).any fun k => s.ctxOut (s.ctxOf k)) = false) (hn : s.nestSpans c = []) :
    s.requestCastling c = s := by
  simp only [State.requestCastling, hd, hl, hn]
  rfl

end

/-! ### The swap (R392, R393) -/

/-- Some teams reload their scratchpads' lines. -/
def State.reloads (ts : List Nat) (s : State) : State :=
  ts.foldl (fun s t => s.setTeam t { s.team t with reload := true }) s

section
variable (ts : List Nat) (s : State)

theorem reloads_only : s.reloads ts = { s with teams := (s.reloads ts).teams } := by
  induction ts generalizing s with
  | nil => rfl
  | cons t r ih => exact ih (s.setTeam t { s.team t with reload := true })

@[simp] theorem reloads_mem : (s.reloads ts).mem = s.mem := by rw [reloads_only]
@[simp] theorem reloads_group (k : Nat) : (s.reloads ts).group k = s.group k := by rw [reloads_only]; rfl
@[simp] theorem reloads_core (c : Nat) : (s.reloads ts).core c = s.core c := by rw [reloads_only]; rfl

end

section
variable {s : State} {c : Nat}

/-- The swap is a change of banks, of reloads and of its core. -/
theorem swapBanks_eq (s : State) (c : Nat) :
    let u := ((s.toBank .shadow (s.groupsIn c .live)).toBank .live (s.groupsIn c .shadow)).reloads
      ((s.groupsIn c .shadow).map teamOf).eraseDups
    s.swapBanks c = u.setCore c { u.core c with
      castling := false, liveBank := 1 - (u.core c).liveBank, last := none, loaded := none, requester := none } := rfl

theorem swapBanks_mem (s : State) (c : Nat) : (s.swapBanks c).mem = s.mem := by
  simp only [swapBanks_eq, State.setCore_mem, reloads_mem, toBank_mem]

theorem swapBanks_core (s : State) (c : Nat) : (s.swapBanks c).core c = { s.core c with
    castling := false, liveBank := 1 - (s.core c).liveBank, last := none, loaded := none, requester := none } := by
  simp only [swapBanks_eq, State.core_setCore, if_true, reloads_core, toBank_core]

theorem swapBanks_group (s : State) (c k : Nat) : (s.swapBanks c).group k =
    if k ∈ s.groupsIn c .shadow then { s.group k with bank := .live }
    else if k ∈ s.groupsIn c .live then { s.group k with bank := .shadow } else s.group k := by
  simp only [swapBanks_eq, State.group_setCore, reloads_group, toBank_group]
  split <;> split <;> rfl

/-- No group stands in two banks. -/
theorem groupsIn_disjoint {k : Nat} (h : k ∈ s.groupsIn c .live) : k ∉ s.groupsIn c .shadow := fun hs =>
  Bank.noConfusion ((mem_groupsIn.mp h).2.2.symm.trans (mem_groupsIn.mp hs).2.2)

theorem castle_swaps (h : (s.core c).castling = true) (ha : s.atPoints c = true) (n : Nat) :
    s.castle c n = (s.stopJob c n).swapBanks c := by
  simp only [State.castle, h, ha, Bool.not_true, Bool.or_self, Bool.false_eq_true, if_false]

theorem castle_waits (h : (s.core c).castling = false) (n : Nat) : s.castle c n = s := by
  simp only [State.castle, h, Bool.not_false, Bool.true_or, if_true]

end

/-! ### The fumarole (R393 to R399) -/

theorem leaveDone_only (s : State) (c : Nat) : s.leaveDone c = { s with ctxs := (s.leaveDone c).ctxs } := by
  simp only [State.leaveDone]
  split
  · split <;> rfl
  · rfl

section
variable (cs : List Nat) (s : State)

theorem leaveDones_only : cs.foldl State.leaveDone s = { s with ctxs := (cs.foldl State.leaveDone s).ctxs } := by
  induction cs generalizing s with
  | nil => rfl
  | cons c r ih =>
    rw [List.foldl_cons, ih, leaveDone_only s c]

@[simp] theorem leaveDones_mem : (cs.foldl State.leaveDone s).mem = s.mem := by rw [leaveDones_only]
@[simp] theorem leaveDones_group (k : Nat) : (cs.foldl State.leaveDone s).group k = s.group k := by
  rw [leaveDones_only]; rfl
@[simp] theorem leaveDones_core (c : Nat) : (cs.foldl State.leaveDone s).core c = s.core c := by
  rw [leaveDones_only]; rfl

end

section
variable {s : State} {c l : Nat}

/-- What the fumarole saves of a core's shadow bank: what it has not brought in itself, and what leaves the device. -/
def State.outgoing (s : State) (c : Nat) : List Nat :=
  (s.groupsIn c .shadow).filter fun k => (s.core c).loaded.isNone || s.ctxOut (s.ctxOf k)

theorem spillOut_eq (s : State) (c : Nat) :
    let u := s.toBank .saved (s.outgoing c)
    s.spillOut c = ((s.outgoing c).map s.ctxOf).eraseDups.foldl State.leaveDone
      (if (u.groupsIn c .shadow).isEmpty then u.setCore c { u.core c with loaded := none } else u) := rfl

theorem spillOut_mem (s : State) (c : Nat) : (s.spillOut c).mem = s.mem := by
  rw [spillOut_eq, leaveDones_mem]
  split <;> simp

theorem spillOut_group (s : State) (c k : Nat) : (s.spillOut c).group k =
    if k ∈ s.outgoing c then { s.group k with bank := .saved } else s.group k := by
  rw [spillOut_eq, leaveDones_group, ← toBank_group]
  split <;> rfl

/-- An emptied shadow bank has nothing loaded. -/
theorem spillOut_loaded (h : ∀ k ∈ s.groupsIn c .shadow, k ∈ s.outgoing c) :
    ((s.spillOut c).core c).loaded = none := by
  rw [spillOut_eq, leaveDones_core, groupsIn_toBank (by simp) h, List.isEmpty_nil, if_pos rfl,
    State.core_setCore, if_pos rfl]

/-- Saved groups come into a bank that the fumarole has finished with. -/
theorem loadIn_loads (h : s.comeBack c l ≠ []) (hb : s.groupsIn c .shadow = [] ∨ (s.core c).loaded ≠ none)
    (hp : (c, 1 - (s.core c).liveBank) ∈ (s.launch l).place) :
    let u := s.toBank .shadow (s.comeBack c l)
    s.loadIn c l = u.setCore c { u.core c with loaded := some l } := by
  have he : (s.comeBack c l).isEmpty = false := by simpa using h
  have hbusy : (!(s.groupsIn c .shadow).isEmpty && (s.core c).loaded.isNone) = false := by
    rcases hb with hb | hb
    · simp [hb]
    · simp [Option.isNone_eq_false_iff, Option.isSome_iff_ne_none.mpr hb]
  have hpl : (s.launch l).place.contains (c, 1 - (s.core c).liveBank) = true := List.contains_iff_mem.mpr hp
  simp only [State.loadIn, he, hbusy, hpl, Bool.not_true, Bool.or_self, Bool.false_eq_true, if_false]
  rfl

theorem loadIn_none (h : s.groupsIn c .saved = []) (l : Nat) : s.loadIn c l = s := by
  simp only [State.loadIn, State.comeBack, h, List.filter_nil, List.isEmpty_nil, Bool.true_or, if_true]

end

/-! ### Contexts that leave (R391, R400) -/

section
variable {s : State} {ctx since : Nat}

theorem leaveForcedHalt_soft (h : (s.ctx ctx).leaving = .soft since) : execLeaveForcedHalt ctx s =
    .next (if since + 800000 ≤ s.ticks 0 then s.castleOut ctx else s) := by
  simp only [execLeaveForcedHalt, h]

theorem leaveDone_saved (h : (s.ctx ctx).leaving = .out since)
    (hk : ∀ k ∈ s.groupsOfCtx ctx, (s.group k).bank = .saved) :
    s.leaveDone ctx = s.setCtx ctx { s.ctx ctx with leaving := .no, preq := false } := by
  have : ((s.groupsOfCtx ctx).all fun g => decide ((s.group g).bank = .saved)) = true := by simpa using hk
  simp only [State.leaveDone, h, this, if_true]

theorem leaveDone_waits {k : Nat} (hk : k ∈ s.groupsOfCtx ctx) (hb : (s.group k).bank ≠ .saved) :
    s.leaveDone ctx = s := by
  have : ((s.groupsOfCtx ctx).all fun g => decide ((s.group g).bank = .saved)) = false :=
    List.all_eq_false.mpr ⟨k, hk, by simpa using hb⟩
  simp only [State.leaveDone, this, Bool.false_eq_true, if_false]
  split <;> rfl

theorem leaveKill_saved (h : (s.ctx ctx).leaving = .out since)
    (hk : ∀ k ∈ s.groupsOfCtx ctx, (s.group k).bank = .saved) :
    execLeaveKill ctx s = .next (s.setCtx ctx { s.ctx ctx with leaving := .no, preq := false }) := by
  simp only [execLeaveKill, h, leaveDone_saved h hk, State.ctx_setCtx, if_true, decide_true, Bool.true_or]

theorem leaveKill_unsaved {k : Nat} (h : (s.ctx ctx).leaving = .out since) (hk : k ∈ s.groupsOfCtx ctx)
    (hb : (s.group k).bank ≠ .saved) : execLeaveKill ctx s =
      .next (if s.ticks 0 < since + 40000000 then s else s.killCtx ctx evKill none) := by
  simp only [execLeaveKill, h, leaveDone_waits hk hb, reduceCtorEq, decide_false, Bool.false_or, decide_eq_true_eq]

end

/-! ### The end of a context's launches (R391) -/

section
variable (s : State)

theorem launch_congr {t : State} (h : t.launches = s.launches) (k : Nat) : t.launch k = s.launch k :=
  congrArg (fun x : Tbl Launch => x.get Launch.absent k) h

theorem sweep_launches (pas : List Nat) : (s.sweep pas).launches = s.launches := rfl

theorem arriveDies_launches : s.arriveDies.launches = s.launches :=
  List.foldlRecOn (motive := fun t : State => t.launches = s.launches) _ _ rfl fun _ h _ _ => h

theorem markFaileds_launches (pas : List Nat) :
    (pas.foldl (fun s pa => s.markFailed (pa / 128)) s).launches = s.launches :=
  List.foldlRecOn (motive := fun t : State => t.launches = s.launches) pas _ rfl fun _ h _ _ => h

theorem discards_launches (gs : List Nat) :
    (gs.foldl (fun s g => s.setGroup g (s.group g).discard) s).launches = s.launches :=
  List.foldlRecOn (motive := fun t : State => t.launches = s.launches) gs _ rfl fun _ h _ _ => h

theorem discardLaunch_launches (l : Nat) : (s.discardLaunch l).launches = s.launches := by
  unfold State.discardLaunch
  exact (arriveDies_launches _).trans (discards_launches _ _)

theorem leaveDone_launch (c k : Nat) : (s.leaveDone c).launch k = s.launch k :=
  launch_congr s (by rw [leaveDone_only]) k

theorem post_launches (fn code unit ctx : Nat) (data : Option DWord) :
    (s.post fn code unit ctx data).launches = s.launches := by
  obtain ⟨m, rs, fs, ns, h⟩ := post_only (s := s) fn code unit ctx data
  rw [h]

theorem post_ctx (fn code unit ctx : Nat) (data : Option DWord) (c : Nat) :
    (s.post fn code unit ctx data).ctx c = s.ctx c := by
  obtain ⟨m, rs, fs, ns, h⟩ := post_only (s := s) fn code unit ctx data
  rw [h]
  rfl

/-- The end of a launch is its mark, on a state with the same launches. -/
theorem endLaunch_marks (l reason : Nat) (abnormal cut : Bool) (t : Option DWord) :
    ∃ u : State, u.launches = s.launches ∧ s.endLaunch l reason abnormal cut t =
      (u.setLaunch l { s.launch l with ended := true, abnormal := abnormal, seals := [] }).leaveDone
        (s.launch l).ctx := by
  refine ⟨_, ?_, rfl⟩
  dsimp only
  rw [sweep_launches, discardLaunch_launches, markFaileds_launches]

theorem endLaunch_launch (l reason : Nat) (abnormal cut : Bool) (t : Option DWord) (k : Nat) :
    (s.endLaunch l reason abnormal cut t).launch k =
      if k = l then { s.launch l with ended := true, abnormal := abnormal, seals := [] } else s.launch k := by
  obtain ⟨u, hu, h⟩ := endLaunch_marks s l reason abnormal cut t
  rw [h, leaveDone_launch, State.launch_setLaunch, launch_congr s hu]

theorem endLaunches_launch (ls : List Nat) (k : Nat) :
    (ls.foldl (fun s l => s.endLaunch l 6 true false none) s).launch k =
      if k ∈ ls then { s.launch k with ended := true, abnormal := true, seals := [] } else s.launch k := by
  induction ls generalizing s with
  | nil => rfl
  | cons l r ih =>
    rw [List.foldl_cons, ih, endLaunch_launch]
    by_cases hk : k = l
    · subst hk; simp
    · simp [hk]

/-- A context is killed by the end of its launches, its own mark, and the event. -/
theorem killCtx_marks (c code : Nat) (data : Option DWord) : ∃ u : State,
    u.launches = ((s.launchesOf c).foldl (fun s l => s.endLaunch l 6 true false none) s).launches ∧
    s.killCtx c code data =
      (u.setCtx c { u.ctx c with killed := true, leaving := .no }).post (u.fnOfCtx c) code 0 c data := by
  refine ⟨_, ?_, rfl⟩
  rw [arriveDies_launches]
  exact discards_launches _ _

theorem killCtx_killed (c code : Nat) (data : Option DWord) : ((s.killCtx c code data).ctx c).killed = true := by
  obtain ⟨u, -, h⟩ := killCtx_marks s c code data
  rw [h, post_ctx, State.ctx_setCtx, if_pos rfl]

theorem killCtx_launch (c code : Nat) (data : Option DWord) {k : Nat} (hk : k ∈ s.launchesOf c) :
    (s.killCtx c code data).launch k = { s.launch k with ended := true, abnormal := true, seals := [] } := by
  obtain ⟨u, hu, h⟩ := killCtx_marks s c code data
  rw [h, launch_congr (u.setCtx c _) (post_launches _ _ _ _ _ _), State.launch_setCtx, launch_congr _ hu,
    endLaunches_launch, if_pos hk]

end

/-! ### Zugzwang (R179 to R182) -/

/-- From `s` to `t` groups alone change, and no register's lanes. -/
def LanesKept (s t : State) : Prop :=
  t = { s with groups := t.groups } ∧ ∀ k n, ((t.group k).v n).lanes = ((s.group k).v n).lanes

theorem LanesKept.refl (s : State) : LanesKept s s := ⟨rfl, fun _ _ => rfl⟩

theorem LanesKept.trans {s t u : State} (h : LanesKept s t) (k : LanesKept t u) : LanesKept s u :=
  ⟨by rw [k.1, h.1], fun j n => (k.2 j n).trans (h.2 j n)⟩

/-- A spilled register reads as before. -/
theorem lanesKept_spill {s : State} {g n : Nat} {vals : Lanes} {q : Bool} (h : (s.group g).v n = .general vals q) :
    LanesKept s (s.setGroup g { s.group g with vregs := (s.group g).vregs.set n (.general vals true) }) := by
  refine ⟨rfl, fun k j => ?_⟩
  rw [State.group_setGroup]
  split
  · next hk =>
    rw [group_v_set, hk]
    split
    · next hj => rw [hj, h]; rfl
    · rfl
  · rfl

theorem spillOne_lanes (s : State) (c : Nat) : LanesKept s (s.spillOne c) := by
  simp only [State.spillOne]
  split
  · exact LanesKept.refl s
  · next g _ =>
    split
    · next n vals q hn hv =>
      rw [List.headD_eq_head?_getD, hn] at hv
      exact lanesKept_spill hv
    · exact LanesKept.refl s

theorem spillUntil_lanes (s : State) (c need k : Nat) : LanesKept s (s.spillUntil c need k) := by
  induction k generalizing s with
  | zero => exact LanesKept.refl s
  | succ k ih =>
    rw [State.spillUntil]
    split
    · exact LanesKept.refl s
    · exact (spillOne_lanes s c).trans (ih _)

section
variable {s : State} {c g need : Nat}

theorem zugzwang_idle (h : (s.core c).requester = none) : s.zugzwang c = s := by
  simp only [State.zugzwang, State.asker, h, Option.filter_none, Option.isNone_none, if_true]

theorem zugzwang_spills (h : s.asker c = some (g, need)) (hr : s.hasRoom c need = false) :
    s.zugzwang c = s.spillUntil c need 8192 := by
  simp only [State.zugzwang, h, hr, Bool.not_false, if_true]

theorem zugzwang_fits (h : s.asker c = some (g, need)) (hr : s.hasRoom c need = true) : s.zugzwang c =
    if s.wants g then s else s.setCore c { s.core c with requester := none } := by
  simp only [State.zugzwang, h, hr, Bool.not_true, Bool.false_eq_true, if_false]

end

/-! ### Shape codes of a save area (R398) -/

theorem saveCode_lt (r : VReg) : r.saveCode < 16 := by
  cases r with
  | general v q => cases q <;> simp [VReg.saveCode, VReg.code]
  | _ => simp [VReg.saveCode, VReg.code]

/-- The byte of two registers' codes. -/
theorem saveCodes_getD (gr : Group) {j : Nat} (h : j < 32) : gr.saveCodes.getD j 0 =
    BitVec.ofNat 8 ((gr.v (2 * j)).saveCode + 16 * (gr.v (2 * j + 1)).saveCode) := by
  rw [Group.saveCodes, List.getD_append _ _ _ _ (by simpa using h)]
  simp [h]

/-- Each register has its four bits of it. -/
theorem saveCodes_nibble (gr : Group) {n : Nat} (h : n < 64) :
    (gr.saveCodes.getD (n / 2) 0).toNat / 16 ^ (n % 2) % 16 = (gr.v n).saveCode := by
  have low := saveCode_lt (gr.v (2 * (n / 2)))
  have high := saveCode_lt (gr.v (2 * (n / 2) + 1))
  have hb : (gr.saveCodes.getD (n / 2) 0).toNat =
      (gr.v (2 * (n / 2))).saveCode + 16 * (gr.v (2 * (n / 2) + 1)).saveCode := by
    rw [saveCodes_getD gr (by omega), BitVec.toNat_ofNat, Nat.mod_eq_of_lt (by omega)]
  rcases Nat.mod_two_eq_zero_or_one n with hn | hn
  · have e : 2 * (n / 2) = n := by omega
    rw [e] at hb low
    rw [hb, hn, Nat.pow_zero, Nat.div_one]
    omega
  · have e : 2 * (n / 2) + 1 = n := by omega
    rw [e] at hb
    rw [hb, hn, Nat.pow_one]
    omega

end Sys2Proof.Machine

open Sys2Proof Sys2Proof.Machine

/-- Settles O58: each scheduler step is a change of banks, a mark on cores, contexts or launches, or a spill that keeps
the lanes; where its conditions fail it does nothing. -/
theorem castling : Obligations.Castling := by
  intro s c planes l ctx since g need n k gr
  refine ⟨saveCodes_nibble gr, ?_, fun hc hp => ?_, fun hc => ?_, fun hg hb hp => ?_, fun h => ?_,
    fun h => ⟨fun ht => ?_, fun ht => ?_⟩,
    fun h => ⟨fun hk => leaveKill_saved h hk, fun hk hb => ⟨fun ht => ?_, fun ht => ?_⟩⟩⟩
  · rintro rfl
    refine ⟨⟨fun h => ⟨_, rfl, askCastling_groups _ _, requestCastling_due h⟩,
      fun p hp n hn => ⟨_, rfl, requestCastling_nest hp hn⟩,
      fun hd hl hn => congrArg Host.Outcome.next (requestCastling_none hd hl hn)⟩,
      ⟨_, rfl, spillOut_mem s _, fun k hk => ?_, fun k hk => ?_, spillOut_loaded⟩,
      fun h => congrArg Host.Outcome.next (zugzwang_idle h),
      fun h => ⟨fun hr => ?_, fun hr hw => ?_, fun hr hw => ?_⟩⟩
    · exact (spillOut_group s _ k).trans (if_pos hk)
    · exact (spillOut_group s _ k).trans (if_neg hk)
    · exact ⟨_, congrArg Host.Outcome.next (zugzwang_spills h hr), spillUntil_lanes s _ need 8192⟩
    · exact congrArg Host.Outcome.next ((zugzwang_fits h hr).trans (if_pos hw))
    · exact congrArg Host.Outcome.next ((zugzwang_fits h hr).trans (if_neg (by simp [hw])))
  · refine ⟨_, congrArg Host.Outcome.next (castle_swaps hc hp planes), ?_, ?_, ?_, swapBanks_mem _ c, fun k hk => ?_,
      fun k hk => ?_, fun k hl hs => ?_⟩
    · rw [swapBanks_core]
    · rw [swapBanks_core]
    · rw [swapBanks_core]
    · rw [swapBanks_group, if_neg (groupsIn_disjoint hk), if_pos hk]
    · rw [swapBanks_group, if_pos hk]
    · rw [swapBanks_group, if_neg hs, if_neg hl]
  · exact congrArg Host.Outcome.next (castle_waits hc planes)
  · refine ⟨_, congrArg Host.Outcome.next (loadIn_loads hg hb hp), ?_, toBank_mem _ _ s, fun k hk => ?_,
      fun k hk => ?_⟩
    · rw [State.core_setCore, if_pos rfl]
    · exact (toBank_group _ _ s k).trans (if_pos hk)
    · exact (toBank_group _ _ s k).trans (if_neg hk)
  · exact congrArg Host.Outcome.next (loadIn_none h l)
  · exact (leaveForcedHalt_soft h).trans (by rw [if_pos ht])
  · exact (leaveForcedHalt_soft h).trans (by rw [if_neg (by omega)])
  · refine ⟨_, (leaveKill_unsaved h hk hb).trans (by rw [if_neg (by omega)]), killCtx_killed s ctx _ _,
      fun k hk => ?_⟩
    rw [killCtx_launch s ctx _ _ hk]
    exact ⟨rfl, rfl⟩
  · exact (leaveKill_unsaved h hk hb).trans (by rw [if_pos ht])

end

section
/-! SUPPORT. Pair results (R205, R206, R228): the leading part is a vector result, and shifts the last-result pair; the
trailing part is a write of the next register alone. -/

namespace Sys2Proof.Machine

open Sys2Proof

/-- A pair result is put under every mask and shape: its destinations are v registers, which take all (R175). -/
theorem putPair_ok (d : Nat) (sh : Sh) (f : Nat → Pair × Word) (m : Word) : State.putPair d sh f m = .ok fun t =>
    ((t.writeVec (.v d) sh (Lanes.ofFn fun k => (f k).1.s)).writeDst (.v (d + 1)) sh
      (Lanes.ofFn fun k => (f k).1.c)).orFlags (laneFlags m fun k => (f k).2) := rfl

/-- An instruction whose plan puts a pair a lane completes with both parts and the flags of the lanes in use. -/
theorem completes_putPair {s : State} {i : Instr} {p : Plan} {d : Nat} {sh : Sh} (f : Nat → Pair × Word)
    (he : exec i s = issue i p s) (hp : planOf i = p) (hf : p s = State.putPair d sh f s.mask) :
    Completes s i fun t =>
      ((t.writeVec (.v d) sh (Lanes.ofFn fun k => (f k).1.s)).writeDst (.v (d + 1)) sh
        (Lanes.ofFn fun k => (f k).1.c)).orFlags (laneFlags s.mask fun k => (f k).2) :=
  completes_of_plan he hp (hf.trans (putPair_ok d sh f s.mask))

end Sys2Proof.Machine

open Sys2Proof Sys2Proof.Machine

/-- Settles O8: each plan puts one pair a lane, of the sources read at issue. -/
theorem pairOperations : Obligations.PairOperations := by
  intro s d a b put x y px py
  refine ⟨?_, ?_, ?_, ?_⟩
  · exact completes_putPair (fun k => twoSum (x k) (y k)) rfl rfl rfl
  · exact completes_putPair (fun k => twoProd (x k) (y k)) rfl rfl rfl
  · exact completes_putPair (fun k => pairAdd (px k) (py k)) rfl rfl rfl
  · exact completes_putPair (fun k => pairNorm (px k)) rfl rfl rfl

end

section
/-! SUPPORT. Lane-wise words (R168, R214 to R220, R233 to R237): results under the affine rules, results of three sources,
comparisons and selections, packed words, and results with a slow path. -/

namespace Sys2Proof.Machine

open Sys2Proof

/-! ### Results under a shape rule of their own (R168 rules 4 to 8) -/

/-- A shape rule fits a one-source operation: the shape agrees with the lanes, and a uniform source gives a uniform
result. -/
structure ShapeFits1 (sh : Opnd → Sh) (f : Word → Word) : Prop where
  ok : ∀ {x : Opnd}, x.Ok → ShapeOk (sh x) (map1 f x)
  uniform : ∀ {x : Opnd}, x.sh = .uniform → sh x = .uniform

/-- The same of two sources. -/
structure ShapeFits2 (sh : Opnd → Opnd → Sh) (f : Word → Word → Word) : Prop where
  ok : ∀ {x y : Opnd}, x.Ok → y.Ok → ShapeOk (sh x y) (map2 f x y)
  uniform : ∀ {x y : Opnd}, x.sh = .uniform → y.sh = .uniform → sh x y = .uniform

theorem shapeNeg_fits : ShapeFits1 shapeNeg fun x => -x := ⟨shapeNeg_ok, fun hx => by simp only [shapeNeg, hx]⟩

theorem shapeAdd_fits : ShapeFits2 shapeAdd (· + ·) := ⟨shapeAdd_ok, fun hx hy => by simp only [shapeAdd, hx, hy]⟩

theorem shapeSub_fits : ShapeFits2 shapeSub (· - ·) := ⟨shapeSub_ok, fun hx hy => by simp only [shapeSub, hx, hy]⟩

theorem shapeMul_fits : ShapeFits2 shapeMul (· * ·) := ⟨shapeMul_ok, fun hx hy => by simp only [shapeMul, hx, hy]⟩

theorem shapeShl_fits : ShapeFits2 shapeShl shlWord := ⟨shapeShl_ok, fun hx hy => by simp only [shapeShl, hx, hy]⟩

section
variable {s : State} {i : Instr} {p : Plan} {d : Dst} {a b : Src}

theorem computes_shaped1 {sh : Opnd → Sh} {f : Word → Word} (hs : ShapeFits1 sh f) (he : exec i s = issue i p s)
    (hp : planOf i = p) (hf : p = plan1 d a sh f) (hk : kFits d [s.rd a]) (hd : i.dests = [d]) :
    Computes s i d (fun k => f ((s.rd a).vals.get k)) 0 :=
  computes_vec he hp (congrFun hf s) (fun h => hs.uniform (hk h _ (by simp))) hd (hs.ok (rd_ok s a)) fun _ h =>
    (lanes_get_ofFn (fun k => f ((s.rd a).vals.get k)) h).symm

theorem computes_shaped2 {sh : Opnd → Opnd → Sh} {f : Word → Word → Word} (hs : ShapeFits2 sh f)
    (he : exec i s = issue i p s) (hp : planOf i = p) (hf : p = plan2 d a b sh f) (hk : kFits d [s.rd a, s.rd2 a b])
    (hd : i.dests = [d]) : Computes s i d (fun k => f ((s.rd a).vals.get k) ((s.rd2 a b).vals.get k)) 0 :=
  computes_vec he hp (congrFun hf s) (fun h => hs.uniform (hk h _ (by simp)) (hk h _ (by simp))) hd
    (hs.ok (rd_ok s a) (rd2_ok s a b)) fun _ h =>
      (lanes_get_ofFn (fun k => f ((s.rd a).vals.get k) ((s.rd2 a b).vals.get k)) h).symm

/-! ### Results of three sources (R168 rules 3 and 10) -/

/-- A plan of three lane-wise sources: where all are uniform, every lane is lane 0's anyway. -/
theorem computes_map3 {c : CSrc} (f : Word → Word → Word → Word) (he : exec i s = issue i p s) (hp : planOf i = p)
    (hf : p = plan3 d a b c f) (hk : kFits d [s.rd a, s.rd2 a b, s.rdc c]) (hd : i.dests = [d]) :
    Computes s i d (fun k => f ((s.rd a).vals.get k) ((s.rd2 a b).vals.get k) ((s.rdc c).vals.get k)) 0 :=
  computes_vec he hp (congrFun hf s) hk.uniform hd (shape3_ok (rd_ok s a) (rd2_ok s a b) (rdc_ok s c) f) fun _ h =>
    (lanes_get_ofFn (fun k => f ((s.rd a).vals.get k) ((s.rd2 a b).vals.get k) ((s.rdc c).vals.get k)) h).symm

/-! ### Comparison and selection (R216, R217) -/

/-- A comparison into a k register puts the ballot of the lanes in use. -/
theorem putCompare_ballot (h : d.isK = true) (sh : Sh) (q : Nat → Bool) :
    s.putCompare d sh q = s.putVec d .uniform (Lanes.splat (maskOf fun i => s.active i && q i)) := if_pos h

/-- A comparison into another register puts a word of ones or zeros a lane. -/
theorem putCompare_words (h : d.isK = false) (sh : Sh) (q : Nat → Bool) :
    s.putCompare d sh q = s.putVec d sh (Lanes.ofFn fun i => truth (q i)) := if_neg (by simp [h])

/-- A plan that puts a general result, a word a lane, in a register that takes one. -/
theorem computes_general (f : Nat → Word) (he : exec i s = issue i p s) (hp : planOf i = p)
    (hf : p s = s.putVec d .general (Lanes.ofFn f)) (hk : d.isK = false) (hd : i.dests = [d]) : Computes s i d f 0 :=
  computes_vec he hp hf (fun h => absurd h (by simp [hk])) hd trivial fun _ h => (lanes_get_ofFn f h).symm

end

theorem icmp_computes (s : State) (cc : ICc) (d : Dst) (a b : Src) :
    Computes s (.icmp cc d a b) d (fun k =>
      if d.isK then maskOf fun i => s.active i && icmpHolds cc ((s.rd a).vals.get i) ((s.rd2 a b).vals.get i)
      else if icmpHolds cc ((s.rd a).vals.get k) ((s.rd2 a b).vals.get k) then 0xFFFFFFFF else 0) 0 := by
  cases h : d.isK with
  | true => exact computes_splat (p := planIcmp cc d a b) rfl rfl (putCompare_ballot h _ _) rfl
  | false =>
    exact computes_map2 (p := planIcmp cc d a b) (fun x y => truth (icmpHolds cc x y)) rfl rfl (putCompare_words h _ _)
      (kFits_of_not_isK h _) rfl

/-- SEL's result is general whatever its sources are, so that a k register cannot take it (R175, R217). -/
theorem sel_computes {d : Dst} (h : d.isK = false) (s : State) (a b : Src) (kn : Nat) :
    Computes s (.sel d a b kn) d
      (fun k => if (s.g.k kn).getLsbD k then (s.rd a).vals.get k else (s.rd2 a b).vals.get k) 0 :=
  computes_general (p := planSel d a b kn) _ rfl rfl rfl h rfl

/-! ### Packed words (R233) -/

/-- A word shifted right leaves room above it: what goes there by OR is added. -/
theorem shiftRight_or_ofNat_mul (c : Word) {n : Nat} (hn : n ≤ 32) (h : Nat) :
    (c >>> n) ||| BitVec.ofNat 32 (h * 2 ^ (32 - n)) = BitVec.ofNat 32 (c.toNat / 2 ^ n + h * 2 ^ (32 - n)) := by
  have hlow : c.toNat / 2 ^ n < 2 ^ (32 - n) := by
    rw [Nat.div_lt_iff_lt_mul (by positivity), ← pow_add, Nat.sub_add_cancel hn]
    exact c.isLt
  calc (c >>> n) ||| BitVec.ofNat 32 (h * 2 ^ (32 - n))
      = BitVec.ofNat 32 (c.toNat / 2 ^ n) ||| BitVec.ofNat 32 (h * 2 ^ (32 - n)) := by
        rw [← Nat.shiftRight_eq_div_pow, ← BitVec.toNat_ushiftRight, BitVec.ofNat_toNat, BitVec.setWidth_eq]
    _ = BitVec.ofNat 32 (2 ^ (32 - n) * h ||| c.toNat / 2 ^ n) := by
        rw [BitVec.ofNat_or, BitVec.or_comm, Nat.mul_comm]
    _ = BitVec.ofNat 32 (c.toNat / 2 ^ n + h * 2 ^ (32 - n)) := by
        rw [← Nat.two_pow_add_eq_or_of_lt hlow, Nat.add_comm, Nat.mul_comm]

/-- Two fields that come in above a word shifted right by the width of both. -/
theorem shiftRight_or_fields (c : Word) {w : Nat} (hw : 2 * w ≤ 32) (x y : Nat) :
    (c >>> (2 * w)) ||| BitVec.ofNat 32 (x * 2 ^ (32 - 2 * w) + y * 2 ^ (32 - w)) =
      BitVec.ofNat 32 (c.toNat / 2 ^ (2 * w) + x * 2 ^ (32 - 2 * w) + y * 2 ^ (32 - w)) := by
  have hy : x * 2 ^ (32 - 2 * w) + y * 2 ^ (32 - w) = (x + y * 2 ^ w) * 2 ^ (32 - 2 * w) := by
    rw [Nat.add_mul, Nat.mul_assoc, ← pow_add, show w + (32 - 2 * w) = 32 - w by omega]
  rw [Nat.add_assoc, hy, shiftRight_or_ofNat_mul c hw]

/-- PACK.b4 and PACK.b8: c moves down by two fields of `w` bits, and a's and b's low fields come in above it. -/
theorem packWord_fields {p : PackW} (hp : p ≠ .b16) (x y z : Word) : packWord p x y z =
    let w := if p = .b4 then 4 else 8
    BitVec.ofNat 32 (z.toNat / 2 ^ (2 * w) + x.toNat % 2 ^ w * 2 ^ (32 - 2 * w) + y.toNat % 2 ^ w * 2 ^ (32 - w)) := by
  cases p with
  | b4 => exact shiftRight_or_fields z (w := 4) (by decide) (x.toNat % 16) (y.toNat % 16)
  | b8 => exact shiftRight_or_fields z (w := 8) (by decide) (x.toNat % 256) (y.toNat % 256)
  | b16 => exact absurd rfl hp

/-- PACK of the narrow fields reads its three sources lane by lane. -/
theorem planPack_narrow {p : PackW} (hp : p ≠ .b16) (d : Dst) (a b : Src) (c : CSrc) :
    planPack p d a b c = plan3 d a b c (packWord p) := by
  cases p with
  | b4 => rfl
  | b8 => rfl
  | b16 => exact absurd rfl hp

theorem pack_computes {p : PackW} (hp : p ≠ .b16) {s : State} {d : Dst} {a b : Src} {c : CSrc}
    (hk : kFits d [s.rd a, s.rd2 a b, s.rdc c]) :
    Computes s (.pack p d a b c) d
      (fun k => packWord p ((s.rd a).vals.get k) ((s.rd2 a b).vals.get k) ((s.rdc c).vals.get k)) 0 :=
  computes_map3 (packWord p) rfl rfl (planPack_narrow hp d a b c) hk rfl

/-! ### The two paths of a slow unit (R214) -/

/-- A result with its flags on the path that the oracle takes: into the slow path, or at once. -/
def State.eitherPath (d : Dst) (sh : Sh) (v : Lanes) (fl : Word) (t : State) : State :=
  if t.choice then t.chosen.slowVec d sh v fl else (t.chosen.writeVec d sh v).orFlags fl

/-- A slow unit's result is put where the destination admits it (R175), whichever path it takes. -/
theorem putSlow_ok {s : State} {d : Dst} {sh : Sh} {v : Lanes} {fl : Word} (h : d.isK = true → sh = .uniform) :
    s.putSlow d sh v fl = .ok (State.eitherPath d sh v fl) := by
  rw [State.putSlow, if_neg]
  · rfl
  · simp only [Bool.and_eq_true, decide_eq_true_eq, not_and, not_not]
    exact h

/-- An instruction whose plan puts a slow unit's result, a value and flags a lane, completes on either path with it. -/
theorem completes_slow {s : State} {i : Instr} {p : Plan} {d : Dst} {xs : List Opnd} (f : Nat → Word × Word)
    (he : exec i s = issue i p s) (hp : planOf i = p)
    (hf : p s = s.putSlow d (shapeOf xs) (lanesFl s.mask f).1 (lanesFl s.mask f).2) (hk : kFits d xs) :
    Completes s i (State.eitherPath d (shapeOf xs) (lanesFl s.mask f).1 (lanesFl s.mask f).2) :=
  completes_of_plan he hp (hf.trans (putSlow_ok hk.uniform))

/-- A slow unit of one source. -/
theorem completes_slow1 {s : State} {i : Instr} {f : FBlk} {r : RSel} {d : Dst} {a : Src} {op : Val → Val × Word}
    (hk : kFits d [s.rd a]) (he : exec i s = issue i (float1 State.putSlow f r op d a) s)
    (hp : planOf i = float1 State.putSlow f r op d a) :
    let q := lanesFl s.mask (s.floatLane f r (fun _ v _ _ => op v) (s.rd a) (s.rd a) (s.rd a))
    Completes s i (State.eitherPath d (shapeOf [s.rd a]) q.1 q.2) :=
  completes_slow _ he hp rfl hk

end Sys2Proof.Machine

open Sys2Proof Sys2Proof.Machine

/-- Settles O1: each plan puts one word a lane; the affine rules of the sum, the difference, the product and the negation
agree with it. -/
theorem integerArithmetic : Obligations.IntegerArithmetic := by
  intro s sg d a b
  refine ⟨fun h => ⟨?_, ?_, ?_, ?_, ?_, ?_, ?_, ?_⟩, fun h => ⟨?_, ?_⟩⟩
  · exact computes_shaped2 shapeAdd_fits rfl rfl rfl h rfl
  · exact computes_shaped2 shapeSub_fits rfl rfl rfl h rfl
  · exact computes_shaped2 shapeMul_fits rfl rfl rfl h rfl
  · exact computes_map2 (addSat sg) rfl rfl rfl h rfl
  · exact computes_map2 (subSat sg) rfl rfl rfl h rfl
  · exact computes_map2 (mulHigh sg) rfl rfl rfl h rfl
  · exact computes_map2 (minWord sg) rfl rfl rfl h rfl
  · exact computes_map2 (maxWord sg) rfl rfl rfl h rfl
  · exact computes_shaped1 shapeNeg_fits rfl rfl rfl h rfl
  · exact computes_map1 absWord rfl rfl rfl h rfl

/-- Settles O2: each plan puts one word a lane; the affine rule of SHL agrees with it. -/
theorem logicAndShifts : Obligations.LogicAndShifts := by
  intro s d a b sgn pos len
  refine ⟨fun h => ⟨?_, ?_, ?_, ?_, ?_, ?_, ?_, ?_⟩, fun h => ⟨?_, ?_, ?_, ?_⟩⟩
  · exact computes_map2 (· &&& ·) rfl rfl rfl h rfl
  · exact computes_map2 (· ||| ·) rfl rfl rfl h rfl
  · exact computes_map2 (· ^^^ ·) rfl rfl rfl h rfl
  · exact computes_map2 (fun x y => x &&& ~~~y) rfl rfl rfl h rfl
  · exact computes_shaped2 shapeShl_fits rfl rfl rfl h rfl
  · exact computes_map2 shrWord rfl rfl rfl h rfl
  · exact computes_map2 sarWord rfl rfl rfl h rfl
  · exact computes_map2 rotlWord rfl rfl rfl h rfl
  · exact computes_map1 (bfeWord sgn pos len) rfl rfl rfl h rfl
  · exact computes_map1 popcWord rfl rfl rfl h rfl
  · exact computes_map1 clzWord rfl rfl rfl h rfl
  · exact computes_map1 brevWord rfl rfl rfl h rfl

/-- Settles O3: the three-source plans put one word a lane; a comparison puts words or their ballot, and a selection the
chosen lanes. -/
theorem compareSelectDot : Obligations.CompareSelectDot := by
  intro s d a b c f cc kn
  refine ⟨fun h => ⟨?_, ?_, ?_⟩, icmp_computes s cc d a b, fun h => sel_computes h s a b kn⟩
  · exact computes_map3 (fun x y z => x * y + z) rfl rfl rfl h rfl
  · exact computes_map3 (dotWord f) rfl rfl rfl h rfl
  · exact computes_map3 bfiWord rfl rfl rfl h rfl

/-- Settles O7: each plan puts its rounded lanes and their flags on the path that the oracle takes. -/
theorem slowFloat : Obligations.SlowFloat := by
  intro s f r d a b put one
  refine ⟨fun h => ?_, fun h => ⟨?_, ?_, ?_, ?_, ?_, ?_, ?_, ?_, ?_, ?_⟩⟩
  · exact completes_slow (s.floatLane f r (fun _ v w _ => divVal v w) (s.rd a) (s.rd2 a b) (s.rd2 a b)) rfl rfl rfl h
  all_goals exact completes_slow1 h rfl rfl

/-- Settles O10: each plan puts one word a lane, without flags; the narrow PACKs' OR of fields is their sum. -/
theorem elementMoves : Obligations.ElementMoves := by
  intro s p t w d a b c
  refine ⟨fun h => ⟨?_, ?_⟩, fun h => ⟨?_, ?_⟩, fun hp h => ?_, fun h => ?_⟩
  · exact computes_map1 (fun x => residueOf x.toInt) rfl rfl rfl h rfl
  · exact computes_map1 (fun x => BitVec.ofInt 32 (crtDecode x)) rfl rfl rfl h rfl
  · exact computes_map2 (unpkWord t) rfl rfl rfl h rfl
  · exact computes_map2 (fun x y => BitVec.ofNat 32 (x.toNat % 65536 + y.toNat % 65536 * 2 ^ 16)) rfl rfl rfl h rfl
  · simpa only [packWord_fields hp] using pack_computes hp h
  · exact computes_map3 (permWord w) rfl rfl rfl h rfl

end

section
/-! SUPPORT. The matrix instructions at issue (R245, R253, R256, R259 to R273): their checks pass where what they name is
there, and the job that their plans then give to MX. -/

namespace Sys2Proof.Machine

open Sys2Proof

/-! ### Checks that pass -/

/-- Lanes without a cause of their own have no winning cause (R382). -/
theorem winningCause_none {rs : List (Nat × LaneRes)} (h : ∀ r ∈ rs, ∀ c i, r.2 ≠ .bad c i) : winningCause rs = none := by
  have hn : (rs.filterMap fun r => match r.2 with
      | .bad c _ => some (true, c)
      | _ => none) = [] := List.filterMap_eq_nil_iff.mpr fun r hr => by
    have := h r hr
    cases hq : r.2 with
    | bad c i => exact absurd hq (this c i)
    | _ => rfl
  exact congrArg worstOf hn

section
variable {s : State} {a : DWord} {n al : Nat} {k : Except Stop (State → State)}

/-- What a matrix instruction's plan goes on with where MX is free and it names what it may (R245, R253). -/
theorem mxChecks_pass {bad : Bool} (hm : s.mxFree = true) (hb : bad = false) :
    (if (!s.mxFree) = true then .error .stall else if bad = true then s.stop .illegalOperand else k) = k := by
  rw [hm, hb]
  rfl

/-- While MX is not free it does not issue. -/
theorem mxChecks_busy (hm : s.mxFree = false) : (if (!s.mxFree) = true then .error .stall else k) = .error .stall := by
  rw [hm]
  rfl

/-- What it may not name raises ILLEGAL_OPERAND. -/
theorem mxChecks_illegal {bad : Bool} (hm : s.mxFree = true) (hb : bad = true) :
    (if (!s.mxFree) = true then .error .stall else if bad = true then s.stop .illegalOperand else k) =
      .error (.raise (s.unit .illegalOperand 0)) := by
  rw [hm, hb]
  rfl

theorem localChecks_pass {rs : List (Nat × LaneRes)} (h : ∀ r ∈ rs, r.2 = .away) : s.localChecks a rs k = k := by
  have hn : winningCause rs = none := winningCause_none fun r hr c i => by simp [h r hr]
  simp only [State.localChecks, hn]

/-- A run of bytes inside the team region passes its checks (R109, R122). -/
theorem wholeChecks_inRegion (h : s.inRegion a n al) : s.wholeChecks a n al k = k := by
  obtain ⟨hs, hn, ha⟩ := h
  refine localChecks_pass fun r hr => ?_
  obtain ⟨i, -, rfl⟩ := List.mem_map.mp hr
  simp only [State.localCause, if_neg (Nat.not_le.mpr hs), ha, Nat.not_lt.mpr hn, ne_eq, not_true_eq_false, decide_false]
  rfl

/-- Rows inside the team region pass theirs. -/
theorem rowChecks_inRegion (h : s.rowsInRegion a n) : s.rowChecks a n k = k := by
  obtain ⟨hs, ha, hn⟩ := h
  refine localChecks_pass fun r hr => ?_
  obtain ⟨i, hi, rfl⟩ := List.mem_map.mp hr
  obtain ⟨hi, hact⟩ := mem_lanesOf.mp hi
  simp only [if_neg (Nat.not_le.mpr hs), ha, Nat.not_lt.mpr (hn i hi hact), ne_eq, not_true_eq_false, decide_false]
  rfl

/-- Bytes of the region that the home gives now are read with their lines filled (R113, R256, R282). -/
theorem openRange_filled {o : Nat} {u : State} (hs : s.settled s.cur.group = true)
    (ho : s.homeOpen s.cur.group .load false (.scr (teamOf s.cur.group) o) n = true)
    (hf : s.fillRange s.cur.group o n s.priv s.choice = .ok u) (k : State → List Byte → Except Stop (State → State)) :
    s.openRange o n k = k u (Memory.bytes (u.team (teamOf s.cur.group)).scratch o n) := by
  simp only [State.openRange, hs, ho, hf, Bool.not_true, Bool.or_self, Bool.false_eq_true, if_false]

/-- An MMF whose macros hold its format and whose tiles are EMPTY breaches nothing (R245, R266). -/
theorem mmf_names {f : MFmt} {q m c w g : Nat} (hm : s.macrosOk m w = true) (hq : s.tilesOk q c = true)
    (hf : ∀ k, k < w → (s.macroOf g (m + k)).tag = f.tag) (ht : ∀ k, k < c → (s.g.tile (q + k)).st = .empty) :
    (!s.macrosOk m w || !s.tilesOk q c || ((List.range w).any fun k => decide ((s.macroOf g (m + k)).tag ≠ f.tag)) ||
      ((List.range c).any fun k => decide ((s.g.tile (q + k)).st ≠ .empty))) = false := by
  simp only [Bool.or_eq_false_iff, List.any_eq_false, List.mem_range, decide_eq_true_eq, not_not, Bool.not_eq_false']
  exact ⟨⟨⟨hm, hq⟩, hf⟩, ht⟩

/-- An instruction whose plan answers a stall changes nothing. -/
theorem stalls_of_plan {i : Instr} {p : Plan} (he : exec i s = issue i p s) (hp : planOf i = p)
    (hf : p s = .error .stall) (hc : s.clear i = true) : exec i s = .next s := he.trans (issue_stop hp hf hc)

end

end Sys2Proof.Machine

open Sys2Proof Sys2Proof.Machine

/-- Settles O33: each plan passes its checks and answers the gift of its job, or stops at the first that fails. -/
theorem matrixIssue : Obligations.MatrixIssue := by
  intro s p lowh hold q m c lo a tag f bf t d b g mmr x
  refine ⟨fun hb hc => stalls_of_plan rfl rfl (mxChecks_busy hb) hc, fun hb hc => stalls_of_plan rfl rfl (mxChecks_busy hb) hc,
    fun hm => ⟨fun h hc => ?_, fun h hc => ?_, fun h hc => ?_, fun h hr => ?_, fun h hr => ?_, fun h hq hf ht hr => ?_,
      fun h => ?_, fun h hr => ?_, fun h hr => ?_, fun h => ?_⟩⟩
  · exact issue_raises rfl rfl (mxChecks_illegal hm (by rw [h]; rfl)) hc
  · exact issue_raises rfl rfl (mxChecks_illegal hm (by rw [h]; rfl)) hc
  · cases hold <;> exact issue_raises rfl rfl (mxChecks_illegal hm h) hc
  · exact completes_of_plan rfl rfl ((mxChecks_pass hm (by rw [h]; rfl)).trans (wholeChecks_inRegion hr))
  · cases hold <;> exact completes_of_plan rfl rfl ((mxChecks_pass hm h).trans (rowChecks_inRegion hr))
  · exact completes_of_plan rfl rfl ((mxChecks_pass hm (mmf_names h hq hf ht)).trans (rowChecks_inRegion hr))
  · exact completes_of_plan rfl rfl (mxChecks_pass hm (by rw [h]; rfl))
  · exact completes_of_plan rfl rfl ((mxChecks_pass hm (by rw [h]; rfl)).trans (wholeChecks_inRegion hr))
  · exact completes_of_plan rfl rfl ((mxChecks_pass hm (by rw [h]; rfl)).trans (wholeChecks_inRegion hr))
  · exact completes_of_plan rfl rfl (mxChecks_pass hm (by rw [h]; rfl))

end

section
/-! SUPPORT. What MMC, QLOAD and QDRAIN read and check as they issue (R256, R260, R263, R270 to R273). -/

namespace Sys2Proof.Machine

open Sys2Proof

/-! ### QDRAIN's rows (R271) -/

/-- The element that stands for a row is one of the row's. -/
theorem rowStands_mem (es : List (Nat × Nat × DWord × LaneRes)) :
    ∀ x, rowStands es = some x → ∃ e ∈ es, x = e.2.2 := by
  unfold rowStands
  refine List.foldlRecOn (motive := fun w => ∀ x, w = some x → ∃ e ∈ es, x = e.2.2) es _ (fun _ h => nomatch h)
    fun w hw e he x hx => ?_
  have key : some x = some e.2.2 ∨ some x = w := by
    split at hx
    · exact .inl hx.symm
    · split at hx
      · split at hx
        · exact .inl hx.symm
        · exact .inr hx.symm
      · exact .inl hx.symm
      · exact .inr hx.symm
  rcases key with h | h
  · exact ⟨e, he, Option.some.inj h⟩
  · exact hw x h.symm

/-- A lane that reaches its bytes. -/
theorem good_iff {r : LaneRes} : r.good = true ↔ ∃ t, r = .ok t := by
  cases r <;> simp [LaneRes.good]

section
variable {s : State} {f : DFmt} {r : RSel} {z : Bool} {q c sv : Nat} {a : Src}

/-- QDRAIN whose tiles are its group's, EMPTY where it zeroes them, and whose elements all reach their bytes gives MX its
job. -/
theorem drainPlan_gives (i : Instr) (hm : s.mxFree = true) (hq : s.tilesOk q c = true)
    (hz : z = true → ∀ k, k < c → (s.g.tile (q + k)).st = .empty)
    (hr : ∀ row ∈ (lanesOf s.mask).map fun i =>
        (i, s.drainRow s.cur.group ⟨f, r, z, q, c, s.rdPair a 0, (s.rdv sv).u⟩ s.priv s.choice i),
      ∀ e ∈ row.2, e.2.2.2.good = true ∧ s.g.logClash .gen e.2.2.1 f.bytes = false) :
    drainPlan i f r z a q c sv s = .ok (State.given { s.newJob i (s.rdPair a 0) with stride := (s.rdv sv).u }) := by
  have hnames : (!s.tilesOk q c || (z && (List.range c).any fun k => decide ((s.g.tile (q + k)).st ≠ .empty))) = false := by
    simpa [hq] using hz
  refine (mxChecks_pass hm hnames).trans ?_
  generalize ((lanesOf s.mask).map fun i =>
    (i, s.drainRow s.cur.group ⟨f, r, z, q, c, s.rdPair a 0, (s.rdv sv).u⟩ s.priv s.choice i)) = rows at hr ⊢
  have hall : ∀ x ∈ rows.flatMap fun r => r.2.map fun e => e.2.2.2, ∃ t, x = .ok t := fun x hx => by
    obtain ⟨row, hrow, hx⟩ := List.mem_flatMap.mp hx
    obtain ⟨e, he, rfl⟩ := List.mem_map.mp hx
    exact good_iff.mp (hr row hrow e he).1
  dsimp only
  rw [winningCause_none, checkedPa_good, if_neg, if_neg]
  · rfl
  -- no cause of an element waits for an entry of the operand log
  · simp only [Bool.and_eq_true, List.any_eq_true, decide_eq_true_eq]
    rintro ⟨⟨x, hx, hc⟩, -⟩
    obtain ⟨t, rfl⟩ := hall x hx
    exact hc rfl
  -- no team is castled out, and no pending entry of the log covers an element
  · simp only [Bool.or_eq_true, List.contains_iff_mem, List.any_eq_true]
    rintro (hx | ⟨row, hrow, e, he, hl⟩)
    · obtain ⟨t, ht⟩ := hall _ hx
      exact nomatch ht
    · simp [(hr row hrow e he).2] at hl
  · intro x hx
    obtain ⟨y, hy, rfl⟩ := List.mem_map.mp hx
    exact good_iff.mpr (hall y hy)
  -- the element that stands for a row is without a cause
  · intro x hx c k
    obtain ⟨row, hrow, rfl⟩ := List.mem_map.mp hx
    cases hst : rowStands row.2 with
    | none => simp
    | some y =>
      obtain ⟨e, he, rfl⟩ := rowStands_mem _ _ hst
      obtain ⟨t, ht⟩ := good_iff.mp (hr row hrow e he).1
      simp [ht]

end

/-! ### The reads of MMC and QLOAD (R256, R260, R263, R272, R273) -/

section
variable {s u : State} {a : Src}

/-- MMC whose descriptor, record and rows can be read gives MX its job with the descriptor's bytes. -/
theorem mmcPlan_gives (i : Instr) {x : Lad} {rows : List (Nat × Except (Cause × Nat × DWord) (List Nat))}
    (hm : s.mxFree = true) (hw : s.sp.wait = none) (hb : s.badLadder x a = false)
    (hin : s.inRegion (s.localBase a) 32 16) (hs : s.settled s.cur.group = true)
    (ho : s.homeOpen s.cur.group .load false (.scr (teamOf s.cur.group) (s.localBase a).toNat) 32 = true)
    (hf : s.fillRange s.cur.group (s.localBase a).toNat 32 s.priv s.choice = .ok u) {desc : List Byte}
    (hd : Memory.bytes (u.team (teamOf s.cur.group)).scratch (s.localBase a).toNat 32 = desc)
    (hc : (u.convRows s.cur.group s.priv s.choice desc x.pair.nib s.mask).2 = .ok rows)
    (hr : ∀ e ∈ rows, ∃ row, e.2 = .ok row) :
    mmcPlan i x a s = .ok fun v => State.given { s.newJob i (s.localBase a) with desc := desc }
      (v.convRows s.cur.group s.priv v.choice desc x.pair.nib s.mask).1 := by
  refine (afterFault_none hw _).trans <| (mxChecks_pass hm hb).trans <| (wholeChecks_inRegion hin).trans <|
    (openRange_filled hs ho hf _).trans ?_
  dsimp only
  rw [hd, hc]
  dsimp only
  rw [winningCause_none]
  · rfl
  · intro x hx c k
    obtain ⟨e, he, rfl⟩ := List.mem_map.mp hx
    obtain ⟨row, hrow⟩ := hr e he
    simp [hrow]

/-- QLOAD whose images can be read and are well-formed gives MX its job with the images' bytes. -/
theorem planQload_gives {q c : Nat} (hm : s.mxFree = true) (hw : s.sp.wait = none) (hq : s.tilesOk q c = true)
    (hin : s.inRegion (s.localBase a) (imageBytes * c) 64) (hs : s.settled s.cur.group = true)
    (ho : s.homeOpen s.cur.group .load false (.scr (teamOf s.cur.group) (s.localBase a).toNat) (imageBytes * c) = true)
    (hf : s.fillRange s.cur.group (s.localBase a).toNat (imageBytes * c) s.priv s.choice = .ok u) {bs : List Byte}
    (hd : Memory.bytes (u.team (teamOf s.cur.group)).scratch (s.localBase a).toNat (imageBytes * c) = bs)
    (hi : ∀ k, k < c → (tileOfImage ((bs.drop (imageBytes * k)).take imageBytes)).isSome = true) :
    planQload a q c s = .ok fun v => State.given { s.newJob (.qload a q c) (s.localBase a) with desc := bs }
      (match v.fillRange s.cur.group (s.localBase a).toNat (imageBytes * c) s.priv v.choice with
      | .ok w => w
      | .error _ => v) := by
  refine (afterFault_none hw _).trans <| (mxChecks_pass hm (by rw [hq]; rfl)).trans <|
    (wholeChecks_inRegion hin).trans <| (openRange_filled hs ho hf _).trans ?_
  rw [hd]
  refine (if_neg ?_).trans ?_
  · simp only [List.any_eq_true, List.mem_range, not_exists, not_and]
    exact fun k hk => by simp [Option.isSome_iff_ne_none.mp (hi k hk)]
  · rfl

end

end Sys2Proof.Machine

open Sys2Proof Sys2Proof.Machine

/-- Settles O34: what each of the three reads as it issues is there, so that its plan answers the gift of its job. -/
theorem matrixIssueReads : Obligations.MatrixIssueReads := by
  intro s u p lowh hold z q m c lo sv a f r rows b g mmc x bytes d drained hm hw
  refine ⟨fun hb hin hs ho hf hc hr => ?_, fun hq hin hs ho hf hi => ?_, fun hq hz hr => ?_⟩
  · cases hold <;> exact completes_of_plan rfl rfl (mmcPlan_gives _ hm hw hb hin hs ho hf rfl hc hr)
  · exact completes_of_plan rfl rfl (planQload_gives hm hw hq hin hs ho hf rfl hi)
  · exact completes_of_plan rfl rfl (drainPlan_gives _ hm hq hz hr)

end

section
/-! SUPPORT. Bit planes and residues (R189, R195, R249): an activation is the weighted sum of its planes, a ladder's planes
add up to the exact product-sum, and residues are exact within the bound that no sum of a ladder leaves. -/

namespace Sys2Proof.Machine

open Sys2Proof

/-! ### Planes of a ladder (R249) -/

theorem planesDown_all (w : Nat) : planesDown (w - 1) w = (List.range w).reverse := by
  rw [planesDown, List.range_eq_range', List.reverse_range', ← List.range_eq_range', Nat.zero_add]

/-- Two ranges that meet are one range of planes. -/
theorem planesDown_append (hi k n : Nat) : planesDown hi k ++ planesDown (hi - k) n = planesDown hi (k + n) := by
  simp only [planesDown, List.range_add, List.map_append, List.map_map]
  congr 1
  exact List.map_congr_left fun j _ => by simp only [Function.comp_apply]; omega

/-- Bits below `n`, weighted, add up to the number modulo 2ⁿ. -/
theorem bits_sum (x n : Nat) :
    ((List.range n).map fun p => (2 : Int) ^ p * if bitOf x p then 1 else 0).sum = (x % 2 ^ n : Nat) := by
  induction n with
  | zero => simp [Nat.mod_one]
  | succ n ih =>
    rw [List.range_succ, List.map_append, List.sum_append, ih, Nat.mod_pow_succ]
    have hb : bitOf x n = true ↔ x / 2 ^ n % 2 = 1 := by rw [bitOf, beq_iff_eq]
    simp only [List.map_cons, List.map_nil, List.sum_cons, List.sum_nil, hb]
    rcases Nat.mod_two_eq_zero_or_one (x / 2 ^ n) with h | h <;> simp [h]

/-- An activation is the sum of its planes' weights over its set bits, from the top plane down. -/
theorem signedOf_eq_planes {w x : Nat} (hw : 0 < w) (hx : x < 2 ^ w) : signedOf w x =
    ((planesDown (w - 1) w).map fun p => planeWeight (w - 1) p * if bitOf x p then 1 else 0).sum := by
  obtain ⟨n, rfl⟩ := Nat.exists_eq_add_one_of_ne_zero hw.ne'
  have hlow : ((List.range n).map fun p => planeWeight n p * if bitOf x p then (1 : Int) else 0).sum = (x % 2 ^ n : Nat) := by
    rw [← bits_sum]
    congr 1
    exact List.map_congr_left fun p hp => by rw [planeWeight, if_neg (List.mem_range.mp hp).ne]
  rw [planesDown_all, List.map_reverse, List.sum_reverse, Nat.add_sub_cancel, List.range_succ, List.map_append,
    List.sum_append, hlow, signedOf, Nat.add_sub_cancel]
  simp only [List.map_cons, List.map_nil, List.sum_cons, List.sum_nil, planeWeight, if_true, bitOf, beq_iff_eq]
  rw [pow_succ] at hx ⊢
  split
  · rename_i h
    simp [Nat.div_eq_of_lt h, Nat.mod_eq_of_lt h]
  · rename_i h
    have hd : x / 2 ^ n = 1 := Nat.div_eq_of_lt_le (by omega) (by omega)
    have hm : x % 2 ^ n = x - 2 ^ n := by rw [Nat.mod_eq_sub_mod (by omega), Nat.mod_eq_of_lt (by omega)]
    rw [hd, hm, Nat.cast_sub (by omega)]
    push_cast
    simp
    ring

/-- The planes of a range add up to the product-sum of what each activation has in those planes. -/
theorem planes_productSum (t : Nat) (ps row : List Nat) (ws : List Int) :
    (ps.map fun p => planeWeight t p * planeSum p row ws).sum =
      ((row.zip ws).map fun x => (ps.map fun p => planeWeight t p * if bitOf x.1 p then 1 else 0).sum * x.2).sum := by
  simp only [planeSum]
  induction row.zip ws with
  | nil => simp
  | cons x l ih =>
    have hx : (ps.map fun p => planeWeight t p * if bitOf x.1 p then x.2 else 0).sum =
        (ps.map fun p => planeWeight t p * if bitOf x.1 p then 1 else 0).sum * x.2 := by
      rw [← List.sum_map_mul_right]
      congr 1
      exact List.map_congr_left fun p _ => by split <;> simp
    simp only [List.map_cons, List.sum_cons, mul_add, List.sum_map_add, ih, hx]

/-- All planes of a ladder add up to the exact product-sum of activations and weights. -/
theorem planes_exact {w : Nat} {row : List Nat} (hw : 0 < w) (hx : ∀ x ∈ row, x < 2 ^ w) (ws : List Int) :
    ((planesDown (w - 1) w).map fun p => planeWeight (w - 1) p * planeSum p row ws).sum =
      ((row.zip ws).map fun x => signedOf w x.1 * x.2).sum := by
  rw [planes_productSum]
  congr 1
  exact List.map_congr_left fun x h => by rw [signedOf_eq_planes hw (hx x.1 (List.of_mem_zip h).1)]

/-! ### The bound of a sum (R249) -/

/-- An activation of at most eight bits is at most 128 in magnitude. -/
theorem signedOf_natAbs_le {w x : Nat} (hw : 0 < w) (h8 : w ≤ 8) (hx : x < 2 ^ w) : (signedOf w x).natAbs ≤ 128 := by
  obtain ⟨n, rfl⟩ := Nat.exists_eq_add_one_of_ne_zero hw.ne'
  have hn : 2 ^ n ≤ 128 := Nat.pow_le_pow_right (i := n) (j := 7) Nat.two_pos (by omega)
  have hc : ((2 : Int) ^ n) = (2 ^ n : Nat) := by push_cast; rfl
  rw [signedOf, Nat.add_sub_cancel]
  rw [pow_succ] at hx ⊢
  split <;> omega

theorem natAbs_sum_le {l : List Int} {b : Nat} (h : ∀ y ∈ l, y.natAbs ≤ b) : l.sum.natAbs ≤ l.length * b := by
  have hu := List.sum_le_card_nsmul l (b : Int) fun y hy => by have := h y hy; omega
  have hl := List.card_nsmul_le_sum l (-b : Int) fun y hy => by have := h y hy; omega
  rw [nsmul_eq_mul] at hu hl
  rw [mul_neg] at hl
  have : (l.length * b : Int) = (l.length * b : Nat) := by push_cast; rfl
  omega

/-- A product-sum of at most 128 activations of at most eight bits with weights of at most 128 in magnitude. -/
theorem productSum_natAbs_le {w : Nat} {row : List Nat} {ws : List Int} (hw : 0 < w) (h8 : w ≤ 8)
    (hx : ∀ x ∈ row, x < 2 ^ w) (hlen : row.length ≤ 128) (hy : ∀ y ∈ ws, y.natAbs ≤ 128) :
    ((row.zip ws).map fun x => signedOf w x.1 * x.2).sum.natAbs ≤ 2097152 := by
  have hterm : ∀ y ∈ (row.zip ws).map fun x => signedOf w x.1 * x.2, y.natAbs ≤ 128 * 128 := fun y h => by
    obtain ⟨x, hm, rfl⟩ := List.mem_map.mp h
    obtain ⟨h1, h2⟩ := List.of_mem_zip hm
    rw [Int.natAbs_mul]
    exact Nat.mul_le_mul (signedOf_natAbs_le hw h8 (hx _ h1)) (hy _ h2)
  have hs := natAbs_sum_le hterm
  rw [List.length_map, List.length_zip] at hs
  omega

/-! ### Residues (R195, R249) -/

/-- The three channels of a number's residues. -/
theorem residueOf_channels (n : Int) : (residueOf n).toNat / 2 ^ 17 % 256 = (n % 255).toNat ∧
    (residueOf n).toNat / 2 ^ 9 % 256 = (n % 256).toNat ∧ (residueOf n).toNat % 512 = (n % 257).toNat := by
  have h1 : (n % 255).toNat < 255 := by omega
  have h2 : (n % 256).toNat < 256 := by omega
  have h3 : (n % 257).toNat < 257 := by omega
  rw [residueOf, BitVec.toNat_ofNat]
  generalize (n % 255).toNat = x at *
  generalize (n % 256).toNat = y at *
  generalize (n % 257).toNat = z at *
  have hw : (x * 2 ^ 17 + y * 2 ^ 9 + z) % 2 ^ 32 = x * 2 ^ 17 + y * 2 ^ 9 + z := Nat.mod_eq_of_lt (by omega)
  have hx : (x * 2 ^ 17 + y * 2 ^ 9 + z) / 2 ^ 17 = x := Nat.div_eq_of_lt_le (by omega) (by omega)
  have hy : (x * 2 ^ 17 + y * 2 ^ 9 + z) / 2 ^ 9 = x * 256 + y := Nat.div_eq_of_lt_le (by omega) (by omega)
  rw [hw, hx, hy]
  clear hw hx hy
  exact ⟨by omega, by omega, by omega⟩

/-- One channel of a sum. -/
theorem toNat_emod_add (a b : Int) {m : Nat} (hm : 0 < m) :
    ((a % m).toNat + (b % m).toNat) % m = ((a + b) % m).toNat := by
  have h := fun x : Int => Int.toNat_of_nonneg (Int.emod_nonneg x (Int.natCast_ne_zero.mpr hm.ne'))
  apply Int.natCast_inj.mp
  push_cast [h]
  exact (Int.add_emod a b m).symm

/-- Channel-wise addition of residues is addition. -/
theorem residueAdd_residueOf (a b : Int) : residueAdd (residueOf a) (residueOf b) = residueOf (a + b) := by
  obtain ⟨a1, a2, a3⟩ := residueOf_channels a
  obtain ⟨b1, b2, b3⟩ := residueOf_channels b
  have h1 := toNat_emod_add a b (m := 255) (by decide)
  have h2 := toNat_emod_add a b (m := 256) (by decide)
  have h3 := toNat_emod_add a b (m := 257) (by decide)
  push_cast at h1 h2 h3
  simp only [residueAdd, a1, a2, a3, b1, b2, b3, h1, h2, h3]
  rfl

/-- The Chinese remainders modulo 255, 256 and 257: each factor is 1 in its own channel and 0 in the other two. -/
theorem channels_combine (a : Int) :
    (a % 255 * 8421376 + a % 256 * 16711425 + a % 257 * 8421120) % 16776960 = a % 16776960 := by
  have hsum : a % 255 * 8421376 + a % 256 * 16711425 + a % 257 * 8421120 =
      a + 16776960 * (2 * a - 128 * (a / 255) - 255 * (a / 256) - 129 * (a / 257)) := by
    rw [Int.emod_def a 255, Int.emod_def a 256, Int.emod_def a 257]
    ring
  rw [hsum, Int.add_mul_emod_self_left]

/-- CrtDecode combines a number's channels to the number modulo 255 · 256 · 257. -/
theorem channels_combine_toNat (a : Int) : ((a % 255).toNat % 255 * 8421376 + (a % 256).toNat * 16711425 +
    (a % 257).toNat % 257 * 8421120) % 16776960 = (a % 16776960).toNat := by
  have hx : (a % 255).toNat < 255 := by omega
  have hz : (a % 257).toNat < 257 := by omega
  have hn : ∀ m : Int, m ≠ 0 → ((a % m).toNat : Int) = a % m := fun m h => Int.toNat_of_nonneg (Int.emod_nonneg a h)
  rw [Nat.mod_eq_of_lt hx, Nat.mod_eq_of_lt hz, ← Int.natCast_inj]
  push_cast [hn 255 (by decide), hn 256 (by decide), hn 257 (by decide), hn 16776960 (by decide)]
  exact channels_combine a

/-- A number within the bound comes back from its residues. -/
theorem crtDecode_residueOf {a : Int} (h : a.natAbs ≤ 2097152) : crtDecode (residueOf a) = a := by
  obtain ⟨h1, h2, h3⟩ := residueOf_channels a
  simp only [crtDecode, h1, h2, h3, channels_combine_toNat]
  clear h1 h2 h3
  split <;> omega

end Sys2Proof.Machine

open Sys2Proof Sys2Proof.Machine

/-- Settles O35: a split of the planes is the whole ladder, whose sum is exact by the planes of each activation; the residues
are exact by the Chinese remainders. -/
theorem ladderIsExact : Obligations.LadderIsExact := by
  intro w k x row ws a b part total
  refine ⟨fun _ => planesDown_all w, signedOf_eq_planes, fun hw hk hx _ => ⟨?_, fun h8 => productSum_natAbs_le hw h8 hx⟩,
    crtDecode_residueOf, residueAdd_residueOf a b⟩
  calc part (planesDown (w - 1) k) + part (planesDown (w - 1 - k) (w - k))
      = part (planesDown (w - 1) k ++ planesDown (w - 1 - k) (w - k)) := by
        simp only [part, List.map_append, List.sum_append]
    _ = part (planesDown (w - 1) w) := by rw [planesDown_append, Nat.add_sub_cancel' hk]
    _ = total := planes_exact hw hx ws

end

section
/-! SUPPORT. The events of a matrix job (R253, R254, R257, R258, R262, R266 to R273): when MX fetches, resumes and completes,
and what a completion leaves in the tiles and the macros. -/

namespace Sys2Proof.Machine

open Sys2Proof

/-! ### Starting, resuming and completing (R253, R254, R258) -/

section
variable {s : State} {j : Job} {c : Nat}

/-- A job that has not started fetches, once the group's earlier accesses are performed and its region's home lets it. -/
theorem startJob_fetches (hm : (s.core c).mx = some j) (hs : j.started = false) (hw : j.waiting = false)
    (ht : j.touches = true → s.earlierDone j = true ∧ s.jobOpen j = true) :
    s.startJob c = (s.chosen.reloadMacros j.group).fetchJob j s.choice := by
  have hgo : (j.touches && !(s.earlierDone j && s.jobOpen j)) = false := by simpa using ht
  simp only [State.startJob, hm, hs, hw, hgo, Bool.or_self, Bool.false_eq_true, if_false]

theorem startJob_empty (hm : (s.core c).mx = none) : s.startJob c = s := by
  simp only [State.startJob, hm]

/-- The interrupted job of the core's live bank goes back to MX and starts. -/
theorem resumeJob_starts {g : Nat} (hm : (s.core c).mx = none) (hg : s.suspendedOn c = some g)
    (hj : (s.group g).suspended = some j) : s.resumeJob c =
      ((s.setGroup g { s.group g with suspended := none }).setCore c { s.core c with mx := some j }).startJob c := by
  simp only [State.resumeJob, hm, hg, hj, Option.isSome_none, Bool.false_eq_true, if_false]

/-- A job that is no drain and whose result has room does what its instruction does, and leaves MX. -/
theorem completeJob_finishes (hm : (s.core c).mx = some j) (hs : j.started = true) (hw : j.waiting = false)
    (ht : j.touchesLast = true → s.jobOpen j = true) (hd : j.drain? = none) (hn : s.statStop j = none) :
    s.completeJob c = (s.finishJob j).modJob j.group fun _ => none := by
  have hgo : (j.touchesLast && !s.jobOpen j) = false := by simpa using ht
  simp only [State.completeJob, hm, hs, hw, hgo, hd, hn, Bool.not_true, Bool.or_self, Bool.false_eq_true, if_false]

/-- A drain touches no bytes of the region. -/
theorem touchesLast_of_drain {d : Drain} (h : j.drain? = some d) : j.touchesLast = false := by
  unfold Job.drain? at h
  split at h
  · rename_i hi
    simp only [Job.touchesLast, hi]
  · cases h

theorem completeJob_drains {d : Drain} (hm : (s.core c).mx = some j) (hs : j.started = true) (hw : j.waiting = false)
    (hd : j.drain? = some d) : s.completeJob c = s.chosen.runDrain j d s.choice := by
  simp only [State.completeJob, hm, hs, hw, hd, touchesLast_of_drain hd, Bool.not_true, Bool.false_and, Bool.or_self,
    Bool.false_eq_true, if_false]

theorem completeJob_empty (hm : (s.core c).mx = none) : s.completeJob c = s := by
  simp only [State.completeJob, hm]

end

/-! ### A charge leaves tiles and macros alone (R258) -/

theorem chargeG_tile (s : State) (g h : Nat) (k : ChargeKind) (n q : Nat) :
    ((s.chargeG h k n).group g).tile q = (s.group g).tile q := by
  have ho : Ov (s.group g) ((s.chargeG h k n).group g) := (charge_accounts s _ _ k n).2 g
  rw [ho]
  rfl

theorem chargeG_macroOf (s : State) (g h : Nat) (k : ChargeKind) (n m : Nat) :
    (s.chargeG h k n).macroOf g m = s.macroOf g m := by
  have ho : Only s (s.chargeG h k n) := (charge_accounts s _ _ k n).1
  rw [State.macroOf, State.team, ho.teams]
  rfl

/-! ### Changes of distinct tiles -/

theorem putTile_tile (g : Group) (n m : Nat) (t : Tile) : (g.putTile n t).tile m = if m = n then t else g.tile m :=
  tbl_get_set _ _ _ _ _

section
variable {α : Type} {key : α → Nat} {f : α → Tile → Tile}

/-- Changing other tiles leaves a tile alone. -/
theorem foldl_putTile_other {l : List α} {n : Nat} (h : n ∉ l.map key) (g : Group) :
    (l.foldl (fun g e => g.putTile (key e) (f e (g.tile (key e)))) g).tile n = g.tile n := by
  induction l generalizing g with
  | nil => rfl
  | cons x r ih =>
    rw [List.map_cons, List.mem_cons, not_or] at h
    rw [List.foldl_cons, ih h.2, putTile_tile, if_neg h.1]

/-- Changing tiles of distinct numbers one after the other changes each of them once. -/
theorem foldl_putTile {l : List α} (hl : (l.map key).Nodup) {e : α} (he : e ∈ l) (g : Group) :
    (l.foldl (fun g e => g.putTile (key e) (f e (g.tile (key e)))) g).tile (key e) = f e (g.tile (key e)) := by
  induction l generalizing g with
  | nil => cases he
  | cons x r ih =>
    obtain ⟨hx, hr⟩ := List.nodup_cons.mp hl
    rw [List.foldl_cons]
    rcases List.mem_cons.mp he with rfl | he
    · rw [foldl_putTile_other hx, putTile_tile, if_pos rfl]
    · have hne : key e ≠ key x := fun h => hx (h ▸ List.mem_map_of_mem he)
      rw [ih hr he, putTile_tile, if_neg hne]

end

/-- Each of some distinct tiles is changed by its place among them. -/
theorem modTiles_tile {ns : List Nat} (hn : ns.Nodup) {q : Nat} (hq : q ∈ ns) (g : Group) (f : Nat → Tile → Tile) :
    ∃ i, (g.modTiles ns f).tile q = f i (g.tile q) := by
  obtain ⟨i, hi⟩ := List.mem_iff_getElem?.mp hq
  have hm : (q, i) ∈ ns.zipIdx := List.mem_zipIdx_iff_getElem?.mpr hi
  have hk : (ns.zipIdx.map Prod.fst).Nodup := by rwa [List.zipIdx_map_fst]
  exact ⟨i, foldl_putTile (key := Prod.fst) (f := fun e => f e.2) hk hm g⟩

/-- The tiles of a ladder's set are distinct (R261). -/
theorem nodup_ladderSet (x : Lad) : (x.set.map (·.1)).Nodup := by
  rw [Lad.set, List.map_flatMap, List.nodup_flatMap]
  refine ⟨fun j _ => ?_, List.nodup_range.imp fun {a b} hab => ?_⟩
  · split
    · exact List.nodup_singleton _
    · simp
  · simp only [Function.onFun]
    split
    · simpa using hab.symm
    · simp
      omega

/-! ### Macros loaded one after the other (R247, R259) -/

theorem loadMacro_scratch (s : State) (g n : Nat) (tag : WTag) (o : Nat) :
    ((s.loadMacro g n tag o).team (teamOf g)).scratch = (s.team (teamOf g)).scratch := by
  simp only [State.loadMacro, State.team_setTeam, if_true]

theorem loadMacro_macroOf (s : State) (g n m : Nat) (tag : WTag) (o : Nat) : (s.loadMacro g n tag o).macroOf g m =
    if m = n then ⟨Memory.bytes (s.team (teamOf g)).scratch o 8192, tag, some o⟩ else s.macroOf g m := by
  simp only [State.loadMacro, State.macroOf, State.team_setTeam, if_true, tbl_get_set]

theorem loadMacros_scratch (s : State) (g m : Nat) (tag : WTag) (o : Nat) (l : List Nat) :
    ((l.foldl (fun s k => s.loadMacro g (m + k) tag (o + 8192 * k)) s).team (teamOf g)).scratch =
      (s.team (teamOf g)).scratch :=
  List.foldlRecOn (motive := fun t => (t.team (teamOf g)).scratch = (s.team (teamOf g)).scratch) l _ rfl
    fun t ht _ _ => (loadMacro_scratch t g _ tag _).trans ht

/-- Macros of a run each hold their own bytes of the region. -/
theorem loadMacros_macroOf (s : State) (g m : Nat) (tag : WTag) (o : Nat) {n k : Nat} (h : k < n) :
    ((List.range n).foldl (fun s k => s.loadMacro g (m + k) tag (o + 8192 * k)) s).macroOf g (m + k) =
      ⟨Memory.bytes (s.team (teamOf g)).scratch (o + 8192 * k) 8192, tag, some (o + 8192 * k)⟩ := by
  induction n with
  | zero => omega
  | succ n ih =>
    rw [List.range_succ, List.foldl_append, List.foldl_cons, List.foldl_nil, loadMacro_macroOf, loadMacros_scratch]
    by_cases hk : k = n
    · rw [if_pos (by rw [hk]), hk]
    · rw [if_neg (by omega), ih (by omega)]

/-! ### The ladder (R262) -/

section
variable {s : State} {j : Job} {x : Lad} {e : Nat × Nat × Nat}

/-- A completing ladder runs the rest of its planes. -/
theorem finishJob_ladder (h : j.instr.lad? = some x) : s.finishJob j = s.runLadder j x := by
  unfold Instr.lad? at h
  split at h
  case h_5 => cases h
  all_goals
    rename_i hi
    cases h
    simp only [State.finishJob, hi, Instr.lad?]

/-- A fold that changes one group, by steps that see the teams as they were, is a fold over the group. -/
theorem group_foldl_setGroup {α : Type} {g : Nat} {f : State → α → Group} {F : Group → α → Group}
    (hf : ∀ t y, t.teams = s.teams → f t y = F (t.group g) y) (l : List α) :
    ∀ t : State, t.teams = s.teams → (l.foldl (fun t y => t.setGroup g (f t y)) t).group g = l.foldl F (t.group g) := by
  induction l with
  | nil => exact fun _ _ => rfl
  | cons y r ih =>
    intro t ht
    rw [List.foldl_cons, List.foldl_cons, ih (t.setGroup g (f t y)) ht, State.group_setGroup, if_pos rfl, hf t y ht]

/-- Some planes of a ladder on a tile of its set, with the weights of the column range that the set gives it (R261). -/
theorem ladderPlanes_tile (he : e ∈ x.set) (hi n : Nat) : ((s.ladderPlanes j x hi n).group j.group).tile e.1 =
    ((s.group j.group).tile e.1).ladder (s.macroOf j.group e.2.1) e.2.2 x.pair.top (planesDown hi n) j.rows := by
  have hl := foldl_putTile (key := Prod.fst) (f := fun e t =>
    t.ladder (s.macroOf j.group e.2.1) e.2.2 x.pair.top (planesDown hi n) j.rows) (nodup_ladderSet x) he (s.group j.group)
  rw [State.ladderPlanes, chargeG_tile,
    group_foldl_setGroup (F := fun g e => g.putTile e.1
      ((g.tile e.1).ladder (s.macroOf j.group e.2.1) e.2.2 x.pair.top (planesDown hi n) j.rows)) ?_ _ s rfl]
  · exact hl
  · intro t y ht
    rw [State.macroOf, State.team, ht]
    rfl

/-- A ladder that holds records where it stands in each tile of its set. -/
theorem recordLadder_tile (he : e ∈ x.set) (st : TState) (next : Nat) : ∃ pos,
    ((s.recordLadder j x st next).group j.group).tile e.1 = ((s.group j.group).tile e.1).record st x.mmc.toNat
      x.pair.code x.m (x.c - 1) x.lowh next 0 pos (j.base.setWidth 32) j.mask := by
  rw [State.recordLadder, State.group_setGroup, if_pos rfl]
  exact modTiles_tile (nodup_ladderSet x) (List.mem_map_of_mem he) _ _

/-- A ladder that does not hold leaves each tile of its set with the epilogue, and EMPTY (R252, R262). -/
theorem finishLadder_tile (he : e ∈ x.set) : ((s.finishLadder j x).group j.group).tile e.1 =
    (((s.group j.group).tile e.1).finishRows j.mask).1.cleared := by
  have hf : ∀ (l : List (Nat × Nat × Nat)) (q : Group × Word), (l.foldl (fun (q : Group × Word) e =>
      (q.1.putTile e.1 ((q.1.tile e.1).finishRows j.mask).1.cleared, q.2 ||| ((q.1.tile e.1).finishRows j.mask).2)) q).1 =
      l.foldl (fun g e => g.putTile e.1 ((g.tile e.1).finishRows j.mask).1.cleared) q.1 := fun l q =>
    (List.foldl_hom Prod.fst fun _ _ => rfl).symm
  have ht := foldl_putTile (key := Prod.fst) (f := fun _ t => (t.finishRows j.mask).1.cleared) (nodup_ladderSet x) he
    (s.group j.group)
  rw [← ht, ← hf x.set (s.group j.group, 0)]
  simp only [State.finishLadder, State.addFlags, State.group_setGroup, if_true]
  rfl

end

/-! ### What completions leave (R259, R262, R267, R268) -/

section
variable {s : State} {j : Job}

/-- QZERO leaves each of its tiles as at group start. -/
theorem finishJob_qzero {q n k : Nat} (hi : j.instr = .qzero q n) (hk : k < n) :
    ((s.finishJob j).group j.group).tile (q + k) = Tile.initial := by
  simp only [State.finishJob, hi, State.group_setGroup, if_true]
  obtain ⟨_, h⟩ := modTiles_tile (List.nodup_range.map (add_right_injective q))
    (List.mem_map_of_mem (List.mem_range.mpr hk)) (s.group j.group) fun _ _ => Tile.initial
  exact h

/-- WLD leaves the region's bytes in each of its macros. -/
theorem finishJob_wld {tag : WTag} {m n k : Nat} {a : Src} (hi : j.instr = .wld tag m a n) (hk : k < n) :
    (s.finishJob j).macroOf j.group (m + k) = ⟨Memory.bytes (s.team (teamOf j.group)).scratch
      (j.base.toNat + 8192 * k) 8192, tag, some (j.base.toNat + 8192 * k)⟩ := by
  simp only [State.finishJob, hi, chargeG_macroOf]
  exact loadMacros_macroOf s j.group m tag j.base.toNat hk

/-- QSCALE leaves its scales in its tile. -/
theorem finishJob_qscale {bf : Bool} {t : ScaleT} {q : Nat} {a : Src} (hi : j.instr = .qscale bf t q a) :
    ((s.finishJob j).group j.group).tile q = ((s.group j.group).tile q).scale t (s.scales j bf t.count) := by
  simp only [State.finishJob, hi, State.group_setGroup, if_true]
  obtain ⟨_, h⟩ := modTiles_tile (List.nodup_singleton q) (List.mem_singleton_self q) (s.group j.group)
    fun _ x => x.scale t (s.scales j bf t.count)
  exact h

end

end Sys2Proof.Machine

open Sys2Proof Sys2Proof.Machine

/-- Settles O36: each event is a case of its step, and a completion changes the distinct tiles or macros of its instruction
one after the other. -/
theorem matrixEvents : Obligations.MatrixEvents := by
  intro s j g c
  refine ⟨fun hm hs hw ht => congrArg Host.Outcome.next (startJob_fetches hm hs hw ht),
    fun hm hg hj => congrArg Host.Outcome.next (resumeJob_starts hm hg hj),
    fun hm hs hw ht hd hn => congrArg Host.Outcome.next (completeJob_finishes hm hs hw ht hd hn),
    fun d hm hs hw hd => congrArg Host.Outcome.next (completeJob_drains hm hs hw hd),
    fun hm => ⟨congrArg Host.Outcome.next (startJob_empty hm), congrArg Host.Outcome.next (completeJob_empty hm)⟩,
    fun q n k => finishJob_qzero, fun tag m a n k => finishJob_wld, fun bf t q a => finishJob_qscale, ?_⟩
  intro x e hx he hi t u
  have ht : ((s.ladderPlanes j x hi (hi + 1 - x.lo)).group j.group).tile e.1 = t := ladderPlanes_tile he _ _
  refine ⟨fun hh => ?_, fun hh => ?_⟩
  · have hu : s.finishJob j = (s.ladderPlanes j x hi (hi + 1 - x.lo)).finishLadder j x :=
      (finishJob_ladder hx).trans (if_neg (by simp [hh]))
    simp only [u, hu, finishLadder_tile he, ht]
  · have hu : s.finishJob j = (s.ladderPlanes j x hi (hi + 1 - x.lo)).recordLadder j x .held (x.lo - 1) :=
      (finishJob_ladder hx).trans (if_pos hh)
    obtain ⟨pos, hp⟩ := recordLadder_tile (s := s.ladderPlanes j x hi (hi + 1 - x.lo)) (j := j) he .held (x.lo - 1)
    rw [ht] at hp
    simp only [u, hu, hp, Tile.record, and_self]

end

section
/-! SUPPORT. Divergence and calls (R302, R303, R308, R313, R315, R316): the group that a divergence leaves, and what the
plans of the branches answer. -/

namespace Sys2Proof.Machine

open Sys2Proof

/-! ### The push of a divergence (R68, R303) -/

/-- The entry that a divergence pushes: it keeps the lanes not taken where the group has no split free for them. -/
def Split.forkEntry (x : Split) (room : Bool) (mn : Word) (f j : Nat) (bix : Bool) : Entry :=
  { rpt := j, dtgt := if room then 0 else f, fmt := x.fmt, rmode := x.rmode, mask := x.mask, arr := 0,
    dmask := if room then 0 else mn, djp := bix && !room, done := false, kind := .div, fltcause := 0, fltlane := 0,
    fltaddr := 0, fltmask := 0, tctl := 0 }

/-- The split of the lanes that take a branch. -/
def Split.taken (x : Split) (mt : Word) (t : Nat) : Split :=
  { x with mask := mt, pc := t, join := none, entered := none, charged := false }

/-- The split of the lanes that do not, under the number `n`. -/
def Split.untaken (x : Split) (n : Nat) (mn : Word) (f j : Nat) (bix : Bool) (en : Option Entered) : Split :=
  { resumeAt n mn f x.fmt x.rmode x.l0 x.l1 (if bix then some j else none) with entered := en }

/-- A group as it diverges, before the arrivals that are due. -/
def Group.forked (g : Group) (x : Split) (mt mn : Word) (t f j : Nat) (bix : Bool) (en : Option Entered) : Group :=
  let room := decide (g.splits.length < 4)
  let h := { g with stack := x.forkEntry room mn f j bix :: g.stack }
  (if room then h.putSplit (x.untaken g.freeSplit mn f j bix en) else h).putSplit (x.taken mt t)

section
variable {g g' : Group} {x : Split} {mt mn : Word} {t f j : Nat} {bix : Bool} {en : Option Entered}

/-- Some lanes take the branch and some do not, to another place, and the stack has room. -/
theorem diverge_forks (ht : mt ≠ 0) (hn : mn ≠ 0) (hf : t ≠ f) (hs : g.stack.length < 78) :
    g.diverge x mt mn t f j bix en = some (g.forked x mt mn t f j bix en).arriveAll := by
  have h1 : ¬ (mn = 0 ∨ t = f) := not_or.mpr ⟨hn, hf⟩
  have h2 : ¬ 78 ≤ g.stack.length := Nat.not_le.mpr hs
  simp only [Group.diverge, if_neg ht, if_neg h1, if_neg h2]
  rfl

theorem forked_stack : (g.forked x mt mn t f j bix en).stack =
    x.forkEntry (decide (g.splits.length < 4)) mn f j bix :: g.stack := by
  simp only [Group.forked]
  split <;> rfl

theorem forked_taken : (g.forked x mt mn t f j bix en).split? x.num = some (x.taken mt t) :=
  (split?_putSplit _ _ _).trans (if_pos rfl)

theorem forked_untaken (hr : g.splits.length < 4) (hn : g.freeSplit ≠ x.num) :
    (g.forked x mt mn t f j bix en).split? g.freeSplit = some (x.untaken g.freeSplit mn f j bix en) := by
  simp only [Group.forked, decide_eq_true hr, if_true]
  have hne : (x.taken mt t).num ≠ g.freeSplit := Ne.symm hn
  rw [split?_putSplit, if_neg hne]
  exact (split?_putSplit _ _ _).trans (if_pos rfl)

theorem forked_settled : Settled g (g.forked x mt mn t f j bix en) := by
  simp only [Group.forked]
  split <;> exact rfl

theorem putSplit_settled (g : Group) (x : Split) : Settled g (g.putSplit x) := rfl

/-- A branch moves splits and their stack, and nothing else of its group. -/
theorem diverge_settled (h : g.diverge x mt mn t f j bix en = some g') : Settled g g' := by
  by_cases h1 : mt = 0
  · rw [Group.diverge, if_pos h1] at h
    cases h
    exact (putSplit_settled _ _).trans (arriveAll_settled _)
  by_cases h2 : mn = 0 ∨ t = f
  · rw [Group.diverge, if_neg h1, if_pos h2] at h
    cases h
    exact (putSplit_settled _ _).trans (arriveAll_settled _)
  by_cases h3 : 78 ≤ g.stack.length
  · rw [Group.diverge, if_neg h1, if_neg h2, if_pos h3] at h
    cases h
  · obtain ⟨hn, hf⟩ := not_or.mp h2
    rw [diverge_forks h1 hn hf (Nat.not_le.mp h3)] at h
    cases h
    exact forked_settled.trans (arriveAll_settled _)

theorem call_settled {ret : Nat} (h : g.call x ret t = some g') : Settled g g' := by
  rw [Group.call] at h
  split at h
  · cases h
  · cases h
    refine Settled.trans ?_ (arriveAll_settled _)
    exact rfl

end

/-! ### The plans of the branches (R302, R308, R313, R315, R316) -/

theorem planBnz_eq (a : Src) (off : Int) : planBnz a off = divergePlan (fun s => s.condLanes a)
    (fun s => target s.cur.slot off) State.after (fun s => max (target s.cur.slot off) s.after) false := rfl

theorem planBz_eq (a : Src) (off : Int) : planBz a off = divergePlan (fun s => s.mask &&& ~~~s.condLanes a)
    (fun s => target s.cur.slot off) State.after (fun s => max (target s.cur.slot off) s.after) false := rfl

section
variable {s : State} {i : Instr} {p : Plan} {taken : State → Word} {t f j : State → Nat} {bix : Bool}
  (hd : p = divergePlan taken t f j bix) (he : exec i s = issue i p s) (hp : planOf i = p)
include hd he hp

/-- A branch whose push, where it makes one, has room on the stack steers by Diverge. -/
theorem steers_diverge (h : ¬ (taken s ≠ 0 ∧ s.mask &&& ~~~taken s ≠ 0 ∧ t s ≠ f s ∧ 78 ≤ s.g.stack.length)) :
    Steers s i fun u => u.modG fun g => (g.diverge u.sp (taken s) (s.mask &&& ~~~taken s) (t s) (f s)
      (u.sp.joinOr (j s)) bix (s.enteredAt (f s))).getD g :=
  steers_of_plan he hp (by rw [hd]; exact if_neg h) <| redirects_modG
    (F := fun x g => (g.diverge x (taken s) (s.mask &&& ~~~taken s) (t s) (f s) (x.joinOr (j s)) bix
      (s.enteredAt (f s))).getD g) fun _ _ => redirected_getD fun _ => diverge_settled

/-- A branch whose push has none raises STACK_OVF. -/
theorem diverge_raises (h : taken s ≠ 0 ∧ s.mask &&& ~~~taken s ≠ 0 ∧ t s ≠ f s ∧ 78 ≤ s.g.stack.length)
    (hc : s.clear i = true) : Raises s i (s.unit .stackOvf 0) :=
  issue_raises he hp (by rw [hd]; exact if_pos h) hc

end

end Sys2Proof.Machine

open Sys2Proof Sys2Proof.Machine

/-- Settles O14: BNZ, BZ and BIX are one plan, by Diverge or STACK_OVF, and CALL's plan checks the stack in the same
way. -/
theorem branches : Obligations.Branches := by
  intro s a off
  have hbnz := steers_diverge (s := s) (i := .bnz a off) (planBnz_eq a off) rfl rfl
  have hbz := steers_diverge (s := s) (i := .bz a off) (planBz_eq a off) rfl rfl
  have hbix := steers_diverge (s := s) (i := .bix a) (p := planBix a) rfl rfl rfl
  have rbnz := diverge_raises (s := s) (i := .bnz a off) (planBnz_eq a off) rfl rfl
  have rbz := diverge_raises (s := s) (i := .bz a off) (planBz_eq a off) rfl rfl
  have rbix := diverge_raises (s := s) (i := .bix a) (p := planBix a) rfl rfl rfl
  refine ⟨hbnz, hbz, hbix, fun h => ?_, rbnz, rbz, rbix, fun h => issue_raises rfl rfl (if_pos h)⟩
  exact steers_of_plan rfl rfl (if_neg (Nat.not_le.mpr h)) <| redirects_modG
    (F := fun x g => (g.call x s.after (target s.cur.slot off)).getD g) fun _ _ => redirected_getD fun _ => call_settled

/-- Settles O15: before its arrivals, the group that a divergence leaves holds the entry and the splits stated. -/
theorem divergence : Obligations.Divergence := by
  intro g x mt mn t f j bix en ht hn hf hs
  refine ⟨_, diverge_forks ht hn hf hs, _, forked_stack, rfl, rfl, rfl, rfl, rfl, rfl, forked_taken,
    fun hr _ hx => ⟨?_, _, forked_untaken hr hx, rfl, rfl, rfl, rfl, rfl⟩, fun hr => ?_⟩
  · simp [Split.forkEntry, hr]
  · simp [Split.forkEntry, Nat.not_lt.mpr hr]

end

section
/-! SUPPORT. EXIT, TSYNC and HALT (R318, R320, R406): what their plans answer. -/

namespace Sys2Proof.Machine

open Sys2Proof

section
variable {s : State}

theorem planExit_waits (h : s.g.exitReady = false) : planExit s = .error (.wait .exit) := by
  simp only [planExit, h, Bool.false_and, Bool.not_false, if_true]

theorem clear_idle {i : Instr} (hc : s.clear i = true) : s.sp.wait = none := by
  simp only [State.clear, Bool.and_eq_true, Option.isNone_iff_eq_none] at hc
  obtain ⟨⟨⟨⟨-, hw⟩, -⟩, -⟩, -⟩ := hc
  exact hw

theorem planTsync_counts (hw : s.sp.wait = none) (hl : s.g.splits.length ≤ 1) (hs : s.settled s.cur.group = true)
    (hn : s.noStale s.cur.group = true) : planTsync s =
      .error (.act fun t => (t.modG fun g => { g with tsync := s.g.tsync + 1 }).modSp fun x =>
        { x with wait := some (.tsync (s.g.tsync + 1)) }) := by
  simp only [planTsync, hw, if_neg (Nat.not_lt.mpr hl), hs, hn, Bool.and_self, Bool.not_true, Bool.false_eq_true,
    if_false]

theorem planTsync_diverged (hw : s.sp.wait = none) (hl : 1 < s.g.splits.length) :
    planTsync s = s.stop .illegalOperand := by
  simp only [planTsync, hw, if_pos hl]

theorem planHalt_halts (hp : s.priv = true) (hj : s.noJob s.cur.group = true) : planHalt s = .ok fun u =>
    (u.modG fun g => { g with halted := true }).post (u.fnOfCtx (u.ctxOf u.cur.group)) evHalted
      (u.coreOf u.cur.group) (u.ctxOf u.cur.group) none := by
  simp only [planHalt, hp, hj, Bool.not_true, Bool.false_eq_true, if_false]

theorem planHalt_refused (hp : s.priv = false) : planHalt s = s.uniStop .permission 0 := by
  simp only [planHalt, hp, Bool.not_false, if_true]

/-- A waiting instruction goes on with what its plan answers on the registers of its issue. -/
theorem resumes_of_plan {i : Instr} {p : Plan} {f : State → State} (he : exec i s = issue i p s) (hp : planOf i = p)
    (hf : s.reading.cur = s.cur → s.reading.sp.wait = s.sp.wait → p s.reading = .ok f) : Resumes s i f := by
  intro hc ha
  have hs : (s.g.split? s.cur.split).isSome = true := by
    simp only [State.goesOn, Bool.and_eq_true] at hc
    obtain ⟨⟨⟨hs, -⟩, -⟩, -⟩ := hc
    exact hs
  obtain ⟨hcur, hwait⟩ := reading_sp hs
  exact he.trans (issue_resumed hp (hf hcur hwait) hc ha)

end

end Sys2Proof.Machine

open Sys2Proof Sys2Proof.Machine

/-- Settles O17: each outcome is one branch of the plan of EXIT, TSYNC or HALT, on the state at issue or on what a
waiting unit read as it issued. -/
theorem exitSyncHalt : Obligations.ExitSyncHalt := by
  intro s n
  refine ⟨fun hr hj hf hc ha => issue_done rfl (planExit_resumes hr hj hf) hc ha,
    fun h hc => issue_stop rfl (planExit_waits h) hc, fun _ hr hj hf => ?_,
    fun hl hs hn hc => issue_stop rfl (planTsync_counts (clear_idle hc) hl hs hn) hc, fun hw ht => ?_,
    fun hl hc => issue_raises rfl rfl (planTsync_diverged (clear_idle hc) hl) hc,
    fun hp hj hc ha => issue_done rfl (planHalt_halts hp hj) hc ha,
    fun hp hc => issue_raises rfl rfl (planHalt_refused hp) hc⟩
  · exact resumes_of_plan rfl rfl fun hcur _ => planExit_resumes hr (by rw [hcur]; exact hj) hf
  · exact resumes_of_plan rfl rfl fun hcur hwait => planTsync_resumes (hwait.trans hw) (by rw [hcur]; exact ht)

end

section
/-! SUPPORT. The return from an exception (R306, R385, R405): what TRET does on the stack that Deliver leaves. -/

namespace Sys2Proof.Machine

open Sys2Proof

theorem split?_dropSplit (g : Group) (m n : Nat) :
    (g.dropSplit m).split? n = if n = m then none else g.split? n := by
  simp only [Group.split?, Group.dropSplit, List.find?_filter]
  split
  · next h =>
    subst h
    exact List.find?_eq_none.mpr fun x _ => by simp
  · next h =>
    congr 1
    funext x
    by_cases hx : x.num = n
    · simp [hx, h]
    · simp [hx]

@[simp] theorem dropSplit_saves (g : Group) (n : Nat) : (g.dropSplit n).saves = g.saves := rfl

/-- The fields of the TCTL word that Deliver writes for save slot 0, with NEXTF set by TRET.next or as it was. -/
theorem tctl_fields : ∀ nextf next : Bool, ∀ len < 4,
    let w : Word := BitVec.ofNat 32 (0 * 16 + nextf.toNat * 4 + len % 4)
    let v := if next then w ||| 4 else w
    tctlSave v = 0 ∧ tctlNext v = (nextf || next) ∧ tctlLen v = len := by
  decide

/-- The entry of an exception taken on an empty stack: its save slot is 0. -/
def Split.trapEntry (x : Split) (r : Report) (slot len : Nat) : Entry :=
  { rpt := slot, dtgt := 0, fmt := x.fmt, rmode := x.rmode, mask := x.mask, arr := 0, dmask := 0, djp := false,
    done := false, kind := .trap, fltcause := r.fltcause, fltlane := BitVec.ofNat 32 r.lane, fltaddr := r.addr,
    fltmask := r.mask, tctl := BitVec.ofNat 32 (0 * 16 + (decide (r.cause = .trap)).toNat * 4 + len % 4) }

/-- A trap entry once TRET has set NEXTF where it asks for that. -/
def Entry.nexted (e : Entry) (next : Bool) : Entry :=
  { e with tctl := if next then e.tctl ||| 4 else e.tctl }

section
variable {g : Group} {x y : Split} {e : Entry} {r : Report} {slot len hvec : Nat}

/-- What Deliver leaves on an empty stack. -/
theorem deliver_empty (hg : g.stack = []) :
    (g.deliver x r slot len hvec).stack = [x.trapEntry r slot len] ∧
    (g.deliver x r slot len hvec).saves = g.saves.set 0 ⟨x.l0, x.l1, r.laneAddr, r.laneCode⟩ ∧
    (∃ y, (g.deliver x r slot len hvec).split? x.num = some y ∧ y.num = x.num ∧ y.mask = x.mask) ∧
    ∀ n, n ≠ x.num → (g.deliver x r slot len hvec).split? n = g.split? n := by
  have hf : g.freeSave = 0 := by simp [Group.freeSave, hg, List.range_succ_eq_map]
  refine ⟨?_, ?_, ⟨_, (split?_putSplit _ _ _).trans (if_pos rfl), rfl, rfl⟩, fun n hn => ?_⟩
  · simp only [Group.deliver, Group.putSplit, hf, hg]
    rfl
  · simp only [Group.deliver, Group.putSplit, hf]
  · exact (split?_putSplit _ _ _).trans (if_neg (Ne.symm hn))

/-- The one trap entry settles when all its lanes arrive: they go on with what it and its save slot have kept. -/
theorem returnTo_trap (hg : g.stack = [e]) (hk : e.kind = .trap) (hd : e.done = false) (h0 : e.dmask = 0)
    (ha : e.arr = 0) (hm : e.mask = x.mask) (hz : x.mask ≠ 0) :
    g.returnTo x 0 = ({ g.dropSplit x.num with stack := [], saves := g.saves.del (tctlSave e.tctl) } : Group).putSplit
      (resumeAt x.num x.mask (if tctlNext e.tctl then e.rpt + tctlLen e.tctl else e.rpt) e.fmt e.rmode
        (g.saves.get ⟨Lanes.zero, Lanes.zero, [], []⟩ (tctlSave e.tctl)).l0
        (g.saves.get ⟨Lanes.zero, Lanes.zero, [], []⟩ (tctlSave e.tctl)).l1 none) := by
  have hs : leaveEntries [e] x.mask (fun j => ([] : List Nat).contains j) = [e] := by simp [leaveEntries]
  have hr : g.returnTo x 0 = (({ g.dropSplit x.num with
      stack := [{ e with arr := e.arr ||| x.mask }] } : Group).settle x false 0).1.arriveAll := by
    simp only [Group.returnTo, Group.dropSplit, hg, List.range_zero, List.filter_nil, hs, List.map_nil, Group.settleAll]
    rfl
  rw [hr, ← arriveAll_empty (g := Group.putSplit _ _) rfl]
  congr 1
  simp [Group.settle, hk, hd, h0, ha, hm, freeEntry, show ¬ x.mask = 0#32 from hz]

/-- TRET from a handler whose exception is the one entry of the stack. -/
theorem tret_trap (hg : g.stack = [e]) (hk : e.kind = .trap) (hd : e.done = false) (hm : e.mask = x.mask)
    (next : Bool) :
    g.tret x next = some (({ g with stack := [e.nexted next] } : Group).returnTo x 0) := by
  have hn : g.nearest x = some 0 := by simp [Group.nearest, hg, Entry.holds, hd, hm, hk]
  simp only [Group.tret, hn, hg, List.getElem?_cons_zero, hk, if_true]
  cases next
  · simp only [Entry.nexted, Bool.false_eq_true, if_false, ← hg]
  · rfl

end

end Sys2Proof.Machine

open Sys2Proof Sys2Proof.Machine

/-- Settles O19: the entry that Deliver pushed settles at once, since all its lanes return together, and gives back what
it and its save slot have kept. -/
theorem exceptionReturn : Obligations.ExceptionReturn := by
  intro g x r slot len hvec next hg hx hz hlen
  obtain ⟨hst, hsv, ⟨y, hy, hyn, hym⟩, hoth⟩ :=
    deliver_empty (x := x) (r := r) (slot := slot) (len := len) (hvec := hvec) hg
  generalize g.deliver x r slot len hvec = d at hst hsv hy hoth ⊢
  obtain ⟨hsave, hnext, htlen⟩ := tctl_fields (decide (r.cause = .trap)) next len hlen
  have ht := tret_trap (x := y) hst rfl rfl hym.symm next
  rw [returnTo_trap rfl rfl rfl rfl rfl hym.symm (by rw [hym]; exact hz)] at ht
  have hkept : d.saves.get ⟨Lanes.zero, Lanes.zero, [], []⟩ (tctlSave ((x.trapEntry r slot len).nexted next).tctl) =
      ⟨x.l0, x.l1, r.laneAddr, r.laneCode⟩ := by
    rw [hsv, show tctlSave ((x.trapEntry r slot len).nexted next).tctl = 0 from hsave]
    exact tbl_get_set_same _ _ _ _
  rw [split_of_split? hy]
  refine ⟨_, ht, rfl, ⟨_, (split?_putSplit _ _ _).trans (if_pos hyn), ?_, hym, rfl, rfl, ?_, ?_⟩, fun n hn => ?_⟩
  · have hpc : (if (decide (r.cause = .trap) || next) = true then slot + len else slot) =
        if next = true ∨ r.cause = .trap then slot + len else slot := by simp [or_comm]
    refine Eq.trans ?_ hpc
    rw [← hnext]
    exact ite_congr rfl (fun _ => congrArg (slot + ·) htlen) fun _ => rfl
  · exact congrArg TrapSave.l0 hkept
  · exact congrArg TrapSave.l1 hkept
  · rw [split?_putSplit, if_neg (by rw [show (resumeAt y.num _ _ _ _ _ _ _).num = x.num from hyn]; exact Ne.symm hn)]
    exact (split?_dropSplit _ _ _).trans ((if_neg (by rw [hyn]; exact hn)).trans (hoth n hn))

end

section
/-! SUPPORT. Spans, teams and launches as they start and end, overruns, cuts and energy, and the commits of passes (R298
to R300, R321, R322, R334, R335, R339, R346, R359, R361, R364, R365, R376). -/

namespace Sys2Proof.Machine

open Sys2Proof

/-! ### Starting a team (R299, R300) -/

/-- The first `n` groups of a team start. -/
def State.startGroups (s : State) (t c : Nat) (d : Rec) (why : Option Nat) (n : Nat) : State :=
  (List.range n).foldl (fun s i => s.setGroup (t * 16 + i)
    { Group.initial d.entry .live with gslot := s.freeGslot c, overrun := why }) s

section
variable (s : State) (t c : Nat) (d : Rec) (why : Option Nat) (n : Nat)

theorem startGroups_succ : s.startGroups t c d why (n + 1) = (s.startGroups t c d why n).setGroup (t * 16 + n)
    { Group.initial d.entry .live with gslot := (s.startGroups t c d why n).freeGslot c, overrun := why } := by
  simp only [State.startGroups, List.range_succ, List.foldl_append, List.foldl_cons, List.foldl_nil]

theorem startGroups_only : s.startGroups t c d why n = { s with groups := (s.startGroups t c d why n).groups } := by
  induction n with
  | zero => rfl
  | succ n ih => rw [startGroups_succ, ih]; rfl

/-- Each of them is as at group start, in a slot of its own core. -/
theorem startGroups_started {i : Nat} (hi : i < n) : ∃ m, (s.startGroups t c d why n).group (t * 16 + i) =
    { Group.initial d.entry .live with gslot := m, overrun := why } := by
  induction n with
  | zero => exact absurd hi (Nat.not_lt_zero i)
  | succ n ih =>
    rw [startGroups_succ, State.group_setGroup]
    split
    · exact ⟨_, rfl⟩
    · exact ih (by omega)

theorem startGroups_other {g : Nat} (h : ∀ i, i < n → g ≠ t * 16 + i) :
    (s.startGroups t c d why n).group g = s.group g := by
  induction n with
  | zero => rfl
  | succ n ih =>
    rw [startGroups_succ, State.group_setGroup, if_neg (h n (Nat.lt_succ_self n))]
    exact ih fun i hi => h i (Nat.lt_succ_of_lt hi)

end

/-! ### Starting a span (R298 to R300) -/

/-- The key of a span's team. -/
def teamKey (l span j : Nat) : Nat := l * 512 + span * 64 + j

/-- The teams of some seats start, numbered from `k`. -/
def State.startTeams (l span k : Nat) (ps : List (Nat × Nat)) (s : State) : State :=
  (ps.zipIdx k).foldl (fun s p => s.startTeam l span p.2 p.1.1) s

section
variable {l span : Nat}

theorem startTeam_eq (s : State) (j c : Nat) : s.startTeam l span j c =
    (s.setTeam (teamKey l span j) { Team.absent with core := c, live := true }).startGroups (teamKey l span j) c
      (s.launch l).desc (s.launch l).trapsAs (s.launch l).desc.gpt := rfl

theorem startTeam_only (s : State) (j c : Nat) : s.startTeam l span j c =
    { s with teams := (s.startTeam l span j c).teams, groups := (s.startTeam l span j c).groups } := by
  rw [startTeam_eq, startGroups_only]
  rfl

theorem startTeam_team (s : State) (j c u : Nat) : (s.startTeam l span j c).team u =
    if u = teamKey l span j then { Team.absent with core := c, live := true } else s.team u := by
  rw [startTeam_eq, startGroups_only]
  exact State.team_setTeam _ _ _ _

theorem startTeam_started (s : State) (j c : Nat) {i : Nat} (hi : i < (s.launch l).desc.gpt) :
    ∃ m, (s.startTeam l span j c).group (teamKey l span j * 16 + i) =
      { Group.initial (s.launch l).desc.entry .live with gslot := m, overrun := (s.launch l).trapsAs } :=
  startGroups_started _ _ _ _ _ _ hi

/-- It leaves the groups of other teams alone. -/
theorem startTeam_other (s : State) (j c : Nat) {g : Nat} (hg : (s.launch l).desc.gpt ≤ 16)
    (h : g / 16 ≠ teamKey l span j) : (s.startTeam l span j c).group g = s.group g := by
  rw [startTeam_eq]
  exact startGroups_other _ _ _ _ _ _ fun i hi hk => h (by omega)

theorem startTeams_cons (s : State) (k : Nat) (p : Nat × Nat) (r : List (Nat × Nat)) :
    s.startTeams l span k (p :: r) = (s.startTeam l span k p.1).startTeams l span (k + 1) r := rfl

theorem startTeams_only (s : State) (k : Nat) (ps : List (Nat × Nat)) : s.startTeams l span k ps =
    { s with teams := (s.startTeams l span k ps).teams, groups := (s.startTeams l span k ps).groups } := by
  induction ps generalizing s k with
  | nil => rfl
  | cons p r ih => rw [startTeams_cons, ih, startTeam_only]

/-- The teams before them stay, and so do these teams' groups. -/
theorem startTeams_before (s : State) {j k : Nat} (ps : List (Nat × Nat)) (hg : (s.launch l).desc.gpt ≤ 16)
    (hj : j < k) :
    (s.startTeams l span k ps).team (teamKey l span j) = s.team (teamKey l span j) ∧
    ∀ i, i < 16 → (s.startTeams l span k ps).group (teamKey l span j * 16 + i) =
      s.group (teamKey l span j * 16 + i) := by
  induction ps generalizing s k with
  | nil => exact ⟨rfl, fun _ _ => rfl⟩
  | cons p r ih =>
    have hl : (s.startTeam l span k p.1).launch l = s.launch l := by rw [startTeam_only]; rfl
    have hne : teamKey l span j ≠ teamKey l span k := by unfold teamKey; omega
    obtain ⟨ht, hgr⟩ := ih (s.startTeam l span k p.1) (k := k + 1) (by rw [hl]; exact hg) (by omega)
    rw [startTeams_cons]
    refine ⟨ht.trans ((startTeam_team _ _ _ _).trans (if_neg hne)), fun i hi => (hgr i hi).trans ?_⟩
    exact startTeam_other _ _ _ hg (by omega)

/-- Every seat's team stands on its core, live, with its groups started. -/
theorem startTeams_started (s : State) (k : Nat) (ps : List (Nat × Nat)) (hg : (s.launch l).desc.gpt ≤ 16) {j : Nat}
    {p : Nat × Nat} (hp : ps[j]? = some p) :
    (s.startTeams l span k ps).team (teamKey l span (k + j)) = { Team.absent with core := p.1, live := true } ∧
    ∀ i, i < (s.launch l).desc.gpt → ∃ m, (s.startTeams l span k ps).group (teamKey l span (k + j) * 16 + i) =
      { Group.initial (s.launch l).desc.entry .live with gslot := m, overrun := (s.launch l).trapsAs } := by
  induction ps generalizing s k j with
  | nil => cases hp
  | cons q r ih =>
    have hl : (s.startTeam l span k q.1).launch l = s.launch l := by rw [startTeam_only]; rfl
    rw [startTeams_cons]
    cases j with
    | zero =>
      cases hp
      obtain ⟨ht, hgr⟩ := startTeams_before (span := span) (s.startTeam l span k p.1) r (by rw [hl]; exact hg)
        (Nat.lt_succ_self k)
      refine ⟨ht.trans ((startTeam_team _ _ _ _).trans (if_pos rfl)), fun i hi => ?_⟩
      obtain ⟨m, hm⟩ := startTeam_started (span := span) s k p.1 hi
      exact ⟨m, (hgr i (by omega)).trans hm⟩
    | succ j =>
      have h := ih (s.startTeam l span k q.1) (k + 1) (by rw [hl]; exact hg) hp
      rw [hl, Nat.add_right_comm k 1 j] at h
      exact h

end

section
variable {s : State} {l span : Nat}

/-- A span that is ready, on banks that are live, starts all its teams. -/
theorem startSpan_starts (hr : s.spanReady l span = true)
    (hb : ∀ p ∈ (s.launch l).seats span, (s.core p.1).liveBank = p.2 ∧ (s.core p.1).castling = false) :
    let u := s.startTeams l span 0 ((s.launch l).seats span)
    s.startSpan l span = u.setLaunch l { u.launch l with spanSt := (u.launch l).spanSt.set span 1 } := by
  have ha : (s.spanReady l span && ((s.launch l).seats span).all fun p =>
      decide ((s.core p.1).liveBank = p.2) && !(s.core p.1).castling) = true := by
    simpa [hr, -Prod.forall] using hb
  exact if_pos ha

theorem startSpan_waits (hr : s.spanReady l span = false) : s.startSpan l span = s := if_neg (by simp [hr])

end

/-! ### What leaves teams and memory alone (R334, R335, R400) -/

section
variable (s : State)

theorem askCastling_only (cs : List Nat) : s.askCastling cs = { s with cores := (s.askCastling cs).cores } :=
  List.foldlRecOn (motive := fun t : State => t = { s with cores := t.cores }) cs _ rfl fun _ h _ _ => by rw [h]; rfl

theorem castleOut_only (c : Nat) :
    s.castleOut c = { s with cores := (s.castleOut c).cores, ctxs := (s.castleOut c).ctxs } := by
  obtain ⟨cs, h⟩ : ∃ cs, s.castleOut c = ((s.askCastling cs).setCtx c
      { (s.askCastling cs).ctx c with leaving := .out ((s.askCastling cs).ticks 0) }).leaveDone c := ⟨_, rfl⟩
  rw [h, leaveDone_only, askCastling_only]
  rfl

theorem softLeft_only (c : Nat) :
    s.softLeft c = { s with cores := (s.softLeft c).cores, ctxs := (s.softLeft c).ctxs } := by
  simp only [State.softLeft]
  split
  · exact castleOut_only s c
  · rfl

theorem softLeft_launches (c : Nat) : (s.softLeft c).launches = s.launches := by rw [softLeft_only]

/-- Every group named gets the OVERRUN. -/
theorem overruns_group (why : Option Nat) (gs : List Nat) (k : Nat) :
    (gs.foldl (fun s g => s.setGroup g { s.group g with overrun := why }) s).group k =
      if k ∈ gs then { s.group k with overrun := why } else s.group k := by
  induction gs generalizing s with
  | nil => rfl
  | cons g r ih =>
    rw [List.foldl_cons, ih, State.group_setGroup]
    by_cases hk : k = g
    · subst hk; simp
    · simp [hk]

end

/-! ### The end of a team (R113, R299, R321, R334) -/

section
variable {s : State}

/-- Accounts leave a launch's kind alone. -/
theorem overrun_service (l why d : Nat) : ((s.overrun l why d).launch l).service = (s.launch l).service := by
  simp only [State.overrun]
  split
  · rfl
  · split
    · rw [State.launch_setLaunch, if_pos rfl]
    · split <;> rw [State.launch_setLaunch, if_pos rfl]

theorem reportCharge_service (l c : Nat) : ((s.reportCharge l c).launch l).service = (s.launch l).service := by
  simp only [State.reportCharge]
  split
  · rw [overrun_service, State.launch_setLaunch, if_pos rfl]
  · rw [State.launch_setLaunch, if_pos rfl]

theorem mem_teamsOf {l u : Nat} : u ∈ s.teamsOf l ↔ u / 512 = l ∧ (s.team u).live = true := by
  simp only [State.teamsOf, List.mem_filter, List.mem_eraseDups, Bool.and_eq_true, beq_iff_eq]
  refine ⟨fun h => h.2, fun h => ⟨?_, h⟩⟩
  by_contra hn
  rw [State.team, tbl_get_unlisted hn] at h
  cases h.2

/-- The end of a team before its span and its context are looked at: the team is no longer live, and the core has
reported where this was its last team of the launch. -/
def State.teamOut (s : State) (t : Nat) : State :=
  let u := s.setTeam t { s.team t with live := false, regions := [] }
  if u.lastOn (t / 512) (s.team t).core then u.reportCharge (t / 512) (s.team t).core else u

/-- The launch's mark where that was the span's last team. -/
def State.spanOut (s : State) (t : Nat) : State :=
  let x := s.launch (t / 512)
  if x.service || (s.teamsOf (t / 512)).any fun u => spanOf u == spanOf t then s
  else s.setLaunch (t / 512) { x with spanSt := x.spanSt.set (spanOf t) 2 }

theorem endTeam_eq {t : Nat} (hl : (s.team t).live = true) (hd : s.teamDone t = true) :
    let u := s.teamOut t
    let x := u.launch (t / 512)
    s.endTeam t = if x.service then (u.spanOut t).leaveDone ((u.spanOut t).group (t * 16)).hctx
      else ((u.spanOut t).softLeft x.ctx).leaveDone x.ctx :=
  (if_neg (by simp [hl, hd])).trans rfl

theorem teamOut_teams (t : Nat) :
    (s.teamOut t).teams = s.teams.set t { s.team t with live := false, regions := [] } ∧ (s.teamOut t).mem = s.mem := by
  simp only [State.teamOut]
  split
  · obtain ⟨h, -⟩ := reportCharge_accounts (s.setTeam t { s.team t with live := false, regions := [] }) (t / 512)
      (s.team t).core
    rw [h]
    exact ⟨rfl, rfl⟩
  · exact ⟨rfl, rfl⟩

/-- The other teams of a launch that are live once one has ended were so before. -/
theorem teamsOf_teamOut {t l u : Nat} (h : u ∈ (s.teamOut t).teamsOf l) : u ∈ s.teamsOf l ∧ u ≠ t := by
  rw [mem_teamsOf, State.team, (teamOut_teams t).1, tbl_get_set] at h
  split at h
  · cases h.2
  · next hne => exact ⟨mem_teamsOf.mpr h, hne⟩

theorem teamOut_service (t : Nat) : ((s.teamOut t).launch (t / 512)).service = (s.launch (t / 512)).service := by
  simp only [State.teamOut]
  split
  · rw [reportCharge_service]; rfl
  · rfl

theorem spanOut_only (t : Nat) : s.spanOut t = { s with launches := (s.spanOut t).launches } := by
  simp only [State.spanOut]
  split <;> rfl

/-- No further team of the span is live. -/
theorem spanOut_ended {t : Nat} (hs : (s.launch (t / 512)).service = false)
    (h : ∀ u ∈ s.teamsOf (t / 512), spanOf u ≠ spanOf t) :
    ((s.spanOut t).launch (t / 512)).spanSt.get 0 (spanOf t) = 2 := by
  have hn : ((s.teamsOf (t / 512)).any fun u => spanOf u == spanOf t) = false := by simpa using h
  simp only [State.spanOut, hs, hn, Bool.or_self, Bool.false_eq_true, if_false, State.launch_setLaunch, if_true]
  exact tbl_get_set_same _ _ _ _

theorem endTeam_waits {t : Nat} (hd : s.teamDone t = false) : s.endTeam t = s := if_pos (by simp [hd])

/-- After a team's end, teams, memory and launches stand as its last step leaves them. -/
theorem endTeam_keeps {t : Nat} (hl : (s.team t).live = true) (hd : s.teamDone t = true) :
    (s.endTeam t).teams = s.teams.set t { s.team t with live := false, regions := [] } ∧ (s.endTeam t).mem = s.mem ∧
      (s.endTeam t).launches = ((s.teamOut t).spanOut t).launches := by
  obtain ⟨ht, hm⟩ := teamOut_teams (s := s) t
  have hk : ∀ u : State, u.teams = ((s.teamOut t).spanOut t).teams → u.mem = ((s.teamOut t).spanOut t).mem →
      u.teams = s.teams.set t { s.team t with live := false, regions := [] } ∧ u.mem = s.mem := fun u h1 h2 => by
    rw [spanOut_only] at h1 h2
    exact ⟨h1.trans ht, h2.trans hm⟩
  rw [endTeam_eq hl hd]
  split
  · rw [leaveDone_only]
    exact ⟨(hk _ rfl rfl).1, (hk _ rfl rfl).2, rfl⟩
  · rw [leaveDone_only, softLeft_only]
    exact ⟨(hk _ rfl rfl).1, (hk _ rfl rfl).2, rfl⟩

end

/-! ### The end of a launch (R346, R361, R376, R416) -/

section
variable (s : State)

theorem outerWrite_launches (pa : Nat) (bs : List Byte) : (s.outerWrite pa bs).launches = s.launches := by
  simp only [State.outerWrite]
  split
  · exact post_launches _ _ _ _ _ _
  · rfl

theorem ringSignals_launches (ring : Nat) : (s.ringSignals ring).launches = s.launches :=
  List.foldlRecOn (motive := fun t : State => t.launches = s.launches) _ _ rfl fun _ h _ _ =>
    (outerWrite_launches _ _ _).trans h

theorem allSignals_launches : s.allSignals.launches = s.launches :=
  List.foldlRecOn (motive := fun t : State => t.launches = s.launches) _ _ rfl fun _ h _ _ =>
    (ringSignals_launches _ _).trans h

end

section
variable {s : State} {l : Nat}

/-- Every span has ended, and nothing of the launch is under way: its passes commit, and it ends. -/
theorem finishLaunch_ends (he : (s.launch l).ended = false) (hs : (s.launch l).service = false)
    (hc : (s.launch l).cut = none) (hr : ∀ r ∈ s.replicas, ∀ b ∈ r.behind, launchOf b.group ≠ l)
    (hw : s.commitsWait l = false) (hm : s.endMeets l = [])
    (hk : ∀ k, k < (s.launch l).desc.spans → (s.launch l).spanSt.get 0 k = 2) :
    s.finishLaunch l = ((s.commitAll l).endLaunch l 5 false false none).allSignals := by
  have hspans : ((List.range (s.launch l).desc.spans).all fun k => decide ((s.launch l).spanSt.get 0 k = 2)) = true :=
    List.all_eq_true.mpr fun k hr => decide_eq_true (hk k (List.mem_range.mp hr))
  have hbehind : (s.replicas.any fun r => r.behind.any fun b => launchOf b.group == l) = false := by simpa using hr
  simp only [State.finishLaunch, he, hs, hc, hspans, hw, hbehind, hm, Option.isSome_none, Bool.not_true, Bool.or_self,
    Bool.false_eq_true, if_false]

theorem finishLaunch_waits {n : Nat} (hn : n < (s.launch l).desc.spans) (h2 : (s.launch l).spanSt.get 0 n ≠ 2) :
    s.finishLaunch l = s := by
  have hspans : ((List.range (s.launch l).desc.spans).all fun k => decide ((s.launch l).spanSt.get 0 k = 2)) = false :=
    List.all_eq_false.mpr ⟨n, List.mem_range.mpr hn, by simpa using h2⟩
  simp only [State.finishLaunch, hspans, Bool.not_false, Bool.or_true, Bool.true_or, if_true]

/-- A cut launch whose groups have halted commits its passes, and ends. -/
theorem cutUpdate_ends {c : CutInfo} (hc : (s.launch l).cut = some c) (he : (s.launch l).ended = false)
    (hh : s.cutHalted l = true) (hw : s.commitsWait l = false) (hm : s.endMeets l = []) :
    ((s.cutUpdate l).launch l).ended = true ∧ ((s.cutUpdate l).launch l).abnormal = true := by
  have hu : s.cutUpdate l =
      let u := (s.commitAll l).endLaunch l c.reason true true (some c.time)
      let v := u.post (u.fnOfCtx (s.launch l).ctx) evCut 0 (s.launch l).ctx none
      if s.teams.any fun t => t.1 / 512 == l && t.2.live then v.softLeft (s.launch l).ctx else v := by
    simp only [State.cutUpdate, hc, he, hh, hw, hm, Bool.not_true, Bool.or_self, Bool.false_eq_true, if_false]
  have hv : (s.cutUpdate l).launches = ((s.commitAll l).endLaunch l c.reason true true (some c.time)).launches := by
    rw [hu, apply_ite State.launches, softLeft_launches, ite_self]
    exact post_launches _ _ _ _ _ _
  rw [launch_congr _ hv, endLaunch_launch, if_pos rfl]
  exact ⟨rfl, rfl⟩

theorem cutUpdate_uncut (hc : (s.launch l).cut = none) : s.cutUpdate l = s := by simp only [State.cutUpdate, hc]

end

/-! ### Deadlines, cut times, energy (R335, R364) -/

section
variable {s : State} {l d : Nat} (he : (s.launch l).ended = false) (hs : (s.launch l).service = false)
include he hs

section
variable (ho : (s.launch l).overran = false)
include ho

/-- An anytime launch that overruns its deadline is cut. -/
theorem overrun_anytime (hc : (s.launch l).cut = none) (ha : (s.launch l).desc.anytime = true) : s.overrun l 1 d =
    s.setLaunch l { s.launch l with overran := true, cut := some ⟨1, s.time d⟩ } := by
  simp [State.overrun, he, hs, ho, hc, ha]

section
variable (ha : (s.launch l).desc.anytime = false)
include ha

/-- A hard launch is demoted, and its groups trap. -/
theorem overrun_hard (hk : (s.launch l).desc.cls = .hard) : s.overrun l 1 d =
    ((s.groupsOf l).foldl (fun s g => s.setGroup g { s.group g with overrun := some 1 }) s).setLaunch l
      { s.launch l with overran := true, demoted := true, trapsAs := some 1 } := by
  simp only [State.overrun, he, hs, ho, ha, hk, Bool.false_eq_true, or_self, if_false]

/-- A soft launch is demoted. -/
theorem overrun_soft (hk : (s.launch l).desc.cls = .soft) : s.overrun l 1 d =
    s.setLaunch l { s.launch l with overran := true, demoted := true } := by
  simp only [State.overrun, he, hs, ho, ha, hk, Bool.false_eq_true, or_self, if_false]

theorem overrun_best (hk : (s.launch l).desc.cls = .best) : s.overrun l 1 d =
    s.setLaunch l { s.launch l with overran := true } := by
  simp only [State.overrun, he, hs, ho, ha, hk, Bool.false_eq_true, or_self, if_false]

end

end

theorem cutFor_cuts (hc : (s.launch l).cut = none) (ha : (s.launch l).desc.anytime = true) (reason : Nat) :
    s.cutFor l reason d = s.setLaunch l { s.launch l with cut := some ⟨reason, s.time d⟩ } := by
  simp only [State.cutFor, he, hs, hc, ha, Option.isSome_none, Bool.not_true, Bool.or_self, Bool.false_eq_true,
    if_false]

end

section
variable {s : State} {l d : Nat}

theorem deadline_at (h : s.dieAt l (s.launch l).desc.deadline = some d) :
    exec (.deadlineReached l) s = .next (s.overrun l 1 d) := by
  refine congrArg Host.Outcome.next ?_
  simp only [h]

theorem deadline_ahead (h : s.dieAt l (s.launch l).desc.deadline = none) : exec (.deadlineReached l) s = .next s := by
  refine congrArg Host.Outcome.next ?_
  simp only [h]

theorem cutTime_at (h : s.dieAt l (s.launch l).desc.cutt = some d) (h0 : (s.launch l).desc.cutt ≠ 0) :
    exec (.cutTimeReached l) s = .next (s.cutFor l 2 d) := by
  refine congrArg Host.Outcome.next ?_
  simp only [h, if_neg h0]

theorem cutTime_ahead (h : s.dieAt l (s.launch l).desc.cutt = none) : exec (.cutTimeReached l) s = .next s := by
  refine congrArg Host.Outcome.next ?_
  simp only [h]

end

/-- A launch's account once an energy update has been made (R364). -/
def State.metered (s : State) (l : Nat) : Launch :=
  let x := s.launch l
  { x with energy := x.energy + ((x.seen.zip (s.meters l)).map fun p => energyShare p.1 p.2).sum
           updates := x.updates + 1, seen := s.meters l }

section
variable {s : State} {l n : Nat}

theorem addEnergy_early (h : n ≠ (s.launch l).updates + 1 ∨ (s.time ((s.launch l).dies.headD 0)).toNat <
    (s.launch l).release + 40000 * ((s.launch l).updates + 1)) : s.addEnergy l n = s := by
  refine if_pos ?_
  by_cases hn : n = (s.launch l).updates + 1
  · subst hn
    simp [-List.headD_eq_head?_getD, h.resolve_left (fun hne => hne rfl)]
  · simp [hn]

variable (he : (s.launch l).ended = false) (hs : (s.launch l).service = false)
  (ht : (s.launch l).release + 40000 * ((s.launch l).updates + 1) ≤ (s.time ((s.launch l).dies.headD 0)).toNat)
include he hs ht

theorem addEnergy_due : s.addEnergy l ((s.launch l).updates + 1) =
    if (s.launch l).desc.energy ≠ 0 ∧ (s.launch l).desc.energy ≤ (s.metered l).energy then
      (s.setLaunch l (s.metered l)).cutFor l 3 ((s.launch l).dies.headD 0)
    else s.setLaunch l (s.metered l) := by
  refine (if_neg ?_).trans rfl
  simp [-List.headD_eq_head?_getD, he, hs, ht]

/-- An anytime launch that has used its energy is cut. -/
theorem addEnergy_cuts (hc : (s.launch l).cut = none) (ha : (s.launch l).desc.anytime = true)
    (h0 : (s.launch l).desc.energy ≠ 0) (hm : (s.launch l).desc.energy ≤ (s.metered l).energy) :
    (s.addEnergy l ((s.launch l).updates + 1)).launch l =
      { s.metered l with cut := some ⟨3, s.time ((s.launch l).dies.headD 0)⟩ } := by
  have hl : (s.setLaunch l (s.metered l)).launch l = s.metered l := (State.launch_setLaunch _ _ _ _).trans (if_pos rfl)
  rw [addEnergy_due he hs ht, if_pos ⟨h0, hm⟩, cutFor_cuts (by rw [hl]; exact he) (by rw [hl]; exact hs)
    (by rw [hl]; exact hc) (by rw [hl]; exact ha), State.launch_setLaunch, if_pos rfl, hl]
  rfl

end

/-! ### The commit of a pass (R359) -/

section
variable {s : State} {l h pa : Nat}

/-- A produced handle whose open pass every team has arrived at. -/
theorem arrivedPa_some {slots slotb : Nat} (hh : (s.launch l).desc.handles.getD h .undeclared = .produced slots slotb)
    (hp : (s.launch l).hpa.getD h none = some pa) (ha : s.arrived l h = true) (ho : (s.vrec pa).st.opn = true)
    (he : (s.launch l).ended = false) : s.arrivedPa l h = some pa := by
  simp only [State.arrivedPa, hh, hp, ha, ho, he, Bool.not_false, Bool.and_self, if_true]

theorem arrivedPa_none (ha : s.arrived l h = false) : s.arrivedPa l h = none := by
  simp only [State.arrivedPa, ha, Bool.false_and, Bool.false_eq_true, if_false]
  split <;> rfl

theorem commitHandle_commits (ha : s.arrivedPa l h = some pa) (hf : s.failed (pa / 128) = false)
    (hd : ∀ e ∈ (s.launch l).seals.filter fun e => decide (e.handle = h), s.sealDone e = true) :
    let x := s.launch l
    let mine := x.seals.filter fun e => decide (e.handle = h)
    let q := mine.foldl (fun q e => min q e.quality) 65535
    s.commitHandle l h = ((s.commitPass pa q (mine.all (·.final))).setLaunch l
      { x with seals := x.seals.filter fun e => decide (e.handle ≠ h) }).softLeft x.ctx := by
  have hw : s.commitWaits l h = false := by
    have : ((s.launch l).seals.any fun e => decide (e.handle = h) && !s.sealDone e) = false := by simpa using hd
    simp only [State.commitWaits, this, Bool.and_false]
  simp only [State.commitHandle, ha, hw, hf, Bool.false_eq_true, if_false]

theorem commitHandle_waits (ha : s.arrivedPa l h = some pa)
    (hd : ∃ e ∈ (s.launch l).seals.filter fun e => decide (e.handle = h), s.sealDone e = false) :
    s.commitHandle l h = s := by
  have hw : s.commitWaits l h = true := by
    have : ((s.launch l).seals.any fun e => decide (e.handle = h) && !s.sealDone e) = true := by
      simpa [and_assoc] using hd
    simp only [State.commitWaits, ha, this, Option.isSome_some, Bool.and_self]
  simp only [State.commitHandle, ha, hw, if_true]

theorem commitHandle_unarrived (ha : s.arrived l h = false) : s.commitHandle l h = s := by
  simp only [State.commitHandle, arrivedPa_none ha]

end

end Sys2Proof.Machine

open Sys2Proof Sys2Proof.Machine

/-- Settles O57: each event is its step's own case, and what it leaves alone is what the parts of that step leave. -/
theorem spansAndEnds : Obligations.SpansAndEnds := by
  intro s l span tm h d pa n slots slotb u c x
  refine ⟨fun hr _ hg hb => ?_, fun hr => congrArg Host.Outcome.next (startSpan_waits hr), fun hl hd => ?_,
    fun hd => congrArg Host.Outcome.next (endTeam_waits hd), fun he hs hc hr hw hm => ⟨fun hk => ?_, fun hn h2 => ?_⟩,
    fun he hs hc => ⟨fun hat ho => ⟨fun ha => ?_, fun ha hk => ?_, fun ha hk => ?_, fun ha hk => ?_⟩,
      fun hat h0 ha => ?_, fun hn => ?_, fun ht => ⟨fun hm => ?_, fun h0 hm ha => ?_⟩⟩,
    fun hat => ?_, fun hat => ?_, fun hu => congrArg Host.Outcome.next (if_pos hu),
    fun hu => congrArg Host.Outcome.next (if_neg hu),
    fun hh hp => ⟨fun ha ho he hf => ⟨fun hd => ?_, fun hd => ?_⟩, fun ha => ?_⟩,
    fun hc he hh hw hm => ⟨_, rfl, cutUpdate_ends hc he hh hw hm⟩,
    fun hc => congrArg Host.Outcome.next (cutUpdate_uncut hc)⟩
  · refine ⟨_, congrArg Host.Outcome.next (startSpan_starts hr hb), ?_, ?_, fun j p hp => ?_⟩
    · rw [State.launch_setLaunch, if_pos rfl]
      exact tbl_get_set_same _ _ _ _
    · rw [State.setLaunch_mem, startTeams_only]
    · have hstart := startTeams_started (span := span) s 0 (x.seats span) hg hp
      rw [Nat.zero_add] at hstart
      exact hstart
  · obtain ⟨ht, hm, hla⟩ := endTeam_keeps hl hd
    have hteam : ∀ u, (s.endTeam tm).team u =
        if u = tm then { s.team tm with live := false, regions := [] } else s.team u := fun u => by
      rw [State.team, ht, tbl_get_set]
      rfl
    refine ⟨_, rfl, ?_, ?_, fun u hu => (hteam u).trans (if_neg hu), hm, fun hs hsp => ?_⟩
    · rw [hteam, if_pos rfl]
    · rw [hteam, if_pos rfl]
    · rw [launch_congr _ hla]
      refine spanOut_ended ((teamOut_service tm).trans hs) fun u hu => ?_
      obtain ⟨hu, hne⟩ := teamsOf_teamOut hu
      exact hsp u hu hne
  · refine ⟨_, congrArg Host.Outcome.next (finishLaunch_ends he hs hc hr hw hm hk), ?_⟩
    rw [launch_congr _ (allSignals_launches _), endLaunch_launch, if_pos rfl]
    exact ⟨rfl, rfl⟩
  · exact congrArg Host.Outcome.next (finishLaunch_waits hn h2)
  · rw [deadline_at hat, overrun_anytime he hs ho hc ha]
  · rw [deadline_at hat, overrun_soft he hs ho ha hk]
  · refine ⟨_, deadline_at hat, ?_⟩
    rw [overrun_hard he hs ho ha hk]
    exact ⟨(State.launch_setLaunch _ _ _ _).trans (if_pos rfl),
      fun g hg => (overruns_group s (some 1) (s.groupsOf l) g).trans (if_pos hg)⟩
  · rw [deadline_at hat, overrun_best he hs ho ha hk]
  · rw [cutTime_at hat h0, cutFor_cuts he hs hc ha]
  · exact congrArg Host.Outcome.next (addEnergy_early hn)
  · refine congrArg Host.Outcome.next ((addEnergy_due he hs ht).trans (if_neg fun ⟨h0, hle⟩ => ?_))
    exact hm.elim h0 fun hlt => Nat.not_le.mpr hlt hle
  · exact ⟨_, rfl, addEnergy_cuts he hs ht hc ha h0 hm⟩
  · exact deadline_ahead hat
  · exact cutTime_ahead hat
  · exact congrArg Host.Outcome.next (commitHandle_commits (arrivedPa_some hh hp ha ho he) hf hd)
  · exact congrArg Host.Outcome.next (commitHandle_waits (arrivedPa_some hh hp ha ho he) hd)
  · exact congrArg Host.Outcome.next (commitHandle_unarrived ha)

end

section
/-! SUPPORT. LAUNCH and JOIN (R345, R346, R350, R351): what their plans answer at issue. -/

namespace Sys2Proof.Machine

open Sys2Proof

section
variable {s u : State} {d : Nat} {a : Src}

/-- A record that can be read, and names no object that is not its parent's, is submitted, or refused as FULL. -/
theorem planLaunch_decides (hw : s.sp.wait = none) (hin : s.inRegion (s.localBase a) 256 64)
    (hs : s.settled s.cur.group = true)
    (ho : s.homeOpen s.cur.group .load false (.scr (teamOf s.cur.group) (s.localBase a).toNat) 256 = true)
    (hn : s.noStale s.cur.group = true)
    (hf : s.fillRange s.cur.group (s.localBase a).toNat 256 s.priv s.choice = .ok u) {bs : List Byte}
    (hb : Memory.bytes (u.team (teamOf s.cur.group)).scratch (s.localBase a).toNat 256 = bs)
    (hx : s.foreignObject s.cur.group bs = false) : planLaunch d a s = .ok fun t =>
      let v := match t.fillRange s.cur.group (s.localBase a).toNat 256 t.priv t.choice with
        | .ok v => v.chosen
        | .error _ => t
      if decide (4096 ≤ s.poolUsed (s.partOf s.cur.group)) || decide (64 ≤ s.childUse s.cur.group) then
        v.writeUni (.v d) (statusWord .full 0)
      else v.submit s.cur.group bs v.mask d := by
  refine (afterFault_none hw _).trans <| (wholeChecks_inRegion hin).trans <| (openRange_filled hs ho hf _).trans ?_
  dsimp only
  rw [hb, hx, hn]
  rfl

/-- JOIN of children that have all ended takes their slots back. -/
theorem planJoin_ended (hw : s.sp.wait = none)
    (he : ∀ n ∈ slotsOf (s.rdPair a 0), s.childEnded s.cur.group n = true) : planJoin d a s = .ok fun t =>
      (t.modG fun gr => { gr with
        children := gr.children.filter fun c => !(slotsOf (s.rdPair a 0)).contains c.1 }).writePair d
        (s.joinMask s.cur.group (s.rdPair a 0)) := by
  have hall : ((slotsOf (s.rdPair a 0)).all fun n => s.childEnded s.cur.group n) = true := List.all_eq_true.mpr he
  simp only [planJoin, hw, hall, Bool.not_true, Bool.false_eq_true, if_false]

/-- A child that runs keeps JOIN waiting, on the mask that it read. -/
theorem planJoin_waits (hw : s.sp.wait = none)
    (he : ∃ n ∈ slotsOf (s.rdPair a 0), s.childEnded s.cur.group n = false) :
    planJoin d a s = .error (.wait (.join (s.rdPair a 0))) := by
  have hall : ((slotsOf (s.rdPair a 0)).all fun n => s.childEnded s.cur.group n) = false := by
    obtain ⟨n, hn, hr⟩ := he
    exact List.all_eq_false.mpr ⟨n, hn, by simp [hr]⟩
  simp only [planJoin, hw, hall, Bool.not_false, if_true]

end

end Sys2Proof.Machine

open Sys2Proof Sys2Proof.Machine

/-- Settles O41: LAUNCH and JOIN answer what the pool, the slots and the children say; BLEFT, DLINE and VLEFT read the
launch's accounts and its descriptor. -/
theorem launchInstructions : Obligations.LaunchInstructions := by
  intro s u d a rel m g b bs full filled x
  refine ⟨fun hw hin hs ho hn hf hx => completes_of_plan rfl rfl (planLaunch_decides hw hin hs ho hn hf rfl hx),
    fun he hc ha => issue_done rfl (planJoin_ended (clear_waits hc) he) hc ha,
    fun he hc => issue_stop rfl (planJoin_waits (clear_waits hc) he) hc,
    fun hw he => resumes_of_plan rfl rfl fun hcur hwait =>
      planJoin_resumes (congrArg Cur.group hcur) (hwait.trans hw) he,
    completes_of_plan rfl rfl rfl, completes_of_plan rfl rfl rfl, completes_of_plan rfl rfl rfl,
    completes_of_plan rfl rfl rfl, completes_of_plan rfl rfl rfl⟩

end

section
/-! SUPPORT. The decision of admission (R102, R336, R337, R350, R356): its checks in their order, and what an admission and
its answer leave of the launch table. -/

namespace Sys2Proof.Machine

open Sys2Proof

/-! ### The launch table -/

/-- From `s` to `t` the launches, their next number and the partitions stand. -/
def TableKept (s t : State) : Prop := t.launchNext = s.launchNext ∧ t.parts = s.parts ∧ t.launches = s.launches

theorem TableKept.refl (s : State) : TableKept s s := ⟨rfl, rfl, rfl⟩

theorem TableKept.trans {s t u : State} (h : TableKept s t) (k : TableKept t u) : TableKept s u := by
  obtain ⟨hn, hp, hl⟩ := h
  obtain ⟨kn, kp, kl⟩ := k
  exact ⟨kn.trans hn, kp.trans hp, kl.trans hl⟩

theorem TableKept.part {s t : State} (h : TableKept s t) (n : Nat) : t.part n = s.part n :=
  congrArg (fun x : Tbl Partition => x.get Partition.absent n) h.2.1

section
variable (s : State)

theorem tableKept_touch (c va : Nat) (k : XKind) : TableKept s (s.touch c va k) := ⟨rfl, rfl, rfl⟩

theorem tableKept_touchDescriptor (x : Submission) : TableKept s (s.touchDescriptor x) := by
  simp only [State.touchDescriptor]
  split
  · exact TableKept.refl s
  · exact ((tableKept_touch _ _ _ _).trans (tableKept_touch _ _ _ _)).trans (tableKept_touch _ _ _ _)

theorem tableKept_touchRecords (x : Submission) (d : Rec) (k : XKind) : TableKept s (s.touchRecords x d k) :=
  List.foldlRecOn (motive := TableKept s) _ _ (TableKept.refl s) fun _ h _ _ => h.trans (tableKept_touch _ _ _ _)

theorem tableKept_post (fn code unit ctx : Nat) (data : Option DWord) : TableKept s (s.post fn code unit ctx data) := by
  obtain ⟨m, rs, fs, ns, h⟩ := post_only (s := s) fn code unit ctx data
  rw [h]
  exact ⟨rfl, rfl, rfl⟩

theorem tableKept_outerWrite (pa : Nat) (bs : List Byte) : TableKept s (s.outerWrite pa bs) := by
  simp only [State.outerWrite]
  split
  · exact (show TableKept s (s.markFailed _) from ⟨rfl, rfl, rfl⟩).trans (tableKept_post _ _ _ _ _ _)
  · exact ⟨rfl, rfl, rfl⟩

theorem tableKept_launchStatus (g : Nat) (m : Word) (d : Nat) (w : Word) : TableKept s (s.launchStatus g m d w) := by
  simp only [State.launchStatus]
  split
  · rw [served_only]
    exact ⟨rfl, rfl, rfl⟩
  · exact TableKept.refl s

theorem tableKept_dispatched (fe rd : Nat) (w : Word) : TableKept s (s.dispatched fe rd w) := by
  simp only [State.dispatched]
  split <;> exact ⟨rfl, rfl, rfl⟩

theorem tableKept_frontLaunch (ring : Option Nat) (l : Nat) : TableKept s (s.frontLaunch ring l) := by
  cases ring <;> exact ⟨rfl, rfl, rfl⟩

/-- The answer to an admitted launch's submitter changes nothing of the table but the launch's parent. -/
theorem answer_admitted (x : Submission) (l : Nat) : ∃ q, TableKept (s.setLaunch l { s.launch l with parent := q })
    (s.answer x (.ok l)) ∨ TableKept s (s.answer x (.ok l)) := by
  cases hb : x.by_ with
  | group g m d =>
    simp only [State.answer, hb]
    split
    · exact ⟨_, .inl ((show TableKept _ (State.setGroup _ _ _) from ⟨rfl, rfl, rfl⟩).trans
        (tableKept_launchStatus _ _ _ _ _))⟩
    · exact ⟨_, .inl (TableKept.refl _)⟩
  | packet ring addr =>
    simp only [State.answer, hb]
    exact ⟨none, .inr ((tableKept_outerWrite s _ _).trans ⟨rfl, rfl, rfl⟩)⟩
  | front fe rd ring =>
    simp only [State.answer, hb]
    exact ⟨none, .inr ((tableKept_frontLaunch s ring l).trans (tableKept_dispatched _ _ _ _))⟩
  | left ring =>
    simp only [State.answer, hb]
    exact ⟨none, .inr (tableKept_frontLaunch s ring l)⟩

/-- So the launch stands as admitted, whoever its parent is. -/
theorem answer_launch (x : Submission) (l : Nat) : (s.answer x (.ok l)).launchNext = s.launchNext ∧
    (s.answer x (.ok l)).parts = s.parts ∧
    ∃ q, (s.answer x (.ok l)).launch l = { s.launch l with parent := q } := by
  obtain ⟨q, ⟨hn, hp, hl⟩ | ⟨hn, hp, hl⟩⟩ := answer_admitted s x l
  · refine ⟨hn, hp, q, ?_⟩
    rw [launch_congr _ hl, State.launch_setLaunch, if_pos rfl]
  · exact ⟨hn, hp, (s.launch l).parent, launch_congr _ hl l⟩

/-- An admission takes the next number and the partition's next sequence number. -/
theorem admitLaunch_table (x : Submission) (p : Parsed) (pl : Placement) :
    (s.admitLaunch x p pl).2 = s.launchNext ∧ (s.admitLaunch x p pl).1.launchNext = s.launchNext + 1 ∧
    (s.admitLaunch x p pl).1.part x.part = { s.part x.part with seq := (s.part x.part).seq + 1 } ∧
    ∃ e, (s.admitLaunch x p pl).1.launch s.launchNext =
      { newLaunch x p pl (s.part x.part).seq with seen := e } := by
  exact ⟨rfl, rfl, tbl_get_set_same _ _ _ _, _, tbl_get_set_same _ _ _ _⟩

end

/-! ### The checks in their order (R336) -/

/-- Check 2: the VDID may submit the class, and an anytime parent's child is anytime. -/
def State.ClassFits (s : State) (x : Submission) (d : Rec) : Prop :=
  classAllowed (s.fn x.vdid).classMask d.cls = true ∧
    ((∃ l, x.parentOf = some l ∧ (s.launch l).desc.anytime = true) → d.anytime = true)

section
variable {s : State} {x : Submission} {p : Parsed} {pl : Placement} {pref : List Nat} {c : AdmitCode}

theorem earlyChecks_malformed (h : s.parse x = none) : s.earlyChecks x = .error .rejMalformed := by
  unfold State.earlyChecks
  rw [h]

section
variable (hp : s.parse x = some p)
include hp

theorem earlyChecks_class (h : ¬ s.ClassFits x p.desc) : s.earlyChecks x = .error .rejClass := by
  unfold State.earlyChecks
  rw [hp]
  refine if_pos ?_
  simp only [State.ClassFits, not_and] at h
  cases hc : classAllowed (s.fn x.vdid).classMask p.desc.cls with
  | false => rfl
  | true =>
    obtain ⟨⟨l, hl, hany⟩, hn⟩ := Classical.not_imp.mp (h hc)
    simp only [hl, hany, Bool.true_and, Bool.not_true, Bool.false_or, Bool.not_eq_eq_eq_not]
    exact eq_false_of_ne_true hn

variable (hc : s.ClassFits x p.desc)
include hc

/-- Past the class come the budget and the deadline. -/
theorem earlyChecks_fits : s.earlyChecks x = if p.desc.budget = 0 then .error .rejBudgetZero
    else if p.desc.deadline ≤ x.release then .error .rejDeadlinePast else .ok p := by
  obtain ⟨hc, ha⟩ := hc
  unfold State.earlyChecks
  rw [hp]
  simp only [hc, Bool.not_true, Bool.false_or]
  refine if_neg ?_
  cases hl : x.parentOf with
  | none => exact Bool.false_ne_true
  | some l =>
    cases hany : (s.launch l).desc.anytime with
    | false => simp [hany]
    | true => simp [ha ⟨l, hl, hany⟩]

theorem earlyChecks_budget (h : p.desc.budget = 0) : s.earlyChecks x = .error .rejBudgetZero :=
  (earlyChecks_fits hp hc).trans (if_pos h)

variable (hb : p.desc.budget ≠ 0)
include hb

theorem earlyChecks_deadline (h : p.desc.deadline ≤ x.release) : s.earlyChecks x = .error .rejDeadlinePast :=
  (earlyChecks_fits hp hc).trans ((if_neg hb).trans (if_pos h))

theorem earlyChecks_passed (h : x.release < p.desc.deadline) : s.earlyChecks x = .ok p :=
  (earlyChecks_fits hp hc).trans ((if_neg hb).trans (if_neg (Nat.not_le.mpr h)))

end

theorem lateChecks_unplaced (h : s.placement pref x p.desc = none) : s.lateChecks pref x p = .error .rejResource := by
  unfold State.lateChecks
  rw [h]

section
variable (hpl : s.placement pref x p.desc = some pl)
include hpl

theorem lateChecks_busy (h : ∃ pa, some pa ∈ p.hpa ∧ s.recordBusy pa = true) :
    s.lateChecks pref x p = .error .rejResource := by
  obtain ⟨pa, hm, hb⟩ := h
  unfold State.lateChecks
  rw [hpl]
  exact if_pos (List.any_eq_true.mpr ⟨some pa, hm, hb⟩)

variable (hn : ¬ ∃ pa, some pa ∈ p.hpa ∧ s.recordBusy pa = true)
include hn

/-- Past the placement and the records come the table's room and the demand. -/
theorem lateChecks_idle : s.lateChecks pref x p = if 1024 ≤ (s.entries x.part).length then .error .rejTableFull
    else if p.desc.cls ≠ .best ∧ s.demandOk x p.desc = false then .error .rejCapacity else .ok pl := by
  unfold State.lateChecks
  rw [hpl]
  refine if_neg fun h => ?_
  obtain ⟨a, hm, ha⟩ := List.any_eq_true.mp h
  cases a with
  | none => cases ha
  | some pa => exact hn ⟨pa, hm, ha⟩

theorem lateChecks_full (h : 1024 ≤ (s.entries x.part).length) : s.lateChecks pref x p = .error .rejTableFull :=
  (lateChecks_idle hpl hn).trans (if_pos h)

variable (hroom : (s.entries x.part).length < 1024)
include hroom

theorem lateChecks_capacity (h : p.desc.cls ≠ .best) (hd : s.demandOk x p.desc = false) :
    s.lateChecks pref x p = .error .rejCapacity :=
  (lateChecks_idle hpl hn).trans ((if_neg (Nat.not_le.mpr hroom)).trans (if_pos ⟨h, hd⟩))

theorem lateChecks_passed (h : p.desc.cls = .best ∨ s.demandOk x p.desc = true) : s.lateChecks pref x p = .ok pl := by
  refine (lateChecks_idle hpl hn).trans ((if_neg (Nat.not_le.mpr hroom)).trans (if_neg ?_))
  rintro ⟨hb, hd⟩
  exact h.elim hb fun ht => Bool.false_ne_true (hd.symm.trans ht)

end

/-! ### The decision -/

theorem tryAdmit_checked {pa : Nat} (h : s.parseError x = some pa) :
    s.tryAdmit pref x = (s.machineCheck x.ctx pa, .error .rejMalformed) := by
  unfold State.tryAdmit
  rw [h]

section
variable (hn : s.parseError x = none)
include hn

theorem tryAdmit_early (he : s.earlyChecks x = .error c) : s.tryAdmit pref x = (s.touchDescriptor x, .error c) := by
  unfold State.tryAdmit
  simp only [hn, he]

variable (he : s.earlyChecks x = .ok p)
include he

theorem tryAdmit_late (hl : s.lateChecks pref x p = .error c) :
    s.tryAdmit pref x = ((s.touchDescriptor x).touchRecords x p.desc .read, .error c) := by
  unfold State.tryAdmit
  simp only [hn, he, hl]

/-- What passes every check is admitted: its table entry is the next, with the partition's next sequence number. -/
theorem tryAdmit_admits (hl : s.lateChecks pref x p = .ok pl) :
    (s.tryAdmit pref x).2 = .ok s.launchNext ∧ (s.tryAdmit pref x).1.launchNext = s.launchNext + 1 ∧
    ((s.tryAdmit pref x).1.part x.part).seq = (s.part x.part).seq + 1 ∧
    ∃ e, (s.tryAdmit pref x).1.launch s.launchNext = { newLaunch x p pl (s.part x.part).seq with seen := e } := by
  have hk := (tableKept_touchDescriptor s x).trans (tableKept_touchRecords (s.touchDescriptor x) x p.desc .atomic)
  obtain ⟨hid, hnext, hpart, hlaunch⟩ :=
    admitLaunch_table ((s.touchDescriptor x).touchRecords x p.desc .atomic) x p pl
  rw [hk.1] at hid hnext hlaunch
  rw [hk.part] at hpart hlaunch
  unfold State.tryAdmit
  simp only [hn, he, hl]
  exact ⟨congrArg Except.ok hid, hnext, congrArg Partition.seq hpart, hlaunch⟩

end

/-- The oldest submission is decided, where its submitter's register can take the status. -/
theorem exec_admissionDecision {rest : List Submission} (h : s.submissions = x :: rest)
    (ha : ∀ r, s.answerStop x r = none) {t : State} {r : Except AdmitCode Nat}
    (ht : State.tryAdmit { s with submissions := rest } pref x = (t, r)) :
    exec (.admissionDecision pref) s = .next (t.answer x r) := by
  refine congrArg Host.Outcome.next ?_
  simp only [State.decide_, h, ha, ht]

end

end Sys2Proof.Machine

open Sys2Proof Sys2Proof.Machine

/-- Settles O56: each clause is the decision after the checks that it names, and an admission and its answer leave the
table as stated. -/
theorem admission : Obligations.Admission := by
  intro s x rest p pl pref u early d rejects admits anytimeParent classOk busy hs ha
  refine ⟨fun pa hpa => exec_admissionDecision hs ha (tryAdmit_checked hpa),
    fun hn hp => exec_admissionDecision hs ha (tryAdmit_early hn (earlyChecks_malformed hp)), fun hn hp =>
    ⟨fun hc => exec_admissionDecision hs ha (tryAdmit_early hn (earlyChecks_class hp hc)),
      fun hc hb => exec_admissionDecision hs ha (tryAdmit_early hn (earlyChecks_budget hp hc hb)),
      fun hc hb hd => exec_admissionDecision hs ha (tryAdmit_early hn (earlyChecks_deadline hp hc hb hd)),
      fun hc hb hd => ?_⟩⟩
  have he : u.earlyChecks x = .ok p := earlyChecks_passed hp hc hb hd
  have hrej : ∀ c, u.lateChecks pref x p = .error c → rejects c := fun c hl =>
    exec_admissionDecision hs ha (tryAdmit_late hn he hl)
  refine ⟨fun hpl => hrej _ (lateChecks_unplaced hpl), fun hpl =>
    ⟨fun hbusy => hrej _ (lateChecks_busy hpl hbusy), fun hidle hfull => hrej _ (lateChecks_full hpl hidle hfull),
      fun hidle hroom =>
        ⟨fun hcls hdem => hrej _ (lateChecks_capacity hpl hidle hroom hcls hdem), fun hfit => ?_⟩⟩⟩
  obtain ⟨hid, hnext, hseq, e, hlaunch⟩ := tryAdmit_admits hn he (lateChecks_passed hpl hidle hroom hfit)
  obtain ⟨hn', hp', q, hl'⟩ := answer_launch (u.tryAdmit pref x).1 x u.launchNext
  have hq : u.tryAdmit pref x = ((u.tryAdmit pref x).1, .ok u.launchNext) := Prod.ext rfl hid
  refine ⟨_, exec_admissionDecision hs ha hq, hn'.trans hnext, ?_, ?_⟩
  · exact (congrArg (fun y : Tbl Partition => (y.get Partition.absent x.part).seq) hp').trans hseq
  · rw [hlaunch] at hl'
    rw [show s.launchNext = u.launchNext from rfl, hl']
    exact ⟨rfl, rfl, rfl, rfl, rfl, rfl, rfl, rfl, rfl, rfl⟩

end

section
/-! SUPPORT. Clocks and throttling (R341, R428): what changes of clocks do to cores, dies and partitions. -/

namespace Sys2Proof.Machine

open Sys2Proof

/-! ### Dies and cores changed one by one -/

/-- Some dies take a change. -/
def State.changeDies (s : State) (ds : List Nat) (f : Die → Die) : State :=
  ds.foldl (fun s d => s.setDie d (f (s.die d))) s

section
variable (s : State)

theorem changeDies_only (ds : List Nat) (f : Die → Die) :
    s.changeDies ds f = { s with dies := (s.changeDies ds f).dies } :=
  List.foldlRecOn (motive := fun t : State => t = { s with dies := t.dies }) ds _ rfl fun _ h _ _ => by rw [h]; rfl

theorem changeDies_die {ds : List Nat} (hd : ds.Nodup) (f : Die → Die) (e : Nat) :
    (s.changeDies ds f).die e = if e ∈ ds then f (s.die e) else s.die e := by
  induction ds generalizing s with
  | nil => rfl
  | cons d r ih =>
    obtain ⟨hn, hr⟩ := List.nodup_cons.mp hd
    refine (ih (s.setDie d (f (s.die d))) hr).trans ?_
    rw [State.die_setDie]
    by_cases he : e = d
    · subst he; simp [hn]
    · simp [he]

/-- THR is set or cleared on some dies. -/
theorem setThr_eq (ds : List Nat) (on : Bool) : s.setThr ds on = s.changeDies ds fun x => { x with thr := on } := rfl

theorem setThr_only (ds : List Nat) (on : Bool) : s.setThr ds on = { s with dies := (s.setThr ds on).dies } := by
  rw [setThr_eq]
  exact changeDies_only s ds _

theorem setThr_parts (ds : List Nat) (on : Bool) : (s.setThr ds on).parts = s.parts := by rw [setThr_only]

theorem setClocks_only (cs : List Nat) (f : Nat → Nat) :
    s.setClocks cs f = { s with cores := (s.setClocks cs f).cores } :=
  List.foldlRecOn (motive := fun t : State => t = { s with cores := t.cores }) cs _ rfl fun _ h _ _ => by rw [h]; rfl

@[simp] theorem setClocks_parts (cs : List Nat) (f : Nat → Nat) : (s.setClocks cs f).parts = s.parts := by
  rw [setClocks_only]
@[simp] theorem setClocks_groups (cs : List Nat) (f : Nat → Nat) : (s.setClocks cs f).groups = s.groups := by
  rw [setClocks_only]
@[simp] theorem setClocks_dies (cs : List Nat) (f : Nat → Nat) : (s.setClocks cs f).dies = s.dies := by
  rw [setClocks_only]
@[simp] theorem setClocks_eventSeq (cs : List Nat) (f : Nat → Nat) : (s.setClocks cs f).eventSeq = s.eventSeq := by
  rw [setClocks_only]

theorem part_congr {t : State} (h : t.parts = s.parts) (q : Nat) : t.part q = s.part q :=
  congrArg (fun x : Tbl Partition => x.get Partition.absent q) h

theorem core_congr {t : State} (h : t.cores = s.cores) (c : Nat) : t.core c = s.core c :=
  congrArg (fun x : Tbl Core => x.get Core.initial c) h

theorem die_congr {t : State} (h : t.dies = s.dies) (d : Nat) : t.die d = s.die d :=
  congrArg (fun x : Tbl Die => x.get Die.initial d) h

theorem setClocks_mhz {cs : List Nat} (hc : cs.Nodup) (f : Nat → Nat) (c : Nat) :
    ((s.setClocks cs f).core c).mhz = if c ∈ cs then f (s.core c).mhz else (s.core c).mhz := by
  induction cs generalizing s with
  | nil => rfl
  | cons k r ih =>
    obtain ⟨hn, hr⟩ := List.nodup_cons.mp hc
    refine (ih (s.setCore k { s.core k with mhz := f (s.core k).mhz }) hr).trans ?_
    rw [State.core_setCore]
    by_cases he : c = k
    · subst he; simp [hn]
    · simp [he]

end

section
variable (s : State) (fn code unit ctx : Nat) (data : Option DWord)

theorem post_parts : (s.post fn code unit ctx data).parts = s.parts := by
  obtain ⟨m, rs, fs, ns, h⟩ := post_only (s := s) fn code unit ctx data
  rw [h]

theorem post_cores : (s.post fn code unit ctx data).cores = s.cores := by
  obtain ⟨m, rs, fs, ns, h⟩ := post_only (s := s) fn code unit ctx data
  rw [h]

theorem post_boot : (s.post fn code unit ctx data).boot = s.boot := by
  obtain ⟨m, rs, fs, ns, h⟩ := post_only (s := s) fn code unit ctx data
  rw [h]

end

/-! ### The lowest clock of a partition (R341) -/

section
variable {s t : State} {p b mhz : Nat}

theorem mem_coresOf {c : Nat} : c ∈ s.coresOf p ↔ c < 512 ∧ s.owns p (clusterOfCore c) = true := by
  simp only [State.coresOf, List.mem_filter, List.mem_range]

theorem coresOf_nodup : (s.coresOf p).Nodup := List.nodup_range.filter _

theorem diesOf_nodup : (s.diesOf p).Nodup := List.nodup_range.filter _

theorem le_foldl_min {f : Nat → Nat} {cs : List Nat} {a : Nat} :
    b ≤ cs.foldl (fun m c => min m (f c)) a ↔ b ≤ a ∧ ∀ c ∈ cs, b ≤ f c := by
  induction cs generalizing a with
  | nil => simp
  | cons c r ih => simp only [List.foldl_cons, ih, Nat.le_min, List.forall_mem_cons, and_assoc]

theorem le_lowClock : b ≤ s.lowClock p ↔ b ≤ 2400 ∧ ∀ c ∈ s.coresOf p, b ≤ (s.core c).mhz := le_foldl_min

theorem lowClock_le {c : Nat} (hc : c ∈ s.coresOf p) : s.lowClock p ≤ (s.core c).mhz :=
  (le_lowClock.mp le_rfl).2 c hc

section
variable (hp : (t.part p).clusters = (s.part p).clusters)
include hp

theorem owns_congr (k : Nat) : t.owns p k = s.owns p k := congrArg (fun w : Word => w.getLsbD k) hp

theorem coresOf_congr : t.coresOf p = s.coresOf p := by simp only [State.coresOf, owns_congr hp]

theorem diesOf_congr : t.diesOf p = s.diesOf p := by simp only [State.diesOf, owns_congr hp]

/-- A partition's lowest clock is one of its cores', whatever else changes. -/
theorem lowClock_congr (hc : t.cores = s.cores) : t.lowClock p = s.lowClock p := by
  simp only [State.lowClock, coresOf_congr hp, State.core, hc]

end

/-- The cores of a partition all run at one clock. -/
def State.clocked (s : State) (p mhz : Nat) : State := s.setClocks (s.coresOf p) fun _ => mhz

theorem clocked_part (q : Nat) : (s.clocked p mhz).part q = s.part q := part_congr s (setClocks_parts _ _ _) q

theorem clocked_die (d : Nat) : (s.clocked p mhz).die d = s.die d := die_congr s (setClocks_dies _ _ _) d

theorem clocked_coresOf (q : Nat) : (s.clocked p mhz).coresOf q = s.coresOf q :=
  coresOf_congr (congrArg Partition.clusters (clocked_part q))

theorem clocked_mhz {c : Nat} (hc : c < 512) :
    ((s.clocked p mhz).core c).mhz = if s.owns p (clusterOfCore c) then mhz else (s.core c).mhz := by
  rw [State.clocked, setClocks_mhz _ coresOf_nodup]
  simp only [mem_coresOf, hc, true_and]

theorem clocked_mem {c : Nat} (hc : c ∈ s.coresOf p) : ((s.clocked p mhz).core c).mhz = mhz :=
  (setClocks_mhz s coresOf_nodup _ c).trans (if_pos hc)

/-- Its lowest clock is then that one, where that is none above 2.4 GHz. -/
theorem clocked_lowClock (hm : mhz ≤ 2400) (hc : ∃ c, c < 512 ∧ s.owns p (clusterOfCore c) = true) :
    (s.clocked p mhz).lowClock p = mhz := by
  obtain ⟨c, hc⟩ := hc
  have hc : c ∈ s.coresOf p := mem_coresOf.mpr hc
  refine le_antisymm ?_ (le_lowClock.mpr ⟨hm, fun k hk => ?_⟩)
  · exact (lowClock_le (by rw [clocked_coresOf]; exact hc)).trans (clocked_mem hc).le
  · rw [clocked_coresOf] at hk
    exact (clocked_mem hk).ge

theorem clocked_lowClock_ge (hb : b ≤ 2400) (hm : b ≤ mhz) : b ≤ (s.clocked p mhz).lowClock p := by
  refine le_lowClock.mpr ⟨hb, fun k hk => ?_⟩
  rw [clocked_coresOf] at hk
  exact hm.trans (clocked_mem hk).ge

end

/-! ### A partition after a change of its clocks (R341) -/

/-- A partition below 1.8 GHz, before its THROTTLE is posted. -/
def State.slowed (s : State) (p : Nat) : State :=
  (s.setThr (s.diesOf p) true).setPart p
    { s.part p with throttled := true, f := s.lowClock p / 100, fastFrom := none }

section
variable {s : State} {p : Nat}

theorem afterClocks_dead (h : (s.part p).live = false) : s.afterClocks p = s := by
  simp only [State.afterClocks, h, Bool.not_false, if_true]

section
variable (hl : (s.part p).live = true)
include hl

theorem afterClocks_slow (h : s.lowClock p < 1800) : s.afterClocks p =
    if (s.part p).throttled then s.slowed p else (s.slowed p).post 0 evThrottle p 0 none := by
  unfold State.afterClocks
  dsimp only
  rw [if_neg (by simp [hl]), if_pos h]
  rfl

theorem afterClocks_fast (h : 1800 ≤ s.lowClock p) : s.afterClocks p =
    if (s.part p).throttled then
      s.setPart p { s.part p with
        f := s.lowClock p / 100, fastFrom := some ((s.part p).fastFrom.getD (s.ticks 0)) }
    else s := by
  unfold State.afterClocks
  dsimp only
  rw [if_neg (by simp [hl]), if_neg (Nat.not_lt.mpr h)]

end

theorem slowed_only : s.slowed p = { s with dies := (s.slowed p).dies, parts := (s.slowed p).parts } := by
  rw [State.slowed, setThr_only]
  rfl

theorem slowed_cores : (s.slowed p).cores = s.cores := by rw [slowed_only]
theorem slowed_groups : (s.slowed p).groups = s.groups := by rw [slowed_only]
theorem slowed_eventSeq : (s.slowed p).eventSeq = s.eventSeq := by rw [slowed_only]

theorem slowed_part (q : Nat) : (s.slowed p).part q =
    if q = p then { s.part p with throttled := true, f := s.lowClock p / 100, fastFrom := none } else s.part q := by
  rw [State.slowed, State.part_setPart, part_congr s (setThr_parts _ _ _)]

theorem slowed_thr (e : Nat) : ((s.slowed p).die e).thr = (decide (e ∈ s.diesOf p) || (s.die e).thr) := by
  rw [State.slowed, State.die_setPart, setThr_eq, changeDies_die _ diesOf_nodup]
  by_cases h : e ∈ s.diesOf p <;> simp [h]

/-- What a slow partition's state is, whether its THROTTLE is posted now or was before. -/
theorem afterClocks_slowed (hl : (s.part p).live = true) (h : s.lowClock p < 1800) : ∃ m rs fs ns, s.afterClocks p =
    { s.slowed p with
      eventSeq := if (s.part p).throttled then s.eventSeq else s.eventSeq + 1
      mem := m, replicas := rs, fronts := fs, fns := ns } := by
  rw [afterClocks_slow hl h, ← slowed_eventSeq (s := s) (p := p)]
  split
  · exact ⟨_, _, _, _, rfl⟩
  · exact post_only _ _ _ _ _

/-- From `s` to `t` cores and groups stand, and so do the partitions with their clusters; no throttling ends. -/
structure ClocksKept (s t : State) : Prop where
  cores : t.cores = s.cores
  groups : t.groups = s.groups
  live : ∀ q, (t.part q).live = (s.part q).live
  clusters : ∀ q, (t.part q).clusters = (s.part q).clusters
  throttled : ∀ q, (s.part q).throttled = true → (t.part q).throttled = true

theorem ClocksKept.refl (s : State) : ClocksKept s s := ⟨rfl, rfl, fun _ => rfl, fun _ => rfl, fun _ h => h⟩

theorem ClocksKept.trans {s t u : State} (h : ClocksKept s t) (k : ClocksKept t u) : ClocksKept s u :=
  ⟨k.cores.trans h.cores, k.groups.trans h.groups, fun q => (k.live q).trans (h.live q),
    fun q => (k.clusters q).trans (h.clusters q), fun q ht => k.throttled q (h.throttled q ht)⟩

theorem ClocksKept.of_part {t : State} {x : Partition} (hc : t.cores = s.cores) (hg : t.groups = s.groups)
    (hp : ∀ q, t.part q = if q = p then x else s.part q) (hl : x.live = (s.part p).live)
    (hk : x.clusters = (s.part p).clusters) (ht : (s.part p).throttled = true → x.throttled = true) :
    ClocksKept s t := by
  refine ⟨hc, hg, fun q => ?_, fun q => ?_, fun q h => ?_⟩ <;> rw [hp] <;> split
  · next hq => rw [hl, hq]
  · rfl
  · next hq => rw [hk, hq]
  · rfl
  · next hq => exact ht (hq ▸ h)
  · exact h

theorem clocksKept_afterClocks (s : State) (p : Nat) : ClocksKept s (s.afterClocks p) := by
  cases hl : (s.part p).live with
  | false => rw [afterClocks_dead hl]; exact ClocksKept.refl s
  | true =>
    rcases Nat.lt_or_ge (s.lowClock p) 1800 with h | h
    · obtain ⟨m, rs, fs, ns, ht⟩ := afterClocks_slowed hl h
      rw [ht]
      exact ClocksKept.of_part
        (t := { s.slowed p with eventSeq := _, mem := m, replicas := rs, fronts := fs, fns := ns })
        slowed_cores slowed_groups slowed_part rfl rfl fun _ => rfl
    · rw [afterClocks_fast hl h]
      split
      · exact ClocksKept.of_part rfl rfl (fun q => State.part_setPart _ _ _ _) rfl rfl id
      · exact ClocksKept.refl s

theorem clocksKept_afterAll (s : State) (ps : List Nat) : ClocksKept s (ps.foldl State.afterClocks s) :=
  List.foldlRecOn (motive := ClocksKept s) ps _ (ClocksKept.refl s) fun t h q _ => h.trans (clocksKept_afterClocks t q)

theorem afterClocks_throttles (hl : (s.part p).live = true) (h : s.lowClock p < 1800) :
    ((s.afterClocks p).part p).throttled = true := by
  obtain ⟨m, rs, fs, ns, ht⟩ := afterClocks_slowed hl h
  rw [ht]
  exact congrArg Partition.throttled ((slowed_part p).trans (if_pos rfl))

/-- Of several partitions each slow one is throttled: what comes before it leaves its clocks, and what comes after it ends
no throttling. -/
theorem afterAll_throttles {ps : List Nat} (hp : p ∈ ps) (hl : (s.part p).live = true) (h : s.lowClock p < 1800) :
    ((ps.foldl State.afterClocks s).part p).throttled = true := by
  obtain ⟨a, b, rfl⟩ := List.append_of_mem hp
  have hk := clocksKept_afterAll s a
  rw [List.foldl_append, List.foldl_cons]
  refine (clocksKept_afterAll _ b).throttled p (afterClocks_throttles ((hk.live p).trans hl) ?_)
  rw [lowClock_congr (hk.clusters p) hk.cores]
  exact h

end

/-! ### The end of throttling (R341) -/

section
variable {s : State} {p since : Nat}

theorem unthrottle_only (s : State) (p : Nat) : s.unthrottle p = { s with
    dies := (s.unthrottle p).dies
    parts := s.parts.set p { s.part p with throttled := false, f := 18, fastFrom := none } } := by
  exact setThr_only (s.setPart p { s.part p with throttled := false, f := 18, fastFrom := none }) _ false

theorem unthrottle_boot (s : State) (p : Nat) : (s.unthrottle p).boot = s.boot := by rw [unthrottle_only]
theorem unthrottle_launches (s : State) (p : Nat) : (s.unthrottle p).launches = s.launches := by rw [unthrottle_only]

theorem unthrottle_part (q : Nat) : (s.unthrottle p).part q =
    if q = p then { s.part p with throttled := false, f := 18, fastFrom := none } else s.part q := by
  have hp : (s.unthrottle p).parts = _ := congrArg State.parts (unthrottle_only s p)
  rw [State.part, hp, tbl_get_set]
  rfl

theorem throttleEnd_due (ht : (s.part p).throttled = true) (hf : (s.part p).fastFrom = some since)
    (h : since + 4000000 ≤ s.ticks 0) : s.throttleEnd p = s.unthrottle p := by
  refine if_pos ?_
  rw [ht, hf, Option.any_some, decide_eq_true h]
  rfl

theorem throttleEnd_none (h : (s.part p).throttled = false ∨ (s.part p).fastFrom = none) : s.throttleEnd p = s := by
  rcases h with h | h <;>
    simp only [State.throttleEnd, h, Option.any_none, Bool.false_and, Bool.and_false, Bool.false_eq_true, if_false]

end

/-! ### THROTTLE (R341) -/

section
variable {s : State} {p mhz : Nat}

theorem throttle_dead (h : (s.part p).live = false) : s.throttle p mhz = s := by
  simp only [State.throttle, h, Bool.not_false, Bool.true_or, if_true]

theorem throttle_clocks (h : (s.part p).live = true) (h0 : 0 < mhz) :
    s.throttle p mhz = (s.clocked p mhz).afterClocks p := by
  simp only [State.throttle, h, Nat.ne_of_gt h0, Bool.not_true, decide_false, Bool.or_self, Bool.false_eq_true, if_false]
  rfl

section
variable (h : (s.part p).live = true)
include h

/-- Cores and groups after THROTTLE. -/
theorem throttle_cores (h0 : 0 < mhz) : (s.throttle p mhz).groups = s.groups ∧
    ∀ c, c < 512 → ((s.throttle p mhz).core c).mhz = if s.owns p (clusterOfCore c) then mhz else (s.core c).mhz := by
  have hk := clocksKept_afterClocks (s.clocked p mhz) p
  rw [throttle_clocks h h0]
  refine ⟨hk.groups.trans (setClocks_groups _ _ _), fun c hc => ?_⟩
  rw [core_congr _ hk.cores, clocked_mhz hc]

section
variable (h0 : 0 < mhz) (hm : mhz < 1800) (hc : ∃ c, c < 512 ∧ s.owns p (clusterOfCore c) = true)
include h0 hm hc

/-- Below 1.8 GHz the partition is throttled. -/
theorem throttle_slow : ∃ m rs fs ns, s.throttle p mhz = { (s.clocked p mhz).slowed p with
    eventSeq := if (s.part p).throttled then s.eventSeq else s.eventSeq + 1
    mem := m, replicas := rs, fronts := fs, fns := ns } := by
  have hlow : (s.clocked p mhz).lowClock p = mhz := clocked_lowClock (by omega) hc
  have hseq : (s.clocked p mhz).eventSeq = s.eventSeq := setClocks_eventSeq _ _ _
  rw [throttle_clocks h h0, ← hseq, ← clocked_part (mhz := mhz) (p := p) p]
  exact afterClocks_slowed (by rw [clocked_part]; exact h) (by rw [hlow]; exact hm)

theorem throttle_slow_part : (s.throttle p mhz).part p =
    { s.part p with throttled := true, f := mhz / 100, fastFrom := none } := by
  obtain ⟨m, rs, fs, ns, ht⟩ := throttle_slow h h0 hm hc
  rw [ht]
  refine (slowed_part p).trans ((if_pos rfl).trans ?_)
  rw [clocked_lowClock (by omega) hc, clocked_part]

theorem throttle_slow_thr (e : Nat) :
    ((s.throttle p mhz).die e).thr = (decide (e ∈ s.diesOf p) || (s.die e).thr) := by
  obtain ⟨m, rs, fs, ns, ht⟩ := throttle_slow h h0 hm hc
  rw [ht]
  refine (slowed_thr e).trans ?_
  rw [diesOf_congr (congrArg Partition.clusters (clocked_part p)), clocked_die]

theorem throttle_slow_eventSeq :
    (s.throttle p mhz).eventSeq = if (s.part p).throttled then s.eventSeq else s.eventSeq + 1 := by
  obtain ⟨m, rs, fs, ns, ht⟩ := throttle_slow h h0 hm hc
  rw [ht]

end

/-- At 1.8 GHz or above the 1 ms of a throttled partition begins, or goes on. -/
theorem throttle_fast (hm : 1800 ≤ mhz) : s.throttle p mhz =
    if (s.part p).throttled then
      (s.clocked p mhz).setPart p { s.part p with
        f := (s.clocked p mhz).lowClock p / 100, fastFrom := some ((s.part p).fastFrom.getD (s.ticks 0)) }
    else s.clocked p mhz := by
  have hticks : (s.clocked p mhz).ticks 0 = s.ticks 0 := congrArg Die.ticks (clocked_die 0)
  rw [throttle_clocks h (by omega),
    afterClocks_fast (by rw [clocked_part]; exact h) (clocked_lowClock_ge (by decide) hm), clocked_part, hticks]

end

end

/-! ### Temperature (R341, R428) -/

/-- A die's clocks go down, and TEMP is posted. -/
def State.warmed (s : State) (d mhz : Nat) : State :=
  (s.setClocks ((List.range 128).map (128 * d + ·)) fun m => min m mhz).post 0 evTemp (d * 256) 0 none

/-- The partitions with clusters on a die. -/
def State.partsOn (s : State) (d : Nat) : List Nat := (List.range 8).filter fun q => (s.diesOf q).contains d

section
variable {s : State} {d mhz q : Nat}

theorem mem_partsOn : q ∈ s.partsOn d ↔ q < 8 ∧ d ∈ s.diesOf q := by
  simp only [State.partsOn, List.mem_filter, List.mem_range, List.contains_iff_mem]

theorem warmed_parts (s : State) (d mhz : Nat) : (s.warmed d mhz).parts = s.parts :=
  (post_parts _ _ _ _ _ _).trans (setClocks_parts _ _ _)

theorem warmed_groups (s : State) (d mhz : Nat) : (s.warmed d mhz).groups = s.groups :=
  (post_groups _ _ _ _ _ _).trans (setClocks_groups _ _ _)

theorem warmed_eventSeq (s : State) (d mhz : Nat) : (s.warmed d mhz).eventSeq = s.eventSeq + 1 := by
  rw [State.warmed, post_eventSeq, setClocks_eventSeq]

theorem warmed_part (s : State) (d mhz q : Nat) : (s.warmed d mhz).part q = s.part q :=
  part_congr s (warmed_parts s d mhz) q

theorem tooWarm_eq (s : State) (d mhz : Nat) :
    s.tooWarm d mhz = (s.partsOn d).foldl State.afterClocks (s.warmed d mhz) := by
  have hp : (s.warmed d mhz).partsOn d = s.partsOn d := by
    simp only [State.partsOn, diesOf_congr (congrArg Partition.clusters (warmed_part s d mhz _))]
  rw [← hp]
  rfl

theorem warmed_mhz (s : State) (d mhz c : Nat) : ((s.warmed d mhz).core c).mhz =
    if dieOfCore c = d then min (s.core c).mhz mhz else (s.core c).mhz := by
  have hn : ((List.range 128).map (128 * d + ·)).Nodup := List.nodup_range.map (add_injective _)
  have hm : c ∈ (List.range 128).map (128 * d + ·) ↔ dieOfCore c = d := by
    simp only [List.mem_map, List.mem_range, dieOfCore]
    exact ⟨fun ⟨k, hk, he⟩ => by omega, fun he => ⟨c % 128, by omega, by omega⟩⟩
  rw [State.warmed, core_congr _ (post_cores _ _ _ _ _ _), setClocks_mhz _ hn]
  simp only [hm]

/-- A partition with clusters on a die has a core there. -/
theorem core_on_die (h : d ∈ s.diesOf q) : ∃ c, c ∈ s.coresOf q ∧ dieOfCore c = d := by
  simp only [State.diesOf, List.mem_filter, List.mem_range, Bool.or_eq_true] at h
  obtain ⟨hd, h | h⟩ := h
  · refine ⟨128 * d, mem_coresOf.mpr ⟨by omega, ?_⟩, by simp only [dieOfCore]; omega⟩
    rwa [show clusterOfCore (128 * d) = 2 * d by simp only [clusterOfCore]; omega]
  · refine ⟨128 * d + 64, mem_coresOf.mpr ⟨by omega, ?_⟩, by simp only [dieOfCore]; omega⟩
    rwa [show clusterOfCore (128 * d + 64) = 2 * d + 1 by simp only [clusterOfCore]; omega]

/-- A limit below 1.8 GHz is one for every partition on the die. -/
theorem warmed_lowClock (h : d ∈ s.diesOf q) (hm : mhz < 1800) : (s.warmed d mhz).lowClock q < 1800 := by
  obtain ⟨c, hc, hd⟩ := core_on_die h
  have hc' : c ∈ (s.warmed d mhz).coresOf q := by
    simp only [mem_coresOf, State.owns, warmed_part] at hc ⊢
    exact hc
  have hle := lowClock_le hc'
  rw [warmed_mhz, if_pos hd] at hle
  omega

end

end Sys2Proof.Machine

end

section
/-! SUPPORT. Ends of launches and kills of contexts (R361, R391): what they leave of the device. -/

namespace Sys2Proof.Machine

open Sys2Proof

/-- From `s` to `t` boot, the partitions and the kills of contexts stand. -/
def DeviceKept (s t : State) : Prop :=
  t.boot = s.boot ∧ t.parts = s.parts ∧ ∀ k, (t.ctx k).killed = (s.ctx k).killed

theorem DeviceKept.refl (s : State) : DeviceKept s s := ⟨rfl, rfl, fun _ => rfl⟩

theorem DeviceKept.trans {s t u : State} (h : DeviceKept s t) (k : DeviceKept t u) : DeviceKept s u := by
  obtain ⟨hb, hp, hk⟩ := h
  obtain ⟨kb, kp, kk⟩ := k
  exact ⟨kb.trans hb, kp.trans hp, fun c => (kk c).trans (hk c)⟩

theorem DeviceKept.foldl {α : Type} {f : State → α → State} (h : ∀ s x, DeviceKept s (f s x)) (l : List α)
    (s : State) : DeviceKept s (l.foldl f s) :=
  List.foldlRecOn (motive := DeviceKept s) l f (DeviceKept.refl s) fun t ht x _ => ht.trans (h t x)

section
variable (s : State)

theorem deviceKept_leaveDone (c : Nat) : DeviceKept s (s.leaveDone c) := by
  refine ⟨by rw [leaveDone_only], by rw [leaveDone_only], fun k => ?_⟩
  simp only [State.leaveDone]
  split
  · split
    · rw [State.ctx_setCtx]
      split
      · next hk => rw [hk]
      · rfl
    · rfl
  · rfl

theorem deviceKept_arriveDies : DeviceKept s s.arriveDies := by
  refine DeviceKept.foldl (fun t d => ?_) _ s
  exact ⟨rfl, rfl, fun _ => rfl⟩

theorem deviceKept_discards (gs : List Nat) :
    DeviceKept s (gs.foldl (fun s g => s.setGroup g (s.group g).discard) s) := by
  refine DeviceKept.foldl (fun t g => ?_) gs s
  exact ⟨rfl, rfl, fun _ => rfl⟩

theorem deviceKept_discardLaunch (l : Nat) : DeviceKept s (s.discardLaunch l) := by
  unfold State.discardLaunch
  extract_lets gs s1 s2 s3 s4
  have h2 : DeviceKept s s2 := ⟨rfl, rfl, fun _ => rfl⟩
  have h4 : DeviceKept s3 s4 := ⟨rfl, rfl, fun _ => rfl⟩
  exact ((h2.trans (deviceKept_discards s2 gs)).trans h4).trans (deviceKept_arriveDies s4)

theorem deviceKept_markFaileds (pas : List Nat) :
    DeviceKept s (pas.foldl (fun s pa => s.markFailed (pa / 128)) s) := by
  refine DeviceKept.foldl (fun t pa => ?_) pas s
  exact ⟨rfl, rfl, fun _ => rfl⟩

theorem deviceKept_records (pas : List Nat) (m : List Host.Cell) (l : Nat) (x : Launch) :
    DeviceKept s ({ s.sweep pas with mem := m }.setLaunch l x) := ⟨rfl, rfl, fun _ => rfl⟩

theorem deviceKept_endLaunch (l reason : Nat) (abnormal cut : Bool) (t : Option DWord) :
    DeviceKept s (s.endLaunch l reason abnormal cut t) := by
  unfold State.endLaunch
  extract_lets x s1 s2 m
  have h1 : DeviceKept s s1 := deviceKept_markFaileds s _
  have h2 : DeviceKept s1 s2 := deviceKept_discardLaunch s1 l
  exact ((h1.trans h2).trans (deviceKept_records s2 _ m l _)).trans (deviceKept_leaveDone _ _)

/-- A kill ends in the context's mark and the event, on a state with the same partitions and kills. -/
theorem killCtx_last (c code : Nat) (data : Option DWord) : ∃ u, DeviceKept s u ∧ s.killCtx c code data =
    (u.setCtx c { u.ctx c with killed := true, leaving := .no }).post (u.fnOfCtx c) code 0 c data := by
  unfold State.killCtx
  extract_lets s1 hs s2 s3
  have h1 : DeviceKept s s1 :=
    DeviceKept.foldl (fun t l => deviceKept_endLaunch t l 6 true false none) (s.launchesOf c) s
  have h2 : DeviceKept s s2 := h1.trans (deviceKept_discards s1 hs)
  have h3 : DeviceKept s2 { s2 with
      faults := s2.faults.filter fun f => f.2.ctx != c
      submissions := s2.submissions.filter fun x => x.ctx != c } := ⟨rfl, rfl, fun _ => rfl⟩
  exact ⟨s3, (h2.trans h3).trans (deviceKept_arriveDies _), rfl⟩

theorem killCtx_boot (c code : Nat) (data : Option DWord) : (s.killCtx c code data).boot = s.boot := by
  obtain ⟨u, hu, h⟩ := killCtx_last s c code data
  rw [h, post_boot, State.setCtx_boot, hu.1]

/-- The context is killed, and what was killed before stays so. -/
theorem killCtx_kills (c code : Nat) (data : Option DWord) (k : Nat) :
    ((s.killCtx c code data).ctx k).killed = (decide (k = c) || (s.ctx k).killed) := by
  obtain ⟨u, ⟨-, -, hk⟩, h⟩ := killCtx_last s c code data
  rw [h, post_ctx, State.ctx_setCtx]
  by_cases hc : k = c
  · simp [hc]
  · simp [hc, hk]

theorem killAll_kills (cs : List Nat) (k : Nat) :
    ((cs.foldl (fun s c => s.killCtx c evKill none) s).ctx k).killed = (decide (k ∈ cs) || (s.ctx k).killed) := by
  induction cs generalizing s with
  | nil => simp
  | cons c r ih =>
    rw [List.foldl_cons, ih, killCtx_kills]
    by_cases hc : k = c <;> simp [hc]

/-- The contexts that are live. -/
def State.liveCtxs (s : State) : List Nat := (s.ctxs.map (·.1)).eraseDups.filter fun c => (s.ctx c).live

theorem mem_liveCtxs {c : Nat} (h : (s.ctx c).live = true) : c ∈ s.liveCtxs := by
  simp only [State.liveCtxs, List.mem_filter, List.mem_eraseDups]
  refine ⟨?_, h⟩
  by_contra hn
  rw [State.ctx, tbl_get_unlisted hn] at h
  cases h

/-- Every live context is killed. -/
theorem killLive_kills {c : Nat} (h : (s.ctx c).live = true) :
    ((s.liveCtxs.foldl (fun s c => s.killCtx c evKill none) s).ctx c).killed = true := by
  rw [killAll_kills, decide_eq_true (mem_liveCtxs s h), Bool.true_or]

theorem ctx_resetHold (c : Nat) : State.ctx { s with resetHold := true } c = s.ctx c := rfl

/-- The critical temperature posts its event, kills every live context and holds the cores. -/
theorem critical_eq (d : Nat) : s.critical d =
    let u := s.post 0 evTemp (d * 256) 0 none
    { u.liveCtxs.foldl (fun s c => s.killCtx c evKill none) u with resetHold := true } := rfl

theorem critical_kills (d : Nat) {c : Nat} (h : (s.ctx c).live = true) : ((s.critical d).ctx c).killed = true := by
  rw [critical_eq, ctx_resetHold]
  exact killLive_kills _ (by rw [post_ctx]; exact h)

end

end Sys2Proof.Machine

open Sys2Proof Sys2Proof.Machine

/-- Settles O55: each monitor's event is one of the cases of its operation, and a partition's throttle state follows from
the lowest of its clocks. -/
theorem monitors : Obligations.Monitors := by
  intro s p mhz d pa g since
  refine ⟨fun hl h0 hm hc => ⟨_, rfl, ?_⟩, fun hl hm => ⟨_, rfl, ?_⟩,
    fun hl => congrArg Host.Outcome.next (throttle_dead hl),
    fun ht hf hs => ⟨_, congrArg Host.Outcome.next (throttleEnd_due ht hf hs), ?_⟩,
    fun h => congrArg Host.Outcome.next (throttleEnd_none h),
    fun hd h0 => ⟨_, congrArg Host.Outcome.next (if_pos ⟨hd, h0⟩), ?_⟩,
    ⟨_, rfl, rfl, fun c hc => critical_kills s s.site hc⟩,
    fun hu hb => congrArg Host.Outcome.next (command_done hu (by decide) hb rfl), rfl,
    fun h => congrArg Host.Outcome.next (if_pos h), fun h => congrArg Host.Outcome.next (if_pos h),
    fun h => congrArg Host.Outcome.next (if_neg (by simp [h]))⟩
  · obtain ⟨hgroups, hcores⟩ := throttle_cores hl h0
    have hpart := throttle_slow_part hl h0 hm hc
    exact ⟨congrArg Partition.throttled hpart, congrArg Partition.f hpart, hcores,
      fun e _ => throttle_slow_thr hl h0 hm hc e, throttle_slow_eventSeq hl h0 hm hc, hgroups⟩
  · obtain ⟨hgroups, hcores⟩ := throttle_cores (mhz := mhz) hl (by omega)
    have hseq : (s.clocked p mhz).eventSeq = s.eventSeq := setClocks_eventSeq _ _ _
    refine ⟨?_, ?_, fun hth => ?_, hcores, hgroups⟩
    · rw [throttle_fast hl hm]
      split
      · rw [State.part_setPart, if_pos rfl]
      · rw [clocked_part]
    · rw [throttle_fast hl hm]
      split <;> simp only [State.setPart_eventSeq, hseq]
    · rw [throttle_fast hl hm, if_pos hth, State.part_setPart, if_pos rfl]
      exact ⟨rfl, fun hm' hc => congrArg (· / 100) (clocked_lowClock hm' hc)⟩
  · rw [unthrottle_part, if_pos rfl]
    refine ⟨rfl, rfl, ?_, ?_, ?_⟩ <;> rw [unthrottle_only]
  · rw [tooWarm_eq]
    have hk := clocksKept_afterAll (s.warmed d mhz) (s.partsOn d)
    refine ⟨fun c _ => ?_, fun hq => ?_, fun q hq hdq hlq hm => ?_, hk.groups.trans (warmed_groups s d mhz)⟩
    · rw [core_congr _ hk.cores, warmed_mhz]
    · rw [foldl_kept fun q hqm => afterClocks_dead ?_]
      · exact warmed_eventSeq s d mhz
      · obtain ⟨hq8, hdq⟩ := mem_partsOn.mp hqm
        rw [warmed_part]
        exact hq q hq8 hdq
    · exact afterAll_throttles (mem_partsOn.mpr ⟨hq, hdq⟩) (by rw [warmed_part]; exact hlq) (warmed_lowClock hdq hm)

end

section
/-! SUPPORT. The physical function's commands (R323, R324, R339, R391, R400, R406, R421, R424, R431): what each does, and the
error that refuses it. -/

namespace Sys2Proof.Machine

open Sys2Proof

/-! ### How a command ends (R421, R422) -/

section
variable {s t : State} (hu : s.up = true) (hb : s.mbBusy 0 = false)
include hu hb

theorem pfCommand_done {f : Command} (hf : f s = .ok t) : s.command 0 (pfOnly 0 f) = t.mbSet 0 1 :=
  command_done hu (by decide) hb hf

/-- A command that fails leaves its error's code above DONE. -/
theorem pfCommand_fails {f : Command} {e : MbError} (hf : f s = .error e) :
    s.command 0 (pfOnly 0 f) = s.mbSet 0 (BitVec.ofNat 64 (e.code * 256 + 1)) := by
  have hp : pfOnly 0 f s = .error e := hf
  simp only [State.command, State.mbAlive, up_iff.mp hu, hb, hu, hp, if_true, Nat.not_lt.mpr (Nat.zero_le 64)]
  rfl

theorem pfCommand_malformed {f : Command} (hf : f s = .error .malformed) : s.command 0 (pfOnly 0 f) = s.mbSet 0 0x101 :=
  pfCommand_fails hu hb hf

theorem pfCommand_refused {f : Command} (hf : f s = .error .notPermitted) :
    s.command 0 (pfOnly 0 f) = s.mbSet 0 0x201 := pfCommand_fails hu hb hf

end

/-- DONE stands alone in the status of a device that is up. -/
theorem mbStatus_done {s t : State} (hu : s.up = true) (ht : t.boot = s.boot) : ((t.mbSet 0 1).fn 0).mbStatus = 1 :=
  mbStatus_mbSet (by rw [ht, up_iff.mp hu]; simp) 0 1

section
variable (s : State) (n k : Nat) (v : DWord)

theorem die_mbSet : (s.mbSet n v).die k = s.die k := rfl
theorem part_mbSet : (s.mbSet n v).part k = s.part k := rfl
theorem ctx_mbSet : (s.mbSet n v).ctx k = s.ctx k := rfl
theorem launch_mbSet : (s.mbSet n v).launch k = s.launch k := rfl
theorem group_mbSet : (s.mbSet n v).group k = s.group k := rfl

end

/-! ### SETEPOCH and TIMEPOST (R323, R324) -/

section
variable {s : State} {x delay : DWord}

theorem cmdSetEpoch_loads (h : ∀ d, d < 4 → (s.die d).epoch = false) :
    cmdSetEpoch x s = .ok (s.changeDies (List.range 4) fun y => y.load x) := by
  have hn : ((List.range 4).any fun d => (s.die d).epoch) = false :=
    List.any_eq_false.mpr fun d hd => by simp [h d (List.mem_range.mp hd)]
  simp only [cmdSetEpoch, hn, Bool.false_eq_true, if_false]
  rfl

theorem cmdSetEpoch_refused (h : ∃ d, d < 4 ∧ (s.die d).epoch = true) : cmdSetEpoch x s = .error .notPermitted := by
  obtain ⟨d, hd, he⟩ := h
  exact if_pos (List.any_eq_true.mpr ⟨d, List.mem_range.mpr hd, he⟩)

/-- The state that TIMEPOST leaves. -/
def State.posted (s : State) (x delay : DWord) : State :=
  if s.followsHost then s.exchange ((x.toNat : Int) + delay.toNat - (s.time 0).toNat) else s

theorem exchange_boot (s : State) (ahead : Int) : (s.exchange ahead).boot = s.boot := by
  rw [exchange_eq]
  refine List.foldlRecOn (motive := fun t : State => t.boot = s.boot) _ _ rfl fun t ht d _ => ?_
  simp only [State.exchangeOn]
  split
  · exact ht
  · split
    · rw [post_boot, State.setDie_boot, ht]
    · exact ht

/-- A die that follows no clock takes no exchange. -/
theorem exchange_unled {e : Nat} (s : State) (ahead : Int) (h : (s.die e).src = 0) :
    (s.exchange ahead).die e = s.die e := by
  rw [exchange_eq, exchangeOn_foldl _ _ List.nodup_range, if_neg fun hs => hs.2 h]

theorem posted_boot : (s.posted x delay).boot = s.boot := by
  simp only [State.posted]
  split
  · exact exchange_boot _ _
  · rfl

/-- A die takes nothing where the device does not follow the host, or the die no clock. -/
theorem posted_unled {d : Nat} (h : s.followsHost = false ∨ (s.die d).src = 0) : (s.posted x delay).die d = s.die d := by
  simp only [State.posted]
  split
  · next hf => exact exchange_unled _ _ (h.resolve_left (by simp [hf]))
  · rfl

/-- What TIMEPOST does on a die that follows a clock. -/
theorem posted_led {d : Nat} (hf : s.followsHost = true) (hd : d < 4) (hs : (s.die d).src ≠ 0) :
    let ahead : Int := (x.toNat : Int) + delay.toNat - (s.time 0).toNat
    (s.posted x delay).die d = (s.die d).exchange ahead.natAbs ahead := by
  simp only [State.posted, hf, if_true]
  exact exchange_die _ _ hd hs

end

/-! ### PARTDESTROY (R421, R431) -/

section
variable {s : State} {n : Nat}

theorem cmdPartDestroy_absent (h : (s.part n).live = false) : cmdPartDestroy n s = .error .malformed := by
  simp only [cmdPartDestroy, h, Bool.not_false, if_true]

/-- A partition that ends takes its throttle state with it. -/
def State.unclocked (s : State) (n : Nat) (throttled : Bool) : State := if throttled then s.unthrottle n else s

theorem unclocked_fields (s : State) (n : Nat) (b : Bool) : (s.unclocked n b).boot = s.boot ∧
    (s.unclocked n b).launches = s.launches ∧ ∀ k, k ≠ n → (s.unclocked n b).part k = s.part k := by
  cases b with
  | false => exact ⟨rfl, rfl, fun _ _ => rfl⟩
  | true => exact ⟨unthrottle_boot s n, unthrottle_launches s n, fun k hk => (unthrottle_part k).trans (if_neg hk)⟩

/-- PARTDESTROY of a partition: it is gone, its fault-service launch has ended, and no other partition changes. -/
theorem cmdPartDestroy_ends (h : (s.part n).live = true) : ∃ t, cmdPartDestroy n s = .ok t ∧ t.boot = s.boot ∧
    (t.part n).live = false ∧ (t.launch (s.part n).service).ended = true ∧ ∀ k, k ≠ n → t.part k = s.part k := by
  obtain ⟨hb, hp, -⟩ := deviceKept_endLaunch s (s.part n).service 0 false false none
  obtain ⟨ub, ul, up⟩ := unclocked_fields (s.endLaunch (s.part n).service 0 false false none) n (s.part n).throttled
  have ht : cmdPartDestroy n s =
      let u := (s.endLaunch (s.part n).service 0 false false none).unclocked n (s.part n).throttled
      .ok (u.setPart n { u.part n with live := false }) := by
    simp only [cmdPartDestroy, h, Bool.not_true, Bool.false_eq_true, if_false]
    rfl
  refine ⟨_, ht, ub.trans hb, ?_, ?_, fun k hk => ?_⟩
  · rw [State.part_setPart, if_pos rfl]
  · rw [State.launch_setPart, launch_congr _ ul, endLaunch_launch, if_pos rfl]
  · rw [State.part_setPart, if_neg hk, up k hk, part_congr _ hp]

end

/-! ### CALWRITE and CONNWRITE (R339, R424) -/

theorem goodEntry_of {b : Byte} (h : b = 0 ∨ 128 ≤ b.toNat ∧ b.toNat ≤ 192) : goodEntry b = true := by
  rcases h with rfl | ⟨hl, hu⟩
  · decide
  · simp only [goodEntry, if_pos hl, decide_eq_true_eq]
    omega

theorem cmdCalWrite_writes {es : List Byte} (hl : es.length = 64) (h : ∀ b ∈ es, b = 0 ∨ 128 ≤ b.toNat ∧ b.toNat ≤ 192)
    (u : Nat) (s : State) : cmdCalWrite u es s = .ok (s.setCalendar u { s.calendar u with next := some es }) :=
  if_pos ⟨hl, List.all_eq_true.mpr fun b hb => goodEntry_of (h b hb)⟩

/-! ### CTXRESUME (R406) -/

/-- The halted groups of some numbers go on. -/
def State.resumes (s : State) (gs : List Nat) : State :=
  gs.foldl (fun s g => s.setGroup g { s.group g with halted := false }) s

section
variable (s : State) (gs : List Nat)

theorem resumes_only : s.resumes gs = { s with groups := (s.resumes gs).groups } :=
  List.foldlRecOn (motive := fun t : State => t = { s with groups := t.groups }) gs _ rfl fun _ h _ _ => by rw [h]; rfl

theorem resumes_group (k : Nat) :
    (s.resumes gs).group k = if k ∈ gs then { s.group k with halted := false } else s.group k := by
  induction gs generalizing s with
  | nil => rfl
  | cons g r ih =>
    refine (ih (s.setGroup g { s.group g with halted := false })).trans ?_
    rw [State.group_setGroup]
    by_cases hk : k = g
    · subst hk; simp
    · simp [hk]

end

/-! ### The commands of a context (R391, R400, R406) -/

section
variable {s : State} {c : Nat}

section
variable (h : (s.ctx c).live = true)
include h

theorem cmdCtxKill_kills : cmdCtxKill c s = .ok (s.killCtx c evKill none) := if_pos h

theorem cmdCtxLeave_asks : cmdCtxLeave c s =
    .ok (s.setCtx c { s.ctx c with preq := true, leaving := .soft (s.ticks 0) }) := if_pos h

theorem cmdCtxResume_resumes : cmdCtxResume c s =
    .ok (s.resumes (s.liveGroups.filter fun g => decide (s.ctxOf g = c))) := if_pos h

end

/-- The commands of a context are malformed where there is none. -/
theorem ctxCommands_absent (hu : s.up = true) (hb : s.mbBusy 0 = false) (h : (s.ctx c).live = false) :
    ∀ i ∈ [Instr.ctxkill 0 c, .ctxleave 0 c, .ctxresume 0 c], exec i s = .next (s.mbSet 0 0x101) := by
  have hn : ¬ (s.ctx c).live = true := by simp [h]
  have hm : ∀ f : Command, f s = .error .malformed →
      (.next (s.command 0 (pfOnly 0 f)) : Host.Outcome State Fault Refusal) = .next (s.mbSet 0 0x101) :=
    fun f hf => congrArg Host.Outcome.next (pfCommand_malformed hu hb hf)
  simp only [List.forall_mem_cons]
  exact ⟨hm _ (if_neg hn), hm _ (if_neg hn), hm _ (if_neg hn), fun _ h => nomatch h⟩

end

/-! ### The commands through the mailbox -/

section
variable {s : State} (hu : s.up = true) (hb : s.mbBusy 0 = false)
include hu hb

theorem exec_setepoch_loads {x : DWord} (h : ∀ d, d < 4 → (s.die d).epoch = false) :
    ∃ t, exec (.setepoch 0 x) s = .next t ∧ (t.fn 0).mbStatus = 1 ∧ (∀ d, d < 4 → t.die d = (s.die d).load x) ∧
      t = { s with dies := t.dies, fns := t.fns } := by
  have honly := changeDies_only s (List.range 4) fun y => y.load x
  refine ⟨_, congrArg Host.Outcome.next (pfCommand_done hu hb (cmdSetEpoch_loads h)),
    mbStatus_done hu (by rw [honly]), fun d hd => ?_, ?_⟩
  · rw [die_mbSet, changeDies_die _ List.nodup_range, if_pos (List.mem_range.mpr hd)]
  · rw [honly]
    rfl

theorem exec_timepost (x delay : DWord) :
    ∃ t, exec (.timepost 0 x delay) s = .next t ∧ (t.fn 0).mbStatus = 1 ∧ ∀ d, t.die d = (s.posted x delay).die d :=
  ⟨_, congrArg Host.Outcome.next (pfCommand_done (t := s.posted x delay) hu hb rfl), mbStatus_done hu posted_boot,
    fun d => die_mbSet _ _ d _⟩

theorem exec_partdestroy_ends {n : Nat} (h : (s.part n).live = true) :
    ∃ t, exec (.partdestroy 0 n) s = .next t ∧ (t.part n).live = false ∧ (t.fn 0).mbStatus = 1 ∧
      (t.launch (s.part n).service).ended = true ∧ ∀ k, k ≠ n → t.part k = s.part k := by
  obtain ⟨t, ht, hboot, hlive, hended, hothers⟩ := cmdPartDestroy_ends h
  refine ⟨_, congrArg Host.Outcome.next (pfCommand_done hu hb ht), ?_, mbStatus_done hu hboot, ?_, fun k hk => ?_⟩
  · rw [part_mbSet, hlive]
  · rw [launch_mbSet, hended]
  · rw [part_mbSet, hothers k hk]

section
variable {c : Nat} (h : (s.ctx c).live = true)
include h

theorem exec_ctxkill_kills : ∃ t, exec (.ctxkill 0 c) s = .next t ∧ (t.fn 0).mbStatus = 1 ∧ (t.ctx c).killed = true ∧
    ∀ l ∈ s.launchesOf c, (t.launch l).ended = true ∧ (t.launch l).abnormal = true := by
  refine ⟨_, congrArg Host.Outcome.next (pfCommand_done hu hb (cmdCtxKill_kills h)),
    mbStatus_done hu (killCtx_boot s c evKill none), ?_, fun l hl => ?_⟩
  · rw [ctx_mbSet, killCtx_killed]
  · rw [launch_mbSet, killCtx_launch s c evKill none hl]
    exact ⟨rfl, rfl⟩

theorem exec_ctxresume_resumes : ∃ t, exec (.ctxresume 0 c) s = .next t ∧ (t.fn 0).mbStatus = 1 ∧
    (∀ g ∈ s.liveGroups, s.ctxOf g = c → t.group g = { s.group g with halted := false }) ∧
    t = { s with groups := t.groups, fns := t.fns } := by
  have honly := resumes_only s (s.liveGroups.filter fun g => decide (s.ctxOf g = c))
  refine ⟨_, congrArg Host.Outcome.next (pfCommand_done hu hb (cmdCtxResume_resumes h)),
    mbStatus_done hu (by rw [honly]), fun g hg hc => ?_, ?_⟩
  · rw [group_mbSet, resumes_group, if_pos (List.mem_filter.mpr ⟨hg, decide_eq_true hc⟩)]
  · rw [honly]
    rfl

end

end

end Sys2Proof.Machine

open Sys2Proof Sys2Proof.Machine

/-- Settles O51: each command succeeds with its own change or fails with its error, and the mailbox takes the status. -/
theorem deviceCommands : Obligations.DeviceCommands := by
  intro s x delay n c port u es m hu hb
  refine ⟨exec_setepoch_loads hu hb,
    fun he => congrArg Host.Outcome.next (pfCommand_refused hu hb (cmdSetEpoch_refused he)), ?_,
    exec_partdestroy_ends hu hb,
    fun hl => congrArg Host.Outcome.next (pfCommand_malformed hu hb (cmdPartDestroy_absent hl)),
    fun hl he => congrArg Host.Outcome.next (pfCommand_done hu hb (cmdCalWrite_writes hl he _ _)),
    fun hp hm => congrArg Host.Outcome.next (pfCommand_done hu hb (if_pos ⟨hp, hm⟩)),
    fun hl => ⟨exec_ctxkill_kills hu hb hl,
      congrArg Host.Outcome.next (pfCommand_done hu hb (cmdCtxLeave_asks hl)), exec_ctxresume_resumes hu hb hl⟩,
    ctxCommands_absent hu hb⟩
  obtain ⟨t, ht, hst, hdies⟩ := exec_timepost hu hb x delay
  refine ⟨t, ht, hst, fun d hd => ⟨fun h => (hdies d).trans (posted_unled h), fun hf hs => ?_⟩⟩
  rw [hdies, posted_led hf hd hs]
  exact ⟨rfl, rfl, rfl, fun h => (exchange_good h _).1, fun h => exchange_bad h _⟩

end

section
/-! SUPPORT. The version instructions at their records (R357 to R374): what each plan answers, case by case, and what
VBEGIN's decision says of the record. -/

namespace Sys2Proof.Machine

open Sys2Proof

/-! ### VBEGIN's decision and the versions that qualify (R358, R362) -/

section
variable {r : VRec} {k slot : Nat}

/-- The lowest free slot is no pinned one and not the last version's; every lower one is. -/
theorem freeSlot_some (h : r.freeSlot = some slot) : slot < r.slots ∧ r.pins.getD slot 0 = 0 ∧
    (r.pass ≠ 0 → slot ≠ r.st.sslot) ∧
    ∀ j, j < slot → r.pins.getD j 0 ≠ 0 ∨ (r.pass ≠ 0 ∧ j = r.st.sslot) := by
  obtain ⟨hp, hm, hlow⟩ := List.find?_range_eq_some.mp h
  simp only [Bool.and_eq_true, Bool.or_eq_true, decide_eq_true_eq] at hp
  refine ⟨List.mem_range.mp hm, hp.1, fun hn => hp.2.resolve_left hn, fun j hj => ?_⟩
  have hf := hlow j hj
  simp only [Bool.not_eq_true', Bool.and_eq_false_iff, Bool.or_eq_false_iff, decide_eq_false_iff_not,
    Decidable.not_not] at hf
  exact hf

theorem begin_order (h : r.st.st = 2 ∨ k ≤ r.pass) : r.begin k = .order := if_pos h

/-- VBEGIN's decision on a pass that is ahead, where a pass is open and where none is. -/
theorem begin_open (h : ¬(r.st.st = 2 ∨ k ≤ r.pass)) (ho : r.st.opn = true) :
    r.begin k = if k = r.openPass then .join else if k < r.openPass then .order else .wait := by
  rw [VRec.begin, if_neg h, if_pos ho]

theorem begin_closed (h : ¬(r.st.st = 2 ∨ k ≤ r.pass)) (ho : r.st.opn = false) :
    r.begin k = r.freeSlot.elim .wait .opens := by
  simp only [VRec.begin, if_neg h, ho, Bool.false_eq_true, if_false]
  cases r.freeSlot <;> rfl

/-- A pass opens only ahead of the last version's, where none is open, in the lowest free slot. -/
theorem begin_opens (h : r.begin k = .opens slot) :
    r.pass < k ∧ r.st.st ≠ 2 ∧ r.st.opn = false ∧ r.freeSlot = some slot := by
  by_cases ha : r.st.st = 2 ∨ k ≤ r.pass
  · rw [begin_order ha] at h
    cases h
  · obtain ⟨h2, hk⟩ := not_or.mp ha
    cases ho : r.st.opn with
    | true =>
      rw [begin_open ha ho] at h
      split_ifs at h
    | false =>
      rw [begin_closed ha ho] at h
      cases hf : r.freeSlot with
      | none =>
        rw [hf] at h
        cases h
      | some j =>
        rw [hf] at h
        cases h
        exact ⟨Nat.lt_of_not_le hk, h2, rfl, rfl⟩

/-- VBEGIN joins only the pass that is open. -/
theorem begin_join (h : r.begin k = .join) : r.st.opn = true ∧ k = r.openPass := by
  by_cases ha : r.st.st = 2 ∨ k ≤ r.pass
  · rw [begin_order ha] at h
    cases h
  · cases ho : r.st.opn with
    | true =>
      rw [begin_open ha ho] at h
      by_cases hk : k = r.openPass
      · exact ⟨rfl, hk⟩
      · rw [if_neg hk] at h
        split_ifs at h
    | false =>
      rw [begin_closed ha ho] at h
      cases hf : r.freeSlot <;> rw [hf] at h <;> cases h

/-- FINAL and CUT versions qualify for every handle. -/
theorem qualifies_over (h : r.st.st = 2 ∨ r.st.st = 3) (e : Option Nat) (n : Nat) : r.qualifies e n = true := by
  rcases h with h | h <;> simp only [VRec.qualifies, h]

/-- A SEALED version qualifies by its quality, and for a read-early handle alone. -/
theorem qualifies_sealed (h : r.st.st = 1) (n m : Nat) :
    r.qualifies none n = false ∧ (r.qualifies (some m) n = true ↔ max n m ≤ r.st.quality) := by
  simp only [VRec.qualifies, h, decide_eq_true_eq, and_self]

/-- A version in any other state qualifies for no handle. -/
theorem qualifies_never (h : r.st.st = 0 ∨ 4 ≤ r.st.st) (e : Option Nat) (n : Nat) : r.qualifies e n = false := by
  simp only [VRec.qualifies]
  split
  · omega
  · omega
  · omega
  · rfl

end

/-! ### A version instruction that does not wait, at its record (R357, R368) -/

section
variable {s : State} {h pa d w b : Nat} {a : Src} {t : Option Src} {dst : Dst} {tr : Trail} {prev final : Bool}

/-- A version instruction that does not wait goes on at the record that its handle names. -/
theorem withRecord_fresh {k : XKind} {ops : List DWord} {cont : Nat → Except Stop (State → State)}
    (hw : s.sp.wait = none) (hr : s.recordAt h k pa tr) :
    s.withRecord h k ops cont = (cont pa).map fun f t => f (t.atRecord k pa tr) := by
  obtain ⟨⟨p01, rm, ht⟩, hg, hal, hh, hd, hfl, hlc, hcl⟩ := hr
  have hcl : s.clearOf k ⟨[(0, 128, .phys pa)], tr, [], false, false⟩ = true := hcl
  have ha : ∀ k, s.afterFault k = k := fun k => by simp only [State.afterFault, hw]
  simp only [State.withRecord, ha, ht, hg, hal, hh, hd, hfl, hlc, hcl, worstAt]
  cases cont pa <;> rfl

section
variable (hp : (s.handle h).produces = false)
include hp

/-- A producer's instruction on a handle of another kind. -/
theorem planVbegin_perm : planVbegin h a s = s.stop .anytimePerm := by
  simp only [planVbegin, hp, Bool.not_false, if_true]

theorem planVslot_perm : planVslot prev d h s = s.stop .anytimePerm := by
  simp only [planVslot, hp, Bool.not_false, if_true]

theorem sealPlan_perm : sealPlan h a b final s = s.stop .anytimePerm := by
  simp only [sealPlan, hp, Bool.not_false, if_true]

end

section
variable (hr : (s.handle h).reads = false)
include hr

/-- A reader's instruction on a handle of another kind. -/
theorem planVpin_perm : planVpin d h a s = s.stop .anytimePerm := by
  simp only [planVpin, hr, Bool.not_false, if_true]

theorem planVunpin_perm : planVunpin h s = s.stop .anytimePerm := by
  simp only [planVunpin, hr, Bool.not_false, if_true]

theorem planVwait_perm : planVwait d h a t s = s.stop .anytimePerm := by
  simp only [planVwait, hr, Bool.not_false, if_true]

end

theorem planVstat_perm (hu : s.handle h = .undeclared) : planVstat dst h w s = s.stop .anytimePerm := by
  simp only [planVstat, hu, if_true]

section
variable (hp : (s.handle h).produces = true) (hw : s.sp.wait = none)
include hp hw

/-- VBEGIN of pass 0, which no pass is. -/
theorem planVbegin_zero (h0 : (s.rd a).u = 0) : planVbegin h a s = s.stop .sealOrder := by
  simp only [planVbegin, hw, hp, h0, Bool.not_true, Bool.false_eq_true, if_false, if_true]

/-- VBEGIN of a pass acts on its record as its decision says. -/
theorem planVbegin_fresh {x : Begin} (h0 : (s.rd a).u ≠ 0) (hr : s.recordAt h .atomic pa tr)
    (hb : (s.vrec pa).begin (s.rd a).u.toNat = x) : planVbegin h a s = match x with
    | .order => s.stop .sealOrder
    | .join => .ok fun t => t.atRecord .atomic pa tr
    | .wait => .error (.wait (.vbegin h (s.rd a).u))
    | .opens j => .ok fun t => (t.atRecord .atomic pa tr).openPass pa (s.rd a).u.toNat j := by
  simp only [planVbegin, hw, hp, h0, Bool.not_true, Bool.false_eq_true, if_false, withRecord_fresh hw hr, hb]
  cases x <;> rfl

theorem planVslot_fresh (hr : s.recordAt h .read pa tr) : planVslot prev d h s =
    .ok fun t => (t.atRecord .read pa tr).writePair d
      (if (if prev then (s.vrec pa).pass = 0 else (s.vrec pa).st.opn = false) then BitVec.allOnes 64
       else s.handleAddr h + BitVec.ofNat 64
        (128 + (if prev then (s.vrec pa).st.sslot else (s.vrec pa).st.wslot) * (s.vrec pa).slotb)) := by
  simp only [planVslot, hp, Bool.not_true, Bool.false_eq_true, if_false, withRecord_fresh hw hr]
  cases prev <;> simp [Except.map]

end

/-- Whether the group has sealed the handle's open pass already. -/
def State.sealedOnce (s : State) (h : Nat) : Bool :=
  (s.launch (launchOf s.cur.group)).seals.any fun x => decide (x.handle = h) && decide (x.group = s.cur.group)

section
variable (hp : (s.handle h).produces = true) (hw : s.sp.wait = none) (h0 : (s.rd a).u ≠ 0)
  (hr : s.recordAt h .atomic pa tr)
include hp hw h0 hr

/-- A seal of the open pass, the group's first one, with no lower quality than the last version's. -/
theorem sealPlan_records (ho : (s.vrec pa).st.opn = true) (hk : (s.rd a).u.toNat = (s.vrec pa).openPass)
    (hs : s.sealedOnce h = false) (hq : (s.vrec pa).st.quality ≤ min (s.rdv b).u.toNat 65535)
    (hg : s.quiet s.cur.group = true) (hn : s.noStale s.cur.group = true) : sealPlan h a b final s = .ok fun t =>
      (t.atRecord .atomic pa tr).recordSeal s.cur.group h (s.rd a).u (min (s.rdv b).u.toNat 65535) final := by
  rw [State.sealedOnce] at hs
  simp only [sealPlan, hp, h0, Bool.not_true, Bool.false_eq_true, if_false, withRecord_fresh hw hr, ho, hk, hs, hg, hn,
    Nat.not_lt.mpr hq, reduceCtorEq, ne_eq, not_true_eq_false, or_self, Bool.and_self]
  rfl

/-- Any other seal. -/
theorem sealPlan_order (hs : (s.vrec pa).st.opn = false ∨ (s.rd a).u.toNat ≠ (s.vrec pa).openPass ∨
      s.sealedOnce h = true ∨ min (s.rdv b).u.toNat 65535 < (s.vrec pa).st.quality) :
    sealPlan h a b final s = s.stop .sealOrder := by
  rw [State.sealedOnce] at hs
  simp only [sealPlan, hp, h0, Bool.not_true, Bool.false_eq_true, if_false, withRecord_fresh hw hr, if_pos hs]
  rfl

end

section
variable (hd : (s.handle h).reads = true) (hw : s.sp.wait = none)
include hd hw

theorem planVpin_fresh (hr : s.recordAt h .atomic pa tr)
    (hn : s.g.pins.has h = true → s.readsDone s.cur.group = true) : planVpin d h a s = .ok fun u =>
      let ok := (s.vrec pa).qualifies (s.handle h).minimum ((s.rd a).u.toNat % 65536)
      let v := (u.atRecord .atomic pa tr).unpin s.cur.group h
      let v := if ok then v.pin s.cur.group h pa (s.vrec pa).st.sslot else v
      ((v.writePair d (if ok then s.handleAddr h + BitVec.ofNat 64 (128 + (s.vrec pa).st.sslot * (s.vrec pa).slotb)
        else 0)).writeUni (.v (d + 2)) ((s.vrec pa).vsw false ok)).writeUni (.v (d + 3))
          (BitVec.ofNat 32 (s.vrec pa).pass) := by
  have hb : (s.g.pins.has h && !s.readsDone s.cur.group) = false := by
    cases hh : s.g.pins.has h
    · rfl
    · rw [hn hh]
      rfl
  simp only [planVpin, hd, hb, Bool.not_true, Bool.false_eq_true, if_false, withRecord_fresh hw hr]
  rfl

theorem planVunpin_fresh (hr : s.recordAt h .atomic pa tr) (hq : s.quiet s.cur.group = true)
    (hn : s.readsDone s.cur.group = true) (hs : s.noStale s.cur.group = true) :
    planVunpin h s = .ok fun u => (u.atRecord .atomic pa tr).unpin s.cur.group h := by
  simp only [planVunpin, hd, hq, hn, hs, Bool.not_true, Bool.false_eq_true, if_false, Bool.and_self,
    withRecord_fresh hw hr]
  rfl

/-- VWAIT goes on at once where a version qualifies or the producer is over. -/
theorem planVwait_over (hr : s.recordAt h .read pa tr) (ho : (decide (2 ≤ (s.vrec pa).st.st) ||
      (s.vrec pa).qualifies (s.handle h).minimum (s.rd a).u.toNat) = true) :
    planVwait d h a t s = .ok fun u => (u.atRecord .read pa tr).writeUni (.v d) ((s.vrec pa).vsw false false) := by
  simp only [planVwait, hw, hd, ho, Bool.not_true, Bool.false_eq_true, if_false, Bool.true_or, if_true,
    withRecord_fresh hw hr]
  rfl

/-- Without a time, it waits else. -/
theorem planVwait_waits (hr : s.recordAt h .read pa tr) (ho : (decide (2 ≤ (s.vrec pa).st.st) ||
      (s.vrec pa).qualifies (s.handle h).minimum (s.rd a).u.toNat) = false) :
    planVwait d h a none s = .error (.wait (.vwait h (s.rd a).u none)) := by
  simp only [planVwait, hw, hd, ho, Bool.not_true, Bool.false_eq_true, if_false, Option.map_none, Bool.or_self,
    withRecord_fresh hw hr]
  rfl

end

theorem planVstat_fresh (hu : s.handle h ≠ .undeclared) (hw : s.sp.wait = none) (hr : s.recordAt h .read pa tr) :
    planVstat dst h w s = .ok fun u =>
      (u.atRecord .read pa tr).writeUni dst (BitVec.ofNat 32 (Memory.read s.mem (pa + 4 * w) 4)) := by
  simp only [planVstat, hu, if_false, withRecord_fresh hw hr]
  rfl

end

end Sys2Proof.Machine

open Sys2Proof Sys2Proof.Machine

/-- Settles O37: VBEGIN's plan follows its decision on the record, VSLOT's answers the one address. -/
theorem passes : Obligations.Passes := by
  intro s h pa d slot a tr prev k r hw hp
  have hv := fun x h0 hr => planVbegin_fresh (x := x) (a := a) (pa := pa) (tr := tr) hp hw h0 hr
  exact ⟨fun h0 hr => ⟨fun hb => completes_of_plan rfl rfl (hv (.opens slot) h0 hr hb),
      fun hb => completes_of_plan rfl rfl (hv .join h0 hr hb), fun hb hc => issue_stop rfl (hv .wait h0 hr hb) hc,
      fun hb hc => issue_raises rfl rfl (hv .order h0 hr hb) hc⟩,
    fun h0 hc => issue_raises rfl rfl (planVbegin_zero hp hw h0) hc,
    fun hr => completes_of_plan rfl rfl (planVslot_fresh hp hw hr)⟩

/-- Settles O38: both forms have the one plan, which records the seal where none of the four reasons against it holds. -/
theorem seals : Obligations.Seals := by
  intro s h pa b a tr final g k q r i again hw hp h0 hr
  cases final <;> exact
    ⟨fun ho hk hs hq hg hn => completes_of_plan rfl rfl (sealPlan_records hp hw h0 hr ho hk hs hq hg hn),
      fun hs hc => issue_raises rfl rfl (sealPlan_order hp hw h0 hr hs) hc⟩

/-- Settles O39: a version's state decides for whom it qualifies, and each reader's plan acts on the record so. -/
theorem readers : Obligations.Readers := by
  intro s h pa d w n m a t tr dst v g r q early runsOver
  refine ⟨fun hv e => qualifies_over hv e n, fun hv => qualifies_sealed hv n m, fun hv e => qualifies_never hv e n,
    fun hw hd => ⟨fun hr hn => completes_of_plan rfl rfl (planVpin_fresh hd hw hr hn),
      fun hr hq hn hs => completes_of_plan rfl rfl (planVunpin_fresh hd hw hr hq hn hs),
      fun hr ho => completes_of_plan rfl rfl (planVwait_over hd hw hr ho), fun hr ho ht hc => ?_⟩,
    fun hw hu hr => completes_of_plan rfl rfl (planVstat_fresh hu hw hr)⟩
  subst ht
  exact issue_stop rfl (planVwait_waits hd hw hr ho) hc

/-- Settles O40: the rules are read off VBEGIN's decision, and the handle's kind is each plan's first check. -/
theorem passRules : Obligations.PassRules := by
  intro s r k slot h d b w a t prev dst
  refine ⟨fun hb => ?_, begin_join, begin_order, fun hp => ?_, fun hr => ?_,
    fun hu hc => issue_raises rfl rfl (planVstat_perm hu) hc⟩
  · obtain ⟨hk, h2, ho, hf⟩ := begin_opens hb
    exact ⟨hk, h2, ho, freeSlot_some hf⟩
  · simp only [List.forall_mem_cons]
    exact ⟨fun hc => issue_raises rfl rfl (planVbegin_perm hp) hc, fun hc => issue_raises rfl rfl (planVslot_perm hp) hc,
      fun hc => issue_raises rfl rfl (sealPlan_perm hp) hc, fun hc => issue_raises rfl rfl (sealPlan_perm hp) hc,
      fun _ hi => nomatch hi⟩
  · simp only [List.forall_mem_cons]
    exact ⟨fun hc => issue_raises rfl rfl (planVpin_perm hr) hc, fun hc => issue_raises rfl rfl (planVunpin_perm hr) hc,
      fun hc => issue_raises rfl rfl (planVwait_perm hr) hc, fun _ hi => nomatch hi⟩
end

section
/-! SUPPORT. Taking an exception (R385): the save slot that is free, the words of the entry, and what Deliver makes of the
group. -/

namespace Sys2Proof.Machine

open Sys2Proof

/-- Whether a stack entry is a trap entry that still holds its save slot. -/
def Entry.traps (e : Entry) : Bool := !e.done && decide (e.kind = .trap)

theorem trapDepth_eq (g : Group) : g.trapDepth = (g.stack.filter Entry.traps).length := rfl

/-- Whether no trap entry of the group uses the save slot. -/
def Group.saveFree (g : Group) (j : Nat) : Bool := !(g.stack.any fun e => e.traps && decide (tctlSave e.tctl = j))

theorem freeSave_eq (g : Group) : g.freeSave = ((List.range 4).find? g.saveFree).getD 0 := rfl

/-- Four save slots in use take four trap entries. -/
theorem save_unused {g : Group} (h : g.trapDepth < 4) : ∃ j ∈ List.range 4, g.saveFree j = true := by
  by_contra hn
  have hall : ∀ j ∈ List.range 4, ∃ e ∈ g.stack.filter Entry.traps, tctlSave e.tctl = j := by
    intro j hj
    by_contra hj'
    refine hn ⟨j, hj, ?_⟩
    simp only [Group.saveFree, Bool.not_eq_true', List.any_eq_false, Bool.and_eq_true, decide_eq_true_eq, not_and]
    exact fun e he ht hs => hj' ⟨e, List.mem_filter.mpr ⟨he, ht⟩, hs⟩
  have hsub : List.range 4 ⊆ (g.stack.filter Entry.traps).map fun e => tctlSave e.tctl := fun j hj =>
    List.mem_map.mpr (hall j hj)
  have hle := (List.nodup_range.subperm hsub).length_le
  rw [List.length_range, List.length_map, ← trapDepth_eq] at hle
  omega

/-- With fewer than four trap entries, the free save slot is one that none of them uses. -/
theorem freeSave_unused {g : Group} (h : g.trapDepth < 4) : g.freeSave < 4 ∧
    ∀ f ∈ g.stack, f.kind = .trap → f.done = false → tctlSave f.tctl ≠ g.freeSave := by
  obtain ⟨j, hj⟩ := Option.isSome_iff_exists.mp (List.find?_isSome (p := g.saveFree).mpr (save_unused h))
  rw [freeSave_eq, hj, Option.getD_some]
  refine ⟨List.mem_range.mp (List.mem_of_find?_eq_some hj), fun f hf hkind hdone hsave => ?_⟩
  have hfree := List.find?_some hj
  simp only [Group.saveFree, Bool.not_eq_true', List.any_eq_false] at hfree
  exact hfree f hf (by simp only [Entry.traps, hdone, hkind, hsave, decide_true, Bool.not_false, Bool.and_self])

/-- The fields of the TCTL word that Deliver writes. -/
theorem tctl_written : ∀ sv < 4, ∀ nextf : Bool, ∀ len < 4,
    let w : Word := BitVec.ofNat 32 (sv * 16 + nextf.toNat * 4 + len)
    tctlSave w = sv ∧ tctlNext w = nextf ∧ tctlLen w = len := by
  decide

section
variable {s : State} {g sp slot len : Nat} {r : Report} {x : Split}

/-- With four trap entries or a full stack there is no room for another. -/
theorem deliver_kills (h : 4 ≤ (s.group g).trapDepth ∨ 80 ≤ (s.group g).stack.length) :
    s.deliver g sp r slot len = s.killCtx (s.ctxOf g) evKill none := if_pos h

/-- Else the group takes the exception, and nothing but the group changes. -/
theorem deliver_takes (ht : (s.group g).trapDepth < 4) (hl : (s.group g).stack.length < 80)
    (hx : (s.group g).split? sp = some x) : s.deliver g sp r slot len =
      s.setGroup g ((s.group g).deliver x r slot len (s.ctx (s.ctxOf g)).hvec.toNat) := by
  rw [State.deliver, if_neg (by omega), split_of_split? hx]

/-- A trap entry that holds a split's lanes makes it privileged. -/
theorem privileged_of_entry {e : Entry} (he : e ∈ (s.group g).stack) (hk : e.kind = .trap) (hd : e.done = false) :
    s.privileged g e.mask = true := by
  have h : ((s.group g).stack.any fun f => !f.done && decide (f.kind = .trap) && decide (e.mask &&& f.mask = e.mask)) =
      true := List.any_eq_true.mpr ⟨e, he, by simp [hk, hd]⟩
  simp only [State.privileged, h, Bool.true_or]

end

end Sys2Proof.Machine

open Sys2Proof Sys2Proof.Machine

/-- Settles O18: Deliver pushes the one entry, with the save slot that no other trap entry uses. -/
theorem exceptionEntry : Obligations.ExceptionEntry := by
  intro s g sp slot len r x gr t u hx
  refine ⟨deliver_kills, fun ht hl => ?_⟩
  obtain ⟨hsv, hfree⟩ := freeSave_unused ht
  obtain ⟨hsave, hnext, hlen⟩ :=
    tctl_written gr.freeSave hsv (decide (r.cause = .trap)) (len % 4) (Nat.mod_lt _ (by decide))
  have hset : t = s.setGroup g (gr.deliver x r slot len (s.ctx (s.ctxOf g)).hvec.toNat) := deliver_takes ht hl hx
  have hu : u = gr.deliver x r slot len (s.ctx (s.ctxOf g)).hvec.toNat := by
    rw [show u = t.group g from rfl, hset, State.group_setGroup, if_pos rfl]
  have hnum : x.num = sp := split?_num hx
  rw [hu]
  refine ⟨hset, rfl,
    ⟨_, rfl, rfl, rfl, rfl, rfl, rfl, rfl, rfl, rfl, rfl, ?_, hlen, fun f hf hk hd => ?_, ?_⟩,
    ⟨_, (split?_putSplit _ _ _).trans (if_pos hnum), rfl, rfl, rfl, rfl, rfl, rfl, rfl, rfl⟩, ?_,
    fun n hn => (split?_putSplit _ _ _).trans (if_neg (by rw [hnum]; exact Ne.symm hn))⟩
  · rw [hnext, decide_eq_true_eq]
  · rw [hsave]
    exact hfree f hf hk hd
  · rw [hsave]
    exact tbl_get_set_same _ _ _ _
  · have hst : ∃ e ∈ (t.group g).stack, e.mask = x.mask ∧ e.kind = .trap ∧ e.done = false := by
      rw [show t.group g = u from rfl, hu]
      exact ⟨_, List.mem_cons_self .., rfl, rfl, rfl⟩
    obtain ⟨e, he, hm, hk, hd⟩ := hst
    rw [← hm]
    exact privileged_of_entry he hk hd
end

section
/-! SUPPORT. The commands that create (R421, R422, R431): how a function's command ends, and what PARTCREATE, CTXCREATE,
VDSETUP and PAGEREQ do. -/

namespace Sys2Proof.Machine

open Sys2Proof

/-! ### How a function's command ends (R421) -/

/-- DONE stands alone in a function's status on a device that is up. -/
theorem fnStatus_done {s t : State} (hu : s.up = true) (ht : t.boot = s.boot) (fn : Nat) :
    ((t.mbSet fn 1).fn fn).mbStatus = 1 :=
  mbStatus_mbSet (by rw [ht, up_iff.mp hu]; exact nofun) fn 1

section
variable {s : State} {fn : Nat} {f : Command} (hu : s.up = true) (hn : fn ≤ 64)
include hu hn

theorem command_fails {e : MbError} (hb : s.mbBusy fn = false) (hf : f s = .error e) :
    s.command fn f = s.mbSet fn (BitVec.ofNat 64 (e.code * 256 + 1)) := by
  simp only [State.command, State.mbAlive, up_iff.mp hu, hb, hu, hf, if_true, Nat.not_lt.mpr hn]
  rfl

theorem command_refused (hb : s.mbBusy fn = false) (hf : f s = .error .notPermitted) :
    s.command fn f = s.mbSet fn 0x201 :=
  command_fails (e := .notPermitted) hu hn hb hf

theorem command_noResources (hb : s.mbBusy fn = false) (hf : f s = .error .noResources) :
    s.command fn f = s.mbSet fn 0x301 :=
  command_fails (e := .noResources) hu hn hb hf

/-- A second command while one is in progress sets the error bit alone. -/
theorem command_busy (hb : s.mbBusy fn = true) (f : Command) :
    s.command fn f = s.mbSet fn ((s.fn fn).mbStatus ||| 2) := by
  simp only [State.command, State.mbAlive, up_iff.mp hu, hb, if_true, Nat.not_lt.mpr hn]
  rfl

/-- A command of the physical function in another. -/
theorem pfCommand_elsewhere (hb : s.mbBusy fn = false) (h0 : fn ≠ 0) (f : Command) :
    s.command fn (pfOnly fn f) = s.mbSet fn 0x201 :=
  command_refused hu hn hb (if_pos h0)

/-! ### PAGEREQ (R421) -/

theorem pageRequest_waits (hb : s.mbBusy fn = false) (w : Nat) :
    s.pageRequest fn w = { s with hostWaits := s.hostWaits ++ [(fn, w)] }.mbSet fn 0 := by
  simp only [State.pageRequest, State.mbAlive, up_iff.mp hu, hb, Nat.not_lt.mpr hn]
  rfl

theorem pageRequest_busy (hb : s.mbBusy fn = true) (w : Nat) :
    s.pageRequest fn w = s.mbSet fn ((s.fn fn).mbStatus ||| 2) := by
  simp only [State.pageRequest, State.mbAlive, up_iff.mp hu, hb, if_true, Nat.not_lt.mpr hn]
  rfl

omit hn in
/-- The host's answer ends the request. -/
theorem pageAnswer_done (hb : s.mbBusy fn = true) (ans : List DWord) :
    ((s.pageAnswer fn ans).fn fn).mbStatus = 1 ∧ (s.pageAnswer fn ans).mbBusy fn = false ∧
      (s.pageAnswer fn ans).mem = s.mem ∧ (s.pageAnswer fn ans).groups = s.groups := by
  rw [State.pageAnswer, if_pos hb]
  refine ⟨fnStatus_done hu (by rfl) fn, List.any_eq_false.mpr fun w hw hfn => ?_, rfl, rfl⟩
  have hne := (List.mem_filter.mp hw).2
  simp only [bne, hfn, Bool.not_true, Bool.false_eq_true] at hne

end

/-! ### PARTCREATE (R422, R431) -/

/-- The partition that the arguments ask for. -/
def askedPart (args : List DWord) (service : Nat) : Partition :=
  { Partition.absent with
    live := true, clusters := BitVec.ofNat 32 (argAt args 0 % 256)
    stks := BitVec.ofNat 32 (argAt args 0 / 256 % 65536), fronts := BitVec.ofNat 32 (argAt args 0 / 2 ^ 24 % 256)
    service := service, device := argAt args 2, routing := args.getD 3 0, seq := 2 }

/-- A partition's fault-service launch. -/
def serviceLaunch (n : Nat) (d : Rec) (ps : List (Nat × Nat)) : Launch :=
  { Launch.absent with
    desc := d, part := n, seq := 1, place := ps, clusters := ps.length, ended := false, service := true }

/-- A partition with its fault-service launch, before its clocks are looked at. -/
def State.withPart (s : State) (n : Nat) (d : Rec) (ps : List (Nat × Nat)) (args : List DWord) : State :=
  ({ s with launchNext := s.launchNext + 1 }.setLaunch s.launchNext (serviceLaunch n d ps)).setPart n
    (askedPart args s.launchNext)

section
variable {s : State} {args : List DWord}

section
variable (hw : argAt args 0 < 2 ^ 35) (hd : argAt args 2 ≤ 1151)
include hw hd

theorem cmdPartCreate_creates {d : Rec} {ps : List (Nat × Nat)} (hfree : ∀ k, k < 8 → (s.part k).live = false)
    (hr : s.serviceRec (s.serviceBytes (argAt args 0 / 2 ^ 32 % 8) (argAt args 1)) = some d)
    (hp : s.servicePlaces (BitVec.ofNat 32 (argAt args 0 % 256)) d.footprint = some ps) : cmdPartCreate args s =
      .ok ((s.withPart (argAt args 0 / 2 ^ 32 % 8) d ps args).afterClocks (argAt args 0 / 2 ^ 32 % 8)) := by
  have ht : ∀ q : Nat → Partition → Bool,
      ((List.range 8).any fun p => (s.part p).live && q p (s.part p)) = false := fun q =>
    List.any_eq_false.mpr fun p hp => by simp [hfree p (List.mem_range.mp hp)]
  unfold cmdPartCreate
  dsimp only
  rw [if_neg (by omega), if_neg (by rw [ht fun p y => _]; simp)]
  simp only [hr, hp]
  rfl

/-- A number in use cannot be taken again. -/
theorem cmdPartCreate_taken (hl : (s.part (argAt args 0 / 2 ^ 32 % 8)).live = true) :
    cmdPartCreate args s = .error .noResources := by
  unfold cmdPartCreate
  dsimp only
  rw [if_neg (by omega), if_pos]
  refine List.any_eq_true.mpr ⟨argAt args 0 / 2 ^ 32 % 8, List.mem_range.mpr (Nat.mod_lt _ (by decide)), ?_⟩
  simp only [hl, decide_true, Bool.true_or, Bool.and_self]

end

/-- A look at a partition's clocks touches of it what belongs to its throttling. -/
theorem afterClocks_keeps (s : State) (p : Nat) : (∃ th f ff, (s.afterClocks p).part p =
      { s.part p with throttled := th, f := f, fastFrom := ff }) ∧
    (s.afterClocks p).launches = s.launches ∧ (s.afterClocks p).boot = s.boot := by
  cases hl : (s.part p).live with
  | false =>
    rw [afterClocks_dead hl]
    exact ⟨⟨_, _, _, rfl⟩, rfl, rfl⟩
  | true =>
    rcases Nat.lt_or_ge (s.lowClock p) 1800 with h | h
    · obtain ⟨m, rs, fs, ns, ht⟩ := afterClocks_slowed hl h
      rw [ht]
      exact ⟨⟨_, _, _, (slowed_part p).trans (if_pos rfl)⟩, by rw [slowed_only], by rw [slowed_only]⟩
    · rw [afterClocks_fast hl h]
      split
      · exact ⟨⟨_, _, _, (State.part_setPart _ _ _ _).trans (if_pos rfl)⟩, rfl, rfl⟩
      · exact ⟨⟨_, _, _, rfl⟩, rfl, rfl⟩

/-- A new partition is as asked for, with its fault-service launch placed. -/
theorem withPart_fields (s : State) (n : Nat) (d : Rec) (ps : List (Nat × Nat)) (args : List DWord) :
    ∃ th f ff, ((s.withPart n d ps args).afterClocks n).part n =
        { askedPart args s.launchNext with throttled := th, f := f, fastFrom := ff } ∧
      ((s.withPart n d ps args).afterClocks n).launch s.launchNext = serviceLaunch n d ps ∧
      ((s.withPart n d ps args).afterClocks n).boot = s.boot := by
  obtain ⟨⟨th, f, ff, hp⟩, hl, hb⟩ := afterClocks_keeps (s.withPart n d ps args) n
  refine ⟨th, f, ff, ?_, ?_, hb⟩
  · rw [hp, State.withPart, State.part_setPart, if_pos rfl]
  · rw [launch_congr _ hl, State.withPart, State.launch_setPart, State.launch_setLaunch, if_pos rfl]

/-! ### CTXCREATE and VDSETUP (R422) -/

/-- The context that the arguments ask for, with an entry address of its own. -/
def State.askedCtx (s : State) (fn : Nat) (args : List DWord) : Context :=
  let w := argAt args 0
  { Context.absent with
    live := true, vdid := w % 128, s2en := decide (fn ≠ 0) || bitOf w 7, xlroot1 := BitVec.ofNat 64 (argAt args 1)
    xlroot2 := (s.fn (w % 128)).xlroot2, hvec := args.getD 2 0, lock := decide (w / 256 % 4 = 0)
    mode := DMode.ofCode (w / 256 % 4) }

section
variable {fn : Nat} (hw : argAt args 0 < 1024) (hv : argAt args 0 % 128 ≤ 64)
  (ho : fn = 0 ∨ argAt args 0 % 128 = fn) (hr : argAt args 1 < 2 ^ 56) (ha : argAt args 1 % 4096 = 0)
include hw hv ho hr ha

theorem cmdCtxCreate_creates (h2 : argAt args 2 ≠ 0)
    (hm : s.modePermitted (s.fn (argAt args 0 % 128)).part (argAt args 0 / 256 % 4) = true) : cmdCtxCreate fn args s =
      .ok (({ s with ctxNext := s.ctxNext + 1 }.setCtx s.ctxNext (s.askedCtx fn args)).mbResult fn s.ctxNext) := by
  unfold cmdCtxCreate
  dsimp only
  rw [if_neg (by omega), if_neg (by omega), if_neg (by rw [hm]; decide), if_neg h2]
  rfl

theorem cmdCtxCreate_mode (hm : s.modePermitted (s.fn (argAt args 0 % 128)).part (argAt args 0 / 256 % 4) = false) :
    cmdCtxCreate fn args s = .error .notPermitted := by
  unfold cmdCtxCreate
  dsimp only
  rw [if_neg (by omega), if_neg (by omega), if_pos (by rw [hm]; decide)]

end

theorem cmdCtxCreate_foreign {fn : Nat} (h0 : fn ≠ 0) (hv : argAt args 0 % 128 ≠ fn) :
    cmdCtxCreate fn args s = .error .notPermitted := if_pos ⟨h0, hv⟩

theorem cmdVdSetup_sets (hw : argAt args 0 < 2 ^ 14) (hv : argAt args 0 % 128 ≤ 64)
    (hl : (s.part (argAt args 0 / 256 % 8)).live = true) (hq : argAt args 2 < 2 ^ 22) (he : argAt args 2 % 2 ^ 14 ≤ 8192)
    (hz : argAt args 2 / 2 ^ 14 % 4 = 0) (h1 : 1 ≤ argAt args 2 / 2 ^ 16 % 64) (h2 : argAt args 2 / 2 ^ 16 % 64 ≤ 32)
    (hr : argAt args 1 < 2 ^ 56) (ha : argAt args 1 % 4096 = 0) : cmdVdSetup args s =
      .ok (s.setFn (argAt args 0 % 128) { s.fn (argAt args 0 % 128) with
        part := argAt args 0 / 256 % 8, classMask := BitVec.ofNat 32 (argAt args 0 / 2 ^ 11 % 8)
        xlroot2 := BitVec.ofNat 64 (argAt args 1), entryQuota := argAt args 2 % 2 ^ 14
        walkerQuota := argAt args 2 / 2 ^ 16 % 64 }) := by
  unfold cmdVdSetup
  dsimp only
  rw [if_neg]
  rw [hl]
  simp only [reduceCtorEq, or_false]
  omega

end

/-! ### The commands as the mailbox takes them -/

section
variable (s : State) (fn c port : Nat) (x delay : DWord) (u : CalUnit) (es : List Byte) (m : Word) (args : List DWord)

/-- The commands of the physical function, as they are given to a function. -/
def pfCommandsOf : List Instr :=
  [.setepoch fn x, .timepost fn x delay, .partcreate fn args, .partdestroy fn c, .calwrite fn u es, .connwrite fn port m,
    .ctxkill fn c, .ctxleave fn c, .ctxresume fn c, .vdsetup fn args]

theorem exec_pfCommands : ∀ i ∈ pfCommandsOf fn c port x delay u es m args,
    ∃ f, exec i s = .next (s.command fn (pfOnly fn f)) := by
  simp only [pfCommandsOf, List.forall_mem_cons]
  exact ⟨⟨_, rfl⟩, ⟨_, rfl⟩, ⟨_, rfl⟩, ⟨_, rfl⟩, ⟨_, rfl⟩, ⟨_, rfl⟩, ⟨_, rfl⟩, ⟨_, rfl⟩, ⟨_, rfl⟩, ⟨_, rfl⟩,
    fun _ h => nomatch h⟩

end

section
variable {s : State} {fn : Nat} {args : List DWord} (hu : s.up = true)
include hu

/-- PARTCREATE through the mailbox. -/
theorem exec_partcreate_creates (hb : s.mbBusy 0 = false) {n : Nat} {d : Rec} {ps : List (Nat × Nat)}
    (hc : cmdPartCreate args s = .ok ((s.withPart n d ps args).afterClocks n)) :
    ∃ t, exec (.partcreate 0 args) s = .next t ∧ (t.fn 0).mbStatus = 1 ∧ (t.part n).live = true ∧
      (t.part n).clusters = (askedPart args s.launchNext).clusters ∧ (t.part n).stks = (askedPart args s.launchNext).stks ∧
      (t.part n).fronts = (askedPart args s.launchNext).fronts ∧ (t.part n).device = argAt args 2 ∧
      (t.part n).service = s.launchNext ∧ (t.launch s.launchNext).service = true ∧
      (t.launch s.launchNext).place = ps := by
  obtain ⟨th, f, ff, hp, hl, hboot⟩ := withPart_fields s n d ps args
  refine ⟨_, congrArg Host.Outcome.next (pfCommand_done hu hb hc), mbStatus_done hu hboot, ?_⟩
  rw [part_mbSet, launch_mbSet, hp, hl]
  exact ⟨rfl, rfl, rfl, rfl, rfl, rfl, rfl, rfl⟩

/-- CTXCREATE through a function's mailbox. -/
theorem exec_ctxcreate_creates (hm : s.memOk = true) (hn : fn ≤ 64) (hb : s.mbBusy fn = false) (hc : cmdCtxCreate fn args s =
      .ok (({ s with ctxNext := s.ctxNext + 1 }.setCtx s.ctxNext (s.askedCtx fn args)).mbResult fn s.ctxNext)) :
    ∃ t, exec (.ctxcreate fn args) s = .next t ∧ (t.fn fn).mbStatus = 1 ∧ t.ctxNext = s.ctxNext + 1 ∧
      Memory.read (t.fn fn).win 8 8 = s.ctxNext % 2 ^ 64 ∧ t.ctx s.ctxNext = s.askedCtx fn args := by
  refine ⟨_, congrArg Host.Outcome.next (command_done hu hn hb hc), fnStatus_done hu (by rfl) fn, rfl, ?_, ?_⟩
  · simp only [State.mbSet, State.mbResult, State.fn_setFn, if_true]
    exact Memory.read_put_bytesOf _ _ _ (memOk_win hm fn)
  · exact (State.ctx_setCtx _ _ _ _).trans (if_pos rfl)

end

end Sys2Proof.Machine

open Sys2Proof Sys2Proof.Machine

/-- Settles O52: each creating command passes its checks and makes what its arguments say; who may command, and when, is
decided before any command's own checks. -/
theorem creatingCommands : Obligations.CreatingCommands := by
  intro s fn c port x delay u es m args ans w pfCommands hm hu hn
  have hpf : ∀ i ∈ pfCommands, ∃ f, exec i s = .next (s.command fn (pfOnly fn f)) :=
    exec_pfCommands s fn c port x delay u es m args
  refine ⟨fun hb => ⟨?_, ?_, fun hw hv ho hr ha h2 => ⟨fun hp => ?_, fun hp => ?_⟩, fun h0 hv => ?_, ?_, ?_, ?_,
    fun h0 i hi => ?_⟩, fun hb => ⟨fun i hi => ?_, ?_⟩⟩
  · rintro rfl hw hd hfree d ps hr hp
    exact exec_partcreate_creates hu hb (cmdPartCreate_creates hw hd hfree hr hp)
  · rintro rfl hw hd hl
    exact congrArg Host.Outcome.next (command_noResources hu hn hb (cmdPartCreate_taken hw hd hl))
  · obtain ⟨t, ht, hst, hnext, hres, hctx⟩ :=
      exec_ctxcreate_creates hu hm hn hb (cmdCtxCreate_creates hw hv ho hr ha h2 hp)
    refine ⟨t, ht, hst, hnext, hres, ?_⟩
    rw [hctx]
    exact ⟨rfl, rfl, Nat.mod_eq_of_lt (by omega), rfl, rfl, rfl⟩
  · exact congrArg Host.Outcome.next (command_refused hu hn hb (cmdCtxCreate_mode hw hv ho hr ha hp))
  · exact congrArg Host.Outcome.next (command_refused hu hn hb (cmdCtxCreate_foreign h0 hv))
  · rintro q rfl hw hv hl hq he hz h1 h2 hr ha
    exact congrArg Host.Outcome.next (pfCommand_done hu hb (cmdVdSetup_sets hw hv hl hq he hz h1 h2 hr ha))
  · exact congrArg Host.Outcome.next (pageRequest_waits hu hn hb w)
  · exact congrArg Host.Outcome.next (if_neg (by simp [hb]))
  · obtain ⟨f, hf⟩ := hpf i hi
    rw [hf, pfCommand_elsewhere hu hn hb h0]
  · simp only [List.mem_append, List.mem_cons, List.not_mem_nil, or_false] at hi
    obtain hi | rfl | rfl := hi
    · obtain ⟨f, hf⟩ := hpf i hi
      rw [hf, command_busy hu hn hb]
    · exact congrArg Host.Outcome.next (command_busy hu hn hb _)
    · exact congrArg Host.Outcome.next (pageRequest_busy hu hn hb w)
  · exact ⟨_, rfl, pageAnswer_done hu hb ans⟩
end

section
/-! SUPPORT. A front-end core (R413 to R415): its registers and traps, its loads and stores, and the custom-0
instructions, case by case. -/

namespace Sys2Proof.Machine

open Sys2Proof

/-! ### Registers and traps (R413) -/

theorem Front.reg_setReg (f : Front) {r : Nat} (hr : r ≠ 0) (v : DWord) : (f.setReg r v).reg r = v := by
  rw [Front.setReg, if_neg hr, Front.reg, if_neg hr]
  exact tbl_get_set_same _ _ _ _

theorem Front.trap_machine {f : Front} {cause : Nat} {intr : Bool} (h : f.delegated cause intr = false) (tval : DWord) :
    f.trap cause intr tval = { f with swait := none, wfi := false }.trapM cause intr tval :=
  if_neg (by simp only [Front.delegated] at h ⊢; simp [h])

theorem Front.trap_supervisor {f : Front} {cause : Nat} {intr : Bool} (h : f.delegated cause intr = true)
    (tval : DWord) : f.trap cause intr tval = { f with swait := none, wfi := false }.trapS cause intr tval :=
  if_pos h

/-- A trap keeps the registers and ends a wait. -/
theorem Front.trap_keeps (f : Front) (cause : Nat) (intr : Bool) (tval : DWord) :
    (f.trap cause intr tval).x = f.x ∧ (f.trap cause intr tval).f = f.f ∧ (f.trap cause intr tval).swait = none := by
  cases h : f.delegated cause intr with
  | false => rw [Front.trap_machine h]; exact ⟨rfl, rfl, rfl⟩
  | true => rw [Front.trap_supervisor h]; exact ⟨rfl, rfl, rfl⟩

/-! ### What a core reaches does not hang on what it waits for -/

section
variable {s : State} {fe : Nat} {f : Front} (hp : f.part = (s.front fe).part)
include hp

theorem frontOk_setFront (pa n : Nat) : (s.setFront fe f).frontOk fe pa n = s.frontOk fe pa n := by
  have hm : (s.setFront fe f).frontMay fe pa n = s.frontMay fe pa n := by
    simp only [State.frontMay, State.front_setFront, if_true, hp]
    rfl
  rw [State.frontOk, hm]
  rfl

variable (hc : f.csrs = (s.front fe).csrs)
include hc

theorem frontWalk_setFront (va : Nat) (u : FrontUse) (level a : Nat) :
    (s.setFront fe f).frontWalk fe va u level a = s.frontWalk fe va u level a := by
  have hr : ∀ pa n, (s.setFront fe f).frontRead pa n = s.frontRead pa n := fun _ _ => rfl
  induction level generalizing a with
  | zero => rfl
  | succ level ih => simp only [State.frontWalk, frontOk_setFront hp, hr, State.front_setFront, if_true, hc, ih]

theorem frontPlace_setFront (hs : f.supervisor = (s.front fe).supervisor) (va : DWord) (u : FrontUse) :
    (s.setFront fe f).frontPlace fe va u = s.frontPlace fe va u := by
  have hsup : f.asSupervisor u = (s.front fe).asSupervisor u := by
    rw [Front.asSupervisor, hc, hs, Front.asSupervisor]
  unfold State.frontPlace
  dsimp only
  rw [State.front_setFront, if_pos rfl, hsup, hc, frontWalk_setFront hp hc]

end

/-! ### Loads and stores (R413) -/

section
variable {s : State} {fe n pa cause : Nat} {va : DWord}

section
variable {k : Nat → Nat → State}

theorem frontLoad_misaligned (ha : va.toNat % n ≠ 0) : s.frontLoad fe va n k = s.frontTrap fe 4 va := if_pos ha

theorem frontLoad_error (ha : va.toNat % n = 0) (hp : s.frontPlace fe va .load = .error cause) :
    s.frontLoad fe va n k = s.frontTrap fe cause va := by
  rw [State.frontLoad, if_neg (not_not.mpr ha), hp]

theorem frontLoad_reads (ha : va.toNat % n = 0) (hp : s.frontPlace fe va .load = .ok pa)
    (hw : s.frontWaits pa = false) (ho : s.frontOk fe pa n = true) :
    s.frontLoad fe va n k = k pa (s.frontRead pa n) := by
  simp only [State.frontLoad, if_neg (not_not.mpr ha), hp, hw, ho, Bool.not_true, Bool.false_eq_true, if_false]

end

section
variable {k : Nat → State} (ha : va.toNat % n = 0)
include ha

theorem frontStore_error {atomic : Bool} (hp : s.frontPlace fe va .store = .error cause) :
    s.frontStore fe va n atomic k = s.frontTrap fe cause va := by
  rw [State.frontStore, if_neg (not_not.mpr ha), hp]

theorem frontStore_stores (hp : s.frontPlace fe va .store = .ok pa) (hw : s.frontWaits pa = false)
    (ho : s.frontOk fe pa n = true) : s.frontStore fe va n false k = k pa := by
  have hm : s.frontMay fe pa n = true := by
    rw [State.frontOk, Bool.and_eq_true] at ho
    exact ho.1
  simp only [State.frontStore, if_neg (not_not.mpr ha), hp, hw, hm, ho, Bool.not_true, Bool.false_and, Bool.or_self,
    Bool.false_eq_true, if_false]

end

end

/-! ### XBFX (R414) -/

section
variable {s : State} {d a b : Nat} {x y : DWord}

theorem bitField_within (h : y.toNat % 64 + y.toNat / 64 % 64 ≤ 64) :
    bitField x y = some (BitVec.ofNat 64 (x.toNat / 2 ^ (y.toNat % 64) % 2 ^ (y.toNat / 64 % 64))) :=
  if_neg (Nat.not_lt.mpr h)

theorem bitField_beyond (h : 64 < y.toNat % 64 + y.toNat / 64 % 64) : bitField x y = none := if_pos h

theorem exec_xbfx_field {v : DWord} (h : bitField ((s.front s.site).reg a) ((s.front s.site).reg b) = some v) :
    exec (.xbfx d a b) s = .next (s.frontNext s.site d v) := by
  show execXbfx d a b s = _
  simp only [execXbfx, h]

theorem exec_xbfx_fault (h : bitField ((s.front s.site).reg a) ((s.front s.site).reg b) = none) :
    exec (.xbfx d a b) s = .next (s.frontTrap s.site 25 ((s.front s.site).reg b)) := by
  show execXbfx d a b s = _
  simp only [execXbfx, h]

end

/-! ### RFET (R414, R415) -/

/-- What a ring descriptor at its place answers to a fetch. -/
def State.descFetch (s : State) (pa : Nat) : Option (Nat × Nat) :=
  ringFetch (s.frontRead pa 8) (s.frontRead (pa + 8) 4) (s.frontRead (pa + 0xC) 4) (s.frontRead (pa + 0x10) 8)
    (s.frontRead (pa + 0x18) 8) (s.frontRead (pa + 0x20) 32)

/-- Whether a descriptor is one that RING_FAULT is for. -/
def badRing (log2n res head tail rest : Nat) : Prop :=
  res ≠ 0 ∨ rest ≠ 0 ∨ log2n = 0 ∨ 16 < log2n ∨ 2 ^ log2n < (tail + 2 ^ 64 - head) % 2 ^ 64

section
variable {base log2n res head tail rest : Nat}

theorem ringFetch_bad (h : badRing log2n res head tail rest) : ringFetch base log2n res head tail rest = none := if_pos h

theorem ringFetch_empty (h : ¬badRing log2n res head tail rest) (he : head = tail) :
    ringFetch base log2n res head tail rest = some (0, head) :=
  (if_neg h).trans (if_pos he)

theorem ringFetch_packet (h : ¬badRing log2n res head tail rest) (he : head ≠ tail) :
    ringFetch base log2n res head tail rest =
      some ((base + 64 * (head % 2 ^ log2n)) % 2 ^ 64, (head + 1) % 2 ^ 64) :=
  (if_neg h).trans (if_neg he)

end

section
variable {s : State} {fe d pa at_ cause p head : Nat} {va : DWord} (ha : va.toNat % 64 = 0)
  (hp : s.frontPlace fe va .load = .ok pa) (hw : s.frontWaits pa = false) (ho : s.frontOk fe pa 64 = true)
include ha hp hw ho

theorem rfet_bad (hf : s.descFetch pa = none) : s.rfet fe d va = s.frontTrap fe 24 va := by
  rw [State.descFetch] at hf
  rw [State.rfet, frontLoad_reads ha hp hw ho]
  simp only [Nat.add_zero, hf]

theorem rfet_empty (hf : s.descFetch pa = some (0, s.frontRead (pa + 0x10) 8)) :
    s.rfet fe d va = s.frontNext fe d 0 := by
  rw [State.descFetch] at hf
  rw [State.rfet, frontLoad_reads ha hp hw ho]
  simp only [Nat.add_zero, hf, if_true]
  rfl

/-- Where the ring holds a packet, RFET goes on to the store of the new HEAD. -/
theorem rfet_packet (hf : s.descFetch pa = some (p, head)) (hn : head ≠ s.frontRead (pa + 0x10) 8) : s.rfet fe d va =
    s.frontStore fe (va + 0x10) 8 false fun q =>
      ((s.frontWrite q (bytesOf 8 head)).modRing pa fun r =>
        { r with fetched := r.fetched ++ [(fe, p)] }).frontNext fe d (BitVec.ofNat 64 p) := by
  rw [State.descFetch] at hf
  rw [State.rfet, frontLoad_reads ha hp hw ho]
  simp only [Nat.add_zero, hf, hn, if_false]

omit hp hw ho in
theorem headAddr_aligned : (va + 0x10).toNat % 8 = 0 := by
  show (va.toNat + 16) % 2 ^ 64 % 8 = 0
  omega

end

/-! ### SWAIT (R414) -/

section
variable {s : State} {fe d pa cause : Nat} {va least : DWord}

theorem swait_misaligned (ha : va.toNat % 8 ≠ 0) : s.swait_ fe d va least = s.frontTrap fe 26 va := if_pos ha

theorem swait_error (ha : va.toNat % 8 = 0) (hp : s.frontPlace fe va .load = .error cause) :
    s.swait_ fe d va least = s.frontTrap fe cause va := by
  rw [State.swait_, if_neg (not_not.mpr ha), frontLoad_error ha hp]

section
variable (ha : va.toNat % 8 = 0) (hp : s.frontPlace fe va .load = .ok pa) (hw : s.frontWaits pa = false)
  (ho : s.frontOk fe pa 8 = true)
include ha hp hw ho

theorem swait_goesOn (h : least.toNat ≤ s.frontRead pa 8) :
    s.swait_ fe d va least = s.frontNext fe d (BitVec.ofNat 64 (s.frontRead pa 8)) := by
  rw [State.swait_, if_neg (not_not.mpr ha), frontLoad_reads ha hp hw ho, if_pos h]

theorem swait_waits (h : s.frontRead pa 8 < least.toNat) :
    s.swait_ fe d va least = s.setFront fe { s.front fe with swait := some (d, va.toNat, least) } := by
  rw [State.swait_, if_neg (not_not.mpr ha), frontLoad_reads ha hp hw ho, if_neg (Nat.not_le.mpr h)]

end

/-- The core as it looks again at what it waits for. -/
def State.awake (s : State) (fe : Nat) : State := s.setFront fe { s.front fe with swait := none }

theorem swaitWake_looks (hs : (s.front s.site).swait = some (d, va.toNat, least)) :
    exec .swaitWake s = .next ((s.awake s.site).swait_ s.site d va least) := by
  show execSwaitWake s = _
  simp only [execSwaitWake, hs, BitVec.ofNat_toNat, BitVec.setWidth_eq, State.awake]

theorem swaitWake_idle (hs : (s.front s.site).swait = none) : exec .swaitWake s = .next s := by
  show execSwaitWake s = _
  simp only [execSwaitWake, hs]

theorem frontPlace_awake (va : DWord) (u : FrontUse) : (s.awake fe).frontPlace fe va u = s.frontPlace fe va u :=
  frontPlace_setFront (f := { s.front fe with swait := none }) rfl rfl rfl va u

theorem frontOk_awake (pa n : Nat) : (s.awake fe).frontOk fe pa n = s.frontOk fe pa n :=
  frontOk_setFront (f := { s.front fe with swait := none }) rfl pa n

/-- A core that waits on is as it was. -/
theorem awake_waits (hs : (s.front fe).swait = some (d, va.toNat, least)) : ((s.awake fe).setFront fe
    { (s.awake fe).front fe with swait := some (d, va.toNat, least) }).front fe = s.front fe := by
  rw [State.front_setFront, if_pos rfl, State.awake, State.front_setFront, if_pos rfl, ← hs]

end

/-! ### XDISP (R336, R350, R414) -/

section
variable {s : State} {fe d cause : Nat} {va : DWord} {ps : List Nat}

theorem xdisp_error (h : s.recordPlaces fe va (List.range 4) = .error cause) :
    s.xdisp_ fe d va = s.frontTrap fe cause va := by
  simp only [State.xdisp_, h]

section
variable (h : s.recordPlaces fe va (List.range 4) = .ok ps)
include h

theorem xdisp_fault (hf : va.toNat % 64 ≠ 0 ∨ ∃ q ∈ ps, inHbm q 64 = false) :
    s.xdisp_ fe d va = s.frontTrap fe 27 va := by
  have hc : (!decide (va.toNat % 64 = 0) || !(ps.all fun pa => inHbm pa 64)) = true := by
    rcases hf with ha | ⟨q, hq, hh⟩
    · rw [decide_eq_false ha, Bool.not_false, Bool.true_or]
    · have hall : (ps.all fun pa => inHbm pa 64) = false := List.all_eq_false.mpr ⟨q, hq, by rw [hh]; decide⟩
      rw [hall, Bool.not_false, Bool.or_true]
  simp only [State.xdisp_, h, hc, if_true]

theorem xdisp_submits (ha : va.toNat % 64 = 0)
    (hq : ∀ q ∈ ps, inHbm q 64 = true ∧ s.frontWaits q = false ∧ s.frontOk fe q 64 = true) :
    s.xdisp_ fe d va = { s with submissions := s.submissions ++
      [s.frontRecord fe ((s.front fe).prologue.map Prologue.ring) (ps.flatMap fun q => Memory.bytes s.mem q 64)
        (.front fe d ((s.front fe).prologue.map Prologue.ring))] }.setFront fe { s.front fe with xdisp := true } := by
  have hall : (ps.all fun pa => inHbm pa 64) = true := List.all_eq_true.mpr fun q h => (hq q h).1
  have hwait : ps.any s.frontWaits = false := List.any_eq_false.mpr fun q h => by rw [(hq q h).2.1]; decide
  have hok : (ps.find? fun pa => !s.frontOk fe pa 64) = none :=
    List.find?_eq_none.mpr fun q h => by rw [(hq q h).2.2]; decide
  simp only [State.xdisp_, h, ha, hall, hwait, hok, decide_true, Bool.not_true, Bool.or_self, Bool.false_eq_true, if_false]

end

end

end Sys2Proof.Machine

open Sys2Proof Sys2Proof.Machine

/-- Settles O59: each instruction is its checks in their order, and SWAIT_WAKE is SWAIT again on a core that no longer
waits, which reaches what it reached before. -/
theorem frontEndInstructions : Obligations.FrontEndInstructions := by
  intro s d a b r pa at_ cause intr va least tval ps fe f x y m ring
  refine ⟨?_, ⟨rfl, rfl, fun hr => f.reg_setReg hr tval⟩, ⟨fun h => exec_xbfx_field (bitField_within h),
      fun h => exec_xbfx_fault (bitField_beyond h)⟩, fun ha => congrArg Host.Outcome.next (frontLoad_misaligned ha),
    fun ha => congrArg Host.Outcome.next (swait_misaligned ha), fun hp => ⟨fun ha => congrArg Host.Outcome.next
      (frontLoad_error ha hp), fun ha => congrArg Host.Outcome.next (swait_error ha hp)⟩, fun hp hw => ⟨fun ha ho => ?_,
      fun ha ho => ⟨fun h => congrArg Host.Outcome.next (swait_goesOn ha hp hw ho h),
        fun h => congrArg Host.Outcome.next (swait_waits ha hp hw ho h)⟩⟩,
    fun hs ha hp hw ho => ?_, swaitWake_idle, fun h => congrArg Host.Outcome.next (xdisp_error h),
    fun h => ⟨fun hf => congrArg Host.Outcome.next (xdisp_fault h hf),
      fun ha hq => congrArg Host.Outcome.next (xdisp_submits h ha hq)⟩⟩
  · obtain ⟨hx, hf, hs⟩ := f.trap_keeps cause intr tval
    refine ⟨hx, hf, hs, fun h => ?_, fun h => ?_⟩
    · rw [show m = _ from Front.trap_machine h tval]
      exact ⟨rfl, rfl, rfl, rfl, rfl⟩
    · rw [show m = _ from Front.trap_supervisor h tval]
      exact ⟨rfl, rfl, rfl, rfl, rfl⟩
  · intro base log2n head tail p bad
    refine ⟨fun hb => congrArg Host.Outcome.next (rfet_bad ha hp hw ho (ringFetch_bad hb)),
      fun hb he => congrArg Host.Outcome.next (rfet_empty ha hp hw ho (ringFetch_empty hb he)), fun hb he => ?_⟩
    have hn : (head + 1) % 2 ^ 64 ≠ head := by omega
    have hr := rfet_packet (d := d) ha hp hw ho (ringFetch_packet hb he) hn
    have h8 := headAddr_aligned ha
    exact ⟨fun hq => congrArg Host.Outcome.next (hr.trans (frontStore_error h8 hq)),
      fun hq hw' ho' => congrArg Host.Outcome.next (hr.trans (frontStore_stores h8 hq hw' ho'))⟩
  · rw [swaitWake_looks hs]
    have hp' := (frontPlace_awake va .load).trans hp
    have ho' := (frontOk_awake pa 8).trans ho
    exact ⟨fun h => congrArg Host.Outcome.next (swait_goesOn ha hp' hw ho' h), fun h =>
      ⟨_, congrArg Host.Outcome.next (swait_waits ha hp' hw ho' h), awake_waits hs, rfl⟩⟩
end

section
/-! SUPPORT. The packets of a ring (R416 to R418): what taking one does, case by case; its signals, its batch and its
prologue. -/

namespace Sys2Proof.Machine

open Sys2Proof

/-! ### Rings and packets -/

section
variable {s : State} {k addr : Nat}

theorem modRing_ring (s : State) (k : Nat) (f : Ring → Ring) : (s.modRing k f).ring k = f (s.ring k) := by
  rw [State.modRing, State.ring_setRing, if_pos rfl]

theorem modRing_congr {f g : Ring → Ring} (h : f (s.ring k) = g (s.ring k)) : s.modRing k f = s.modRing k g :=
  congrArg (s.setRing k) h

theorem popPacket_ring (s : State) (k : Nat) :
    (s.popPacket k).ring k = { s.ring k with fetched := (s.ring k).fetched.drop 1 } := modRing_ring s k _

theorem natOfBytes_lt (bs : List Byte) : natOfBytes bs < 256 ^ bs.length := by
  induction bs with
  | nil => exact Nat.one_pos
  | cons b r ih =>
    have hb : b.toNat < 256 := b.isLt
    rw [natOfBytes, List.length_cons, Nat.pow_succ]
    omega

/-- A field of eight bytes is a double word. -/
theorem fieldAt_lt (bs : List Byte) (o : Nat) : fieldAt bs o 8 < 2 ^ 64 :=
  calc natOfBytes ((bs.drop o).take 8) < 256 ^ ((bs.drop o).take 8).length := natOfBytes_lt _
    _ ≤ 256 ^ 8 := Nat.pow_le_pow_right (by decide) (List.length_take_le 8 _)

theorem packet_a_lt (s : State) (addr : Nat) : (s.packet addr).a < 2 ^ 64 := fieldAt_lt _ _
theorem packet_b_lt (s : State) (addr : Nat) : (s.packet addr).b < 2 ^ 64 := fieldAt_lt _ _
theorem packet_c_lt (s : State) (addr : Nat) : (s.packet addr).c < 2 ^ 64 := fieldAt_lt _ _

/-- A packet that is not malformed is of a type. -/
theorem Packet.known_of_ok {p : Packet} (h : p.malformed = false) : p.unknown = false := by
  simp only [Packet.malformed, Bool.or_eq_false_iff] at h
  exact h.2

/-- One that an event takes is of the event's type. -/
theorem type_of_takes {type : Nat} (hm : (s.packet addr).malformed = false) (ht : s.takes addr type = true) :
    (s.packet addr).type = type := by
  simp only [State.takes, Packet.known_of_ok hm, Bool.false_or, Bool.and_eq_true, decide_eq_true_eq] at ht
  exact ht.1

end

/-! ### Taking a ring's next packet (R416, R417) -/

section
variable {s : State} {fe addr k type : Nat} {f : State → Nat → Packet → State} (hk : s.ringAt fe addr = some k)
  (ho : s.packetOk fe addr = true)
include hk ho

section
variable (ht : s.takes addr type = true)
include ht

theorem takePacket_runs (hb : (s.ring k).batch = none) (hm : (s.packet addr).malformed = false) :
    s.takePacket fe addr type f = f (s.popPacket k) k (s.packet addr) := by
  simp only [State.takePacket, hk, ht, ho, hb, hm, Option.isSome_none, Bool.not_true, Bool.false_eq_true, if_false]

theorem takePacket_malformed (hb : (s.ring k).batch = none) (hm : (s.packet addr).malformed = true) :
    s.takePacket fe addr type f = (s.popPacket k).packetStatus addr 9 0 := by
  simp only [State.takePacket, hk, ht, ho, hb, hm, Option.isSome_none, Bool.not_true, Bool.false_eq_true, if_false,
    if_true]

section
variable {b : Nat} {ms : List Nat} {bad : Bool} (hb : (s.ring k).batch = some (b, ms, bad))
include hb

/-- A packet within a batch joins it. -/
theorem takePacket_joins {ok : Bool} (hok : (!(s.packet addr).malformed && decide (type = 1)) = ok) :
    s.takePacket fe addr type f = (s.popPacket k).modRing k fun r =>
      { r with batch := some (b, ms ++ [addr], bad || !ok || decide (255 ≤ ms.length)) } := by
  have hb' : ((s.popPacket k).ring k).batch = some (b, ms, bad) := by rw [popPacket_ring]; exact hb
  simp only [State.takePacket, hk, ht, ho, hb, hok, Option.isSome_some, Bool.not_true, Bool.false_eq_true, if_false,
    if_true]
  exact modRing_congr (by simp only [Ring.intoBatch, hb'])

/-- A LAUNCH becomes a member. -/
theorem takePacket_member (h1 : type = 1) (hm : (s.packet addr).malformed = false) (hl : ms.length < 255) :
    s.takePacket fe addr type f = (s.popPacket k).modRing k fun r => { r with batch := some (b, ms ++ [addr], bad) } := by
  rw [takePacket_joins hk ho ht hb (ok := true) (by rw [hm, h1]; rfl), decide_eq_false (Nat.not_le.mpr hl)]
  simp only [Bool.not_true, Bool.or_false]

/-- Any other packet makes the batch malformed. -/
theorem takePacket_spoils (h1 : type ≠ 1) :
    s.takePacket fe addr type f = (s.popPacket k).modRing k fun r => { r with batch := some (b, ms ++ [addr], true) } := by
  rw [takePacket_joins hk ho ht hb (ok := false) (by rw [decide_eq_false h1, Bool.and_false])]
  simp only [Bool.not_false, Bool.or_true, Bool.true_or]

end

end

/-! ### COMMIT (R417) -/

section
variable (ht : s.takes addr 3 = true)
include ht

theorem takeCommit_alone (hb : (s.ring k).batch = none) :
    s.takeCommit fe addr = (s.popPacket k).packetStatus addr 9 0 := by
  simp only [State.takeCommit, hk, ht, ho, hb, Bool.not_true, Bool.false_eq_true, if_false]

theorem takeCommit_batch {b : Nat} {ms : List Nat} {bad : Bool} (hb : (s.ring k).batch = some (b, ms, bad))
    (hm : (s.packet addr).malformed = false) :
    s.takeCommit fe addr = (s.popPacket k).commitBatch fe k b ms bad := by
  simp only [State.takeCommit, hk, ht, ho, hb, hm, Packet.known_of_ok hm, Bool.or_false, Bool.not_true,
    Bool.false_eq_true, if_false]

end

end

/-- The ring's batch is over. -/
def State.unbatched (s : State) (k : Nat) : State := s.modRing k fun r => { r with batch := none }

section
variable {s : State} {fe k b c i : Nat} {ms : List Nat} {bad : Bool} {xs : List Submission}

theorem commitBatch_bad (h : bad = true ∨ ms = []) :
    s.commitBatch fe k b ms bad = (s.unbatched k).packetStatus b 9 0 := by
  have hc : (bad || ms.isEmpty) = true := by
    rcases h with rfl | rfl
    · rfl
    · exact Bool.or_true _
  simp only [State.commitBatch, hc, if_true, State.unbatched]

section
variable (hb : bad = false) (hm : ms ≠ [])
include hb hm

theorem commitBatch_invalid (hv : (s.unbatched k).validate fe k ms 0 = .error (c, i)) :
    s.commitBatch fe k b ms bad = (s.unbatched k).packetStatus b c i := by
  rw [State.unbatched] at hv
  simp only [State.commitBatch, hb, List.isEmpty_eq_false_iff.mpr hm, Bool.or_self, Bool.false_eq_true, if_false, hv,
    State.unbatched]

variable (hv : (s.unbatched k).validate fe k ms 0 = .ok xs)
include hv

theorem commitBatch_refused (ha : (s.unbatched k).admitBatch xs 0 = .error (c, i)) :
    s.commitBatch fe k b ms bad = (s.unbatched k).packetStatus b c i := by
  rw [State.unbatched] at hv ha
  simp only [State.commitBatch, hb, List.isEmpty_eq_false_iff.mpr hm, Bool.or_self, Bool.false_eq_true, if_false, hv, ha,
    State.unbatched]

theorem commitBatch_admits {w : State} {ls : List Nat} (ha : (s.unbatched k).admitBatch xs 0 = .ok (w, ls)) :
    s.commitBatch fe k b ms bad = ls.foldl (fun t l => t.ringLaunch k l)
      ((b :: ms).foldl (fun t a => t.packetStatus a 0 0) w) := by
  rw [State.unbatched] at hv ha
  simp only [State.commitBatch, hb, List.isEmpty_eq_false_iff.mpr hm, Bool.or_self, Bool.false_eq_true, if_false, hv, ha]

end

end

/-! ### LAUNCH, WAIT and SIGNAL (R416) -/

section
variable {s : State} {fe k addr : Nat}

theorem member_record (hr : isRecord (s.packet addr).a = true) (ho : s.frontOk fe (s.packet addr).a 256 = true) :
    s.member fe k addr =
      some (s.frontRecord fe (some k) (Memory.bytes s.mem (s.packet addr).a 256) (.packet k addr)) := by
  simp only [State.member, hr, ho, Bool.and_self, if_true]

theorem member_none (h : isRecord (s.packet addr).a = false ∨ s.frontOk fe (s.packet addr).a 256 = false) :
    s.member fe k addr = none := by
  have hc : (isRecord (s.packet addr).a && s.frontOk fe (s.packet addr).a 256) = false := Bool.and_eq_false_iff.mpr h
  simp only [State.member, hc, Bool.false_eq_true, if_false]

/-- What a ring holds does not touch what its core may submit. -/
theorem member_popPacket : (s.popPacket k).member fe k addr = s.member fe k addr := rfl

/-- The ring of the lowest address whose WAIT's signal has come is one that waits. -/
theorem heldRing_some {b : Nat} {v : DWord} (hk : k ∈ s.rings.map (·.1)) (hh : (s.ring k).hold = some (b, v))
    (hv : v.toNat ≤ s.frontRead b 8) (hw : s.frontWaits b = false) :
    ∃ j, (s.ring j).hold ≠ none ∧ s.heldRing = some j := by
  have hp : ((s.ring k).hold.any fun h => decide (h.2.toNat ≤ s.frontRead h.1 8) && !s.frontWaits h.1) = true := by
    simp only [hh, Option.any_some, hv, hw, decide_true, Bool.not_false, Bool.and_self]
  obtain ⟨j, hj⟩ := Option.isSome_iff_exists.mp (List.find?_isSome (p := fun k => (s.ring k).hold.any fun h =>
    decide (h.2.toNat ≤ s.frontRead h.1 8) && !s.frontWaits h.1).mpr ⟨k, hk, hp⟩)
  refine ⟨j, fun hn => ?_, hj⟩
  have hf := List.find?_some hj
  rw [hn] at hf
  cases hf

theorem heldRing_none (h : ∀ j ∈ s.rings.map (·.1), ∀ h, (s.ring j).hold = some h → s.frontRead h.1 8 < h.2.toNat) :
    s.heldRing = none := by
  refine List.find?_eq_none.mpr fun j hj hp => ?_
  obtain ⟨x, hx, hc⟩ := (Option.any_eq_true _ _).mp hp
  simp only [Bool.and_eq_true, decide_eq_true_eq] at hc
  exact absurd hc.1 (Nat.not_le.mpr (h j hj x hx))

theorem exec_waitPacketRelease_frees {j : Nat} (h : s.heldRing = some j) :
    exec .waitPacketRelease s = .next (s.modRing j fun r => { r with hold := none }) := by
  show execWaitPacketRelease s = _
  simp only [execWaitPacketRelease, h]

theorem exec_waitPacketRelease_idle (h : s.heldRing = none) : exec .waitPacketRelease s = .next s := by
  show execWaitPacketRelease s = _
  simp only [execWaitPacketRelease, h]

/-- Whether the launches that a SIGNAL waits for have ended, and what they did is at its homes. -/
def State.allEnded (s : State) (ls : List Nat) : Bool := ls.all fun l => (s.launch l).ended && s.launchSettled l

theorem allEnded_true {ls : List Nat} (h : ∀ l ∈ ls, (s.launch l).ended = true ∧ s.launchSettled l = true) :
    s.allEnded ls = true := List.all_eq_true.mpr fun l hl => Bool.and_eq_true_iff.mpr (h l hl)

theorem allEnded_false {ls : List Nat} (h : ∃ l ∈ ls, (s.launch l).ended = false ∨ s.launchSettled l = false) :
    s.allEnded ls = false := by
  obtain ⟨l, hl, h⟩ := h
  exact List.all_eq_false.mpr ⟨l, hl, by rw [Bool.and_eq_false_iff.mpr h]; decide⟩

section
variable {a : Nat} {v : DWord} {ls : List Nat} (hs : (s.ring k).signals = [(a, v, ls)])
include hs

/-- A ring's one SIGNAL is stored where its launches have ended. -/
theorem ringSignals_stores (h : s.allEnded ls = true) :
    s.ringSignals k = (s.outerWrite a (bytesOf 8 v.toNat)).setRing k { s.ring k with signals := [] } := by
  rw [State.allEnded] at h
  simp only [State.ringSignals, hs, List.filter_cons, h, if_true, List.filter_nil, List.foldl_cons, List.foldl_nil,
    Bool.not_true, Bool.false_eq_true, if_false]

/-- Else it waits. -/
theorem ringSignals_waits (h : s.allEnded ls = false) :
    s.ringSignals k = s.setRing k { s.ring k with signals := [(a, v, ls)] } := by
  rw [State.allEnded] at h
  simp only [State.ringSignals, hs, List.filter_cons, h, Bool.false_eq_true, if_false, List.filter_nil, List.foldl_nil,
    Bool.not_false, if_true]

end

/-- The signals of a ring that had none, with a packet's. -/
theorem signalled_ring (hs : (s.ring k).signals = []) (addr : Nat) : (((s.popPacket k).modRing k fun r =>
    { r with signals := r.signals ++ [((s.packet addr).a, BitVec.ofNat 64 (s.packet addr).b, r.earlier)] }).ring
      k).signals = [((s.packet addr).a, BitVec.ofNat 64 (s.packet addr).b, (s.ring k).earlier)] := by
  rw [modRing_ring, popPacket_ring, hs]
  rfl

/-- A write at its home of lines without error stores its bytes. -/
theorem outerWrite_mem {pa : Nat} {bs : List Byte} (h : s.metError pa bs.length true = none) :
    (s.outerWrite pa bs).mem = Memory.put s.mem pa bs := by
  rw [outerWrite_clean h]
  rfl

end

/-! ### INDIRECT and its prologue (R418) -/

section
variable {s : State} {fe : Nat} {x : Prologue}

theorem outerWrite_dies (s : State) (pa : Nat) (bs : List Byte) : (s.outerWrite pa bs).dies = s.dies := by
  simp only [State.outerWrite]
  split
  · obtain ⟨m, rs, fs, ns, h⟩ := post_only (s := s.markFailed _) 0 evMachineCheck _ 0 _
    rw [State.postCheck, h]
    rfl
  · rfl

theorem Front.reg_setReg_other (f : Front) {n r : Nat} (h : n ≠ r) (v : DWord) : (f.setReg r v).reg n = f.reg n := by
  simp only [Front.setReg, Front.reg]
  split
  · rfl
  · split
    · rfl
    · exact tbl_get_set_other _ _ _ h

/-- The core as a prologue begins: the buffer, the packet's word and the return address in its registers. -/
def Front.called (f : Front) (buf c pc now : Nat) (x : Prologue) : Front :=
  { ((f.setReg 10 (BitVec.ofNat 64 buf)).setReg 11 (BitVec.ofNat 64 c)).setReg 1 x.back with
    pc := BitVec.ofNat 64 pc, prologue := some { x with since := now } }

theorem Front.called_regs (f : Front) (buf c pc now : Nat) (x : Prologue) :
    (f.called buf c pc now x).reg 10 = BitVec.ofNat 64 buf ∧ (f.called buf c pc now x).reg 11 = BitVec.ofNat 64 c ∧
      (f.called buf c pc now x).reg 1 = x.back := by
  have hr : ∀ n, (f.called buf c pc now x).reg n =
      (((f.setReg 10 (BitVec.ofNat 64 buf)).setReg 11 (BitVec.ofNat 64 c)).setReg 1 x.back).reg n := fun _ => rfl
  rw [hr, hr, hr, Front.reg_setReg_other _ (by decide), Front.reg_setReg_other _ (by decide),
    Front.reg_setReg _ (by decide), Front.reg_setReg_other _ (by decide), Front.reg_setReg _ (by decide),
    Front.reg_setReg _ (by decide)]
  exact ⟨rfl, rfl, rfl⟩

section
variable (hb : inHbm (s.front fe).buffer 256 = true) (hm : s.frontMay fe (s.front fe).buffer 256 = true)
include hb

theorem buffer_lt : (s.front fe).buffer < 2 ^ 64 := by
  simp only [inHbm, isHbm, Bool.and_eq_true, decide_eq_true_eq] at hb
  exact hb.1.trans (by decide)

include hm

/-- A prologue is called on a core that may reach its buffer. -/
theorem callPrologue_calls : ∃ f : Front, (s.callPrologue fe x).front fe =
    f.called (s.front fe).buffer (s.packet x.packet).c (s.packet x.packet).a (s.ticks 0) x := by
  refine ⟨(s.outerWrite (s.front fe).buffer (Memory.bytes s.mem (s.packet x.packet).b 256)).front fe, ?_⟩
  have hd : ∀ pa bs, (s.outerWrite pa bs).ticks 0 = s.ticks 0 := fun pa bs => by
    rw [State.ticks, State.die, outerWrite_dies]
    rfl
  simp only [State.callPrologue, hb, hm, Bool.not_true, Bool.or_self, Bool.false_eq_true, if_false, State.front_setFront,
    if_true, hd]
  rfl

/-- What INDIRECT's call leaves on the core. -/
theorem callPrologue_core : ((s.callPrologue fe x).front fe).pc.toNat = (s.packet x.packet).a ∧
    (((s.callPrologue fe x).front fe).reg 10).toNat = (s.front fe).buffer ∧
    (((s.callPrologue fe x).front fe).reg 11).toNat = (s.packet x.packet).c ∧
    ((s.callPrologue fe x).front fe).reg 1 = x.back ∧
    ((s.callPrologue fe x).front fe).prologue = some { x with since := s.ticks 0 } := by
  obtain ⟨f, hf⟩ := callPrologue_calls (x := x) hb hm
  rw [hf]
  obtain ⟨h10, h11, h1⟩ := f.called_regs (s.front fe).buffer (s.packet x.packet).c (s.packet x.packet).a (s.ticks 0) x
  rw [h10, h11]
  exact ⟨Nat.mod_eq_of_lt (packet_a_lt s _), Nat.mod_eq_of_lt (buffer_lt hb), Nat.mod_eq_of_lt (packet_c_lt s _), h1, rfl⟩

end

section
variable {n : Nat} (hx : (s.front fe).prologue = some x)
include hx

section
variable (hpc : (s.front fe).pc = x.back) (hr : (s.front fe).reg 10 = BitVec.ofNat 64 n)
  (hw : (s.front fe).swait = none) (hd : (s.front fe).xdisp = false)
include hpc hr hw hd

theorem prologueReturn_returned : s.prologueReturn fe n =
    if 1 < n ∧ x.calls < 64 then s.callPrologue fe { x with calls := x.calls + 1 } else s.endPrologue fe x.back := by
  simp only [State.prologueReturn, hx, hpc, hr, hw, hd, ne_eq, not_true_eq_false, Bool.false_eq_true, Option.isSome_none,
    or_self, if_false]

theorem prologueReturn_ends (h : n ≤ 1 ∨ 64 ≤ x.calls) : s.prologueReturn fe n = s.endPrologue fe x.back := by
  rw [prologueReturn_returned hx hpc hr hw hd, if_neg (by omega)]

theorem prologueReturn_repeats (h1 : 1 < n) (hc : x.calls < 64) :
    s.prologueReturn fe n = s.callPrologue fe { x with calls := x.calls + 1 } := by
  rw [prologueReturn_returned hx hpc hr hw hd, if_pos ⟨h1, hc⟩]

end

end

theorem prologueReturn_none {n : Nat} (hx : (s.front fe).prologue = none) : s.prologueReturn fe n = s := by
  simp only [State.prologueReturn, hx]

section
variable (hx : (s.front s.site).prologue = some x)
include hx

theorem exec_prologueTimeout_due (ht : x.since + 80000 ≤ s.ticks 0) :
    exec .prologueTimeout s = .next ((s.endPrologue s.site x.back).packetStatus x.packet 9 0) := by
  show execPrologueTimeout s = _
  simp only [execPrologueTimeout, hx, ht, if_true]

theorem exec_prologueTimeout_early (ht : s.ticks 0 < x.since + 80000) : exec .prologueTimeout s = .next s := by
  show execPrologueTimeout s = _
  simp only [execPrologueTimeout, hx, Nat.not_le.mpr ht, if_false]

end

theorem exec_prologueTimeout_none (hx : (s.front s.site).prologue = none) : exec .prologueTimeout s = .next s := by
  show execPrologueTimeout s = _
  simp only [execPrologueTimeout, hx]

end

/-! ### The packets' events -/

section
variable {s : State} {fe addr k : Nat} (hk : s.ringAt fe addr = some k) (ho : s.packetOk fe addr = true)
include hk ho

section
variable (hb : (s.ring k).batch = none) (hm : (s.packet addr).malformed = false)
include hb hm

section
variable (ht : s.takes addr 1 = true)
include ht

/-- A LAUNCH submits its record. -/
theorem exec_launchPacket_submits (hr : isRecord (s.packet addr).a = true)
    (hf : s.frontOk fe (s.packet addr).a 256 = true) : exec (.launchPacket fe addr) s =
      .next { s.popPacket k with submissions := s.submissions ++
        [s.frontRecord fe (some k) (Memory.bytes s.mem (s.packet addr).a 256) (.packet k addr)] } := by
  refine congrArg Host.Outcome.next ((takePacket_runs hk ho ht hb hm).trans ?_)
  simp only [member_popPacket, member_record hr hf]
  rfl

theorem exec_launchPacket_unreadable
    (h : isRecord (s.packet addr).a = false ∨ s.frontOk fe (s.packet addr).a 256 = false) :
    exec (.launchPacket fe addr) s = .next ((s.popPacket k).packetStatus addr 9 0) := by
  refine congrArg Host.Outcome.next ((takePacket_runs hk ho ht hb hm).trans ?_)
  simp only [member_popPacket, member_none h]

end

section
variable (ht : s.takes addr 4 = true) (ha : (s.packet addr).a % 8 = 0) (hf : s.frontOk fe (s.packet addr).a 8 = true)
include ht ha hf

/-- A WAIT whose signal is there reads it as its core does, and goes on or holds the ring. -/
theorem exec_waitPacket : exec (.waitPacket fe addr) s = .next
    (if (s.packet addr).b ≤ s.frontRead (s.packet addr).a 8 ∧ s.frontWaits (s.packet addr).a = false then s.popPacket k
     else (s.popPacket k).modRing k fun r =>
      { r with hold := some ((s.packet addr).a, BitVec.ofNat 64 (s.packet addr).b) }) := by
  refine congrArg Host.Outcome.next ((takePacket_runs hk ho ht hb hm).trans ?_)
  have hf' : (s.popPacket k).frontOk fe (s.packet addr).a 8 = true := hf
  simp only [ha, hf', ne_eq, not_true_eq_false, decide_false, Bool.not_true, Bool.or_self, Bool.false_eq_true, if_false]
  rfl

theorem exec_waitPacket_passes (hv : (s.packet addr).b ≤ s.frontRead (s.packet addr).a 8)
    (hw : s.frontWaits (s.packet addr).a = false) : exec (.waitPacket fe addr) s = .next (s.popPacket k) := by
  rw [exec_waitPacket hk ho hb hm ht ha hf, if_pos ⟨hv, hw⟩]

theorem exec_waitPacket_holds (hv : s.frontRead (s.packet addr).a 8 < (s.packet addr).b) :
    exec (.waitPacket fe addr) s = .next ((s.popPacket k).modRing k fun r =>
      { r with hold := some ((s.packet addr).a, BitVec.ofNat 64 (s.packet addr).b) }) := by
  rw [exec_waitPacket hk ho hb hm ht ha hf, if_neg fun h => absurd h.1 (Nat.not_le.mpr hv)]

end

section
variable (ht : s.takes addr 5 = true) (ha : (s.packet addr).a % 8 = 0) (hf : s.frontMay fe (s.packet addr).a 8 = true)
  (hw : paKind (s.packet addr).a ≠ 3) (hs : (s.ring k).signals = [])
include ht ha hf hw

/-- A SIGNAL is one more of the ring's, which are then looked at. -/
theorem exec_signalPacket : exec (.signalPacket fe addr) s = .next (((s.popPacket k).modRing k fun r =>
    { r with signals := r.signals ++ [((s.packet addr).a, BitVec.ofNat 64 (s.packet addr).b, r.earlier)] }).ringSignals
      k) := by
  refine congrArg Host.Outcome.next ((takePacket_runs hk ho ht hb hm).trans ?_)
  have hf' : (s.popPacket k).frontMay fe (s.packet addr).a 8 = true := hf
  simp only [ha, hf', decide_eq_false hw, ne_eq, not_true_eq_false, decide_false, Bool.not_true, Bool.or_self,
    Bool.false_eq_true, if_false]

include hs

theorem exec_signalPacket_stores (hl : ∀ l ∈ (s.ring k).earlier, (s.launch l).ended = true ∧ s.launchSettled l = true)
    (he : s.metError (s.packet addr).a 8 true = none) : ∃ w, exec (.signalPacket fe addr) s = .next w ∧
      w.mem = Memory.put s.mem (s.packet addr).a (bytesOf 8 (s.packet addr).b) ∧ (w.ring k).signals = [] := by
  refine ⟨_, (exec_signalPacket hk ho hb hm ht ha hf hw).trans (congrArg Host.Outcome.next
    (ringSignals_stores (signalled_ring hs addr) (allEnded_true hl))), ?_, ?_⟩
  · rw [State.setRing_mem, outerWrite_mem (by rw [bytesOf_length]; exact he), BitVec.toNat_ofNat,
      Nat.mod_eq_of_lt (packet_b_lt s addr)]
    rfl
  · rw [State.ring_setRing, if_pos rfl]

theorem exec_signalPacket_waits
    (hl : ∃ l ∈ (s.ring k).earlier, (s.launch l).ended = false ∨ s.launchSettled l = false) :
    ∃ w, exec (.signalPacket fe addr) s = .next w ∧ w.mem = s.mem ∧
      (w.ring k).signals = [((s.packet addr).a, BitVec.ofNat 64 (s.packet addr).b, (s.ring k).earlier)] := by
  refine ⟨_, (exec_signalPacket hk ho hb hm ht ha hf hw).trans (congrArg Host.Outcome.next
    (ringSignals_waits (signalled_ring hs addr) (allEnded_false hl))), rfl, ?_⟩
  rw [State.ring_setRing, if_pos rfl]

end

/-- INDIRECT calls the prologue on a copy of its template. -/
theorem exec_indirectPacket_calls (ht : s.takes addr 6 = true) (hr : isRecord (s.packet addr).b = true)
    (hf : s.frontOk fe (s.packet addr).b 256 = true) : exec (.indirectPacket fe addr) s =
      .next ((s.popPacket k).callPrologue fe ⟨k, addr, 1, 0, (s.front fe).pc⟩) := by
  refine congrArg Host.Outcome.next ((takePacket_runs hk ho ht hb hm).trans ?_)
  have hf' : (s.popPacket k).frontOk fe (s.packet addr).b 256 = true := hf
  simp only [hr, hf', Bool.and_self, if_true]
  rfl

end

/-- Each event answers a malformed packet with code 9. -/
theorem exec_malformedPacket (hb : (s.ring k).batch = none) (hm : (s.packet addr).malformed = true) :
    ∀ q ∈ [(1, Instr.launchPacket fe addr), (2, .beginPacket fe addr), (4, .waitPacket fe addr),
      (5, .signalPacket fe addr), (6, .indirectPacket fe addr)], s.takes addr q.1 = true →
      exec q.2 s = .next ((s.popPacket k).packetStatus addr 9 0) := by
  have h : ∀ (type : Nat) (f : State → Nat → Packet → State), s.takes addr type = true →
      (.next (s.takePacket fe addr type f) : Host.Outcome State Fault Refusal) =
        .next ((s.popPacket k).packetStatus addr 9 0) :=
    fun _ _ ht => congrArg Host.Outcome.next (takePacket_malformed hk ho ht hb hm)
  simp only [List.forall_mem_cons]
  exact ⟨h 1 _, h 2 _, h 4 _, h 5 _, h 6 _, fun _ h => nomatch h⟩

/-- A packet that is no LAUNCH spoils a batch. -/
theorem exec_batchPacket {b : Nat} {ms : List Nat} {bad : Bool} (hb : (s.ring k).batch = some (b, ms, bad)) :
    ∀ q ∈ [(2, Instr.beginPacket fe addr), (4, .waitPacket fe addr), (5, .signalPacket fe addr),
      (6, .indirectPacket fe addr)], s.takes addr q.1 = true → exec q.2 s =
        .next ((s.popPacket k).modRing k fun r => { r with batch := some (b, ms ++ [addr], true) }) := by
  have h : ∀ (type : Nat) (f : State → Nat → Packet → State), type ≠ 1 → s.takes addr type = true →
      (.next (s.takePacket fe addr type f) : Host.Outcome State Fault Refusal) =
        .next ((s.popPacket k).modRing k fun r => { r with batch := some (b, ms ++ [addr], true) }) :=
    fun _ _ h1 ht => congrArg Host.Outcome.next (takePacket_spoils hk ho ht hb h1)
  simp only [List.forall_mem_cons]
  exact ⟨h 2 _ (by decide), h 4 _ (by decide), h 5 _ (by decide), h 6 _ (by decide), fun _ h => nomatch h⟩

end

end Sys2Proof.Machine

open Sys2Proof Sys2Proof.Machine

/-- Settles O60: a packet is taken alone, within a batch, or as malformed, and what it does then reads the state as it was
but for the ring's own first packet. -/
theorem packets : Obligations.Packets := by
  intro s fe addr k n b i c v ms bad xs x p r f t u
  refine ⟨fun hk ho => ⟨fun hb hm => ⟨fun ht hr hf => exec_launchPacket_submits hk ho hb hm ht hr hf,
        fun ht h => exec_launchPacket_unreadable hk ho hb hm ht h,
        fun ht => congrArg Host.Outcome.next (takePacket_runs hk ho ht hb hm),
        fun ht ha hf => ⟨fun hv hw => exec_waitPacket_passes hk ho hb hm ht ha hf hv hw,
          fun hv => exec_waitPacket_holds hk ho hb hm ht ha hf hv⟩,
        fun ht ha hf hw hs => ⟨fun hl he => exec_signalPacket_stores hk ho hb hm ht ha hf hw hs hl he,
          fun hl => exec_signalPacket_waits hk ho hb hm ht ha hf hw hs hl⟩,
        fun ht hr hf hi hmay => ⟨_, exec_indirectPacket_calls hk ho hb hm ht hr hf,
          callPrologue_core (s := s.popPacket k) hi hmay⟩⟩,
      exec_malformedPacket hk ho, fun hb ht => congrArg Host.Outcome.next (takeCommit_alone hk ho ht hb),
      fun hb => ⟨fun ht hm hl => congrArg Host.Outcome.next (takePacket_member hk ho ht hb rfl hm hl),
        exec_batchPacket hk ho hb, fun ht hm => ?_⟩⟩,
    fun hk hh hv hw => ?_, fun h => exec_waitPacketRelease_idle (heldRing_none h), fun hsite => ?_,
    fun hx hpc hr hw hd => ⟨fun h => congrArg Host.Outcome.next (prologueReturn_ends hx hpc hr hw hd h),
      fun h1 hc hi hmay => ?_⟩, fun hx => congrArg Host.Outcome.next (prologueReturn_none hx)⟩
  · have hcommit := takeCommit_batch hk ho ht hb hm
    exact ⟨fun h => congrArg Host.Outcome.next (hcommit.trans (commitBatch_bad h)), fun hbad hne =>
      ⟨fun hv => congrArg Host.Outcome.next (hcommit.trans (commitBatch_invalid hbad hne hv)),
        fun hv ha => congrArg Host.Outcome.next (hcommit.trans (commitBatch_refused hbad hne hv ha)),
        fun w ls hv ha => congrArg Host.Outcome.next (hcommit.trans (commitBatch_admits hbad hne hv ha))⟩⟩
  · obtain ⟨j, hj, hheld⟩ := heldRing_some hk hh hv hw
    exact ⟨j, hj, exec_waitPacketRelease_frees hheld⟩
  · subst hsite
    exact ⟨fun hx => ⟨exec_prologueTimeout_due hx, exec_prologueTimeout_early hx⟩, exec_prologueTimeout_none⟩
  · obtain ⟨hpc', -, -, -, hpro⟩ := callPrologue_core (x := { x with calls := x.calls + 1 }) hi hmay
    exact ⟨_, congrArg Host.Outcome.next (prologueReturn_repeats hx hpc hr hw hd h1 hc), hpro, hpc'⟩
end
